-- ==== Sys2Proof/Word.lean ====
section
/-! DEFINITION. The words that the manual treats as bits: bytes on the lines, cell sequences, counters. -/

namespace Sys2Proof

/-- A byte on an order port, a cell link or a highway (R28, R162, R187). -/
abbrev Byte := BitVec 8

/-- A cell sequence number, 16 bits, compared by distance (00, Sequence arithmetic). -/
abbrev Seq16 := BitVec 16

/-- A wrapping 32-bit counter: the per-context counters (R2) and the period counter (R80). -/
abbrev Count32 := BitVec 32

/-- The 40-bit count of a tally (R180). -/
abbrev Count40 := BitVec 40

end Sys2Proof
end

