-- ==== Sys2Proof/Syntax.lean ====
section
/-! DEFINITION. The commands of the block: one constructor of `Instr` for every row of spec/opcode_table.json. -/

namespace Sys2Proof

/-- The two order ports. -/
inductive Port where
  | a
  | b
deriving DecidableEq, Repr

/-- The order codes the part knows (R189); LANE_SERVICE and RESET are one code each. -/
inductive OrderCode where
  | keepalive | superviseSet | notices | batch | reset | adopt
  | openContext | retire | query | arm | hold | resume | setPriority
  | bindSlot | bindStream | unbindSlot | unbindStream | relink
  | profileLoad | profileClear | profileRead | setProfile | setRateset | setRate
  | handoverPrepare | handoverCommit | handoverCancel | setSupervision
  | setLevel | levelDefaults | setPlayout | laneService | faultRead
  | sweep | sweepAbort | sweepContinue | sweepStatus | tallySet | tallyRead | inspect
deriving DecidableEq, Repr

/-- The commands. An order's row stands for the claim in which a good frame of that order completes at port `p`:
its operands are the port, the frame's tag and the frame's body bytes (R162, R163, R187). -/
inductive Instr where
  /-- KEEPALIVE, R176. -/
  | keepalive (p : Port) (tag : Byte) (body : List Byte)
  /-- SUPERVISE_SET, R173. -/
  | superviseSet (p : Port) (tag : Byte) (body : List Byte)
  /-- NOTICES, R169. -/
  | notices (p : Port) (tag : Byte) (body : List Byte)
  /-- BATCH, R165. -/
  | batch (p : Port) (tag : Byte) (body : List Byte)
  /-- The next sub-order of the batch being taken at the port, R166. -/
  | batchSubOrder (p : Port)
  /-- The first frame held at the port is taken up, R166. -/
  | heldFrameTaken (p : Port)
  /-- RESET with kind SOFT, R177. -/
  | resetSoft (p : Port) (tag : Byte)
  /-- RESET with kind HARD, R177. -/
  | resetHard (p : Port) (tag : Byte)
  /-- The last byte of the port's HARD RESET response has left: the hard reset, R177. -/
  | hardResetPerformed (p : Port)
  /-- ADOPT, R174. -/
  | adopt (p : Port) (tag : Byte) (body : List Byte)
  /-- OPEN, R8. -/
  | openContext (p : Port) (tag : Byte) (body : List Byte)
  /-- RETIRE, R19. -/
  | retire (p : Port) (tag : Byte) (body : List Byte)
  /-- QUERY, R9. -/
  | query (p : Port) (tag : Byte) (body : List Byte)
  /-- ARM, R10. -/
  | arm (p : Port) (tag : Byte) (body : List Byte)
  /-- HOLD, R13. -/
  | hold (p : Port) (tag : Byte) (body : List Byte)
  /-- RESUME, R15. -/
  | resume (p : Port) (tag : Byte) (body : List Byte)
  /-- SET_PRIORITY, R16. -/
  | setPriority (p : Port) (tag : Byte) (body : List Byte)
  /-- BIND_SLOT, R31. -/
  | bindSlot (p : Port) (tag : Byte) (body : List Byte)
  /-- BIND_STREAM, R33. -/
  | bindStream (p : Port) (tag : Byte) (body : List Byte)
  /-- UNBIND_SLOT, R32. -/
  | unbindSlot (p : Port) (tag : Byte) (body : List Byte)
  /-- UNBIND_STREAM, R34. -/
  | unbindStream (p : Port) (tag : Byte) (body : List Byte)
  /-- RELINK, R35. -/
  | relink (p : Port) (tag : Byte) (body : List Byte)
  /-- PROFILE_LOAD, R50. -/
  | profileLoad (p : Port) (tag : Byte) (body : List Byte)
  /-- PROFILE_CLEAR, R51. -/
  | profileClear (p : Port) (tag : Byte) (body : List Byte)
  /-- PROFILE_READ, R52. -/
  | profileRead (p : Port) (tag : Byte) (body : List Byte)
  /-- SET_PROFILE, R53. -/
  | setProfile (p : Port) (tag : Byte) (body : List Byte)
  /-- SET_RATESET, R116. -/
  | setRateset (p : Port) (tag : Byte) (body : List Byte)
  /-- SET_RATE, R113. -/
  | setRate (p : Port) (tag : Byte) (body : List Byte)
  /-- HANDOVER_PREPARE, R123. -/
  | handoverPrepare (p : Port) (tag : Byte) (body : List Byte)
  /-- HANDOVER_COMMIT, R129. -/
  | handoverCommit (p : Port) (tag : Byte) (body : List Byte)
  /-- HANDOVER_CANCEL, R132. -/
  | handoverCancel (p : Port) (tag : Byte) (body : List Byte)
  /-- SET_SUPERVISION, R140. -/
  | setSupervision (p : Port) (tag : Byte) (body : List Byte)
  /-- SET_LEVEL, R94. -/
  | setLevel (p : Port) (tag : Byte) (body : List Byte)
  /-- LEVEL_DEFAULTS, R95. -/
  | levelDefaults (p : Port) (tag : Byte) (body : List Byte)
  /-- SET_PLAYOUT, R102. -/
  | setPlayout (p : Port) (tag : Byte) (body : List Byte)
  /-- LANE_SERVICE with direction out, R62, R63. -/
  | laneServiceOut (p : Port) (tag : Byte) (lane : Byte)
  /-- LANE_SERVICE with direction in, R62, R64. -/
  | laneServiceIn (p : Port) (tag : Byte) (lane : Byte)
  /-- FAULT_READ, R76. -/
  | faultRead (p : Port) (tag : Byte) (body : List Byte)
  /-- SWEEP, R150. -/
  | sweep (p : Port) (tag : Byte) (body : List Byte)
  /-- SWEEP_ABORT, R157. -/
  | sweepAbort (p : Port) (tag : Byte) (body : List Byte)
  /-- SWEEP_CONTINUE, R158. -/
  | sweepContinue (p : Port) (tag : Byte) (body : List Byte)
  /-- SWEEP_STATUS, R159. -/
  | sweepStatus (p : Port) (tag : Byte) (body : List Byte)
  /-- TALLY_SET, R182. -/
  | tallySet (p : Port) (tag : Byte) (body : List Byte)
  /-- TALLY_READ, R183. -/
  | tallyRead (p : Port) (tag : Byte) (body : List Byte)
  /-- INSPECT, R185. -/
  | inspect (p : Port) (tag : Byte) (body : List Byte)
  /-- A good frame whose code is not one of the part's orders, R164. -/
  | unknownOrder (p : Port) (code tag : Byte) (body : List Byte)
  /-- A frame whose checksum fails, R162. -/
  | badFrame (p : Port) (code tag : Byte)
  /-- A length field above 1020, R162. -/
  | frameTooLong (p : Port) (length : Nat)
  /-- A good frame that completes while 8 responses wait, R163. -/
  | frameDiscardedFullLine (p : Port) (code tag : Byte) (body : List Byte)
  /-- A frame that completes while a batch is taken and 8 frames are held, R166. -/
  | frameDiscardedBatchHold (p : Port) (good : Bool) (code tag : Byte) (body : List Byte)
  /-- The last byte of the response at the head of the line leaves, R163. -/
  | responseSent (p : Port)
  /-- Assertion of the reset pin, R177. -/
  | resetPin
  /-- Power-on, R24. -/
  | powerOn
  /-- A highway frame mark; `rx` lists (slot, code) received in the highway frame that this mark ends, R80, R26. -/
  | frameMark (rx : List (Nat × Byte))
  /-- 250 us without a mark, R81. -/
  | framingLost
  /-- The boundary claim of the context at index `i`, R84. -/
  | boundaryClaim (i : Fin 2048)
  /-- The boundary taken at a port, R171. -/
  | portBoundary (p : Port)
  /-- The port boundary at which the count reaches its limit, R172. -/
  | portSilent (p : Port)
  /-- The boundary claim in which the first-cell wait expires, R141. -/
  | firstCellExpiry (i : Fin 2048)
  /-- The boundary claim in which the silence count reaches the limit, R143. -/
  | silenceLimit (i : Fin 2048)
  /-- The boundary claim in which the silence count reaches twice the limit, R143. -/
  | silenceRetire (i : Fin 2048)
  /-- The boundary claim in which the handover deadline runs out, R130. -/
  | handoverExpiry (i : Fin 2048)
  /-- An inbound link frame: the bytes it carried, R28, R38. -/
  | cellArrival (link : Fin 4) (bytes : List Byte)
  /-- A free lane takes the waiting work of a context, R61. -/
  | laneTakesWork (lane : Fin 8) (i : Fin 2048)
  /-- A lane finishes its work, R86. -/
  | workCompletion (lane : Fin 8)
  /-- A LANE_CHECK fault, R72. -/
  | laneCheck (lane : Fin 8)
  /-- A CONTEXT_CHECK fault, R73. -/
  | contextCheck (lane : Fin 8)
  /-- A QUEUE_CHECK fault, R74. -/
  | queueCheck (lane : Fin 8)
  /-- A visit of the port's sweep, R154. -/
  | sweepVisit (p : Port)
  /-- A byte arriving on the port's receive line, R162. -/
  | incomingByte (p : Port) (byte : Byte)
  /-- The cell at the head of a link's transmit path has left, R28. -/
  | outboundCellSent (link : Fin 4)
  /-- Release of the reset pin, R177. -/
  | resetPinReleased
deriving DecidableEq, Repr

end Sys2Proof
end

