-- ==== Sys2Proof/Decode.lean ====
section
/-! DEFINITION. Words that spell commands: spec/opcode_table.json gives none of its rows any bits, so no word does. -/

namespace Sys2Proof

/-- The command that a word of the table's bits spells: none, since no row has bits. -/
def decodeTableWord (_ _ : Nat) : Option Instr := none

end Sys2Proof
end

