-- ==== Sys2Proof/Config.lean ====
section
/-! DEFINITION. The sizes the manual fixes, and the free values: constants with no body, so that no proof can know
what they are. Each is applied to the counter `freeCount` of State (a fresh draw), so two draws need not agree. -/

namespace Sys2Proof

/-- Records in the context table (R1). -/
def Config.contexts : Nat := 2048
/-- Entries in the stream map (R30). -/
def Config.streamEntries : Nat := 4096
/-- Work units a lane in service gives per period (R57). -/
def Config.laneUnits : Nat := 12000
/-- Conversion lanes (R60). -/
def Config.lanes : Nat := 8
/-- Highway frames, and codes of a block, in a period (R26, R80). -/
def Config.periodFrames : Nat := 160
/-- Responses a response line holds (R163), and frames held while a batch is taken (R166). -/
def Config.lineDepth : Nat := 8
/-- The longest body of a frame (R162). -/
def Config.maxBody : Nat := 1020

/-- DESIGN CHOICE (log 5), safe. The code received in `slot` in a highway frame whose FRAME_MARK command does not
list the slot: any byte. -/
opaque Config.receivedCode (draw slot : Nat) : Byte

/-- R90, log 8. Byte `k` of the payload that the kernel of `family` encodes from the linear samples `levels` at a
rate of `length` bytes: "A downlink payload may be any bytes of the rate's payload length." -/
opaque Config.payloadByte (draw family length : Nat) (levels : List Int) (k : Nat) : Byte

/-- R90, log 8. Uplink sample `k` of the kernel of `family`: "any value within −32768..32767". `kind` is the uplink
decision, `rate` and `content` its frame, `history` the kernel's history. -/
opaque Config.uplinkSample (draw family kind rate : Nat) (content : List Byte) (history k : Nat) : BitVec 16

end Sys2Proof
end

