-- ==== Sys2Proof/Machine/Tab.lean ====
section
/-! DEFINITION. Sparse tables: a list of (index, value) pairs with rising indices and no entry equal to what an
unlisted index reads as. Every table of the part is held so; what an unlisted index reads as is its reset value. -/

namespace Sys2Proof.Machine

/-- A table addressed by index. -/
abbrev Tab (α : Type) := List (Nat × α)

namespace Tab

/-- The entry at `i`; `d i` where the table lists none. -/
def get {α : Type} (d : Nat → α) : Tab α → Nat → α
  | [], i => d i
  | (j, v) :: t, i => if i = j then v else get d t i

/-- The table without an entry at `i`. -/
def erase {α : Type} : Tab α → Nat → Tab α
  | [], _ => []
  | (j, v) :: t, i => if i = j then erase t i else (j, v) :: erase t i

/-- The table with `v` placed at `i`, before the first larger index. -/
def insert {α : Type} : Tab α → Nat → α → Tab α
  | [], i, v => [(i, v)]
  | (j, w) :: t, i, v => if i < j then (i, v) :: (j, w) :: t else (j, w) :: insert t i v

/-- The table with the entry at `i` set to `v`; an entry that equals its reset value is not listed. -/
def set {α : Type} [DecidableEq α] (d : Nat → α) (t : Tab α) (i : Nat) (v : α) : Tab α :=
  if v = d i then erase t i else insert (erase t i) i v

/-- The listed indices, rising. -/
def keys {α : Type} (t : Tab α) : List Nat := t.map Prod.fst

/-- Every listed entry changed by `f`; for an `f` that keeps the reset value. -/
def mapValues {α : Type} (f : α → α) (t : Tab α) : Tab α := t.map fun e => (e.1, f e.2)

/-- The canonical form: indices strictly rising, no entry equal to its reset value. -/
def wf {α : Type} [DecidableEq α] (d : Nat → α) : Tab α → Bool
  | [] => true
  | (i, v) :: t => decide (v ≠ d i) && (keys t).all (fun j => decide (i < j)) && wf d t

/-- The first index from `i` on, of `n` indices, at which `p` holds; `i + n` where there is none. -/
def lowestFrom (p : Nat → Bool) : Nat → Nat → Nat
  | 0, i => i
  | n + 1, i => if p i then i else lowestFrom p n (i + 1)

end Tab

end Sys2Proof.Machine
end

