-- ==== Sys2Proof/Machine/State.lean ====
section
/-! DEFINITION. The state of the part as plain data, block by block, and the part right after power-on. -/

namespace Sys2Proof.Machine

/-! ### The context record -/

/-- The six states of a context (R1). -/
inductive CtxState where
  | free | opened | armed | active | held | closed
deriving DecidableEq, Repr

/-- The converting state a held context left (R7). -/
inductive HeldFrom where
  | armed | active
deriving DecidableEq, Repr

/-- Why a context is held (R7). -/
inductive HoldCause where
  | order | shed | fault
deriving DecidableEq, Repr

/-- Why supervision closed a context (R7). -/
inductive RetireCause where
  | silence | noFirstCell
deriving DecidableEq, Repr

/-- The companding law of a slot binding (R31, R91). -/
inductive Law where
  | aLaw | muLaw
deriving DecidableEq, Repr

/-- The four rounding modes (R93). -/
inductive RoundMode where
  | nearestEven | towardZero | downward | upward
deriving DecidableEq, Repr

/-- A context's rounding field: a mode, or DEFAULT (R94). -/
inductive Rounding where
  | mode (m : RoundMode)
  | deviceDefault
deriving DecidableEq, Repr

/-- Who asked for a rate (R105). -/
inductive RateSource where
  | cell | order
deriving DecidableEq, Repr

/-- The context conditions (R167). -/
inductive Cond where
  | firstCell | noFirstCell | stale | rateChanged | rateRefused | handoverDone
  | handoverFailed | shed | readmitted | faulted | clipping | retired
deriving DecidableEq, Repr

/-- The port conditions (R168). -/
inductive PortCond where
  | sweepDone | laneOut | laneBack | faultCaptured | partnerSilent | partnerLive
deriving DecidableEq, Repr

/-- A set of context conditions, by the bit positions of R191. -/
abbrev CondSet := BitVec 12

/-- A set of port conditions, by the bit positions of R191. -/
abbrev PortCondSet := BitVec 6

/-- A set of rate indices: bit i is set when index i is in it (R187). -/
abbrev RateSet := BitVec 8

/-- A context's identity as orders see it. -/
structure Handle where
  index : Nat
  gen : Byte
deriving DecidableEq, Repr

/-- A cell link and a stream tag. -/
structure StreamKey where
  link : Nat
  tag : Nat
deriving DecidableEq, Repr

/-- A slot binding (R31). -/
structure SlotBinding where
  slot : Nat
  law : Law
deriving DecidableEq, Repr

/-- A handover record (R122). -/
structure Handover where
  key : StreamKey
  bicast : Bool
  remaining : Nat
deriving DecidableEq, Repr

/-- A pending rate request (R105). -/
structure RateRequest where
  rate : Nat
  source : RateSource
deriving DecidableEq, Repr

/-- The kind of a queue entry (R96). -/
inductive EntryKind where
  | speech | silenceUpdate | noData | erased
deriving DecidableEq, Repr

/-- An entry of a playout queue (R96); `payload` is empty for NO_DATA and ERASED. -/
structure QEntry where
  seq : Seq16
  kind : EntryKind
  rate : Nat
  payload : List Byte
deriving DecidableEq, Repr

/-- The eight counters of a context, each 32-bit and wrapping (R2). -/
structure Counters where
  cellsIn : Count32
  cellsOut : Count32
  late : Count32
  duplicate : Count32
  bad : Count32
  resync : Count32
  concealed : Count32
  clipPeriods : Count32
deriving DecidableEq, Repr

/-- The kernel families (R47). -/
inductive Family where
  | narrowMulti | narrowSingle | wideMulti
deriving DecidableEq, Repr

/-- The uplink decision of a work (R90, R100). `noise` carries the comfort-noise description in force; `silence` is
a NO_DATA entry where the kernel holds none. -/
inductive Uplink where
  | noSamples
  | speech (rate : Nat) (payload : List Byte)
  | noise (description : List Byte)
  | silence
  | conceal
deriving DecidableEq, Repr

/-- A period work: what its start fixed (R85). `primary` is absent only where the context held no primary stream,
which no converting context does. `history` is the kernel's history the work decodes from. -/
structure Work where
  rate : Nat
  length : Nat
  family : Family
  primary : Option StreamKey
  bicast : Option StreamKey
  outSeq : Seq16
  gainLand : Int
  gainMobile : Int
  round : RoundMode
  clipReport : Bool
  landline : List Byte
  uplink : Uplink
  history : Nat
deriving DecidableEq, Repr

/-- A context record (R2), with its work in flight, its ready block (R87) and its kernel's description and history
(R90). The index is the record's place in the table. -/
structure Ctx where
  gen : Byte
  state : CtxState
  holdCause : Option HoldCause
  heldFrom : Option HeldFrom
  retireCause : Option RetireCause
  owner : Port
  orphaned : Bool
  priority : Nat
  slot : Option SlotBinding
  primary : Option StreamKey
  handover : Option Handover
  profile : Option Nat
  permitted : Option RateSet
  rate : Option Nat
  request : Option RateRequest
  sinceRate : Nat
  outSeq : Seq16
  expected : Option Seq16
  queue : List QEntry
  priming : Bool
  depth : Nat
  firstDeadline : Nat
  firstRemaining : Option Nat
  silenceLimit : Nat
  silence : Nat
  staleRaised : Bool
  autoRetire : Bool
  gainLand : Int
  gainMobile : Int
  rounding : Rounding
  clipReport : Bool
  counters : Counters
  conds : CondSet
  work : Option Work
  ready : Option (List Byte)
  noise : Option (List Byte)
  history : Nat
deriving DecidableEq, Repr

/-- A context record at power-on: FREE, generation 0, owner Port A, the "At OPEN" values (R2, R24). The priority is
the default 2 of that column. -/
def Ctx.reset : Ctx where
  gen := 0
  state := .free
  holdCause := none
  heldFrom := none
  retireCause := none
  owner := .a
  orphaned := false
  priority := 2
  slot := none
  primary := none
  handover := none
  profile := none
  permitted := none
  rate := none
  request := none
  sinceRate := 0
  outSeq := 0
  expected := none
  queue := []
  priming := false
  depth := 2
  firstDeadline := 250
  firstRemaining := none
  silenceLimit := 50
  silence := 0
  staleRaised := false
  autoRetire := false
  gainLand := 0
  gainMobile := 0
  rounding := .deviceDefault
  clipReport := false
  counters := ⟨0, 0, 0, 0, 0, 0, 0, 0⟩
  conds := 0
  work := none
  ready := none
  noise := none
  history := 0

/-! ### Maps, profiles, account, lanes -/

/-- The role of a stream map entry (R30). -/
inductive Role where
  | primary | handover
deriving DecidableEq, Repr

/-- A filled stream map entry (R30). -/
structure StreamEntry where
  key : StreamKey
  index : Nat
  role : Role
deriving DecidableEq, Repr

/-- An entry of a rate table (R44). -/
structure RateEntry where
  bytes : Nat
  cost : Nat
deriving DecidableEq, Repr

/-- The contents of a LOADED or FIXED profile slot (R44). -/
structure Profile where
  family : Family
  table : List RateEntry
  defaultIndex : Nat
  hold : Nat
  stamp : BitVec 16
deriving DecidableEq, Repr

/-- The state of a profile slot with its contents: an EMPTY slot has none (R44). -/
inductive ProfileState where
  | vacant
  | loaded (contents : Profile)
  | fixed (contents : Profile)
deriving DecidableEq, Repr

/-- A profile slot (R44). -/
structure ProfileSlot where
  state : ProfileState
  refs : Nat
deriving DecidableEq, Repr

/-- The service state of a lane (R60). -/
inductive LaneState where
  | inService | outOrder | outFault
deriving DecidableEq, Repr

/-- A lane: its service state and the index of the context whose work it has in hand (R60). -/
structure Lane where
  state : LaneState
  inHand : Option Nat
deriving DecidableEq, Repr

/-- The kinds of fault (R71). -/
inductive FaultKind where
  | laneCheck | contextCheck | queueCheck
deriving DecidableEq, Repr

/-- The fields of a valid fault capture record (R75). -/
structure FaultRecord where
  kind : FaultKind
  lane : Nat
  context : Option Handle
  period : Count32
deriving DecidableEq, Repr

/-- The fault capture record: `record` is present exactly while valid is yes (R75). -/
structure Capture where
  record : Option FaultRecord
  further : Bool
deriving DecidableEq, Repr

/-! ### Frame timer, highway, links -/

/-- A value per order port. -/
structure PerPort (α : Type) where
  a : α
  b : α
deriving DecidableEq, Repr

/-- The frame timer (R80): `frame` is the frame count, present exactly while LOCKED. `owed` says that claims of the
last boundary may be outstanding, `claimed` which contexts have taken theirs, `portDue` which ports have not (R82). -/
structure Timer where
  frame : Option Nat
  period : Count32
  owed : Bool
  claimed : Tab Bool
  portDue : PerPort Bool
deriving DecidableEq, Repr

/-- The blocks of a slot (R26): the one being collected (absent where collection starts at the next boundary), the
one handed over at the last boundary, and the outbound block (absent where the slot is idle). -/
structure SlotBlocks where
  inbound : Option (List Byte)
  handed : Option (List Byte)
  outbound : Option (List Byte)
deriving DecidableEq, Repr

/-- A cell handed to a link (R28): kind SPEECH, quality good and rate request none in every one. -/
structure OutCell where
  tag : Nat
  rate : Nat
  seq : Seq16
  payload : List Byte
deriving DecidableEq, Repr

/-! ### Sweeps and tallies -/

/-- The result codes (R190). -/
inductive Result where
  | ok | badFrame | unknownOrder | badLength | badField | staleHandle | notOwner | wrongState | incomplete
  | noContext | noCapacity | slotTaken | streamTaken | profileEmpty | profileInUse | profileFixed | sweepBusy
  | skipped
deriving DecidableEq, Repr

/-- The states of a sweep (R149). -/
inductive SweepState where
  | idle | running | suspended
deriving DecidableEq, Repr

/-- The actions of a sweep (R149, R152). -/
inductive SweepAction where
  | retire
  | hold
  | resume
  | relink (link : Nat)
  | rerateLow
  | setPriority (priority : Nat)
  | adopt
deriving DecidableEq, Repr

/-- A selector: five optional criteria (R151); the state set by the state codes of R187. -/
structure Selector where
  states : Option (BitVec 6)
  link : Option Nat
  highway : Option Nat
  profile : Option Nat
  priority : Option Nat
deriving DecidableEq, Repr

/-- The stop rules (R149). -/
inductive StopRule where
  | never | onRefusal | onFirstAction
deriving DecidableEq, Repr

/-- The stop reasons (R149). -/
inductive StopReason where
  | none | count | endOfTable | refusal | firstAction | aborted | reset
deriving DecidableEq, Repr

/-- A sweep record (R149). -/
structure Sweep where
  state : SweepState
  action : Option SweepAction
  selector : Option Selector
  stopRule : Option StopRule
  cursor : Nat
  remaining : Nat
  visited : Nat
  matched : Nat
  acted : Nat
  refused : Nat
  lastRefusal : Option (Nat × Result)
  stopReason : StopReason
deriving DecidableEq, Repr

/-- The sweep record at power-on (R161). -/
def Sweep.reset : Sweep where
  state := .idle
  action := none
  selector := none
  stopRule := none
  cursor := 0
  remaining := 0
  visited := 0
  matched := 0
  acted := 0
  refused := 0
  lastRefusal := none
  stopReason := .none

/-- The sixteen tally events (R181). -/
inductive Event where
  | cellIn | cellOut | cellMiss | cellIdle | cellLate | cellDup | cellBad | cellResync
  | conceal | clipPeriod | rateChange | admitRefused | handoverCommit | handoverFail | shed | retire
deriving DecidableEq, Repr

/-- A tally (R180): an absent filter is ALL. -/
structure Tally where
  enabled : Bool
  kind : Event
  filter : Option Handle
  count : Count40
deriving DecidableEq, Repr

/-! ### Order ports -/

/-- The receive phases (R162). `lengthField` and `check` hold their first byte once it is taken; `frame` and `check`
hold the bytes the checksum adds up: length field, order code, tag, body. -/
inductive Rx where
  | hunt
  | lengthField (low : Option Byte)
  | frame (bodyLength : Nat) (bytes : List Byte)
  | check (bytes : List Byte) (low : Option Byte)
deriving DecidableEq, Repr

/-- A frame that completed: whether its checksum agreed, its code, tag and body. -/
structure Frame where
  good : Bool
  code : Byte
  tag : Byte
  body : List Byte
deriving DecidableEq, Repr

/-- The states of port supervision (R171). -/
inductive SupState where
  | initial | live | silent
deriving DecidableEq, Repr

/-- The supervision settings of a port (R171, R173). -/
structure SupSettings where
  enabled : Bool
  strict : Bool
  initialLimit : Nat
  steadyLimit : Nat
deriving DecidableEq, Repr

/-- The supervision record of a port (R171). -/
structure Supervision where
  state : SupState
  count : Nat
  settings : SupSettings
deriving DecidableEq, Repr

/-- SET_RATE's dispositions (R113). -/
inductive Disposition where
  | set | pending | current
deriving DecidableEq, Repr

/-- What QUERY reports of a context (R9). -/
structure QueryReport where
  handle : Handle
  state : CtxState
  holdCause : Option HoldCause
  heldFrom : Option HeldFrom
  retireCause : Option RetireCause
  owner : Port
  orphaned : Bool
  priority : Nat
  slot : Option SlotBinding
  primary : Option StreamKey
  handover : Option Handover
  profile : Option Nat
  permitted : Option RateSet
  rate : Option Nat
  request : Option RateRequest
  sinceRate : Nat
  outSeq : Seq16
  expected : Option Seq16
  entries : Nat
  priming : Bool
  depth : Nat
  firstDeadline : Nat
  firstRemaining : Option Nat
  silenceLimit : Nat
  silence : Nat
  staleRaised : Bool
  autoRetire : Bool
  gainLand : Int
  gainMobile : Int
  rounding : Rounding
  clipReport : Bool
  counters : Counters
  conds : CondSet
deriving DecidableEq, Repr

/-- An entry of a NOTICES response (R169). -/
structure NoticeEntry where
  handle : Handle
  conds : CondSet
  state : CtxState
  holdCause : Option HoldCause
  retireCause : Option RetireCause
  rate : Option Nat
deriving DecidableEq, Repr

/-- The four level fields of a context (R94). -/
structure Levels where
  gainLand : Int
  gainMobile : Int
  rounding : Rounding
  clipReport : Bool
deriving DecidableEq, Repr

/-- The receive phase as INSPECT names it (R185). -/
inductive RxPhase where
  | hunt | lengthField | frame | check
deriving DecidableEq, Repr

/-- The body of a response to a single order: the fields its rule lists (log 15). -/
inductive RespBody where
  | nothing
  | keepalive (period : Count32) (stateA : SupState) (countA : Nat) (stateB : SupState) (countB : Nat)
      (lanes available reserved freeContexts : Nat)
  | supervision (previous : SupSettings) (state : SupState) (count : Nat)
  | notices (conds : PortCondSet) (entries : List NoticeEntry) (remaining : Nat)
  | freed (contexts : Nat)
  | adopted (former : Port) (state : CtxState) (conds : CondSet) (moved : Bool)
  | handle (h : Handle)
  | state (st : CtxState)
  | query (r : QueryReport)
  | rateUnits (rate units : Nat)
  | stateUnits (st : CtxState) (units : Nat)
  | priority (old : Nat)
  | slotBound (slot : Nat) (law : Law) (released : Option Nat)
  | slotReleased (slot : Option Nat)
  | streamBound (entry : Nat) (replaced : Option StreamKey)
  | streamReleased (key : Option StreamKey)
  | relinked (oldLink entry : Nat)
  | profileLoaded (slot : Nat) (stamp : BitVec 16)
  | profileCleared (stamp : BitVec 16)
  | profileVacant (slot : Nat)
  | profileRefs (count : Nat)
  | profile (slot : ProfileSlot)
  | profileSet (slot : Nat) (stamp : BitVec 16) (rate bytes cost : Nat) (previous : Option Nat)
  | rateSet (disposition : Disposition) (rate : Option Nat) (request replaced : Option RateRequest)
  | ratesetReplaced (oldSet newSet : RateSet) (rateBefore rateAfter : Option Nat)
      (requestBefore requestAfter : Option RateRequest)
  | handoverPrepared (entry : Nat) (key : StreamKey) (remaining : Nat)
  | handoverCommitted (released : Option StreamKey) (key : StreamKey) (entry : Nat)
  | handoverCancelled (key : StreamKey) (remaining : Nat)
  | supervisionSet (deadline limit : Nat) (autoRetire : Bool) (remaining : Option Nat) (silence : Nat)
  | levels (previous : Levels)
  | rounding (previous current : RoundMode)
  | depth (previous : Nat)
  | laneService (lane : Nat) (before after : LaneState) (available reserved lowered held readmitted : Nat)
  | faults (capture : Capture) (lanes : List LaneState)
  | sweepStarted (start count : Nat) (replaced : Option Sweep)
  | sweep (record : Sweep)
  | tally (previous : Tally)
  | tallies (t0 t1 : Tally)
  | inspectContext (r : QueryReport) (work ready : Bool)
  | inspectSlot (entry : Option Nat)
  | inspectStream (entry : Option StreamEntry)
  | inspectPlayout (expected : Option Seq16) (priming : Bool) (depth : Nat)
      (entries : List (Seq16 × EntryKind × Nat))
  | inspectLane (state : LaneState) (inHand : Option Handle)
  | inspectPort (supervision : Supervision) (phase : RxPhase) (responses : Nat) (conds : PortCondSet)
      (queued : Nat) (head : Option Nat) (attention : Bool)
deriving DecidableEq, Repr

/-- An entry of a batch response (R166). -/
structure BatchEntry where
  code : Byte
  result : Result
  body : RespBody
deriving DecidableEq, Repr

/-- The body of a response: that of one order, or a batch's entries. -/
inductive ReplyBody where
  | single (body : RespBody)
  | batch (entries : List BatchEntry)
deriving DecidableEq, Repr

/-- A response in a response line: `code` is the order code plus 80h (R163, R187). -/
structure Response where
  code : Byte
  tag : Byte
  result : Result
  body : ReplyBody
deriving DecidableEq, Repr

/-- A batch being taken (R166): the sub-orders not yet taken, and the entries formed so far. -/
structure Batch where
  tag : Byte
  stopOnRefusal : Bool
  todo : List (Byte × List Byte)
  done : List BatchEntry
deriving DecidableEq, Repr

/-- An order port: receive phase, response line, port condition set, supervision, and what a batch and a HARD RESET
in progress hold (R162, R163, R166, R168, R171, R177). -/
structure PortState where
  rx : Rx
  line : List Response
  conds : PortCondSet
  sup : Supervision
  batch : Option Batch
  heldFrames : List Frame
  resetPending : Bool
deriving DecidableEq, Repr

/-- An order port at power-on (R178). -/
def PortState.reset : PortState where
  rx := .hunt
  line := []
  conds := 0
  sup := ⟨.initial, 0, ⟨true, false, 3000, 250⟩⟩
  batch := none
  heldFrames := []
  resetPending := false

/-! ### The whole part -/

/-- The state of the part: every block, then the model's own counter of free values and queue of commands. -/
structure State where
  ctxs : Tab Ctx
  slotMap : Tab (Option Nat)
  streamMap : Tab (Option StreamEntry)
  profiles : Tab ProfileSlot
  available : Nat
  reserved : Nat
  lanes : Tab Lane
  capture : Capture
  timer : Timer
  blocks : Tab SlotBlocks
  links : Tab (List OutCell)
  defaultRound : RoundMode
  sweeps : PerPort Sweep
  attention : PerPort (List Nat)
  ports : PerPort PortState
  tally0 : Tally
  tally1 : Tally
  pinHeld : Bool
  freeCount : Nat
  pending : List Instr
deriving DecidableEq, Repr

/-- Why the machine could stop with a fault: no rule of the manual stops the part, so there is no reason and no
meaning raises one. Safe. -/
inductive Fault where
deriving DecidableEq, Repr

/-- Why a command could be refused. -/
inductive Refusal where
  /-- Raised by an arm of `exec` whose command has no meaning yet. Safe: nothing is claimed of it. -/
  | notModelled (mnemonic : String)
deriving DecidableEq, Repr

/-- A tally at power-on (R184). -/
def Tally.reset : Tally := ⟨false, .cellIn, none, 0⟩

/-- The part right after power-on: every table unlisted (R24, R43, R48, R56, R78, R83, R95, R104, R161, R178,
R184). -/
def State.reset : State where
  ctxs := []
  slotMap := []
  streamMap := []
  profiles := []
  available := 96000
  reserved := 0
  lanes := []
  capture := ⟨none, false⟩
  timer := ⟨none, 0, false, [], ⟨false, false⟩⟩
  blocks := []
  links := []
  defaultRound := .nearestEven
  sweeps := ⟨Sweep.reset, Sweep.reset⟩
  attention := ⟨[], []⟩
  ports := ⟨PortState.reset, PortState.reset⟩
  tally0 := Tally.reset
  tally1 := Tally.reset
  pinHeld := false
  freeCount := 0
  pending := []

end Sys2Proof.Machine
end

