-- ==== Sys2Proof/Machine/Ops.lean ====
section
/-! DEFINITION. The named operations over the part's tables and records: one accessor and one update for each piece
of state. Every meaning reads and writes through them. -/

namespace Sys2Proof

/-- The opposite order port. -/
def Port.other : Port → Port
  | .a => .b
  | .b => .a

namespace Machine

/-- The value of port `p`. -/
def PerPort.get {α : Type} (v : PerPort α) : Port → α
  | .a => v.a
  | .b => v.b

/-- The pair with port `p`'s value replaced. -/
def PerPort.set {α : Type} (v : PerPort α) (p : Port) (x : α) : PerPort α :=
  match p with
  | .a => { v with a := x }
  | .b => { v with b := x }

/-! ### What an unlisted entry reads as: its reset value -/

/-- R24. -/
def ctxDefault (_ : Nat) : Ctx := Ctx.reset

/-- R43. -/
def slotDefault (_ : Nat) : Option Nat := none

/-- R43. -/
def streamDefault (_ : Nat) : Option StreamEntry := none

/-- R48, R56: the four fixed profiles; slots 4..15 EMPTY. -/
def profileDefault (n : Nat) : ProfileSlot :=
  match n with
  | 0 => ⟨.fixed ⟨.narrowMulti, [⟨12, 34⟩, ⟨15, 36⟩, ⟨18, 39⟩, ⟨22, 42⟩, ⟨26, 45⟩, ⟨31, 48⟩], 5, 2, 0⟩, 0⟩
  | 1 => ⟨.fixed ⟨.narrowSingle, [⟨33, 30⟩], 0, 0, 0⟩, 0⟩
  | 2 => ⟨.fixed ⟨.wideMulti, [⟨17, 70⟩, ⟨23, 74⟩, ⟨29, 79⟩, ⟨36, 84⟩, ⟨45, 90⟩], 2, 4, 0⟩, 0⟩
  | 3 => ⟨.fixed ⟨.narrowMulti, [⟨12, 34⟩, ⟨18, 39⟩, ⟨26, 45⟩], 1, 2, 0⟩, 0⟩
  | _ => ⟨.vacant, 0⟩

/-- R78. -/
def laneDefault (_ : Nat) : Lane := ⟨.inService, none⟩

/-- R43, R104. -/
def blocksDefault (_ : Nat) : SlotBlocks := ⟨none, none, none⟩

/-- R28. -/
def linkDefault (_ : Nat) : List OutCell := []

/-- No context has taken its claim of a boundary just produced (R82). -/
def claimDefault (_ : Nat) : Bool := false

namespace State

/-! ### Accessors -/

/-- The context record at index `i` (R1). -/
def ctx (s : State) (i : Nat) : Ctx := s.ctxs.get ctxDefault i
/-- The slot map entry of slot `n` (R29). -/
def slotEntry (s : State) (n : Nat) : Option Nat := s.slotMap.get slotDefault n
/-- The stream map entry number `n` (R30). -/
def streamEntry (s : State) (n : Nat) : Option StreamEntry := s.streamMap.get streamDefault n
/-- The profile slot `n` (R44). -/
def profile (s : State) (n : Nat) : ProfileSlot := s.profiles.get profileDefault n
/-- The lane `n` (R60). -/
def lane (s : State) (n : Nat) : Lane := s.lanes.get laneDefault n
/-- The blocks of slot `n` (R26). -/
def block (s : State) (n : Nat) : SlotBlocks := s.blocks.get blocksDefault n
/-- The outbound cells of link `n` (R28). -/
def link (s : State) (n : Nat) : List OutCell := s.links.get linkDefault n
/-- The order port `p` (R162). -/
def port (s : State) (p : Port) : PortState := s.ports.get p
/-- The attention queue of port `p` (R167). -/
def queueOf (s : State) (p : Port) : List Nat := s.attention.get p
/-- The sweep record of port `p` (R149). -/
def sweepOf (s : State) (p : Port) : Sweep := s.sweeps.get p
/-- The handle of the context at index `i` as it stands. -/
def handleOf (s : State) (i : Nat) : Handle := ⟨i, (s.ctx i).gen⟩

/-! ### Updates -/

/-- Replace the record at index `i`. -/
def setCtx (s : State) (i : Nat) (c : Ctx) : State := { s with ctxs := s.ctxs.set ctxDefault i c }
/-- Change the record at index `i` by `f`. -/
def modCtx (s : State) (i : Nat) (f : Ctx → Ctx) : State := s.setCtx i (f (s.ctx i))
/-- Replace a slot map entry. -/
def setSlotEntry (s : State) (n : Nat) (e : Option Nat) : State := { s with slotMap := s.slotMap.set slotDefault n e }
/-- Replace a stream map entry. -/
def setStreamEntry (s : State) (n : Nat) (e : Option StreamEntry) : State :=
  { s with streamMap := s.streamMap.set streamDefault n e }
/-- Replace a profile slot. -/
def setProfile (s : State) (n : Nat) (v : ProfileSlot) : State :=
  { s with profiles := s.profiles.set profileDefault n v }
/-- Replace a lane. -/
def setLane (s : State) (n : Nat) (v : Lane) : State := { s with lanes := s.lanes.set laneDefault n v }
/-- Replace the blocks of a slot. -/
def setBlock (s : State) (n : Nat) (v : SlotBlocks) : State := { s with blocks := s.blocks.set blocksDefault n v }
/-- Replace the outbound cells of a link. -/
def setLink (s : State) (n : Nat) (v : List OutCell) : State := { s with links := s.links.set linkDefault n v }
/-- Replace the record of an order port. -/
def setPort (s : State) (p : Port) (v : PortState) : State := { s with ports := s.ports.set p v }
/-- Replace an attention queue. -/
def setQueue (s : State) (p : Port) (q : List Nat) : State := { s with attention := s.attention.set p q }
/-- Replace a sweep record. -/
def setSweep (s : State) (p : Port) (v : Sweep) : State := { s with sweeps := s.sweeps.set p v }
/-- Replace the reserved units. -/
def setReserved (s : State) (n : Nat) : State := { s with reserved := n }
/-- Replace the available units. -/
def setAvailable (s : State) (n : Nat) : State := { s with available := n }
/-- Replace the fault capture record. -/
def setCapture (s : State) (c : Capture) : State := { s with capture := c }
/-- Replace the frame timer. -/
def setTimer (s : State) (t : Timer) : State := { s with timer := t }
/-- Replace the two tallies. -/
def setTallies (s : State) (t0 t1 : Tally) : State := { s with tally0 := t0, tally1 := t1 }
/-- Draw a fresh free value: the counter moves on. -/
def drawn (s : State) : State := { s with freeCount := s.freeCount + 1 }

end State

/-! ### Contexts -/

/-- A context is converting in ARMED and ACTIVE (R1). -/
def Ctx.converting (c : Ctx) : Bool :=
  match c.state with
  | .armed => true
  | .active => true
  | .free => false
  | .opened => false
  | .held => false
  | .closed => false

/-- The converting state that a held-from field names. -/
def HeldFrom.state : HeldFrom → CtxState
  | .armed => .armed
  | .active => .active

/-- The record OPEN makes of a FREE record (R2, R8). -/
def Ctx.opening (c : Ctx) (p : Port) (orphaned : Bool) (priority : Nat) : Ctx :=
  { Ctx.reset with gen := c.gen, state := .opened, owner := p, orphaned := orphaned, priority := priority }

namespace State

/-- The lowest index whose record is FREE; 2048 where there is none (R8). -/
def lowestFree (s : State) : Nat := Tab.lowestFrom (fun i => (s.ctx i).state = .free) Config.contexts 0

/-- The number of contexts in FREE (R176): an unlisted record is FREE. -/
def freeContexts (s : State) : Nat :=
  Config.contexts - (s.ctxs.keys.filter fun i => (s.ctx i).state ≠ .free).length

/-! ### The stream map (R30) -/

/-- The entry that holds key `k`, with its number. The map keeps no entry with tag 0, so a lookup for it misses. -/
def findStream (s : State) (k : StreamKey) : Option (Nat × StreamEntry) :=
  s.streamMap.findSome? fun e =>
    match e.2 with
    | some x => if x.key = k then some (e.1, x) else none
    | none => none

/-- The number of the entry that holds a key; 4096 where none does. -/
def entryOf (s : State) (k : StreamKey) : Nat :=
  match s.findStream k with
  | some (n, _) => n
  | none => Config.streamEntries

/-- The lowest-numbered empty entry; 4096 in a state whose map is full, which no run reaches (R30, log 19). -/
def lowestStream (s : State) : Nat := Tab.lowestFrom (fun n => (s.streamEntry n).isNone) Config.streamEntries 0

/-- Place a key in the lowest-numbered empty entry. -/
def addStream (s : State) (k : StreamKey) (i : Nat) (r : Role) : State :=
  s.setStreamEntry s.lowestStream (some ⟨k, i, r⟩)

/-- Empty the entry that holds the key, if any. -/
def removeStream (s : State) (k : StreamKey) : State :=
  match s.findStream k with
  | some (n, _) => s.setStreamEntry n none
  | none => s

/-- Empty the entry of an optional key. -/
def removeStream? (s : State) : Option StreamKey → State
  | some k => s.removeStream k
  | none => s

/-! ### Profiles (R44, R54) -/

/-- The contents of a slot; none for an EMPTY one. -/
def contents (s : State) (n : Nat) : Option Profile :=
  match (s.profile n).state with
  | .vacant => none
  | .loaded c => some c
  | .fixed c => some c

/-- The profile a context names. -/
def profileOf (s : State) (i : Nat) : Option Profile :=
  match (s.ctx i).profile with
  | some n => s.contents n
  | none => none

/-- The rate table entry `r` of the profile a context names. -/
def rateEntry (s : State) (i r : Nat) : Option RateEntry :=
  match s.profileOf i with
  | some p => p.table[r]?
  | none => none

/-- The cost of rate `r` for a context (R46). -/
def costOf (s : State) (i r : Nat) : Nat :=
  match s.rateEntry i r with
  | some e => e.cost
  | none => 0

/-- The cost of a context's current rate. -/
def currentCost (s : State) (i : Nat) : Nat :=
  match (s.ctx i).rate with
  | some r => s.costOf i r
  | none => 0

/-- A profile slot's reference count changed by `f` (R49). -/
def modRefs (s : State) (n : Nat) (f : Nat → Nat) : State :=
  s.setProfile n { s.profile n with refs := f (s.profile n).refs }

/-- The reference of an optional slot given up (R49). -/
def dropRef (s : State) : Option Nat → State
  | some n => s.modRefs n (· - 1)
  | none => s

/-! ### The reservation account (R57 to R59) -/

/-- Whether `n` more units fit (R58). -/
def fits (s : State) (n : Nat) : Bool := s.reserved + n ≤ s.available

/-- Units added to reserved by a granted admission (R58). -/
def reserve (s : State) (n : Nat) : State := s.setReserved (s.reserved + n)

/-- Units returned to the account (R59). -/
def giveBack (s : State) (n : Nat) : State := s.setReserved (s.reserved - n)

/-- The number of lanes in IN_SERVICE (R57). -/
def lanesInService (s : State) : Nat :=
  ((List.range Config.lanes).filter fun n => (s.lane n).state = .inService).length

/-! ### Works (R22, R61) -/

/-- Lane `n` loses the work of `i`, if it has it in hand. -/
def freeLane (s : State) (i n : Nat) : State :=
  if (s.lane n).inHand = some i then s.setLane n { s.lane n with inHand := none } else s

/-- Every lane that has the work of `i` in hand is freed. -/
def freeLanes (s : State) (i : Nat) : State := (List.range Config.lanes).foldl (fun t n => t.freeLane i n) s

/-- Whether a lane has the work of `i` in hand (R61). -/
def inHand (s : State) (i : Nat) : Bool := (List.range Config.lanes).any fun n => (s.lane n).inHand = some i

/-- The work of `i` is discarded: it leaves the context and its lane at once (R22, R61). -/
def discardWork (s : State) (i : Nat) : State := (s.modCtx i fun c => { c with work := none }).freeLanes i

/-! ### Blocks of a slot (R26) -/

/-- The block handed over to the slot of context `i`; empty where it holds none. -/
def handedBlock (s : State) (i : Nat) : List Byte :=
  match (s.ctx i).slot with
  | some b => (s.block b.slot).handed.getD []
  | none => []

/-- The block handed over to the slot of context `i` is taken or discarded. -/
def dropHanded (s : State) (i : Nat) : State :=
  match (s.ctx i).slot with
  | some b => s.setBlock b.slot { s.block b.slot with handed := none }
  | none => s

/-- The slot of context `i` plays `codes` in the period now starting; idle code where absent (R84). -/
def playBlock (s : State) (i : Nat) (codes : Option (List Byte)) : State :=
  match (s.ctx i).slot with
  | some b => s.setBlock b.slot { s.block b.slot with outbound := codes }
  | none => s

/-- A slot's map entry is emptied and its blocks are discarded (R27, R29). -/
def releaseSlot (s : State) : Option SlotBinding → State
  | some b => (s.setSlotEntry b.slot none).setBlock b.slot ⟨none, none, none⟩
  | none => s

/-! ### Boundary claims outstanding (R82) -/

/-- Whether the last boundary still owes context `i` its claim. -/
def claimDue (s : State) (i : Nat) : Bool := s.timer.owed && !(s.timer.claimed.get claimDefault i)

/-- Context `i` has taken its claim. -/
def markClaimed (s : State) (i : Nat) : State :=
  s.setTimer { s.timer with claimed := s.timer.claimed.set claimDefault i true }

end State

/-! ### The outcome of a command -/

/-- A command's effect takes place unless the reset pin holds the part in its reset state (R177, log 16). -/
def runs (s t : State) : Host.Outcome State Fault Refusal := if s.pinHeld then .next s else .next t

/-- What taking one order yields: its result, its response body and the state after it (R163, R164). -/
structure Taken where
  result : Result
  body : RespBody
  after : State

/-- A refused order with an empty body changes nothing (R164). -/
def refuse (r : Result) (s : State) : Taken := ⟨r, .nothing, s⟩

end Machine

end Sys2Proof
end

