-- ==== Sys2Proof/Machine/Flags.lean ====
section
/-! DEFINITION. What the part reports: context conditions and attention queues, port conditions, tally events. -/

namespace Sys2Proof.Machine

/-! ### Conditions -/

/-- The bit position of a context condition (R191). -/
def Cond.bit : Cond → Nat
  | .firstCell => 0
  | .noFirstCell => 1
  | .stale => 2
  | .rateChanged => 3
  | .rateRefused => 4
  | .handoverDone => 5
  | .handoverFailed => 6
  | .shed => 7
  | .readmitted => 8
  | .faulted => 9
  | .clipping => 10
  | .retired => 11

/-- The bit position of a port condition (R191). -/
def PortCond.bit : PortCond → Nat
  | .sweepDone => 0
  | .laneOut => 1
  | .laneBack => 2
  | .faultCaptured => 3
  | .partnerSilent => 4
  | .partnerLive => 5

/-- The set holding one condition. -/
def CondSet.one (c : Cond) : CondSet := BitVec.twoPow 12 c.bit

/-- Whether a set holds a condition. -/
def CondSet.has (x : CondSet) (c : Cond) : Bool := x.getLsbD c.bit

/-- A set with a condition added; a kind is held once (R167). -/
def CondSet.add (x : CondSet) (c : Cond) : CondSet := x ||| CondSet.one c

/-- Whether a set holds a port condition. -/
def PortCondSet.has (x : PortCondSet) (c : PortCond) : Bool := x.getLsbD c.bit

/-- A set with a port condition added; a kind is held once (R168). -/
def PortCondSet.add (x : PortCondSet) (c : PortCond) : PortCondSet := x ||| BitVec.twoPow 6 c.bit

namespace State

/-- Index `i` joins the tail of its owner's attention queue. -/
def enqueue (s : State) (i : Nat) : State :=
  s.setQueue (s.ctx i).owner (s.queueOf (s.ctx i).owner ++ [i])

/-- Index `i` leaves the attention queue of port `p`. -/
def unqueue (s : State) (p : Port) (i : Nat) : State := s.setQueue p ((s.queueOf p).filter (· ≠ i))

/-- A condition is raised on context `i` (R167): the kind joins the set; where the set was empty the index joins the
tail of its owner's attention queue. -/
def raise (s : State) (i : Nat) (k : Cond) : State :=
  (if (s.ctx i).conds = 0 then s.enqueue i else s).modCtx i fun c => { c with conds := c.conds.add k }

/-- A condition is raised where `b` holds. -/
def raiseIf (s : State) (b : Bool) (i : Nat) (k : Cond) : State := if b then s.raise i k else s

/-- A port condition is raised at one port (R168). -/
def raisePort (s : State) (p : Port) (k : PortCond) : State :=
  s.setPort p { s.port p with conds := (s.port p).conds.add k }

/-- A port condition is raised at both ports (R60). -/
def raiseBoth (s : State) (k : PortCond) : State := (s.raisePort .a k).raisePort .b k

/-- The attention line of a port (R168): asserted while the set or the queue is not empty. -/
def attentionLine (s : State) (p : Port) : Bool := (s.port p).conds ≠ 0 || !(s.queueOf p).isEmpty

end State

/-! ### Tallies -/

/-- Whether a tally counts an event of kind `k` that belongs to `h`, or to no context (R180). -/
def Tally.passes (t : Tally) (k : Event) (h : Option Handle) : Bool :=
  t.enabled && t.kind = k && (t.filter.isNone || t.filter = h)

/-- A tally after an event; the count wraps at 2^40 (R180). -/
def Tally.step (t : Tally) (k : Event) (h : Option Handle) : Tally :=
  if t.passes k h then { t with count := t.count + 1 } else t

namespace State

/-- One event is counted by each tally that passes it (R180). -/
def count (s : State) (k : Event) (h : Option Handle) : State :=
  s.setTallies (s.tally0.step k h) (s.tally1.step k h)

/-- One event that belongs to context `i`, as its handle stands (R181). -/
def countFor (s : State) (k : Event) (i : Nat) : State := s.count k (some (s.handleOf i))

end State

end Sys2Proof.Machine
end

