-- ==== Sys2Proof/Machine/Operands.lean ====
section
/-! DEFINITION. The operands of orders: little-endian fields, order codes, field codes, and the common checks that
stand before every order's own (R164, R187, R189). -/

namespace Sys2Proof

/-! ### Little-endian fields (00, Byte order) -/

/-- A two-byte field. -/
def le16 (b0 b1 : Byte) : Nat := b0.toNat + 256 * b1.toNat

/-- A three-byte field. -/
def le24 (b0 b1 b2 : Byte) : Nat := b0.toNat + 256 * b1.toNat + 65536 * b2.toNat

/-- A field of any length. -/
def leNat : List Byte → Nat
  | [] => 0
  | b :: t => b.toNat + 256 * leNat t

/-- The `n` bytes of a field, least significant first. -/
def leBytes : Nat → Nat → List Byte
  | 0, _ => []
  | n + 1, v => BitVec.ofNat 8 v :: leBytes n (v / 256)

/-! ### Order codes (R189) -/

/-- The code of an order. -/
def OrderCode.byte : OrderCode → Byte
  | .keepalive => 0x01
  | .superviseSet => 0x02
  | .notices => 0x03
  | .batch => 0x04
  | .reset => 0x05
  | .adopt => 0x06
  | .openContext => 0x10
  | .retire => 0x11
  | .query => 0x12
  | .arm => 0x13
  | .hold => 0x14
  | .resume => 0x15
  | .setPriority => 0x16
  | .bindSlot => 0x20
  | .bindStream => 0x21
  | .unbindSlot => 0x22
  | .unbindStream => 0x23
  | .relink => 0x24
  | .profileLoad => 0x30
  | .profileClear => 0x31
  | .profileRead => 0x32
  | .setProfile => 0x33
  | .setRateset => 0x38
  | .setRate => 0x39
  | .handoverPrepare => 0x40
  | .handoverCommit => 0x41
  | .handoverCancel => 0x42
  | .setSupervision => 0x48
  | .setLevel => 0x50
  | .levelDefaults => 0x51
  | .setPlayout => 0x52
  | .laneService => 0x58
  | .faultRead => 0x59
  | .sweep => 0x60
  | .sweepAbort => 0x61
  | .sweepContinue => 0x62
  | .sweepStatus => 0x63
  | .tallySet => 0x70
  | .tallyRead => 0x71
  | .inspect => 0x72

/-- Every order of the part. -/
def OrderCode.all : List OrderCode :=
  [.keepalive, .superviseSet, .notices, .batch, .reset, .adopt, .openContext, .retire, .query, .arm, .hold, .resume,
    .setPriority, .bindSlot, .bindStream, .unbindSlot, .unbindStream, .relink, .profileLoad, .profileClear,
    .profileRead] ++
  [.setProfile, .setRateset, .setRate, .handoverPrepare, .handoverCommit, .handoverCancel, .setSupervision, .setLevel,
    .levelDefaults, .setPlayout, .laneService, .faultRead, .sweep, .sweepAbort, .sweepContinue, .sweepStatus,
    .tallySet, .tallyRead, .inspect]

/-- The order a code names; none where it is not one of the part's orders. -/
def OrderCode.ofByte (b : Byte) : Option OrderCode := OrderCode.all.find? fun c => c.byte = b

/-- The maximum size of an order's response body, which the BATCH size test adds up (R165, R189). -/
def OrderCode.maxResponse : OrderCode → Nat
  | .keepalive => 25
  | .superviseSet => 9
  | .notices => 68
  | .batch => 1020
  | .reset => 2
  | .adopt => 5
  | .openContext => 3
  | .retire => 1
  | .query => 112
  | .arm => 3
  | .hold => 1
  | .resume => 3
  | .setPriority => 1
  | .bindSlot => 6
  | .bindStream => 7
  | .unbindSlot => 3
  | .unbindStream => 5
  | .relink => 3
  | .profileLoad => 3
  | .profileClear => 5
  | .profileRead => 33
  | .setProfile => 8
  | .setRateset => 8
  | .setRate => 6
  | .handoverPrepare => 8
  | .handoverCommit => 10
  | .handoverCancel => 6
  | .setSupervision => 9
  | .setLevel => 4
  | .levelDefaults => 2
  | .setPlayout => 1
  | .laneService => 17
  | .faultRead => 19
  | .sweep => 31
  | .sweepAbort => 26
  | .sweepContinue => 26
  | .sweepStatus => 26
  | .tallySet => 11
  | .tallyRead => 22
  | .inspect => 128

namespace Machine

/-! ### Fields of an order's body -/

/-- A one-byte flag, 0 or 1. -/
def flagOf (b : Byte) : Option Bool :=
  if b = 0 then some false else if b = 1 then some true else none

/-- A law code: 0 A-law, 1 mu-law (R31). -/
def lawOf (b : Byte) : Option Law :=
  if b = 0 then some .aLaw else if b = 1 then some .muLaw else none

/-- A kernel family code (R47). -/
def familyOf (b : Byte) : Option Family :=
  if b = 0 then some .narrowMulti else if b = 1 then some .narrowSingle else if b = 2 then some .wideMulti else none

/-- A rounding mode code (R94, R95): 0..3; DEFAULT is not one of them. -/
def roundModeOf (b : Byte) : Option RoundMode :=
  if b = 0 then some .nearestEven
  else if b = 1 then some .towardZero
  else if b = 2 then some .downward
  else if b = 3 then some .upward
  else none

/-- A context's rounding code: a mode, or 4 for DEFAULT (R94). -/
def roundingOf (b : Byte) : Option Rounding :=
  if b = 4 then some .deviceDefault else (roundModeOf b).map .mode

/-- A gain: one signed byte, -12..+12 dB (R94). -/
def gainOf (b : Byte) : Option Int :=
  if -12 ≤ b.toInt ∧ b.toInt ≤ 12 then some b.toInt else none

/-- A stream key: link 0..3, tag 1..1048575 (R33). -/
def keyOf (link t0 t1 t2 : Byte) : Option StreamKey :=
  if link.toNat ≤ 3 ∧ 1 ≤ le24 t0 t1 t2 ∧ le24 t0 t1 t2 ≤ 1048575 then some ⟨link.toNat, le24 t0 t1 t2⟩ else none

/-- A port code: 0 Port A, 1 Port B (R159). -/
def portOf (b : Byte) : Option Port :=
  if b = 0 then some .a else if b = 1 then some .b else none

/-- The code of a context state (R187). -/
def CtxState.code : CtxState → Nat
  | .free => 0
  | .opened => 1
  | .armed => 2
  | .active => 3
  | .held => 4
  | .closed => 5

/-- The event kind of a code (R181, R182). -/
def eventOf (b : Byte) : Option Event :=
  match b.toNat with
  | 0 => some .cellIn
  | 1 => some .cellOut
  | 2 => some .cellMiss
  | 3 => some .cellIdle
  | 4 => some .cellLate
  | 5 => some .cellDup
  | 6 => some .cellBad
  | 7 => some .cellResync
  | 8 => some .conceal
  | 9 => some .clipPeriod
  | 10 => some .rateChange
  | 11 => some .admitRefused
  | 12 => some .handoverCommit
  | 13 => some .handoverFail
  | 14 => some .shed
  | 15 => some .retire
  | _ => none

/-! ### Sets of rate indices -/

/-- Whether a set holds index `r`. -/
def RateSet.has (x : RateSet) (r : Nat) : Bool := x.getLsbD r

/-- The indices of a set, rising. -/
def RateSet.indices (x : RateSet) : List Nat := (List.range 8).filter fun r => x.has r

/-- The lowest index of a set (0 for an empty one, which no context holds). -/
def RateSet.lowest (x : RateSet) : Nat := x.indices.headD 0

/-- The highest index of a set (0 for an empty one, which no context holds). -/
def RateSet.highest (x : RateSet) : Nat := x.indices.getLastD 0

/-- The highest index of a set below `r`. -/
def RateSet.highestBelow (x : RateSet) (r : Nat) : Option Nat := (x.indices.filter (· < r)).getLast?

/-- A requested index corrected into the permitted set (R107). -/
def RateSet.correct (x : RateSet) (r : Nat) : Nat :=
  if x.has r then r
  else match x.highestBelow r with
    | some v => v
    | none => x.lowest

/-- The index a narrowed set moves the current rate to (R116). -/
def RateSet.landing (x : RateSet) (current : Nat) : Nat :=
  match x.highestBelow current with
  | some v => v
  | none => x.lowest

/-- Whether every index of a set lies in a table of `n` entries (R53, R116). -/
def RateSet.within (x : RateSet) (n : Nat) : Bool := x.indices.all (· < n)

/-! ### The common checks (R164) -/

/-- Steps 3 and 4 for an order that names a context: the index in range and every other field in its range
(`fieldsOk`), then the generation and a record that is not FREE. -/
def named (i0 i1 gen : Byte) (fieldsOk : Bool) (s : State) (act : Nat → Taken) : Taken :=
  if 2047 < le16 i0 i1 ∨ fieldsOk = false then refuse .badField s
  else if (s.ctx (le16 i0 i1)).gen ≠ gen ∨ (s.ctx (le16 i0 i1)).state = .free then refuse .staleHandle s
  else act (le16 i0 i1)

/-- Step 5: the issuing port is the context's owner. -/
def owned (p : Port) (i : Nat) (s : State) (act : Taken) : Taken :=
  if (s.ctx i).owner = p then act else refuse .notOwner s

/-- Steps 3 to 5 for a changing order. -/
def ownerChecked (p : Port) (i0 i1 gen : Byte) (fieldsOk : Bool) (s : State) (act : Nat → Taken) : Taken :=
  named i0 i1 gen fieldsOk s fun i => owned p i s (act i)

end Machine

end Sys2Proof
end

