-- ==== Sys2Proof/Machine/Transitions.lean ====
section
/-! DEFINITION. The transitions of a context that several claims share: entry into HELD, return from HELD, entry into
FREE and CLOSED, the return to OPEN (R12, R14, R17, R18, R20). -/

namespace Sys2Proof.Machine

/-- Whether a pending request came from an order. -/
def fromOrder : Option RateRequest → Bool
  | some r => r.source = .order
  | none => false

/-- The held-from field of a state left (R7): ARMED or ACTIVE. -/
def heldFromOf : CtxState → HeldFrom
  | .armed => .armed
  | .active => .active
  | .free => .active
  | .opened => .active
  | .held => .active
  | .closed => .active

/-- The record after entry into HELD (R12, R87). -/
def Ctx.toHeld (c : Ctx) (cause : HoldCause) : Ctx :=
  { c with state := .held, holdCause := some cause, heldFrom := some (heldFromOf c.state), queue := [],
           expected := none, priming := false, firstRemaining := none, request := none, ready := none }

/-- The record after a return from HELD (R14). -/
def Ctx.fromHeld (c : Ctx) : Ctx :=
  { c with state := (c.heldFrom.getD .active).state, holdCause := none, heldFrom := none, silence := 0,
           staleRaised := false,
           firstRemaining := if c.heldFrom = some .armed then some c.firstDeadline else none }

/-- The record after its holdings are released (R18): bindings, profile, rates, queue, counts and work removed. -/
def Ctx.released (c : Ctx) : Ctx :=
  { c with slot := none, primary := none, handover := none, profile := none, permitted := none, rate := none,
           request := none, expected := none, queue := [], firstRemaining := none, holdCause := none,
           heldFrom := none, retireCause := none, work := none, ready := none }

namespace State

/-- Entry into HELD from ARMED or ACTIVE (R12): units returned, work discarded, queue emptied, a pending request
removed, with RATE_REFUSED when it came from an order. The slot is IDLE from then on, also where the context comes back
within the period (R22, R27, log 11): its outbound block is discarded. -/
def enterHeld (s : State) (i : Nat) (cause : HoldCause) : State :=
  (((((s.giveBack (s.currentCost i)).discardWork i).playBlock i none).modCtx i fun c => c.toHeld cause).raiseIf
    (fromOrder (s.ctx i).request) i .rateRefused)

/-- A return from HELD whose admission is granted (R14). -/
def leaveHeld (s : State) (i : Nat) : State := (s.reserve (s.currentCost i)).modCtx i Ctx.fromHeld

/-- The reservation a context holds: the cost of its current rate in ARMED and ACTIVE (R3, R57). -/
def reservation (s : State) (i : Nat) : Nat := if (s.ctx i).converting then s.currentCost i else 0

/-- Everything a context holds is released (R18): its units, its work, its slot, its keys, its profile reference. -/
def releaseHoldings (s : State) (i : Nat) : State :=
  ((((((s.giveBack (s.reservation i)).discardWork i).releaseSlot (s.ctx i).slot).removeStream?
    (s.ctx i).primary).removeStream? ((s.ctx i).handover.map Handover.key)).dropRef (s.ctx i).profile).modCtx i
    Ctx.released

/-- Entry into FREE (R18, R4): pending conditions are discarded, the index leaves its owner's attention queue and the
generation advances. -/
def enterFree (s : State) (i : Nat) : State :=
  ((s.releaseHoldings i).unqueue (s.ctx i).owner i).modCtx i fun c =>
    { c with state := .free, gen := c.gen + 1, conds := 0 }

/-- Entry into CLOSED (R20): the pending set becomes {RETIRED}; the index keeps its place in its owner's queue, or
enters it at the tail. -/
def enterClosed (s : State) (i : Nat) (cause : RetireCause) : State :=
  (if i ∈ s.queueOf (s.ctx i).owner then s.releaseHoldings i else (s.releaseHoldings i).enqueue i).modCtx i fun c =>
    { c with state := .closed, retireCause := some cause, conds := CondSet.one .retired }

/-- The return to OPEN at a first-cell expiry (R17). Its work was discarded before (R84). -/
def returnToOpen (s : State) (i : Nat) : State :=
  ((((s.giveBack (s.currentCost i)).discardWork i).modCtx i fun c =>
    { c with state := .opened, firstRemaining := none, request := none, ready := none }).raiseIf
    (fromOrder (s.ctx i).request) i .rateRefused).raise i .noFirstCell

end State

end Sys2Proof.Machine
end

