-- ==== Sys2Proof/Machine/Ports.lean ====
section
/-! DEFINITION. The order ports: renewal, the claim that completes a frame, the response line (R163, R171, R172). -/

namespace Sys2Proof.Machine

namespace State

/-! ### Port supervision (R171, R172) -/

/-- The orphaned flag of every non-FREE context that port `p` owns is set (R172). -/
def setOrphans (s : State) (p : Port) (b : Bool) : State :=
  { s with ctxs := s.ctxs.mapValues fun c => if c.state ≠ .free ∧ c.owner = p then { c with orphaned := b } else c }

/-- The supervision record of a port replaced. -/
def setSup (s : State) (p : Port) (v : Supervision) : State := s.setPort p { s.port p with sup := v }

/-- Whether a good frame with this order code renews its port: in strict mode a KEEPALIVE alone does (R171). -/
def renews (s : State) (p : Port) (code : Byte) : Bool :=
  !(s.port p).sup.settings.strict || code = OrderCode.keepalive.byte

/-- A renewal (R171): count 0, state LIVE; at a SILENT port the orphaned flags are cleared and PARTNER_LIVE is raised
at the other port (R172). -/
def renewal (s : State) (p : Port) : State :=
  if (s.port p).sup.state = .silent then
    ((s.setSup p { (s.port p).sup with state := .live, count := 0 }).setOrphans p false).raisePort p.other .partnerLive
  else s.setSup p { (s.port p).sup with state := .live, count := 0 }

/-- Renewal as a good frame applies it, before its order is taken (R163, R171). -/
def renew (s : State) (p : Port) (code : Byte) : State := if s.renews p code then s.renewal p else s

/-- Whether the port is SILENT. -/
def silent (s : State) (p : Port) : Bool := (s.port p).sup.state = .silent

/-! ### Response line (R163) -/

/-- The receive phase of a port replaced. -/
def setRx (s : State) (p : Port) (r : Rx) : State := s.setPort p { s.port p with rx := r }

/-- A response joins the tail of the port's line. -/
def pushResponse (s : State) (p : Port) (r : Response) : State :=
  s.setPort p { s.port p with line := (s.port p).line ++ [r] }

/-- Whether 8 responses wait in the port's line. -/
def lineFull (s : State) (p : Port) : Bool := Config.lineDepth ≤ (s.port p).line.length

end State

/-- The response code of an order code: plus 80h, modulo 256 (R187). -/
def responseCode (code : Byte) : Byte := code + 0x80

/-- The response of an order taken joins the issuing port's line (R163). -/
def respond (p : Port) (code tag : Byte) (t : Taken) : State :=
  t.after.pushResponse p ⟨responseCode code, tag, t.result, .single t.body⟩

/-! ### Frames (R162, R163, R166) -/

/-- A good frame is taken up: discarded where the line is full, else renewal and then its order (R163). -/
def takeGood (p : Port) (code : Byte) (carry : State → State) (s : State) : State :=
  if s.lineFull p then s else carry (s.renew p code)

/-- A frame with a wrong checksum is answered BAD_FRAME, unless 8 responses wait (R162, R163). -/
def takeBad (p : Port) (code tag : Byte) (s : State) : State :=
  if s.lineFull p then s else s.pushResponse p ⟨responseCode code, tag, .badFrame, .single .nothing⟩

/-- Whether a frame that completes now waits behind a batch: one is being taken, or frames it held are not yet all
taken up (R166, log 13). -/
def State.frameWaits (s : State) (p : Port) : Bool := (s.port p).batch.isSome || !(s.port p).heldFrames.isEmpty

/-- A frame is held, in the order of completion; the ninth is discarded (R166). -/
def State.holdFrame (s : State) (p : Port) (f : Frame) : State :=
  if (s.port p).heldFrames.length < Config.lineDepth then
    s.setPort p { s.port p with heldFrames := (s.port p).heldFrames ++ [f] }
  else s

/-- The claim that completes frame `f` at port `p`: the port returns to HUNT (R162); a port with a HARD RESET ordered
takes no further frame (R177); the frame waits behind a batch (R166) or is taken by `take`. HUNT stands before the order is
taken, so that an INSPECT of the issuing port's own PORT entry shows HUNT and never CHECK, which R185 leaves open: the
model's choice (log 30). -/
def onFrame (p : Port) (f : Frame) (take : State → State) (s : State) : State :=
  if (s.port p).resetPending then s
  else if s.frameWaits p then (s.setRx p .hunt).holdFrame p f
  else take (s.setRx p .hunt)

/-- The claim of a good frame whose order is `c`: the order's own meaning is `act` (R163). -/
def orderFrame (p : Port) (c : OrderCode) (tag : Byte) (body : List Byte) (act : State → Taken) (s : State) : State :=
  onFrame p ⟨true, c.byte, tag, body⟩ (takeGood p c.byte fun t => respond p c.byte tag (act t)) s

end Sys2Proof.Machine
end

