-- ==== Sys2Proof/Machine/Bindings.lean ====
section
/-! DEFINITION. The binding orders of chapter 2: BIND_SLOT, UNBIND_SLOT, BIND_STREAM, UNBIND_STREAM, RELINK. -/

namespace Sys2Proof.Machine

/-! ### BIND_SLOT (R31) -/

/-- The slot a context gives up when it binds to `slot` (R31). -/
def Ctx.slotLeft (c : Ctx) (slot : Nat) : Option SlotBinding :=
  match c.slot with
  | some b => if b.slot = slot then none else some b
  | none => none

/-- A context takes an empty slot map entry: an earlier slot is released in the same claim; the new slot has no block
until the next boundary (R26, R27, R31). -/
def takeSlot (i slot : Nat) (law : Law) (s : State) : State :=
  ((((s.releaseSlot ((s.ctx i).slotLeft slot)).setSlotEntry slot (some i)).setBlock slot ⟨none, none, none⟩).modCtx i
    fun c => { c with slot := some ⟨slot, law⟩ })

/-- BIND_SLOT of a context (R31). -/
def bindSlotTo (i slot : Nat) (law : Law) (s : State) : Taken :=
  if (s.ctx i).state ≠ .opened then refuse .wrongState s
  else match s.slotEntry slot with
    | some j =>
      if j = i then ⟨.ok, .slotBound slot law none, s.modCtx i fun c => { c with slot := some ⟨slot, law⟩ }⟩
      else refuse .slotTaken s
    | none => ⟨.ok, .slotBound slot law (((s.ctx i).slotLeft slot).map SlotBinding.slot), takeSlot i slot law s⟩

/-- BIND_SLOT, code 20h (R31). -/
def bindSlotOrder (p : Port) (body : List Byte) (s : State) : Taken :=
  match body with
  | [i0, i1, g, n0, n1, l] =>
    ownerChecked p i0 i1 g (decide (le16 n0 n1 ≤ 2047) && (lawOf l).isSome) s fun i =>
      bindSlotTo i (le16 n0 n1) ((lawOf l).getD .aLaw) s
  | _ => refuse .badLength s

/-! ### UNBIND_SLOT (R32) -/

/-- UNBIND_SLOT of a context (R32). -/
def unbindSlotOf (i : Nat) (s : State) : Taken :=
  if (s.ctx i).state ≠ .opened then refuse .wrongState s
  else match (s.ctx i).slot with
    | some b => ⟨.ok, .slotReleased (some b.slot), (s.releaseSlot (some b)).modCtx i fun c => { c with slot := none }⟩
    | none => ⟨.ok, .slotReleased none, s⟩

/-- UNBIND_SLOT, code 22h (R32). -/
def unbindSlotOrder (p : Port) (body : List Byte) (s : State) : Taken :=
  match body with
  | [i0, i1, g] => ownerChecked p i0 i1 g true s fun i => unbindSlotOf i s
  | _ => refuse .badLength s

/-! ### BIND_STREAM (R33) -/

/-- A context's primary stream becomes `key`: the previous primary entry is removed first, then the key is placed in
the lowest-numbered empty entry (R33, R35). -/
def placePrimary (i : Nat) (key : StreamKey) (s : State) : State :=
  ((s.removeStream? (s.ctx i).primary).addStream key i .primary).modCtx i fun c => { c with primary := some key }

/-- The number of the entry that `placePrimary` fills. -/
def placedEntry (i : Nat) (s : State) : Nat := (s.removeStream? (s.ctx i).primary).lowestStream

/-- BIND_STREAM of a context (R33). -/
def bindStreamTo (i : Nat) (key : StreamKey) (s : State) : Taken :=
  if (s.ctx i).state ≠ .opened then refuse .wrongState s
  else match s.findStream key with
    | some (n, _) =>
      if (s.ctx i).primary = some key then ⟨.ok, .streamBound n none, s⟩ else refuse .streamTaken s
    | none => ⟨.ok, .streamBound (placedEntry i s) (s.ctx i).primary, placePrimary i key s⟩

/-- BIND_STREAM, code 21h (R33). -/
def bindStreamOrder (p : Port) (body : List Byte) (s : State) : Taken :=
  match body with
  | [i0, i1, g, l, t0, t1, t2] =>
    ownerChecked p i0 i1 g (keyOf l t0 t1 t2).isSome s fun i =>
      bindStreamTo i ((keyOf l t0 t1 t2).getD ⟨0, 0⟩) s
  | _ => refuse .badLength s

/-! ### UNBIND_STREAM (R34) -/

/-- UNBIND_STREAM of a context (R34). -/
def unbindStreamOf (i : Nat) (s : State) : Taken :=
  if (s.ctx i).state ≠ .opened then refuse .wrongState s
  else match (s.ctx i).primary with
    | some k => ⟨.ok, .streamReleased (some k), (s.removeStream k).modCtx i fun c => { c with primary := none }⟩
    | none => ⟨.ok, .streamReleased none, s⟩

/-- UNBIND_STREAM, code 23h (R34). -/
def unbindStreamOrder (p : Port) (body : List Byte) (s : State) : Taken :=
  match body with
  | [i0, i1, g] => ownerChecked p i0 i1 g true s fun i => unbindStreamOf i s
  | _ => refuse .badLength s

/-! ### RELINK (R35, R36) -/

/-- RELINK of a context with primary stream `old` (R35). -/
def relinkFrom (i link : Nat) (old : StreamKey) (s : State) : Taken :=
  if link = old.link then ⟨.ok, .relinked old.link (s.entryOf old), s⟩
  else match s.findStream ⟨link, old.tag⟩ with
    | some _ => refuse .streamTaken s
    | none => ⟨.ok, .relinked old.link (placedEntry i s), placePrimary i ⟨link, old.tag⟩ s⟩

/-- RELINK of a context (R35): refused in CLOSED, while a handover record is held, and without a primary stream. -/
def relinkContext (i link : Nat) (s : State) : Taken :=
  if (s.ctx i).state = .closed ∨ (s.ctx i).handover.isSome then refuse .wrongState s
  else match (s.ctx i).primary with
    | some old => relinkFrom i link old s
    | none => refuse .wrongState s

/-- RELINK, code 24h (R35). -/
def relinkOrder (p : Port) (body : List Byte) (s : State) : Taken :=
  match body with
  | [i0, i1, g, l] => ownerChecked p i0 i1 g (decide (l.toNat ≤ 3)) s fun i => relinkContext i l.toNat s
  | _ => refuse .badLength s

/-! ### The commands -/

/-- BIND_SLOT (R31). -/
def execBindSlot (p : Port) (tag : Byte) (body : List Byte) (s : State) : Host.Outcome State Fault Refusal :=
  runs s (orderFrame p .bindSlot tag body (bindSlotOrder p body) s)

/-- UNBIND_SLOT (R32). -/
def execUnbindSlot (p : Port) (tag : Byte) (body : List Byte) (s : State) : Host.Outcome State Fault Refusal :=
  runs s (orderFrame p .unbindSlot tag body (unbindSlotOrder p body) s)

/-- BIND_STREAM (R33). -/
def execBindStream (p : Port) (tag : Byte) (body : List Byte) (s : State) : Host.Outcome State Fault Refusal :=
  runs s (orderFrame p .bindStream tag body (bindStreamOrder p body) s)

/-- UNBIND_STREAM (R34). -/
def execUnbindStream (p : Port) (tag : Byte) (body : List Byte) (s : State) : Host.Outcome State Fault Refusal :=
  runs s (orderFrame p .unbindStream tag body (unbindStreamOrder p body) s)

/-- RELINK (R35). -/
def execRelink (p : Port) (tag : Byte) (body : List Byte) (s : State) : Host.Outcome State Fault Refusal :=
  runs s (orderFrame p .relink tag body (relinkOrder p body) s)

end Sys2Proof.Machine
end

