-- ==== Sys2Proof/Machine/Companding.lean ====
section
/-! DEFINITION. Levels, gains, clipping and companding (R89, R91, R92, R93), in exact integer arithmetic. -/

namespace Sys2Proof.Machine

/-! ### Gains (R89, R92) -/

/-- The largest `n` reached by setting bits from `2^(bits-1)` down while `ok` holds. -/
def climb (ok : Nat → Bool) : Nat → Nat → Nat
  | 0, n => n
  | b + 1, n => if ok (n + 2 ^ b) then climb ok b (n + 2 ^ b) else climb ok b n

/-- `n - 1/2 ≤ k * 10^(g/20)`, raised to the 20th power: `n` is at most the rounded product. -/
def scaledAtLeast (g : Int) (k n : Nat) : Bool :=
  (2 * n - 1) ^ 20 * 10 ^ (-g).toNat ≤ (2 * k) ^ 20 * 10 ^ g.toNat

/-- The magnitude `k` multiplied by 10 raised to `g`/20 and rounded to the nearest integer, halves away from zero;
18 bits hold every product of a 16-bit sample and a gain of at most +12 dB. -/
def scaleMagnitude (g : Int) (k : Nat) : Nat := climb (scaledAtLeast g k) 18 0

/-- A level scaled by a gain (R89, R92). -/
def scale (g x : Int) : Int :=
  if x < 0 then -(scaleMagnitude g x.natAbs : Int) else (scaleMagnitude g x.natAbs : Int)

/-- A scaled value limited to -32768..32767 (R89, R92). -/
def limit (x : Int) : Int := if 32767 < x then 32767 else if x < -32768 then -32768 else x

/-- Whether a scaled value clips (R92). -/
def clips (x : Int) : Bool := 32767 < x || x < -32768

/-! ### Codes and levels (R91) -/

/-- The bits a law inverts on the highway. -/
def Law.pattern : Law → Byte
  | .aLaw => 0x55
  | .muLaw => 0x7F

/-- The byte of a sign (positive or not) and a magnitude index. -/
def Law.byteOf (l : Law) (positive : Bool) (m : Nat) : Byte :=
  BitVec.ofNat 8 ((if positive then 128 else 0) + m) ^^^ l.pattern

/-- The level of the positive code with magnitude index `m = 16 s + q`. -/
def Law.level (l : Law) (m : Nat) : Nat :=
  match l with
  | .aLaw => if m / 16 = 0 then 8 * (2 * (m % 16) + 1) else 8 * (2 * (m % 16) + 33) * 2 ^ (m / 16 - 1)
  | .muLaw => 4 * ((2 * (m % 16) + 33) * 2 ^ (m / 16) - 33)

/-- Expansion: the level of a byte (R91). -/
def Law.expand (l : Law) (b : Byte) : Int :=
  if 128 ≤ (b ^^^ l.pattern).toNat then (l.level ((b ^^^ l.pattern).toNat - 128) : Int)
  else -(l.level (b ^^^ l.pattern).toNat : Int)

/-- The idle code: the positive code with magnitude index 0 (R27, R91). -/
def Law.idle (l : Law) : Byte := l.byteOf true 0

/-! ### Compression (R93) -/

/-- A code as its sign and magnitude index. -/
structure Code where
  positive : Bool
  index : Nat
deriving DecidableEq, Repr

/-- The level of a code. -/
def Code.level (l : Law) (c : Code) : Int := if c.positive then (l.level c.index : Int) else -(l.level c.index : Int)

/-- The greatest magnitude index whose level is at most `v`, if any. -/
def Law.indexBelow (l : Law) (v : Nat) : Option Nat := ((List.range 128).filter fun m => l.level m ≤ v).getLast?

/-- The least magnitude index whose level is at least `v`, if any. -/
def Law.indexAbove (l : Law) (v : Nat) : Option Nat := (List.range 128).find? fun m => v ≤ l.level m

/-- The code of the positive level 0, which both mu-law codes with index 0 have (R93). -/
def Code.normal (l : Law) (c : Code) : Code := if l.level c.index = 0 then ⟨true, c.index⟩ else c

/-- The code of the highest level that is at most `x`; the largest code of `x`'s sign beyond the largest level. -/
def Law.codeBelow (l : Law) (x : Int) : Code :=
  if 0 ≤ x then
    match l.indexBelow x.natAbs with
    | some m => ⟨true, m⟩
    | none => Code.normal l ⟨false, 0⟩
  else
    match l.indexAbove x.natAbs with
    | some m => Code.normal l ⟨false, m⟩
    | none => ⟨false, 127⟩

/-- The code of the lowest level that is at least `x`; the largest code of `x`'s sign beyond the largest level. -/
def Law.codeAbove (l : Law) (x : Int) : Code :=
  if 0 ≤ x then
    match l.indexAbove x.natAbs with
    | some m => ⟨true, m⟩
    | none => ⟨true, 127⟩
  else
    match l.indexBelow x.natAbs with
    | some m => Code.normal l ⟨false, m⟩
    | none => ⟨true, 0⟩

/-- The code chosen between the lower code `lo` and the higher code `hi` of `x` (R93). -/
def chooseCode (l : Law) (mode : RoundMode) (x : Int) (lo hi : Code) : Code :=
  match mode with
  | .downward => lo
  | .upward => hi
  | .towardZero =>
    if (lo.level l).natAbs < (hi.level l).natAbs then lo
    else if (hi.level l).natAbs < (lo.level l).natAbs then hi
    else if lo.positive then lo else hi
  | .nearestEven =>
    if x - lo.level l < hi.level l - x then lo
    else if hi.level l - x < x - lo.level l then hi
    else if lo.index % 2 = 0 ∧ hi.index % 2 = 1 then lo
    else if lo.index % 2 = 1 ∧ hi.index % 2 = 0 then hi
    else if lo.positive then lo else hi

/-- Whether `x` lies beyond the largest level of its sign; no level lies beyond it (R92). -/
def Law.beyond (l : Law) (x : Int) : Bool := l.level 127 < x.natAbs

/-- Compression of a value: the code of its level, or of the level the mode chooses (R93). -/
def Law.compress (l : Law) (mode : RoundMode) (x : Int) : Byte :=
  if l.beyond x then l.byteOf (decide (0 ≤ x)) 127
  else
    (fun c : Code => l.byteOf c.positive c.index)
      (if (l.codeBelow x).level l = x then l.codeBelow x else chooseCode l mode x (l.codeBelow x) (l.codeAbove x))

end Sys2Proof.Machine
end

