-- ==== Sys2Proof/Machine/Handovers.lean ====
section
/-! DEFINITION. Handover, chapter 7: prepare, commit, cancel, expiry. -/

namespace Sys2Proof.Machine

/-! ### What ends a handover -/

/-- The handover entry's role becomes PRIMARY; its number and key are kept (R126). -/
def State.promote (s : State) (k : StreamKey) : State :=
  match s.findStream k with
  | some (n, e) => s.setStreamEntry n (some { e with role := .primary })
  | none => s

/-- The commit of the handover record of context `i` that moves to `k` (R126). -/
def State.commit (s : State) (i : Nat) (k : StreamKey) : State :=
  ((((s.removeStream? (s.ctx i).primary).promote k).modCtx i fun c =>
    { c with primary := some k, handover := none }).raise i .handoverDone).countFor .handoverCommit i

/-- The handover entry and record are removed (R130, R132). -/
def State.abandon (s : State) (i : Nat) (k : StreamKey) : State :=
  (s.removeStream k).modCtx i fun c => { c with handover := none }

/-- The handover deadline runs out (R130). -/
def State.expireHandover (s : State) (i : Nat) (k : StreamKey) : State :=
  ((s.abandon i k).raise i .handoverFailed).countFor .handoverFail i

/-- A boundary claim steps the handover deadline of its context (R130). -/
def State.stepHandover (s : State) (i : Nat) : State :=
  match (s.ctx i).handover with
  | none => s
  | some h =>
    if h.remaining ≤ 1 then s.expireHandover i h.key
    else s.modCtx i fun c => { c with handover := some { h with remaining := h.remaining - 1 } }

/-! ### HANDOVER_PREPARE (R123, R124) -/

/-- HANDOVER_PREPARE of a context (R123, R124). -/
def prepareHandover (i : Nat) (h : Handover) (s : State) : Taken :=
  if (s.ctx i).state = .opened ∨ (s.ctx i).state = .closed ∨ (s.ctx i).handover.isSome then refuse .wrongState s
  else if (s.ctx i).primary = some h.key ∨ (s.findStream h.key).isSome then refuse .streamTaken s
  else ⟨.ok, .handoverPrepared s.lowestStream h.key h.remaining,
    (s.addStream h.key i .handover).modCtx i fun c => { c with handover := some h }⟩

/-- The record a HANDOVER_PREPARE body asks for, where every field is in range (R123). -/
def handoverOf (l t0 t1 t2 b d0 d1 : Byte) : Option Handover :=
  match keyOf l t0 t1 t2, flagOf b with
  | some k, some f => if 1 ≤ le16 d0 d1 ∧ le16 d0 d1 ≤ 500 then some ⟨k, f, le16 d0 d1⟩ else none
  | _, _ => none

/-- HANDOVER_PREPARE, code 40h (R123). -/
def handoverPrepareOrder (p : Port) (body : List Byte) (s : State) : Taken :=
  match body with
  | [i0, i1, g, l, t0, t1, t2, b, d0, d1] =>
    ownerChecked p i0 i1 g (handoverOf l t0 t1 t2 b d0 d1).isSome s fun i =>
      prepareHandover i ((handoverOf l t0 t1 t2 b d0 d1).getD ⟨⟨0, 0⟩, false, 0⟩) s
  | _ => refuse .badLength s

/-! ### HANDOVER_COMMIT (R129) -/

/-- HANDOVER_COMMIT of a context (R129). -/
def commitHandover (i : Nat) (s : State) : Taken :=
  match (s.ctx i).handover with
  | none => refuse .wrongState s
  | some h => ⟨.ok, .handoverCommitted (s.ctx i).primary h.key (s.entryOf h.key), s.commit i h.key⟩

/-- HANDOVER_COMMIT, code 41h (R129). -/
def handoverCommitOrder (p : Port) (body : List Byte) (s : State) : Taken :=
  match body with
  | [i0, i1, g] => ownerChecked p i0 i1 g true s fun i => commitHandover i s
  | _ => refuse .badLength s

/-! ### HANDOVER_CANCEL (R132) -/

/-- HANDOVER_CANCEL of a context (R132). -/
def cancelHandover (i : Nat) (s : State) : Taken :=
  match (s.ctx i).handover with
  | none => refuse .wrongState s
  | some h => ⟨.ok, .handoverCancelled h.key h.remaining, s.abandon i h.key⟩

/-- HANDOVER_CANCEL, code 42h (R132). -/
def handoverCancelOrder (p : Port) (body : List Byte) (s : State) : Taken :=
  match body with
  | [i0, i1, g] => ownerChecked p i0 i1 g true s fun i => cancelHandover i s
  | _ => refuse .badLength s

/-! ### The commands -/

/-- HANDOVER_PREPARE (R123). -/
def execHandoverPrepare (p : Port) (tag : Byte) (body : List Byte) (s : State) : Host.Outcome State Fault Refusal :=
  runs s (orderFrame p .handoverPrepare tag body (handoverPrepareOrder p body) s)

/-- HANDOVER_COMMIT (R129). -/
def execHandoverCommit (p : Port) (tag : Byte) (body : List Byte) (s : State) : Host.Outcome State Fault Refusal :=
  runs s (orderFrame p .handoverCommit tag body (handoverCommitOrder p body) s)

/-- HANDOVER_CANCEL (R132). -/
def execHandoverCancel (p : Port) (tag : Byte) (body : List Byte) (s : State) : Host.Outcome State Fault Refusal :=
  runs s (orderFrame p .handoverCancel tag body (handoverCancelOrder p body) s)

end Sys2Proof.Machine
end

