-- ==== Sys2Proof/Machine/Rates.lean ====
section
/-! DEFINITION. Rate control, chapter 6: requests carried by cells, settling at a work start, SET_RATE, SET_RATESET. -/

namespace Sys2Proof.Machine

/-! ### Requests carried by cells (R106 to R108) -/

/-- The pending request after an accepted cell's corrected value `c` (R108). -/
def placedRequest (pending : Option RateRequest) (current : Option Nat) (c : Nat) : Option RateRequest :=
  match pending with
  | none => if some c = current then none else some ⟨c, .cell⟩
  | some ⟨x, .order⟩ => some ⟨x, .order⟩
  | some ⟨_, .cell⟩ => if some c = current then none else some ⟨c, .cell⟩

/-- The rate request field of an accepted cell is taken (R106): 0..7 is a request, 8..15 is none. -/
def State.takeRequest (s : State) (i field : Nat) : State :=
  if 7 < field then s
  else match (s.ctx i).permitted with
    | some set => s.modCtx i fun c => { c with request := placedRequest c.request c.rate (set.correct field) }
    | none => s

/-! ### Changing the current rate -/

/-- The current rate becomes `r`: the periods since rate change become 0 and one RATE_CHANGE event is counted (R112,
R114, R116, R66). No units move. -/
def State.retune (s : State) (i r : Nat) : State :=
  (s.modCtx i fun c => { c with rate := some r, sinceRate := 0 }).countFor .rateChange i

/-- The current rate of a converting context becomes `r`: reserved changes by the difference of the costs (R105). -/
def State.retunePaid (s : State) (i r : Nat) : State :=
  (s.setReserved (s.reserved + s.costOf i r - s.currentCost i)).retune i r

/-- The pending request of a context is removed. -/
def State.dropRequest (s : State) (i : Nat) : State := s.modCtx i fun c => { c with request := none }

/-! ### Settling (R110 to R112) -/

/-- A rate is applied at settling (R112). -/
def State.applyRate (s : State) (i r : Nat) : State :=
  ((s.retunePaid i r).dropRequest i).raise i .rateChanged

/-- What a raise from `current` to `r` asks for, in turn: `r`, then each permitted index between them, descending
(R111). -/
def raiseCandidates (permitted : Option RateSet) (current r : Nat) : List Nat :=
  r :: (match permitted with
    | some set => (set.indices.filter fun x => current < x && x < r).reverse
    | none => [])

/-- The first candidate whose cost difference fits the headroom (R111). -/
def State.affordable (s : State) (i current r : Nat) : Option Nat :=
  (raiseCandidates (s.ctx i).permitted current r).find? fun x => s.fits (s.costOf i x - s.costOf i current)

/-- A raise settled against the account (R111). -/
def State.settleRaise (s : State) (i current r : Nat) : State :=
  match s.affordable i current r with
  | some x => s.applyRate i x
  | none => ((s.dropRequest i).raise i .rateRefused).countFor .admitRefused i

/-- A request being settled, by its rate against the current rate (R110). -/
def State.settleRate (s : State) (i current r : Nat) : State :=
  if r = current then s.dropRequest i
  else if r < current then s.applyRate i r
  else s.settleRaise i current r

/-- The rate hold of a context's profile (R109). -/
def State.rateHold (s : State) (i : Nat) : Nat :=
  match s.profileOf i with
  | some p => p.hold
  | none => 0

/-- Step 4 of a boundary claim (R110): a CELL request waits for the rate hold, an ORDER request does not. -/
def State.settle (s : State) (i : Nat) : State :=
  match (s.ctx i).request with
  | none => s
  | some ⟨r, .cell⟩ =>
    if (s.ctx i).sinceRate < s.rateHold i then s else s.settleRate i ((s.ctx i).rate.getD 0) r
  | some ⟨r, .order⟩ => s.settleRate i ((s.ctx i).rate.getD 0) r

/-! ### SET_RATE (R113 to R115) -/

/-- SET_RATE in OPEN or HELD sets the rate at once (R114). -/
def setRateAtOnce (i r : Nat) (s : State) : Taken :=
  if (s.ctx i).rate = some r then ⟨.ok, .rateSet .current (some r) (s.ctx i).request none, s⟩
  else ⟨.ok, .rateSet .set (some r) (s.ctx i).request none, s.retune i r⟩

/-- SET_RATE in ARMED or ACTIVE places a request from source ORDER (R115). -/
def setRatePending (i r : Nat) (s : State) : Taken :=
  if (s.ctx i).rate = some r then
    ⟨.ok, .rateSet .current (some r) none (s.ctx i).request, s.dropRequest i⟩
  else ⟨.ok, .rateSet .pending (s.ctx i).rate (some ⟨r, .order⟩) (s.ctx i).request,
    s.modCtx i fun c => { c with request := some ⟨r, .order⟩ }⟩

/-- Whether the permitted set of a context holds `r`; none does where the context holds no set. -/
def Ctx.permits (c : Ctx) (r : Nat) : Bool :=
  match c.permitted with
  | some set => set.has r
  | none => false

/-- SET_RATE of a context (R113). -/
def setRateOf (i r : Nat) (s : State) : Taken :=
  if (s.ctx i).state = .closed then refuse .wrongState s
  else if (s.ctx i).permits r = false then refuse .badField s
  else if (s.ctx i).converting then setRatePending i r s
  else setRateAtOnce i r s

/-- SET_RATE, code 39h (R113). -/
def setRateOrder (p : Port) (body : List Byte) (s : State) : Taken :=
  match body with
  | [i0, i1, g, r] => ownerChecked p i0 i1 g (decide (r.toNat ≤ 7)) s fun i => setRateOf i r.toNat s
  | _ => refuse .badLength s

/-! ### SET_RATESET (R116, R117) -/

/-- The pending request that a narrowed set leaves (R117). -/
def keptRequest (set : RateSet) (current : Nat) (q : Option RateRequest) : Option RateRequest :=
  match q with
  | none => none
  | some x => if set.has x.rate ∧ x.rate ≠ current then some x else none

/-- Whether a narrowed set removes an ORDER request with RATE_REFUSED: its rate lies outside the set (R117). -/
def refusedRequest (set : RateSet) (q : Option RateRequest) : Bool :=
  match q with
  | none => false
  | some x => !set.has x.rate && x.source = .order

/-- The permitted set replaced and the pending request decided against it, with current rate `r` (R117). -/
def State.narrow (s : State) (i : Nat) (set : RateSet) (r : Nat) : State :=
  (s.modCtx i fun c => { c with permitted := some set, request := keptRequest set r c.request }).raiseIf
    (refusedRequest set (s.ctx i).request) i .rateRefused

/-- The response of a SET_RATESET that moves the rate from `r` to `r'` (R117). -/
def ratesetReply (i : Nat) (set : RateSet) (r r' : Nat) (s : State) : RespBody :=
  .ratesetReplaced ((s.ctx i).permitted.getD 0) set (some r) (some r') (s.ctx i).request
    (keptRequest set r' (s.ctx i).request)

/-- SET_RATESET that must move the current rate `r` to the landing index (R116). -/
def moveRateset (i : Nat) (set : RateSet) (r : Nat) (s : State) : Taken :=
  if (s.ctx i).converting = false then
    ⟨.ok, ratesetReply i set r (set.landing r) s, (s.retune i (set.landing r)).narrow i set (set.landing r)⟩
  else if r < set.landing r ∧ s.fits (s.costOf i (set.landing r) - s.costOf i r) = false then
    ⟨.noCapacity, .nothing, s.countFor .admitRefused i⟩
  else
    ⟨.ok, ratesetReply i set r (set.landing r) s, (s.retunePaid i (set.landing r)).narrow i set (set.landing r)⟩

/-- SET_RATESET on a context with current rate `r` (R116): a rate in the new set is kept. -/
def replaceRateset (i : Nat) (set : RateSet) (r : Nat) (s : State) : Taken :=
  if set.has r then ⟨.ok, ratesetReply i set r r s, s.narrow i set r⟩ else moveRateset i set r s

/-- SET_RATESET of a context (R116). -/
def setRatesetOf (i : Nat) (set : RateSet) (s : State) : Taken :=
  if (s.ctx i).state = .closed then refuse .wrongState s
  else match s.profileOf i with
    | none => refuse .badField s
    | some c =>
      if set.within c.table.length then replaceRateset i set ((s.ctx i).rate.getD 0) s else refuse .badField s

/-- SET_RATESET, code 38h (R116). -/
def setRatesetOrder (p : Port) (body : List Byte) (s : State) : Taken :=
  match body with
  | [i0, i1, g, set] => ownerChecked p i0 i1 g (decide (set ≠ 0)) s fun i => setRatesetOf i set s
  | _ => refuse .badLength s

/-! ### The commands -/

/-- SET_RATE (R113). -/
def execSetRate (p : Port) (tag : Byte) (body : List Byte) (s : State) : Host.Outcome State Fault Refusal :=
  runs s (orderFrame p .setRate tag body (setRateOrder p body) s)

/-- SET_RATESET (R116). -/
def execSetRateset (p : Port) (tag : Byte) (body : List Byte) (s : State) : Host.Outcome State Fault Refusal :=
  runs s (orderFrame p .setRateset tag body (setRatesetOrder p body) s)

end Sys2Proof.Machine
end

