-- ==== Sys2Proof/Machine/Period.lean ====
section
/-! DEFINITION. Boundaries and period work, chapters 5 and 8: the boundary claim of a context and of a port, the
start and completion of a work, frame marks and their loss. -/

namespace Sys2Proof.Machine

/-! ### Step 1 of a boundary claim: the counts (R84, R130, R141, R143) -/

/-- The first-cell wait expires (R141): back to OPEN, or CLOSED with auto-retire. -/
def State.expireFirst (s : State) (i : Nat) : State :=
  if (s.ctx i).autoRetire then s.enterClosed i .noFirstCell else s.returnToOpen i

/-- The first-cell remaining count of an ARMED context steps (R141). -/
def State.stepFirst (s : State) (i : Nat) : State :=
  match (s.ctx i).firstRemaining with
  | some n => if n ≤ 1 then s.expireFirst i else s.modCtx i fun c => { c with firstRemaining := some (n - 1) }
  | none => s

/-- The silence count after one more boundary, saturating at 6000 (R143). -/
def Ctx.silenceNext (c : Ctx) : Nat := min 6000 (c.silence + 1)

/-- Whether the boundary raises STALE (R143). -/
def Ctx.staleNext (c : Ctx) : Bool := decide (c.silenceLimit ≤ c.silenceNext) && !c.staleRaised

/-- Whether the boundary closes the context for silence (R143). -/
def Ctx.silenceCloses (c : Ctx) : Bool := c.autoRetire && decide (2 * c.silenceLimit ≤ c.silenceNext)

/-- The silence count steps, and STALE is raised at the limit (R143, first test). -/
def State.stepStale (s : State) (i : Nat) : State :=
  (s.modCtx i fun c => { c with silence := c.silenceNext, staleRaised := c.staleRaised || c.staleNext }).raiseIf
    (s.ctx i).staleNext i .stale

/-- The silence count of an ACTIVE context steps, with both tests (R143). -/
def State.stepSilence (s : State) (i : Nat) : State :=
  if (s.ctx i).silenceCloses then (s.stepStale i).enterClosed i .silence else s.stepStale i

/-- Step 1 in ARMED or ACTIVE: the handover deadline first, then the count of the state (R131). -/
def State.stepCounts (s : State) (i : Nat) : State :=
  match (s.ctx i).state with
  | .armed => (s.stepHandover i).stepFirst i
  | .active => (s.stepHandover i).stepSilence i
  | .free => s
  | .opened => s
  | .held => s
  | .closed => s

/-! ### Queue selection (R100) -/

/-- The decision and the record a queue entry removed at a work start gives (R90, R100). -/
def consume (c : Ctx) (e : QEntry) : Uplink × Ctx :=
  match e.kind with
  | .speech => (.speech e.rate e.payload, c)
  | .silenceUpdate => (.noise e.payload, { c with noise := some e.payload })
  | .noData =>
    match c.noise with
    | some d => (.noise d, c)
    | none => (.silence, c)
  | .erased => (.conceal, c)

/-- Step 3 of the selection with expected sequence `e` (R100): the head at distance 0 is removed and becomes the
decision, else the period is concealed; the expected sequence advances by one. The kernel's history grows by the
period. -/
def playHead (c : Ctx) (e : Seq16) : Uplink × Ctx :=
  match c.queue with
  | x :: rest =>
    if x.seq = e then
      ((consume c x).1, { (consume c x).2 with
        queue := rest, expected := some (e + 1), history := c.history + 1 })
    else (.conceal, { c with expected := some (e + 1), history := c.history + 1 })
  | [] => (.conceal, { c with expected := some (e + 1), history := c.history + 1 })

/-- The queue selection of a work start in ACTIVE (R100). -/
def selectUplink (c : Ctx) : Uplink × Ctx :=
  match c.expected with
  | none => (.noSamples, c)
  | some e =>
    if c.priming then
      if c.depth ≤ c.queue.length then playHead { c with priming := false } e else (.noSamples, c)
    else playHead c e

/-- A concealment decided at a work start is counted (R100). -/
def State.countConceal (s : State) (i : Nat) (u : Uplink) : State :=
  match u with
  | .conceal =>
    (s.modCtx i fun c => { c with counters := { c.counters with concealed := c.counters.concealed + 1 } }).countFor
      .conceal i
  | .noSamples => s
  | .speech _ _ => s
  | .noise _ => s
  | .silence => s

/-! ### The start of a work (R85) -/

/-- The rounding mode a work fixes: DEFAULT is resolved at its start (R85, R93). -/
def Rounding.resolve (device : RoundMode) : Rounding → RoundMode
  | .mode m => m
  | .deviceDefault => device

/-- The payload bytes of a rate of a context's profile. -/
def State.lengthOf (s : State) (i r : Nat) : Nat :=
  match s.rateEntry i r with
  | some e => e.bytes
  | none => 0

/-- The kernel family of a context's profile (R47). -/
def State.familyOf (s : State) (i : Nat) : Family :=
  match s.profileOf i with
  | some p => p.family
  | none => .narrowMulti

/-- The bicast key of a handover record with bicast yes (R85, R125). -/
def bicastKey : Option Handover → Option StreamKey
  | some h => if h.bicast then some h.key else none
  | none => none

/-- The work that starts in state `s` at context `i` with uplink decision `u` (R85). -/
def State.newWork (s : State) (i : Nat) (u : Uplink) : Work where
  rate := (s.ctx i).rate.getD 0
  length := s.lengthOf i ((s.ctx i).rate.getD 0)
  family := s.familyOf i
  primary := (s.ctx i).primary
  bicast := bicastKey (s.ctx i).handover
  outSeq := (s.ctx i).outSeq
  gainLand := (s.ctx i).gainLand
  gainMobile := (s.ctx i).gainMobile
  round := (s.ctx i).rounding.resolve s.defaultRound
  clipReport := (s.ctx i).clipReport
  landline := s.handedBlock i
  uplink := u
  history := (s.ctx i).history

/-- The uplink decision of a work start and the record it leaves: no samples in ARMED (R85). -/
def Ctx.uplinkStart (c : Ctx) : Uplink × Ctx := if c.state = .active then selectUplink c else (.noSamples, c)

/-- Step 5 of a boundary claim: the work starts with the items R85 fixes, and it is waiting. -/
def State.startWork (s : State) (i : Nat) : State :=
  ((s.setCtx i { (s.ctx i).uplinkStart.2 with work := some (s.newWork i (s.ctx i).uplinkStart.1) }).countConceal i
    (s.ctx i).uplinkStart.1).dropHanded i

/-! ### The boundary claim of a context (R84) -/

/-- Step 2: the ready block becomes the slot's outbound block; with none the slot is IDLE. -/
def State.playReady (s : State) (i : Nat) : State :=
  (s.playBlock i (s.ctx i).ready).modCtx i fun c => { c with ready := none }

/-- Step 3: the periods since rate change, saturating at 65535. -/
def State.stepSinceRate (s : State) (i : Nat) : State :=
  s.modCtx i fun c => { c with sinceRate := min 65535 (c.sinceRate + 1) }

/-- Steps 2 to 5 of a context that stays converting; else the inbound block is discarded (the ready block was
discarded by the expiry) and no work starts. -/
def State.continueClaim (s : State) (i : Nat) : State :=
  if (s.ctx i).converting then (((s.playReady i).stepSinceRate i).settle i).startWork i else s.dropHanded i

/-- The boundary claim of context `i`, by its state when the claim is taken (R84). -/
def State.claimBody (s : State) (i : Nat) : State :=
  match (s.ctx i).state with
  | .opened => (s.stepHandover i).dropHanded i
  | .held => (s.stepHandover i).dropHanded i
  | .armed => ((s.discardWork i).stepCounts i).continueClaim i
  | .active => ((s.discardWork i).stepCounts i).continueClaim i
  | .free => s
  | .closed => s

/-- A context's boundary claim, where the last boundary still owes it (R82); else the event does not occur (log 2). At a
record that is FREE or CLOSED no context receives the claim, and the index has had its claim of this boundary: one opened
there before the next mark receives none. That is the model's choice (log 29). -/
def State.boundaryClaim (s : State) (i : Nat) : State :=
  if s.claimDue i then (s.claimBody i).markClaimed i else s

/-! ### The boundary at a port (R171, R172) -/

/-- The supervision count after one more boundary. -/
def Supervision.countNext (v : Supervision) : Nat := min 65535 (v.count + 1)

/-- Whether the boundary makes the port SILENT (R171). -/
def Supervision.fallsSilent (v : Supervision) : Bool :=
  v.settings.enabled &&
    (match v.state with
      | .initial => decide (v.settings.initialLimit ≤ v.countNext)
      | .live => decide (v.settings.steadyLimit ≤ v.countNext)
      | .silent => false)

/-- A port becomes SILENT: its contexts are orphaned and PARTNER_SILENT is raised at the other port (R172). -/
def State.goSilent (s : State) (p : Port) : State :=
  ((s.setSup p { (s.port p).sup with state := .silent, count := (s.port p).sup.countNext }).setOrphans p true).raisePort
    p.other .partnerSilent

/-- A boundary taken at a port (R171). -/
def State.portBody (s : State) (p : Port) : State :=
  if (s.port p).sup.settings.enabled = false then s
  else if (s.port p).sup.fallsSilent then s.goSilent p
  else s.setSup p { (s.port p).sup with count := (s.port p).sup.countNext }

/-- Whether the last boundary is still to be taken at port `p` (R82). -/
def State.portDue (s : State) (p : Port) : Bool := s.timer.portDue.get p

/-- The boundary at port `p`, where it is still to be taken; else the event does not occur (log 2). -/
def State.portBoundary (s : State) (p : Port) : State :=
  if s.portDue p then
    (s.setTimer { s.timer with portDue := s.timer.portDue.set p false }).portBody p
  else s

/-- The claims a boundary still owes are taken before the next highway frame begins, at the ports and at every listed
context, in ascending index (R82, log 6). -/
def State.settleBoundary (s : State) : State :=
  (fun t : State => t.setTimer { t.timer with owed := false, claimed := [] })
    (s.ctxs.keys.foldl State.boundaryClaim ((s.portBoundary .a).portBoundary .b))

/-! ### Frame marks (R80 to R82, R26) -/

/-- The code a FRAME_MARK command gives for a slot; a free value where it lists none (log 5). -/
def receivedAt (draw : Nat) (rx : List (Nat × Byte)) (slot : Nat) : Byte :=
  match rx.find? fun e => e.1 = slot with
  | some e => e.2
  | none => Config.receivedCode draw slot

/-- The slots that hold a map entry. -/
def State.mappedSlots (s : State) : List Nat := s.slotMap.keys.filter fun n => (s.slotEntry n).isSome

/-- The code of the frame that ended joins the inbound block of slot `n`, where one is being collected (R26). -/
def State.collectAt (rx : List (Nat × Byte)) (s : State) (n : Nat) : State :=
  match (s.block n).inbound with
  | some l => s.setBlock n { s.block n with inbound := some (l ++ [receivedAt s.freeCount rx n]) }
  | none => s

/-- Every inbound block being collected takes its code (R26). -/
def State.collect (rx : List (Nat × Byte)) (s : State) : State :=
  (s.mappedSlots.foldl (State.collectAt rx) s).drawn

/-- The blocks of a slot at a boundary: the inbound block is handed over, a new one starts empty, and the outbound
block of the period that ended is done with (R26). -/
def SlotBlocks.atBoundary (b : SlotBlocks) : SlotBlocks := ⟨some [], b.inbound, none⟩

/-- A boundary at slot `n`. -/
def State.handOver (s : State) (n : Nat) : State := s.setBlock n (s.block n).atBoundary

/-- A relock at slot `n`: new, empty blocks (R80). -/
def State.freshBlocks (s : State) (n : Nat) : State := s.setBlock n ⟨some [], none, none⟩

/-- The boundary the 160th mark produces (R80, R82): the period counter advances, the inbound blocks are handed over,
and every context and port has its claim to take. -/
def State.boundary (s : State) : State :=
  (s.mappedSlots.foldl State.handOver s).setTimer
    ⟨some 0, s.timer.period + 1, true, [], ⟨true, true⟩⟩

/-- A mark while UNLOCKED (R80). -/
def State.relock (s : State) : State :=
  (s.mappedSlots.foldl State.freshBlocks s).setTimer { s.timer with frame := some 0 }

/-- A mark while LOCKED with frame count `n` (R80). -/
def State.markAt (s : State) (n : Nat) : State :=
  if n + 1 = Config.periodFrames then s.boundary else s.setTimer { s.timer with frame := some (n + 1) }

/-- A highway frame mark (R80). -/
def State.frameMark (s : State) (rx : List (Nat × Byte)) : State :=
  match s.settleBoundary.timer.frame with
  | none => s.settleBoundary.relock
  | some n => (s.settleBoundary.collect rx).markAt n

/-- A slot's inbound and outbound blocks are discarded (R81). -/
def State.dropBlocks (s : State) (n : Nat) : State := s.setBlock n { s.block n with inbound := none, outbound := none }

/-- Framing is lost (R81); while UNLOCKED there is nothing to lose. -/
def State.framingLost (s : State) : State :=
  match s.timer.frame with
  | none => s
  | some _ =>
    (fun t : State => (t.blocks.keys.foldl State.dropBlocks t).setTimer { t.timer with frame := none })
      s.settleBoundary

/-! ### The slot on the highway (R27): what a frame that begins now carries -/

/-- The drive states of a slot. -/
inductive Drive where
  | notDriven | idle | speech
deriving DecidableEq, Repr

/-- The drive state of slot `n` in a highway frame that begins in state `s` (R27, log 11). -/
def State.drive (s : State) (n : Nat) : Drive :=
  match s.slotEntry n with
  | none => .notDriven
  | some i => if (s.ctx i).state = .active ∧ (s.block n).outbound.isSome then .speech else .idle

/-- The law of the slot binding of a context. -/
def Ctx.law (c : Ctx) : Law :=
  match c.slot with
  | some b => b.law
  | none => .aLaw

/-- The code the part transmits in slot `n` in the frame that begins in state `s`; none where the slot is not driven
or there is no frame (R26, R27). -/
def State.transmits (s : State) (n : Nat) : Option Byte :=
  match s.timer.frame, s.slotEntry n with
  | some k, some i =>
    if s.drive n = .speech then some ((((s.block n).outbound.getD [])[k]?).getD (s.ctx i).law.idle)
    else some (s.ctx i).law.idle
  | _, _ => none

/-! ### The completion of a work (R86, R87, R89 to R93) -/

/-- A family's number in a draw of a free value. -/
def Family.code : Family → Nat
  | .narrowMulti => 0
  | .narrowSingle => 1
  | .wideMulti => 2

/-- The 160 linear samples that the encoder takes: the landline codes expanded, missing positions 0, the gain toward
mobile applied and limited (R89). -/
def Work.downlinkLevels (w : Work) (law : Law) : List Int :=
  (List.range Config.periodFrames).map fun k =>
    match w.landline[k]? with
    | some b => limit (scale w.gainMobile (law.expand b))
    | none => limit (scale w.gainMobile 0)

/-- The downlink payload: as many bytes as the rate has, each a free value (R90, log 8). -/
def Work.payload (w : Work) (law : Law) (draw : Nat) : List Byte :=
  (List.range w.length).map fun k => Config.payloadByte draw w.family.code w.length (w.downlinkLevels law) k

/-- The uplink samples of a decision, each a free value but for silence, whose samples are 0 (R90, log 8, log 10). -/
def Work.samples (w : Work) (draw : Nat) : Option (List Int) :=
  match w.uplink with
  | .noSamples => none
  | .silence => some (List.replicate Config.periodFrames 0)
  | .speech r p => some ((List.range Config.periodFrames).map fun k =>
      (Config.uplinkSample draw w.family.code 0 r p w.history k).toInt)
  | .noise d => some ((List.range Config.periodFrames).map fun k =>
      (Config.uplinkSample draw w.family.code 1 0 d w.history k).toInt)
  | .conceal => some ((List.range Config.periodFrames).map fun k =>
      (Config.uplinkSample draw w.family.code 2 0 [] w.history k).toInt)

/-- A work's samples scaled by the gain toward landline (R92). -/
def Work.scaled (w : Work) (draw : Nat) : Option (List Int) := (w.samples draw).map fun l => l.map (scale w.gainLand)

/-- Whether at least one sample clips (R92). -/
def Work.clipping (w : Work) (draw : Nat) : Bool :=
  match w.scaled draw with
  | some l => l.any clips
  | none => false

/-- The ready block: the scaled samples limited and compressed under the slot's law (R87, R92, R93). -/
def Work.readyBlock (w : Work) (law : Law) (draw : Nat) : Option (List Byte) :=
  (w.scaled draw).map fun l => l.map fun x => law.compress w.round (limit x)

/-- A cell is handed to the link of its key, and CELL_OUT is counted for context `i` (R28, R86). -/
def State.sendCell (s : State) (i : Nat) (w : Work) (payload : List Byte) (k : StreamKey) : State :=
  (s.setLink k.link (s.link k.link ++ [⟨k.tag, w.rate, w.outSeq, payload⟩])).countFor .cellOut i

/-- A cell to an optional key. -/
def State.sendCell? (s : State) (i : Nat) (w : Work) (payload : List Byte) : Option StreamKey → State
  | some k => s.sendCell i w payload k
  | none => s

/-- The record after the completion of `w` (R86). -/
def Ctx.completed (c : Ctx) (w : Work) (draw : Nat) : Ctx :=
  { c with
    work := none
    outSeq := w.outSeq + 1
    ready := match w.readyBlock c.law draw with
      | some b => some b
      | none => c.ready
    counters := { c.counters with
      cellsOut := c.counters.cellsOut + 1
      clipPeriods := if w.clipping draw then c.counters.clipPeriods + 1 else c.counters.clipPeriods } }

/-- A clipping work is counted, and reported where its clip reporting flag was on (R86, R92). -/
def State.reportClip (s : State) (i : Nat) (w : Work) (clipped : Bool) : State :=
  if clipped then (s.countFor .clipPeriod i).raiseIf w.clipReport i .clipping else s

/-- The completion of work `w` of context `i` at lane `n` (R86). The primary key's cell is handed to its link before the
bicast key's, which shows where both keys lie on one link: R28, R86 and R125 fix no order within the claim (the model's
choice, log 31). -/
def State.complete (s : State) (n i : Nat) (w : Work) : State :=
  ((((((s.setLane n { s.lane n with inHand := none }).sendCell? i w (w.payload (s.ctx i).law s.freeCount)
    w.primary).sendCell? i w (w.payload (s.ctx i).law s.freeCount) w.bicast).modCtx i fun c =>
      c.completed w s.freeCount).reportClip i w (w.clipping s.freeCount)).drawn)

/-- A lane finishes the work it has in hand (R86); with none the event does not occur (log 2). -/
def State.finishWork (s : State) (n : Nat) : State :=
  match (s.lane n).inHand with
  | some i =>
    match (s.ctx i).work with
    | some w => s.complete n i w
    | none => s
  | none => s

/-! ### The commands -/

/-- FRAME_MARK (R80). -/
def execFrameMark (rx : List (Nat × Byte)) (s : State) : Host.Outcome State Fault Refusal := runs s (s.frameMark rx)

/-- FRAMING_LOST (R81). -/
def execFramingLost (s : State) : Host.Outcome State Fault Refusal := runs s s.framingLost

/-- BOUNDARY_CLAIM (R84). -/
def execBoundaryClaim (i : Fin 2048) (s : State) : Host.Outcome State Fault Refusal := runs s (s.boundaryClaim i.val)

/-- PORT_BOUNDARY (R171). -/
def execPortBoundary (p : Port) (s : State) : Host.Outcome State Fault Refusal := runs s (s.portBoundary p)

/-- PORT_SILENT (R172): the port boundary in which the count reaches its limit (log 4). -/
def execPortSilent (p : Port) (s : State) : Host.Outcome State Fault Refusal :=
  runs s (if (s.port p).sup.fallsSilent then s.portBoundary p else s)

/-- FIRST_CELL_EXPIRY (R141): the boundary claim in which the first-cell remaining count reaches 0 (log 4). -/
def execFirstCellExpiry (i : Fin 2048) (s : State) : Host.Outcome State Fault Refusal :=
  runs s (if (s.ctx i.val).state = .armed ∧ ((s.ctx i.val).firstRemaining.getD 2) ≤ 1 then s.boundaryClaim i.val
    else s)

/-- SILENCE_LIMIT (R143): the boundary claim in which the silence count reaches the limit with stale raised no
(log 4). -/
def execSilenceLimit (i : Fin 2048) (s : State) : Host.Outcome State Fault Refusal :=
  runs s (if (s.ctx i.val).state = .active ∧ (s.ctx i.val).staleNext = true then s.boundaryClaim i.val else s)

/-- SILENCE_RETIRE (R143): the boundary claim in which the silence count reaches twice the limit with auto-retire on
(log 4). -/
def execSilenceRetire (i : Fin 2048) (s : State) : Host.Outcome State Fault Refusal :=
  runs s (if (s.ctx i.val).state = .active ∧ (s.ctx i.val).silenceCloses = true then s.boundaryClaim i.val else s)

/-- Whether the next boundary claim of a context ends its handover (R130). -/
def Ctx.handoverEnds (c : Ctx) : Bool :=
  match c.handover with
  | some h => decide (h.remaining ≤ 1)
  | none => false

/-- HANDOVER_EXPIRY (R130): the boundary claim in which the handover deadline remaining reaches 0 (log 4). -/
def execHandoverExpiry (i : Fin 2048) (s : State) : Host.Outcome State Fault Refusal :=
  runs s (if (s.ctx i.val).handoverEnds then s.boundaryClaim i.val else s)

/-- WORK_COMPLETION (R86). -/
def execWorkCompletion (lane : Fin 8) (s : State) : Host.Outcome State Fault Refusal := runs s (s.finishWork lane.val)

end Sys2Proof.Machine
end

