-- ==== Sys2Proof/Machine/Cells.lean ====
section
/-! DEFINITION. Cell intake and arrivals at the playout queue: R37 to R41, R96 to R99, R11, R106, R127; and the
transmit side of the cell links (R28). -/

namespace Sys2Proof.Machine

/-! ### The cell header (R188) -/

/-- A cell as its link frame carries it: header fields and payload. -/
structure InCell where
  link : Nat
  tag : Nat
  kind : Nat
  markedBad : Bool
  seq : Seq16
  rate : Nat
  request : Nat
  length : Nat
  payload : List Byte
deriving DecidableEq, Repr

/-- The header and payload of a link frame; none where it is shorter than a header (R188). Bit 7 of byte 2 and byte 7
are not read. -/
def parseCell (link : Nat) (bytes : List Byte) : Option InCell :=
  match bytes with
  | b0 :: b1 :: b2 :: b3 :: b4 :: b5 :: b6 :: _ :: payload =>
    some { link := link
           tag := le24 b0 b1 (b2 &&& 0x0F)
           kind := (b2.toNat / 16) % 4
           markedBad := b2.getLsbD 6
           seq := b4 ++ b3
           rate := b5.toNat % 16
           request := b5.toNat / 16
           length := b6.toNat
           payload := payload }
  | _ => none

/-- A well-formed cell (R37): a link frame of 8 to 88 bytes that agrees with the payload length, and a tag. -/
def wellFormedCell (link : Nat) (bytes : List Byte) : Option InCell :=
  match parseCell link bytes with
  | some c => if bytes.length ≤ 88 ∧ bytes.length = 8 + c.length ∧ c.tag ≠ 0 then some c else none
  | none => none

/-- The key a cell carries (R38). -/
def InCell.key (c : InCell) : StreamKey := ⟨c.link, c.tag⟩

/-- Whether a payload length matches its kind and rate (R40). -/
def lengthMatches (kind length : Nat) (e : RateEntry) : Bool :=
  match kind with
  | 0 => decide (length = e.bytes)
  | 1 => decide (length = 6)
  | 2 => decide (length = 0)
  | _ => false

/-- Whether a cell is bad for context `i` (R40). -/
def State.badCell (s : State) (i : Nat) (c : InCell) : Bool :=
  c.markedBad ||
    (match s.rateEntry i c.rate with
      | some e => !lengthMatches c.kind c.length e
      | none => true)

/-- The kind of a good cell's entry (R99). -/
def entryKindOf : Nat → EntryKind
  | 0 => .speech
  | 1 => .silenceUpdate
  | 2 => .noData
  | _ => .erased

/-- The queue entry a cell becomes: its own kind with its payload, or ERASED without (R99). -/
def InCell.entry (c : InCell) (bad : Bool) : QEntry :=
  if bad then ⟨c.seq, .erased, c.rate, []⟩ else ⟨c.seq, entryKindOf c.kind, c.rate, c.payload⟩

/-! ### Placement in the playout queue (R96 to R99) -/

/-- An entry inserted at its place in distance order from `e` (R96). -/
def insertEntry (e : Seq16) (x : QEntry) : List QEntry → List QEntry
  | [] => [x]
  | y :: t => if (x.seq - e).toNat < (y.seq - e).toNat then x :: y :: t else y :: insertEntry e x t

/-- The counters after an accepted cell (R97, R99). -/
def Counters.accept (k : Counters) (bad : Bool) : Counters :=
  { k with cellsIn := k.cellsIn + 1, bad := if bad then k.bad + 1 else k.bad }

/-- A tally event counted where `b` holds. -/
def State.countIf (s : State) (b : Bool) (k : Event) (i : Nat) : State := if b then s.countFor k i else s

/-- The counts of an accepted cell: cells in and CELL_IN, and for a bad one bad and CELL_BAD (R97 to R99). -/
def State.acceptCounts (s : State) (i : Nat) (bad : Bool) : State :=
  ((s.modCtx i fun c => { c with counters := c.counters.accept bad }).countFor .cellIn i).countIf bad .cellBad i

/-- The queue starts on a cell: it sets the expected sequence and is the one entry, priming begins, and the kernel's
description and history start empty (R98, R97, R90). -/
def Ctx.startQueue (c : Ctx) (x : QEntry) : Ctx :=
  { c with expected := some x.seq, queue := [x], priming := true, noise := none, history := 0 }

/-- A first arrival (R98): the queue starts, the cell is counted and its request taken. -/
def State.firstArrival (s : State) (i : Nat) (c : InCell) : State :=
  (((s.modCtx i fun x => x.startQueue (c.entry (s.badCell i c))).acceptCounts i (s.badCell i c)).takeRequest i
    c.request)

/-- An in-window arrival at a free distance (R97). -/
def State.insertCell (s : State) (i : Nat) (e : Seq16) (c : InCell) : State :=
  (((s.modCtx i fun x => { x with queue := insertEntry e (c.entry (s.badCell i c)) x.queue }).acceptCounts i
    (s.badCell i c)).takeRequest i c.request)

/-- A far-ahead arrival (R97): the queue starts again on it, and resync is counted. -/
def State.resync (s : State) (i : Nat) (c : InCell) : State :=
  ((((s.modCtx i fun x =>
    { x.startQueue (c.entry (s.badCell i c)) with
      counters := { x.counters with resync := x.counters.resync + 1 } }).acceptCounts i (s.badCell i c)).countFor
        .cellResync i).takeRequest i c.request)

/-- A duplicate is dropped and counted (R97). -/
def State.dropDuplicate (s : State) (i : Nat) : State :=
  (s.modCtx i fun c => { c with counters := { c.counters with duplicate := c.counters.duplicate + 1 } }).countFor
    .cellDup i

/-- A late cell is dropped and counted (R97). -/
def State.dropLate (s : State) (i : Nat) : State :=
  (s.modCtx i fun c => { c with counters := { c.counters with late := c.counters.late + 1 } }).countFor .cellLate i

/-- Placement against expected sequence `e` by distance (R97). -/
def State.placeAt (s : State) (i : Nat) (e : Seq16) (c : InCell) : State :=
  if (c.seq - e).toNat ≤ 5 then
    if (s.ctx i).queue.any (fun x => x.seq = c.seq) then s.dropDuplicate i else s.insertCell i e c
  else if (c.seq - e).toNat ≤ 32767 then s.resync i c
  else s.dropLate i

/-- Placement at an ACTIVE context (R97, R98). -/
def State.place (s : State) (i : Nat) (c : InCell) : State :=
  match (s.ctx i).expected with
  | some e => s.placeAt i e c
  | none => s.firstArrival i c

/-! ### Dispatch by state (R39, R11) -/

/-- Every cell that reaches a converting context resets its silence (R39, R142, R144). -/
def State.heard (s : State) (i : Nat) : State := s.modCtx i fun c => { c with silence := 0, staleRaised := false }

/-- The first accepted cell at an ARMED context (R11): ACTIVE, the wait ended, the queue started, FIRST_CELL. -/
def State.firstCell (s : State) (i : Nat) (c : InCell) : State :=
  ((((s.heard i).modCtx i fun x => { x with state := .active, firstRemaining := none }).firstArrival i c).raise i
    .firstCell)

/-- A well-formed cell at the context it reached (R39). -/
def State.dispatch (s : State) (i : Nat) (c : InCell) : State :=
  match (s.ctx i).state with
  | .opened => s.countFor .cellIdle i
  | .held => s.countFor .cellIdle i
  | .armed => s.firstCell i c
  | .active => (s.heard i).place i c
  | .free => s.count .cellMiss none
  | .closed => s.count .cellMiss none

/-- A cell found in a map entry: on a handover key the handover commits first (R38, R127). -/
def State.reach (s : State) (e : StreamEntry) (c : InCell) : State :=
  match e.role with
  | .primary => s.dispatch e.index c
  | .handover => (s.commit e.index e.key).dispatch e.index c

/-- A link frame taken at cell intake (R37, R38): malformed cells and misses are counted CELL_MISS. -/
def State.intake (s : State) (link : Nat) (bytes : List Byte) : State :=
  match wellFormedCell link bytes with
  | none => s.count .cellMiss none
  | some c =>
    match s.findStream c.key with
    | none => s.count .cellMiss none
    | some (_, e) => s.reach e c

/-! ### Outbound cells (R28, R188) -/

/-- The bytes of an outbound cell: kind SPEECH, quality good, rate request 15 (R28, R188). -/
def OutCell.bytes (c : OutCell) : List Byte :=
  leBytes 2 c.tag ++ [BitVec.ofNat 8 ((c.tag / 65536) % 16)] ++ leBytes 2 c.seq.toNat ++
    [BitVec.ofNat 8 (c.rate + 16 * 15), BitVec.ofNat 8 c.payload.length, 0] ++ c.payload

/-- The cell at the head of a link's transmit path has left it (R28); with none the event does not occur (log 2). -/
def State.cellSent (s : State) (link : Nat) : State :=
  match s.link link with
  | _ :: t => s.setLink link t
  | [] => s

/-! ### The commands -/

/-- CELL_ARRIVAL (R38). -/
def execCellArrival (link : Fin 4) (bytes : List Byte) (s : State) : Host.Outcome State Fault Refusal :=
  runs s (s.intake link.val bytes)

/-- OUTBOUND_CELL_SENT (R28). -/
def execOutboundCellSent (link : Fin 4) (s : State) : Host.Outcome State Fault Refusal :=
  runs s (s.cellSent link.val)

end Sys2Proof.Machine
end

