-- ==== Sys2Proof/Machine/Contexts.lean ====
section
/-! DEFINITION. The orders of chapter 1: OPEN, RETIRE, QUERY, ARM, HOLD, RESUME, SET_PRIORITY. -/

namespace Sys2Proof.Machine

/-! ### OPEN (R8) -/

/-- The priority an OPEN body asks for: 0..3, or FFh for the default 2. -/
def openPriority (b : Byte) : Option Nat :=
  if b.toNat ≤ 3 then some b.toNat else if b = 0xFF then some 2 else none

/-- OPEN with a priority in range (R8). -/
def openAt (p : Port) (priority : Nat) (s : State) : Taken :=
  if s.lowestFree < Config.contexts then
    ⟨.ok, .handle (s.handleOf s.lowestFree), s.modCtx s.lowestFree fun c => c.opening p (s.silent p) priority⟩
  else refuse .noContext s

/-- OPEN, code 10h (R8). -/
def openOrder (p : Port) (body : List Byte) (s : State) : Taken :=
  match body with
  | [b] =>
    match openPriority b with
    | some n => openAt p n s
    | none => refuse .badField s
  | _ => refuse .badLength s

/-! ### RETIRE (R19) -/

/-- RETIRE of a context (R19): the event belongs to the handle before the generation advances. -/
def retireContext (i : Nat) (s : State) : Taken :=
  ⟨.ok, .state (s.ctx i).state, (s.countFor .retire i).enterFree i⟩

/-- RETIRE, code 11h (R19). -/
def retireOrder (p : Port) (body : List Byte) (s : State) : Taken :=
  match body with
  | [i0, i1, g] => ownerChecked p i0 i1 g true s fun i => retireContext i s
  | _ => refuse .badLength s

/-! ### QUERY (R9) -/

/-- What QUERY reports of the record at index `i` (R9). -/
def State.report (s : State) (i : Nat) : QueryReport where
  handle := s.handleOf i
  state := (s.ctx i).state
  holdCause := (s.ctx i).holdCause
  heldFrom := (s.ctx i).heldFrom
  retireCause := (s.ctx i).retireCause
  owner := (s.ctx i).owner
  orphaned := (s.ctx i).orphaned
  priority := (s.ctx i).priority
  slot := (s.ctx i).slot
  primary := (s.ctx i).primary
  handover := (s.ctx i).handover
  profile := (s.ctx i).profile
  permitted := (s.ctx i).permitted
  rate := (s.ctx i).rate
  request := (s.ctx i).request
  sinceRate := (s.ctx i).sinceRate
  outSeq := (s.ctx i).outSeq
  expected := (s.ctx i).expected
  entries := (s.ctx i).queue.length
  priming := (s.ctx i).priming
  depth := (s.ctx i).depth
  firstDeadline := (s.ctx i).firstDeadline
  firstRemaining := (s.ctx i).firstRemaining
  silenceLimit := (s.ctx i).silenceLimit
  silence := (s.ctx i).silence
  staleRaised := (s.ctx i).staleRaised
  autoRetire := (s.ctx i).autoRetire
  gainLand := (s.ctx i).gainLand
  gainMobile := (s.ctx i).gainMobile
  rounding := (s.ctx i).rounding
  clipReport := (s.ctx i).clipReport
  counters := (s.ctx i).counters
  conds := (s.ctx i).conds

/-- QUERY, code 12h (R9): taken from either port. -/
def queryOrder (body : List Byte) (s : State) : Taken :=
  match body with
  | [i0, i1, g] => named i0 i1 g true s fun i => ⟨.ok, .query (s.report i), s⟩
  | _ => refuse .badLength s

/-! ### ARM (R10) -/

/-- Whether an OPEN context is complete: slot binding, primary stream and profile present (R10). -/
def Ctx.complete (c : Ctx) : Bool := c.slot.isSome && c.primary.isSome && c.profile.isSome

/-- The record after ARM (R10); the kernel's description and history start empty (R90). -/
def Ctx.toArmed (c : Ctx) : Ctx :=
  { c with state := .armed, outSeq := 0, expected := none, queue := [], priming := false,
           firstRemaining := some c.firstDeadline, silence := 0, staleRaised := false, sinceRate := 0,
           noise := none, history := 0 }

/-- ARM of a context (R10). -/
def armContext (i : Nat) (s : State) : Taken :=
  if (s.ctx i).state ≠ .opened then refuse .wrongState s
  else if (s.ctx i).complete = false then refuse .incomplete s
  else if s.fits (s.currentCost i) = false then ⟨.noCapacity, .nothing, s.countFor .admitRefused i⟩
  else ⟨.ok, .rateUnits ((s.ctx i).rate.getD 0) (s.currentCost i),
    (s.reserve (s.currentCost i)).modCtx i Ctx.toArmed⟩

/-- ARM, code 13h (R10). -/
def armOrder (p : Port) (body : List Byte) (s : State) : Taken :=
  match body with
  | [i0, i1, g] => ownerChecked p i0 i1 g true s fun i => armContext i s
  | _ => refuse .badLength s

/-! ### HOLD (R13) -/

/-- The held-from state of a held context, as a response reports it. -/
def Ctx.heldFromState (c : Ctx) : CtxState := (c.heldFrom.getD .active).state

/-- HOLD of a context (R13). -/
def holdContext (i : Nat) (s : State) : Taken :=
  match (s.ctx i).state with
  | .armed => ⟨.ok, .state .armed, s.enterHeld i .order⟩
  | .active => ⟨.ok, .state .active, s.enterHeld i .order⟩
  | .held =>
    if (s.ctx i).holdCause = some .order then ⟨.ok, .state (s.ctx i).heldFromState, s⟩
    else ⟨.ok, .state (s.ctx i).heldFromState, s.modCtx i fun c => { c with holdCause := some .order }⟩
  | .opened => refuse .wrongState s
  | .closed => refuse .wrongState s
  | .free => refuse .wrongState s

/-- HOLD, code 14h (R13). -/
def holdOrder (p : Port) (body : List Byte) (s : State) : Taken :=
  match body with
  | [i0, i1, g] => ownerChecked p i0 i1 g true s fun i => holdContext i s
  | _ => refuse .badLength s

/-! ### RESUME (R15) -/

/-- RESUME of a context (R15). -/
def resumeContext (i : Nat) (s : State) : Taken :=
  if (s.ctx i).state ≠ .held then refuse .wrongState s
  else if s.fits (s.currentCost i) = false then ⟨.noCapacity, .nothing, s.countFor .admitRefused i⟩
  else ⟨.ok, .stateUnits (s.ctx i).heldFromState (s.currentCost i), s.leaveHeld i⟩

/-- RESUME, code 15h (R15). -/
def resumeOrder (p : Port) (body : List Byte) (s : State) : Taken :=
  match body with
  | [i0, i1, g] => ownerChecked p i0 i1 g true s fun i => resumeContext i s
  | _ => refuse .badLength s

/-! ### SET_PRIORITY (R16) -/

/-- SET_PRIORITY of a context (R16). -/
def prioritize (i priority : Nat) (s : State) : Taken :=
  if (s.ctx i).state = .closed then refuse .wrongState s
  else ⟨.ok, .priority (s.ctx i).priority, s.modCtx i fun c => { c with priority := priority }⟩

/-- SET_PRIORITY, code 16h (R16). -/
def setPriorityOrder (p : Port) (body : List Byte) (s : State) : Taken :=
  match body with
  | [i0, i1, g, n] => ownerChecked p i0 i1 g (decide (n.toNat ≤ 3)) s fun i => prioritize i n.toNat s
  | _ => refuse .badLength s

/-! ### The commands -/

/-- OPEN (R8). -/
def execOpen (p : Port) (tag : Byte) (body : List Byte) (s : State) : Host.Outcome State Fault Refusal :=
  runs s (orderFrame p .openContext tag body (openOrder p body) s)

/-- RETIRE (R19). -/
def execRetire (p : Port) (tag : Byte) (body : List Byte) (s : State) : Host.Outcome State Fault Refusal :=
  runs s (orderFrame p .retire tag body (retireOrder p body) s)

/-- QUERY (R9). -/
def execQuery (p : Port) (tag : Byte) (body : List Byte) (s : State) : Host.Outcome State Fault Refusal :=
  runs s (orderFrame p .query tag body (queryOrder body) s)

/-- ARM (R10). -/
def execArm (p : Port) (tag : Byte) (body : List Byte) (s : State) : Host.Outcome State Fault Refusal :=
  runs s (orderFrame p .arm tag body (armOrder p body) s)

/-- HOLD (R13). -/
def execHold (p : Port) (tag : Byte) (body : List Byte) (s : State) : Host.Outcome State Fault Refusal :=
  runs s (orderFrame p .hold tag body (holdOrder p body) s)

/-- RESUME (R15). -/
def execResume (p : Port) (tag : Byte) (body : List Byte) (s : State) : Host.Outcome State Fault Refusal :=
  runs s (orderFrame p .resume tag body (resumeOrder p body) s)

/-- SET_PRIORITY (R16). -/
def execSetPriority (p : Port) (tag : Byte) (body : List Byte) (s : State) : Host.Outcome State Fault Refusal :=
  runs s (orderFrame p .setPriority tag body (setPriorityOrder p body) s)

end Sys2Proof.Machine
end

