-- ==== Sys2Proof/Machine/Lanes.lean ====
section
/-! DEFINITION. Work budget, lanes and faults, chapter 4: the shedding and readmission passes, LANE_SERVICE, the lane
events, the fault capture record, FAULT_READ. -/

namespace Sys2Proof.Machine

/-! ### The shedding pass (R65 to R67) -/

/-- The listed indices, rising, of the contexts that meet `p`. -/
def State.indicesWhere (s : State) (p : Ctx → Bool) : List Nat := s.ctxs.keys.filter fun i => p (s.ctx i)

/-- The converting contexts of one priority. -/
def Ctx.convertingAt (n : Nat) (c : Ctx) : Bool := c.converting && c.priority = n

/-- The shedding order (R65): priority 3 first, within one priority by descending index. -/
def State.sheddingOrder (s : State) : List Nat :=
  [3, 2, 1, 0].flatMap fun n => (s.indicesWhere (Ctx.convertingAt n)).reverse

/-- The lowest index of a context's permitted set, where its current rate lies above it (R66). -/
def Ctx.reducible (c : Ctx) : Option Nat :=
  match c.permitted, c.rate with
  | some set, some r => if set.lowest < r then some set.lowest else none
  | _, _ => none

/-- A context lowered by step one to its lowest permitted index `r` (R66). -/
def State.lower (s : State) (i r : Nat) : State :=
  (((s.retunePaid i r).dropRequest i).raiseIf (fromOrder (s.ctx i).request) i .rateRefused).raise i .rateChanged

/-- A walk of the shedding order: what it counted, and the state it left. -/
structure Walk where
  count : Nat
  after : State

/-- Whether reserved exceeds available (R65). -/
def State.overCommitted (s : State) : Bool := s.available < s.reserved

/-- Step one at one context: nothing once reserved fits, or where the rate is already the lowest (R66). -/
def shedOne (w : Walk) (i : Nat) : Walk :=
  if w.after.overCommitted then
    match (w.after.ctx i).reducible with
    | some r => ⟨w.count + 1, w.after.lower i r⟩
    | none => w
  else w

/-- A context held by step two (R67). -/
def State.shed (s : State) (i : Nat) : State := ((s.countFor .shed i).enterHeld i .shed).raise i .shed

/-- Step two at one context: nothing once reserved fits (R67). -/
def shedTwo (w : Walk) (i : Nat) : Walk :=
  if w.after.overCommitted then ⟨w.count + 1, w.after.shed i⟩ else w

/-- What a shedding pass changed: contexts lowered, contexts held, the state after it. -/
structure Pass where
  lowered : Nat
  held : Nat
  after : State

/-- The shedding pass (R65); it does nothing where reserved fits available. Both steps walk the order as it stands
when the pass is taken. -/
def sheddingPass (s : State) : Pass :=
  ⟨(s.sheddingOrder.foldl shedOne ⟨0, s⟩).count,
    (s.sheddingOrder.foldl shedTwo ⟨0, (s.sheddingOrder.foldl shedOne ⟨0, s⟩).after⟩).count,
    (s.sheddingOrder.foldl shedTwo ⟨0, (s.sheddingOrder.foldl shedOne ⟨0, s⟩).after⟩).after⟩

/-! ### The readmission pass (R69) -/

/-- A context held with cause SHED, of one priority. -/
def Ctx.shedAt (n : Nat) (c : Ctx) : Bool := c.state = .held && c.holdCause = some .shed && c.priority = n

/-- The readmission order (R69): priority 0 first, within one priority by ascending index. -/
def State.readmissionOrder (s : State) : List Nat := [0, 1, 2, 3].flatMap fun n => s.indicesWhere (Ctx.shedAt n)

/-- One context considered: returned where its cost fits, else skipped (R69). -/
def readmitOne (w : Walk) (i : Nat) : Walk :=
  if w.after.fits (w.after.currentCost i) then ⟨w.count + 1, (w.after.leaveHeld i).raise i .readmitted⟩ else w

/-- The readmission pass (R69). -/
def readmissionPass (s : State) : Walk := s.readmissionOrder.foldl readmitOne ⟨0, s⟩

/-! ### LANE_SERVICE (R62 to R64) -/

/-- A lane's service state replaced. -/
def State.setLaneState (s : State) (n : Nat) (v : LaneState) : State := s.setLane n { s.lane n with state := v }

/-- The response of a LANE_SERVICE on lane `n` (R62). -/
def laneReply (n : Nat) (before : LaneState) (lowered held readmitted : Nat) (t : State) : Taken :=
  ⟨.ok, .laneService n before (t.lane n).state t.available t.reserved lowered held readmitted, t⟩

/-- The available units without one lane's, none below that many. It is the difference of two naturals, written as a
test so that no reduction counts the units down one by one. -/
def lessLane (available : Nat) : Nat :=
  if Config.laneUnits ≤ available then available - Config.laneUnits else 0

/-- An IN_SERVICE lane leaves service as `v`: available falls, LANE_OUT is raised at both ports (R63, R72). -/
def State.loseLane (s : State) (n : Nat) (v : LaneState) : State :=
  ((s.setLaneState n v).setAvailable (lessLane s.available)).raiseBoth .laneOut

/-- LANE_SERVICE out (R62, R63). -/
def laneOut (n : Nat) (s : State) : Taken :=
  match (s.lane n).state with
  | .inService =>
    laneReply n .inService (sheddingPass (s.loseLane n .outOrder)).lowered (sheddingPass (s.loseLane n .outOrder)).held
      0 (sheddingPass (s.loseLane n .outOrder)).after
  | .outOrder => laneReply n .outOrder 0 0 0 s
  | .outFault => laneReply n .outFault 0 0 0 (s.setLaneState n .outOrder)

/-- A lane returns to service: available rises, LANE_BACK is raised at both ports (R64). -/
def State.regainLane (s : State) (n : Nat) : State :=
  ((s.setLaneState n .inService).setAvailable (s.available + Config.laneUnits)).raiseBoth .laneBack

/-- LANE_SERVICE in (R62, R64). -/
def laneIn (n : Nat) (s : State) : Taken :=
  match (s.lane n).state with
  | .inService => laneReply n .inService 0 0 0 s
  | .outOrder =>
    laneReply n .outOrder 0 0 (readmissionPass (s.regainLane n)).count (readmissionPass (s.regainLane n)).after
  | .outFault =>
    laneReply n .outFault 0 0 (readmissionPass (s.regainLane n)).count (readmissionPass (s.regainLane n)).after

/-- LANE_SERVICE, code 58h (R62): direction 0 out, 1 in. -/
def laneServiceOrder (body : List Byte) (s : State) : Taken :=
  match body with
  | [n, d] =>
    if 7 < n.toNat then refuse .badField s
    else if d = 0 then laneOut n.toNat s
    else if d = 1 then laneIn n.toNat s
    else refuse .badField s
  | _ => refuse .badLength s

/-! ### Lanes and works (R61) -/

/-- Whether the work of context `i` waits for a lane in the current period (R61): present, in hand at no lane, and
started at a boundary whose claim is the context's last. -/
def State.workWaits (s : State) (i : Nat) : Bool :=
  (s.ctx i).work.isSome && !s.inHand i && !s.claimDue i

/-- A free IN_SERVICE lane takes the waiting work of context `i` (R61); otherwise the event does not occur (log 2). -/
def State.takeWork (s : State) (n i : Nat) : State :=
  if (s.lane n).state = .inService ∧ (s.lane n).inHand = none ∧ s.workWaits i = true then
    s.setLane n { s.lane n with inHand := some i }
  else s

/-! ### Faults (R71 to R75) -/

/-- The handle of the context whose work a lane has in hand. -/
def State.handAt (s : State) (n : Nat) : Option Handle := (s.lane n).inHand.map s.handleOf

/-- A fault updates the capture record (R75): it fills an invalid record and raises FAULT_CAPTURED at both ports; with
a valid record it sets further. -/
def State.captureFault (s : State) (kind : FaultKind) (n : Nat) : State :=
  match s.capture.record with
  | some r => s.setCapture ⟨some r, true⟩
  | none => (s.setCapture ⟨some ⟨kind, n, s.handAt n, s.timer.period⟩, false⟩).raiseBoth .faultCaptured

/-- The work a lane has in hand is discarded, with no change to its context's state (R72). -/
def State.dropHand (s : State) (n : Nat) : State :=
  match (s.lane n).inHand with
  | some i => s.discardWork i
  | none => s

/-- A LANE_CHECK at lane `n` (R72): at an IN_SERVICE lane, or at an OUT_ORDER lane with a work in hand (R71). -/
def State.laneFault (s : State) (n : Nat) : State :=
  match (s.lane n).state, (s.lane n).inHand with
  | .inService, _ => (sheddingPass (((s.captureFault .laneCheck n).dropHand n).loseLane n .outFault)).after
  | .outOrder, some _ => ((s.captureFault .laneCheck n).dropHand n).setLaneState n .outFault
  | .outOrder, none => s
  | .outFault, _ => s

/-- A CONTEXT_CHECK at lane `n` about the converting context whose work it has in hand (R73). -/
def State.contextFault (s : State) (n : Nat) : State :=
  match (s.lane n).inHand with
  | some i =>
    if (s.ctx i).converting then (((s.captureFault .contextCheck n).enterHeld i .fault).raise i .faulted) else s
  | none => s

/-- A QUEUE_CHECK at lane `n` about the ACTIVE context whose work it has in hand (R74). -/
def State.queueFault (s : State) (n : Nat) : State :=
  match (s.lane n).inHand with
  | some i =>
    if (s.ctx i).state = .active then
      (((s.captureFault .queueCheck n).modCtx i fun c =>
        { c with queue := [], expected := none, priming := true }).raise i .faulted)
    else s
  | none => s

/-! ### FAULT_READ (R76) -/

/-- The states of the eight lanes. -/
def State.laneStates (s : State) : List LaneState := (List.range Config.lanes).map fun n => (s.lane n).state

/-- FAULT_READ, code 59h (R76). -/
def faultReadOrder (body : List Byte) (s : State) : Taken :=
  match body with
  | [] => ⟨.ok, .faults s.capture s.laneStates, s.setCapture ⟨none, false⟩⟩
  | _ => refuse .badLength s

/-! ### The commands -/

/-- LANE_SERVICE with direction out (R63). -/
def execLaneServiceOut (p : Port) (tag lane : Byte) (s : State) : Host.Outcome State Fault Refusal :=
  runs s (orderFrame p .laneService tag [lane, 0] (laneServiceOrder [lane, 0]) s)

/-- LANE_SERVICE with direction in (R64). -/
def execLaneServiceIn (p : Port) (tag lane : Byte) (s : State) : Host.Outcome State Fault Refusal :=
  runs s (orderFrame p .laneService tag [lane, 1] (laneServiceOrder [lane, 1]) s)

/-- FAULT_READ (R76). -/
def execFaultRead (p : Port) (tag : Byte) (body : List Byte) (s : State) : Host.Outcome State Fault Refusal :=
  runs s (orderFrame p .faultRead tag body (faultReadOrder body) s)

/-- A lane takes a waiting work (R61). -/
def execLaneTakesWork (lane : Fin 8) (i : Fin 2048) (s : State) : Host.Outcome State Fault Refusal :=
  runs s (s.takeWork lane.val i.val)

/-- LANE_CHECK (R72). -/
def execLaneCheck (lane : Fin 8) (s : State) : Host.Outcome State Fault Refusal := runs s (s.laneFault lane.val)

/-- CONTEXT_CHECK (R73). -/
def execContextCheck (lane : Fin 8) (s : State) : Host.Outcome State Fault Refusal := runs s (s.contextFault lane.val)

/-- QUEUE_CHECK (R74). -/
def execQueueCheck (lane : Fin 8) (s : State) : Host.Outcome State Fault Refusal := runs s (s.queueFault lane.val)

end Sys2Proof.Machine
end

