-- ==== Sys2Proof/Machine/Notices.lean ====
section
/-! DEFINITION. NOTICES, ADOPT, KEEPALIVE and SUPERVISE_SET, chapter 10. -/

namespace Sys2Proof.Machine

/-! ### NOTICES (R169) -/

/-- The entry NOTICES gives for the context at index `i` (R169). -/
def State.notice (s : State) (i : Nat) : NoticeEntry :=
  ⟨s.handleOf i, (s.ctx i).conds, (s.ctx i).state, (s.ctx i).holdCause, (s.ctx i).retireCause, (s.ctx i).rate⟩

/-- A delivered context: its pending set is emptied, and a CLOSED one becomes FREE (R169, R21). -/
def State.deliver (s : State) (i : Nat) : State :=
  if (s.ctx i).state = .closed then s.enterFree i else s.modCtx i fun c => { c with conds := 0 }

/-- The contexts a NOTICES delivers: up to 8 from the head of the queue (R169). -/
def State.delivered (s : State) (p : Port) : List Nat := (s.queueOf p).take 8

/-- The port's condition set emptied and the delivered indices taken off its queue (R169). -/
def State.takeNotices (s : State) (p : Port) : State :=
  (s.setPort p { s.port p with conds := 0 }).setQueue p ((s.queueOf p).drop 8)

/-- NOTICES, code 03h (R169). -/
def noticesOrder (p : Port) (body : List Byte) (s : State) : Taken :=
  match body with
  | [] =>
    ⟨.ok, .notices (s.port p).conds ((s.delivered p).map s.notice) ((s.queueOf p).drop 8).length,
      (s.delivered p).foldl State.deliver (s.takeNotices p)⟩
  | _ => refuse .badLength s

/-! ### ADOPT (R174) -/

/-- The index of an adopted context moves to the tail of the adopter's queue, where its set is not empty (R174). -/
def State.moveQueued (s : State) (p : Port) (i : Nat) : State :=
  if (s.ctx i).conds = 0 then s
  else (s.unqueue (s.ctx i).owner i).setQueue p ((s.queueOf p).filter (· ≠ i) ++ [i])

/-- ADOPT of a context by port `p`, by its owner as it stands (R174). -/
def adoptContext (p : Port) (i : Nat) (s : State) : Taken :=
  if (s.ctx i).owner = p then ⟨.ok, .adopted p (s.ctx i).state (s.ctx i).conds false, s⟩
  else if s.silent p.other then
    ⟨.ok, .adopted p.other (s.ctx i).state (s.ctx i).conds (decide ((s.ctx i).conds ≠ 0)),
      (s.moveQueued p i).modCtx i fun c => { c with owner := p, orphaned := s.silent p }⟩
  else refuse .notOwner s

/-- ADOPT, code 06h (R174): its own ownership rule stands in place of step 5. -/
def adoptOrder (p : Port) (body : List Byte) (s : State) : Taken :=
  match body with
  | [i0, i1, g] => named i0 i1 g true s fun i => adoptContext p i s
  | _ => refuse .badLength s

/-! ### KEEPALIVE (R176) -/

/-- What KEEPALIVE reports (R176); the identity 2048h and the revision 0002h stand in its byte image. -/
def State.keepaliveReply (s : State) : RespBody :=
  .keepalive s.timer.period (s.port .a).sup.state (s.port .a).sup.count (s.port .b).sup.state (s.port .b).sup.count
    s.lanesInService s.available s.reserved s.freeContexts

/-- KEEPALIVE, code 01h (R176). -/
def keepaliveOrder (body : List Byte) (s : State) : Taken :=
  match body with
  | [] => ⟨.ok, s.keepaliveReply, s⟩
  | _ => refuse .badLength s

/-! ### SUPERVISE_SET (R173) -/

/-- The settings a SUPERVISE_SET body asks for, where every field is in range (R173). -/
def settingsOf (e st i0 i1 l0 l1 : Byte) : Option SupSettings :=
  match flagOf e, flagOf st with
  | some a, some b => if 10 ≤ le16 i0 i1 ∧ 10 ≤ le16 l0 l1 then some ⟨a, b, le16 i0 i1, le16 l0 l1⟩ else none
  | _, _ => none

/-- SUPERVISE_SET, code 02h (R173). -/
def superviseSetOrder (p : Port) (body : List Byte) (s : State) : Taken :=
  match body with
  | [e, st, i0, i1, l0, l1] =>
    match settingsOf e st i0 i1 l0 l1 with
    | some v =>
      ⟨.ok, .supervision (s.port p).sup.settings (s.port p).sup.state (s.port p).sup.count,
        s.setSup p { (s.port p).sup with settings := v }⟩
    | none => refuse .badField s
  | _ => refuse .badLength s

/-! ### The commands -/

/-- NOTICES (R169). -/
def execNotices (p : Port) (tag : Byte) (body : List Byte) (s : State) : Host.Outcome State Fault Refusal :=
  runs s (orderFrame p .notices tag body (noticesOrder p body) s)

/-- ADOPT (R174). -/
def execAdopt (p : Port) (tag : Byte) (body : List Byte) (s : State) : Host.Outcome State Fault Refusal :=
  runs s (orderFrame p .adopt tag body (adoptOrder p body) s)

/-- KEEPALIVE (R176). -/
def execKeepalive (p : Port) (tag : Byte) (body : List Byte) (s : State) : Host.Outcome State Fault Refusal :=
  runs s (orderFrame p .keepalive tag body (keepaliveOrder body) s)

/-- SUPERVISE_SET (R173). -/
def execSuperviseSet (p : Port) (tag : Byte) (body : List Byte) (s : State) : Host.Outcome State Fault Refusal :=
  runs s (orderFrame p .superviseSet tag body (superviseSetOrder p body) s)

end Sys2Proof.Machine
end

