-- ==== Sys2Proof/Machine/Profiles.lean ====
section
/-! DEFINITION. The profile orders of chapter 3: PROFILE_LOAD, PROFILE_CLEAR, PROFILE_READ, SET_PROFILE. -/

namespace Sys2Proof.Machine

/-! ### PROFILE_LOAD (R50) -/

/-- The entries of a PROFILE_LOAD body: three bytes each, payload bytes and cost (R187). -/
def rateEntriesOf : List Byte → List RateEntry
  | b :: c0 :: c1 :: t => ⟨b.toNat, le16 c0 c1⟩ :: rateEntriesOf t
  | _ => []

/-- Costs strictly ascending (R46). -/
def ascendingCosts : List RateEntry → Bool
  | a :: b :: t => decide (a.cost < b.cost) && ascendingCosts (b :: t)
  | _ => true

/-- The range checks of PROFILE_LOAD on its table (R50). -/
def tableOk (table : List RateEntry) : Bool :=
  decide (1 ≤ table.length) && decide (table.length ≤ 8) &&
    table.all (fun e => decide (5 ≤ e.bytes ∧ e.bytes ≤ 80 ∧ 1 ≤ e.cost ∧ e.cost ≤ 4000)) && ascendingCosts table

/-- The profile a PROFILE_LOAD body describes, where every field is in range (R50). -/
def profileOfFields (family stamp0 stamp1 default hold : Byte) (table : List RateEntry) : Option Profile :=
  match familyOf family with
  | some f =>
    if tableOk table ∧ default.toNat < table.length ∧ hold.toNat ≤ 50 ∧ (f = .narrowSingle → table.length = 1) then
      some ⟨f, table, default.toNat, hold.toNat, stamp1 ++ stamp0⟩
    else none
  | none => none

/-- PROFILE_LOAD of a profile in range into slot `n` (R50). -/
def loadProfile (n : Nat) (c : Profile) (s : State) : Taken :=
  match (s.profile n).state with
  | .loaded _ => refuse .wrongState s
  | .fixed _ => refuse .profileFixed s
  | .vacant => ⟨.ok, .profileLoaded n c.stamp, s.setProfile n { s.profile n with state := .loaded c }⟩

/-- PROFILE_LOAD, code 30h (R50): the body is 7 + 3 n bytes for entry count n (R187). -/
def profileLoadOrder (body : List Byte) (s : State) : Taken :=
  match body with
  | n :: f :: s0 :: s1 :: d :: h :: k :: rest =>
    if rest.length ≠ 3 * k.toNat then refuse .badLength s
    else if 15 < n.toNat then refuse .badField s
    else match profileOfFields f s0 s1 d h (rateEntriesOf rest) with
      | some c => loadProfile n.toNat c s
      | none => refuse .badField s
  | _ => refuse .badLength s

/-! ### PROFILE_CLEAR (R51) -/

/-- PROFILE_CLEAR of slot `n` (R51). -/
def clearProfile (n : Nat) (s : State) : Taken :=
  match (s.profile n).state with
  | .fixed _ => refuse .profileFixed s
  | .vacant => ⟨.ok, .profileVacant n, s⟩
  | .loaded c =>
    if 0 < (s.profile n).refs then ⟨.profileInUse, .profileRefs (s.profile n).refs, s⟩
    else ⟨.ok, .profileCleared c.stamp, s.setProfile n { s.profile n with state := .vacant }⟩

/-- PROFILE_CLEAR, code 31h (R51). -/
def profileClearOrder (body : List Byte) (s : State) : Taken :=
  match body with
  | [n] => if 15 < n.toNat then refuse .badField s else clearProfile n.toNat s
  | _ => refuse .badLength s

/-! ### PROFILE_READ (R52) -/

/-- PROFILE_READ, code 32h (R52). -/
def profileReadOrder (body : List Byte) (s : State) : Taken :=
  match body with
  | [n] => if 15 < n.toNat then refuse .badField s else ⟨.ok, .profile (s.profile n.toNat), s⟩
  | _ => refuse .badLength s

/-! ### SET_PROFILE (R53) -/

/-- The current rate SET_PROFILE derives: the default index where the set holds it, else the highest index in it. -/
def derivedRate (c : Profile) (set : RateSet) : Nat := if set.has c.defaultIndex then c.defaultIndex else set.highest

/-- The field checks of SET_PROFILE (R53): slot in range, a non-empty set within the slot's table if it has one. -/
def setProfileFields (n : Nat) (set : RateSet) (s : State) : Bool :=
  decide (n ≤ 15) && decide (set ≠ 0) &&
    (match s.contents n with
      | some c => set.within c.table.length
      | none => true)

/-- The references of a context's earlier profile and of slot `n` moved (R49). -/
def moveRef (old : Option Nat) (n : Nat) (s : State) : State := (s.dropRef old).modRefs n (· + 1)

/-- SET_PROFILE of a context (R53). -/
def setProfileOf (i n : Nat) (set : RateSet) (s : State) : Taken :=
  if (s.ctx i).state ≠ .opened then refuse .wrongState s
  else match s.contents n with
    | none => refuse .profileEmpty s
    | some c =>
      ⟨.ok, .profileSet n c.stamp (derivedRate c set) (((c.table[derivedRate c set]?).map RateEntry.bytes).getD 0)
          (((c.table[derivedRate c set]?).map RateEntry.cost).getD 0) (s.ctx i).profile,
        (moveRef (s.ctx i).profile n s).modCtx i fun x =>
          { x with profile := some n, permitted := some set, rate := some (derivedRate c set), sinceRate := 0 }⟩

/-- SET_PROFILE, code 33h (R53). -/
def setProfileOrder (p : Port) (body : List Byte) (s : State) : Taken :=
  match body with
  | [i0, i1, g, n, set] =>
    ownerChecked p i0 i1 g (setProfileFields n.toNat set s) s fun i => setProfileOf i n.toNat set s
  | _ => refuse .badLength s

/-! ### The commands -/

/-- PROFILE_LOAD (R50). -/
def execProfileLoad (p : Port) (tag : Byte) (body : List Byte) (s : State) : Host.Outcome State Fault Refusal :=
  runs s (orderFrame p .profileLoad tag body (profileLoadOrder body) s)

/-- PROFILE_CLEAR (R51). -/
def execProfileClear (p : Port) (tag : Byte) (body : List Byte) (s : State) : Host.Outcome State Fault Refusal :=
  runs s (orderFrame p .profileClear tag body (profileClearOrder body) s)

/-- PROFILE_READ (R52). -/
def execProfileRead (p : Port) (tag : Byte) (body : List Byte) (s : State) : Host.Outcome State Fault Refusal :=
  runs s (orderFrame p .profileRead tag body (profileReadOrder body) s)

/-- SET_PROFILE (R53). -/
def execSetProfile (p : Port) (tag : Byte) (body : List Byte) (s : State) : Host.Outcome State Fault Refusal :=
  runs s (orderFrame p .setProfile tag body (setProfileOrder p body) s)

end Sys2Proof.Machine
end

