-- ==== Sys2Proof/Machine/Settings.lean ====
section
/-! DEFINITION. The orders that write a context's settings and the device default: SET_SUPERVISION, SET_LEVEL,
LEVEL_DEFAULTS, SET_PLAYOUT. -/

namespace Sys2Proof.Machine

/-! ### SET_SUPERVISION (R140) -/

/-- SET_SUPERVISION of a context (R140). -/
def setSupervisionOf (i deadline limit : Nat) (auto : Bool) (s : State) : Taken :=
  if (s.ctx i).state = .closed then refuse .wrongState s
  else ⟨.ok, .supervisionSet (s.ctx i).firstDeadline (s.ctx i).silenceLimit (s.ctx i).autoRetire
      (s.ctx i).firstRemaining (s.ctx i).silence,
    s.modCtx i fun c => { c with firstDeadline := deadline, silenceLimit := limit, autoRetire := auto }⟩

/-- The range checks of SET_SUPERVISION (R140). -/
def supervisionFields (deadline limit : Nat) (flag : Byte) : Bool :=
  decide (1 ≤ deadline ∧ deadline ≤ 3000 ∧ 5 ≤ limit ∧ limit ≤ 3000) && (flagOf flag).isSome

/-- SET_SUPERVISION, code 48h (R140). -/
def setSupervisionOrder (p : Port) (body : List Byte) (s : State) : Taken :=
  match body with
  | [i0, i1, g, d0, d1, l0, l1, a] =>
    ownerChecked p i0 i1 g (supervisionFields (le16 d0 d1) (le16 l0 l1) a) s fun i =>
      setSupervisionOf i (le16 d0 d1) (le16 l0 l1) ((flagOf a).getD false) s
  | _ => refuse .badLength s

/-! ### SET_LEVEL (R94) -/

/-- The level fields of a context. -/
def Ctx.levels (c : Ctx) : Levels := ⟨c.gainLand, c.gainMobile, c.rounding, c.clipReport⟩

/-- The levels a SET_LEVEL body asks for, where every field is in range (R94). -/
def levelsOf (gl gm r f : Byte) : Option Levels :=
  match gainOf gl, gainOf gm, roundingOf r, flagOf f with
  | some a, some b, some m, some x => some ⟨a, b, m, x⟩
  | _, _, _, _ => none

/-- SET_LEVEL of a context (R94). -/
def setLevelOf (i : Nat) (v : Levels) (s : State) : Taken :=
  if (s.ctx i).state = .closed then refuse .wrongState s
  else ⟨.ok, .levels (s.ctx i).levels, s.modCtx i fun c =>
    { c with gainLand := v.gainLand, gainMobile := v.gainMobile, rounding := v.rounding, clipReport := v.clipReport }⟩

/-- SET_LEVEL, code 50h (R94). -/
def setLevelOrder (p : Port) (body : List Byte) (s : State) : Taken :=
  match body with
  | [i0, i1, g, gl, gm, r, f] =>
    ownerChecked p i0 i1 g (levelsOf gl gm r f).isSome s fun i =>
      setLevelOf i ((levelsOf gl gm r f).getD ⟨0, 0, .deviceDefault, false⟩) s
  | _ => refuse .badLength s

/-! ### LEVEL_DEFAULTS (R95) -/

/-- LEVEL_DEFAULTS, code 51h (R95). -/
def levelDefaultsOrder (body : List Byte) (s : State) : Taken :=
  match body with
  | [b] =>
    match roundModeOf b with
    | some m => ⟨.ok, .rounding s.defaultRound m, { s with defaultRound := m }⟩
    | none => refuse .badField s
  | _ => refuse .badLength s

/-! ### SET_PLAYOUT (R102) -/

/-- SET_PLAYOUT of a context (R102). -/
def setPlayoutOf (i target : Nat) (s : State) : Taken :=
  if (s.ctx i).state = .closed then refuse .wrongState s
  else ⟨.ok, .depth (s.ctx i).depth, s.modCtx i fun c => { c with depth := target }⟩

/-- SET_PLAYOUT, code 52h (R102). -/
def setPlayoutOrder (p : Port) (body : List Byte) (s : State) : Taken :=
  match body with
  | [i0, i1, g, d] =>
    ownerChecked p i0 i1 g (decide (1 ≤ d.toNat ∧ d.toNat ≤ 4)) s fun i => setPlayoutOf i d.toNat s
  | _ => refuse .badLength s

/-! ### The commands -/

/-- SET_SUPERVISION (R140). -/
def execSetSupervision (p : Port) (tag : Byte) (body : List Byte) (s : State) : Host.Outcome State Fault Refusal :=
  runs s (orderFrame p .setSupervision tag body (setSupervisionOrder p body) s)

/-- SET_LEVEL (R94). -/
def execSetLevel (p : Port) (tag : Byte) (body : List Byte) (s : State) : Host.Outcome State Fault Refusal :=
  runs s (orderFrame p .setLevel tag body (setLevelOrder p body) s)

/-- LEVEL_DEFAULTS (R95). -/
def execLevelDefaults (p : Port) (tag : Byte) (body : List Byte) (s : State) : Host.Outcome State Fault Refusal :=
  runs s (orderFrame p .levelDefaults tag body (levelDefaultsOrder body) s)

/-- SET_PLAYOUT (R102). -/
def execSetPlayout (p : Port) (tag : Byte) (body : List Byte) (s : State) : Host.Outcome State Fault Refusal :=
  runs s (orderFrame p .setPlayout tag body (setPlayoutOrder p body) s)

end Sys2Proof.Machine
end

