-- ==== Sys2Proof/Machine/Sweeps.lean ====
section
/-! DEFINITION. Sweeps, chapter 9: the sweep orders and the visits. -/

namespace Sys2Proof.Machine

/-! ### The body of SWEEP (R150, R151, R187) -/

/-- A criterion byte: absent where its presence bit is clear, else its value where at most `top`. The outer absence is
a value out of range. -/
def criterion (presence : Byte) (bit : Nat) (v : Byte) (top : Nat) : Option (Option Nat) :=
  if presence.getLsbD bit then (if v.toNat ≤ top then some (some v.toNat) else none) else some none

/-- The state set criterion: a set of state codes 0..5, not empty (R151, R187). -/
def stateCriterion (presence v : Byte) : Option (Option (BitVec 6)) :=
  if presence.getLsbD 0 then
    (if v = 0 ∨ 64 ≤ v.toNat then none else some (some (BitVec.ofNat 6 v.toNat)))
  else some none

/-- The selector of a SWEEP body, where every field is in range. -/
def selectorOf (presence states link highway profile priority : Byte) : Option Selector :=
  if 32 ≤ presence.toNat then none
  else match stateCriterion presence states, criterion presence 1 link 3, criterion presence 2 highway 63,
      criterion presence 3 profile 15, criterion presence 4 priority 3 with
    | some a, some b, some c, some d, some e => some ⟨a, b, c, d, e⟩
    | _, _, _, _, _ => none

/-- The action of a SWEEP body, where its code and parameter are in range. -/
def actionOf (code parameter : Byte) : Option SweepAction :=
  match code.toNat with
  | 0 => some .retire
  | 1 => some .hold
  | 2 => some .resume
  | 3 => if parameter.toNat ≤ 3 then some (.relink parameter.toNat) else none
  | 4 => some .rerateLow
  | 5 => if parameter.toNat ≤ 3 then some (.setPriority parameter.toNat) else none
  | 6 => some .adopt
  | _ => none

/-- The stop rule of a code. -/
def stopRuleOf (b : Byte) : Option StopRule :=
  if b = 0 then some .never else if b = 1 then some .onRefusal else if b = 2 then some .onFirstAction else none

/-- The record an accepted SWEEP writes (R150). -/
def sweepRecord (a : SweepAction) (sel : Selector) (r : StopRule) (start count : Nat) : Sweep :=
  { Sweep.reset with state := .running, action := some a, selector := some sel, stopRule := some r, cursor := start,
                     remaining := count }

/-- The record a SWEEP body asks for, where every field is in range (R150). -/
def sweepOfFields (sel : Option Selector) (a : Option SweepAction) (r : Option StopRule) (start count : Nat) :
    Option Sweep :=
  match sel, a, r with
  | some x, some y, some z =>
    if start ≤ 2047 ∧ 1 ≤ count ∧ count ≤ 2048 then some (sweepRecord y x z start count) else none
  | _, _, _ => none

/-- The record a SWEEP replaces, reported where it is SUSPENDED (R150). -/
def replacedSweep (v : Sweep) : Option Sweep := if v.state = .suspended then some v else none

/-- SWEEP with every field in range (R150). -/
def startSweep (p : Port) (v : Sweep) (s : State) : Taken :=
  if (s.sweepOf p).state = .running then refuse .sweepBusy s
  else ⟨.ok, .sweepStarted v.cursor v.remaining (replacedSweep (s.sweepOf p)), s.setSweep p v⟩

/-- SWEEP, code 60h (R150). -/
def sweepOrder (p : Port) (body : List Byte) (s : State) : Taken :=
  match body with
  | [pr, st, li, hi, pf, py, ac, pa, s0, s1, c0, c1, ru] =>
    match sweepOfFields (selectorOf pr st li hi pf py) (actionOf ac pa) (stopRuleOf ru) (le16 s0 s1) (le16 c0 c1) with
    | some v => startSweep p v s
    | none => refuse .badField s
  | _ => refuse .badLength s

/-! ### SWEEP_ABORT, SWEEP_CONTINUE, SWEEP_STATUS (R157 to R159) -/

/-- SWEEP_ABORT, code 61h (R157). -/
def sweepAbortOrder (p : Port) (body : List Byte) (s : State) : Taken :=
  match body with
  | [] =>
    if (s.sweepOf p).state = .running then
      ⟨.ok, .sweep { s.sweepOf p with state := .suspended, stopReason := .aborted },
        s.setSweep p { s.sweepOf p with state := .suspended, stopReason := .aborted }⟩
    else ⟨.ok, .sweep (s.sweepOf p), s⟩
  | _ => refuse .badLength s

/-- SWEEP_CONTINUE, code 62h (R158). -/
def sweepContinueOrder (p : Port) (body : List Byte) (s : State) : Taken :=
  match body with
  | [] =>
    if (s.sweepOf p).state = .suspended then
      ⟨.ok, .sweep { s.sweepOf p with state := .running, stopReason := .none },
        s.setSweep p { s.sweepOf p with state := .running, stopReason := .none }⟩
    else refuse .wrongState s
  | _ => refuse .badLength s

/-- SWEEP_STATUS, code 63h (R159). -/
def sweepStatusOrder (body : List Byte) (s : State) : Taken :=
  match body with
  | [b] =>
    match portOf b with
    | some q => ⟨.ok, .sweep (s.sweepOf q), s⟩
    | none => refuse .badField s
  | _ => refuse .badLength s

/-! ### Candidates and matches (R151) -/

/-- A criterion is met: every context meets an absent one. -/
def meets (criterion : Option Nat) (field : Option Nat) : Bool :=
  match criterion with
  | none => true
  | some v => field = some v

/-- Whether a context meets every present criterion of a selector (R151). -/
def Selector.selects (sel : Selector) (c : Ctx) : Bool :=
  (match sel.states with
    | none => true
    | some set => set.getLsbD c.state.code) &&
  meets sel.link (c.primary.map StreamKey.link) &&
  meets sel.highway (c.slot.map fun b => b.slot / 32) &&
  meets sel.profile c.profile &&
  meets sel.priority (some c.priority)

/-- Whether a context is a candidate of port `p`'s sweep (R151). -/
def candidate (p : Port) (a : SweepAction) (c : Ctx) : Bool :=
  match a with
  | .adopt => c.owner = p.other && c.orphaned
  | .retire => c.owner = p
  | .hold => c.owner = p
  | .resume => c.owner = p
  | .relink _ => c.owner = p
  | .rerateLow => c.owner = p
  | .setPriority _ => c.owner = p

/-- Whether a visited context matches (R151). -/
def matchesSweep (p : Port) (a : SweepAction) (sel : Selector) (c : Ctx) : Bool :=
  candidate p a c && c.state ≠ .free && sel.selects c

/-! ### Actions and visits (R152 to R155) -/

/-- The lowest index of the permitted set, which RERATE_LOW names; where there is no set SET_RATE refuses any. -/
def Ctx.lowestPermitted (c : Ctx) : Nat :=
  match c.permitted with
  | some set => set.lowest
  | none => 0

/-- An action applied at a matching context, as the single order would be (R152). -/
def applyAction (p : Port) (a : SweepAction) (i : Nat) (s : State) : Taken :=
  match a with
  | .retire => retireContext i s
  | .hold => holdContext i s
  | .resume => resumeContext i s
  | .relink link => relinkContext i link s
  | .rerateLow => setRateOf i (s.ctx i).lowestPermitted s
  | .setPriority n => prioritize i n s
  | .adopt => adoptContext p i s

/-- The counts of a visit at a match with result `r` (R153). -/
def Sweep.counted (v : Sweep) (r : Result) : Sweep :=
  if r = .ok then { v with matched := v.matched + 1, acted := v.acted + 1 }
  else { v with matched := v.matched + 1, refused := v.refused + 1, lastRefusal := some (v.cursor, r) }

/-- Step 3 of a visit: it is counted, the cursor and the remaining count move (R153, R154). -/
def Sweep.advanced (v : Sweep) : Sweep :=
  { v with visited := v.visited + 1, cursor := v.cursor + 1, remaining := v.remaining - 1 }

/-- The result of a visit's action, absent at a context that did not match. -/
def stopOf (v : Sweep) (r : Option Result) : SweepState × StopReason :=
  if v.remaining = 0 then (.idle, .count)
  else if v.cursor = 2048 then (.idle, .endOfTable)
  else match v.stopRule, r with
    | some .onRefusal, some x => if x = .ok then (.running, .none) else (.suspended, .refusal)
    | some .onFirstAction, some x => if x = .ok then (.suspended, .firstAction) else (.running, .none)
    | _, _ => (.running, .none)

/-- Step 4 of a visit (R155): the record after the test. -/
def Sweep.tested (v : Sweep) (r : Option Result) : Sweep :=
  { v with state := (stopOf v r).1, stopReason := (stopOf v r).2 }

/-- The record after a visit is written; an end or suspension raises SWEEP_DONE at the sweep's own port (R155). -/
def State.endVisit (s : State) (p : Port) (v : Sweep) : State :=
  if v.state = .running then s.setSweep p v else (s.setSweep p v).raisePort p .sweepDone

/-- A visit at a match (R152, R153): the action's effects and the visit's own changes in one claim. -/
def visitMatch (p : Port) (v : Sweep) (t : Taken) : State :=
  t.after.endVisit p ((v.counted t.result).advanced.tested (some t.result))

/-- A visit with action `a` and selector `sel` (R154). -/
def State.visitWith (s : State) (p : Port) (a : SweepAction) (sel : Selector) : State :=
  if matchesSweep p a sel (s.ctx (s.sweepOf p).cursor) then
    visitMatch p (s.sweepOf p) (applyAction p a (s.sweepOf p).cursor s)
  else s.endVisit p ((s.sweepOf p).advanced.tested none)

/-- A visit of port `p`'s sweep (R154); one that is not RUNNING makes none (log 2). -/
def State.visit (s : State) (p : Port) : State :=
  match (s.sweepOf p).state, (s.sweepOf p).action, (s.sweepOf p).selector with
  | .running, some a, some sel => s.visitWith p a sel
  | _, _, _ => s

/-! ### The commands -/

/-- SWEEP (R150). -/
def execSweep (p : Port) (tag : Byte) (body : List Byte) (s : State) : Host.Outcome State Fault Refusal :=
  runs s (orderFrame p .sweep tag body (sweepOrder p body) s)

/-- SWEEP_ABORT (R157). -/
def execSweepAbort (p : Port) (tag : Byte) (body : List Byte) (s : State) : Host.Outcome State Fault Refusal :=
  runs s (orderFrame p .sweepAbort tag body (sweepAbortOrder p body) s)

/-- SWEEP_CONTINUE (R158). -/
def execSweepContinue (p : Port) (tag : Byte) (body : List Byte) (s : State) : Host.Outcome State Fault Refusal :=
  runs s (orderFrame p .sweepContinue tag body (sweepContinueOrder p body) s)

/-- SWEEP_STATUS (R159). -/
def execSweepStatus (p : Port) (tag : Byte) (body : List Byte) (s : State) : Host.Outcome State Fault Refusal :=
  runs s (orderFrame p .sweepStatus tag body (sweepStatusOrder body) s)

/-- SWEEP_VISIT (R154). -/
def execSweepVisit (p : Port) (s : State) : Host.Outcome State Fault Refusal := runs s (s.visit p)

end Sys2Proof.Machine
end

