-- ==== Sys2Proof/Machine/Tallies.lean ====
section
/-! DEFINITION. Tallies and inspection, chapter 11: TALLY_SET, TALLY_READ, INSPECT. -/

namespace Sys2Proof.Machine

/-! ### TALLY_SET (R182) -/

/-- The filter of a TALLY_SET body: ALL under flag 0, whose handle is not read; a handle with its index in range under
flag 1. The outer absence is a field out of range. -/
def filterOf (flag i0 i1 gen : Byte) : Option (Option Handle) :=
  match flagOf flag with
  | some false => some none
  | some true => if le16 i0 i1 ≤ 2047 then some (some ⟨le16 i0 i1, gen⟩) else none
  | none => none

/-- The tally a TALLY_SET body asks for, where every field is in range. -/
def tallyOf (enabled kind flag i0 i1 gen : Byte) (count : List Byte) : Option Tally :=
  match flagOf enabled, eventOf kind, filterOf flag i0 i1 gen with
  | some e, some k, some f => some ⟨e, k, f, BitVec.ofNat 40 (leNat count)⟩
  | _, _, _ => none

/-- The tally of a number, 0 or 1. -/
def State.tally (s : State) (one : Bool) : Tally := if one then s.tally1 else s.tally0

/-- A tally replaced. -/
def State.setTally (s : State) (one : Bool) (v : Tally) : State :=
  if one then s.setTallies s.tally0 v else s.setTallies v s.tally1

/-- TALLY_SET, code 70h (R182). -/
def tallySetOrder (body : List Byte) (s : State) : Taken :=
  match body with
  | [n, e, k, f, i0, i1, g, c0, c1, c2, c3, c4] =>
    match flagOf n, tallyOf e k f i0 i1 g [c0, c1, c2, c3, c4] with
    | some one, some v => ⟨.ok, .tally (s.tally one), s.setTally one v⟩
    | _, _ => refuse .badField s
  | _ => refuse .badLength s

/-! ### TALLY_READ (R183) -/

/-- TALLY_READ, code 71h (R183). -/
def tallyReadOrder (body : List Byte) (s : State) : Taken :=
  match body with
  | [] => ⟨.ok, .tallies s.tally0 s.tally1, s⟩
  | _ => refuse .badLength s

/-! ### INSPECT (R185, R186) -/

/-- The phase of a receive state. -/
def Rx.phase : Rx → RxPhase
  | .hunt => .hunt
  | .lengthField _ => .lengthField
  | .frame _ _ => .frame
  | .check _ _ => .check

/-- The entry of array PLAYOUT (R185). -/
def State.inspectPlayout (s : State) (i : Nat) : RespBody :=
  .inspectPlayout (s.ctx i).expected (s.ctx i).priming (s.ctx i).depth
    ((s.ctx i).queue.map fun x => (x.seq, x.kind, x.rate))

/-- The entry of array PORT (R185). At the port that issues the INSPECT the number of responses is the line's before the
INSPECT's own response joins it, and the receive phase is HUNT, its own frame being complete (`onFrame`); R185 leaves both
open: the model's choice (log 30). -/
def State.inspectPort (s : State) (p : Port) : RespBody :=
  .inspectPort (s.port p).sup (s.port p).rx.phase (s.port p).line.length (s.port p).conds (s.queueOf p).length
    (s.queueOf p).head? (s.attentionLine p)

/-- The port of an index of the arrays SWEEP and PORT. -/
def portAt (i : Nat) : Port := if i = 0 then .a else .b

/-- The number of entries of an array of INSPECT (R185); an array above 7 has none. -/
def arraySize : Nat → Nat
  | 0 => 2048
  | 1 => 2048
  | 2 => 4096
  | 3 => 16
  | 4 => 2048
  | 5 => 2
  | 6 => 8
  | 7 => 2
  | _ => 0

/-- The entry `i` of an array of INSPECT (R185); for an array above 7, which is refused, nothing. -/
def State.inspectEntry (s : State) (array i : Nat) : RespBody :=
  match array with
  | 0 => .inspectContext (s.report i) (s.ctx i).work.isSome (s.ctx i).ready.isSome
  | 1 => .inspectSlot (s.slotEntry i)
  | 2 => .inspectStream (s.streamEntry i)
  | 3 => .profile (s.profile i)
  | 4 => s.inspectPlayout i
  | 5 => .sweep (s.sweepOf (portAt i))
  | 6 => .inspectLane (s.lane i).state ((s.lane i).inHand.map s.handleOf)
  | 7 => s.inspectPort (portAt i)
  | _ => .nothing

/-- INSPECT, code 72h (R185): it reads and changes nothing (R186). -/
def inspectOrder (body : List Byte) (s : State) : Taken :=
  match body with
  | [a, i0, i1] =>
    if le16 i0 i1 < arraySize a.toNat then ⟨.ok, s.inspectEntry a.toNat (le16 i0 i1), s⟩ else refuse .badField s
  | _ => refuse .badLength s

/-! ### The commands -/

/-- TALLY_SET (R182). -/
def execTallySet (p : Port) (tag : Byte) (body : List Byte) (s : State) : Host.Outcome State Fault Refusal :=
  runs s (orderFrame p .tallySet tag body (tallySetOrder body) s)

/-- TALLY_READ (R183). -/
def execTallyRead (p : Port) (tag : Byte) (body : List Byte) (s : State) : Host.Outcome State Fault Refusal :=
  runs s (orderFrame p .tallyRead tag body (tallyReadOrder body) s)

/-- INSPECT (R185). -/
def execInspect (p : Port) (tag : Byte) (body : List Byte) (s : State) : Host.Outcome State Fault Refusal :=
  runs s (orderFrame p .inspect tag body (inspectOrder body) s)

end Sys2Proof.Machine
end

