-- ==== Sys2Proof/Machine/Frames.lean ====
section
/-! DEFINITION. Frames at the order ports, chapter 10: the resets, the order a code names, BATCH and the frames it
holds, the receive phases byte by byte, the response line's drain, the reset pin and power-on. -/

namespace Sys2Proof.Machine

/-! ### Resets (R24, R25, R177 to R179) -/

/-- Every block at its power-on value (R24, R177). The queue of commands, the counter of free values and the level of
the reset pin are not the part's registers (log 8, log 16). -/
def State.hardReset (s : State) : State :=
  { State.reset with pinHeld := s.pinHeld, freeCount := s.freeCount, pending := s.pending }

/-- The contexts not in FREE, in ascending index. -/
def State.liveContexts (s : State) : List Nat := s.indicesWhere fun c => c.state ≠ .free

/-- Every context taken to FREE (R25). -/
def State.freeAll (s : State) : State := s.liveContexts.foldl State.enterFree s

/-- A sweep record after a soft reset (R161). -/
def Sweep.softReset (v : Sweep) : Sweep := { v with state := .idle, stopReason := .reset }

/-- Both maps emptied, every block discarded, both sweeps ended, both attention queues emptied (R43, R161, R179). -/
def State.emptyTables (s : State) : State :=
  { s with slotMap := [], streamMap := [], blocks := [], sweeps := ⟨s.sweeps.a.softReset, s.sweeps.b.softReset⟩,
           attention := ⟨[], []⟩ }

/-- The condition set of a port emptied (R179). -/
def State.clearConds (s : State) (p : Port) : State := s.setPort p { s.port p with conds := 0 }

/-- The soft reset (R177). -/
def State.softReset (s : State) : State := ((s.freeAll.emptyTables).clearConds .a).clearConds .b

/-- RESET at port `p`, code 05h (R177): SOFT is performed and answered; HARD is answered, and the port takes no
further frame until the reset. -/
def resetOrder (p : Port) (body : List Byte) (s : State) : Taken :=
  match body with
  | [k] =>
    if k = 0 then ⟨.ok, .freed s.liveContexts.length, s.softReset⟩
    else if k = 1 then ⟨.ok, .nothing, s.setPort p { s.port p with resetPending := true }⟩
    else refuse .badField s
  | _ => refuse .badLength s

/-! ### The order a code names (R164, R189) -/

/-- An order taken as an order of its own. BATCH as a sub-order does not pass the intake of its batch (R165). -/
def takeOrder (p : Port) (c : OrderCode) (body : List Byte) (s : State) : Taken :=
  match c with
  | .keepalive => keepaliveOrder body s
  | .superviseSet => superviseSetOrder p body s
  | .notices => noticesOrder p body s
  | .batch => refuse .badField s
  | .reset => resetOrder p body s
  | .adopt => adoptOrder p body s
  | .openContext => openOrder p body s
  | .retire => retireOrder p body s
  | .query => queryOrder body s
  | .arm => armOrder p body s
  | .hold => holdOrder p body s
  | .resume => resumeOrder p body s
  | .setPriority => setPriorityOrder p body s
  | .bindSlot => bindSlotOrder p body s
  | .bindStream => bindStreamOrder p body s
  | .unbindSlot => unbindSlotOrder p body s
  | .unbindStream => unbindStreamOrder p body s
  | .relink => relinkOrder p body s
  | .profileLoad => profileLoadOrder body s
  | .profileClear => profileClearOrder body s
  | .profileRead => profileReadOrder body s
  | .setProfile => setProfileOrder p body s
  | .setRateset => setRatesetOrder p body s
  | .setRate => setRateOrder p body s
  | .handoverPrepare => handoverPrepareOrder p body s
  | .handoverCommit => handoverCommitOrder p body s
  | .handoverCancel => handoverCancelOrder p body s
  | .setSupervision => setSupervisionOrder p body s
  | .setLevel => setLevelOrder p body s
  | .levelDefaults => levelDefaultsOrder body s
  | .setPlayout => setPlayoutOrder p body s
  | .laneService => laneServiceOrder body s
  | .faultRead => faultReadOrder body s
  | .sweep => sweepOrder p body s
  | .sweepAbort => sweepAbortOrder p body s
  | .sweepContinue => sweepContinueOrder p body s
  | .sweepStatus => sweepStatusOrder body s
  | .tallySet => tallySetOrder body s
  | .tallyRead => tallyReadOrder body s
  | .inspect => inspectOrder body s

/-- An order by its code byte: UNKNOWN_ORDER where it is not one of the part's (R164). -/
def takeCode (p : Port) (code : Byte) (body : List Byte) (s : State) : Taken :=
  match OrderCode.ofByte code with
  | some c => takeOrder p c body s
  | none => refuse .unknownOrder s

/-! ### BATCH (R165, R166) -/

/-- The sub-orders of a BATCH body after its flag and count; none where their lengths do not account for it exactly. -/
def subOrders : Nat → List Byte → Option (List (Byte × List Byte))
  | 0, [] => some []
  | n + 1, c :: l0 :: l1 :: rest =>
    if le16 l0 l1 ≤ rest.length then
      (subOrders n (rest.drop (le16 l0 l1))).map fun t => (c, rest.take (le16 l0 l1)) :: t
    else none
  | _, _ => none

/-- What a sub-order adds to the size test: its heading, and the maximum response body of its code (R165). -/
def subOrderSize (code : Byte) : Nat :=
  match OrderCode.ofByte code with
  | some c => 4 + c.maxResponse
  | none => 4

/-- The size of a batch response at most (R165). -/
def batchSize (subs : List (Byte × List Byte)) : Nat := 1 + (subs.map fun x => subOrderSize x.1).sum

/-- A code that a BATCH does not carry (R165). -/
def barred (code : Byte) : Bool := code = OrderCode.batch.byte || code = OrderCode.reset.byte

/-- The intake checks of a BATCH (R165). -/
def batchIntake (tag : Byte) (body : List Byte) : Except Result Batch :=
  match body with
  | f :: n :: rest =>
    match subOrders n.toNat rest with
    | none => .error .badLength
    | some subs =>
      if Config.maxBody < batchSize subs then .error .badLength
      else match flagOf f with
        | none => .error .badField
        | some stop =>
          if n = 0 ∨ 16 < n.toNat ∨ subs.any (fun x => barred x.1) = true then .error .badField
          else .ok ⟨tag, stop, subs, []⟩
  | _ => .error .badLength

/-- What the port is taking as its batch. -/
def State.setBatch (s : State) (p : Port) (b : Option Batch) : State := s.setPort p { s.port p with batch := b }

/-- A BATCH frame taken (R165, R166): refused at intake, or its sub-orders wait to be taken. -/
def takeBatch (p : Port) (tag : Byte) (body : List Byte) (s : State) : State :=
  match batchIntake tag body with
  | .error r => respond p OrderCode.batch.byte tag (refuse r s)
  | .ok b => s.setBatch p (some b)

/-- A good frame's order taken by its code (R163). -/
def takeFrame (p : Port) (code tag : Byte) (body : List Byte) (s : State) : State :=
  if code = OrderCode.batch.byte then takeBatch p tag body s else respond p code tag (takeCode p code body s)

/-- The claim of a good frame by its code. -/
def goodFrame (p : Port) (code tag : Byte) (body : List Byte) (s : State) : State :=
  onFrame p ⟨true, code, tag, body⟩ (takeGood p code (takeFrame p code tag body)) s

/-- The claim of a frame whose checksum fails (R162); its body is dropped. -/
def spoiltFrame (p : Port) (code tag : Byte) (s : State) : State := onFrame p ⟨false, code, tag, []⟩ (takeBad p code tag) s

/-- The entry of a sub-order that is not taken (R166). -/
def skippedEntry (x : Byte × List Byte) : BatchEntry := ⟨x.1, .skipped, .nothing⟩

/-- The batch response joins the line and the batch is done (R166, log 13). -/
def State.closeBatch (s : State) (p : Port) (tag : Byte) (entries : List BatchEntry) : State :=
  (s.setBatch p none).pushResponse p ⟨responseCode OrderCode.batch.byte, tag, .ok, .batch entries⟩

/-- A batch after sub-order `code` was taken with outcome `t`: stopped by a refusal, finished, or going on (R166). -/
def afterSubOrder (p : Port) (b : Batch) (code : Byte) (rest : List (Byte × List Byte)) (t : Taken) : State :=
  if b.stopOnRefusal ∧ t.result ≠ .ok then
    t.after.closeBatch p b.tag (b.done ++ ⟨code, t.result, t.body⟩ :: rest.map skippedEntry)
  else match rest with
    | [] => t.after.closeBatch p b.tag (b.done ++ [⟨code, t.result, t.body⟩])
    | _ :: _ => t.after.setBatch p (some { b with todo := rest, done := b.done ++ [⟨code, t.result, t.body⟩] })

/-- The next sub-order of the port's batch is taken (R166); with none the event does not occur (log 2). -/
def State.subOrder (s : State) (p : Port) : State :=
  match (s.port p).batch with
  | some b =>
    match b.todo with
    | x :: rest => afterSubOrder p b x.1 rest (takeCode p x.1 x.2 s)
    | [] => s
  | none => s

/-- A held frame taken up as if it had just completed (R166). -/
def takeHeld (p : Port) (f : Frame) (s : State) : State :=
  if f.good then takeGood p f.code (takeFrame p f.code f.tag f.body) s else takeBad p f.code f.tag s

/-- The first held frame is taken up, once the batch response is formed (R166); a port with a HARD RESET ordered takes
no further frame (R177). -/
def State.takeHeldFrame (s : State) (p : Port) : State :=
  if (s.port p).batch.isSome ∨ (s.port p).resetPending = true then s
  else match (s.port p).heldFrames with
    | f :: t => takeHeld p f (s.setPort p { s.port p with heldFrames := t })
    | [] => s

/-! ### The receive phases (R162) -/

/-- The checksum of the bytes from the length field through the body (R187). -/
def checksum (bytes : List Byte) : Nat := (bytes.map BitVec.toNat).sum % 65536

/-- The claim of the frame whose bytes, from the length field on, are `bytes`. -/
def completeFrame (p : Port) (bytes : List Byte) (good : Bool) (s : State) : State :=
  if good then goodFrame p (bytes.getD 2 0) (bytes.getD 3 0) (bytes.drop 4) s
  else spoiltFrame p (bytes.getD 2 0) (bytes.getD 3 0) s

/-- The phase after the length field (R162): above 1020 the frame is discarded, and the port is in HUNT at once, with the
second length byte. R162 says that it "returns to HUNT at the next byte": what INSPECT of array PORT shows until that byte
comes is open (the model's choice, log 32). -/
def afterLength (low high : Byte) : Rx :=
  if Config.maxBody < le16 low high then .hunt else .frame (le16 low high) [low, high]

/-- The phase after a frame byte: CHECK once code, tag and `n` body bytes are taken. -/
def afterFrameByte (n : Nat) (bytes : List Byte) : Rx := if bytes.length < n + 4 then .frame n bytes else .check bytes none

/-- A byte arrives in receive phase `r` (R162). -/
def State.byteIn (s : State) (p : Port) (r : Rx) (b : Byte) : State :=
  match r with
  | .hunt => if b = 0x5A then s.setRx p (.lengthField none) else s
  | .lengthField none => s.setRx p (.lengthField (some b))
  | .lengthField (some low) => s.setRx p (afterLength low b)
  | .frame n bytes => s.setRx p (afterFrameByte n (bytes ++ [b]))
  | .check bytes none => s.setRx p (.check bytes (some b))
  | .check bytes (some low) => completeFrame p bytes (decide (checksum bytes = le16 low b)) s

/-- A byte arrives at a port (R162); after a HARD RESET order it is discarded (R177, log 12). -/
def State.incoming (s : State) (p : Port) (b : Byte) : State :=
  if (s.port p).resetPending then s else s.byteIn p (s.port p).rx b

/-! ### The response line drains (R163, R177) -/

/-- The head response has left; where it answered the port's HARD RESET the reset is performed (R177, log 12). -/
def State.responseSent (s : State) (p : Port) : State :=
  match (s.port p).line with
  | [] => s
  | _ :: t =>
    if (s.port p).resetPending ∧ t = [] then s.hardReset else s.setPort p { s.port p with line := t }

/-- Whether the response of the port's HARD RESET is the next to leave. -/
def State.resetDue (s : State) (p : Port) : Bool := (s.port p).resetPending && (s.port p).line.length = 1

/-! ### The commands -/

/-- RESET with kind SOFT (R177). -/
def execResetSoft (p : Port) (tag : Byte) (s : State) : Host.Outcome State Fault Refusal :=
  runs s (orderFrame p .reset tag [0] (resetOrder p [0]) s)

/-- RESET with kind HARD (R177). -/
def execResetHard (p : Port) (tag : Byte) (s : State) : Host.Outcome State Fault Refusal :=
  runs s (orderFrame p .reset tag [1] (resetOrder p [1]) s)

/-- The hard reset is performed, when the last byte of its response has left (R177); else it does not occur (log 2). -/
def execHardResetPerformed (p : Port) (s : State) : Host.Outcome State Fault Refusal :=
  runs s (if s.resetDue p then s.responseSent p else s)

/-- BATCH (R165). -/
def execBatch (p : Port) (tag : Byte) (body : List Byte) (s : State) : Host.Outcome State Fault Refusal :=
  runs s (goodFrame p OrderCode.batch.byte tag body s)

/-- BATCH_SUB_ORDER (R166). -/
def execBatchSubOrder (p : Port) (s : State) : Host.Outcome State Fault Refusal := runs s (s.subOrder p)

/-- HELD_FRAME_TAKEN (R166). -/
def execHeldFrameTaken (p : Port) (s : State) : Host.Outcome State Fault Refusal := runs s (s.takeHeldFrame p)

/-- A good frame with a code that is not one of the part's orders (R164). -/
def execUnknownOrder (p : Port) (code tag : Byte) (body : List Byte) (s : State) : Host.Outcome State Fault Refusal :=
  runs s (goodFrame p code tag body s)

/-- A frame with a wrong checksum (R162). -/
def execBadFrame (p : Port) (code tag : Byte) (s : State) : Host.Outcome State Fault Refusal :=
  runs s (spoiltFrame p code tag s)

/-- A length field above 1020 (R162): the port is back in HUNT at once (the model's choice, log 32) and nothing else
happens. A length in range is not this event (log 2). -/
def execFrameTooLong (p : Port) (length : Nat) (s : State) : Host.Outcome State Fault Refusal :=
  runs s (if length ≤ Config.maxBody ∨ (s.port p).resetPending = true then s else s.setRx p .hunt)

/-- A good frame completes while 8 responses wait (R163); with fewer, or behind a batch, it is not this event
(log 2). -/
def execFrameDiscardedFullLine (p : Port) (code tag : Byte) (body : List Byte) (s : State) :
    Host.Outcome State Fault Refusal :=
  runs s (if s.lineFull p ∧ s.frameWaits p = false then goodFrame p code tag body s else s)

/-- A frame completes behind a batch while 8 frames are held (R166); else it is not this event (log 2). -/
def execFrameDiscardedBatchHold (p : Port) (good : Bool) (code tag : Byte) (body : List Byte) (s : State) :
    Host.Outcome State Fault Refusal :=
  runs s (if s.frameWaits p ∧ Config.lineDepth ≤ (s.port p).heldFrames.length then
    (if good then goodFrame p code tag body s else spoiltFrame p code tag s) else s)

/-- RESPONSE_SENT (R163). -/
def execResponseSent (p : Port) (s : State) : Host.Outcome State Fault Refusal := runs s (s.responseSent p)

/-- INCOMING_BYTE (R162). -/
def execIncomingByte (p : Port) (byte : Byte) (s : State) : Host.Outcome State Fault Refusal :=
  runs s (s.incoming p byte)

/-- Assertion of the reset pin (R177): a hard reset, and the part stays in its reset state while the pin is held. -/
def execResetPin (s : State) : Host.Outcome State Fault Refusal := .next { s.hardReset with pinHeld := true }

/-- Release of the reset pin (R177). -/
def execResetPinReleased (s : State) : Host.Outcome State Fault Refusal := .next { s with pinHeld := false }

/-- Power-on (R24, R178). -/
def execPowerOn (s : State) : Host.Outcome State Fault Refusal := .next s.hardReset

end Sys2Proof.Machine
end

