-- ==== Sys2Proof/Machine/Dispatch.lean ====
section
/-! DEFINITION. The meaning of every command: one arm per constructor of `Instr`. -/

namespace Sys2Proof.Machine

def exec (i : Instr) (s : State) : Host.Outcome State Fault Refusal :=
  match i with
  | .keepalive p tag body => Sys2Proof.Machine.execKeepalive p tag body s
  | .superviseSet p tag body => Sys2Proof.Machine.execSuperviseSet p tag body s
  | .notices p tag body => Sys2Proof.Machine.execNotices p tag body s
  | .batch p tag body => Sys2Proof.Machine.execBatch p tag body s
  | .batchSubOrder p => Sys2Proof.Machine.execBatchSubOrder p s
  | .heldFrameTaken p => Sys2Proof.Machine.execHeldFrameTaken p s
  | .resetSoft p tag => Sys2Proof.Machine.execResetSoft p tag s
  | .resetHard p tag => Sys2Proof.Machine.execResetHard p tag s
  | .hardResetPerformed p => Sys2Proof.Machine.execHardResetPerformed p s
  | .adopt p tag body => Sys2Proof.Machine.execAdopt p tag body s
  | .openContext p tag body => Sys2Proof.Machine.execOpen p tag body s
  | .retire p tag body => Sys2Proof.Machine.execRetire p tag body s
  | .query p tag body => Sys2Proof.Machine.execQuery p tag body s
  | .arm p tag body => Sys2Proof.Machine.execArm p tag body s
  | .hold p tag body => Sys2Proof.Machine.execHold p tag body s
  | .resume p tag body => Sys2Proof.Machine.execResume p tag body s
  | .setPriority p tag body => Sys2Proof.Machine.execSetPriority p tag body s
  | .bindSlot p tag body => Sys2Proof.Machine.execBindSlot p tag body s
  | .bindStream p tag body => Sys2Proof.Machine.execBindStream p tag body s
  | .unbindSlot p tag body => Sys2Proof.Machine.execUnbindSlot p tag body s
  | .unbindStream p tag body => Sys2Proof.Machine.execUnbindStream p tag body s
  | .relink p tag body => Sys2Proof.Machine.execRelink p tag body s
  | .profileLoad p tag body => Sys2Proof.Machine.execProfileLoad p tag body s
  | .profileClear p tag body => Sys2Proof.Machine.execProfileClear p tag body s
  | .profileRead p tag body => Sys2Proof.Machine.execProfileRead p tag body s
  | .setProfile p tag body => Sys2Proof.Machine.execSetProfile p tag body s
  | .setRateset p tag body => Sys2Proof.Machine.execSetRateset p tag body s
  | .setRate p tag body => Sys2Proof.Machine.execSetRate p tag body s
  | .handoverPrepare p tag body => Sys2Proof.Machine.execHandoverPrepare p tag body s
  | .handoverCommit p tag body => Sys2Proof.Machine.execHandoverCommit p tag body s
  | .handoverCancel p tag body => Sys2Proof.Machine.execHandoverCancel p tag body s
  | .setSupervision p tag body => Sys2Proof.Machine.execSetSupervision p tag body s
  | .setLevel p tag body => Sys2Proof.Machine.execSetLevel p tag body s
  | .levelDefaults p tag body => Sys2Proof.Machine.execLevelDefaults p tag body s
  | .setPlayout p tag body => Sys2Proof.Machine.execSetPlayout p tag body s
  | .laneServiceOut p tag lane => Sys2Proof.Machine.execLaneServiceOut p tag lane s
  | .laneServiceIn p tag lane => Sys2Proof.Machine.execLaneServiceIn p tag lane s
  | .faultRead p tag body => Sys2Proof.Machine.execFaultRead p tag body s
  | .sweep p tag body => Sys2Proof.Machine.execSweep p tag body s
  | .sweepAbort p tag body => Sys2Proof.Machine.execSweepAbort p tag body s
  | .sweepContinue p tag body => Sys2Proof.Machine.execSweepContinue p tag body s
  | .sweepStatus p tag body => Sys2Proof.Machine.execSweepStatus p tag body s
  | .tallySet p tag body => Sys2Proof.Machine.execTallySet p tag body s
  | .tallyRead p tag body => Sys2Proof.Machine.execTallyRead p tag body s
  | .inspect p tag body => Sys2Proof.Machine.execInspect p tag body s
  | .unknownOrder p code tag body => Sys2Proof.Machine.execUnknownOrder p code tag body s
  | .badFrame p code tag => Sys2Proof.Machine.execBadFrame p code tag s
  | .frameTooLong p length => Sys2Proof.Machine.execFrameTooLong p length s
  | .frameDiscardedFullLine p code tag body => Sys2Proof.Machine.execFrameDiscardedFullLine p code tag body s
  | .frameDiscardedBatchHold p good code tag body => Sys2Proof.Machine.execFrameDiscardedBatchHold p good code tag body s
  | .responseSent p => Sys2Proof.Machine.execResponseSent p s
  | .resetPin => Sys2Proof.Machine.execResetPin s
  | .powerOn => Sys2Proof.Machine.execPowerOn s
  | .frameMark rx => Sys2Proof.Machine.execFrameMark rx s
  | .framingLost => Sys2Proof.Machine.execFramingLost s
  | .boundaryClaim index => Sys2Proof.Machine.execBoundaryClaim index s
  | .portBoundary p => Sys2Proof.Machine.execPortBoundary p s
  | .portSilent p => Sys2Proof.Machine.execPortSilent p s
  | .firstCellExpiry index => Sys2Proof.Machine.execFirstCellExpiry index s
  | .silenceLimit index => Sys2Proof.Machine.execSilenceLimit index s
  | .silenceRetire index => Sys2Proof.Machine.execSilenceRetire index s
  | .handoverExpiry index => Sys2Proof.Machine.execHandoverExpiry index s
  | .cellArrival link bytes => Sys2Proof.Machine.execCellArrival link bytes s
  | .laneTakesWork lane index => Sys2Proof.Machine.execLaneTakesWork lane index s
  | .workCompletion lane => Sys2Proof.Machine.execWorkCompletion lane s
  | .laneCheck lane => Sys2Proof.Machine.execLaneCheck lane s
  | .contextCheck lane => Sys2Proof.Machine.execContextCheck lane s
  | .queueCheck lane => Sys2Proof.Machine.execQueueCheck lane s
  | .sweepVisit p => Sys2Proof.Machine.execSweepVisit p s
  | .incomingByte p byte => Sys2Proof.Machine.execIncomingByte p byte s
  | .outboundCellSent link => Sys2Proof.Machine.execOutboundCellSent link s
  | .resetPinReleased => Sys2Proof.Machine.execResetPinReleased s

end Sys2Proof.Machine
end

