-- ==== Sys2Proof/Machine/Format.lean ====
section
/-! DEFINITION. The byte layouts of what leaves an order port (R187, R190, R191): result and field codes, absent
values, response bodies in the order their rules list the fields, and response frames. Where R187 fixes no byte the
layout is the model's choice, point by point in log 15. -/

namespace Sys2Proof.Machine

/-! ### Codes -/

/-- The result codes (R190). -/
def Result.code : Result → Byte
  | .ok => 0x00
  | .badFrame => 0x01
  | .unknownOrder => 0x02
  | .badLength => 0x03
  | .badField => 0x04
  | .staleHandle => 0x05
  | .notOwner => 0x06
  | .wrongState => 0x07
  | .incomplete => 0x08
  | .noContext => 0x09
  | .noCapacity => 0x0A
  | .slotTaken => 0x0B
  | .streamTaken => 0x0C
  | .profileEmpty => 0x0D
  | .profileInUse => 0x0E
  | .profileFixed => 0x0F
  | .sweepBusy => 0x10
  | .skipped => 0x11

/-- One byte of a number. -/
def byteOf (n : Nat) : Byte := BitVec.ofNat 8 n

/-- A flag: 1 yes, 0 no. -/
def flagByte (b : Bool) : Byte := if b then 1 else 0

/-- A port: 0 Port A, 1 Port B. R159 and R185 number the ports so in request bodies; that an owner (QUERY, INSPECT) and a
former owner (ADOPT) are sent as the same byte is the model's choice (log 15). -/
def Port.byte : Port → Byte
  | .a => 0
  | .b => 1

/-- Hold cause codes (R187). -/
def HoldCause.code : HoldCause → Nat
  | .order => 0
  | .shed => 1
  | .fault => 2

/-- Retire cause codes (R187). -/
def RetireCause.code : RetireCause → Nat
  | .silence => 0
  | .noFirstCell => 1

/-- Law codes (R31). -/
def Law.code : Law → Nat
  | .aLaw => 0
  | .muLaw => 1

/-- Rounding mode codes (R94). -/
def RoundMode.code : RoundMode → Nat
  | .nearestEven => 0
  | .towardZero => 1
  | .downward => 2
  | .upward => 3

/-- Rounding field codes (R94). -/
def Rounding.code : Rounding → Nat
  | .mode m => m.code
  | .deviceDefault => 4

/-- Port supervision state codes (R187). -/
def SupState.code : SupState → Nat
  | .initial => 0
  | .live => 1
  | .silent => 2

/-- Lane state codes (R187). -/
def LaneState.code : LaneState → Nat
  | .inService => 0
  | .outOrder => 1
  | .outFault => 2

/-- Fault kind codes (R187). -/
def FaultKind.code : FaultKind → Nat
  | .laneCheck => 0
  | .contextCheck => 1
  | .queueCheck => 2

/-- Stream map role codes (R187). -/
def Role.code : Role → Nat
  | .primary => 0
  | .handover => 1

/-- Rate request source codes (R187). -/
def RateSource.code : RateSource → Nat
  | .cell => 0
  | .order => 1

/-- SET_RATE disposition codes (R187). -/
def Disposition.code : Disposition → Nat
  | .set => 0
  | .pending => 1
  | .current => 2

/-- Profile slot state codes (R187). -/
def ProfileState.code : ProfileState → Nat
  | .vacant => 0
  | .loaded _ => 1
  | .fixed _ => 2

/-- Queue entry kind codes (R187). -/
def EntryKind.code : EntryKind → Nat
  | .speech => 0
  | .silenceUpdate => 1
  | .noData => 2
  | .erased => 3

/-- Sweep state codes (R187). -/
def SweepState.code : SweepState → Nat
  | .idle => 0
  | .running => 1
  | .suspended => 2

/-- Sweep action codes (R187). -/
def SweepAction.code : SweepAction → Nat
  | .retire => 0
  | .hold => 1
  | .resume => 2
  | .relink _ => 3
  | .rerateLow => 4
  | .setPriority _ => 5
  | .adopt => 6

/-- The parameter of a sweep action; 0 where it has none (R187). -/
def SweepAction.parameter : SweepAction → Nat
  | .relink link => link
  | .setPriority priority => priority
  | .retire => 0
  | .hold => 0
  | .resume => 0
  | .rerateLow => 0
  | .adopt => 0

/-- Stop rule codes (R187). -/
def StopRule.code : StopRule → Nat
  | .never => 0
  | .onRefusal => 1
  | .onFirstAction => 2

/-- Stop reason codes (R187). -/
def StopReason.code : StopReason → Nat
  | .none => 0
  | .count => 1
  | .endOfTable => 2
  | .refusal => 3
  | .firstAction => 4
  | .aborted => 5
  | .reset => 6

/-- Event kind codes (R181). -/
def Event.code : Event → Nat
  | .cellIn => 0
  | .cellOut => 1
  | .cellMiss => 2
  | .cellIdle => 3
  | .cellLate => 4
  | .cellDup => 5
  | .cellBad => 6
  | .cellResync => 7
  | .conceal => 8
  | .clipPeriod => 9
  | .rateChange => 10
  | .admitRefused => 11
  | .handoverCommit => 12
  | .handoverFail => 13
  | .shed => 14
  | .retire => 15

/-- Kernel family codes (R47). -/
def Family.byte : Family → Byte
  | .narrowMulti => 0
  | .narrowSingle => 1
  | .wideMulti => 2

/-- Receive phase codes, in the order R162 lists them; R187 gives none (the model's choice, log 15). -/
def RxPhase.code : RxPhase → Nat
  | .hunt => 0
  | .lengthField => 1
  | .frame => 2
  | .check => 3

/-! ### Fields and absent values (R187) -/

/-- An optional one-byte field: FFh where absent. R187 gives that value for rate indices, causes and the enumerated
fields; for a profile slot, a lane and a held-from state it is the model's choice (log 15). -/
def optByte {α : Type} (f : α → Nat) : Option α → List Byte
  | some x => [byteOf (f x)]
  | none => [0xFF]

/-- An optional two-byte field: FFFFh where absent. R187 gives that value for slots and counts; for the index in a slot
map entry or at a queue's head it is the model's choice (log 15). -/
def optWord {α : Type} (f : α → Nat) : Option α → List Byte
  | some x => leBytes 2 (f x)
  | none => [0xFF, 0xFF]

/-- A sequence that may be absent: a presence flag, then the sequence, FFFFh where absent. R187 gives an absent sequence
no code (the model's choice, log 15). -/
def optSeq : Option Seq16 → List Byte
  | some x => 1 :: leBytes 2 x.toNat
  | none => [0, 0xFF, 0xFF]

/-- A handle: index, then generation. -/
def Handle.bytes (h : Handle) : List Byte := leBytes 2 h.index ++ [h.gen]

/-- An optional handle: index FFFFh where absent (R187); that its generation byte is FFh is the model's choice
(log 15). -/
def optHandle : Option Handle → List Byte
  | some h => h.bytes
  | none => [0xFF, 0xFF, 0xFF]

/-- A stream key: link, then tag. -/
def StreamKey.bytes (k : StreamKey) : List Byte := byteOf k.link :: leBytes 3 k.tag

/-- An optional stream key: link FFh where absent (R187); that its three tag bytes are FFh is the model's choice
(log 15). -/
def optKey : Option StreamKey → List Byte
  | some k => k.bytes
  | none => [0xFF, 0xFF, 0xFF, 0xFF]

/-- An optional slot binding: slot, then law; slot FFFFh where absent (R187), and law FFh by the model's choice
(log 15). -/
def optSlot : Option SlotBinding → List Byte
  | some b => leBytes 2 b.slot ++ [byteOf b.law.code]
  | none => [0xFF, 0xFF, 0xFF]

/-- An optional rate request: rate index, then source, each FFh where absent (R187). -/
def optRequest : Option RateRequest → List Byte
  | some r => [byteOf r.rate, byteOf r.source.code]
  | none => [0xFF, 0xFF]

/-- A handover record: key, bicast flag, deadline remaining. Where absent the key is absent and the deadline FFFFh
(R187); that the bicast byte is FFh is the model's choice (log 15). -/
def optHandover : Option Handover → List Byte
  | some h => h.key.bytes ++ flagByte h.bicast :: leBytes 2 h.remaining
  | none => optKey none ++ [0xFF, 0xFF, 0xFF]

/-- A gain: one signed byte. -/
def gainByte (g : Int) : Byte := BitVec.ofInt 8 g

/-- The four level fields. -/
def Levels.bytes (v : Levels) : List Byte :=
  [gainByte v.gainLand, gainByte v.gainMobile, byteOf v.rounding.code, flagByte v.clipReport]

/-- The eight counters. -/
def Counters.bytes (k : Counters) : List Byte :=
  [k.cellsIn, k.cellsOut, k.late, k.duplicate, k.bad, k.resync, k.concealed, k.clipPeriods].flatMap fun x =>
    leBytes 4 x.toNat

/-! ### Records -/

/-- What QUERY reports, in the order R9 lists it. An absent permitted set is sent as 00h, an absent held-from state as
FFh: R187 gives neither an absent code (the model's choice, log 15). -/
def QueryReport.bytes (r : QueryReport) : List Byte :=
  r.handle.bytes ++ [byteOf r.state.code] ++ optByte HoldCause.code r.holdCause ++
    optByte (fun x : HeldFrom => x.state.code) r.heldFrom ++ optByte RetireCause.code r.retireCause ++
    [Port.byte r.owner, flagByte r.orphaned, byteOf r.priority] ++ optSlot r.slot ++ optKey r.primary ++
    optHandover r.handover ++ optByte id r.profile ++ [r.permitted.getD 0] ++ optByte id r.rate ++
    optRequest r.request ++ leBytes 2 r.sinceRate ++ leBytes 2 r.outSeq.toNat ++ optSeq r.expected ++
    [byteOf r.entries, flagByte r.priming, byteOf r.depth] ++ leBytes 2 r.firstDeadline ++
    optWord id r.firstRemaining ++ leBytes 2 r.silenceLimit ++ leBytes 2 r.silence ++
    [flagByte r.staleRaised, flagByte r.autoRetire] ++
    Levels.bytes ⟨r.gainLand, r.gainMobile, r.rounding, r.clipReport⟩ ++ r.counters.bytes ++ leBytes 2 r.conds.toNat

/-- The cause byte of a notice: its hold cause, or its retire cause (R169). -/
def NoticeEntry.cause (e : NoticeEntry) : List Byte :=
  match e.holdCause with
  | some c => [byteOf c.code]
  | none => optByte RetireCause.code e.retireCause

/-- An entry of NOTICES (R169). -/
def NoticeEntry.bytes (e : NoticeEntry) : List Byte :=
  e.handle.bytes ++ leBytes 2 e.conds.toNat ++ [byteOf e.state.code] ++ e.cause ++ optByte id e.rate

/-- A rate table entry: payload bytes, cost. -/
def RateEntry.bytesOf (e : RateEntry) : List Byte := byteOf e.bytes :: leBytes 2 e.cost

/-- The contents of a profile slot, in the order R52 lists them: family, entry count, the entries, default rate index,
rate hold, revision stamp. R187 gives the record no layout; PROFILE_LOAD's body has another order (the model's choice,
log 15). -/
def Profile.bytes (c : Profile) : List Byte :=
  [c.family.byte, byteOf c.table.length] ++ c.table.flatMap RateEntry.bytesOf ++ [byteOf c.defaultIndex, byteOf c.hold] ++
    leBytes 2 c.stamp.toNat

/-- A profile slot record: state, reference count, then the contents, which an EMPTY slot has not (R52). -/
def ProfileSlot.bytes (v : ProfileSlot) : List Byte :=
  [byteOf v.state.code] ++ leBytes 2 v.refs ++
    (match v.state with
      | .vacant => []
      | .loaded c => c.bytes
      | .fixed c => c.bytes)

/-- The presence byte of a selector (R187). -/
def Selector.presence (x : Selector) : Byte :=
  byteOf ((if x.states.isSome then 1 else 0) + (if x.link.isSome then 2 else 0) + (if x.highway.isSome then 4 else 0) +
    (if x.profile.isSome then 8 else 0) + (if x.priority.isSome then 16 else 0))

/-- A selector: presence byte, state set, link, highway, profile slot, priority (R187); 0 for an absent criterion. -/
def Selector.bytes (x : Selector) : List Byte :=
  [x.presence, byteOf ((x.states.map BitVec.toNat).getD 0), byteOf (x.link.getD 0), byteOf (x.highway.getD 0),
    byteOf (x.profile.getD 0), byteOf (x.priority.getD 0)]

/-- A sweep record (R149, R159). An absent action, parameter or stop rule is FFh, 0, FFh; an absent selector is six zero
bytes, as a selector with no criterion is; an absent last refusal is FFFFh, FFh. R187 gives the last two no code (the
model's choice, log 15). -/
def Sweep.bytes (v : Sweep) : List Byte :=
  [byteOf v.state.code] ++ optByte SweepAction.code v.action ++ [byteOf ((v.action.map SweepAction.parameter).getD 0)] ++
    (v.selector.getD ⟨none, none, none, none, none⟩).bytes ++ optByte StopRule.code v.stopRule ++
    ([v.cursor, v.remaining, v.visited, v.matched, v.acted, v.refused].flatMap (leBytes 2)) ++
    (match v.lastRefusal with
      | some (i, r) => leBytes 2 i ++ [r.code]
      | none => [0xFF, 0xFF, 0xFF]) ++ [byteOf v.stopReason.code]

/-- A tally: enabled, kind, filter flag and handle, count (R182). Under ALL the handle bytes are those of an absent handle,
FFFFh and FFh: R182 has a TALLY_SET body's handle ignored there, and no rule gives the bytes a response carries (the
model's choice, log 15). -/
def Tally.bytes (t : Tally) : List Byte :=
  [flagByte t.enabled, byteOf t.kind.code, flagByte t.filter.isSome] ++ optHandle t.filter ++ leBytes 5 t.count.toNat

/-- Supervision settings (R173). -/
def SupSettings.bytes (v : SupSettings) : List Byte :=
  [flagByte v.enabled, flagByte v.strict] ++ leBytes 2 v.initialLimit ++ leBytes 2 v.steadyLimit

/-- The fault capture record, in the order of R75's table, its `further` flag last; R76 names valid and further first,
and R187 gives the body no layout (the model's choice, log 15). The bytes of the fields an invalid record has not are FFh
(the model's choice but for the kind and the handle's index, log 15). -/
def Capture.bytes (c : Capture) : List Byte :=
  [flagByte c.record.isSome] ++ optByte (fun r : FaultRecord => r.kind.code) c.record ++
    optByte (fun r : FaultRecord => r.lane) c.record ++ optHandle (c.record.bind FaultRecord.context) ++
    (match c.record with
      | some r => leBytes 4 r.period.toNat
      | none => [0xFF, 0xFF, 0xFF, 0xFF]) ++ [flagByte c.further]

/-! ### Response bodies and frames -/

/-- The body of a response, its fields in the order their rule lists them. The widths, where R187 gives a field none,
the entry count before the entries of NOTICES, the presence byte before the record a SWEEP replaced, and the FFh bytes of
an empty stream map entry are the model's choice (log 15). -/
def RespBody.bytes : RespBody → List Byte
  | .nothing => []
  | .keepalive period sa ca sb cb lanes available reserved free =>
    leBytes 2 0x2048 ++ leBytes 2 0x0002 ++ leBytes 4 period.toNat ++ [byteOf sa.code] ++ leBytes 2 ca ++
      [byteOf sb.code] ++ leBytes 2 cb ++ [byteOf lanes] ++ leBytes 4 available ++ leBytes 4 reserved ++ leBytes 2 free
  | .supervision v st n => v.bytes ++ [byteOf st.code] ++ leBytes 2 n
  | .notices c es n =>
    [byteOf c.toNat, byteOf es.length] ++ es.flatMap NoticeEntry.bytes ++ leBytes 2 n
  | .freed n => leBytes 2 n
  | .adopted p st c m => [Port.byte p, byteOf st.code] ++ leBytes 2 c.toNat ++ [flagByte m]
  | .handle h => h.bytes
  | .state st => [byteOf st.code]
  | .query r => r.bytes
  | .rateUnits r n => byteOf r :: leBytes 2 n
  | .stateUnits st n => byteOf st.code :: leBytes 2 n
  | .priority n => [byteOf n]
  | .slotBound n l r => leBytes 2 n ++ [byteOf l.code] ++ optWord id r
  | .slotReleased n => optWord id n
  | .streamBound n k => leBytes 2 n ++ optKey k
  | .streamReleased k => optKey k
  | .relinked l n => byteOf l :: leBytes 2 n
  | .profileLoaded n st => byteOf n :: leBytes 2 st.toNat
  | .profileCleared st => leBytes 2 st.toNat
  | .profileVacant n => [byteOf n, byteOf ProfileState.vacant.code]
  | .profileRefs n => leBytes 2 n
  | .profile v => v.bytes
  | .profileSet n st r b c q =>
    [byteOf n] ++ leBytes 2 st.toNat ++ [byteOf r, byteOf b] ++ leBytes 2 c ++ optByte id q
  | .rateSet d r q x => [byteOf d.code] ++ optByte id r ++ optRequest q ++ optRequest x
  | .ratesetReplaced a b r r' q q' => [a, b] ++ optByte id r ++ optByte id r' ++ optRequest q ++ optRequest q'
  | .handoverPrepared n k d => leBytes 2 n ++ k.bytes ++ leBytes 2 d
  | .handoverCommitted a k n => optKey a ++ k.bytes ++ leBytes 2 n
  | .handoverCancelled k d => k.bytes ++ leBytes 2 d
  | .supervisionSet d l a r n => leBytes 2 d ++ leBytes 2 l ++ [flagByte a] ++ optWord id r ++ leBytes 2 n
  | .levels v => v.bytes
  | .rounding a b => [byteOf a.code, byteOf b.code]
  | .depth n => [byteOf n]
  | .laneService n a b av re lo he rd =>
    [byteOf n, byteOf a.code, byteOf b.code] ++ leBytes 4 av ++ leBytes 4 re ++ leBytes 2 lo ++ leBytes 2 he ++
      leBytes 2 rd
  | .faults c ls => c.bytes ++ ls.map fun x => byteOf x.code
  | .sweepStarted st n r =>
    leBytes 2 st ++ leBytes 2 n ++ [flagByte r.isSome] ++
      (match r with
        | some v => v.bytes
        | none => [])
  | .sweep v => v.bytes
  | .tally t => t.bytes
  | .tallies a b => a.bytes ++ b.bytes
  | .inspectContext r w b => r.bytes ++ [flagByte w, flagByte b]
  | .inspectSlot e => optWord id e
  | .inspectStream e =>
    (match e with
      | some x => x.key.bytes ++ leBytes 2 x.index ++ [byteOf x.role.code]
      | none => optKey none ++ [0xFF, 0xFF, 0xFF])
  | .inspectPlayout e pr d xs =>
    optSeq e ++ [flagByte pr, byteOf d, byteOf xs.length] ++
      xs.flatMap fun x => leBytes 2 x.1.toNat ++ [byteOf x.2.1.code, byteOf x.2.2]
  | .inspectLane st h => byteOf st.code :: optHandle h
  | .inspectPort v ph n c q hd att =>
    [byteOf v.state.code] ++ leBytes 2 v.count ++ v.settings.bytes ++ [byteOf ph.code, byteOf n, byteOf c.toNat] ++
      leBytes 2 q ++ optWord id hd ++ [flagByte att]

/-- An entry of a batch response: code, result, body length, body (R166). -/
def BatchEntry.bytes (e : BatchEntry) : List Byte :=
  [e.code, e.result.code] ++ leBytes 2 e.body.bytes.length ++ e.body.bytes

/-- The body of a response (R166, R187). -/
def ReplyBody.bytes : ReplyBody → List Byte
  | .single b => b.bytes
  | .batch es => byteOf es.length :: es.flatMap BatchEntry.bytes

/-- What the checksum of a response adds up: length, code, tag, result, body (R187). -/
def Response.summed (r : Response) : List Byte :=
  leBytes 2 r.body.bytes.length ++ [r.code, r.tag, r.result.code] ++ r.body.bytes

/-- A response frame as it leaves the transmit line: sync, the summed bytes, checksum (R187). -/
def Response.frame (r : Response) : List Byte := [0x5A] ++ r.summed ++ leBytes 2 (checksum r.summed)

/-- What the checksum of an order frame adds up: length, code, tag, body (R187). -/
def orderSummed (code tag : Byte) (body : List Byte) : List Byte := leBytes 2 body.length ++ [code, tag] ++ body

/-- The bytes of an order frame that carries `sum` as its checksum (R187). -/
def orderBytesWith (code tag : Byte) (body : List Byte) (sum : Nat) : List Byte :=
  [0x5A] ++ orderSummed code tag body ++ leBytes 2 sum

/-- An order frame as a server sends it, its checksum right (R187). -/
def orderBytes (code tag : Byte) (body : List Byte) : List Byte :=
  orderBytesWith code tag body (checksum (orderSummed code tag body))

end Sys2Proof.Machine
end

