-- ==== Sys2Proof/WellFormed.lean ====
section
/-! DEFINITION. Which terms of `Instr` stand for a command that can occur: what the operands' types do not say. -/

namespace Sys2Proof

/-- The body of a frame that completes has at most 1020 bytes (R162). -/
def bodyFits (body : List Byte) : Bool := decide (body.length ≤ Config.maxBody)

/-- A length field above 1020 that two bytes can hold (R162). -/
def lengthTooLong (n : Nat) : Bool := decide (Config.maxBody < n ∧ n < 65536)

/-- The codes a highway frame lists: each of a slot 0..2047, no slot twice (R26). -/
def codesFit (rx : List (Nat × Byte)) : Bool :=
  rx.all (fun e => decide (e.1 < 2048)) && decide (rx.map Prod.fst).Nodup

/-- A command that can occur. The length of an order's body is not tested here: a wrong one is an order the part
refuses BAD_LENGTH. The bytes of a link frame are any, since a malformed cell is a cell the part counts (R37). -/
def Instr.WellFormed : Instr → Bool
  | .keepalive _ _ body => bodyFits body
  | .superviseSet _ _ body => bodyFits body
  | .notices _ _ body => bodyFits body
  | .batch _ _ body => bodyFits body
  | .batchSubOrder _ => true
  | .heldFrameTaken _ => true
  | .resetSoft _ _ => true
  | .resetHard _ _ => true
  | .hardResetPerformed _ => true
  | .adopt _ _ body => bodyFits body
  | .openContext _ _ body => bodyFits body
  | .retire _ _ body => bodyFits body
  | .query _ _ body => bodyFits body
  | .arm _ _ body => bodyFits body
  | .hold _ _ body => bodyFits body
  | .resume _ _ body => bodyFits body
  | .setPriority _ _ body => bodyFits body
  | .bindSlot _ _ body => bodyFits body
  | .bindStream _ _ body => bodyFits body
  | .unbindSlot _ _ body => bodyFits body
  | .unbindStream _ _ body => bodyFits body
  | .relink _ _ body => bodyFits body
  | .profileLoad _ _ body => bodyFits body
  | .profileClear _ _ body => bodyFits body
  | .profileRead _ _ body => bodyFits body
  | .setProfile _ _ body => bodyFits body
  | .setRateset _ _ body => bodyFits body
  | .setRate _ _ body => bodyFits body
  | .handoverPrepare _ _ body => bodyFits body
  | .handoverCommit _ _ body => bodyFits body
  | .handoverCancel _ _ body => bodyFits body
  | .setSupervision _ _ body => bodyFits body
  | .setLevel _ _ body => bodyFits body
  | .levelDefaults _ _ body => bodyFits body
  | .setPlayout _ _ body => bodyFits body
  | .laneServiceOut _ _ _ => true
  | .laneServiceIn _ _ _ => true
  | .faultRead _ _ body => bodyFits body
  | .sweep _ _ body => bodyFits body
  | .sweepAbort _ _ body => bodyFits body
  | .sweepContinue _ _ body => bodyFits body
  | .sweepStatus _ _ body => bodyFits body
  | .tallySet _ _ body => bodyFits body
  | .tallyRead _ _ body => bodyFits body
  | .inspect _ _ body => bodyFits body
  | .unknownOrder _ code _ body => (OrderCode.ofByte code).isNone && bodyFits body
  | .badFrame _ _ _ => true
  | .frameTooLong _ length => lengthTooLong length
  | .frameDiscardedFullLine _ _ _ body => bodyFits body
  | .frameDiscardedBatchHold _ _ _ _ body => bodyFits body
  | .responseSent _ => true
  | .resetPin => true
  | .powerOn => true
  | .frameMark rx => codesFit rx
  | .framingLost => true
  | .boundaryClaim _ => true
  | .portBoundary _ => true
  | .portSilent _ => true
  | .firstCellExpiry _ => true
  | .silenceLimit _ => true
  | .silenceRetire _ => true
  | .handoverExpiry _ => true
  | .cellArrival _ _ => true
  | .laneTakesWork _ _ => true
  | .workCompletion _ => true
  | .laneCheck _ => true
  | .contextCheck _ => true
  | .queueCheck _ => true
  | .sweepVisit _ => true
  | .incomingByte _ _ => true
  | .outboundCellSent _ => true
  | .resetPinReleased => true

end Sys2Proof
end

