-- ==== Sys2Proof/Safety.lean ====
section
/-! DEFINITION. What statements about the part speak of: the frame an order's row stands for, a port that takes frames,
the answer an order leaves, and the invariants. -/

namespace Sys2Proof

/-- An order's frame: port, tag, order, body. -/
structure OrderFrame where
  port : Port
  tag : Byte
  code : OrderCode
  body : List Byte
deriving DecidableEq, Repr

/-- The order frame a row stands for; none for the rows that are not orders. -/
def Instr.order : Instr → Option OrderFrame
  | .keepalive p t b => some ⟨p, t, .keepalive, b⟩
  | .superviseSet p t b => some ⟨p, t, .superviseSet, b⟩
  | .notices p t b => some ⟨p, t, .notices, b⟩
  | .batch p t b => some ⟨p, t, .batch, b⟩
  | .resetSoft p t => some ⟨p, t, .reset, [0]⟩
  | .resetHard p t => some ⟨p, t, .reset, [1]⟩
  | .adopt p t b => some ⟨p, t, .adopt, b⟩
  | .openContext p t b => some ⟨p, t, .openContext, b⟩
  | .retire p t b => some ⟨p, t, .retire, b⟩
  | .query p t b => some ⟨p, t, .query, b⟩
  | .arm p t b => some ⟨p, t, .arm, b⟩
  | .hold p t b => some ⟨p, t, .hold, b⟩
  | .resume p t b => some ⟨p, t, .resume, b⟩
  | .setPriority p t b => some ⟨p, t, .setPriority, b⟩
  | .bindSlot p t b => some ⟨p, t, .bindSlot, b⟩
  | .bindStream p t b => some ⟨p, t, .bindStream, b⟩
  | .unbindSlot p t b => some ⟨p, t, .unbindSlot, b⟩
  | .unbindStream p t b => some ⟨p, t, .unbindStream, b⟩
  | .relink p t b => some ⟨p, t, .relink, b⟩
  | .profileLoad p t b => some ⟨p, t, .profileLoad, b⟩
  | .profileClear p t b => some ⟨p, t, .profileClear, b⟩
  | .profileRead p t b => some ⟨p, t, .profileRead, b⟩
  | .setProfile p t b => some ⟨p, t, .setProfile, b⟩
  | .setRateset p t b => some ⟨p, t, .setRateset, b⟩
  | .setRate p t b => some ⟨p, t, .setRate, b⟩
  | .handoverPrepare p t b => some ⟨p, t, .handoverPrepare, b⟩
  | .handoverCommit p t b => some ⟨p, t, .handoverCommit, b⟩
  | .handoverCancel p t b => some ⟨p, t, .handoverCancel, b⟩
  | .setSupervision p t b => some ⟨p, t, .setSupervision, b⟩
  | .setLevel p t b => some ⟨p, t, .setLevel, b⟩
  | .levelDefaults p t b => some ⟨p, t, .levelDefaults, b⟩
  | .setPlayout p t b => some ⟨p, t, .setPlayout, b⟩
  | .laneServiceOut p t n => some ⟨p, t, .laneService, [n, 0]⟩
  | .laneServiceIn p t n => some ⟨p, t, .laneService, [n, 1]⟩
  | .faultRead p t b => some ⟨p, t, .faultRead, b⟩
  | .sweep p t b => some ⟨p, t, .sweep, b⟩
  | .sweepAbort p t b => some ⟨p, t, .sweepAbort, b⟩
  | .sweepContinue p t b => some ⟨p, t, .sweepContinue, b⟩
  | .sweepStatus p t b => some ⟨p, t, .sweepStatus, b⟩
  | .tallySet p t b => some ⟨p, t, .tallySet, b⟩
  | .tallyRead p t b => some ⟨p, t, .tallyRead, b⟩
  | .inspect p t b => some ⟨p, t, .inspect, b⟩
  | .batchSubOrder _ => none
  | .heldFrameTaken _ => none
  | .hardResetPerformed _ => none
  | .unknownOrder _ _ _ _ => none
  | .badFrame _ _ _ => none
  | .frameTooLong _ _ => none
  | .frameDiscardedFullLine _ _ _ _ => none
  | .frameDiscardedBatchHold _ _ _ _ _ => none
  | .responseSent _ => none
  | .resetPin => none
  | .powerOn => none
  | .frameMark _ => none
  | .framingLost => none
  | .boundaryClaim _ => none
  | .portBoundary _ => none
  | .portSilent _ => none
  | .firstCellExpiry _ => none
  | .silenceLimit _ => none
  | .silenceRetire _ => none
  | .handoverExpiry _ => none
  | .cellArrival _ _ => none
  | .laneTakesWork _ _ => none
  | .workCompletion _ => none
  | .laneCheck _ => none
  | .contextCheck _ => none
  | .queueCheck _ => none
  | .sweepVisit _ => none
  | .incomingByte _ _ => none
  | .outboundCellSent _ => none
  | .resetPinReleased => none

namespace Machine

/-! ### Taking an order -/

/-- A good frame that completes at port `p` is taken: the reset pin is released, no HARD RESET is ordered there, no
batch stands before it and the response line has room (R163, R166, R177). -/
def State.takes (s : State) (p : Port) : Bool :=
  !s.pinHeld && !(s.port p).resetPending && !s.frameWaits p && !s.lineFull p

/-- The state in which an order with this code finds the part: its frame is complete, the port is back in HUNT, and
renewal has been applied (R162, R163). -/
def State.atOrder (s : State) (p : Port) (code : Byte) : State := (s.setRx p .hunt).renew p code

/-- From `u` to `t` the port's line gained one response and nothing else changed at either port. -/
def Answered (u t : State) (p : Port) (code tag : Byte) (r : Result) (b : RespBody) : Prop :=
  t.port p = { u.port p with line := (u.port p).line ++ [⟨code + 0x80, tag, r, .single b⟩] } ∧
    t.port p.other = u.port p.other

/-- No context but the one at index `i` changed. -/
def OnlyCtx (u t : State) (i : Nat) : Prop := ∀ j, j ≠ i → t.ctx j = u.ctx j

/-- The handle in a body passes checks 3 and 4 (R164). -/
def Named (u : State) (i0 i1 g : Byte) : Prop :=
  le16 i0 i1 ≤ 2047 ∧ (u.ctx (le16 i0 i1)).gen = g ∧ (u.ctx (le16 i0 i1)).state ≠ .free

/-- The handle in a body passes checks 3 to 5 for an order from port `p` (R164). -/
def Owned (u : State) (p : Port) (i0 i1 g : Byte) : Prop := Named u i0 i1 g ∧ (u.ctx (le16 i0 i1)).owner = p

/-! ### The tables -/

/-- Every table is in its canonical form. -/
def State.canonical (s : State) : Bool :=
  s.ctxs.wf ctxDefault && s.slotMap.wf slotDefault && s.streamMap.wf streamDefault && s.profiles.wf profileDefault &&
    s.lanes.wf laneDefault && s.blocks.wf blocksDefault && s.links.wf linkDefault && s.timer.claimed.wf claimDefault

/-- An entry of the stream map, by its number (R30). -/
def State.holdsKey (s : State) (n : Nat) (k : StreamKey) : Prop := ∃ e, s.streamEntry n = some e ∧ e.key = k

/-! ### Vocabulary of single statements -/

/-- A requested index `r` corrected into a permitted set is `v` (R107). -/
def CorrectedTo (set : RateSet) (r v : Nat) : Prop :=
  set.getLsbD v = true ∧
    (r = v ∨ set.getLsbD r = false ∧
      (v < r ∧ (∀ x, set.getLsbD x = true → x < r → x ≤ v) ∨ ∀ x, set.getLsbD x = true → r < x ∧ v ≤ x))

/-- What an accepted cell's rate request field does to the pending request of record `c`, which becomes `d`'s
(R106, R108). -/
def RequestTaken (c d : Ctx) (field : Nat) : Prop :=
  (7 < field → d.request = c.request) ∧
  ∀ set v, field ≤ 7 → c.permitted = some set → CorrectedTo set field v →
    (∀ x, c.request = some ⟨x, .order⟩ → d.request = some ⟨x, .order⟩) ∧
    ((c.request = none ∨ ∃ x, c.request = some ⟨x, .cell⟩) →
      (c.rate = some v → d.request = none) ∧ (c.rate ≠ some v → d.request = some ⟨v, .cell⟩))

/-- A record matches a sweep of port `p` (R151): a candidate, not FREE, and every present criterion met. -/
def SweepMatches (p : Port) (a : SweepAction) (sel : Selector) (c : Ctx) : Prop :=
  (a = .adopt → c.owner = p.other ∧ c.orphaned = true) ∧ (a ≠ .adopt → c.owner = p) ∧ c.state ≠ .free ∧
  (∀ set, sel.states = some set → set.getLsbD c.state.code = true) ∧
  (∀ l, sel.link = some l → ∃ k, c.primary = some k ∧ k.link = l) ∧
  (∀ h, sel.highway = some h → ∃ b, c.slot = some b ∧ b.slot / 32 = h) ∧
  (∀ n, sel.profile = some n → c.profile = some n) ∧
  ∀ n, sel.priority = some n → c.priority = n

/-- The six selector bytes of a SWEEP body spell `sel` (R151, R187): a criterion is present where its presence bit is
set, with its value in range. -/
def SelectorSpelled (pr st li hi pf py : Byte) (sel : Selector) : Prop :=
  pr.toNat < 32 ∧
  (pr.getLsbD 0 = true → st ≠ 0 ∧ st.toNat < 64) ∧ (pr.getLsbD 1 = true → li.toNat ≤ 3) ∧
  (pr.getLsbD 2 = true → hi.toNat ≤ 63) ∧ (pr.getLsbD 3 = true → pf.toNat ≤ 15) ∧ (pr.getLsbD 4 = true → py.toNat ≤ 3) ∧
  sel = ⟨if pr.getLsbD 0 then some (st.setWidth 6) else none, if pr.getLsbD 1 then some li.toNat else none,
    if pr.getLsbD 2 then some hi.toNat else none, if pr.getLsbD 3 then some pf.toNat else none,
    if pr.getLsbD 4 then some py.toNat else none⟩

/-- Row `i` is the claim that completes frame `f` at port `p`: an order's good frame, a good frame with a code that is no
order's, or a spoilt frame, of which the port keeps code and tag (R162, log 24). -/
def CompletesFrame (i : Instr) (p : Port) (f : Frame) : Prop :=
  (∃ o, i.order = some o ∧ o.port = p ∧ f = ⟨true, o.code.byte, o.tag, o.body⟩) ∨
  (∃ code tag body, i = .unknownOrder p code tag body ∧ f = ⟨true, code, tag, body⟩) ∨
  ∃ code tag, i = .badFrame p code tag ∧ f = ⟨false, code, tag, []⟩

/-- From `s` to `t` both tallies took the events `events` in turn, each as one of context `i` under its handle in `s`
(R180, R181). -/
def Counted (s t : State) (i : Nat) (events : List Event) : Prop :=
  t.tally0 = events.foldl (fun y k => y.step k (some ⟨i, (s.ctx i).gen⟩)) s.tally0 ∧
    t.tally1 = events.foldl (fun y k => y.step k (some ⟨i, (s.ctx i).gen⟩)) s.tally1

/-- The bytes of a sub-order in a BATCH body: its code, its body's length and its body (R165). -/
def subOrderBytes (x : Byte × List Byte) : List Byte := x.1 :: (leBytes 2 x.2.length ++ x.2)

/-- The most a batch response takes: its count byte, and for each sub-order four bytes and its code's maximum response
body, which an unknown code does not have (R165). -/
def batchResponseSize (subs : List (Byte × List Byte)) : Nat :=
  1 + (subs.map fun x => 4 + ((OrderCode.ofByte x.1).map OrderCode.maxResponse).getD 0).sum

/-- What the maps, the account, the profiles and the lanes are in `t` after the holdings of context `i` in `u` were
released (R18): its units, its slot with the slot's blocks, its entries of the stream map, its profile reference, its work
in hand; every other entry is as it was. -/
structure HoldingsReleased (u t : State) (i : Nat) : Prop where
  reserved : t.reserved = u.reserved - (if (u.ctx i).converting then u.currentCost i else 0)
  slots : ∀ n, t.slotEntry n = if (u.ctx i).slot.map SlotBinding.slot = some n then none else u.slotEntry n
  blocks : ∀ n, t.block n = if (u.ctx i).slot.map SlotBinding.slot = some n then ⟨none, none, none⟩ else u.block n
  streams : ∀ k n e, ((u.ctx i).primary = some k ∨ (u.ctx i).handover.map Handover.key = some k) →
    u.findStream k = some (n, e) → t.streamEntry n = none
  streams_kept : u.canonical = true → ∀ n,
    (∀ k, (u.ctx i).primary = some k ∨ (u.ctx i).handover.map Handover.key = some k → ¬ u.holdsKey n k) →
    t.streamEntry n = u.streamEntry n
  profiles : ∀ n, t.profile n =
    if (u.ctx i).profile = some n then { u.profile n with refs := (u.profile n).refs - 1 } else u.profile n
  lanes : ∀ n, n < 8 → t.lane n = ⟨(u.lane n).state, (u.lane n).inHand.filter (· ≠ i)⟩

/-- From `s` to `t` context `i` has taken its claim of the last boundary, and nothing else of the timer has changed
(R82). -/
def ClaimTaken (s t : State) (i : Nat) : Prop :=
  t.timer = { s.timer with claimed := t.timer.claimed } ∧ t.claimDue i = false ∧
    ∀ j, j ≠ i → t.claimDue j = s.claimDue j

/-! ### Invariants -/

/-- The bounds of a port (R163, R166): at most 8 responses wait, fewer while a batch is taken, and at most 8 frames
are held; a batch carries no BATCH and no RESET (R165); a port with a HARD RESET ordered takes no batch and its
response is still in the line (R177). -/
def PortState.bounded (x : PortState) : Bool :=
  decide (x.line.length ≤ 8) && decide (x.heldFrames.length ≤ 8) &&
    (x.batch.isNone || decide (x.line.length < 8)) &&
    x.batch.all (fun b => b.todo.all fun y => !barred y.1) &&
    (!x.resetPending || (x.batch.isNone && !x.line.isEmpty))

/-- Both ports are within their bounds. -/
def State.portsBounded (s : State) : Bool := (s.port .a).bounded && (s.port .b).bounded

/-- The available units are 12,000 for each lane in service (R57). -/
def State.availableMatches (s : State) : Prop := s.available = Config.laneUnits * s.lanesInService

/-- The attention queues (R167): an index stands at most once, only in its owner's queue, and exactly while its set is
not empty. -/
def State.queuesMatch (s : State) : Prop :=
  ∀ p, (s.queueOf p).Nodup ∧ ∀ i, i ∈ s.queueOf p ↔ ((s.ctx i).owner = p ∧ (s.ctx i).conds ≠ 0)

/-- What the queues rest on: a FREE context has no pending condition (R18) and no work (R22); no key stands in two
stream map entries, and an entry of role HANDOVER names a context that holds that handover record and is not FREE
(R30). -/
def State.freeIsBare (s : State) : Prop :=
  (∀ i, (s.ctx i).state = .free → (s.ctx i).conds = 0 ∧ (s.ctx i).work = none ∧ (s.ctx i).handover = none) ∧
  (∀ n m k, s.holdsKey n k → s.holdsKey m k → n = m) ∧
  (∀ n e, s.streamEntry n = some e → e.role = .handover →
    (s.ctx e.index).handover.map Handover.key = some e.key)

/-! ### The invariants of the records, the maps and the account -/

/-- Which parts a record holds, by its state: the table of R3, with the ready block and the samples of a work, which
belong to ACTIVE (R22, R87). -/
def Ctx.partsMatch (c : Ctx) : Prop :=
  (c.state = .free ∨ c.state = .closed → c.slot = none ∧ c.primary = none ∧ c.handover = none ∧ c.profile = none) ∧
  (c.state = .armed ∨ c.state = .active ∨ c.state = .held →
    c.slot.isSome = true ∧ c.primary.isSome = true ∧ c.profile.isSome = true) ∧
  c.permitted.isSome = c.profile.isSome ∧ c.rate.isSome = c.profile.isSome ∧
  (c.state ≠ .armed → c.state ≠ .active → c.request = none ∧ c.work = none) ∧
  (c.state ≠ .active →
    c.expected = none ∧ c.queue = [] ∧ c.ready = none ∧ ∀ w, c.work = some w → w.uplink = .noSamples) ∧
  c.firstRemaining.isSome = decide (c.state = .armed) ∧
  c.holdCause.isSome = decide (c.state = .held) ∧ c.heldFrom.isSome = decide (c.state = .held) ∧
  c.retireCause.isSome = decide (c.state = .closed) ∧
  (c.state = .free → c.conds = 0) ∧ (c.state = .closed → c.conds = 0x800#12)

/-- The entries of a playout queue stand in strictly ascending distance from the expected sequence, all within 0..5
(R96); without an expected sequence there is none. -/
def Ctx.queueInWindow (c : Ctx) : Prop :=
  (c.expected = none → c.queue = []) ∧
  ∀ e, c.expected = some e →
    c.queue.Pairwise (fun x y => (x.seq - e).toNat < (y.seq - e).toNat) ∧ ∀ x ∈ c.queue, (x.seq - e).toNat ≤ 5

/-- Every record holds the parts of its state, at an index below 2048, with a priority of 0..3 (R1, R2, R3, R96). -/
def State.recordsMatch (s : State) : Prop :=
  ∀ i, (s.ctx i).partsMatch ∧ (s.ctx i).queueInWindow ∧ (s.ctx i).priority ≤ 3 ∧ (2048 ≤ i → (s.ctx i).state = .free)

/-- A slot map entry names a context exactly when the context's slot binding is that slot (R29). -/
def State.slotsMatch (s : State) : Prop :=
  ∀ n i, s.slotEntry n = some i ↔ (s.ctx i).slot.map SlotBinding.slot = some n

/-- The stream map (R30): no key stands twice; each entry, numbered below 4096, names a context whose primary stream or
handover record holds its key in that role; and every such key has its entry. -/
def State.streamsMatch (s : State) : Prop :=
  (∀ n m k, s.holdsKey n k → s.holdsKey m k → n = m) ∧ (∀ n e, s.streamEntry n = some e → n < 4096) ∧
  (∀ i k, (s.ctx i).primary = some k ↔ ∃ n, s.streamEntry n = some ⟨k, i, .primary⟩) ∧
  ∀ i k, (s.ctx i).handover.map Handover.key = some k ↔ ∃ n, s.streamEntry n = some ⟨k, i, .handover⟩

/-- A profile slot's reference count is the number of contexts that name it (R49). -/
def State.refsMatch (s : State) : Prop :=
  ∀ n, (s.profile n).refs = (s.indicesWhere fun c => c.profile = some n).length

/-- A context's profile is LOADED or FIXED, its permitted set a non-empty set of indices of the table, its current rate
and its pending request in that set (R49, R105); costs ascend along a table (R46). -/
def State.ratesMatch (s : State) : Prop :=
  (∀ n c, s.contents n = some c → c.table.Pairwise fun a b => a.cost < b.cost) ∧
  ∀ i set, (s.ctx i).permitted = some set →
    set ≠ 0 ∧ (∃ c, s.profileOf i = some c ∧ ∀ r, set.getLsbD r = true → r < c.table.length) ∧
    (∀ r, (s.ctx i).rate = some r → set.getLsbD r = true) ∧
    ∀ q, (s.ctx i).request = some q → set.getLsbD q.rate = true

/-- Reserved is the sum of the current-rate costs of the contexts in ARMED and ACTIVE, and at most available (R57). -/
def State.accountMatches (s : State) : Prop :=
  s.reserved = ((s.indicesWhere Ctx.converting).map s.currentCost).sum ∧ s.reserved ≤ s.available

/-- A work in hand is the work of a context, in hand at one lane alone, and at none in OUT_FAULT (R60, R61, R72). -/
def State.lanesMatch (s : State) : Prop :=
  ∀ n i, (s.lane n).inHand = some i →
    n < 8 ∧ (s.ctx i).work.isSome = true ∧ (s.lane n).state ≠ .outFault ∧ ∀ m, (s.lane m).inHand = some i → m = n

/-- A sweep that sets a priority sets one of 0..3 (R150). -/
def State.sweepsMatch (s : State) : Prop := ∀ p n, (s.sweepOf p).action = some (.setPriority n) → n ≤ 3

/-- A context that is not FREE is orphaned exactly when its owner port is SILENT (R172). -/
def State.orphansMatch (s : State) : Prop :=
  ∀ i, (s.ctx i).state ≠ .free → (s.ctx i).orphaned = decide ((s.port (s.ctx i).owner).sup.state = .silent)

/-- The records, the maps, the counts, the account, the lanes and the queues agree with one another. -/
def State.coherent (s : State) : Prop :=
  s.canonical = true ∧ s.recordsMatch ∧ s.slotsMatch ∧ s.streamsMatch ∧ s.refsMatch ∧ s.ratesMatch ∧ s.accountMatches ∧
    s.lanesMatch ∧ s.sweepsMatch ∧ s.queuesMatch

/-! ### The passes over the account -/

/-- The lowest index of a record's permitted set, where its current rate lies above it (R66). -/
def LowersTo (c : Ctx) (q : Nat) : Prop :=
  ∃ set r, c.permitted = some set ∧ c.rate = some r ∧ q < r ∧ set.getLsbD q = true ∧
    ∀ x, set.getLsbD x = true → q ≤ x

/-- A record after a shedding pass: step one lowered its rate to the index `low` gives (R66), step two held it where
`held` says so (R12, R67). -/
def Ctx.afterShedding (c : Ctx) (low : Option Nat) (held : Bool) : Ctx :=
  { c with
    rate := if low.isSome then low else c.rate
    sinceRate := if low.isSome then 0 else c.sinceRate
    request := if low.isSome || held then none else c.request
    state := if held then .held else c.state
    holdCause := if held then some .shed else c.holdCause
    heldFrom := if held then some (if c.state = .armed then .armed else .active) else c.heldFrom
    queue := if held then [] else c.queue
    expected := if held then none else c.expected
    priming := if held then false else c.priming
    firstRemaining := if held then none else c.firstRemaining
    work := if held then none else c.work
    ready := if held then none else c.ready
    conds := c.conds ||| (if low.isSome then 0x08#12 else 0) ||| (if held then 0x80#12 else 0) |||
      (if (low.isSome || held) && fromOrder c.request then 0x10#12 else 0) }

/-- The reserved units once step one has lowered `lowered`, from state `v` (R66). -/
def State.unitsLowered (v : State) (low : Nat → Option Nat) (lowered : List Nat) : Nat :=
  lowered.foldl (fun n i => n + v.costOf i ((low i).getD 0) - v.currentCost i) v.reserved

/-- The reserved units once step two has held `held` after that (R67). -/
def State.unitsHeld (v : State) (low : Nat → Option Nat) (lowered held : List Nat) : Nat :=
  held.foldl (fun n i => n - (if i ∈ lowered then v.costOf i ((low i).getD 0) else v.currentCost i))
    (v.unitsLowered low lowered)

/-- `t` is `v` after the shedding pass (R65 to R67): `order` is the shedding order, `low` the index step one lowers a
context to, `lowered` and `held` the contexts the two steps changed, each a part of the order from its beginning. A
context is lowered, or held, only while reserved still exceeds available; step two begins once every reducible rate is
lowered, and ends when reserved fits or every context of the order is held. -/
structure ShedBy (v t : State) (low : Nat → Option Nat) (order lowered held : List Nat) : Prop where
  members : ∀ i, i ∈ order ↔ (v.ctx i).converting = true
  sorted : order.Pairwise fun i j => (v.ctx j).priority < (v.ctx i).priority ∨
    (v.ctx i).priority = (v.ctx j).priority ∧ j < i
  low_iff : ∀ i q, low i = some q ↔ LowersTo (v.ctx i) q
  lowered_prefix : lowered <+: order.filter fun i => (low i).isSome
  lowered_while : ∀ l i rest, lowered = l ++ i :: rest → v.available < v.unitsLowered low l
  held_prefix : held <+: order
  held_while : ∀ l i rest, held = l ++ i :: rest → v.available < v.unitsHeld low lowered l
  held_after : held ≠ [] → lowered = order.filter fun i => (low i).isSome
  ends : v.unitsHeld low lowered held ≤ v.available ∨ held = order
  reserved : t.reserved = v.unitsHeld low lowered held
  records : ∀ i, t.ctx i = (v.ctx i).afterShedding (if i ∈ lowered then low i else none) (decide (i ∈ held))
  queues : ∀ p, t.queueOf p = v.queueOf p ++ (lowered ++ held.filter (· ∉ lowered)).filter fun i =>
    decide ((v.ctx i).owner = p ∧ (v.ctx i).conds = 0)
  lanes : ∀ n, (t.lane n).state = (v.lane n).state ∧ (n < 8 → (t.lane n).inHand = (v.lane n).inHand.filter (· ∉ held))
  blocks : ∀ n, t.block n = if ∃ i ∈ held, (v.ctx i).slot.map SlotBinding.slot = some n
    then { v.block n with outbound := none } else v.block n
  tally0 : t.tally0 = held.foldl (fun y i => y.step .shed (some (v.handleOf i)))
    (lowered.foldl (fun y i => y.step .rateChange (some (v.handleOf i))) v.tally0)
  tally1 : t.tally1 = held.foldl (fun y i => y.step .shed (some (v.handleOf i)))
    (lowered.foldl (fun y i => y.step .rateChange (some (v.handleOf i))) v.tally1)

/-- `t` is `v` after the readmission pass (R69): `order` is the readmission order, `returned` the contexts of it that
came back, each because its cost fitted when it was considered. -/
structure ReadmittedBy (v t : State) (order returned : List Nat) : Prop where
  members : ∀ i, i ∈ order ↔ (v.ctx i).state = .held ∧ (v.ctx i).holdCause = some .shed
  sorted : order.Pairwise fun i j => (v.ctx i).priority < (v.ctx j).priority ∨
    (v.ctx i).priority = (v.ctx j).priority ∧ i < j
  returned_sublist : returned.Sublist order
  returned_iff : ∀ l i rest, order = l ++ i :: rest → (i ∈ returned ↔
    v.reserved + ((l.filter (· ∈ returned)).map v.currentCost).sum + v.currentCost i ≤ v.available)
  reserved : t.reserved = v.reserved + (returned.map v.currentCost).sum
  left : ∀ i, i ∈ order → i ∉ returned → v.available < t.reserved + v.currentCost i
  records : ∀ i, t.ctx i = if i ∈ returned then
      { v.ctx i with
        state := ((v.ctx i).heldFrom.getD .active).state, holdCause := none, heldFrom := none, silence := 0,
        staleRaised := false,
        firstRemaining := if (v.ctx i).heldFrom = some .armed then some (v.ctx i).firstDeadline else none,
        conds := (v.ctx i).conds ||| 0x100#12 }
    else v.ctx i
  queues : ∀ p, t.queueOf p = v.queueOf p ++ returned.filter fun i =>
    decide ((v.ctx i).owner = p ∧ (v.ctx i).conds = 0)

end Machine

end Sys2Proof
end

