-- ==== Sys2Proof/Certificates/Slice0/Obligations.lean ====
section
/-! DEFINITION. The statements about the part, for the provers. In each order's statement `u` is the state in which
the order is taken: the frame complete, renewal applied (`State.atOrder`). -/

open Sys2Proof Sys2Proof.Machine

/-! ### The command queue -/

/-- A step is the front command's own effect on the state with the queue's rest; with an empty queue nothing happens
(the model's choice, log 1). -/
def Obligations.StepTakesFrontCommand : Prop :=
  (∀ c rest (s : State), step { s with pending := c :: rest } = exec c { s with pending := rest }) ∧
    ∀ s : State, s.pending = [] → step s = .next s

/-- Every command ends in a next state and leaves the queue of waiting commands as it was (the model's choice, log 2);
while the reset pin is held every command but the pin's two and power-on leaves the part as it is (R177, log 16). -/
def Obligations.EveryCommandCompletes : Prop :=
  (∀ c s, ∃ t, exec c s = .next t ∧ t.pending = s.pending) ∧
    ∀ c (s : State), s.pinHeld = true → c ≠ .resetPin → c ≠ .resetPinReleased → c ≠ .powerOn → exec c s = .next s

/-! ### Order ports: frames, renewal, checks -/

/-- Renewal (R171, R172), by the state an order of code `code` finds. -/
def Obligations.GoodFrameRenews : Prop :=
  ∀ (s u : State) (p : Port) code, u = s.atOrder p code →
    ((s.port p).sup.settings.strict = true ∧ code ≠ 0x01 →
      u.port p = { s.port p with rx := .hunt } ∧ u.port p.other = s.port p.other ∧ u = { s with ports := u.ports }) ∧
    (((s.port p).sup.settings.strict = false ∨ code = 0x01) →
      u.port p = { s.port p with rx := .hunt, sup := { (s.port p).sup with state := .live, count := 0 } } ∧
      u = { s with ports := u.ports, ctxs := u.ctxs } ∧
      ((s.port p).sup.state ≠ .silent → u.port p.other = s.port p.other ∧ ∀ i, u.ctx i = s.ctx i) ∧
      ((s.port p).sup.state = .silent →
        u.port p.other = { s.port p.other with conds := (s.port p.other).conds ||| 0x20#6 } ∧
        ∀ i, u.ctx i =
          if (s.ctx i).state ≠ .free ∧ (s.ctx i).owner = p then { s.ctx i with orphaned := false } else s.ctx i))

/-- What an order's row does: the claim of its good frame (`goodFrame`), which where the port takes it is renewal, the
order its code names (`takeOrder`) and its response in the port's line (R163); a code is taken as its order (`takeCode`), or
refused UNKNOWN_ORDER (R164). A refused order changes nothing but the two tallies' counts, and is answered (R164). -/
def Obligations.RefusedOrdersChangeNothing : Prop :=
  (∀ i f (s : State), i.order = some f → s.pinHeld = false →
    exec i s = .next (goodFrame f.port f.code.byte f.tag f.body s)) ∧
  (∀ i f (s : State) (u : State), i.order = some f → f.code ≠ .batch → s.takes f.port = true →
    u = s.atOrder f.port f.code.byte →
    exec i s = .next (respond f.port f.code.byte f.tag (takeOrder f.port f.code f.body u))) ∧
  (∀ (p : Port) code body (s : State),
    (∀ c, OrderCode.ofByte code = some c → takeCode p code body s = takeOrder p c body s) ∧
    (OrderCode.ofByte code = none → takeCode p code body s = ⟨.unknownOrder, .nothing, s⟩)) ∧
  ∀ i f (s : State) (u : State), i.order = some f → f.code ≠ .batch → s.takes f.port = true → u = s.atOrder f.port f.code.byte →
    (takeOrder f.port f.code f.body u).result ≠ .ok →
    ∃ t, exec i s = .next t ∧
      Answered u t f.port f.code.byte f.tag (takeOrder f.port f.code f.body u).result
        (takeOrder f.port f.code f.body u).body ∧
      t = { u with ports := t.ports, tally0 := { u.tally0 with count := t.tally0.count },
                   tally1 := { u.tally1 with count := t.tally1.count } }

/-- The orders whose body is a handle alone: checks 3 to 5 in their sequence, QUERY and ADOPT with checks 3 and 4 alone;
an order refused by one of them changes nothing (R164, R9, R174). -/
def Obligations.HandleChecksInSequence : Prop :=
  ∀ i f (s : State) (u : State) i0 i1 g, i.order = some f → f.body = [i0, i1, g] →
    f.code ∈ [.retire, .query, .adopt, .arm, .hold, .resume, .unbindSlot, .unbindStream, .handoverCommit,
      .handoverCancel] →
    s.takes f.port = true → u = s.atOrder f.port f.code.byte →
    ∃ t, exec i s = .next t ∧
      (2047 < le16 i0 i1 →
        Answered u t f.port f.code.byte f.tag .badField .nothing ∧ t = { u with ports := t.ports }) ∧
      (le16 i0 i1 ≤ 2047 → ((u.ctx (le16 i0 i1)).gen ≠ g ∨ (u.ctx (le16 i0 i1)).state = .free) →
        Answered u t f.port f.code.byte f.tag .staleHandle .nothing ∧ t = { u with ports := t.ports }) ∧
      (f.code ≠ .query → f.code ≠ .adopt → Named u i0 i1 g → (u.ctx (le16 i0 i1)).owner ≠ f.port →
        Answered u t f.port f.code.byte f.tag .notOwner .nothing ∧ t = { u with ports := t.ports })

/-- Frames without an order. A good frame with a code that is no order renews and is answered UNKNOWN_ORDER; a frame
whose checksum fails is answered BAD_FRAME with the received code and tag, without renewal; a frame too long, a frame at
a full line, good or spoilt, and a frame behind 8 held ones are dropped without an answer. A frame that completes while a
batch is taken, or frames it held wait, joins the end of the held frames, up to 8, and nothing else changes; an order's
frame too (R162, R163, R164, R166). The model's choices: a frame behind held frames is held as one behind the batch is
(log 13), a spoilt frame is held without its body (log 24), and a frame too long leaves the port in HUNT at once (log 32). -/
def Obligations.FramesWithoutAnOrder : Prop :=
  (∀ (p : Port) code tag body (s : State) (u : State), OrderCode.ofByte code = none → s.takes p = true → u = s.atOrder p code →
      ∃ t, exec (.unknownOrder p code tag body) s = .next t ∧ Answered u t p code tag .unknownOrder .nothing ∧
        t = { u with ports := t.ports }) ∧
  (∀ (p : Port) code tag (s : State), s.takes p = true →
    ∃ t, exec (.badFrame p code tag) s = .next t ∧ t = { s with ports := t.ports } ∧
      t.port p = { s.port p with rx := .hunt, line := (s.port p).line ++ [⟨code + 0x80, tag, .badFrame, .single .nothing⟩] } ∧
      t.port p.other = s.port p.other) ∧
  (∀ (p : Port) n (s : State), 1020 < n → s.pinHeld = false → (s.port p).resetPending = false →
    exec (.frameTooLong p n) s = .next (s.setPort p { s.port p with rx := .hunt })) ∧
  (∀ (p : Port) code tag body (s : State), s.pinHeld = false → (s.port p).resetPending = false → s.frameWaits p = false →
    8 ≤ (s.port p).line.length →
    exec (.frameDiscardedFullLine p code tag body) s = .next (s.setPort p { s.port p with rx := .hunt })) ∧
  (∀ (p : Port) good code tag body (s : State), s.pinHeld = false → (s.port p).resetPending = false →
    8 ≤ (s.port p).heldFrames.length →
    exec (.frameDiscardedBatchHold p good code tag body) s = .next (s.setPort p { s.port p with rx := .hunt })) ∧
  ∀ (i : Instr) (p : Port) f (s : State), CompletesFrame i p f → s.pinHeld = false → (s.port p).resetPending = false →
    (s.frameWaits p = true → (s.port p).heldFrames.length < 8 →
      exec i s = .next (s.setPort p { s.port p with rx := .hunt, heldFrames := (s.port p).heldFrames ++ [f] })) ∧
    (s.frameWaits p = true → 8 ≤ (s.port p).heldFrames.length →
      exec i s = .next (s.setPort p { s.port p with rx := .hunt })) ∧
    (s.frameWaits p = false → 8 ≤ (s.port p).line.length →
      exec i s = .next (s.setPort p { s.port p with rx := .hunt }))

/-- The receive phases. The bytes of an order frame, one INCOMING_BYTE each from HUNT, do what the completed frame does,
the good one or, where they carry another checksum, the spoilt one; in HUNT a byte other than 5Ah is skipped; a length
above 1020 returns the port to HUNT (R162, R187). That it does so in the claim of the second length byte, and not in that
of the next byte, is the model's choice (log 32). -/
def Obligations.IncomingBytesMakeTheFrame : Prop :=
  (∀ (p : Port) code tag body rest (s : State), body.length ≤ 1020 → s.pinHeld = false → (s.port p).resetPending = false →
    (s.port p).rx = .hunt →
    Host.Core.run core (orderBytes code tag body).length
        { s with pending := (orderBytes code tag body).map (Instr.incomingByte p) ++ rest } =
      .next (goodFrame p code tag body { s with pending := rest })) ∧
  (∀ (p : Port) code tag body sum rest (s : State), body.length ≤ 1020 → sum < 65536 →
    sum ≠ checksum (orderSummed code tag body) → s.pinHeld = false → (s.port p).resetPending = false →
    (s.port p).rx = .hunt →
    Host.Core.run core (orderBytesWith code tag body sum).length
        { s with pending := (orderBytesWith code tag body sum).map (Instr.incomingByte p) ++ rest } =
      .next (spoiltFrame p code tag { s with pending := rest })) ∧
  ∀ (p : Port) b (s : State), s.pinHeld = false → (s.port p).resetPending = false →
    ((s.port p).rx = .hunt → b ≠ 0x5A → exec (.incomingByte p b) s = .next s) ∧
    ((s.port p).rx = .hunt → b = 0x5A →
      exec (.incomingByte p b) s = .next (s.setPort p { s.port p with rx := .lengthField none })) ∧
    ((s.port p).rx = .lengthField none →
      exec (.incomingByte p b) s = .next (s.setPort p { s.port p with rx := .lengthField (some b) })) ∧
    (∀ low : Byte, (s.port p).rx = .lengthField (some low) → 1020 < low.toNat + 256 * b.toNat →
      exec (.incomingByte p b) s = .next (s.setPort p { s.port p with rx := .hunt })) ∧
    (∀ low : Byte, (s.port p).rx = .lengthField (some low) → low.toNat + 256 * b.toNat ≤ 1020 →
      exec (.incomingByte p b) s =
        .next (s.setPort p { s.port p with rx := .frame (low.toNat + 256 * b.toNat) [low, b] }))

/-! ### Batches -/

/-- The intake of a BATCH (R165, R166). A frame written from its sub-orders passes: the port's batch is those sub-orders
in their order, nothing is answered yet and nothing else changes. A body that no such sub-orders account for, or whose
response could exceed 1020 bytes, is refused BAD_LENGTH; then a flag above 1, a count of 0 or above 16 and a sub-order
with code 04h or 05h are refused BAD_FIELD; a refused BATCH takes none of its sub-orders. That a BATCH within a BATCH
counts with its own maximum of 1020 bytes, and so fails the size test first, is the model's reading (log 14). -/
def Obligations.BatchIntakeKeepsSubOrders : Prop :=
  (∀ (p : Port) tag stop (subs : List (Byte × List Byte)) (s : State) (u : State), s.takes p = true → u = s.atOrder p 0x04 →
    1 ≤ subs.length → subs.length ≤ 16 → (∀ x ∈ subs, x.2.length ≤ 1020 ∧ x.1 ≠ 0x04 ∧ x.1 ≠ 0x05) →
    1 + (subs.map fun x => 4 + ((OrderCode.ofByte x.1).map OrderCode.maxResponse).getD 0).sum ≤ 1020 →
    ∃ t, exec (.batch p tag (flagByte stop :: byteOf subs.length ::
        subs.flatMap fun x => x.1 :: (leBytes 2 x.2.length ++ x.2))) s = .next t ∧
      t = { u with ports := t.ports } ∧ t.port p = { u.port p with batch := some ⟨tag, stop, subs, []⟩ } ∧
      t.port p.other = u.port p.other) ∧
  ∀ (p : Port) tag body (s : State) (u : State), s.takes p = true → u = s.atOrder p 0x04 →
    (body.length < 2 →
      ∃ t, exec (.batch p tag body) s = .next t ∧ Answered u t p 0x04 tag .badLength .nothing ∧
        t = { u with ports := t.ports }) ∧
    (∀ f n rest, body = f :: n :: rest →
      (∀ subs : List (Byte × List Byte), (∀ x ∈ subs, x.2.length < 65536) → subs.length = n.toNat →
        rest ≠ subs.flatMap subOrderBytes) →
      ∃ t, exec (.batch p tag body) s = .next t ∧ Answered u t p 0x04 tag .badLength .nothing ∧
        t = { u with ports := t.ports }) ∧
    ∀ (f n : Byte) (subs : List (Byte × List Byte)), body = f :: n :: subs.flatMap subOrderBytes →
      (∀ x ∈ subs, x.2.length < 65536) → subs.length = n.toNat →
      (1020 < batchResponseSize subs →
        ∃ t, exec (.batch p tag body) s = .next t ∧ Answered u t p 0x04 tag .badLength .nothing ∧
          t = { u with ports := t.ports }) ∧
      (batchResponseSize subs ≤ 1020 →
        (1 < f.toNat ∨ n = 0 ∨ 16 < n.toNat ∨ ∃ x ∈ subs, x.1 = 0x04 ∨ x.1 = 0x05) →
        ∃ t, exec (.batch p tag body) s = .next t ∧ Answered u t p 0x04 tag .badField .nothing ∧
          t = { u with ports := t.ports })

/-- A sub-order is taken as an order of its own. A refusal under stop-on-refusal ends the batch with the later
sub-orders SKIPPED; the last one ends it; else it goes on. Once the batch response is formed the first held frame is
taken: a good one renews and its order, or its batch, is taken, a spoilt one is answered BAD_FRAME, and at a full line it
is dropped (R166). That the batch response joins the line in the claim of the last sub-order or of the one that stops the
batch, and that held frames are taken one per HELD_FRAME_TAKEN, is the model's reading (log 13). -/
def Obligations.SubOrdersThenHeldFrames : Prop :=
  (∀ (p : Port) b code body rest (s : State) r, s.pinHeld = false → (s.port p).batch = some b → b.todo = (code, body) :: rest →
    r = takeCode p code body s →
    ∃ t, exec (.batchSubOrder p) s = .next t ∧ t = { r.after with ports := t.ports } ∧
      t.port p.other = r.after.port p.other ∧
      (b.stopOnRefusal = true ∧ r.result ≠ .ok →
        t.port p = { r.after.port p with
          batch := none
          line := (r.after.port p).line ++ [⟨0x84, b.tag, .ok,
            .batch (b.done ++ ⟨code, r.result, r.body⟩ :: rest.map fun x => ⟨x.1, .skipped, .nothing⟩)⟩] }) ∧
      ((b.stopOnRefusal = false ∨ r.result = .ok) → rest = [] →
        t.port p = { r.after.port p with
          batch := none
          line := (r.after.port p).line ++ [⟨0x84, b.tag, .ok, .batch (b.done ++ [⟨code, r.result, r.body⟩])⟩] }) ∧
      ((b.stopOnRefusal = false ∨ r.result = .ok) → rest ≠ [] →
        t.port p = { r.after.port p with
          batch := some { b with todo := rest, done := b.done ++ [⟨code, r.result, r.body⟩] } })) ∧
  (∀ (p : Port) f rest (s : State) v, s.pinHeld = false → (s.port p).batch = none → (s.port p).resetPending = false →
    (s.port p).heldFrames = f :: rest → v = s.setPort p { s.port p with heldFrames := rest } →
    (8 ≤ (s.port p).line.length → exec (.heldFrameTaken p) s = .next v) ∧
    ((s.port p).line.length < 8 → f.good = true → f.code ≠ 0x04 →
      exec (.heldFrameTaken p) s =
        .next (respond p f.code f.tag (takeCode p f.code f.body (v.renew p f.code)))) ∧
    ((s.port p).line.length < 8 → f.good = true → f.code = 0x04 →
      exec (.heldFrameTaken p) s = .next (takeBatch p f.tag f.body (v.renew p 0x04))) ∧
    ((s.port p).line.length < 8 → f.good = false →
      exec (.heldFrameTaken p) s =
        .next (v.setPort p { v.port p with line := (v.port p).line ++ [⟨f.code + 0x80, f.tag, .badFrame, .single .nothing⟩] })))

/-! ### Reset -/

/-- The part right after power-on; the pin and power-on take every block there, and the pin's release changes only the
pin (R2, R24, R43, R48, R56, R78, R83, R104, R161, R177, R178, R184). What outlives them, the queue and the counter of
free values, is the model's choice (log 8, log 16); so is the emptiness of the kernel's description and history (log 9),
and the priority 2 of a record at power-on is its reading (log 17). -/
def Obligations.PowerOnState : Prop :=
  (∀ i, State.reset.ctx i = Ctx.reset ∧ State.reset.ctx i =
    { gen := 0, state := .free, holdCause := none, heldFrom := none, retireCause := none, owner := .a,
      orphaned := false, priority := 2, slot := none, primary := none, handover := none,
      profile := none, permitted := none, rate := none, request := none, sinceRate := 0, outSeq := 0, expected := none,
      queue := [], priming := false, depth := 2, firstDeadline := 250, firstRemaining := none, silenceLimit := 50,
      silence := 0, staleRaised := false, autoRetire := false, gainLand := 0, gainMobile := 0,
      rounding := .deviceDefault, clipReport := false, counters := ⟨0, 0, 0, 0, 0, 0, 0, 0⟩, conds := 0, work := none,
      ready := none, noise := none, history := 0 }) ∧
  (∀ n, State.reset.slotEntry n = none ∧ State.reset.streamEntry n = none ∧ State.reset.block n = ⟨none, none, none⟩ ∧
    State.reset.link n = [] ∧ State.reset.lane n = ⟨.inService, none⟩) ∧
  (∀ n, (State.reset.profile n).refs = 0 ∧ (3 < n → (State.reset.profile n).state = .vacant) ∧
    (n ≤ 3 → ∃ c, (State.reset.profile n).state = .fixed c)) ∧
  (State.reset.profile 0).state =
    .fixed ⟨.narrowMulti, [⟨12, 34⟩, ⟨15, 36⟩, ⟨18, 39⟩, ⟨22, 42⟩, ⟨26, 45⟩, ⟨31, 48⟩], 5, 2, 0⟩ ∧
  (State.reset.profile 1).state = .fixed ⟨.narrowSingle, [⟨33, 30⟩], 0, 0, 0⟩ ∧
  (State.reset.profile 2).state =
    .fixed ⟨.wideMulti, [⟨17, 70⟩, ⟨23, 74⟩, ⟨29, 79⟩, ⟨36, 84⟩, ⟨45, 90⟩], 2, 4, 0⟩ ∧
  (State.reset.profile 3).state = .fixed ⟨.narrowMulti, [⟨12, 34⟩, ⟨18, 39⟩, ⟨26, 45⟩], 1, 2, 0⟩ ∧
  State.reset.available = 96000 ∧ State.reset.reserved = 0 ∧ State.reset.capture = ⟨none, false⟩ ∧
  State.reset.timer.frame = none ∧ State.reset.timer.period = 0 ∧ State.reset.defaultRound = .nearestEven ∧
  (∀ (p : Port), State.reset.queueOf p = [] ∧
    State.reset.sweepOf p = ⟨.idle, none, none, none, 0, 0, 0, 0, 0, 0, none, .none⟩ ∧
    (State.reset.port p).rx = .hunt ∧ (State.reset.port p).line = [] ∧ (State.reset.port p).conds = 0 ∧
    (State.reset.port p).sup = ⟨.initial, 0, ⟨true, false, 3000, 250⟩⟩) ∧
  State.reset.tally0 = ⟨false, .cellIn, none, 0⟩ ∧ State.reset.tally1 = ⟨false, .cellIn, none, 0⟩ ∧
  State.reset.pending = [] ∧
  ∀ s : State,
    exec .resetPin s = .next { State.reset with pinHeld := true, pending := s.pending, freeCount := s.freeCount } ∧
    exec .powerOn s = .next { State.reset with pinHeld := s.pinHeld, pending := s.pending, freeCount := s.freeCount } ∧
    exec .resetPinReleased s = .next { s with pinHeld := false }

/-- RESET HARD is answered first, with an empty body, and its port then takes no frame; the responses leave the line
one by one, and when the last byte of that response has left the part takes its power-on state, in RESPONSE_SENT and
HARD_RESET_PERFORMED alike (R163, R177). That the two are one claim, and that a frame after the order leaves the port as
it is, its receive phase too, is the model's reading (log 12); that the queue of commands and the counter of free values
outlive the reset is its choice (log 16). -/
def Obligations.HardResetAfterItsResponse : Prop :=
  (∀ (p : Port) tag (s : State) (u : State), s.takes p = true → u = s.atOrder p 0x05 →
    ∃ t, exec (.resetHard p tag) s = .next t ∧ t = { u with ports := t.ports } ∧ t.port p.other = u.port p.other ∧
      t.port p = { u.port p with
        resetPending := true, line := (u.port p).line ++ [⟨0x85, tag, .ok, .single .nothing⟩] }) ∧
  (∀ i f (s : State), i.order = some f → (s.port f.port).resetPending = true → exec i s = .next s) ∧
  (∀ (p : Port) r rest (s : State), s.pinHeld = false → (s.port p).line = r :: rest →
    (((s.port p).resetPending = false ∨ rest ≠ []) →
      exec (.responseSent p) s = .next (s.setPort p { s.port p with line := rest })) ∧
    ((s.port p).resetPending = true → rest = [] →
      exec (.responseSent p) s = .next { State.reset with pending := s.pending, freeCount := s.freeCount } ∧
      exec (.hardResetPerformed p) s = .next { State.reset with pending := s.pending, freeCount := s.freeCount }))

/-- RESET SOFT takes every context to FREE, released as R18 says and its generation advanced, and answers with the number
it took there; the reserved units, the reference counts and the works in hand at the lanes end with them. It keeps lanes,
framing, tallies, profiles' contents, links and receive phases (R25, R43, R56, R79, R83, R161, R177, R179, R184). The
premise `coherent` is an invariant that AttentionQueuesKept states. -/
def Obligations.SoftResetFreesEveryContext : Prop :=
  ∀ (p : Port) tag (s : State) (u : State), s.takes p = true → s.coherent → u = s.atOrder p 0x05 →
    ∃ t, exec (.resetSoft p tag) s = .next t ∧
      (∀ i, (t.ctx i).state = .free ∧ (t.ctx i).conds = 0 ∧ (t.ctx i).work = none ∧
        (t.ctx i).gen = if (u.ctx i).state = .free then (u.ctx i).gen else (u.ctx i).gen + 1) ∧
      (∀ i, (u.ctx i).state = .free → t.ctx i = u.ctx i) ∧
      (∀ i, (u.ctx i).state ≠ .free → t.ctx i = { u.ctx i with
        state := .free, gen := (u.ctx i).gen + 1, conds := 0, slot := none, primary := none, handover := none,
        profile := none, permitted := none, rate := none, request := none, expected := none, queue := [],
        firstRemaining := none, holdCause := none, heldFrom := none, retireCause := none, work := none, ready := none }) ∧
      (∃ live : List Nat, live.Nodup ∧ (∀ i, i ∈ live ↔ (u.ctx i).state ≠ .free) ∧
        t.port p = { u.port p with
          conds := 0, line := (u.port p).line ++ [⟨0x85, tag, .ok, .single (.freed live.length)⟩] } ∧
        t.port p.other = { u.port p.other with conds := 0 }) ∧
      t.reserved = 0 ∧ (∀ n, t.profile n = ⟨(u.profile n).state, 0⟩) ∧
      (∀ n, n < 8 → t.lane n = ⟨(u.lane n).state, none⟩) ∧
      (∀ n, t.slotEntry n = none ∧ t.streamEntry n = none ∧ t.block n = ⟨none, none, none⟩ ∧
        (t.profile n).state = (u.profile n).state ∧ (t.lane n).state = (u.lane n).state) ∧
      (∀ q, t.queueOf q = [] ∧ (t.port q).conds = 0 ∧ (t.port q).sup = (u.port q).sup ∧ (t.port q).rx = (u.port q).rx ∧
        t.sweepOf q = { u.sweepOf q with state := .idle, stopReason := .reset }) ∧
      t.available = u.available ∧ t.capture = u.capture ∧ t.timer = u.timer ∧ t.links = u.links ∧
      t.defaultRound = u.defaultRound ∧ t.tally0 = u.tally0 ∧ t.tally1 = u.tally1 ∧
      t = { u with
        ctxs := t.ctxs, slotMap := t.slotMap, streamMap := t.streamMap, profiles := t.profiles, reserved := t.reserved,
        lanes := t.lanes, blocks := t.blocks, sweeps := t.sweeps, attention := t.attention, ports := t.ports }

/-! ### Contexts -/

/-- OPEN takes the lowest FREE record into OPEN at the "At OPEN" values, its generation kept, and returns its handle
(R2, R8); with none FREE it is refused NO_CONTEXT. That the kernel's description and history, which R2 does not list, are
empty at OPEN too is the model's choice (log 9). -/
def Obligations.OpenTakesLowestFree : Prop :=
  ∀ (p : Port) tag b priority (s : State) (u : State), s.takes p = true → u = s.atOrder p 0x10 →
    (b.toNat ≤ 3 ∧ priority = b.toNat ∨ b = 0xFF ∧ priority = 2) →
    (∀ i, i < 2048 → (u.ctx i).state = .free → (∀ j, j < i → (u.ctx j).state ≠ .free) →
      ∃ t, exec (.openContext p tag [b]) s = .next t ∧
        t.ctx i = {
          gen := (u.ctx i).gen, state := .opened, holdCause := none, heldFrom := none, retireCause := none, owner := p,
          orphaned := decide ((u.port p).sup.state = .silent), priority := priority, slot := none, primary := none, handover := none,
          profile := none, permitted := none, rate := none, request := none, sinceRate := 0, outSeq := 0, expected := none,
          queue := [], priming := false, depth := 2, firstDeadline := 250, firstRemaining := none, silenceLimit := 50,
          silence := 0, staleRaised := false, autoRetire := false, gainLand := 0, gainMobile := 0,
          rounding := .deviceDefault, clipReport := false, counters := ⟨0, 0, 0, 0, 0, 0, 0, 0⟩, conds := 0, work := none,
          ready := none, noise := none, history := 0 } ∧
        OnlyCtx u t i ∧ Answered u t p 0x10 tag .ok (.handle ⟨i, (u.ctx i).gen⟩) ∧
        t = { u with ctxs := t.ctxs, ports := t.ports }) ∧
    ((∀ i, i < 2048 → (u.ctx i).state ≠ .free) →
      ∃ t, exec (.openContext p tag [b]) s = .next t ∧ Answered u t p 0x10 tag .noContext .nothing ∧
        t = { u with ports := t.ports })

/-- RETIRE releases all a context holds, and no other entry (`HoldingsReleased`); it empties its pending set, advances its
generation and counts one RETIRE event under the old handle (R18, R19, R4, R22, R27, R30). -/
def Obligations.RetireReleasesEverything : Prop :=
  ∀ (p : Port) tag i0 i1 g (s : State) (u : State) i, s.takes p = true → u = s.atOrder p 0x11 → Owned u p i0 i1 g → i = le16 i0 i1 →
    ∃ t, exec (.retire p tag [i0, i1, g]) s = .next t ∧
      t.ctx i = { u.ctx i with
        state := .free, gen := g + 1, conds := 0, slot := none, primary := none, handover := none, profile := none,
        permitted := none, rate := none, request := none, expected := none, queue := [], firstRemaining := none,
        holdCause := none, heldFrom := none, retireCause := none, work := none, ready := none } ∧
      OnlyCtx u t i ∧ Answered u t p 0x11 tag .ok (.state (u.ctx i).state) ∧ HoldingsReleased u t i ∧
      (∀ q, t.queueOf q = if q = p then (u.queueOf p).filter (· ≠ i) else u.queueOf q) ∧
      t.tally0 = u.tally0.step .retire (some ⟨i, g⟩) ∧ t.tally1 = u.tally1.step .retire (some ⟨i, g⟩) ∧
      t = { u with
        ctxs := t.ctxs, reserved := t.reserved, attention := t.attention, slotMap := t.slotMap, blocks := t.blocks,
        streamMap := t.streamMap, profiles := t.profiles, lanes := t.lanes, tally0 := t.tally0, tally1 := t.tally1,
        ports := t.ports }

/-- The orders that only read are answered and change nothing: QUERY, PROFILE_READ, SWEEP_STATUS, TALLY_READ,
KEEPALIVE; FAULT_READ also clears the capture record (R9, R52, R159, R183, R176, R76). -/
def Obligations.ReadingOrders : Prop :=
  ∀ (p : Port) tag (s : State), s.takes p = true →
    (∀ i0 i1 g (u : State), u = s.atOrder p 0x12 → Named u i0 i1 g →
      ∃ t, exec (.query p tag [i0, i1, g]) s = .next t ∧ t = { u with ports := t.ports } ∧
        Answered u t p 0x12 tag .ok (.query (u.report (le16 i0 i1)))) ∧
    (∀ n (u : State), u = s.atOrder p 0x32 → n.toNat ≤ 15 →
      ∃ t, exec (.profileRead p tag [n]) s = .next t ∧ t = { u with ports := t.ports } ∧
        Answered u t p 0x32 tag .ok (.profile (u.profile n.toNat))) ∧
    (∀ q n (u : State), u = s.atOrder p 0x63 → (q = .a ∧ n = 0 ∨ q = .b ∧ n = 1) →
      ∃ t, exec (.sweepStatus p tag [n]) s = .next t ∧ t = { u with ports := t.ports } ∧
        Answered u t p 0x63 tag .ok (.sweep (u.sweepOf q))) ∧
    (∀ (u : State), u = s.atOrder p 0x71 →
      ∃ t, exec (.tallyRead p tag []) s = .next t ∧ t = { u with ports := t.ports } ∧
        Answered u t p 0x71 tag .ok (.tallies u.tally0 u.tally1)) ∧
    (∀ (u : State), u = s.atOrder p 0x01 →
      ∃ t, exec (.keepalive p tag []) s = .next t ∧ t = { u with ports := t.ports } ∧
        Answered u t p 0x01 tag .ok (.keepalive u.timer.period (u.port .a).sup.state (u.port .a).sup.count
          (u.port .b).sup.state (u.port .b).sup.count u.lanesInService u.available u.reserved u.freeContexts)) ∧
    (∀ u, u = s.atOrder p 0x59 →
      ∃ t, exec (.faultRead p tag []) s = .next t ∧ t = { u with capture := ⟨none, false⟩, ports := t.ports } ∧
        Answered u t p 0x59 tag .ok (.faults u.capture ((List.range 8).map fun n => (u.lane n).state)))

/-- INSPECT of each array returns the entry as it stands, in any state of it, and changes nothing; an index outside
the array's own range, or an array above 7, is refused BAD_FIELD (R185, R186). The clause for array 7, PORT, is the model's
choice in what it shows of the port that issues the INSPECT: the responses in its line are counted before the INSPECT's own
response joins it, and its receive phase is HUNT, its frame being complete (log 30). -/
def Obligations.InspectReadsOneEntry : Prop :=
  ∀ (p : Port) tag a i0 i1 (s : State) (u : State) i, s.takes p = true → u = s.atOrder p 0x72 → i = le16 i0 i1 →
    ∃ t, exec (.inspect p tag [a, i0, i1]) s = .next t ∧ t = { u with ports := t.ports } ∧
      (a = 0 → i < 2048 → Answered u t p 0x72 tag .ok
        (.inspectContext (u.report i) (u.ctx i).work.isSome (u.ctx i).ready.isSome)) ∧
      (a = 1 → i < 2048 → Answered u t p 0x72 tag .ok (.inspectSlot (u.slotEntry i))) ∧
      (a = 2 → i < 4096 → Answered u t p 0x72 tag .ok (.inspectStream (u.streamEntry i))) ∧
      (a = 3 → i < 16 → Answered u t p 0x72 tag .ok (.profile (u.profile i))) ∧
      (a = 4 → i < 2048 → Answered u t p 0x72 tag .ok
        (.inspectPlayout (u.ctx i).expected (u.ctx i).priming (u.ctx i).depth
          ((u.ctx i).queue.map fun x => (x.seq, x.kind, x.rate)))) ∧
      (a = 5 → i < 2 → Answered u t p 0x72 tag .ok (.sweep (u.sweepOf (if i = 0 then .a else .b)))) ∧
      (a = 6 → i < 8 → Answered u t p 0x72 tag .ok
        (.inspectLane (u.lane i).state ((u.lane i).inHand.map fun j => ⟨j, (u.ctx j).gen⟩))) ∧
      (a = 7 → i < 2 → Answered u t p 0x72 tag .ok (u.inspectPort (if i = 0 then .a else .b))) ∧
      ([2048, 2048, 4096, 16, 2048, 2, 8, 2].getD a.toNat 0 ≤ i → Answered u t p 0x72 tag .badField .nothing)

/-- Admissions. ARM of a complete OPEN context and RESUME of a held one, whose cost fits, reserve the cost and leave the
context converting, its counts started; where the cost does not fit they are refused NO_CAPACITY, ADMIT_REFUSED is counted
and nothing else changes. In another state both are refused WRONG_STATE, and an OPEN context that lacks its slot, its
primary stream or its profile is refused INCOMPLETE (R10, R14, R15, R58). -/
def Obligations.AdmissionReservesTheCost : Prop :=
  (∀ (p : Port) tag i0 i1 g (s : State) (u : State) i n r c e, s.takes p = true → u = s.atOrder p 0x13 → Owned u p i0 i1 g → i = le16 i0 i1 →
    (u.ctx i).state = .opened → (u.ctx i).slot.isSome = true → (u.ctx i).primary.isSome = true →
    (u.ctx i).profile = some n → (u.ctx i).rate = some r → u.contents n = some c → c.table[r]? = some e →
    u.reserved + e.cost ≤ u.available →
    ∃ t, exec (.arm p tag [i0, i1, g]) s = .next t ∧
      t.ctx i = { u.ctx i with
        state := .armed, outSeq := 0, expected := none, queue := [], priming := false,
        firstRemaining := some (u.ctx i).firstDeadline, silence := 0, staleRaised := false, sinceRate := 0,
        noise := none, history := 0 } ∧
      OnlyCtx u t i ∧ t.reserved = u.reserved + e.cost ∧ Answered u t p 0x13 tag .ok (.rateUnits r e.cost) ∧
      t = { u with ctxs := t.ctxs, reserved := t.reserved, ports := t.ports }) ∧
  (∀ (p : Port) tag i0 i1 g (s : State) (u : State) i h, s.takes p = true → u = s.atOrder p 0x15 → Owned u p i0 i1 g → i = le16 i0 i1 →
    (u.ctx i).state = .held → (u.ctx i).heldFrom = some h → u.reserved + u.currentCost i ≤ u.available →
    ∃ t, exec (.resume p tag [i0, i1, g]) s = .next t ∧
      t.ctx i = { u.ctx i with
        state := h.state, holdCause := none, heldFrom := none, silence := 0, staleRaised := false,
        firstRemaining := if h = .armed then some (u.ctx i).firstDeadline else none } ∧
      OnlyCtx u t i ∧ t.reserved = u.reserved + u.currentCost i ∧
      Answered u t p 0x15 tag .ok (.stateUnits h.state (u.currentCost i)) ∧
      t = { u with ctxs := t.ctxs, reserved := t.reserved, ports := t.ports }) ∧
  (∀ (p : Port) tag i0 i1 g (s : State) (u : State) i, s.takes p = true → u = s.atOrder p 0x13 → Owned u p i0 i1 g →
    i = le16 i0 i1 →
    ((u.ctx i).state ≠ .opened →
      ∃ t, exec (.arm p tag [i0, i1, g]) s = .next t ∧ Answered u t p 0x13 tag .wrongState .nothing ∧
        t = { u with ports := t.ports }) ∧
    ((u.ctx i).state = .opened → ((u.ctx i).slot = none ∨ (u.ctx i).primary = none ∨ (u.ctx i).profile = none) →
      ∃ t, exec (.arm p tag [i0, i1, g]) s = .next t ∧ Answered u t p 0x13 tag .incomplete .nothing ∧
        t = { u with ports := t.ports }) ∧
    (∀ n r c e, (u.ctx i).state = .opened → (u.ctx i).slot.isSome = true → (u.ctx i).primary.isSome = true →
      (u.ctx i).profile = some n → (u.ctx i).rate = some r → u.contents n = some c → c.table[r]? = some e →
      u.available < u.reserved + e.cost →
      ∃ t, exec (.arm p tag [i0, i1, g]) s = .next t ∧ Answered u t p 0x13 tag .noCapacity .nothing ∧
        t = { u with
          ports := t.ports, tally0 := u.tally0.step .admitRefused (some ⟨i, g⟩),
          tally1 := u.tally1.step .admitRefused (some ⟨i, g⟩) })) ∧
  (∀ (p : Port) tag i0 i1 g (s : State) (u : State) i, s.takes p = true → u = s.atOrder p 0x15 → Owned u p i0 i1 g →
    i = le16 i0 i1 →
    ((u.ctx i).state ≠ .held →
      ∃ t, exec (.resume p tag [i0, i1, g]) s = .next t ∧ Answered u t p 0x15 tag .wrongState .nothing ∧
        t = { u with ports := t.ports }) ∧
    ((u.ctx i).state = .held → u.available < u.reserved + u.currentCost i →
      ∃ t, exec (.resume p tag [i0, i1, g]) s = .next t ∧ Answered u t p 0x15 tag .noCapacity .nothing ∧
        t = { u with
          ports := t.ports, tally0 := u.tally0.step .admitRefused (some ⟨i, g⟩),
          tally1 := u.tally1.step .admitRefused (some ⟨i, g⟩) }))

/-- HOLD of a converting context: HELD by ORDER, its units returned, its work discarded at the lane that has it in hand,
every other lane keeping its own, its queue emptied, a pending ORDER request reported RATE_REFUSED. HOLD of a held context makes its cause ORDER (R12, R13). That the slot's outbound
block goes with the hold is the model's reading of R22 and R27 (log 11). -/
def Obligations.HoldReturnsTheUnits : Prop :=
  (∀ (p : Port) tag i0 i1 g (s : State) (u : State) i, s.takes p = true → u = s.atOrder p 0x14 → Owned u p i0 i1 g → i = le16 i0 i1 →
    ((u.ctx i).state = .armed ∨ (u.ctx i).state = .active) →
    ∃ t, exec (.hold p tag [i0, i1, g]) s = .next t ∧
      t.ctx i = { u.ctx i with
        state := .held, holdCause := some .order,
        heldFrom := some (if (u.ctx i).state = .armed then .armed else .active), queue := [], expected := none,
        priming := false, firstRemaining := none, request := none, work := none, ready := none,
        conds := if fromOrder (u.ctx i).request then (u.ctx i).conds ||| 0x10#12 else (u.ctx i).conds } ∧
      OnlyCtx u t i ∧ t.reserved = u.reserved - u.currentCost i ∧
      (∀ n, n < 8 → t.lane n = ⟨(u.lane n).state, (u.lane n).inHand.filter (· ≠ i)⟩) ∧
      (∀ q, t.queueOf q =
        if q = p ∧ fromOrder (u.ctx i).request = true ∧ (u.ctx i).conds = 0 then u.queueOf q ++ [i]
        else u.queueOf q) ∧
      (∀ n, t.block n = if (u.ctx i).slot.map SlotBinding.slot = some n then { u.block n with outbound := none }
        else u.block n) ∧
      Answered u t p 0x14 tag .ok (.state (u.ctx i).state) ∧
      t = { u with
        ctxs := t.ctxs, reserved := t.reserved, lanes := t.lanes, attention := t.attention, ports := t.ports,
        blocks := t.blocks }) ∧
  (∀ (p : Port) tag i0 i1 g (s : State) (u : State) i h, s.takes p = true → u = s.atOrder p 0x14 → Owned u p i0 i1 g →
    i = le16 i0 i1 → (u.ctx i).state = .held → (u.ctx i).heldFrom = some h →
    ∃ t, exec (.hold p tag [i0, i1, g]) s = .next t ∧ t.ctx i = { u.ctx i with holdCause := some .order } ∧
      OnlyCtx u t i ∧ Answered u t p 0x14 tag .ok (.state h.state) ∧ t = { u with ctxs := t.ctxs, ports := t.ports })

/-- SET_PRIORITY, SET_LEVEL and SET_PLAYOUT replace their fields and answer with the previous ones (R16, R94, R102). -/
def Obligations.ContextSettingsReplaced : Prop :=
  ∀ (p : Port) tag i0 i1 g (s : State) i, s.takes p = true → i = le16 i0 i1 →
    (∀ n (u : State), u = s.atOrder p 0x16 → Owned u p i0 i1 g → (u.ctx i).state ≠ .closed → n.toNat ≤ 3 →
      ∃ t, exec (.setPriority p tag [i0, i1, g, n]) s = .next t ∧
        t.ctx i = { u.ctx i with priority := n.toNat } ∧ OnlyCtx u t i ∧
        Answered u t p 0x16 tag .ok (.priority (u.ctx i).priority) ∧ t = { u with ctxs := t.ctxs, ports := t.ports }) ∧
    (∀ (v : Levels) (u : State), u = s.atOrder p 0x50 → Owned u p i0 i1 g → (u.ctx i).state ≠ .closed →
      -12 ≤ v.gainLand → v.gainLand ≤ 12 → -12 ≤ v.gainMobile → v.gainMobile ≤ 12 →
      ∃ t, exec (.setLevel p tag ([i0, i1, g] ++ v.bytes)) s = .next t ∧
        t.ctx i = { u.ctx i with
          gainLand := v.gainLand, gainMobile := v.gainMobile, rounding := v.rounding, clipReport := v.clipReport } ∧
        OnlyCtx u t i ∧
        Answered u t p 0x50 tag .ok
          (.levels ⟨(u.ctx i).gainLand, (u.ctx i).gainMobile, (u.ctx i).rounding, (u.ctx i).clipReport⟩) ∧
        t = { u with ctxs := t.ctxs, ports := t.ports }) ∧
    (∀ d (u : State), u = s.atOrder p 0x52 → Owned u p i0 i1 g → (u.ctx i).state ≠ .closed → 1 ≤ d.toNat → d.toNat ≤ 4 →
      ∃ t, exec (.setPlayout p tag [i0, i1, g, d]) s = .next t ∧
        t.ctx i = { u.ctx i with depth := d.toNat } ∧ OnlyCtx u t i ∧
        Answered u t p 0x52 tag .ok (.depth (u.ctx i).depth) ∧ t = { u with ctxs := t.ctxs, ports := t.ports })

/-- SET_SUPERVISION: a field out of range, another owner and a CLOSED context are refused; else the three settings are
replaced together, no count moves, and the response carries the previous settings and both counts (R140). -/
def Obligations.SetSupervisionReplacesSettings : Prop :=
  ∀ (p : Port) tag i0 i1 g d0 d1 l0 l1 a (s : State) (u : State) i, s.takes p = true → u = s.atOrder p 0x48 → i = le16 i0 i1 →
    ∃ t, exec (.setSupervision p tag [i0, i1, g, d0, d1, l0, l1, a]) s = .next t ∧
      ((¬ (1 ≤ le16 d0 d1 ∧ le16 d0 d1 ≤ 3000) ∨ ¬ (5 ≤ le16 l0 l1 ∧ le16 l0 l1 ≤ 3000) ∨ 1 < a.toNat) →
        Answered u t p 0x48 tag .badField .nothing ∧ t = { u with ports := t.ports }) ∧
      (1 ≤ le16 d0 d1 → le16 d0 d1 ≤ 3000 → 5 ≤ le16 l0 l1 → le16 l0 l1 ≤ 3000 → a.toNat ≤ 1 → Named u i0 i1 g →
        ((u.ctx i).owner ≠ p → Answered u t p 0x48 tag .notOwner .nothing ∧ t = { u with ports := t.ports }) ∧
        ((u.ctx i).owner = p → (u.ctx i).state = .closed →
          Answered u t p 0x48 tag .wrongState .nothing ∧ t = { u with ports := t.ports }) ∧
        ((u.ctx i).owner = p → (u.ctx i).state ≠ .closed →
          t.ctx i = { u.ctx i with
            firstDeadline := le16 d0 d1, silenceLimit := le16 l0 l1, autoRetire := decide (a = 1) } ∧
          OnlyCtx u t i ∧
          Answered u t p 0x48 tag .ok (.supervisionSet (u.ctx i).firstDeadline (u.ctx i).silenceLimit
            (u.ctx i).autoRetire (u.ctx i).firstRemaining (u.ctx i).silence) ∧
          t = { u with ctxs := t.ctxs, ports := t.ports }))

/-! ### Bindings -/

/-- BIND_SLOT of an empty slot: its map entry names the context, an earlier slot is released and its blocks discarded,
the new slot has no block and every other slot's blocks are as before (R26, R27, R31); a slot of another context is refused
SLOT_TAKEN; the context's own slot takes the new law (R31). -/
def Obligations.BindSlotFillsTheEntry : Prop :=
  ∀ (p : Port) tag i0 i1 g n0 n1 l law (s : State) (u : State) i n, s.takes p = true → u = s.atOrder p 0x20 → Owned u p i0 i1 g → i = le16 i0 i1 →
    n = le16 n0 n1 → n ≤ 2047 → (l = 0 ∧ law = .aLaw ∨ l = 1 ∧ law = .muLaw) → (u.ctx i).state = .opened →
    ∃ t, exec (.bindSlot p tag [i0, i1, g, n0, n1, l]) s = .next t ∧
      (u.slotEntry n = none →
        t.ctx i = { u.ctx i with slot := some ⟨n, law⟩ } ∧ OnlyCtx u t i ∧
        (∀ m, t.slotEntry m = if m = n then some i
          else if (u.ctx i).slot.map SlotBinding.slot = some m then none else u.slotEntry m) ∧
        (∀ m, t.block m = if m = n ∨ (u.ctx i).slot.map SlotBinding.slot = some m then ⟨none, none, none⟩
          else u.block m) ∧
        Answered u t p 0x20 tag .ok (.slotBound n law (((u.ctx i).slot.map SlotBinding.slot).filter (· ≠ n))) ∧
        t = { u with ctxs := t.ctxs, slotMap := t.slotMap, blocks := t.blocks, ports := t.ports }) ∧
      (u.slotEntry n = some i →
        t.ctx i = { u.ctx i with slot := some ⟨n, law⟩ } ∧ OnlyCtx u t i ∧
        Answered u t p 0x20 tag .ok (.slotBound n law none) ∧ t = { u with ctxs := t.ctxs, ports := t.ports }) ∧
      (∀ j, u.slotEntry n = some j → j ≠ i →
        Answered u t p 0x20 tag .slotTaken .nothing ∧ t = { u with ports := t.ports })

/-- UNBIND_SLOT and UNBIND_STREAM of an OPEN context empty its entry, UNBIND_SLOT with the slot's blocks and no other's
(R27); without one they change nothing (R32, R34). -/
def Obligations.UnbindEmptiesTheEntry : Prop :=
  ∀ (p : Port) tag i0 i1 g (s : State) i, s.takes p = true → i = le16 i0 i1 →
    (∀ (u : State), u = s.atOrder p 0x22 → Owned u p i0 i1 g → (u.ctx i).state = .opened →
      ∃ t, exec (.unbindSlot p tag [i0, i1, g]) s = .next t ∧
        t.ctx i = { u.ctx i with slot := none } ∧ OnlyCtx u t i ∧
        (∀ m, t.slotEntry m = if (u.ctx i).slot.map SlotBinding.slot = some m then none else u.slotEntry m) ∧
        (∀ m, t.block m = if (u.ctx i).slot.map SlotBinding.slot = some m then ⟨none, none, none⟩ else u.block m) ∧
        ((u.ctx i).slot = none → t = { u with ports := t.ports }) ∧
        Answered u t p 0x22 tag .ok (.slotReleased ((u.ctx i).slot.map SlotBinding.slot)) ∧
        t = { u with ctxs := t.ctxs, slotMap := t.slotMap, blocks := t.blocks, ports := t.ports }) ∧
    (∀ (u : State), u = s.atOrder p 0x23 → Owned u p i0 i1 g → (u.ctx i).state = .opened →
      ∃ t, exec (.unbindStream p tag [i0, i1, g]) s = .next t ∧
        t.ctx i = { u.ctx i with primary := none } ∧ OnlyCtx u t i ∧
        (∀ m, t.streamEntry m =
          if ((u.ctx i).primary.bind fun k => (u.findStream k).map Prod.fst) = some m then none
          else u.streamEntry m) ∧
        ((u.ctx i).primary = none → t = { u with ports := t.ports }) ∧
        Answered u t p 0x23 tag .ok (.streamReleased (u.ctx i).primary) ∧
        t = { u with ctxs := t.ctxs, streamMap := t.streamMap, ports := t.ports })

/-- BIND_STREAM and RELINK place the key in the lowest-numbered empty entry, the context's earlier primary entry
removed first (R33, R35). `vacated` is the number of that entry. BIND_STREAM of the context's own key and RELINK to its own
link change nothing and answer with the entry that holds the key; a key that another entry holds is refused STREAM_TAKEN;
BIND_STREAM in another state than OPEN, and RELINK in CLOSED, with a handover record and without a primary stream are
refused WRONG_STATE. -/
def Obligations.PrimaryKeyTakesLowestEntry : Prop :=
  (∀ (p : Port) tag i0 i1 g (s : State) i m, s.takes p = true → i = le16 i0 i1 → m < 4096 →
    (∀ l t0 t1 t2 k (u : State) vacated, u = s.atOrder p 0x21 → Owned u p i0 i1 g → (u.ctx i).state = .opened →
      k = ⟨l.toNat, le24 t0 t1 t2⟩ → l.toNat ≤ 3 → 1 ≤ le24 t0 t1 t2 → le24 t0 t1 t2 ≤ 1048575 →
      u.findStream k = none → vacated = ((u.ctx i).primary.bind fun k => (u.findStream k).map Prod.fst) →
      (u.streamEntry m = none ∨ vacated = some m) → (∀ j, j < m → u.streamEntry j ≠ none ∧ vacated ≠ some j) →
      ∃ t, exec (.bindStream p tag [i0, i1, g, l, t0, t1, t2]) s = .next t ∧
        t.ctx i = { u.ctx i with primary := some k } ∧ OnlyCtx u t i ∧
        (∀ j, t.streamEntry j = if j = m then some ⟨k, i, .primary⟩ else if vacated = some j then none
          else u.streamEntry j) ∧
        Answered u t p 0x21 tag .ok (.streamBound m (u.ctx i).primary) ∧
        t = { u with ctxs := t.ctxs, streamMap := t.streamMap, ports := t.ports }) ∧
    (∀ l k old (u : State) vacated, u = s.atOrder p 0x24 → Owned u p i0 i1 g → (u.ctx i).state ≠ .closed →
      (u.ctx i).handover = none → (u.ctx i).primary = some old → l.toNat ≤ 3 → l.toNat ≠ old.link →
      k = ⟨l.toNat, old.tag⟩ → u.findStream k = none → vacated = (u.findStream old).map Prod.fst →
      (u.streamEntry m = none ∨ vacated = some m) → (∀ j, j < m → u.streamEntry j ≠ none ∧ vacated ≠ some j) →
      ∃ t, exec (.relink p tag [i0, i1, g, l]) s = .next t ∧
        t.ctx i = { u.ctx i with primary := some k } ∧ OnlyCtx u t i ∧
        (∀ j, t.streamEntry j = if j = m then some ⟨k, i, .primary⟩ else if vacated = some j then none
          else u.streamEntry j) ∧
        Answered u t p 0x24 tag .ok (.relinked old.link m) ∧
        t = { u with ctxs := t.ctxs, streamMap := t.streamMap, ports := t.ports })) ∧
  ∀ (p : Port) tag i0 i1 g (s : State) i, s.takes p = true → i = le16 i0 i1 →
    (∀ l t0 t1 t2 k (u : State), u = s.atOrder p 0x21 → Owned u p i0 i1 g → k = ⟨l.toNat, le24 t0 t1 t2⟩ →
      l.toNat ≤ 3 → 1 ≤ le24 t0 t1 t2 → le24 t0 t1 t2 ≤ 1048575 →
      ((u.ctx i).state ≠ .opened ∨ (u.findStream k).isSome = true) →
      ∃ t, exec (.bindStream p tag [i0, i1, g, l, t0, t1, t2]) s = .next t ∧ t = { u with ports := t.ports } ∧
        ((u.ctx i).state ≠ .opened → Answered u t p 0x21 tag .wrongState .nothing) ∧
        (∀ n e, (u.ctx i).state = .opened → u.findStream k = some (n, e) →
          ((u.ctx i).primary = some k → Answered u t p 0x21 tag .ok (.streamBound n none)) ∧
          ((u.ctx i).primary ≠ some k → Answered u t p 0x21 tag .streamTaken .nothing))) ∧
    (∀ l (u : State), u = s.atOrder p 0x24 → Owned u p i0 i1 g → l.toNat ≤ 3 →
      ((u.ctx i).state = .closed ∨ (u.ctx i).handover.isSome = true ∨ (u.ctx i).primary = none) →
      ∃ t, exec (.relink p tag [i0, i1, g, l]) s = .next t ∧ t = { u with ports := t.ports } ∧
        Answered u t p 0x24 tag .wrongState .nothing) ∧
    ∀ l old (u : State), u = s.atOrder p 0x24 → Owned u p i0 i1 g → l.toNat ≤ 3 → (u.ctx i).state ≠ .closed →
      (u.ctx i).handover = none → (u.ctx i).primary = some old →
      (∀ n e, l.toNat = old.link → u.findStream old = some (n, e) →
        ∃ t, exec (.relink p tag [i0, i1, g, l]) s = .next t ∧ t = { u with ports := t.ports } ∧
          Answered u t p 0x24 tag .ok (.relinked old.link n)) ∧
      (l.toNat ≠ old.link → (u.findStream ⟨l.toNat, old.tag⟩).isSome = true →
        ∃ t, exec (.relink p tag [i0, i1, g, l]) s = .next t ∧ t = { u with ports := t.ports } ∧
          Answered u t p 0x24 tag .streamTaken .nothing)

/-! ### Profiles and rates -/

/-- PROFILE_LOAD of an EMPTY slot loads exactly the profile its body spells (R50, R187). -/
def Obligations.ProfileLoadLoadsItsBody : Prop :=
  ∀ (p : Port) tag n (c : Profile) (s : State) (u : State), s.takes p = true → u = s.atOrder p 0x30 → n ≤ 15 → (u.profile n).state = .vacant →
    1 ≤ c.table.length → c.table.length ≤ 8 →
    (∀ e ∈ c.table, 5 ≤ e.bytes ∧ e.bytes ≤ 80 ∧ 1 ≤ e.cost ∧ e.cost ≤ 4000) →
    c.table.Pairwise (fun a b => a.cost < b.cost) → c.defaultIndex < c.table.length → c.hold ≤ 50 →
    (c.family = .narrowSingle → c.table.length = 1) →
    ∃ t, exec (.profileLoad p tag ([byteOf n, c.family.byte] ++ leBytes 2 c.stamp.toNat ++
        [byteOf c.defaultIndex, byteOf c.hold, byteOf c.table.length] ++
        c.table.flatMap fun e => byteOf e.bytes :: leBytes 2 e.cost)) s = .next t ∧
      t.profile n = { u.profile n with state := .loaded c } ∧ (∀ m, m ≠ n → t.profile m = u.profile m) ∧
      Answered u t p 0x30 tag .ok (.profileLoaded n c.stamp) ∧ t = { u with profiles := t.profiles, ports := t.ports }

/-- PROFILE_CLEAR by the slot as it stands: FIXED is refused, EMPTY is left, a referenced LOADED slot is refused with
its count, and a free LOADED slot becomes EMPTY (R51). -/
def Obligations.ProfileClearBySlotState : Prop :=
  ∀ (p : Port) tag n (s : State) (u : State), s.takes p = true → u = s.atOrder p 0x31 → n.toNat ≤ 15 →
    ∃ t, exec (.profileClear p tag [n]) s = .next t ∧
      (∀ c, (u.profile n.toNat).state = .fixed c →
        Answered u t p 0x31 tag .profileFixed .nothing ∧ t = { u with ports := t.ports }) ∧
      ((u.profile n.toNat).state = .vacant →
        Answered u t p 0x31 tag .ok (.profileVacant n.toNat) ∧ t = { u with ports := t.ports }) ∧
      (∀ c, (u.profile n.toNat).state = .loaded c → 0 < (u.profile n.toNat).refs →
        Answered u t p 0x31 tag .profileInUse (.profileRefs (u.profile n.toNat).refs) ∧
        t = { u with ports := t.ports }) ∧
      (∀ c, (u.profile n.toNat).state = .loaded c → (u.profile n.toNat).refs = 0 →
        t.profile n.toNat = ⟨.vacant, 0⟩ ∧ (∀ m, m ≠ n.toNat → t.profile m = u.profile m) ∧
        Answered u t p 0x31 tag .ok (.profileCleared c.stamp) ∧ t = { u with profiles := t.profiles, ports := t.ports })

/-- SET_PROFILE of an OPEN context: the rate is the default index where the set holds it, else the set's highest; the
reference moves (R53, R49). -/
def Obligations.SetProfileDerivesTheRate : Prop :=
  ∀ (p : Port) tag i0 i1 g n set (s : State) (u : State) i c r e, s.takes p = true → u = s.atOrder p 0x33 → Owned u p i0 i1 g → i = le16 i0 i1 →
    (u.ctx i).state = .opened → n.toNat ≤ 15 → u.contents n.toNat = some c → set ≠ (0 : RateSet) →
    (∀ q, set.getLsbD q = true → q < c.table.length) → set.getLsbD r = true →
    (r = c.defaultIndex ∨ set.getLsbD c.defaultIndex = false ∧ ∀ q, set.getLsbD q = true → q ≤ r) →
    c.table[r]? = some e →
    ∃ t, exec (.setProfile p tag [i0, i1, g, n, set]) s = .next t ∧
      t.ctx i = { u.ctx i with profile := some n.toNat, permitted := some set, rate := some r, sinceRate := 0 } ∧
      OnlyCtx u t i ∧
      (∀ m, (t.profile m).state = (u.profile m).state ∧
        (t.profile m).refs = ((u.profile m).refs - (if (u.ctx i).profile = some m then 1 else 0)) +
          (if m = n.toNat then 1 else 0)) ∧
      Answered u t p 0x33 tag .ok (.profileSet n.toNat c.stamp r e.bytes e.cost (u.ctx i).profile) ∧
      t = { u with ctxs := t.ctxs, profiles := t.profiles, ports := t.ports }

/-- SET_RATE: at once in OPEN and HELD, as a pending ORDER request in ARMED and ACTIVE; the current rate is answered
CURRENT, and in OPEN and HELD changes nothing (R113, R114, R115). -/
def Obligations.SetRateByState : Prop :=
  ∀ (p : Port) tag i0 i1 g r (s : State) (u : State) i set q, s.takes p = true → u = s.atOrder p 0x39 → Owned u p i0 i1 g → i = le16 i0 i1 →
    r.toNat ≤ 7 → (u.ctx i).permitted = some set → set.getLsbD r.toNat = true → (u.ctx i).rate = some q →
    ∃ t, exec (.setRate p tag [i0, i1, g, r]) s = .next t ∧ OnlyCtx u t i ∧
      (((u.ctx i).state = .opened ∨ (u.ctx i).state = .held) → r.toNat ≠ q →
        t.ctx i = { u.ctx i with rate := some r.toNat, sinceRate := 0 } ∧
        Answered u t p 0x39 tag .ok (.rateSet .set (some r.toNat) (u.ctx i).request none) ∧
        t = { u with
          ctxs := t.ctxs, ports := t.ports, tally0 := u.tally0.step .rateChange (some ⟨i, g⟩),
          tally1 := u.tally1.step .rateChange (some ⟨i, g⟩) }) ∧
      (((u.ctx i).state = .opened ∨ (u.ctx i).state = .held) → r.toNat = q →
        Answered u t p 0x39 tag .ok (.rateSet .current (some q) (u.ctx i).request none) ∧
        t = { u with ports := t.ports }) ∧
      (((u.ctx i).state = .armed ∨ (u.ctx i).state = .active) → r.toNat ≠ q →
        t.ctx i = { u.ctx i with request := some ⟨r.toNat, .order⟩ } ∧
        Answered u t p 0x39 tag .ok (.rateSet .pending (some q) (some ⟨r.toNat, .order⟩) (u.ctx i).request) ∧
        t = { u with ctxs := t.ctxs, ports := t.ports }) ∧
      (((u.ctx i).state = .armed ∨ (u.ctx i).state = .active) → r.toNat = q →
        t.ctx i = { u.ctx i with request := none } ∧
        Answered u t p 0x39 tag .ok (.rateSet .current (some q) none (u.ctx i).request) ∧
        t = { u with ctxs := t.ctxs, ports := t.ports })

/-- SET_RATESET on a converting context: a rate in the new set is kept; another moves to the highest index of the set
below it, else to the lowest, the account changing by the costs' difference; an upward move that does not fit is
refused NO_CAPACITY, counted ADMIT_REFUSED, and changes nothing else (R58, R116). `landing` is that index. In every state but CLOSED, with the rate it comes to (`v`): in OPEN
and HELD no units move, and the pending request is kept, removed, or removed with RATE_REFUSED, against the new set and
the new rate (R117). -/
def Obligations.SetRatesetMovesTheRate : Prop :=
  (∀ (p : Port) tag i0 i1 g set (s : State) (u : State) i n c q e e' landing, s.takes p = true → u = s.atOrder p 0x38 → Owned u p i0 i1 g →
    i = le16 i0 i1 → ((u.ctx i).state = .armed ∨ (u.ctx i).state = .active) → (u.ctx i).profile = some n →
    u.contents n = some c → (u.ctx i).rate = some q → set ≠ (0 : RateSet) →
    (∀ r, set.getLsbD r = true → r < c.table.length) → c.table[q]? = some e → c.table[landing]? = some e' →
    (u.ctx i).request = none →
    ∃ t, exec (.setRateset p tag [i0, i1, g, set]) s = .next t ∧ OnlyCtx u t i ∧
      (set.getLsbD q = true →
        t.ctx i = { u.ctx i with permitted := some set } ∧ t = { u with ctxs := t.ctxs, ports := t.ports } ∧
        Answered u t p 0x38 tag .ok
          (.ratesetReplaced ((u.ctx i).permitted.getD 0) set (some q) (some q) none none)) ∧
      (set.getLsbD q = false → set.getLsbD landing = true →
        (landing < q ∧ (∀ r, set.getLsbD r = true → r < q → r ≤ landing) ∨
          (∀ r, set.getLsbD r = true → q ≤ r ∧ landing ≤ r)) →
        (q < landing → u.reserved + (e'.cost - e.cost) ≤ u.available) →
        t.ctx i = { u.ctx i with permitted := some set, rate := some landing, sinceRate := 0 } ∧
        Answered u t p 0x38 tag .ok
          (.ratesetReplaced ((u.ctx i).permitted.getD 0) set (some q) (some landing) none none) ∧
        t = { u with
          ctxs := t.ctxs, ports := t.ports, reserved := u.reserved + e'.cost - e.cost,
          tally0 := u.tally0.step .rateChange (some ⟨i, g⟩),
          tally1 := u.tally1.step .rateChange (some ⟨i, g⟩) }) ∧
      (set.getLsbD q = false → set.getLsbD landing = true → (∀ r, set.getLsbD r = true → q ≤ r ∧ landing ≤ r) →
        u.available < u.reserved + (e'.cost - e.cost) →
        Answered u t p 0x38 tag .noCapacity .nothing ∧
        t = { u with
          ports := t.ports, tally0 := u.tally0.step .admitRefused (some ⟨i, g⟩),
          tally1 := u.tally1.step .admitRefused (some ⟨i, g⟩) })) ∧
  ∀ (p : Port) tag i0 i1 g set (s : State) (u : State) i n c q e e' v, s.takes p = true → u = s.atOrder p 0x38 →
    Owned u p i0 i1 g → i = le16 i0 i1 → (u.ctx i).state ≠ .closed → (u.ctx i).profile = some n →
    u.contents n = some c → (u.ctx i).rate = some q → set ≠ (0 : RateSet) →
    (∀ r, set.getLsbD r = true → r < c.table.length) → c.table[q]? = some e → c.table[v]? = some e' →
    (set.getLsbD q = true ∧ v = q ∨
      set.getLsbD q = false ∧ set.getLsbD v = true ∧
        (v < q ∧ (∀ r, set.getLsbD r = true → r < q → r ≤ v) ∨ ∀ r, set.getLsbD r = true → q ≤ r ∧ v ≤ r) ∧
        ((u.ctx i).converting = false ∨ v < q ∨ u.reserved + (e'.cost - e.cost) ≤ u.available)) →
    ∃ t, exec (.setRateset p tag [i0, i1, g, set]) s = .next t ∧ OnlyCtx u t i ∧
      t.ctx i = { u.ctx i with
        permitted := some set, rate := some v, sinceRate := if v = q then (u.ctx i).sinceRate else 0,
        request := (t.ctx i).request, conds := (t.ctx i).conds } ∧
      t.reserved = (if (u.ctx i).converting ∧ v ≠ q then u.reserved + e'.cost - e.cost else u.reserved) ∧
      ((u.ctx i).request = none → (t.ctx i).request = none ∧ (t.ctx i).conds = (u.ctx i).conds) ∧
      (∀ x, (u.ctx i).request = some x →
        (set.getLsbD x.rate = true → x.rate ≠ v →
          (t.ctx i).request = some x ∧ (t.ctx i).conds = (u.ctx i).conds) ∧
        (x.rate = v → (t.ctx i).request = none ∧ (t.ctx i).conds = (u.ctx i).conds) ∧
        (set.getLsbD x.rate = false → (t.ctx i).request = none ∧
          (t.ctx i).conds = if x.source = .order then (u.ctx i).conds ||| 0x10#12 else (u.ctx i).conds)) ∧
      t.queueOf p = (if (u.ctx i).conds = 0 ∧ (t.ctx i).conds ≠ 0 then u.queueOf p ++ [i] else u.queueOf p) ∧
      t.queueOf p.other = u.queueOf p.other ∧
      (v = q → t.tally0 = u.tally0 ∧ t.tally1 = u.tally1) ∧
      (v ≠ q → t.tally0 = u.tally0.step .rateChange (some ⟨i, g⟩) ∧
        t.tally1 = u.tally1.step .rateChange (some ⟨i, g⟩)) ∧
      Answered u t p 0x38 tag .ok
        (.ratesetReplaced ((u.ctx i).permitted.getD 0) set (some q) (some v) (u.ctx i).request (t.ctx i).request) ∧
      t = { u with
        ctxs := t.ctxs, reserved := t.reserved, attention := t.attention, tally0 := t.tally0, tally1 := t.tally1,
        ports := t.ports }

/-- LEVEL_DEFAULTS and SUPERVISE_SET replace the device's and the port's own settings (R95, R173). -/
def Obligations.DeviceAndPortSettings : Prop :=
  ∀ (p : Port) tag (s : State), s.takes p = true →
    (∀ (m : RoundMode) (u : State), u = s.atOrder p 0x51 →
      ∃ t, exec (.levelDefaults p tag [byteOf m.code]) s = .next t ∧
        Answered u t p 0x51 tag .ok (.rounding u.defaultRound m) ∧
        t = { u with defaultRound := m, ports := t.ports }) ∧
    (∀ (v : SupSettings) (u : State), u = s.atOrder p 0x02 → 10 ≤ v.initialLimit → v.initialLimit ≤ 65535 →
      10 ≤ v.steadyLimit → v.steadyLimit ≤ 65535 →
      ∃ t, exec (.superviseSet p tag v.bytes) s = .next t ∧ t = { u with ports := t.ports } ∧
        t.port p.other = u.port p.other ∧
        t.port p = { u.port p with
          sup := { (u.port p).sup with settings := v }
          line := (u.port p).line ++ [⟨0x82, tag, .ok,
            .single (.supervision (u.port p).sup.settings (u.port p).sup.state (u.port p).sup.count)⟩] })

/-! ### Handover -/

/-- HANDOVER_PREPARE holds the record and places the new key, role HANDOVER, in the lowest-numbered empty entry
(R123, R124). -/
def Obligations.PreparePlacesTheNewKey : Prop :=
  ∀ (p : Port) tag i0 i1 g l t0 t1 t2 b d0 d1 (s : State) (u : State) i k m, s.takes p = true → u = s.atOrder p 0x40 → Owned u p i0 i1 g →
    i = le16 i0 i1 → (u.ctx i).state ≠ .opened → (u.ctx i).state ≠ .closed → (u.ctx i).handover = none →
    k = ⟨l.toNat, le24 t0 t1 t2⟩ → l.toNat ≤ 3 → 1 ≤ le24 t0 t1 t2 → le24 t0 t1 t2 ≤ 1048575 → b.toNat ≤ 1 →
    1 ≤ le16 d0 d1 → le16 d0 d1 ≤ 500 → (u.ctx i).primary ≠ some k → u.findStream k = none →
    m < 4096 → u.streamEntry m = none → (∀ j, j < m → u.streamEntry j ≠ none) →
    ∃ t, exec (.handoverPrepare p tag [i0, i1, g, l, t0, t1, t2, b, d0, d1]) s = .next t ∧
      t.ctx i = { u.ctx i with handover := some ⟨k, decide (b = 1), le16 d0 d1⟩ } ∧ OnlyCtx u t i ∧
      (∀ j, t.streamEntry j = if j = m then some ⟨k, i, .handover⟩ else u.streamEntry j) ∧
      Answered u t p 0x40 tag .ok (.handoverPrepared m k (le16 d0 d1)) ∧
      t = { u with ctxs := t.ctxs, streamMap := t.streamMap, ports := t.ports }

/-- HANDOVER_COMMIT makes the new key primary in its own entry, removes the old one where the context holds a primary
stream, raises HANDOVER_DONE and counts HANDOVER_COMMIT; HANDOVER_CANCEL removes the record and its entry without a condition (R126, R129, R132). A well-formed
cell on the key of an entry of role HANDOVER commits in the same way, and is then taken as a cell on the primary key of
the state `v` the commit left (R127). -/
def Obligations.CommitAndCancel : Prop :=
  (∀ (p : Port) tag i0 i1 g (s : State) i h n e, s.takes p = true → s.canonical = true → i = le16 i0 i1 →
    (∀ (u : State) m e', u = s.atOrder p 0x41 → Owned u p i0 i1 g → (u.ctx i).handover = some h →
      u.findStream h.key = some (n, e) → (∀ k, (u.ctx i).primary = some k → u.findStream k = some (m, e') ∧ m ≠ n) →
      (u.ctx i).primary ≠ none →
      ∃ t, exec (.handoverCommit p tag [i0, i1, g]) s = .next t ∧
        t.ctx i = { u.ctx i with
          primary := some h.key, handover := none, conds := (u.ctx i).conds ||| 0x20#12 } ∧ OnlyCtx u t i ∧
        (∀ j, t.streamEntry j = if j = n then some { e with role := .primary } else if j = m then none
          else u.streamEntry j) ∧
        t.queueOf p = (if (u.ctx i).conds = 0 then u.queueOf p ++ [i] else u.queueOf p) ∧
        t.queueOf p.other = u.queueOf p.other ∧
        Answered u t p 0x41 tag .ok (.handoverCommitted (u.ctx i).primary h.key n) ∧
        t = { u with
          ctxs := t.ctxs, streamMap := t.streamMap, attention := t.attention, ports := t.ports,
          tally0 := u.tally0.step .handoverCommit (some ⟨i, g⟩),
          tally1 := u.tally1.step .handoverCommit (some ⟨i, g⟩) }) ∧
    (∀ (u : State), u = s.atOrder p 0x41 → Owned u p i0 i1 g → (u.ctx i).handover = some h →
      u.findStream h.key = some (n, e) → (u.ctx i).primary = none →
      ∃ t, exec (.handoverCommit p tag [i0, i1, g]) s = .next t ∧
        t.ctx i = { u.ctx i with
          primary := some h.key, handover := none, conds := (u.ctx i).conds ||| 0x20#12 } ∧ OnlyCtx u t i ∧
        (∀ j, t.streamEntry j = if j = n then some { e with role := .primary } else u.streamEntry j) ∧
        t.queueOf p = (if (u.ctx i).conds = 0 then u.queueOf p ++ [i] else u.queueOf p) ∧
        t.queueOf p.other = u.queueOf p.other ∧
        Answered u t p 0x41 tag .ok (.handoverCommitted none h.key n) ∧
        t = { u with
          ctxs := t.ctxs, streamMap := t.streamMap, attention := t.attention, ports := t.ports,
          tally0 := u.tally0.step .handoverCommit (some ⟨i, g⟩),
          tally1 := u.tally1.step .handoverCommit (some ⟨i, g⟩) }) ∧
    (∀ (u : State), u = s.atOrder p 0x42 → Owned u p i0 i1 g → (u.ctx i).handover = some h → u.findStream h.key = some (n, e) →
      ∃ t, exec (.handoverCancel p tag [i0, i1, g]) s = .next t ∧
        t.ctx i = { u.ctx i with handover := none } ∧ OnlyCtx u t i ∧
        (∀ j, t.streamEntry j = if j = n then none else u.streamEntry j) ∧
        Answered u t p 0x42 tag .ok (.handoverCancelled h.key h.remaining) ∧
        t = { u with ctxs := t.ctxs, streamMap := t.streamMap, ports := t.ports })) ∧
  ∀ (link : Fin 4) bytes (s : State) c n e h i, s.pinHeld = false → s.canonical = true →
    wellFormedCell link.val bytes = some c → s.findStream ⟨link.val, c.tag⟩ = some (n, e) → e.role = .handover →
    i = e.index → (s.ctx i).handover = some h → h.key = ⟨link.val, c.tag⟩ → (s.ctx i).primary ≠ some h.key →
    ∃ v, exec (.cellArrival link bytes) s = exec (.cellArrival link bytes) v ∧
      v.findStream ⟨link.val, c.tag⟩ = some (n, { e with role := .primary }) ∧
      v.ctx i = { s.ctx i with primary := some h.key, handover := none, conds := (s.ctx i).conds ||| 0x20#12 } ∧
      OnlyCtx s v i ∧
      (∀ j, v.streamEntry j = if j = n then some { e with role := .primary }
        else if ((s.ctx i).primary.bind fun k => (s.findStream k).map Prod.fst) = some j then none
        else s.streamEntry j) ∧
      (∀ q, v.queueOf q = if (s.ctx i).owner = q ∧ (s.ctx i).conds = 0 then s.queueOf q ++ [i] else s.queueOf q) ∧
      v = { s with
        ctxs := v.ctxs, streamMap := v.streamMap, attention := v.attention,
        tally0 := s.tally0.step .handoverCommit (some ⟨i, (s.ctx i).gen⟩),
        tally1 := s.tally1.step .handoverCommit (some ⟨i, (s.ctx i).gen⟩) }

/-! ### Lanes and faults -/

/-- LANE_SERVICE out of a lane in service: 12,000 units fewer, LANE_OUT at both ports, and shedding until reserved fits
or no context converts (R63, R65, R67). The shedding pass whole, from the state `v` that has lost the lane: its order of
priorities, step one's lowering to the lowest permitted index with RATE_CHANGED, step two's holding with cause SHED and
condition SHED, each only while reserved exceeds available, every other context unchanged, and the counts in the response
(`ShedBy`; R66, R67). That the slot of a held context loses its outbound block is the model's reading of R22 and R27
(log 11). A lane already out keeps its units; OUT_FAULT becomes OUT_ORDER (R62, R63). -/
def Obligations.LaneOutShedsUntilItFits : Prop :=
  ∀ (p : Port) tag n (s : State) (u : State), s.takes p = true → u = s.atOrder p 0x58 → n.toNat ≤ 7 →
    ((u.lane n.toNat).state = .inService → (∀ i, (u.ctx i).priority ≤ 3) →
      ∃ t, exec (.laneServiceOut p tag n) s = .next t ∧
        (t.lane n.toNat).state = .outOrder ∧ (∀ m, m ≠ n.toNat → (t.lane m).state = (u.lane m).state) ∧
        t.available = u.available - 12000 ∧
        (∀ q, (t.port q).conds = (u.port q).conds ||| 0x02#6) ∧
        (t.reserved ≤ t.available ∨ ∀ i, (t.ctx i).converting = false) ∧
        (u.reserved ≤ u.available - 12000 → t.ctxs = u.ctxs ∧ t.reserved = u.reserved) ∧
        (s.canonical = true → (∀ i, (u.ctx i).permitted ≠ some 0) →
          ∃ v low order lowered held,
            v = { u with lanes := v.lanes, available := u.available - 12000, ports := v.ports } ∧
            v.lane n.toNat = { u.lane n.toNat with state := .outOrder } ∧ (∀ m, m ≠ n.toNat → v.lane m = u.lane m) ∧
            (∀ q, v.port q = { u.port q with conds := (u.port q).conds ||| 0x02#6 }) ∧
            ShedBy v t low order lowered held ∧
            Answered v t p 0x58 tag .ok
              (.laneService n.toNat .inService .outOrder t.available t.reserved lowered.length held.length 0) ∧
            t = { v with
              ctxs := t.ctxs, reserved := t.reserved, attention := t.attention, lanes := t.lanes, blocks := t.blocks,
              tally0 := t.tally0, tally1 := t.tally1, ports := t.ports })) ∧
    ((u.lane n.toNat).state = .outOrder →
      ∃ t, exec (.laneServiceOut p tag n) s = .next t ∧ t = { u with ports := t.ports } ∧
        Answered u t p 0x58 tag .ok (.laneService n.toNat .outOrder .outOrder u.available u.reserved 0 0 0)) ∧
    ((u.lane n.toNat).state = .outFault →
      ∃ t, exec (.laneServiceOut p tag n) s = .next t ∧ t = { u with lanes := t.lanes, ports := t.ports } ∧
        t.lane n.toNat = { u.lane n.toNat with state := .outOrder } ∧ (∀ m, m ≠ n.toNat → t.lane m = u.lane m) ∧
        Answered u t p 0x58 tag .ok (.laneService n.toNat .outFault .outOrder u.available u.reserved 0 0 0))

/-- LANE_SERVICE in of a lane out of service: 12,000 units more, LANE_BACK at both ports, and contexts held by shedding
return, READMITTED, while their cost fits; no other context changes (R64, R69). The readmission pass whole, from the state
`v` that has the lane back: priority 0 first and ascending index, a context returned exactly when its cost fits as it is
considered, so that one still held by shedding afterwards has a cost that does not fit, and the count in the response
(`ReadmittedBy`). A lane in service is left as it is (R62). -/
def Obligations.LaneInReadmits : Prop :=
  ∀ (p : Port) tag n (s : State) (u : State), s.takes p = true → u = s.atOrder p 0x58 → n.toNat ≤ 7 →
    ((u.lane n.toNat).state ≠ .inService → s.canonical = true → u.reserved ≤ u.available →
      ∃ t, exec (.laneServiceIn p tag n) s = .next t ∧
        (t.lane n.toNat).state = .inService ∧ (∀ m, m ≠ n.toNat → t.lane m = u.lane m) ∧
        t.available = u.available + 12000 ∧ t.reserved ≤ t.available ∧
        (∀ q, (t.port q).conds = (u.port q).conds ||| 0x04#6) ∧
        (∀ i, t.ctx i = u.ctx i ∨
          ((u.ctx i).state = .held ∧ (u.ctx i).holdCause = some .shed ∧
            (t.ctx i).state = ((u.ctx i).heldFrom.getD .active).state ∧
            (t.ctx i).conds = (u.ctx i).conds ||| 0x100#12)) ∧
        ((∀ i, (u.ctx i).priority ≤ 3) →
          (∀ i, (t.ctx i).state = .held → (t.ctx i).holdCause = some .shed →
            t.available < t.reserved + t.currentCost i) ∧
          ∃ v order returned,
            v = { u with lanes := v.lanes, available := u.available + 12000, ports := v.ports } ∧
            v.lane n.toNat = { u.lane n.toNat with state := .inService } ∧ (∀ m, m ≠ n.toNat → v.lane m = u.lane m) ∧
            (∀ q, v.port q = { u.port q with conds := (u.port q).conds ||| 0x04#6 }) ∧
            ReadmittedBy v t order returned ∧
            Answered v t p 0x58 tag .ok (.laneService n.toNat (u.lane n.toNat).state .inService t.available t.reserved
              0 0 returned.length) ∧
            t = { v with
              ctxs := t.ctxs, reserved := t.reserved, attention := t.attention, ports := t.ports })) ∧
    ((u.lane n.toNat).state = .inService →
      ∃ t, exec (.laneServiceIn p tag n) s = .next t ∧ t = { u with ports := t.ports } ∧
        Answered u t p 0x58 tag .ok (.laneService n.toNat .inService .inService u.available u.reserved 0 0 0))

/-- A free lane in service takes a waiting work, which no lane has in hand (R61). -/
def Obligations.LaneTakesWaitingWork : Prop :=
  ∀ (n : Fin 8) (i : Fin 2048) (s : State), s.pinHeld = false → (s.lane n.val).state = .inService →
    (s.lane n.val).inHand = none → (s.ctx i.val).work.isSome = true → (∀ m, m < 8 → (s.lane m).inHand ≠ some i.val) →
    s.claimDue i.val = false →
    ∃ t, exec (.laneTakesWork n i) s = .next t ∧ t.lane n.val = ⟨.inService, some i.val⟩ ∧
      (∀ m, m ≠ n.val → t.lane m = s.lane m) ∧ t = { s with lanes := t.lanes }

/-- LANE_CHECK at a lane in service with a work in hand: the work is discarded, the lane is OUT_FAULT, 12,000 units
fewer; an empty capture record takes the fault, a filled one sets further (R72, R75). Where the loss forces shedding, or
the lane has nothing in hand: the state `v` that has lost the lane, and from it the shedding pass (`ShedBy`; R65 to R67);
that the slot of a context it holds loses its outbound block is the model's reading of R22 and R27 (log 11).
At an OUT_ORDER lane with a work in hand the fault is captured, the work discarded and the lane OUT_FAULT, and no units
move (R72). Last, the events R71 says are not reported: at an OUT_ORDER lane with nothing in hand and at an OUT_FAULT lane
the command leaves the part as it is, which is the model's choice (log 2), no rule's. -/
def Obligations.LaneCheckTakesTheLaneOut : Prop :=
  (∀ (n : Fin 8) i (s : State), s.pinHeld = false → (s.lane n.val).state = .inService →
    (s.lane n.val).inHand = some i → s.reserved ≤ s.available - 12000 →
    ∃ t, exec (.laneCheck n) s = .next t ∧ t.lane n.val = ⟨.outFault, none⟩ ∧
      (∀ m, (t.lane m).state = if m = n.val then .outFault else (s.lane m).state) ∧
      t.ctx i = { s.ctx i with work := none } ∧ OnlyCtx s t i ∧ t.available = s.available - 12000 ∧
      (s.capture.record = none →
        t.capture = ⟨some ⟨.laneCheck, n.val, some ⟨i, (s.ctx i).gen⟩, s.timer.period⟩, false⟩ ∧
        ∀ q, (t.port q).conds = (s.port q).conds ||| 0x0A#6) ∧
      (∀ r, s.capture.record = some r → t.capture = ⟨some r, true⟩ ∧
        ∀ q, (t.port q).conds = (s.port q).conds ||| 0x02#6) ∧
      t = { s with
        lanes := t.lanes, ctxs := t.ctxs, available := t.available, capture := t.capture, ports := t.ports }) ∧
  (∀ (n : Fin 8) hand (s : State), s.pinHeld = false → s.canonical = true → (s.lane n.val).state = .inService →
    hand = (s.lane n.val).inHand → (∀ i, (s.ctx i).priority ≤ 3) → (∀ i, (s.ctx i).permitted ≠ some 0) →
    ∃ t v low order lowered held, exec (.laneCheck n) s = .next t ∧ v.lane n.val = ⟨.outFault, none⟩ ∧
      (∀ m, m ≠ n.val → (v.lane m).state = (s.lane m).state ∧
        (m < 8 → (v.lane m).inHand = (s.lane m).inHand.filter (some · ≠ hand))) ∧
      (∀ i, v.ctx i = if hand = some i then { s.ctx i with work := none } else s.ctx i) ∧
      v.available = s.available - 12000 ∧
      (s.capture.record = none →
        v.capture = ⟨some ⟨.laneCheck, n.val, hand.map fun i => ⟨i, (s.ctx i).gen⟩, s.timer.period⟩, false⟩ ∧
        ∀ q, v.port q = { s.port q with conds := (s.port q).conds ||| 0x0A#6 }) ∧
      (∀ r, s.capture.record = some r → v.capture = ⟨some r, true⟩ ∧
        ∀ q, v.port q = { s.port q with conds := (s.port q).conds ||| 0x02#6 }) ∧
      v = { s with
        lanes := v.lanes, ctxs := v.ctxs, available := v.available, capture := v.capture, ports := v.ports } ∧
      ShedBy v t low order lowered held ∧
      t = { v with
        ctxs := t.ctxs, reserved := t.reserved, attention := t.attention, lanes := t.lanes, blocks := t.blocks,
        tally0 := t.tally0, tally1 := t.tally1 }) ∧
  (∀ (n : Fin 8) i (s : State), s.pinHeld = false → (s.lane n.val).state = .outOrder → (s.lane n.val).inHand = some i →
    ∃ t, exec (.laneCheck n) s = .next t ∧ t.lane n.val = ⟨.outFault, none⟩ ∧
      (∀ m, m ≠ n.val → (t.lane m).state = (s.lane m).state) ∧
      t.ctx i = { s.ctx i with work := none } ∧ OnlyCtx s t i ∧
      (s.capture.record = none →
        t.capture = ⟨some ⟨.laneCheck, n.val, some ⟨i, (s.ctx i).gen⟩, s.timer.period⟩, false⟩ ∧
        ∀ q, t.port q = { s.port q with conds := (s.port q).conds ||| 0x08#6 }) ∧
      (∀ r, s.capture.record = some r → t.capture = ⟨some r, true⟩ ∧ t.ports = s.ports) ∧
      t = { s with lanes := t.lanes, ctxs := t.ctxs, capture := t.capture, ports := t.ports }) ∧
  ∀ (n : Fin 8) (s : State), s.pinHeld = false →
    ((s.lane n.val).state = .outFault ∨ (s.lane n.val).state = .outOrder ∧ (s.lane n.val).inHand = none) →
    exec (.laneCheck n) s = .next s

/-- CONTEXT_CHECK holds the context with cause FAULT, its work leaving the lane and every other lane keeping its own;
QUEUE_CHECK empties its queue and primes it again; both raise FAULTED, where the set was empty queueing the index at its
owner, and update the capture record: an empty one takes the fault and raises FAULT_CAPTURED at both ports, a filled one
sets further (R73, R74, R75, R167). That the slot's outbound block goes with the hold is the model's reading
of R22 and R27 (log 11). -/
def Obligations.ContextAndQueueChecks : Prop :=
  ∀ (n : Fin 8) i (s : State), s.pinHeld = false → (s.lane n.val).inHand = some i →
    ((s.ctx i).converting = true →
      ∃ t, exec (.contextCheck n) s = .next t ∧
        t.ctx i = { s.ctx i with
          state := .held, holdCause := some .fault,
          heldFrom := some (if (s.ctx i).state = .armed then .armed else .active), queue := [], expected := none,
          priming := false, firstRemaining := none, request := none, work := none, ready := none,
          conds := (s.ctx i).conds ||| (if fromOrder (s.ctx i).request then 0x10#12 else 0) ||| 0x200#12 } ∧
        OnlyCtx s t i ∧ (t.lane n.val).inHand = none ∧
        (∀ m, m < 8 → t.lane m = ⟨(s.lane m).state, (s.lane m).inHand.filter (· ≠ i)⟩) ∧
        t.reserved = s.reserved - s.currentCost i ∧
        (s.capture.record = none →
          t.capture = ⟨some ⟨.contextCheck, n.val, some ⟨i, (s.ctx i).gen⟩, s.timer.period⟩, false⟩ ∧
          ∀ q, t.port q = { s.port q with conds := (s.port q).conds ||| 0x08#6 }) ∧
        (∀ r, s.capture.record = some r → t.capture = ⟨some r, true⟩ ∧ t.ports = s.ports) ∧
        (∀ q, t.queueOf q = if (s.ctx i).owner = q ∧ (s.ctx i).conds = 0 then s.queueOf q ++ [i] else s.queueOf q) ∧
        (∀ m, t.block m = if (s.ctx i).slot.map SlotBinding.slot = some m then { s.block m with outbound := none }
          else s.block m) ∧
        t = { s with
          lanes := t.lanes, ctxs := t.ctxs, reserved := t.reserved, capture := t.capture, ports := t.ports,
          attention := t.attention, blocks := t.blocks }) ∧
    ((s.ctx i).state = .active →
      ∃ t, exec (.queueCheck n) s = .next t ∧
        t.ctx i = { s.ctx i with queue := [], expected := none, priming := true, conds := (s.ctx i).conds ||| 0x200#12 } ∧
        OnlyCtx s t i ∧
        (s.capture.record = none →
          t.capture = ⟨some ⟨.queueCheck, n.val, some ⟨i, (s.ctx i).gen⟩, s.timer.period⟩, false⟩ ∧
          ∀ q, t.port q = { s.port q with conds := (s.port q).conds ||| 0x08#6 }) ∧
        (∀ r, s.capture.record = some r → t.capture = ⟨some r, true⟩ ∧ t.ports = s.ports) ∧
        (∀ q, t.queueOf q = if (s.ctx i).owner = q ∧ (s.ctx i).conds = 0 then s.queueOf q ++ [i] else s.queueOf q) ∧
        t = { s with ctxs := t.ctxs, capture := t.capture, ports := t.ports, attention := t.attention })

/-! ### Frames of the highway, boundaries, period work -/

/-- The frame timer, with no claim of the last boundary outstanding. A mark while UNLOCKED locks with count 0 and new
empty blocks; while LOCKED it counts, each collecting slot taking one code: the one the mark lists for it, or, where it
lists none, a code the statement leaves free (the model draws it as a free value: its choice, log 5); the 160th produces a
boundary. A mapped slot without an inbound block collects nothing until the next boundary, which starts it one; a slot with
no map entry keeps its blocks as they are. Loss of
framing unlocks and discards every inbound and outbound block; works go on (R80, R81, R82, R26). Where the last boundary
still owes claims, a mark, and a loss of framing while LOCKED, is that event from the state in which the two ports and then
the contexts in OPEN, ARMED, ACTIVE and HELD have taken theirs (R82); that they are taken there, and in ascending index, is
the model's (log 6, log 7). The claims are those of PORT_BOUNDARY and BOUNDARY_CLAIM; at a FREE or CLOSED record a claim
changes no record, and that it marks the index is the model's choice (log 29). What a slot carries in a
frame that begins in state `s`: nothing where no map entry names it (NOT_DRIVEN) or no frame runs; the outbound block's
code of the frame where its context is ACTIVE and the block is there (SPEECH); else the idle code of its law (IDLE) (R27;
that it is read from the state when the frame begins is the model's reading, log 11). -/
def Obligations.FrameMarksAndTheirLoss : Prop :=
  (∀ rx (s : State), s.pinHeld = false → s.timer.owed = false → s.timer.portDue = ⟨false, false⟩ →
    ∃ t, exec (.frameMark rx) s = .next t ∧
      t = { s with timer := t.timer, blocks := t.blocks, freeCount := t.freeCount } ∧
      (∀ n, s.slotEntry n = none → t.block n = s.block n) ∧
      (s.timer.frame = none → t.timer.frame = some 0 ∧ t.timer.period = s.timer.period ∧ t.timer.owed = false ∧
        ∀ n, s.slotEntry n ≠ none → t.block n = ⟨some [], none, none⟩) ∧
      (∀ k, s.timer.frame = some k → k + 1 < 160 →
        t.timer.frame = some (k + 1) ∧ t.timer.period = s.timer.period ∧ t.timer.owed = false ∧
        ∀ n l b, s.canonical = true → s.slotEntry n ≠ none → (s.block n).inbound = some l →
          rx.find? (fun e => e.1 = n) = some (n, b) → t.block n = { s.block n with inbound := some (l ++ [b]) }) ∧
      (∀ k, s.timer.frame = some k → k + 1 < 160 → s.canonical = true → ∀ n, s.slotEntry n ≠ none →
        (∀ l, (s.block n).inbound = some l → rx.find? (fun e => e.1 = n) = none →
          ∃ b, t.block n = { s.block n with inbound := some (l ++ [b]) }) ∧
        ((s.block n).inbound = none → t.block n = s.block n)) ∧
      (s.timer.frame = some 159 → s.canonical = true → ∀ n, s.slotEntry n ≠ none →
        (∀ l, (s.block n).inbound = some l → rx.find? (fun e => e.1 = n) = none →
          ∃ b, t.block n = ⟨some [], some (l ++ [b]), none⟩) ∧
        ((s.block n).inbound = none → t.block n = ⟨some [], none, none⟩)) ∧
      (s.timer.frame = some 159 →
        t.timer.frame = some 0 ∧ t.timer.period = s.timer.period + 1 ∧ t.timer.portDue = ⟨true, true⟩ ∧
        (∀ i, t.claimDue i = true) ∧
        ∀ n l b, s.canonical = true → s.slotEntry n ≠ none → (s.block n).inbound = some l →
          rx.find? (fun e => e.1 = n) = some (n, b) → t.block n = ⟨some [], some (l ++ [b]), none⟩)) ∧
  (∀ (s : State) k, s.pinHeld = false → s.timer.owed = false → s.timer.portDue = ⟨false, false⟩ →
    s.timer.frame = some k →
    ∃ t, exec .framingLost s = .next t ∧ t.timer.frame = none ∧ t.timer.period = s.timer.period ∧
      (∀ n, t.block n = { s.block n with inbound := none, outbound := none }) ∧
      t = { s with timer := t.timer, blocks := t.blocks }) ∧
  (∀ (s : State), s.pinHeld = false → (∀ p, exec (.portBoundary p) s = .next (s.portBoundary p)) ∧
    ∀ i : Fin 2048, exec (.boundaryClaim i) s = .next (s.boundaryClaim i.val)) ∧
  (∀ (s : State) i, (s.ctx i).state = .free ∨ (s.ctx i).state = .closed →
    s.boundaryClaim i = { s with timer := { s.timer with claimed := (s.boundaryClaim i).timer.claimed } }) ∧
  (∀ (s : State), s.pinHeld = false → s.canonical = true → ∃ (order : List Nat) (v w : State),
    order.Pairwise (· < ·) ∧ (∀ i, (s.ctx i).state ∈ [.opened, .armed, .active, .held] → i ∈ order) ∧
    w = order.foldl State.boundaryClaim ((s.portBoundary .a).portBoundary .b) ∧
    v = { w with timer := { w.timer with owed := false, claimed := [] } } ∧ v.timer.portDue = ⟨false, false⟩ ∧
    (∀ rx, exec (.frameMark rx) s = exec (.frameMark rx) v) ∧
    ∀ k, s.timer.frame = some k → v.timer.frame = some k ∧ exec .framingLost s = exec .framingLost v) ∧
  (∀ (s : State) n, (s.slotEntry n = none → s.drive n = .notDriven ∧ s.transmits n = none) ∧
    (s.timer.frame = none → s.transmits n = none)) ∧
  ∀ (s : State) n i b k, s.slotEntry n = some i → (s.ctx i).slot = some b → s.timer.frame = some k →
    (∀ codes c, (s.ctx i).state = .active → (s.block n).outbound = some codes → codes[k]? = some c →
      s.drive n = .speech ∧ s.transmits n = some c) ∧
    (((s.ctx i).state ≠ .active ∨ (s.block n).outbound = none) →
      s.drive n = .idle ∧ (b.law = .aLaw → s.transmits n = some 0xD5) ∧ (b.law = .muLaw → s.transmits n = some 0xFF))

/-- The boundary claim of a converting context with no handover, no pending request and no count running out: its
count steps, its ready block plays, one work starts with the items R85 fixes, CONCEAL is counted where that work conceals
and no other event is, and the claim is taken once (R84, R85, R141, R143, R181). With a handover
record whose deadline goes on, the work also fixes the record's new key where bicast is yes; in the claim in which the
deadline runs out it fixes none, and HANDOVER_FAIL is counted before the work starts (R85, R125, R131). The claim of an OPEN or HELD context steps the deadline of its handover
record and discards the block handed over to its slot; no work starts and nothing else changes (R84, R130). -/
def Obligations.BoundaryClaimStartsWork : Prop :=
  (∀ (i : Fin 2048) (s : State) b, s.pinHeld = false → s.claimDue i.val = true → (s.ctx i.val).handover = none →
    (s.ctx i.val).request = none → (s.ctx i.val).slot = some b →
    ((s.ctx i.val).state = .armed ∧ (∃ n, (s.ctx i.val).firstRemaining = some n ∧ 2 ≤ n) ∨
      (s.ctx i.val).state = .active ∧ (s.ctx i.val).silence + 1 < (s.ctx i.val).silenceLimit) →
    ∃ t w, exec (.boundaryClaim i) s = .next t ∧ (t.ctx i.val).work = some w ∧
      w.rate = (s.ctx i.val).rate.getD 0 ∧ w.primary = (s.ctx i.val).primary ∧ w.bicast = none ∧
      (∀ n c e, (s.ctx i.val).profile = some n → s.contents n = some c → c.table[(s.ctx i.val).rate.getD 0]? = some e →
        w.length = e.bytes ∧ w.family = c.family) ∧
      w.outSeq = (s.ctx i.val).outSeq ∧ w.gainLand = (s.ctx i.val).gainLand ∧ w.gainMobile = (s.ctx i.val).gainMobile ∧
      w.round = ((s.ctx i.val).rounding.resolve s.defaultRound) ∧ w.clipReport = (s.ctx i.val).clipReport ∧
      w.landline = (s.block b.slot).handed.getD [] ∧ ((s.ctx i.val).state = .armed → w.uplink = .noSamples) ∧
      (t.ctx i.val).state = (s.ctx i.val).state ∧ (t.ctx i.val).ready = none ∧
      (t.ctx i.val).firstRemaining = (if (s.ctx i.val).state = .armed then (s.ctx i.val).firstRemaining.map (· - 1)
        else (s.ctx i.val).firstRemaining) ∧
      (t.ctx i.val).silence = (if (s.ctx i.val).state = .active then min 6000 ((s.ctx i.val).silence + 1)
        else (s.ctx i.val).silence) ∧
      (t.ctx i.val).staleRaised = (s.ctx i.val).staleRaised ∧ (t.ctx i.val).conds = (s.ctx i.val).conds ∧
      Counted s t i.val (if w.uplink = .conceal then [.conceal] else []) ∧
      (t.ctx i.val).sinceRate = min 65535 ((s.ctx i.val).sinceRate + 1) ∧
      t.block b.slot = { s.block b.slot with outbound := (s.ctx i.val).ready, handed := none } ∧
      (∀ n, n ≠ b.slot → t.block n = s.block n) ∧ (∀ n, n < 8 → (t.lane n).inHand ≠ some i.val) ∧
      OnlyCtx s t i.val ∧ t.claimDue i.val = false ∧
      t = { s with
        ctxs := t.ctxs, blocks := t.blocks, lanes := t.lanes, timer := t.timer, tally0 := t.tally0,
        tally1 := t.tally1 }) ∧
  (∀ (i : Fin 2048) (s : State), s.pinHeld = false → s.claimDue i.val = true →
    ((s.ctx i.val).state = .opened ∨ (s.ctx i.val).state = .held) →
    (∀ h, (s.ctx i.val).handover = some h → 2 ≤ h.remaining) →
    ∃ t, exec (.boundaryClaim i) s = .next t ∧
      t.ctx i.val = { s.ctx i.val with
        handover := (s.ctx i.val).handover.map fun h => { h with remaining := h.remaining - 1 } } ∧
      OnlyCtx s t i.val ∧
      (∀ n, t.block n = if (s.ctx i.val).slot.map SlotBinding.slot = some n then { s.block n with handed := none }
        else s.block n) ∧
      ClaimTaken s t i.val ∧ t = { s with ctxs := t.ctxs, blocks := t.blocks, timer := t.timer }) ∧
  ∀ (i : Fin 2048) (s : State) h, s.pinHeld = false → s.claimDue i.val = true → (s.ctx i.val).handover = some h →
    (s.ctx i.val).request = none →
    ((s.ctx i.val).state = .armed ∧ (∃ n, (s.ctx i.val).firstRemaining = some n ∧ 2 ≤ n) ∨
      (s.ctx i.val).state = .active ∧ (s.ctx i.val).silence + 1 < (s.ctx i.val).silenceLimit) →
    ∃ t w, exec (.boundaryClaim i) s = .next t ∧ (t.ctx i.val).work = some w ∧
      w.primary = (s.ctx i.val).primary ∧ w.outSeq = (s.ctx i.val).outSeq ∧
      (2 ≤ h.remaining → w.bicast = (if h.bicast then some h.key else none) ∧
        (t.ctx i.val).handover = some { h with remaining := h.remaining - 1 } ∧
        Counted s t i.val (if w.uplink = .conceal then [.conceal] else [])) ∧
      (h.remaining = 1 → w.bicast = none ∧ (t.ctx i.val).handover = none ∧
        Counted s t i.val (.handoverFail :: if w.uplink = .conceal then [.conceal] else []))

/-- The queue selection of a work start (R100): no samples without an expected sequence or while priming below the
depth target; else the head at distance 0, by its kind, or concealment, and the expected sequence advances. A
SILENCE_UPDATE's payload becomes the kernel's description (R90), which the model does in this claim, a moment R90 does not
give: its own choice (log 9); a NO_DATA head plays the description held, and silence where
there is none (R90), which the model takes as linear level 0 (log 10). A concealment counts one CONCEAL event, and nothing
else is counted (R100, R181). -/
def Obligations.QueueSelection : Prop :=
  ∀ (i : Fin 2048) (s : State) e, s.pinHeld = false → s.claimDue i.val = true → (s.ctx i.val).handover = none →
    (s.ctx i.val).request = none → (s.ctx i.val).state = .active →
    (s.ctx i.val).silence + 1 < (s.ctx i.val).silenceLimit →
    ∃ t w, exec (.boundaryClaim i) s = .next t ∧ (t.ctx i.val).work = some w ∧
      Counted s t i.val (if w.uplink = .conceal then [.conceal] else []) ∧
      ((s.ctx i.val).expected = none → w.uplink = .noSamples ∧ (t.ctx i.val).queue = (s.ctx i.val).queue) ∧
      ((s.ctx i.val).expected = some e → (s.ctx i.val).priming = true →
        (s.ctx i.val).queue.length < (s.ctx i.val).depth →
        w.uplink = .noSamples ∧ (t.ctx i.val).queue = (s.ctx i.val).queue ∧ (t.ctx i.val).expected = some e ∧
        (t.ctx i.val).priming = true) ∧
      (∀ x rest, (s.ctx i.val).expected = some e →
        ((s.ctx i.val).priming = false ∨ (s.ctx i.val).depth ≤ (s.ctx i.val).queue.length) →
        (s.ctx i.val).queue = x :: rest → x.seq = e → x.kind = .speech →
        w.uplink = .speech x.rate x.payload ∧ (t.ctx i.val).queue = rest ∧ (t.ctx i.val).expected = some (e + 1) ∧
        (t.ctx i.val).priming = false) ∧
      (∀ x rest, (s.ctx i.val).expected = some e →
        ((s.ctx i.val).priming = false ∨ (s.ctx i.val).depth ≤ (s.ctx i.val).queue.length) →
        (s.ctx i.val).queue = x :: rest → x.seq = e → x.kind ≠ .speech →
        (t.ctx i.val).queue = rest ∧ (t.ctx i.val).expected = some (e + 1) ∧ (t.ctx i.val).priming = false ∧
        (x.kind = .silenceUpdate → w.uplink = .noise x.payload ∧ (t.ctx i.val).noise = some x.payload ∧
          (t.ctx i.val).counters = (s.ctx i.val).counters) ∧
        (x.kind = .noData → (∀ d, (s.ctx i.val).noise = some d → w.uplink = .noise d) ∧
          ((s.ctx i.val).noise = none → w.uplink = .silence) ∧ (t.ctx i.val).noise = (s.ctx i.val).noise ∧
          (t.ctx i.val).counters = (s.ctx i.val).counters) ∧
        (x.kind = .erased → w.uplink = .conceal ∧ (t.ctx i.val).noise = (s.ctx i.val).noise ∧
          (t.ctx i.val).counters.concealed = (s.ctx i.val).counters.concealed + 1)) ∧
      ((s.ctx i.val).expected = some e → (s.ctx i.val).priming = false → (∀ x ∈ (s.ctx i.val).queue, x.seq ≠ e) →
        w.uplink = .conceal ∧ (t.ctx i.val).queue = (s.ctx i.val).queue ∧ (t.ctx i.val).expected = some (e + 1) ∧
        (t.ctx i.val).counters.concealed = (s.ctx i.val).counters.concealed + 1)

/-- The settling of a pending request in a boundary claim, at a context with no handover and no count running out: a
CELL request waits for the rate hold; the current rate ends it; a lower rate, and a higher one whose difference fits,
is applied, and the work that starts encodes it; else the highest permitted index between them that fits is; where
none fits it is refused (R109 to R112). An application counts RATE_CHANGE, a refusal ADMIT_REFUSED, before a concealment
of the work that starts is counted (R111, R112, R181). `conceal` is that event, or none. -/
def Obligations.RateSettledBeforeTheWorkStarts : Prop :=
  ∀ (i : Fin 2048) (s : State) r q src n c e e', s.pinHeld = false → s.claimDue i.val = true →
    (s.ctx i.val).handover = none →
    ((s.ctx i.val).state = .armed ∧ (∃ m, (s.ctx i.val).firstRemaining = some m ∧ 2 ≤ m) ∨
      (s.ctx i.val).state = .active ∧ (s.ctx i.val).silence + 1 < (s.ctx i.val).silenceLimit) →
    (s.ctx i.val).request = some ⟨r, src⟩ →
    (s.ctx i.val).rate = some q → (s.ctx i.val).profile = some n → s.contents n = some c → c.table[q]? = some e →
    c.table[r]? = some e' →
    ∃ t w conceal, exec (.boundaryClaim i) s = .next t ∧ (t.ctx i.val).work = some w ∧ OnlyCtx s t i.val ∧
      conceal = (if w.uplink = .conceal then [Event.conceal] else []) ∧
      (src = .cell → min 65535 ((s.ctx i.val).sinceRate + 1) < c.hold →
        (t.ctx i.val).request = some ⟨r, src⟩ ∧ (t.ctx i.val).rate = some q ∧ w.rate = q ∧ t.reserved = s.reserved ∧
        Counted s t i.val conceal) ∧
      ((src = .order ∨ c.hold ≤ min 65535 ((s.ctx i.val).sinceRate + 1)) →
        (t.ctx i.val).request = none ∧
        (r = q → (t.ctx i.val).rate = some q ∧ w.rate = q ∧ t.reserved = s.reserved ∧
          (t.ctx i.val).conds = (s.ctx i.val).conds ∧ Counted s t i.val conceal) ∧
        ((r < q ∨ q < r ∧ s.reserved + (e'.cost - e.cost) ≤ s.available) →
          (t.ctx i.val).rate = some r ∧ w.rate = r ∧ w.length = e'.bytes ∧ (t.ctx i.val).sinceRate = 0 ∧
          t.reserved = s.reserved + e'.cost - e.cost ∧ (t.ctx i.val).conds = (s.ctx i.val).conds ||| 0x08#12 ∧
          Counted s t i.val (.rateChange :: conceal)) ∧
        (∀ x ex set, (s.ctx i.val).permitted = some set → set.getLsbD x = true → q < x → x < r →
          c.table[x]? = some ex → s.reserved + (ex.cost - e.cost) ≤ s.available →
          (∀ y, (y = r ∨ set.getLsbD y = true ∧ x < y ∧ y < r) →
            s.available < s.reserved + (s.costOf i.val y - e.cost)) →
          (t.ctx i.val).rate = some x ∧ w.rate = x ∧ w.length = ex.bytes ∧ (t.ctx i.val).sinceRate = 0 ∧
          t.reserved = s.reserved + ex.cost - e.cost ∧ (t.ctx i.val).conds = (s.ctx i.val).conds ||| 0x08#12 ∧
          Counted s t i.val (.rateChange :: conceal)) ∧
        (q < r → (∀ x, (x = r ∨ q < x ∧ x < r ∧ ∃ set, (s.ctx i.val).permitted = some set ∧ set.getLsbD x = true) →
            s.available < s.reserved + (s.costOf i.val x - e.cost)) →
          (t.ctx i.val).rate = some q ∧ w.rate = q ∧ t.reserved = s.reserved ∧
          (t.ctx i.val).conds = (s.ctx i.val).conds ||| 0x10#12 ∧ Counted s t i.val (.admitRefused :: conceal)))

/-- A lane finishes the work it has in hand: one cell on the primary key's link, a copy on the bicast key's under the
same sequence, the outbound sequence past it, and the samples, where there are any, as the ready block. CELL_OUT is counted
for each cell sent, and CLIP_PERIOD for a clipping work (R181). The cells of a
link leave it in the order they were handed (R28, R86, R87); that of the two cells of one claim on one link the primary
key's is handed first is the model's choice (log 31). The encoder takes 160 linear samples: the landline codes
expanded, 0 where there is none, scaled and limited (R89). The payload's bytes are any bytes (R90); that they are the
opaque `Config.payloadByte` at the model's own counter `freeCount` is its choice (log 8). The ready block is the 160 samples, each any value of its range
(0 each for silence, log 10), scaled, limited and compressed under the slot's law and the work's mode; a work with a
clipping sample is counted, and CLIPPING raised where its flag is on (R92). Last, what scaling, limiting, expansion and
compression are: the product with 10^(g/20) rounded to the nearest integer, halves away from zero (R89, R92); the levels
of R91; the byte of a level, of the level the mode chooses between the two next to a value, and of the largest code beyond
the largest level, a choice left open going to the positive code (R92, R93). -/
def Obligations.WorkCompletionSendsItsCell : Prop :=
  (∀ (n : Fin 8) (s : State) i w k, s.pinHeld = false → (s.lane n.val).inHand = some i → (s.ctx i).work = some w →
    w.primary = some k →
    ∃ t payload, exec (.workCompletion n) s = .next t ∧ payload.length = w.length ∧
      (w.bicast = none → ∀ l, t.link l = s.link l ++ (if l = k.link then [⟨k.tag, w.rate, w.outSeq, payload⟩] else [])) ∧
      (∀ k', w.bicast = some k' → ∀ l, t.link l =
        s.link l ++ (if l = k.link then [⟨k.tag, w.rate, w.outSeq, payload⟩] else []) ++
          (if l = k'.link then [⟨k'.tag, w.rate, w.outSeq, payload⟩] else [])) ∧
      (t.ctx i).work = none ∧ (t.ctx i).outSeq = w.outSeq + 1 ∧
      (t.ctx i).counters.cellsOut = (s.ctx i).counters.cellsOut + 1 ∧
      (∃ levels : List Int, levels.length = 160 ∧
        (∀ k, k < 160 → levels[k]? =
          some (limit (scale w.gainMobile (((w.landline[k]?).map (s.ctx i).law.expand).getD 0)))) ∧
        payload = (List.range w.length).map (Config.payloadByte s.freeCount w.family.code w.length levels)) ∧
      (w.uplink = .noSamples → (t.ctx i).ready = (s.ctx i).ready ∧ (t.ctx i).conds = (s.ctx i).conds ∧
        (t.ctx i).counters.clipPeriods = (s.ctx i).counters.clipPeriods ∧
        Counted s t i (.cellOut :: if w.bicast.isSome then [.cellOut] else [])) ∧
      (w.uplink ≠ .noSamples → ∃ (samples : List Int) (clipped : Bool), samples.length = 160 ∧
        (∀ x ∈ samples, -32768 ≤ x ∧ x ≤ 32767) ∧ (w.uplink = .silence → ∀ x ∈ samples, x = 0) ∧
        (t.ctx i).ready =
          some (samples.map fun x => (s.ctx i).law.compress w.round (limit (scale w.gainLand x))) ∧
        (clipped = true ↔ ∃ x ∈ samples, scale w.gainLand x < -32768 ∨ 32767 < scale w.gainLand x) ∧
        (t.ctx i).counters.clipPeriods =
          (if clipped then (s.ctx i).counters.clipPeriods + 1 else (s.ctx i).counters.clipPeriods) ∧
        (t.ctx i).conds = (if clipped ∧ w.clipReport then (s.ctx i).conds ||| 0x400#12 else (s.ctx i).conds) ∧
        Counted s t i (.cellOut :: (if w.bicast.isSome then [.cellOut] else []) ++
          if clipped then [.clipPeriod] else [])) ∧
      (w.uplink ≠ .noSamples → ∃ codes, (t.ctx i).ready = some codes ∧ codes.length = 160) ∧
      (t.ctx i).state = (s.ctx i).state ∧ (t.ctx i).queue = (s.ctx i).queue ∧ OnlyCtx s t i ∧
      (t.lane n.val) = { s.lane n.val with inHand := none } ∧ (∀ m, m ≠ n.val → t.lane m = s.lane m) ∧
      t = { s with
        ctxs := t.ctxs, links := t.links, lanes := t.lanes, attention := t.attention, tally0 := t.tally0,
        tally1 := t.tally1, freeCount := t.freeCount }) ∧
  (∀ (l : Fin 4) (s : State) c rest, s.pinHeld = false → s.link l.val = c :: rest →
    ∃ t, exec (.outboundCellSent l) s = .next t ∧ t.link l.val = rest ∧ (∀ m, m ≠ l.val → t.link m = s.link m) ∧
      t = { s with links := t.links }) ∧
  (∀ g x : Int, -12 ≤ g → g ≤ 12 → -32768 ≤ x → x ≤ 32767 →
    ((scale g x).natAbs : ℝ) - 1 / 2 ≤ x.natAbs * (10 : ℝ) ^ ((g : ℝ) / 20) ∧
    (x.natAbs : ℝ) * (10 : ℝ) ^ ((g : ℝ) / 20) < (scale g x).natAbs + 1 / 2 ∧
    (0 ≤ x → 0 ≤ scale g x) ∧ (x ≤ 0 → scale g x ≤ 0)) ∧
  (∀ x : Int, limit x = max (-32768) (min 32767 x)) ∧
  (∀ q s : Nat, q < 16 → s < 8 →
    Law.expand .aLaw (BitVec.ofNat 8 (128 + 16 * s + q) ^^^ 0x55) =
      ((if s = 0 then 8 * (2 * q + 1) else 8 * (2 * q + 33) * 2 ^ (s - 1) : Nat) : Int) ∧
    Law.expand .aLaw (BitVec.ofNat 8 (16 * s + q) ^^^ 0x55) =
      -((if s = 0 then 8 * (2 * q + 1) else 8 * (2 * q + 33) * 2 ^ (s - 1) : Nat) : Int) ∧
    Law.expand .muLaw (BitVec.ofNat 8 (128 + 16 * s + q) ^^^ 0x7F) = 4 * ((2 * q + 33) * 2 ^ s - 33) ∧
    Law.expand .muLaw (BitVec.ofNat 8 (16 * s + q) ^^^ 0x7F) = -(4 * ((2 * q + 33) * 2 ^ s - 33))) ∧
  ∀ (l : Law) (pattern : Byte) (mode : RoundMode) (x : Int),
    (l = .aLaw ∧ pattern = 0x55 ∨ l = .muLaw ∧ pattern = 0x7F) →
    ((∃ b, l.expand b = x) → l.expand (l.compress mode x) = x) ∧
    ((∀ b, (l.expand b).natAbs < x.natAbs) → l.compress mode x = (if 0 ≤ x then 0xFF else 0x7F) ^^^ pattern) ∧
    (l.expand (l.compress mode x) = 0 → l.compress mode x = 0x80 ^^^ pattern) ∧
    ∀ L H, l.expand L < x → x < l.expand H → (∀ b, l.expand b ≤ l.expand L ∨ l.expand H ≤ l.expand b) →
      (mode = .downward → l.expand (l.compress mode x) = l.expand L) ∧
      (mode = .upward → l.expand (l.compress mode x) = l.expand H) ∧
      (mode = .towardZero → l.expand (l.compress mode x) =
        if (l.expand L).natAbs < (l.expand H).natAbs then l.expand L else l.expand H) ∧
      (mode = .nearestEven → l.expand (l.compress mode x) =
        if x - l.expand L < l.expand H - x then l.expand L
        else if l.expand H - x < x - l.expand L then l.expand H
        else if (L ^^^ pattern).toNat % 2 = 0 ∧ (H ^^^ pattern).toNat % 2 = 1 then l.expand L
        else l.expand H)

/-! ### Call supervision, port supervision, handover expiry -/

/-- The first-cell wait running out: back to OPEN with NO_FIRST_CELL and the units returned, the pending request removed,
with RATE_REFUSED where an order placed it, the block handed over discarded; or CLOSED with auto-retire, every holding
released and the pending set {RETIRED} (R141, R17, R18, R20, R84). Nothing else changes. That FIRST_CELL_EXPIRY is the whole
boundary claim, which BOUNDARY_CLAIM is too, is the model's reading (log 4); so is which fields a CLOSED record keeps
(log 22). -/
def Obligations.FirstCellWaitExpires : Prop :=
  ∀ (i : Fin 2048) (s : State), s.pinHeld = false → s.claimDue i.val = true → (s.ctx i.val).state = .armed →
    (s.ctx i.val).firstRemaining = some 1 → (s.ctx i.val).handover = none →
    ∃ t, exec (.firstCellExpiry i) s = .next t ∧ exec (.boundaryClaim i) s = .next t ∧ OnlyCtx s t i.val ∧
      (t.ctx i.val).work = none ∧ t.reserved = s.reserved - s.currentCost i.val ∧ ClaimTaken s t i.val ∧
      ((s.ctx i.val).autoRetire = false →
        t.ctx i.val = { s.ctx i.val with
          state := .opened, firstRemaining := none, request := none, work := none, ready := none,
          conds := (s.ctx i.val).conds ||| (if fromOrder (s.ctx i.val).request then 0x10#12 else 0) ||| 0x02#12 } ∧
        (∀ q, t.queueOf q = if (s.ctx i.val).owner = q ∧ (s.ctx i.val).conds = 0 then s.queueOf q ++ [i.val]
          else s.queueOf q) ∧
        (∀ n, n < 8 → t.lane n = ⟨(s.lane n).state, (s.lane n).inHand.filter (· ≠ i.val)⟩) ∧
        (∀ n, t.block n = if (s.ctx i.val).slot.map SlotBinding.slot = some n then { s.block n with handed := none }
          else s.block n) ∧
        t = { s with
          ctxs := t.ctxs, reserved := t.reserved, lanes := t.lanes, blocks := t.blocks, attention := t.attention,
          timer := t.timer }) ∧
      ((s.ctx i.val).autoRetire = true →
        t.ctx i.val = { s.ctx i.val with
          state := .closed, conds := 0x800#12, retireCause := some .noFirstCell, slot := none, primary := none,
          handover := none, profile := none, permitted := none, rate := none, request := none, expected := none,
          queue := [], firstRemaining := none, holdCause := none, heldFrom := none, work := none, ready := none } ∧
        HoldingsReleased s t i.val ∧
        (∀ q, t.queueOf q = if (s.ctx i.val).owner = q ∧ i.val ∉ s.queueOf q then s.queueOf q ++ [i.val]
          else s.queueOf q) ∧
        t = { s with
          ctxs := t.ctxs, reserved := t.reserved, lanes := t.lanes, slotMap := t.slotMap, streamMap := t.streamMap,
          profiles := t.profiles, blocks := t.blocks, attention := t.attention, timer := t.timer })

/-- The boundary claim of an ACTIVE context whose silence count, stepped to 6000 at most, stands at or above its limit,
also where the limit was lowered below the count. STALE is raised once, where stale raised is no, and the claim goes on to
start a work; at or above twice the limit with auto-retire on the context closes with cause SILENCE, every holding released
and the pending set {RETIRED}, and no work starts; with auto-retire off the count goes on and nothing more happens (R143,
R18, R20, R84). Nothing else changes. That SILENCE_LIMIT and SILENCE_RETIRE are the whole boundary claim, which
BOUNDARY_CLAIM is too, is the model's reading (log 4); so is which fields a CLOSED record keeps (log 22). `count` is the
stepped count. -/
def Obligations.SilenceCounts : Prop :=
  ∀ (i : Fin 2048) (s : State) count, s.pinHeld = false → s.claimDue i.val = true → (s.ctx i.val).state = .active →
    (s.ctx i.val).handover = none → count = min 6000 ((s.ctx i.val).silence + 1) →
    ((s.ctx i.val).silenceLimit ≤ count →
      ((s.ctx i.val).autoRetire = false ∨ count < 2 * (s.ctx i.val).silenceLimit) → (s.ctx i.val).request = none →
      ∃ t w, exec (.boundaryClaim i) s = .next t ∧
        ((s.ctx i.val).staleRaised = false → exec (.silenceLimit i) s = .next t) ∧
        (t.ctx i.val).state = .active ∧ (t.ctx i.val).staleRaised = true ∧ (t.ctx i.val).silence = count ∧
        (t.ctx i.val).conds =
          (if (s.ctx i.val).staleRaised then (s.ctx i.val).conds else (s.ctx i.val).conds ||| 0x04#12) ∧
        t.queueOf (s.ctx i.val).owner =
          (if (s.ctx i.val).staleRaised = false ∧ (s.ctx i.val).conds = 0
          then s.queueOf (s.ctx i.val).owner ++ [i.val]
          else s.queueOf (s.ctx i.val).owner) ∧
        t.queueOf (s.ctx i.val).owner.other = s.queueOf (s.ctx i.val).owner.other ∧ OnlyCtx s t i.val ∧
        ClaimTaken s t i.val ∧ (t.ctx i.val).work = some w ∧
        Counted s t i.val (if w.uplink = .conceal then [.conceal] else []) ∧
        (∀ n, t.block n = if (s.ctx i.val).slot.map SlotBinding.slot = some n then
            { s.block n with outbound := (s.ctx i.val).ready, handed := none }
          else s.block n) ∧
        (∀ n, n < 8 → t.lane n = ⟨(s.lane n).state, (s.lane n).inHand.filter (· ≠ i.val)⟩) ∧
        t = { s with
          ctxs := t.ctxs, blocks := t.blocks, lanes := t.lanes, attention := t.attention, timer := t.timer,
          tally0 := t.tally0, tally1 := t.tally1 }) ∧
    (2 * (s.ctx i.val).silenceLimit ≤ count → (s.ctx i.val).autoRetire = true →
      ∃ t, exec (.silenceRetire i) s = .next t ∧ exec (.boundaryClaim i) s = .next t ∧
        t.ctx i.val = { s.ctx i.val with
          state := .closed, conds := 0x800#12, retireCause := some .silence, silence := count, staleRaised := true, slot := none, primary := none, handover := none, profile := none, permitted := none,
          rate := none, request := none, expected := none, queue := [], firstRemaining := none, holdCause := none,
          heldFrom := none, work := none, ready := none } ∧
        t.reserved = s.reserved - s.currentCost i.val ∧ i.val ∈ t.queueOf (s.ctx i.val).owner ∧
        (s.queuesMatch → ∀ q, t.queueOf q = if (s.ctx i.val).owner = q ∧ (s.ctx i.val).conds = 0 then
            s.queueOf q ++ [i.val]
          else s.queueOf q) ∧
        OnlyCtx s t i.val ∧ HoldingsReleased s t i.val ∧ ClaimTaken s t i.val ∧
        t = { s with
          ctxs := t.ctxs, reserved := t.reserved, lanes := t.lanes, slotMap := t.slotMap, streamMap := t.streamMap,
          profiles := t.profiles, blocks := t.blocks, attention := t.attention, timer := t.timer })

/-- The handover deadline running out removes the record and its entry, raises HANDOVER_FAILED, where the set was empty
queueing the index at its owner, and counts one HANDOVER_FAIL event for the context's handle; in OPEN and HELD nothing else
changes but the block handed over, which is discarded, and in ARMED and ACTIVE the claim goes on (R130, R84). In every one
of these states the claim is the boundary claim from the state `v` in which the expiry has been taken, so that another
expiry of the same claim follows it: the first-cell wait, STALE, or the closing for silence, as FirstCellWaitExpires and
SilenceCounts say of `v` (R131). That HANDOVER_EXPIRY is the whole boundary claim, which BOUNDARY_CLAIM is too, is the
model's reading (log 4). -/
def Obligations.HandoverDeadlineExpires : Prop :=
  (∀ (i : Fin 2048) (s : State) h n e, s.pinHeld = false → s.claimDue i.val = true → (s.ctx i.val).handover = some h →
    h.remaining = 1 → s.findStream h.key = some (n, e) →
    ((s.ctx i.val).state = .opened ∨ (s.ctx i.val).state = .held ∨
      (s.ctx i.val).state = .active ∧ (s.ctx i.val).silence + 1 < (s.ctx i.val).silenceLimit ∧
        (s.ctx i.val).silenceLimit ≤ 3000 ∧ (s.ctx i.val).request = none ∨
      (s.ctx i.val).state = .armed ∧ (∃ m, (s.ctx i.val).firstRemaining = some m ∧ 2 ≤ m) ∧
        (s.ctx i.val).request = none) →
    ∃ t, exec (.handoverExpiry i) s = .next t ∧ exec (.boundaryClaim i) s = .next t ∧
      (t.ctx i.val).handover = none ∧
      (t.ctx i.val).primary = (s.ctx i.val).primary ∧ (t.ctx i.val).state = (s.ctx i.val).state ∧
      (t.ctx i.val).conds = (s.ctx i.val).conds ||| 0x40#12 ∧
      (((s.ctx i.val).state = .opened ∨ (s.ctx i.val).state = .held) →
        t.ctx i.val = { s.ctx i.val with handover := none, conds := (s.ctx i.val).conds ||| 0x40#12 } ∧
        (∀ m, t.block m = if (s.ctx i.val).slot.map SlotBinding.slot = some m then { s.block m with handed := none }
          else s.block m) ∧
        t.tally0 = s.tally0.step .handoverFail (some ⟨i.val, (s.ctx i.val).gen⟩) ∧
        t.tally1 = s.tally1.step .handoverFail (some ⟨i.val, (s.ctx i.val).gen⟩) ∧ t.lanes = s.lanes) ∧
      (((s.ctx i.val).state = .active ∨ (s.ctx i.val).state = .armed) →
        ∃ w, (t.ctx i.val).work = some w ∧ w.bicast = none ∧ w.primary = (s.ctx i.val).primary ∧
          Counted s t i.val (.handoverFail :: if w.uplink = .conceal then [.conceal] else [])) ∧
      (∀ q, t.queueOf q = if (s.ctx i.val).owner = q ∧ (s.ctx i.val).conds = 0 then s.queueOf q ++ [i.val]
        else s.queueOf q) ∧
      (∀ m, t.streamEntry m = if m = n then none else s.streamEntry m) ∧ OnlyCtx s t i.val ∧
      ClaimTaken s t i.val ∧
      t = { s with
        ctxs := t.ctxs, streamMap := t.streamMap, blocks := t.blocks, lanes := t.lanes, attention := t.attention,
        timer := t.timer, tally0 := t.tally0, tally1 := t.tally1 }) ∧
  ∀ (i : Fin 2048) (s : State) h n e, s.pinHeld = false → s.claimDue i.val = true → (s.ctx i.val).handover = some h →
    h.remaining = 1 → s.findStream h.key = some (n, e) → (s.ctx i.val).state ∈ [.opened, .armed, .active, .held] →
    ∃ t v, exec (.handoverExpiry i) s = .next t ∧ exec (.boundaryClaim i) s = .next t ∧
      exec (.boundaryClaim i) v = .next t ∧
      v.ctx i.val = { s.ctx i.val with handover := none, conds := (s.ctx i.val).conds ||| 0x40#12 } ∧
      OnlyCtx s v i.val ∧ (∀ m, v.streamEntry m = if m = n then none else s.streamEntry m) ∧
      (∀ q, v.queueOf q = if (s.ctx i.val).owner = q ∧ (s.ctx i.val).conds = 0 then s.queueOf q ++ [i.val]
        else s.queueOf q) ∧
      v = { s with
        ctxs := v.ctxs, streamMap := v.streamMap, attention := v.attention,
        tally0 := s.tally0.step .handoverFail (some ⟨i.val, (s.ctx i.val).gen⟩),
        tally1 := s.tally1.step .handoverFail (some ⟨i.val, (s.ctx i.val).gen⟩) } ∧
      ((s.ctx i.val).state = .armed → (s.ctx i.val).firstRemaining = some 1 →
        exec (.firstCellExpiry i) v = .next t ∧ exec (.firstCellExpiry i) s = .next t) ∧
      ((s.ctx i.val).state = .active → (s.ctx i.val).silenceLimit ≤ min 6000 ((s.ctx i.val).silence + 1) →
        (s.ctx i.val).staleRaised = false →
        exec (.silenceLimit i) v = .next t ∧ exec (.silenceLimit i) s = .next t) ∧
      ((s.ctx i.val).state = .active → 2 * (s.ctx i.val).silenceLimit ≤ min 6000 ((s.ctx i.val).silence + 1) →
        (s.ctx i.val).autoRetire = true →
        exec (.silenceRetire i) v = .next t ∧ exec (.silenceRetire i) s = .next t)

/-- A boundary at a port: with supervision disabled nothing is counted; with it enabled the count rises by 1, to 65535 at
most, and at the limit of its state the port becomes SILENT, its contexts are orphaned and PARTNER_SILENT is raised at the
other port; a SILENT port counts on and nothing else happens (R171, R172). That PORT_SILENT is the whole port boundary,
which PORT_BOUNDARY is too, is the model's reading (log 4), and so is that a port takes each boundary once, in one of the
two rows (log 7). -/
def Obligations.PortSupervision : Prop :=
  ∀ (p : Port) (s : State) v next, s.pinHeld = false → s.timer.portDue.get p = true → v = (s.port p).sup →
    next = min 65535 (v.count + 1) →
    (v.settings.enabled = false →
      ∃ t, exec (.portBoundary p) s = .next t ∧ t.timer = { s.timer with portDue := s.timer.portDue.set p false } ∧
        t = { s with timer := t.timer }) ∧
    (v.settings.enabled = true → v.state = .silent →
      ∃ t, exec (.portBoundary p) s = .next t ∧ t.port p = { s.port p with sup := { v with count := next } } ∧
        t.port p.other = s.port p.other ∧ t.timer = { s.timer with portDue := s.timer.portDue.set p false } ∧
        t = { s with ports := t.ports, timer := t.timer }) ∧
    ∀ limit, v.settings.enabled = true →
      (v.state = .initial ∧ limit = v.settings.initialLimit ∨ v.state = .live ∧ limit = v.settings.steadyLimit) →
      (next < limit →
        ∃ t, exec (.portBoundary p) s = .next t ∧ t.port p = { s.port p with sup := { v with count := next } } ∧
          t.port p.other = s.port p.other ∧ t.timer.portDue.get p = false ∧
          t.timer = { s.timer with portDue := s.timer.portDue.set p false } ∧
          t = { s with ports := t.ports, timer := t.timer }) ∧
      (limit ≤ next →
        ∃ t, exec (.portSilent p) s = .next t ∧ exec (.portBoundary p) s = .next t ∧
          t.port p = { s.port p with sup := { v with state := .silent, count := next } } ∧
          t.port p.other = { s.port p.other with conds := (s.port p.other).conds ||| 0x10#6 } ∧
          (∀ i, t.ctx i =
            if (s.ctx i).state ≠ .free ∧ (s.ctx i).owner = p then { s.ctx i with orphaned := true } else s.ctx i) ∧
          t.timer.portDue.get p = false ∧ t.timer = { s.timer with portDue := s.timer.portDue.set p false } ∧
          t = { s with ports := t.ports, timer := t.timer, ctxs := t.ctxs })

/-! ### Cells -/

/-- A malformed cell and a cell whose key is in no map entry are counted CELL_MISS for no context, and one at an OPEN
or HELD context CELL_IDLE for it; nothing else happens (R37, R38, R39). -/
def Obligations.CellsThatDoNotReachAQueue : Prop :=
  ∀ (link : Fin 4) bytes (s : State), s.pinHeld = false →
    ((bytes.length < 8 ∨ 88 < bytes.length ∨ ∃ c, parseCell link.val bytes = some c ∧
        (bytes.length ≠ 8 + c.length ∨ c.tag = 0)) →
      exec (.cellArrival link bytes) s =
        .next (s.setTallies (s.tally0.step .cellMiss none) (s.tally1.step .cellMiss none))) ∧
    (∀ c, wellFormedCell link.val bytes = some c → s.findStream ⟨link.val, c.tag⟩ = none →
      exec (.cellArrival link bytes) s =
        .next (s.setTallies (s.tally0.step .cellMiss none) (s.tally1.step .cellMiss none))) ∧
    (∀ c n e, wellFormedCell link.val bytes = some c → s.findStream ⟨link.val, c.tag⟩ = some (n, e) →
      e.role = .primary → ((s.ctx e.index).state = .opened ∨ (s.ctx e.index).state = .held) →
      exec (.cellArrival link bytes) s =
        .next (s.setTallies (s.tally0.step .cellIdle (some ⟨e.index, (s.ctx e.index).gen⟩))
          (s.tally1.step .cellIdle (some ⟨e.index, (s.ctx e.index).gen⟩))))

/-- The first cell at an ARMED context makes it ACTIVE: expected is its sequence, it is the one entry, priming begins,
the wait ends, FIRST_CELL is raised (R11, R98); at an ACTIVE context without an expected sequence the queue starts on the
cell in the same way, and no condition is raised (R98). The entry is the cell's own, or ERASED where the cell is bad, and
CELL_IN and, for a bad one, CELL_BAD are counted (R99, R181). Its rate request is corrected into the permitted set and
taken (R106 to R108). -/
def Obligations.FirstCellActivates : Prop :=
  (∀ (link : Fin 4) bytes (s : State) c n e i, s.pinHeld = false → wellFormedCell link.val bytes = some c →
    s.findStream ⟨link.val, c.tag⟩ = some (n, e) → e.role = .primary → i = e.index → (s.ctx i).state = .armed →
    ∃ t, exec (.cellArrival link bytes) s = .next t ∧ (t.ctx i).state = .active ∧ (t.ctx i).firstRemaining = none ∧
      (t.ctx i).expected = some c.seq ∧ (t.ctx i).queue = [c.entry (s.badCell i c)] ∧ (t.ctx i).priming = true ∧
      (t.ctx i).silence = 0 ∧ (t.ctx i).staleRaised = false ∧
      (t.ctx i).counters = { (s.ctx i).counters with
        cellsIn := (s.ctx i).counters.cellsIn + 1
        bad := (s.ctx i).counters.bad + if s.badCell i c then 1 else 0 } ∧
      Counted s t i (.cellIn :: if s.badCell i c then [.cellBad] else []) ∧
      (t.ctx i).conds = (s.ctx i).conds ||| 0x01#12 ∧
      RequestTaken (s.ctx i) (t.ctx i) c.request ∧ OnlyCtx s t i ∧
      t = { s with ctxs := t.ctxs, attention := t.attention, tally0 := t.tally0, tally1 := t.tally1 }) ∧
  ∀ (link : Fin 4) bytes (s : State) c n e i, s.pinHeld = false → wellFormedCell link.val bytes = some c →
    s.findStream ⟨link.val, c.tag⟩ = some (n, e) → e.role = .primary → i = e.index → (s.ctx i).state = .active →
    (s.ctx i).expected = none →
    ∃ t, exec (.cellArrival link bytes) s = .next t ∧ (t.ctx i).state = .active ∧
      (t.ctx i).expected = some c.seq ∧ (t.ctx i).queue = [c.entry (s.badCell i c)] ∧ (t.ctx i).priming = true ∧
      (t.ctx i).silence = 0 ∧ (t.ctx i).staleRaised = false ∧
      (t.ctx i).counters = { (s.ctx i).counters with
        cellsIn := (s.ctx i).counters.cellsIn + 1
        bad := (s.ctx i).counters.bad + if s.badCell i c then 1 else 0 } ∧
      Counted s t i (.cellIn :: if s.badCell i c then [.cellBad] else []) ∧
      (t.ctx i).conds = (s.ctx i).conds ∧
      RequestTaken (s.ctx i) (t.ctx i) c.request ∧ OnlyCtx s t i ∧
      t = { s with ctxs := t.ctxs, tally0 := t.tally0, tally1 := t.tally1 }

/-- A cell at an ACTIVE context by its distance from the expected sequence: 0..5 inserted in distance order, or dropped
as a duplicate; 6..32767 the queue starts again on it; else dropped as late. Its silence is reset in every case
(R97, R144). Each placement counts its own event, and a bad cell that is accepted counts CELL_BAD too (R99, R181). Its
rate request is taken where it is accepted, and not where it is dropped (R106 to R108). -/
def Obligations.QueuePlacementByDistance : Prop :=
  ∀ (link : Fin 4) bytes (s : State) c n e i x, s.pinHeld = false → wellFormedCell link.val bytes = some c →
    s.findStream ⟨link.val, c.tag⟩ = some (n, e) → e.role = .primary → i = e.index → (s.ctx i).state = .active →
    (s.ctx i).expected = some x →
    ∃ t, exec (.cellArrival link bytes) s = .next t ∧ (t.ctx i).silence = 0 ∧ (t.ctx i).staleRaised = false ∧
      OnlyCtx s t i ∧ t = { s with ctxs := t.ctxs, tally0 := t.tally0, tally1 := t.tally1 } ∧
      ((c.seq - x).toNat ≤ 5 → (∀ y ∈ (s.ctx i).queue, y.seq ≠ c.seq) →
        (s.ctx i).queue.Pairwise (fun y z => (y.seq - x).toNat < (z.seq - x).toNat) →
        (t.ctx i).queue.Pairwise (fun y z => (y.seq - x).toNat < (z.seq - x).toNat) ∧
        (∀ y, y ∈ (t.ctx i).queue ↔ y ∈ (s.ctx i).queue ∨ y = c.entry (s.badCell i c)) ∧
        (t.ctx i).expected = some x ∧
        (t.ctx i).counters = { (s.ctx i).counters with
          cellsIn := (s.ctx i).counters.cellsIn + 1
          bad := (s.ctx i).counters.bad + if s.badCell i c then 1 else 0 } ∧
        Counted s t i (.cellIn :: if s.badCell i c then [.cellBad] else []) ∧
        RequestTaken (s.ctx i) (t.ctx i) c.request) ∧
      ((c.seq - x).toNat ≤ 5 → (∃ y ∈ (s.ctx i).queue, y.seq = c.seq) →
        (t.ctx i).queue = (s.ctx i).queue ∧ (t.ctx i).expected = some x ∧ (t.ctx i).request = (s.ctx i).request ∧
        (t.ctx i).counters = { (s.ctx i).counters with duplicate := (s.ctx i).counters.duplicate + 1 } ∧
        Counted s t i [.cellDup]) ∧
      (6 ≤ (c.seq - x).toNat → (c.seq - x).toNat ≤ 32767 →
        (t.ctx i).queue = [c.entry (s.badCell i c)] ∧ (t.ctx i).expected = some c.seq ∧ (t.ctx i).priming = true ∧
        (t.ctx i).counters = { (s.ctx i).counters with
          resync := (s.ctx i).counters.resync + 1
          cellsIn := (s.ctx i).counters.cellsIn + 1
          bad := (s.ctx i).counters.bad + if s.badCell i c then 1 else 0 } ∧
        Counted s t i (.cellIn :: (if s.badCell i c then [.cellBad] else []) ++ [.cellResync]) ∧
        RequestTaken (s.ctx i) (t.ctx i) c.request) ∧
      (32768 ≤ (c.seq - x).toNat →
        (t.ctx i).queue = (s.ctx i).queue ∧ (t.ctx i).expected = some x ∧ (t.ctx i).request = (s.ctx i).request ∧
        (t.ctx i).counters = { (s.ctx i).counters with late := (s.ctx i).counters.late + 1 } ∧
        Counted s t i [.cellLate])

/-! ### Notices, ownership, sweeps, tallies -/

/-- NOTICES answers with the port's set and up to 8 contexts from its queue's head, empties what it delivered, and
frees the CLOSED ones (R169, R21). -/
def Obligations.NoticesDeliverFromTheHead : Prop :=
  ∀ (p : Port) tag (s : State) (u : State), s.takes p = true → u = s.atOrder p 0x03 → (u.queueOf p).Nodup →
    ∃ t, exec (.notices p tag []) s = .next t ∧
      t.port p = { u.port p with
        conds := 0
        line := (u.port p).line ++ [⟨0x83, tag, .ok, .single (.notices (u.port p).conds
          (((u.queueOf p).take 8).map fun i => ⟨⟨i, (u.ctx i).gen⟩, (u.ctx i).conds, (u.ctx i).state,
            (u.ctx i).holdCause, (u.ctx i).retireCause, (u.ctx i).rate⟩) ((u.queueOf p).length - 8))⟩] } ∧
      t.port p.other = u.port p.other ∧
      (∀ i, i ∈ (u.queueOf p).take 8 → (t.ctx i).conds = 0 ∧
        ((u.ctx i).state = .closed → (t.ctx i).state = .free ∧ (t.ctx i).gen = (u.ctx i).gen + 1) ∧
        ((u.ctx i).state ≠ .closed → t.ctx i = { u.ctx i with conds := 0 })) ∧
      (∀ i, i ∉ (u.queueOf p).take 8 → t.ctx i = u.ctx i) ∧
      ((∀ i, i ∈ u.queueOf p → (u.ctx i).owner = p) →
        t.queueOf p = (u.queueOf p).drop 8 ∧ t.queueOf p.other = u.queueOf p.other)

/-- ADOPT by the owner as it stands: the port's own context is left, one of a SILENT port becomes the adopter's with
its place at the tail of the adopter's queue, one of a LIVE port is refused NOT_OWNER (R174). -/
def Obligations.AdoptByOwner : Prop :=
  ∀ (p : Port) tag i0 i1 g (s : State) (u : State) i, s.takes p = true → u = s.atOrder p 0x06 → Named u i0 i1 g → i = le16 i0 i1 →
    ∃ t, exec (.adopt p tag [i0, i1, g]) s = .next t ∧
      ((u.ctx i).owner = p →
        Answered u t p 0x06 tag .ok (.adopted p (u.ctx i).state (u.ctx i).conds false) ∧ t = { u with ports := t.ports }) ∧
      ((u.ctx i).owner = p.other → (u.port p.other).sup.state ≠ .silent →
        Answered u t p 0x06 tag .notOwner .nothing ∧ t = { u with ports := t.ports }) ∧
      ((u.ctx i).owner = p.other → (u.port p.other).sup.state = .silent →
        t.ctx i = { u.ctx i with owner := p, orphaned := decide ((u.port p).sup.state = .silent) } ∧ OnlyCtx u t i ∧
        ((u.ctx i).conds = 0 → t.attention = u.attention) ∧
        ((u.ctx i).conds ≠ 0 → t.queueOf p = (u.queueOf p).filter (· ≠ i) ++ [i] ∧
          t.queueOf p.other = (u.queueOf p.other).filter (· ≠ i)) ∧
        Answered u t p 0x06 tag .ok
          (.adopted p.other (u.ctx i).state (u.ctx i).conds (decide ((u.ctx i).conds ≠ 0))) ∧
        t = { u with ctxs := t.ctxs, attention := t.attention, ports := t.ports })

/-- SWEEP writes a RUNNING record of the selector, action, stop rule, start and count its body spells, and is refused
SWEEP_BUSY while one runs, BAD_FIELD with a field out of range; SWEEP_ABORT suspends a running record and leaves another
as it is; SWEEP_CONTINUE runs a suspended one on and is refused WRONG_STATE else (R150, R151, R157, R158). That this
refusal's body is empty is the model's reading (log 20). -/
def Obligations.SweepOrders : Prop :=
  ∀ (p : Port) tag (s : State), s.takes p = true →
    (∀ pr st li hi pf py sel code par s0 s1 c0 c1 ru a rule (u : State), u = s.atOrder p 0x60 →
      SelectorSpelled pr st li hi pf py sel →
      (code = 0 ∧ a = .retire ∨ code = 1 ∧ a = .hold ∨ code = 2 ∧ a = .resume ∨
        code = 3 ∧ par.toNat ≤ 3 ∧ a = .relink par.toNat ∨ code = 4 ∧ a = .rerateLow ∨
        code = 5 ∧ par.toNat ≤ 3 ∧ a = .setPriority par.toNat ∨ code = 6 ∧ a = .adopt) →
      (ru = 0 ∧ rule = .never ∨ ru = 1 ∧ rule = .onRefusal ∨ ru = 2 ∧ rule = .onFirstAction) →
      le16 s0 s1 ≤ 2047 → 1 ≤ le16 c0 c1 → le16 c0 c1 ≤ 2048 →
      ∃ t, exec (.sweep p tag [pr, st, li, hi, pf, py, code, par, s0, s1, c0, c1, ru]) s = .next t ∧
        ((u.sweepOf p).state = .running →
          Answered u t p 0x60 tag .sweepBusy .nothing ∧ t = { u with ports := t.ports }) ∧
        ((u.sweepOf p).state ≠ .running →
          t.sweepOf p = ⟨.running, some a, some sel, some rule, le16 s0 s1, le16 c0 c1, 0, 0, 0, 0, none, .none⟩ ∧
          t.sweepOf p.other = u.sweepOf p.other ∧
          Answered u t p 0x60 tag .ok (.sweepStarted (le16 s0 s1) (le16 c0 c1)
            (if (u.sweepOf p).state = .suspended then some (u.sweepOf p) else none)) ∧
          t = { u with sweeps := t.sweeps, ports := t.ports })) ∧
    (∀ pr st li hi pf py code par s0 s1 c0 c1 ru (u : State), u = s.atOrder p 0x60 →
      (32 ≤ pr.toNat ∨ pr.getLsbD 0 = true ∧ (st = 0 ∨ 64 ≤ st.toNat) ∨ pr.getLsbD 1 = true ∧ 3 < li.toNat ∨
        pr.getLsbD 2 = true ∧ 63 < hi.toNat ∨ pr.getLsbD 3 = true ∧ 15 < pf.toNat ∨
        pr.getLsbD 4 = true ∧ 3 < py.toNat ∨ 6 < code.toNat ∨ (code = 3 ∨ code = 5) ∧ 3 < par.toNat ∨ 2 < ru.toNat ∨
        2047 < le16 s0 s1 ∨ le16 c0 c1 = 0 ∨ 2048 < le16 c0 c1) →
      ∃ t, exec (.sweep p tag [pr, st, li, hi, pf, py, code, par, s0, s1, c0, c1, ru]) s = .next t ∧
        Answered u t p 0x60 tag .badField .nothing ∧ t = { u with ports := t.ports }) ∧
    (∀ (u : State), u = s.atOrder p 0x61 →
      ∃ t, exec (.sweepAbort p tag []) s = .next t ∧
        ((u.sweepOf p).state = .running →
          t.sweepOf p = { u.sweepOf p with state := .suspended, stopReason := .aborted }) ∧
        ((u.sweepOf p).state ≠ .running → t.sweepOf p = u.sweepOf p) ∧
        t.sweepOf p.other = u.sweepOf p.other ∧ Answered u t p 0x61 tag .ok (.sweep (t.sweepOf p)) ∧
        t = { u with sweeps := t.sweeps, ports := t.ports }) ∧
    (∀ (u : State), u = s.atOrder p 0x62 → (u.sweepOf p).state = .suspended →
      ∃ t, exec (.sweepContinue p tag []) s = .next t ∧
        t.sweepOf p = { u.sweepOf p with state := .running, stopReason := .none } ∧
        t.sweepOf p.other = u.sweepOf p.other ∧ Answered u t p 0x62 tag .ok (.sweep (t.sweepOf p)) ∧
        t = { u with sweeps := t.sweeps, ports := t.ports }) ∧
    (∀ (u : State), u = s.atOrder p 0x62 → (u.sweepOf p).state ≠ .suspended →
      ∃ t, exec (.sweepContinue p tag []) s = .next t ∧ Answered u t p 0x62 tag .wrongState .nothing ∧
        t = { u with ports := t.ports })

/-- An action of a sweep is the order it names, about the context as its handle stands (`applyAction`; R152): RETIRE,
HOLD, RESUME, RELINK, SET_RATE at the lowest permitted index, SET_PRIORITY, ADOPT.
A visit of a RUNNING sweep: the action at a match (`SweepMatches`) and nothing else at a context that does not match;
the counts, the cursor and the remaining count move; an action answered OK is counted acted, a refused one refused, with
its context and result as the last refusal. The last visit ends the sweep, and a refusal under STOP_ON_REFUSAL or an action
under STOP_ON_FIRST_ACTION suspends it, with SWEEP_DONE; else it runs on (R151 to R155). -/
def Obligations.SweepVisits : Prop :=
  (∀ (p : Port) (s : State) i i0 i1 g, i = le16 i0 i1 →
    (Named s i0 i1 g → applyAction p .adopt i s = takeOrder p .adopt [i0, i1, g] s) ∧
    (Owned s p i0 i1 g →
      applyAction p .retire i s = takeOrder p .retire [i0, i1, g] s ∧
      applyAction p .hold i s = takeOrder p .hold [i0, i1, g] s ∧
      applyAction p .resume i s = takeOrder p .resume [i0, i1, g] s ∧
      (∀ l : Byte, l.toNat ≤ 3 → applyAction p (.relink l.toNat) i s = takeOrder p .relink [i0, i1, g, l] s) ∧
      (∀ n : Byte, n.toNat ≤ 3 →
        applyAction p (.setPriority n.toNat) i s = takeOrder p .setPriority [i0, i1, g, n] s) ∧
      (∀ set (r : Byte), (s.ctx i).permitted = some set → set.getLsbD r.toNat = true →
        (∀ x, set.getLsbD x = true → r.toNat ≤ x) →
        applyAction p .rerateLow i s = takeOrder p .setRate [i0, i1, g, r] s) ∧
      ((s.ctx i).permitted = none → applyAction p .rerateLow i s =
        ⟨if (s.ctx i).state = .closed then .wrongState else .badField, .nothing, s⟩))) ∧
  ∀ (p : Port) (s : State) v a sel r, s.pinHeld = false → v = s.sweepOf p → v.state = .running → v.action = some a →
    v.selector = some sel → r = applyAction p a v.cursor s →
    ∃ t, exec (.sweepVisit p) s = .next t ∧
      (t.sweepOf p).visited = v.visited + 1 ∧ (t.sweepOf p).cursor = v.cursor + 1 ∧
      (t.sweepOf p).remaining = v.remaining - 1 ∧ t.sweepOf p.other = s.sweepOf p.other ∧
      (t.sweepOf p).action = some a ∧ (t.sweepOf p).selector = some sel ∧ (t.sweepOf p).stopRule = v.stopRule ∧
      (¬ SweepMatches p a sel (s.ctx v.cursor) →
        (t.sweepOf p).matched = v.matched ∧ (t.sweepOf p).acted = v.acted ∧ (t.sweepOf p).refused = v.refused ∧
        (t.sweepOf p).lastRefusal = v.lastRefusal ∧ t = { s with sweeps := t.sweeps, ports := t.ports }) ∧
      (SweepMatches p a sel (s.ctx v.cursor) →
        (t.sweepOf p).matched = v.matched + 1 ∧
        (r.result = .ok → (t.sweepOf p).acted = v.acted + 1 ∧ (t.sweepOf p).refused = v.refused ∧
          (t.sweepOf p).lastRefusal = v.lastRefusal) ∧
        (r.result ≠ .ok → (t.sweepOf p).acted = v.acted ∧ (t.sweepOf p).refused = v.refused + 1 ∧
          (t.sweepOf p).lastRefusal = some (v.cursor, r.result)) ∧
        t = { r.after with sweeps := t.sweeps, ports := t.ports }) ∧
      ((t.sweepOf p).state = .running → (t.sweepOf p).stopReason = .none ∧ t.ports = s.ports) ∧
      ((t.sweepOf p).state ≠ .running →
        t.port p = { s.port p with conds := (s.port p).conds ||| 0x01#6 } ∧ t.port p.other = s.port p.other) ∧
      (v.remaining = 1 → (t.sweepOf p).state = .idle ∧ (t.sweepOf p).stopReason = .count) ∧
      (2 ≤ v.remaining → v.cursor = 2047 → (t.sweepOf p).state = .idle ∧ (t.sweepOf p).stopReason = .endOfTable) ∧
      (2 ≤ v.remaining → v.cursor < 2047 → v.stopRule = some .onRefusal →
        SweepMatches p a sel (s.ctx v.cursor) → r.result ≠ .ok →
        (t.sweepOf p).state = .suspended ∧ (t.sweepOf p).stopReason = .refusal) ∧
      (2 ≤ v.remaining → v.cursor < 2047 → v.stopRule = some .onFirstAction →
        SweepMatches p a sel (s.ctx v.cursor) → r.result = .ok →
        (t.sweepOf p).state = .suspended ∧ (t.sweepOf p).stopReason = .firstAction) ∧
      (2 ≤ v.remaining → v.cursor < 2047 →
        (¬ SweepMatches p a sel (s.ctx v.cursor) ∨ v.stopRule = some .never ∨
          v.stopRule = some .onRefusal ∧ r.result = .ok ∨ v.stopRule = some .onFirstAction ∧ r.result ≠ .ok) →
        (t.sweepOf p).state = .running)

/-- TALLY_SET (R182): a field out of range is refused; else one tally's enabled flag, kind, filter and count are
replaced together, whatever context the filter names, and the response carries the previous ones. Under ALL the handle is
not read. -/
def Obligations.TallySetWritesOneTally : Prop :=
  ∀ (p : Port) tag n en k f i0 i1 g c0 c1 c2 c3 c4 (s : State) (u : State), s.takes p = true → u = s.atOrder p 0x70 →
    ∃ t, exec (.tallySet p tag [n, en, k, f, i0, i1, g, c0, c1, c2, c3, c4]) s = .next t ∧
      ((1 < n.toNat ∨ 1 < en.toNat ∨ 15 < k.toNat ∨ 1 < f.toNat ∨ f = 1 ∧ 2047 < le16 i0 i1) →
        Answered u t p 0x70 tag .badField .nothing ∧ t = { u with ports := t.ports }) ∧
      (∀ (kind : Event) filter (v : Tally), n.toNat ≤ 1 → en.toNat ≤ 1 → kind.code = k.toNat →
        (f = 0 ∧ filter = none ∨ f = 1 ∧ le16 i0 i1 ≤ 2047 ∧ filter = some ⟨le16 i0 i1, g⟩) →
        v = ⟨decide (en = 1), kind, filter, BitVec.ofNat 40 (leNat [c0, c1, c2, c3, c4])⟩ →
        (n = 0 → Answered u t p 0x70 tag .ok (.tally u.tally0) ∧ t = { u with tally0 := v, ports := t.ports }) ∧
        (n = 1 → Answered u t p 0x70 tag .ok (.tally u.tally1) ∧ t = { u with tally1 := v, ports := t.ports }))

/-! ### Codes -/

/-- The condition codes and the result codes, whole; SKIPPED is the result of no order taken (R190, R191). -/
def Obligations.ConditionAndResultCodes : Prop :=
  ([Cond.firstCell, .noFirstCell, .stale, .rateChanged, .rateRefused, .handoverDone, .handoverFailed, .shed,
    .readmitted, .faulted, .clipping, .retired].map Cond.bit = List.range 12) ∧
  ([PortCond.sweepDone, .laneOut, .laneBack, .faultCaptured, .partnerSilent, .partnerLive].map PortCond.bit =
    List.range 6) ∧
  (∀ (x : CondSet) (k j : Cond), (x.add k).has j = (x.has j || decide (j = k))) ∧
  (∀ (x : PortCondSet) (k j : PortCond), (x.add k).has j = (x.has j || decide (j = k))) ∧
  ([Result.ok, .badFrame, .unknownOrder, .badLength, .badField, .staleHandle, .notOwner, .wrongState, .incomplete,
    .noContext, .noCapacity, .slotTaken, .streamTaken, .profileEmpty, .profileInUse, .profileFixed, .sweepBusy,
    .skipped].map (fun r => r.code.toNat) = List.range 18) ∧
  (∀ (p : Port) code body (s : State), (takeCode p code body s).result ≠ .skipped)

/-! ### Invariants -/

/-- Every step keeps every table in its canonical form: rising indices, and none listed at its reset value. That form of
the tables is the model's choice (log 26). -/
def Obligations.CanonicalTablesKept : Prop :=
  ∀ (s : State) t, s.canonical = true → step s = .next t → t.canonical = true

/-- Every step keeps both ports within their bounds (R163, R165, R166, R177), and a context that is not FREE orphaned
exactly when its owner port is SILENT (R172). -/
def Obligations.PortBoundsKept : Prop :=
  (∀ (s : State) t, s.portsBounded = true → step s = .next t → t.portsBounded = true) ∧
    ∀ (s : State) t, s.orphansMatch → step s = .next t → t.orphansMatch

/-- Every step keeps the available units at 12,000 for each lane in service (R57). -/
def Obligations.AvailableUnitsKept : Prop :=
  ∀ (s : State) t, s.availableMatches → step s = .next t → t.availableMatches

/-- Every step keeps the attention queues: an index stands at most once, only in its owner's queue, and exactly while
its pending set is not empty (R167); with the invariants that rest on it. Every step keeps the records, maps and counts in
agreement (`State.coherent`): the parts a record holds by its state (R3), the playout window (R96), the slot map against
the slot bindings (R29), the stream map against primary streams and handover records (R30), the reference counts against
the contexts that name a profile (R49), rates and requests against permitted sets (R105), reserved equal to the sum of the
converting contexts' costs and at most available (R57), a work in hand at one lane (R60, R61). -/
def Obligations.AttentionQueuesKept : Prop :=
  (∀ (s : State) t, s.canonical = true → s.queuesMatch → s.freeIsBare → step s = .next t →
    t.queuesMatch ∧ t.freeIsBare) ∧
    ∀ (s : State) t, s.coherent → step s = .next t → t.coherent

/-- The invariants hold at power-on. -/
def Obligations.InvariantsAtReset : Prop :=
  State.reset.canonical = true ∧ State.reset.portsBounded = true ∧ State.reset.availableMatches ∧
    State.reset.queuesMatch ∧ State.reset.freeIsBare ∧ State.reset.coherent ∧ State.reset.orphansMatch

/-- A generation changes exactly when its context becomes FREE, by one modulo 256, and at power-on and hard reset, which
set it to 0 (R4). -/
def Obligations.GenerationRule : Prop :=
  (∀ i, (State.reset.ctx i).gen = 0) ∧
  ∀ (s : State) t i, s.canonical = true → step s = .next t →
    (t.ctx i).gen = (if (s.ctx i).state ≠ .free ∧ (t.ctx i).state = .free then (s.ctx i).gen + 1 else (s.ctx i).gen) ∨
      (t = { State.reset with pinHeld := t.pinHeld, freeCount := t.freeCount, pending := t.pending } ∧
        (t.ctx i).gen = 0)
end

