-- ==== Sys2Proof/Laws/State.lean ====
section
/-! SUPPORT. The fields of an updated state: one lemma per field and update, then what each accessor reads. -/

namespace Sys2Proof.Machine.State

/-! ### Fields that an update does not write -/

@[simp] theorem setCtx_slotMap (s : State) (i : Nat) (c : Ctx) : (s.setCtx i c).slotMap = s.slotMap := rfl
@[simp] theorem setCtx_streamMap (s : State) (i : Nat) (c : Ctx) : (s.setCtx i c).streamMap = s.streamMap := rfl
@[simp] theorem setCtx_profiles (s : State) (i : Nat) (c : Ctx) : (s.setCtx i c).profiles = s.profiles := rfl
@[simp] theorem setCtx_available (s : State) (i : Nat) (c : Ctx) : (s.setCtx i c).available = s.available := rfl
@[simp] theorem setCtx_reserved (s : State) (i : Nat) (c : Ctx) : (s.setCtx i c).reserved = s.reserved := rfl
@[simp] theorem setCtx_lanes (s : State) (i : Nat) (c : Ctx) : (s.setCtx i c).lanes = s.lanes := rfl
@[simp] theorem setCtx_capture (s : State) (i : Nat) (c : Ctx) : (s.setCtx i c).capture = s.capture := rfl
@[simp] theorem setCtx_timer (s : State) (i : Nat) (c : Ctx) : (s.setCtx i c).timer = s.timer := rfl
@[simp] theorem setCtx_blocks (s : State) (i : Nat) (c : Ctx) : (s.setCtx i c).blocks = s.blocks := rfl
@[simp] theorem setCtx_links (s : State) (i : Nat) (c : Ctx) : (s.setCtx i c).links = s.links := rfl
@[simp] theorem setCtx_defaultRound (s : State) (i : Nat) (c : Ctx) : (s.setCtx i c).defaultRound = s.defaultRound := rfl
@[simp] theorem setCtx_sweeps (s : State) (i : Nat) (c : Ctx) : (s.setCtx i c).sweeps = s.sweeps := rfl
@[simp] theorem setCtx_attention (s : State) (i : Nat) (c : Ctx) : (s.setCtx i c).attention = s.attention := rfl
@[simp] theorem setCtx_ports (s : State) (i : Nat) (c : Ctx) : (s.setCtx i c).ports = s.ports := rfl
@[simp] theorem setCtx_tally0 (s : State) (i : Nat) (c : Ctx) : (s.setCtx i c).tally0 = s.tally0 := rfl
@[simp] theorem setCtx_tally1 (s : State) (i : Nat) (c : Ctx) : (s.setCtx i c).tally1 = s.tally1 := rfl
@[simp] theorem setCtx_pinHeld (s : State) (i : Nat) (c : Ctx) : (s.setCtx i c).pinHeld = s.pinHeld := rfl
@[simp] theorem setCtx_freeCount (s : State) (i : Nat) (c : Ctx) : (s.setCtx i c).freeCount = s.freeCount := rfl
@[simp] theorem setCtx_pending (s : State) (i : Nat) (c : Ctx) : (s.setCtx i c).pending = s.pending := rfl

@[simp] theorem modCtx_slotMap (s : State) (i : Nat) (f : Ctx → Ctx) : (s.modCtx i f).slotMap = s.slotMap := rfl
@[simp] theorem modCtx_streamMap (s : State) (i : Nat) (f : Ctx → Ctx) : (s.modCtx i f).streamMap = s.streamMap := rfl
@[simp] theorem modCtx_profiles (s : State) (i : Nat) (f : Ctx → Ctx) : (s.modCtx i f).profiles = s.profiles := rfl
@[simp] theorem modCtx_available (s : State) (i : Nat) (f : Ctx → Ctx) : (s.modCtx i f).available = s.available := rfl
@[simp] theorem modCtx_reserved (s : State) (i : Nat) (f : Ctx → Ctx) : (s.modCtx i f).reserved = s.reserved := rfl
@[simp] theorem modCtx_lanes (s : State) (i : Nat) (f : Ctx → Ctx) : (s.modCtx i f).lanes = s.lanes := rfl
@[simp] theorem modCtx_capture (s : State) (i : Nat) (f : Ctx → Ctx) : (s.modCtx i f).capture = s.capture := rfl
@[simp] theorem modCtx_timer (s : State) (i : Nat) (f : Ctx → Ctx) : (s.modCtx i f).timer = s.timer := rfl
@[simp] theorem modCtx_blocks (s : State) (i : Nat) (f : Ctx → Ctx) : (s.modCtx i f).blocks = s.blocks := rfl
@[simp] theorem modCtx_links (s : State) (i : Nat) (f : Ctx → Ctx) : (s.modCtx i f).links = s.links := rfl
@[simp] theorem modCtx_defaultRound (s : State) (i : Nat) (f : Ctx → Ctx) : (s.modCtx i f).defaultRound = s.defaultRound := rfl
@[simp] theorem modCtx_sweeps (s : State) (i : Nat) (f : Ctx → Ctx) : (s.modCtx i f).sweeps = s.sweeps := rfl
@[simp] theorem modCtx_attention (s : State) (i : Nat) (f : Ctx → Ctx) : (s.modCtx i f).attention = s.attention := rfl
@[simp] theorem modCtx_ports (s : State) (i : Nat) (f : Ctx → Ctx) : (s.modCtx i f).ports = s.ports := rfl
@[simp] theorem modCtx_tally0 (s : State) (i : Nat) (f : Ctx → Ctx) : (s.modCtx i f).tally0 = s.tally0 := rfl
@[simp] theorem modCtx_tally1 (s : State) (i : Nat) (f : Ctx → Ctx) : (s.modCtx i f).tally1 = s.tally1 := rfl
@[simp] theorem modCtx_pinHeld (s : State) (i : Nat) (f : Ctx → Ctx) : (s.modCtx i f).pinHeld = s.pinHeld := rfl
@[simp] theorem modCtx_freeCount (s : State) (i : Nat) (f : Ctx → Ctx) : (s.modCtx i f).freeCount = s.freeCount := rfl
@[simp] theorem modCtx_pending (s : State) (i : Nat) (f : Ctx → Ctx) : (s.modCtx i f).pending = s.pending := rfl

@[simp] theorem setSlotEntry_ctxs (s : State) (n : Nat) (e : Option Nat) : (s.setSlotEntry n e).ctxs = s.ctxs := rfl
@[simp] theorem setSlotEntry_streamMap (s : State) (n : Nat) (e : Option Nat) : (s.setSlotEntry n e).streamMap = s.streamMap := rfl
@[simp] theorem setSlotEntry_profiles (s : State) (n : Nat) (e : Option Nat) : (s.setSlotEntry n e).profiles = s.profiles := rfl
@[simp] theorem setSlotEntry_available (s : State) (n : Nat) (e : Option Nat) : (s.setSlotEntry n e).available = s.available := rfl
@[simp] theorem setSlotEntry_reserved (s : State) (n : Nat) (e : Option Nat) : (s.setSlotEntry n e).reserved = s.reserved := rfl
@[simp] theorem setSlotEntry_lanes (s : State) (n : Nat) (e : Option Nat) : (s.setSlotEntry n e).lanes = s.lanes := rfl
@[simp] theorem setSlotEntry_capture (s : State) (n : Nat) (e : Option Nat) : (s.setSlotEntry n e).capture = s.capture := rfl
@[simp] theorem setSlotEntry_timer (s : State) (n : Nat) (e : Option Nat) : (s.setSlotEntry n e).timer = s.timer := rfl
@[simp] theorem setSlotEntry_blocks (s : State) (n : Nat) (e : Option Nat) : (s.setSlotEntry n e).blocks = s.blocks := rfl
@[simp] theorem setSlotEntry_links (s : State) (n : Nat) (e : Option Nat) : (s.setSlotEntry n e).links = s.links := rfl
@[simp] theorem setSlotEntry_defaultRound (s : State) (n : Nat) (e : Option Nat) : (s.setSlotEntry n e).defaultRound = s.defaultRound := rfl
@[simp] theorem setSlotEntry_sweeps (s : State) (n : Nat) (e : Option Nat) : (s.setSlotEntry n e).sweeps = s.sweeps := rfl
@[simp] theorem setSlotEntry_attention (s : State) (n : Nat) (e : Option Nat) : (s.setSlotEntry n e).attention = s.attention := rfl
@[simp] theorem setSlotEntry_ports (s : State) (n : Nat) (e : Option Nat) : (s.setSlotEntry n e).ports = s.ports := rfl
@[simp] theorem setSlotEntry_tally0 (s : State) (n : Nat) (e : Option Nat) : (s.setSlotEntry n e).tally0 = s.tally0 := rfl
@[simp] theorem setSlotEntry_tally1 (s : State) (n : Nat) (e : Option Nat) : (s.setSlotEntry n e).tally1 = s.tally1 := rfl
@[simp] theorem setSlotEntry_pinHeld (s : State) (n : Nat) (e : Option Nat) : (s.setSlotEntry n e).pinHeld = s.pinHeld := rfl
@[simp] theorem setSlotEntry_freeCount (s : State) (n : Nat) (e : Option Nat) : (s.setSlotEntry n e).freeCount = s.freeCount := rfl
@[simp] theorem setSlotEntry_pending (s : State) (n : Nat) (e : Option Nat) : (s.setSlotEntry n e).pending = s.pending := rfl

@[simp] theorem setStreamEntry_ctxs (s : State) (n : Nat) (e : Option StreamEntry) : (s.setStreamEntry n e).ctxs = s.ctxs := rfl
@[simp] theorem setStreamEntry_slotMap (s : State) (n : Nat) (e : Option StreamEntry) : (s.setStreamEntry n e).slotMap = s.slotMap := rfl
@[simp] theorem setStreamEntry_profiles (s : State) (n : Nat) (e : Option StreamEntry) : (s.setStreamEntry n e).profiles = s.profiles := rfl
@[simp] theorem setStreamEntry_available (s : State) (n : Nat) (e : Option StreamEntry) : (s.setStreamEntry n e).available = s.available := rfl
@[simp] theorem setStreamEntry_reserved (s : State) (n : Nat) (e : Option StreamEntry) : (s.setStreamEntry n e).reserved = s.reserved := rfl
@[simp] theorem setStreamEntry_lanes (s : State) (n : Nat) (e : Option StreamEntry) : (s.setStreamEntry n e).lanes = s.lanes := rfl
@[simp] theorem setStreamEntry_capture (s : State) (n : Nat) (e : Option StreamEntry) : (s.setStreamEntry n e).capture = s.capture := rfl
@[simp] theorem setStreamEntry_timer (s : State) (n : Nat) (e : Option StreamEntry) : (s.setStreamEntry n e).timer = s.timer := rfl
@[simp] theorem setStreamEntry_blocks (s : State) (n : Nat) (e : Option StreamEntry) : (s.setStreamEntry n e).blocks = s.blocks := rfl
@[simp] theorem setStreamEntry_links (s : State) (n : Nat) (e : Option StreamEntry) : (s.setStreamEntry n e).links = s.links := rfl
@[simp] theorem setStreamEntry_defaultRound (s : State) (n : Nat) (e : Option StreamEntry) : (s.setStreamEntry n e).defaultRound = s.defaultRound := rfl
@[simp] theorem setStreamEntry_sweeps (s : State) (n : Nat) (e : Option StreamEntry) : (s.setStreamEntry n e).sweeps = s.sweeps := rfl
@[simp] theorem setStreamEntry_attention (s : State) (n : Nat) (e : Option StreamEntry) : (s.setStreamEntry n e).attention = s.attention := rfl
@[simp] theorem setStreamEntry_ports (s : State) (n : Nat) (e : Option StreamEntry) : (s.setStreamEntry n e).ports = s.ports := rfl
@[simp] theorem setStreamEntry_tally0 (s : State) (n : Nat) (e : Option StreamEntry) : (s.setStreamEntry n e).tally0 = s.tally0 := rfl
@[simp] theorem setStreamEntry_tally1 (s : State) (n : Nat) (e : Option StreamEntry) : (s.setStreamEntry n e).tally1 = s.tally1 := rfl
@[simp] theorem setStreamEntry_pinHeld (s : State) (n : Nat) (e : Option StreamEntry) : (s.setStreamEntry n e).pinHeld = s.pinHeld := rfl
@[simp] theorem setStreamEntry_freeCount (s : State) (n : Nat) (e : Option StreamEntry) : (s.setStreamEntry n e).freeCount = s.freeCount := rfl
@[simp] theorem setStreamEntry_pending (s : State) (n : Nat) (e : Option StreamEntry) : (s.setStreamEntry n e).pending = s.pending := rfl

@[simp] theorem setProfile_ctxs (s : State) (n : Nat) (v : ProfileSlot) : (s.setProfile n v).ctxs = s.ctxs := rfl
@[simp] theorem setProfile_slotMap (s : State) (n : Nat) (v : ProfileSlot) : (s.setProfile n v).slotMap = s.slotMap := rfl
@[simp] theorem setProfile_streamMap (s : State) (n : Nat) (v : ProfileSlot) : (s.setProfile n v).streamMap = s.streamMap := rfl
@[simp] theorem setProfile_available (s : State) (n : Nat) (v : ProfileSlot) : (s.setProfile n v).available = s.available := rfl
@[simp] theorem setProfile_reserved (s : State) (n : Nat) (v : ProfileSlot) : (s.setProfile n v).reserved = s.reserved := rfl
@[simp] theorem setProfile_lanes (s : State) (n : Nat) (v : ProfileSlot) : (s.setProfile n v).lanes = s.lanes := rfl
@[simp] theorem setProfile_capture (s : State) (n : Nat) (v : ProfileSlot) : (s.setProfile n v).capture = s.capture := rfl
@[simp] theorem setProfile_timer (s : State) (n : Nat) (v : ProfileSlot) : (s.setProfile n v).timer = s.timer := rfl
@[simp] theorem setProfile_blocks (s : State) (n : Nat) (v : ProfileSlot) : (s.setProfile n v).blocks = s.blocks := rfl
@[simp] theorem setProfile_links (s : State) (n : Nat) (v : ProfileSlot) : (s.setProfile n v).links = s.links := rfl
@[simp] theorem setProfile_defaultRound (s : State) (n : Nat) (v : ProfileSlot) : (s.setProfile n v).defaultRound = s.defaultRound := rfl
@[simp] theorem setProfile_sweeps (s : State) (n : Nat) (v : ProfileSlot) : (s.setProfile n v).sweeps = s.sweeps := rfl
@[simp] theorem setProfile_attention (s : State) (n : Nat) (v : ProfileSlot) : (s.setProfile n v).attention = s.attention := rfl
@[simp] theorem setProfile_ports (s : State) (n : Nat) (v : ProfileSlot) : (s.setProfile n v).ports = s.ports := rfl
@[simp] theorem setProfile_tally0 (s : State) (n : Nat) (v : ProfileSlot) : (s.setProfile n v).tally0 = s.tally0 := rfl
@[simp] theorem setProfile_tally1 (s : State) (n : Nat) (v : ProfileSlot) : (s.setProfile n v).tally1 = s.tally1 := rfl
@[simp] theorem setProfile_pinHeld (s : State) (n : Nat) (v : ProfileSlot) : (s.setProfile n v).pinHeld = s.pinHeld := rfl
@[simp] theorem setProfile_freeCount (s : State) (n : Nat) (v : ProfileSlot) : (s.setProfile n v).freeCount = s.freeCount := rfl
@[simp] theorem setProfile_pending (s : State) (n : Nat) (v : ProfileSlot) : (s.setProfile n v).pending = s.pending := rfl

@[simp] theorem setLane_ctxs (s : State) (n : Nat) (v : Lane) : (s.setLane n v).ctxs = s.ctxs := rfl
@[simp] theorem setLane_slotMap (s : State) (n : Nat) (v : Lane) : (s.setLane n v).slotMap = s.slotMap := rfl
@[simp] theorem setLane_streamMap (s : State) (n : Nat) (v : Lane) : (s.setLane n v).streamMap = s.streamMap := rfl
@[simp] theorem setLane_profiles (s : State) (n : Nat) (v : Lane) : (s.setLane n v).profiles = s.profiles := rfl
@[simp] theorem setLane_available (s : State) (n : Nat) (v : Lane) : (s.setLane n v).available = s.available := rfl
@[simp] theorem setLane_reserved (s : State) (n : Nat) (v : Lane) : (s.setLane n v).reserved = s.reserved := rfl
@[simp] theorem setLane_capture (s : State) (n : Nat) (v : Lane) : (s.setLane n v).capture = s.capture := rfl
@[simp] theorem setLane_timer (s : State) (n : Nat) (v : Lane) : (s.setLane n v).timer = s.timer := rfl
@[simp] theorem setLane_blocks (s : State) (n : Nat) (v : Lane) : (s.setLane n v).blocks = s.blocks := rfl
@[simp] theorem setLane_links (s : State) (n : Nat) (v : Lane) : (s.setLane n v).links = s.links := rfl
@[simp] theorem setLane_defaultRound (s : State) (n : Nat) (v : Lane) : (s.setLane n v).defaultRound = s.defaultRound := rfl
@[simp] theorem setLane_sweeps (s : State) (n : Nat) (v : Lane) : (s.setLane n v).sweeps = s.sweeps := rfl
@[simp] theorem setLane_attention (s : State) (n : Nat) (v : Lane) : (s.setLane n v).attention = s.attention := rfl
@[simp] theorem setLane_ports (s : State) (n : Nat) (v : Lane) : (s.setLane n v).ports = s.ports := rfl
@[simp] theorem setLane_tally0 (s : State) (n : Nat) (v : Lane) : (s.setLane n v).tally0 = s.tally0 := rfl
@[simp] theorem setLane_tally1 (s : State) (n : Nat) (v : Lane) : (s.setLane n v).tally1 = s.tally1 := rfl
@[simp] theorem setLane_pinHeld (s : State) (n : Nat) (v : Lane) : (s.setLane n v).pinHeld = s.pinHeld := rfl
@[simp] theorem setLane_freeCount (s : State) (n : Nat) (v : Lane) : (s.setLane n v).freeCount = s.freeCount := rfl
@[simp] theorem setLane_pending (s : State) (n : Nat) (v : Lane) : (s.setLane n v).pending = s.pending := rfl

@[simp] theorem setBlock_ctxs (s : State) (n : Nat) (v : SlotBlocks) : (s.setBlock n v).ctxs = s.ctxs := rfl
@[simp] theorem setBlock_slotMap (s : State) (n : Nat) (v : SlotBlocks) : (s.setBlock n v).slotMap = s.slotMap := rfl
@[simp] theorem setBlock_streamMap (s : State) (n : Nat) (v : SlotBlocks) : (s.setBlock n v).streamMap = s.streamMap := rfl
@[simp] theorem setBlock_profiles (s : State) (n : Nat) (v : SlotBlocks) : (s.setBlock n v).profiles = s.profiles := rfl
@[simp] theorem setBlock_available (s : State) (n : Nat) (v : SlotBlocks) : (s.setBlock n v).available = s.available := rfl
@[simp] theorem setBlock_reserved (s : State) (n : Nat) (v : SlotBlocks) : (s.setBlock n v).reserved = s.reserved := rfl
@[simp] theorem setBlock_lanes (s : State) (n : Nat) (v : SlotBlocks) : (s.setBlock n v).lanes = s.lanes := rfl
@[simp] theorem setBlock_capture (s : State) (n : Nat) (v : SlotBlocks) : (s.setBlock n v).capture = s.capture := rfl
@[simp] theorem setBlock_timer (s : State) (n : Nat) (v : SlotBlocks) : (s.setBlock n v).timer = s.timer := rfl
@[simp] theorem setBlock_links (s : State) (n : Nat) (v : SlotBlocks) : (s.setBlock n v).links = s.links := rfl
@[simp] theorem setBlock_defaultRound (s : State) (n : Nat) (v : SlotBlocks) : (s.setBlock n v).defaultRound = s.defaultRound := rfl
@[simp] theorem setBlock_sweeps (s : State) (n : Nat) (v : SlotBlocks) : (s.setBlock n v).sweeps = s.sweeps := rfl
@[simp] theorem setBlock_attention (s : State) (n : Nat) (v : SlotBlocks) : (s.setBlock n v).attention = s.attention := rfl
@[simp] theorem setBlock_ports (s : State) (n : Nat) (v : SlotBlocks) : (s.setBlock n v).ports = s.ports := rfl
@[simp] theorem setBlock_tally0 (s : State) (n : Nat) (v : SlotBlocks) : (s.setBlock n v).tally0 = s.tally0 := rfl
@[simp] theorem setBlock_tally1 (s : State) (n : Nat) (v : SlotBlocks) : (s.setBlock n v).tally1 = s.tally1 := rfl
@[simp] theorem setBlock_pinHeld (s : State) (n : Nat) (v : SlotBlocks) : (s.setBlock n v).pinHeld = s.pinHeld := rfl
@[simp] theorem setBlock_freeCount (s : State) (n : Nat) (v : SlotBlocks) : (s.setBlock n v).freeCount = s.freeCount := rfl
@[simp] theorem setBlock_pending (s : State) (n : Nat) (v : SlotBlocks) : (s.setBlock n v).pending = s.pending := rfl

@[simp] theorem setLink_ctxs (s : State) (n : Nat) (v : List OutCell) : (s.setLink n v).ctxs = s.ctxs := rfl
@[simp] theorem setLink_slotMap (s : State) (n : Nat) (v : List OutCell) : (s.setLink n v).slotMap = s.slotMap := rfl
@[simp] theorem setLink_streamMap (s : State) (n : Nat) (v : List OutCell) : (s.setLink n v).streamMap = s.streamMap := rfl
@[simp] theorem setLink_profiles (s : State) (n : Nat) (v : List OutCell) : (s.setLink n v).profiles = s.profiles := rfl
@[simp] theorem setLink_available (s : State) (n : Nat) (v : List OutCell) : (s.setLink n v).available = s.available := rfl
@[simp] theorem setLink_reserved (s : State) (n : Nat) (v : List OutCell) : (s.setLink n v).reserved = s.reserved := rfl
@[simp] theorem setLink_lanes (s : State) (n : Nat) (v : List OutCell) : (s.setLink n v).lanes = s.lanes := rfl
@[simp] theorem setLink_capture (s : State) (n : Nat) (v : List OutCell) : (s.setLink n v).capture = s.capture := rfl
@[simp] theorem setLink_timer (s : State) (n : Nat) (v : List OutCell) : (s.setLink n v).timer = s.timer := rfl
@[simp] theorem setLink_blocks (s : State) (n : Nat) (v : List OutCell) : (s.setLink n v).blocks = s.blocks := rfl
@[simp] theorem setLink_defaultRound (s : State) (n : Nat) (v : List OutCell) : (s.setLink n v).defaultRound = s.defaultRound := rfl
@[simp] theorem setLink_sweeps (s : State) (n : Nat) (v : List OutCell) : (s.setLink n v).sweeps = s.sweeps := rfl
@[simp] theorem setLink_attention (s : State) (n : Nat) (v : List OutCell) : (s.setLink n v).attention = s.attention := rfl
@[simp] theorem setLink_ports (s : State) (n : Nat) (v : List OutCell) : (s.setLink n v).ports = s.ports := rfl
@[simp] theorem setLink_tally0 (s : State) (n : Nat) (v : List OutCell) : (s.setLink n v).tally0 = s.tally0 := rfl
@[simp] theorem setLink_tally1 (s : State) (n : Nat) (v : List OutCell) : (s.setLink n v).tally1 = s.tally1 := rfl
@[simp] theorem setLink_pinHeld (s : State) (n : Nat) (v : List OutCell) : (s.setLink n v).pinHeld = s.pinHeld := rfl
@[simp] theorem setLink_freeCount (s : State) (n : Nat) (v : List OutCell) : (s.setLink n v).freeCount = s.freeCount := rfl
@[simp] theorem setLink_pending (s : State) (n : Nat) (v : List OutCell) : (s.setLink n v).pending = s.pending := rfl

@[simp] theorem setPort_ctxs (s : State) (p : Port) (v : PortState) : (s.setPort p v).ctxs = s.ctxs := rfl
@[simp] theorem setPort_slotMap (s : State) (p : Port) (v : PortState) : (s.setPort p v).slotMap = s.slotMap := rfl
@[simp] theorem setPort_streamMap (s : State) (p : Port) (v : PortState) : (s.setPort p v).streamMap = s.streamMap := rfl
@[simp] theorem setPort_profiles (s : State) (p : Port) (v : PortState) : (s.setPort p v).profiles = s.profiles := rfl
@[simp] theorem setPort_available (s : State) (p : Port) (v : PortState) : (s.setPort p v).available = s.available := rfl
@[simp] theorem setPort_reserved (s : State) (p : Port) (v : PortState) : (s.setPort p v).reserved = s.reserved := rfl
@[simp] theorem setPort_lanes (s : State) (p : Port) (v : PortState) : (s.setPort p v).lanes = s.lanes := rfl
@[simp] theorem setPort_capture (s : State) (p : Port) (v : PortState) : (s.setPort p v).capture = s.capture := rfl
@[simp] theorem setPort_timer (s : State) (p : Port) (v : PortState) : (s.setPort p v).timer = s.timer := rfl
@[simp] theorem setPort_blocks (s : State) (p : Port) (v : PortState) : (s.setPort p v).blocks = s.blocks := rfl
@[simp] theorem setPort_links (s : State) (p : Port) (v : PortState) : (s.setPort p v).links = s.links := rfl
@[simp] theorem setPort_defaultRound (s : State) (p : Port) (v : PortState) : (s.setPort p v).defaultRound = s.defaultRound := rfl
@[simp] theorem setPort_sweeps (s : State) (p : Port) (v : PortState) : (s.setPort p v).sweeps = s.sweeps := rfl
@[simp] theorem setPort_attention (s : State) (p : Port) (v : PortState) : (s.setPort p v).attention = s.attention := rfl
@[simp] theorem setPort_tally0 (s : State) (p : Port) (v : PortState) : (s.setPort p v).tally0 = s.tally0 := rfl
@[simp] theorem setPort_tally1 (s : State) (p : Port) (v : PortState) : (s.setPort p v).tally1 = s.tally1 := rfl
@[simp] theorem setPort_pinHeld (s : State) (p : Port) (v : PortState) : (s.setPort p v).pinHeld = s.pinHeld := rfl
@[simp] theorem setPort_freeCount (s : State) (p : Port) (v : PortState) : (s.setPort p v).freeCount = s.freeCount := rfl
@[simp] theorem setPort_pending (s : State) (p : Port) (v : PortState) : (s.setPort p v).pending = s.pending := rfl

@[simp] theorem setQueue_ctxs (s : State) (p : Port) (q : List Nat) : (s.setQueue p q).ctxs = s.ctxs := rfl
@[simp] theorem setQueue_slotMap (s : State) (p : Port) (q : List Nat) : (s.setQueue p q).slotMap = s.slotMap := rfl
@[simp] theorem setQueue_streamMap (s : State) (p : Port) (q : List Nat) : (s.setQueue p q).streamMap = s.streamMap := rfl
@[simp] theorem setQueue_profiles (s : State) (p : Port) (q : List Nat) : (s.setQueue p q).profiles = s.profiles := rfl
@[simp] theorem setQueue_available (s : State) (p : Port) (q : List Nat) : (s.setQueue p q).available = s.available := rfl
@[simp] theorem setQueue_reserved (s : State) (p : Port) (q : List Nat) : (s.setQueue p q).reserved = s.reserved := rfl
@[simp] theorem setQueue_lanes (s : State) (p : Port) (q : List Nat) : (s.setQueue p q).lanes = s.lanes := rfl
@[simp] theorem setQueue_capture (s : State) (p : Port) (q : List Nat) : (s.setQueue p q).capture = s.capture := rfl
@[simp] theorem setQueue_timer (s : State) (p : Port) (q : List Nat) : (s.setQueue p q).timer = s.timer := rfl
@[simp] theorem setQueue_blocks (s : State) (p : Port) (q : List Nat) : (s.setQueue p q).blocks = s.blocks := rfl
@[simp] theorem setQueue_links (s : State) (p : Port) (q : List Nat) : (s.setQueue p q).links = s.links := rfl
@[simp] theorem setQueue_defaultRound (s : State) (p : Port) (q : List Nat) : (s.setQueue p q).defaultRound = s.defaultRound := rfl
@[simp] theorem setQueue_sweeps (s : State) (p : Port) (q : List Nat) : (s.setQueue p q).sweeps = s.sweeps := rfl
@[simp] theorem setQueue_ports (s : State) (p : Port) (q : List Nat) : (s.setQueue p q).ports = s.ports := rfl
@[simp] theorem setQueue_tally0 (s : State) (p : Port) (q : List Nat) : (s.setQueue p q).tally0 = s.tally0 := rfl
@[simp] theorem setQueue_tally1 (s : State) (p : Port) (q : List Nat) : (s.setQueue p q).tally1 = s.tally1 := rfl
@[simp] theorem setQueue_pinHeld (s : State) (p : Port) (q : List Nat) : (s.setQueue p q).pinHeld = s.pinHeld := rfl
@[simp] theorem setQueue_freeCount (s : State) (p : Port) (q : List Nat) : (s.setQueue p q).freeCount = s.freeCount := rfl
@[simp] theorem setQueue_pending (s : State) (p : Port) (q : List Nat) : (s.setQueue p q).pending = s.pending := rfl

@[simp] theorem setSweep_ctxs (s : State) (p : Port) (v : Sweep) : (s.setSweep p v).ctxs = s.ctxs := rfl
@[simp] theorem setSweep_slotMap (s : State) (p : Port) (v : Sweep) : (s.setSweep p v).slotMap = s.slotMap := rfl
@[simp] theorem setSweep_streamMap (s : State) (p : Port) (v : Sweep) : (s.setSweep p v).streamMap = s.streamMap := rfl
@[simp] theorem setSweep_profiles (s : State) (p : Port) (v : Sweep) : (s.setSweep p v).profiles = s.profiles := rfl
@[simp] theorem setSweep_available (s : State) (p : Port) (v : Sweep) : (s.setSweep p v).available = s.available := rfl
@[simp] theorem setSweep_reserved (s : State) (p : Port) (v : Sweep) : (s.setSweep p v).reserved = s.reserved := rfl
@[simp] theorem setSweep_lanes (s : State) (p : Port) (v : Sweep) : (s.setSweep p v).lanes = s.lanes := rfl
@[simp] theorem setSweep_capture (s : State) (p : Port) (v : Sweep) : (s.setSweep p v).capture = s.capture := rfl
@[simp] theorem setSweep_timer (s : State) (p : Port) (v : Sweep) : (s.setSweep p v).timer = s.timer := rfl
@[simp] theorem setSweep_blocks (s : State) (p : Port) (v : Sweep) : (s.setSweep p v).blocks = s.blocks := rfl
@[simp] theorem setSweep_links (s : State) (p : Port) (v : Sweep) : (s.setSweep p v).links = s.links := rfl
@[simp] theorem setSweep_defaultRound (s : State) (p : Port) (v : Sweep) : (s.setSweep p v).defaultRound = s.defaultRound := rfl
@[simp] theorem setSweep_attention (s : State) (p : Port) (v : Sweep) : (s.setSweep p v).attention = s.attention := rfl
@[simp] theorem setSweep_ports (s : State) (p : Port) (v : Sweep) : (s.setSweep p v).ports = s.ports := rfl
@[simp] theorem setSweep_tally0 (s : State) (p : Port) (v : Sweep) : (s.setSweep p v).tally0 = s.tally0 := rfl
@[simp] theorem setSweep_tally1 (s : State) (p : Port) (v : Sweep) : (s.setSweep p v).tally1 = s.tally1 := rfl
@[simp] theorem setSweep_pinHeld (s : State) (p : Port) (v : Sweep) : (s.setSweep p v).pinHeld = s.pinHeld := rfl
@[simp] theorem setSweep_freeCount (s : State) (p : Port) (v : Sweep) : (s.setSweep p v).freeCount = s.freeCount := rfl
@[simp] theorem setSweep_pending (s : State) (p : Port) (v : Sweep) : (s.setSweep p v).pending = s.pending := rfl

@[simp] theorem setReserved_ctxs (s : State) (n : Nat) : (s.setReserved n).ctxs = s.ctxs := rfl
@[simp] theorem setReserved_slotMap (s : State) (n : Nat) : (s.setReserved n).slotMap = s.slotMap := rfl
@[simp] theorem setReserved_streamMap (s : State) (n : Nat) : (s.setReserved n).streamMap = s.streamMap := rfl
@[simp] theorem setReserved_profiles (s : State) (n : Nat) : (s.setReserved n).profiles = s.profiles := rfl
@[simp] theorem setReserved_available (s : State) (n : Nat) : (s.setReserved n).available = s.available := rfl
@[simp] theorem setReserved_lanes (s : State) (n : Nat) : (s.setReserved n).lanes = s.lanes := rfl
@[simp] theorem setReserved_capture (s : State) (n : Nat) : (s.setReserved n).capture = s.capture := rfl
@[simp] theorem setReserved_timer (s : State) (n : Nat) : (s.setReserved n).timer = s.timer := rfl
@[simp] theorem setReserved_blocks (s : State) (n : Nat) : (s.setReserved n).blocks = s.blocks := rfl
@[simp] theorem setReserved_links (s : State) (n : Nat) : (s.setReserved n).links = s.links := rfl
@[simp] theorem setReserved_defaultRound (s : State) (n : Nat) : (s.setReserved n).defaultRound = s.defaultRound := rfl
@[simp] theorem setReserved_sweeps (s : State) (n : Nat) : (s.setReserved n).sweeps = s.sweeps := rfl
@[simp] theorem setReserved_attention (s : State) (n : Nat) : (s.setReserved n).attention = s.attention := rfl
@[simp] theorem setReserved_ports (s : State) (n : Nat) : (s.setReserved n).ports = s.ports := rfl
@[simp] theorem setReserved_tally0 (s : State) (n : Nat) : (s.setReserved n).tally0 = s.tally0 := rfl
@[simp] theorem setReserved_tally1 (s : State) (n : Nat) : (s.setReserved n).tally1 = s.tally1 := rfl
@[simp] theorem setReserved_pinHeld (s : State) (n : Nat) : (s.setReserved n).pinHeld = s.pinHeld := rfl
@[simp] theorem setReserved_freeCount (s : State) (n : Nat) : (s.setReserved n).freeCount = s.freeCount := rfl
@[simp] theorem setReserved_pending (s : State) (n : Nat) : (s.setReserved n).pending = s.pending := rfl

@[simp] theorem setAvailable_ctxs (s : State) (n : Nat) : (s.setAvailable n).ctxs = s.ctxs := rfl
@[simp] theorem setAvailable_slotMap (s : State) (n : Nat) : (s.setAvailable n).slotMap = s.slotMap := rfl
@[simp] theorem setAvailable_streamMap (s : State) (n : Nat) : (s.setAvailable n).streamMap = s.streamMap := rfl
@[simp] theorem setAvailable_profiles (s : State) (n : Nat) : (s.setAvailable n).profiles = s.profiles := rfl
@[simp] theorem setAvailable_reserved (s : State) (n : Nat) : (s.setAvailable n).reserved = s.reserved := rfl
@[simp] theorem setAvailable_lanes (s : State) (n : Nat) : (s.setAvailable n).lanes = s.lanes := rfl
@[simp] theorem setAvailable_capture (s : State) (n : Nat) : (s.setAvailable n).capture = s.capture := rfl
@[simp] theorem setAvailable_timer (s : State) (n : Nat) : (s.setAvailable n).timer = s.timer := rfl
@[simp] theorem setAvailable_blocks (s : State) (n : Nat) : (s.setAvailable n).blocks = s.blocks := rfl
@[simp] theorem setAvailable_links (s : State) (n : Nat) : (s.setAvailable n).links = s.links := rfl
@[simp] theorem setAvailable_defaultRound (s : State) (n : Nat) : (s.setAvailable n).defaultRound = s.defaultRound := rfl
@[simp] theorem setAvailable_sweeps (s : State) (n : Nat) : (s.setAvailable n).sweeps = s.sweeps := rfl
@[simp] theorem setAvailable_attention (s : State) (n : Nat) : (s.setAvailable n).attention = s.attention := rfl
@[simp] theorem setAvailable_ports (s : State) (n : Nat) : (s.setAvailable n).ports = s.ports := rfl
@[simp] theorem setAvailable_tally0 (s : State) (n : Nat) : (s.setAvailable n).tally0 = s.tally0 := rfl
@[simp] theorem setAvailable_tally1 (s : State) (n : Nat) : (s.setAvailable n).tally1 = s.tally1 := rfl
@[simp] theorem setAvailable_pinHeld (s : State) (n : Nat) : (s.setAvailable n).pinHeld = s.pinHeld := rfl
@[simp] theorem setAvailable_freeCount (s : State) (n : Nat) : (s.setAvailable n).freeCount = s.freeCount := rfl
@[simp] theorem setAvailable_pending (s : State) (n : Nat) : (s.setAvailable n).pending = s.pending := rfl

@[simp] theorem setCapture_ctxs (s : State) (c : Capture) : (s.setCapture c).ctxs = s.ctxs := rfl
@[simp] theorem setCapture_slotMap (s : State) (c : Capture) : (s.setCapture c).slotMap = s.slotMap := rfl
@[simp] theorem setCapture_streamMap (s : State) (c : Capture) : (s.setCapture c).streamMap = s.streamMap := rfl
@[simp] theorem setCapture_profiles (s : State) (c : Capture) : (s.setCapture c).profiles = s.profiles := rfl
@[simp] theorem setCapture_available (s : State) (c : Capture) : (s.setCapture c).available = s.available := rfl
@[simp] theorem setCapture_reserved (s : State) (c : Capture) : (s.setCapture c).reserved = s.reserved := rfl
@[simp] theorem setCapture_lanes (s : State) (c : Capture) : (s.setCapture c).lanes = s.lanes := rfl
@[simp] theorem setCapture_timer (s : State) (c : Capture) : (s.setCapture c).timer = s.timer := rfl
@[simp] theorem setCapture_blocks (s : State) (c : Capture) : (s.setCapture c).blocks = s.blocks := rfl
@[simp] theorem setCapture_links (s : State) (c : Capture) : (s.setCapture c).links = s.links := rfl
@[simp] theorem setCapture_defaultRound (s : State) (c : Capture) : (s.setCapture c).defaultRound = s.defaultRound := rfl
@[simp] theorem setCapture_sweeps (s : State) (c : Capture) : (s.setCapture c).sweeps = s.sweeps := rfl
@[simp] theorem setCapture_attention (s : State) (c : Capture) : (s.setCapture c).attention = s.attention := rfl
@[simp] theorem setCapture_ports (s : State) (c : Capture) : (s.setCapture c).ports = s.ports := rfl
@[simp] theorem setCapture_tally0 (s : State) (c : Capture) : (s.setCapture c).tally0 = s.tally0 := rfl
@[simp] theorem setCapture_tally1 (s : State) (c : Capture) : (s.setCapture c).tally1 = s.tally1 := rfl
@[simp] theorem setCapture_pinHeld (s : State) (c : Capture) : (s.setCapture c).pinHeld = s.pinHeld := rfl
@[simp] theorem setCapture_freeCount (s : State) (c : Capture) : (s.setCapture c).freeCount = s.freeCount := rfl
@[simp] theorem setCapture_pending (s : State) (c : Capture) : (s.setCapture c).pending = s.pending := rfl

@[simp] theorem setTimer_ctxs (s : State) (t : Timer) : (s.setTimer t).ctxs = s.ctxs := rfl
@[simp] theorem setTimer_slotMap (s : State) (t : Timer) : (s.setTimer t).slotMap = s.slotMap := rfl
@[simp] theorem setTimer_streamMap (s : State) (t : Timer) : (s.setTimer t).streamMap = s.streamMap := rfl
@[simp] theorem setTimer_profiles (s : State) (t : Timer) : (s.setTimer t).profiles = s.profiles := rfl
@[simp] theorem setTimer_available (s : State) (t : Timer) : (s.setTimer t).available = s.available := rfl
@[simp] theorem setTimer_reserved (s : State) (t : Timer) : (s.setTimer t).reserved = s.reserved := rfl
@[simp] theorem setTimer_lanes (s : State) (t : Timer) : (s.setTimer t).lanes = s.lanes := rfl
@[simp] theorem setTimer_capture (s : State) (t : Timer) : (s.setTimer t).capture = s.capture := rfl
@[simp] theorem setTimer_blocks (s : State) (t : Timer) : (s.setTimer t).blocks = s.blocks := rfl
@[simp] theorem setTimer_links (s : State) (t : Timer) : (s.setTimer t).links = s.links := rfl
@[simp] theorem setTimer_defaultRound (s : State) (t : Timer) : (s.setTimer t).defaultRound = s.defaultRound := rfl
@[simp] theorem setTimer_sweeps (s : State) (t : Timer) : (s.setTimer t).sweeps = s.sweeps := rfl
@[simp] theorem setTimer_attention (s : State) (t : Timer) : (s.setTimer t).attention = s.attention := rfl
@[simp] theorem setTimer_ports (s : State) (t : Timer) : (s.setTimer t).ports = s.ports := rfl
@[simp] theorem setTimer_tally0 (s : State) (t : Timer) : (s.setTimer t).tally0 = s.tally0 := rfl
@[simp] theorem setTimer_tally1 (s : State) (t : Timer) : (s.setTimer t).tally1 = s.tally1 := rfl
@[simp] theorem setTimer_pinHeld (s : State) (t : Timer) : (s.setTimer t).pinHeld = s.pinHeld := rfl
@[simp] theorem setTimer_freeCount (s : State) (t : Timer) : (s.setTimer t).freeCount = s.freeCount := rfl
@[simp] theorem setTimer_pending (s : State) (t : Timer) : (s.setTimer t).pending = s.pending := rfl

@[simp] theorem setTallies_ctxs (s : State) (t0 t1 : Tally) : (s.setTallies t0 t1).ctxs = s.ctxs := rfl
@[simp] theorem setTallies_slotMap (s : State) (t0 t1 : Tally) : (s.setTallies t0 t1).slotMap = s.slotMap := rfl
@[simp] theorem setTallies_streamMap (s : State) (t0 t1 : Tally) : (s.setTallies t0 t1).streamMap = s.streamMap := rfl
@[simp] theorem setTallies_profiles (s : State) (t0 t1 : Tally) : (s.setTallies t0 t1).profiles = s.profiles := rfl
@[simp] theorem setTallies_available (s : State) (t0 t1 : Tally) : (s.setTallies t0 t1).available = s.available := rfl
@[simp] theorem setTallies_reserved (s : State) (t0 t1 : Tally) : (s.setTallies t0 t1).reserved = s.reserved := rfl
@[simp] theorem setTallies_lanes (s : State) (t0 t1 : Tally) : (s.setTallies t0 t1).lanes = s.lanes := rfl
@[simp] theorem setTallies_capture (s : State) (t0 t1 : Tally) : (s.setTallies t0 t1).capture = s.capture := rfl
@[simp] theorem setTallies_timer (s : State) (t0 t1 : Tally) : (s.setTallies t0 t1).timer = s.timer := rfl
@[simp] theorem setTallies_blocks (s : State) (t0 t1 : Tally) : (s.setTallies t0 t1).blocks = s.blocks := rfl
@[simp] theorem setTallies_links (s : State) (t0 t1 : Tally) : (s.setTallies t0 t1).links = s.links := rfl
@[simp] theorem setTallies_defaultRound (s : State) (t0 t1 : Tally) : (s.setTallies t0 t1).defaultRound = s.defaultRound := rfl
@[simp] theorem setTallies_sweeps (s : State) (t0 t1 : Tally) : (s.setTallies t0 t1).sweeps = s.sweeps := rfl
@[simp] theorem setTallies_attention (s : State) (t0 t1 : Tally) : (s.setTallies t0 t1).attention = s.attention := rfl
@[simp] theorem setTallies_ports (s : State) (t0 t1 : Tally) : (s.setTallies t0 t1).ports = s.ports := rfl
@[simp] theorem setTallies_pinHeld (s : State) (t0 t1 : Tally) : (s.setTallies t0 t1).pinHeld = s.pinHeld := rfl
@[simp] theorem setTallies_freeCount (s : State) (t0 t1 : Tally) : (s.setTallies t0 t1).freeCount = s.freeCount := rfl
@[simp] theorem setTallies_pending (s : State) (t0 t1 : Tally) : (s.setTallies t0 t1).pending = s.pending := rfl

@[simp] theorem drawn_ctxs (s : State) : (s.drawn).ctxs = s.ctxs := rfl
@[simp] theorem drawn_slotMap (s : State) : (s.drawn).slotMap = s.slotMap := rfl
@[simp] theorem drawn_streamMap (s : State) : (s.drawn).streamMap = s.streamMap := rfl
@[simp] theorem drawn_profiles (s : State) : (s.drawn).profiles = s.profiles := rfl
@[simp] theorem drawn_available (s : State) : (s.drawn).available = s.available := rfl
@[simp] theorem drawn_reserved (s : State) : (s.drawn).reserved = s.reserved := rfl
@[simp] theorem drawn_lanes (s : State) : (s.drawn).lanes = s.lanes := rfl
@[simp] theorem drawn_capture (s : State) : (s.drawn).capture = s.capture := rfl
@[simp] theorem drawn_timer (s : State) : (s.drawn).timer = s.timer := rfl
@[simp] theorem drawn_blocks (s : State) : (s.drawn).blocks = s.blocks := rfl
@[simp] theorem drawn_links (s : State) : (s.drawn).links = s.links := rfl
@[simp] theorem drawn_defaultRound (s : State) : (s.drawn).defaultRound = s.defaultRound := rfl
@[simp] theorem drawn_sweeps (s : State) : (s.drawn).sweeps = s.sweeps := rfl
@[simp] theorem drawn_attention (s : State) : (s.drawn).attention = s.attention := rfl
@[simp] theorem drawn_ports (s : State) : (s.drawn).ports = s.ports := rfl
@[simp] theorem drawn_tally0 (s : State) : (s.drawn).tally0 = s.tally0 := rfl
@[simp] theorem drawn_tally1 (s : State) : (s.drawn).tally1 = s.tally1 := rfl
@[simp] theorem drawn_pinHeld (s : State) : (s.drawn).pinHeld = s.pinHeld := rfl
@[simp] theorem drawn_pending (s : State) : (s.drawn).pending = s.pending := rfl

@[simp] theorem setOrphans_slotMap (s : State) (p : Port) (b : Bool) : (s.setOrphans p b).slotMap = s.slotMap := rfl
@[simp] theorem setOrphans_streamMap (s : State) (p : Port) (b : Bool) : (s.setOrphans p b).streamMap = s.streamMap := rfl
@[simp] theorem setOrphans_profiles (s : State) (p : Port) (b : Bool) : (s.setOrphans p b).profiles = s.profiles := rfl
@[simp] theorem setOrphans_available (s : State) (p : Port) (b : Bool) : (s.setOrphans p b).available = s.available := rfl
@[simp] theorem setOrphans_reserved (s : State) (p : Port) (b : Bool) : (s.setOrphans p b).reserved = s.reserved := rfl
@[simp] theorem setOrphans_lanes (s : State) (p : Port) (b : Bool) : (s.setOrphans p b).lanes = s.lanes := rfl
@[simp] theorem setOrphans_capture (s : State) (p : Port) (b : Bool) : (s.setOrphans p b).capture = s.capture := rfl
@[simp] theorem setOrphans_timer (s : State) (p : Port) (b : Bool) : (s.setOrphans p b).timer = s.timer := rfl
@[simp] theorem setOrphans_blocks (s : State) (p : Port) (b : Bool) : (s.setOrphans p b).blocks = s.blocks := rfl
@[simp] theorem setOrphans_links (s : State) (p : Port) (b : Bool) : (s.setOrphans p b).links = s.links := rfl
@[simp] theorem setOrphans_defaultRound (s : State) (p : Port) (b : Bool) : (s.setOrphans p b).defaultRound = s.defaultRound := rfl
@[simp] theorem setOrphans_sweeps (s : State) (p : Port) (b : Bool) : (s.setOrphans p b).sweeps = s.sweeps := rfl
@[simp] theorem setOrphans_attention (s : State) (p : Port) (b : Bool) : (s.setOrphans p b).attention = s.attention := rfl
@[simp] theorem setOrphans_ports (s : State) (p : Port) (b : Bool) : (s.setOrphans p b).ports = s.ports := rfl
@[simp] theorem setOrphans_tally0 (s : State) (p : Port) (b : Bool) : (s.setOrphans p b).tally0 = s.tally0 := rfl
@[simp] theorem setOrphans_tally1 (s : State) (p : Port) (b : Bool) : (s.setOrphans p b).tally1 = s.tally1 := rfl
@[simp] theorem setOrphans_pinHeld (s : State) (p : Port) (b : Bool) : (s.setOrphans p b).pinHeld = s.pinHeld := rfl
@[simp] theorem setOrphans_freeCount (s : State) (p : Port) (b : Bool) : (s.setOrphans p b).freeCount = s.freeCount := rfl
@[simp] theorem setOrphans_pending (s : State) (p : Port) (b : Bool) : (s.setOrphans p b).pending = s.pending := rfl

/-! ### Fields that an update writes whole -/

@[simp] theorem setReserved_reserved (s : State) (n : Nat) : (s.setReserved n).reserved = n := rfl
@[simp] theorem setAvailable_available (s : State) (n : Nat) : (s.setAvailable n).available = n := rfl
@[simp] theorem setCapture_capture (s : State) (c : Capture) : (s.setCapture c).capture = c := rfl
@[simp] theorem setTimer_timer (s : State) (t : Timer) : (s.setTimer t).timer = t := rfl
@[simp] theorem setTallies_tally0 (s : State) (t0 t1 : Tally) : (s.setTallies t0 t1).tally0 = t0 := rfl
@[simp] theorem setTallies_tally1 (s : State) (t0 t1 : Tally) : (s.setTallies t0 t1).tally1 = t1 := rfl
@[simp] theorem drawn_freeCount (s : State) : s.drawn.freeCount = s.freeCount + 1 := rfl

/-! ### Entries that an update of another table does not change -/

@[simp] theorem setCtx_slotEntry (s : State) (i : Nat) (c : Ctx) (m : Nat) : (s.setCtx i c).slotEntry m = s.slotEntry m := rfl
@[simp] theorem setCtx_streamEntry (s : State) (i : Nat) (c : Ctx) (m : Nat) : (s.setCtx i c).streamEntry m = s.streamEntry m := rfl
@[simp] theorem setCtx_profile (s : State) (i : Nat) (c : Ctx) (m : Nat) : (s.setCtx i c).profile m = s.profile m := rfl
@[simp] theorem setCtx_lane (s : State) (i : Nat) (c : Ctx) (m : Nat) : (s.setCtx i c).lane m = s.lane m := rfl
@[simp] theorem setCtx_block (s : State) (i : Nat) (c : Ctx) (m : Nat) : (s.setCtx i c).block m = s.block m := rfl
@[simp] theorem setCtx_link (s : State) (i : Nat) (c : Ctx) (m : Nat) : (s.setCtx i c).link m = s.link m := rfl
@[simp] theorem setCtx_port (s : State) (i : Nat) (c : Ctx) (r : Port) : (s.setCtx i c).port r = s.port r := rfl
@[simp] theorem setCtx_queueOf (s : State) (i : Nat) (c : Ctx) (r : Port) : (s.setCtx i c).queueOf r = s.queueOf r := rfl
@[simp] theorem setCtx_sweepOf (s : State) (i : Nat) (c : Ctx) (r : Port) : (s.setCtx i c).sweepOf r = s.sweepOf r := rfl
@[simp] theorem setCtx_findStream (s : State) (i : Nat) (c : Ctx) (k : StreamKey) : (s.setCtx i c).findStream k = s.findStream k := rfl
@[simp] theorem setCtx_lowestStream (s : State) (i : Nat) (c : Ctx) : (s.setCtx i c).lowestStream = s.lowestStream := rfl
@[simp] theorem setCtx_contents (s : State) (i : Nat) (c : Ctx) (m : Nat) : (s.setCtx i c).contents m = s.contents m := rfl
@[simp] theorem setCtx_fits (s : State) (i : Nat) (c : Ctx) (k : Nat) : (s.setCtx i c).fits k = s.fits k := rfl

@[simp] theorem modCtx_slotEntry (s : State) (i : Nat) (f : Ctx → Ctx) (m : Nat) : (s.modCtx i f).slotEntry m = s.slotEntry m := rfl
@[simp] theorem modCtx_streamEntry (s : State) (i : Nat) (f : Ctx → Ctx) (m : Nat) : (s.modCtx i f).streamEntry m = s.streamEntry m := rfl
@[simp] theorem modCtx_profile (s : State) (i : Nat) (f : Ctx → Ctx) (m : Nat) : (s.modCtx i f).profile m = s.profile m := rfl
@[simp] theorem modCtx_lane (s : State) (i : Nat) (f : Ctx → Ctx) (m : Nat) : (s.modCtx i f).lane m = s.lane m := rfl
@[simp] theorem modCtx_block (s : State) (i : Nat) (f : Ctx → Ctx) (m : Nat) : (s.modCtx i f).block m = s.block m := rfl
@[simp] theorem modCtx_link (s : State) (i : Nat) (f : Ctx → Ctx) (m : Nat) : (s.modCtx i f).link m = s.link m := rfl
@[simp] theorem modCtx_port (s : State) (i : Nat) (f : Ctx → Ctx) (r : Port) : (s.modCtx i f).port r = s.port r := rfl
@[simp] theorem modCtx_queueOf (s : State) (i : Nat) (f : Ctx → Ctx) (r : Port) : (s.modCtx i f).queueOf r = s.queueOf r := rfl
@[simp] theorem modCtx_sweepOf (s : State) (i : Nat) (f : Ctx → Ctx) (r : Port) : (s.modCtx i f).sweepOf r = s.sweepOf r := rfl
@[simp] theorem modCtx_findStream (s : State) (i : Nat) (f : Ctx → Ctx) (k : StreamKey) : (s.modCtx i f).findStream k = s.findStream k := rfl
@[simp] theorem modCtx_lowestStream (s : State) (i : Nat) (f : Ctx → Ctx) : (s.modCtx i f).lowestStream = s.lowestStream := rfl
@[simp] theorem modCtx_contents (s : State) (i : Nat) (f : Ctx → Ctx) (m : Nat) : (s.modCtx i f).contents m = s.contents m := rfl
@[simp] theorem modCtx_fits (s : State) (i : Nat) (f : Ctx → Ctx) (k : Nat) : (s.modCtx i f).fits k = s.fits k := rfl

@[simp] theorem setSlotEntry_ctx (s : State) (n : Nat) (e : Option Nat) (j : Nat) : (s.setSlotEntry n e).ctx j = s.ctx j := rfl
@[simp] theorem setSlotEntry_streamEntry (s : State) (n : Nat) (e : Option Nat) (m : Nat) : (s.setSlotEntry n e).streamEntry m = s.streamEntry m := rfl
@[simp] theorem setSlotEntry_profile (s : State) (n : Nat) (e : Option Nat) (m : Nat) : (s.setSlotEntry n e).profile m = s.profile m := rfl
@[simp] theorem setSlotEntry_lane (s : State) (n : Nat) (e : Option Nat) (m : Nat) : (s.setSlotEntry n e).lane m = s.lane m := rfl
@[simp] theorem setSlotEntry_block (s : State) (n : Nat) (e : Option Nat) (m : Nat) : (s.setSlotEntry n e).block m = s.block m := rfl
@[simp] theorem setSlotEntry_link (s : State) (n : Nat) (e : Option Nat) (m : Nat) : (s.setSlotEntry n e).link m = s.link m := rfl
@[simp] theorem setSlotEntry_port (s : State) (n : Nat) (e : Option Nat) (r : Port) : (s.setSlotEntry n e).port r = s.port r := rfl
@[simp] theorem setSlotEntry_queueOf (s : State) (n : Nat) (e : Option Nat) (r : Port) : (s.setSlotEntry n e).queueOf r = s.queueOf r := rfl
@[simp] theorem setSlotEntry_sweepOf (s : State) (n : Nat) (e : Option Nat) (r : Port) : (s.setSlotEntry n e).sweepOf r = s.sweepOf r := rfl
@[simp] theorem setSlotEntry_findStream (s : State) (n : Nat) (e : Option Nat) (k : StreamKey) : (s.setSlotEntry n e).findStream k = s.findStream k := rfl
@[simp] theorem setSlotEntry_lowestStream (s : State) (n : Nat) (e : Option Nat) : (s.setSlotEntry n e).lowestStream = s.lowestStream := rfl
@[simp] theorem setSlotEntry_contents (s : State) (n : Nat) (e : Option Nat) (m : Nat) : (s.setSlotEntry n e).contents m = s.contents m := rfl
@[simp] theorem setSlotEntry_handleOf (s : State) (n : Nat) (e : Option Nat) (j : Nat) : (s.setSlotEntry n e).handleOf j = s.handleOf j := rfl
@[simp] theorem setSlotEntry_fits (s : State) (n : Nat) (e : Option Nat) (k : Nat) : (s.setSlotEntry n e).fits k = s.fits k := rfl

@[simp] theorem setStreamEntry_ctx (s : State) (n : Nat) (e : Option StreamEntry) (j : Nat) : (s.setStreamEntry n e).ctx j = s.ctx j := rfl
@[simp] theorem setStreamEntry_slotEntry (s : State) (n : Nat) (e : Option StreamEntry) (m : Nat) : (s.setStreamEntry n e).slotEntry m = s.slotEntry m := rfl
@[simp] theorem setStreamEntry_profile (s : State) (n : Nat) (e : Option StreamEntry) (m : Nat) : (s.setStreamEntry n e).profile m = s.profile m := rfl
@[simp] theorem setStreamEntry_lane (s : State) (n : Nat) (e : Option StreamEntry) (m : Nat) : (s.setStreamEntry n e).lane m = s.lane m := rfl
@[simp] theorem setStreamEntry_block (s : State) (n : Nat) (e : Option StreamEntry) (m : Nat) : (s.setStreamEntry n e).block m = s.block m := rfl
@[simp] theorem setStreamEntry_link (s : State) (n : Nat) (e : Option StreamEntry) (m : Nat) : (s.setStreamEntry n e).link m = s.link m := rfl
@[simp] theorem setStreamEntry_port (s : State) (n : Nat) (e : Option StreamEntry) (r : Port) : (s.setStreamEntry n e).port r = s.port r := rfl
@[simp] theorem setStreamEntry_queueOf (s : State) (n : Nat) (e : Option StreamEntry) (r : Port) : (s.setStreamEntry n e).queueOf r = s.queueOf r := rfl
@[simp] theorem setStreamEntry_sweepOf (s : State) (n : Nat) (e : Option StreamEntry) (r : Port) : (s.setStreamEntry n e).sweepOf r = s.sweepOf r := rfl
@[simp] theorem setStreamEntry_contents (s : State) (n : Nat) (e : Option StreamEntry) (m : Nat) : (s.setStreamEntry n e).contents m = s.contents m := rfl
@[simp] theorem setStreamEntry_handleOf (s : State) (n : Nat) (e : Option StreamEntry) (j : Nat) : (s.setStreamEntry n e).handleOf j = s.handleOf j := rfl
@[simp] theorem setStreamEntry_fits (s : State) (n : Nat) (e : Option StreamEntry) (k : Nat) : (s.setStreamEntry n e).fits k = s.fits k := rfl

@[simp] theorem setProfile_ctx (s : State) (n : Nat) (v : ProfileSlot) (j : Nat) : (s.setProfile n v).ctx j = s.ctx j := rfl
@[simp] theorem setProfile_slotEntry (s : State) (n : Nat) (v : ProfileSlot) (m : Nat) : (s.setProfile n v).slotEntry m = s.slotEntry m := rfl
@[simp] theorem setProfile_streamEntry (s : State) (n : Nat) (v : ProfileSlot) (m : Nat) : (s.setProfile n v).streamEntry m = s.streamEntry m := rfl
@[simp] theorem setProfile_lane (s : State) (n : Nat) (v : ProfileSlot) (m : Nat) : (s.setProfile n v).lane m = s.lane m := rfl
@[simp] theorem setProfile_block (s : State) (n : Nat) (v : ProfileSlot) (m : Nat) : (s.setProfile n v).block m = s.block m := rfl
@[simp] theorem setProfile_link (s : State) (n : Nat) (v : ProfileSlot) (m : Nat) : (s.setProfile n v).link m = s.link m := rfl
@[simp] theorem setProfile_port (s : State) (n : Nat) (v : ProfileSlot) (r : Port) : (s.setProfile n v).port r = s.port r := rfl
@[simp] theorem setProfile_queueOf (s : State) (n : Nat) (v : ProfileSlot) (r : Port) : (s.setProfile n v).queueOf r = s.queueOf r := rfl
@[simp] theorem setProfile_sweepOf (s : State) (n : Nat) (v : ProfileSlot) (r : Port) : (s.setProfile n v).sweepOf r = s.sweepOf r := rfl
@[simp] theorem setProfile_findStream (s : State) (n : Nat) (v : ProfileSlot) (k : StreamKey) : (s.setProfile n v).findStream k = s.findStream k := rfl
@[simp] theorem setProfile_lowestStream (s : State) (n : Nat) (v : ProfileSlot) : (s.setProfile n v).lowestStream = s.lowestStream := rfl
@[simp] theorem setProfile_handleOf (s : State) (n : Nat) (v : ProfileSlot) (j : Nat) : (s.setProfile n v).handleOf j = s.handleOf j := rfl
@[simp] theorem setProfile_fits (s : State) (n : Nat) (v : ProfileSlot) (k : Nat) : (s.setProfile n v).fits k = s.fits k := rfl

@[simp] theorem setLane_ctx (s : State) (n : Nat) (v : Lane) (j : Nat) : (s.setLane n v).ctx j = s.ctx j := rfl
@[simp] theorem setLane_slotEntry (s : State) (n : Nat) (v : Lane) (m : Nat) : (s.setLane n v).slotEntry m = s.slotEntry m := rfl
@[simp] theorem setLane_streamEntry (s : State) (n : Nat) (v : Lane) (m : Nat) : (s.setLane n v).streamEntry m = s.streamEntry m := rfl
@[simp] theorem setLane_profile (s : State) (n : Nat) (v : Lane) (m : Nat) : (s.setLane n v).profile m = s.profile m := rfl
@[simp] theorem setLane_block (s : State) (n : Nat) (v : Lane) (m : Nat) : (s.setLane n v).block m = s.block m := rfl
@[simp] theorem setLane_link (s : State) (n : Nat) (v : Lane) (m : Nat) : (s.setLane n v).link m = s.link m := rfl
@[simp] theorem setLane_port (s : State) (n : Nat) (v : Lane) (r : Port) : (s.setLane n v).port r = s.port r := rfl
@[simp] theorem setLane_queueOf (s : State) (n : Nat) (v : Lane) (r : Port) : (s.setLane n v).queueOf r = s.queueOf r := rfl
@[simp] theorem setLane_sweepOf (s : State) (n : Nat) (v : Lane) (r : Port) : (s.setLane n v).sweepOf r = s.sweepOf r := rfl
@[simp] theorem setLane_findStream (s : State) (n : Nat) (v : Lane) (k : StreamKey) : (s.setLane n v).findStream k = s.findStream k := rfl
@[simp] theorem setLane_lowestStream (s : State) (n : Nat) (v : Lane) : (s.setLane n v).lowestStream = s.lowestStream := rfl
@[simp] theorem setLane_contents (s : State) (n : Nat) (v : Lane) (m : Nat) : (s.setLane n v).contents m = s.contents m := rfl
@[simp] theorem setLane_handleOf (s : State) (n : Nat) (v : Lane) (j : Nat) : (s.setLane n v).handleOf j = s.handleOf j := rfl
@[simp] theorem setLane_fits (s : State) (n : Nat) (v : Lane) (k : Nat) : (s.setLane n v).fits k = s.fits k := rfl

@[simp] theorem setBlock_ctx (s : State) (n : Nat) (v : SlotBlocks) (j : Nat) : (s.setBlock n v).ctx j = s.ctx j := rfl
@[simp] theorem setBlock_slotEntry (s : State) (n : Nat) (v : SlotBlocks) (m : Nat) : (s.setBlock n v).slotEntry m = s.slotEntry m := rfl
@[simp] theorem setBlock_streamEntry (s : State) (n : Nat) (v : SlotBlocks) (m : Nat) : (s.setBlock n v).streamEntry m = s.streamEntry m := rfl
@[simp] theorem setBlock_profile (s : State) (n : Nat) (v : SlotBlocks) (m : Nat) : (s.setBlock n v).profile m = s.profile m := rfl
@[simp] theorem setBlock_lane (s : State) (n : Nat) (v : SlotBlocks) (m : Nat) : (s.setBlock n v).lane m = s.lane m := rfl
@[simp] theorem setBlock_link (s : State) (n : Nat) (v : SlotBlocks) (m : Nat) : (s.setBlock n v).link m = s.link m := rfl
@[simp] theorem setBlock_port (s : State) (n : Nat) (v : SlotBlocks) (r : Port) : (s.setBlock n v).port r = s.port r := rfl
@[simp] theorem setBlock_queueOf (s : State) (n : Nat) (v : SlotBlocks) (r : Port) : (s.setBlock n v).queueOf r = s.queueOf r := rfl
@[simp] theorem setBlock_sweepOf (s : State) (n : Nat) (v : SlotBlocks) (r : Port) : (s.setBlock n v).sweepOf r = s.sweepOf r := rfl
@[simp] theorem setBlock_findStream (s : State) (n : Nat) (v : SlotBlocks) (k : StreamKey) : (s.setBlock n v).findStream k = s.findStream k := rfl
@[simp] theorem setBlock_lowestStream (s : State) (n : Nat) (v : SlotBlocks) : (s.setBlock n v).lowestStream = s.lowestStream := rfl
@[simp] theorem setBlock_contents (s : State) (n : Nat) (v : SlotBlocks) (m : Nat) : (s.setBlock n v).contents m = s.contents m := rfl
@[simp] theorem setBlock_handleOf (s : State) (n : Nat) (v : SlotBlocks) (j : Nat) : (s.setBlock n v).handleOf j = s.handleOf j := rfl
@[simp] theorem setBlock_fits (s : State) (n : Nat) (v : SlotBlocks) (k : Nat) : (s.setBlock n v).fits k = s.fits k := rfl

@[simp] theorem setLink_ctx (s : State) (n : Nat) (v : List OutCell) (j : Nat) : (s.setLink n v).ctx j = s.ctx j := rfl
@[simp] theorem setLink_slotEntry (s : State) (n : Nat) (v : List OutCell) (m : Nat) : (s.setLink n v).slotEntry m = s.slotEntry m := rfl
@[simp] theorem setLink_streamEntry (s : State) (n : Nat) (v : List OutCell) (m : Nat) : (s.setLink n v).streamEntry m = s.streamEntry m := rfl
@[simp] theorem setLink_profile (s : State) (n : Nat) (v : List OutCell) (m : Nat) : (s.setLink n v).profile m = s.profile m := rfl
@[simp] theorem setLink_lane (s : State) (n : Nat) (v : List OutCell) (m : Nat) : (s.setLink n v).lane m = s.lane m := rfl
@[simp] theorem setLink_block (s : State) (n : Nat) (v : List OutCell) (m : Nat) : (s.setLink n v).block m = s.block m := rfl
@[simp] theorem setLink_port (s : State) (n : Nat) (v : List OutCell) (r : Port) : (s.setLink n v).port r = s.port r := rfl
@[simp] theorem setLink_queueOf (s : State) (n : Nat) (v : List OutCell) (r : Port) : (s.setLink n v).queueOf r = s.queueOf r := rfl
@[simp] theorem setLink_sweepOf (s : State) (n : Nat) (v : List OutCell) (r : Port) : (s.setLink n v).sweepOf r = s.sweepOf r := rfl
@[simp] theorem setLink_findStream (s : State) (n : Nat) (v : List OutCell) (k : StreamKey) : (s.setLink n v).findStream k = s.findStream k := rfl
@[simp] theorem setLink_lowestStream (s : State) (n : Nat) (v : List OutCell) : (s.setLink n v).lowestStream = s.lowestStream := rfl
@[simp] theorem setLink_contents (s : State) (n : Nat) (v : List OutCell) (m : Nat) : (s.setLink n v).contents m = s.contents m := rfl
@[simp] theorem setLink_handleOf (s : State) (n : Nat) (v : List OutCell) (j : Nat) : (s.setLink n v).handleOf j = s.handleOf j := rfl
@[simp] theorem setLink_fits (s : State) (n : Nat) (v : List OutCell) (k : Nat) : (s.setLink n v).fits k = s.fits k := rfl

@[simp] theorem setPort_ctx (s : State) (p : Port) (v : PortState) (j : Nat) : (s.setPort p v).ctx j = s.ctx j := rfl
@[simp] theorem setPort_slotEntry (s : State) (p : Port) (v : PortState) (m : Nat) : (s.setPort p v).slotEntry m = s.slotEntry m := rfl
@[simp] theorem setPort_streamEntry (s : State) (p : Port) (v : PortState) (m : Nat) : (s.setPort p v).streamEntry m = s.streamEntry m := rfl
@[simp] theorem setPort_profile (s : State) (p : Port) (v : PortState) (m : Nat) : (s.setPort p v).profile m = s.profile m := rfl
@[simp] theorem setPort_lane (s : State) (p : Port) (v : PortState) (m : Nat) : (s.setPort p v).lane m = s.lane m := rfl
@[simp] theorem setPort_block (s : State) (p : Port) (v : PortState) (m : Nat) : (s.setPort p v).block m = s.block m := rfl
@[simp] theorem setPort_link (s : State) (p : Port) (v : PortState) (m : Nat) : (s.setPort p v).link m = s.link m := rfl
@[simp] theorem setPort_queueOf (s : State) (p : Port) (v : PortState) (r : Port) : (s.setPort p v).queueOf r = s.queueOf r := rfl
@[simp] theorem setPort_sweepOf (s : State) (p : Port) (v : PortState) (r : Port) : (s.setPort p v).sweepOf r = s.sweepOf r := rfl
@[simp] theorem setPort_findStream (s : State) (p : Port) (v : PortState) (k : StreamKey) : (s.setPort p v).findStream k = s.findStream k := rfl
@[simp] theorem setPort_lowestStream (s : State) (p : Port) (v : PortState) : (s.setPort p v).lowestStream = s.lowestStream := rfl
@[simp] theorem setPort_contents (s : State) (p : Port) (v : PortState) (m : Nat) : (s.setPort p v).contents m = s.contents m := rfl
@[simp] theorem setPort_handleOf (s : State) (p : Port) (v : PortState) (j : Nat) : (s.setPort p v).handleOf j = s.handleOf j := rfl
@[simp] theorem setPort_fits (s : State) (p : Port) (v : PortState) (k : Nat) : (s.setPort p v).fits k = s.fits k := rfl

@[simp] theorem setQueue_ctx (s : State) (p : Port) (q : List Nat) (j : Nat) : (s.setQueue p q).ctx j = s.ctx j := rfl
@[simp] theorem setQueue_slotEntry (s : State) (p : Port) (q : List Nat) (m : Nat) : (s.setQueue p q).slotEntry m = s.slotEntry m := rfl
@[simp] theorem setQueue_streamEntry (s : State) (p : Port) (q : List Nat) (m : Nat) : (s.setQueue p q).streamEntry m = s.streamEntry m := rfl
@[simp] theorem setQueue_profile (s : State) (p : Port) (q : List Nat) (m : Nat) : (s.setQueue p q).profile m = s.profile m := rfl
@[simp] theorem setQueue_lane (s : State) (p : Port) (q : List Nat) (m : Nat) : (s.setQueue p q).lane m = s.lane m := rfl
@[simp] theorem setQueue_block (s : State) (p : Port) (q : List Nat) (m : Nat) : (s.setQueue p q).block m = s.block m := rfl
@[simp] theorem setQueue_link (s : State) (p : Port) (q : List Nat) (m : Nat) : (s.setQueue p q).link m = s.link m := rfl
@[simp] theorem setQueue_port (s : State) (p : Port) (q : List Nat) (r : Port) : (s.setQueue p q).port r = s.port r := rfl
@[simp] theorem setQueue_sweepOf (s : State) (p : Port) (q : List Nat) (r : Port) : (s.setQueue p q).sweepOf r = s.sweepOf r := rfl
@[simp] theorem setQueue_findStream (s : State) (p : Port) (q : List Nat) (k : StreamKey) : (s.setQueue p q).findStream k = s.findStream k := rfl
@[simp] theorem setQueue_lowestStream (s : State) (p : Port) (q : List Nat) : (s.setQueue p q).lowestStream = s.lowestStream := rfl
@[simp] theorem setQueue_contents (s : State) (p : Port) (q : List Nat) (m : Nat) : (s.setQueue p q).contents m = s.contents m := rfl
@[simp] theorem setQueue_handleOf (s : State) (p : Port) (q : List Nat) (j : Nat) : (s.setQueue p q).handleOf j = s.handleOf j := rfl
@[simp] theorem setQueue_fits (s : State) (p : Port) (q : List Nat) (k : Nat) : (s.setQueue p q).fits k = s.fits k := rfl

@[simp] theorem setSweep_ctx (s : State) (p : Port) (v : Sweep) (j : Nat) : (s.setSweep p v).ctx j = s.ctx j := rfl
@[simp] theorem setSweep_slotEntry (s : State) (p : Port) (v : Sweep) (m : Nat) : (s.setSweep p v).slotEntry m = s.slotEntry m := rfl
@[simp] theorem setSweep_streamEntry (s : State) (p : Port) (v : Sweep) (m : Nat) : (s.setSweep p v).streamEntry m = s.streamEntry m := rfl
@[simp] theorem setSweep_profile (s : State) (p : Port) (v : Sweep) (m : Nat) : (s.setSweep p v).profile m = s.profile m := rfl
@[simp] theorem setSweep_lane (s : State) (p : Port) (v : Sweep) (m : Nat) : (s.setSweep p v).lane m = s.lane m := rfl
@[simp] theorem setSweep_block (s : State) (p : Port) (v : Sweep) (m : Nat) : (s.setSweep p v).block m = s.block m := rfl
@[simp] theorem setSweep_link (s : State) (p : Port) (v : Sweep) (m : Nat) : (s.setSweep p v).link m = s.link m := rfl
@[simp] theorem setSweep_port (s : State) (p : Port) (v : Sweep) (r : Port) : (s.setSweep p v).port r = s.port r := rfl
@[simp] theorem setSweep_queueOf (s : State) (p : Port) (v : Sweep) (r : Port) : (s.setSweep p v).queueOf r = s.queueOf r := rfl
@[simp] theorem setSweep_findStream (s : State) (p : Port) (v : Sweep) (k : StreamKey) : (s.setSweep p v).findStream k = s.findStream k := rfl
@[simp] theorem setSweep_lowestStream (s : State) (p : Port) (v : Sweep) : (s.setSweep p v).lowestStream = s.lowestStream := rfl
@[simp] theorem setSweep_contents (s : State) (p : Port) (v : Sweep) (m : Nat) : (s.setSweep p v).contents m = s.contents m := rfl
@[simp] theorem setSweep_handleOf (s : State) (p : Port) (v : Sweep) (j : Nat) : (s.setSweep p v).handleOf j = s.handleOf j := rfl
@[simp] theorem setSweep_fits (s : State) (p : Port) (v : Sweep) (k : Nat) : (s.setSweep p v).fits k = s.fits k := rfl

@[simp] theorem setReserved_ctx (s : State) (n : Nat) (j : Nat) : (s.setReserved n).ctx j = s.ctx j := rfl
@[simp] theorem setReserved_slotEntry (s : State) (n : Nat) (m : Nat) : (s.setReserved n).slotEntry m = s.slotEntry m := rfl
@[simp] theorem setReserved_streamEntry (s : State) (n : Nat) (m : Nat) : (s.setReserved n).streamEntry m = s.streamEntry m := rfl
@[simp] theorem setReserved_profile (s : State) (n : Nat) (m : Nat) : (s.setReserved n).profile m = s.profile m := rfl
@[simp] theorem setReserved_lane (s : State) (n : Nat) (m : Nat) : (s.setReserved n).lane m = s.lane m := rfl
@[simp] theorem setReserved_block (s : State) (n : Nat) (m : Nat) : (s.setReserved n).block m = s.block m := rfl
@[simp] theorem setReserved_link (s : State) (n : Nat) (m : Nat) : (s.setReserved n).link m = s.link m := rfl
@[simp] theorem setReserved_port (s : State) (n : Nat) (r : Port) : (s.setReserved n).port r = s.port r := rfl
@[simp] theorem setReserved_queueOf (s : State) (n : Nat) (r : Port) : (s.setReserved n).queueOf r = s.queueOf r := rfl
@[simp] theorem setReserved_sweepOf (s : State) (n : Nat) (r : Port) : (s.setReserved n).sweepOf r = s.sweepOf r := rfl
@[simp] theorem setReserved_findStream (s : State) (n : Nat) (k : StreamKey) : (s.setReserved n).findStream k = s.findStream k := rfl
@[simp] theorem setReserved_lowestStream (s : State) (n : Nat) : (s.setReserved n).lowestStream = s.lowestStream := rfl
@[simp] theorem setReserved_contents (s : State) (n : Nat) (m : Nat) : (s.setReserved n).contents m = s.contents m := rfl
@[simp] theorem setReserved_handleOf (s : State) (n : Nat) (j : Nat) : (s.setReserved n).handleOf j = s.handleOf j := rfl

@[simp] theorem setAvailable_ctx (s : State) (n : Nat) (j : Nat) : (s.setAvailable n).ctx j = s.ctx j := rfl
@[simp] theorem setAvailable_slotEntry (s : State) (n : Nat) (m : Nat) : (s.setAvailable n).slotEntry m = s.slotEntry m := rfl
@[simp] theorem setAvailable_streamEntry (s : State) (n : Nat) (m : Nat) : (s.setAvailable n).streamEntry m = s.streamEntry m := rfl
@[simp] theorem setAvailable_profile (s : State) (n : Nat) (m : Nat) : (s.setAvailable n).profile m = s.profile m := rfl
@[simp] theorem setAvailable_lane (s : State) (n : Nat) (m : Nat) : (s.setAvailable n).lane m = s.lane m := rfl
@[simp] theorem setAvailable_block (s : State) (n : Nat) (m : Nat) : (s.setAvailable n).block m = s.block m := rfl
@[simp] theorem setAvailable_link (s : State) (n : Nat) (m : Nat) : (s.setAvailable n).link m = s.link m := rfl
@[simp] theorem setAvailable_port (s : State) (n : Nat) (r : Port) : (s.setAvailable n).port r = s.port r := rfl
@[simp] theorem setAvailable_queueOf (s : State) (n : Nat) (r : Port) : (s.setAvailable n).queueOf r = s.queueOf r := rfl
@[simp] theorem setAvailable_sweepOf (s : State) (n : Nat) (r : Port) : (s.setAvailable n).sweepOf r = s.sweepOf r := rfl
@[simp] theorem setAvailable_findStream (s : State) (n : Nat) (k : StreamKey) : (s.setAvailable n).findStream k = s.findStream k := rfl
@[simp] theorem setAvailable_lowestStream (s : State) (n : Nat) : (s.setAvailable n).lowestStream = s.lowestStream := rfl
@[simp] theorem setAvailable_contents (s : State) (n : Nat) (m : Nat) : (s.setAvailable n).contents m = s.contents m := rfl
@[simp] theorem setAvailable_handleOf (s : State) (n : Nat) (j : Nat) : (s.setAvailable n).handleOf j = s.handleOf j := rfl

@[simp] theorem setCapture_ctx (s : State) (c : Capture) (j : Nat) : (s.setCapture c).ctx j = s.ctx j := rfl
@[simp] theorem setCapture_slotEntry (s : State) (c : Capture) (m : Nat) : (s.setCapture c).slotEntry m = s.slotEntry m := rfl
@[simp] theorem setCapture_streamEntry (s : State) (c : Capture) (m : Nat) : (s.setCapture c).streamEntry m = s.streamEntry m := rfl
@[simp] theorem setCapture_profile (s : State) (c : Capture) (m : Nat) : (s.setCapture c).profile m = s.profile m := rfl
@[simp] theorem setCapture_lane (s : State) (c : Capture) (m : Nat) : (s.setCapture c).lane m = s.lane m := rfl
@[simp] theorem setCapture_block (s : State) (c : Capture) (m : Nat) : (s.setCapture c).block m = s.block m := rfl
@[simp] theorem setCapture_link (s : State) (c : Capture) (m : Nat) : (s.setCapture c).link m = s.link m := rfl
@[simp] theorem setCapture_port (s : State) (c : Capture) (r : Port) : (s.setCapture c).port r = s.port r := rfl
@[simp] theorem setCapture_queueOf (s : State) (c : Capture) (r : Port) : (s.setCapture c).queueOf r = s.queueOf r := rfl
@[simp] theorem setCapture_sweepOf (s : State) (c : Capture) (r : Port) : (s.setCapture c).sweepOf r = s.sweepOf r := rfl
@[simp] theorem setCapture_findStream (s : State) (c : Capture) (k : StreamKey) : (s.setCapture c).findStream k = s.findStream k := rfl
@[simp] theorem setCapture_lowestStream (s : State) (c : Capture) : (s.setCapture c).lowestStream = s.lowestStream := rfl
@[simp] theorem setCapture_contents (s : State) (c : Capture) (m : Nat) : (s.setCapture c).contents m = s.contents m := rfl
@[simp] theorem setCapture_handleOf (s : State) (c : Capture) (j : Nat) : (s.setCapture c).handleOf j = s.handleOf j := rfl
@[simp] theorem setCapture_fits (s : State) (c : Capture) (k : Nat) : (s.setCapture c).fits k = s.fits k := rfl

@[simp] theorem setTimer_ctx (s : State) (t : Timer) (j : Nat) : (s.setTimer t).ctx j = s.ctx j := rfl
@[simp] theorem setTimer_slotEntry (s : State) (t : Timer) (m : Nat) : (s.setTimer t).slotEntry m = s.slotEntry m := rfl
@[simp] theorem setTimer_streamEntry (s : State) (t : Timer) (m : Nat) : (s.setTimer t).streamEntry m = s.streamEntry m := rfl
@[simp] theorem setTimer_profile (s : State) (t : Timer) (m : Nat) : (s.setTimer t).profile m = s.profile m := rfl
@[simp] theorem setTimer_lane (s : State) (t : Timer) (m : Nat) : (s.setTimer t).lane m = s.lane m := rfl
@[simp] theorem setTimer_block (s : State) (t : Timer) (m : Nat) : (s.setTimer t).block m = s.block m := rfl
@[simp] theorem setTimer_link (s : State) (t : Timer) (m : Nat) : (s.setTimer t).link m = s.link m := rfl
@[simp] theorem setTimer_port (s : State) (t : Timer) (r : Port) : (s.setTimer t).port r = s.port r := rfl
@[simp] theorem setTimer_queueOf (s : State) (t : Timer) (r : Port) : (s.setTimer t).queueOf r = s.queueOf r := rfl
@[simp] theorem setTimer_sweepOf (s : State) (t : Timer) (r : Port) : (s.setTimer t).sweepOf r = s.sweepOf r := rfl
@[simp] theorem setTimer_findStream (s : State) (t : Timer) (k : StreamKey) : (s.setTimer t).findStream k = s.findStream k := rfl
@[simp] theorem setTimer_lowestStream (s : State) (t : Timer) : (s.setTimer t).lowestStream = s.lowestStream := rfl
@[simp] theorem setTimer_contents (s : State) (t : Timer) (m : Nat) : (s.setTimer t).contents m = s.contents m := rfl
@[simp] theorem setTimer_handleOf (s : State) (t : Timer) (j : Nat) : (s.setTimer t).handleOf j = s.handleOf j := rfl
@[simp] theorem setTimer_fits (s : State) (t : Timer) (k : Nat) : (s.setTimer t).fits k = s.fits k := rfl

@[simp] theorem setTallies_ctx (s : State) (t0 t1 : Tally) (j : Nat) : (s.setTallies t0 t1).ctx j = s.ctx j := rfl
@[simp] theorem setTallies_slotEntry (s : State) (t0 t1 : Tally) (m : Nat) : (s.setTallies t0 t1).slotEntry m = s.slotEntry m := rfl
@[simp] theorem setTallies_streamEntry (s : State) (t0 t1 : Tally) (m : Nat) : (s.setTallies t0 t1).streamEntry m = s.streamEntry m := rfl
@[simp] theorem setTallies_profile (s : State) (t0 t1 : Tally) (m : Nat) : (s.setTallies t0 t1).profile m = s.profile m := rfl
@[simp] theorem setTallies_lane (s : State) (t0 t1 : Tally) (m : Nat) : (s.setTallies t0 t1).lane m = s.lane m := rfl
@[simp] theorem setTallies_block (s : State) (t0 t1 : Tally) (m : Nat) : (s.setTallies t0 t1).block m = s.block m := rfl
@[simp] theorem setTallies_link (s : State) (t0 t1 : Tally) (m : Nat) : (s.setTallies t0 t1).link m = s.link m := rfl
@[simp] theorem setTallies_port (s : State) (t0 t1 : Tally) (r : Port) : (s.setTallies t0 t1).port r = s.port r := rfl
@[simp] theorem setTallies_queueOf (s : State) (t0 t1 : Tally) (r : Port) : (s.setTallies t0 t1).queueOf r = s.queueOf r := rfl
@[simp] theorem setTallies_sweepOf (s : State) (t0 t1 : Tally) (r : Port) : (s.setTallies t0 t1).sweepOf r = s.sweepOf r := rfl
@[simp] theorem setTallies_findStream (s : State) (t0 t1 : Tally) (k : StreamKey) : (s.setTallies t0 t1).findStream k = s.findStream k := rfl
@[simp] theorem setTallies_lowestStream (s : State) (t0 t1 : Tally) : (s.setTallies t0 t1).lowestStream = s.lowestStream := rfl
@[simp] theorem setTallies_contents (s : State) (t0 t1 : Tally) (m : Nat) : (s.setTallies t0 t1).contents m = s.contents m := rfl
@[simp] theorem setTallies_handleOf (s : State) (t0 t1 : Tally) (j : Nat) : (s.setTallies t0 t1).handleOf j = s.handleOf j := rfl
@[simp] theorem setTallies_fits (s : State) (t0 t1 : Tally) (k : Nat) : (s.setTallies t0 t1).fits k = s.fits k := rfl

@[simp] theorem drawn_ctx (s : State) (j : Nat) : (s.drawn).ctx j = s.ctx j := rfl
@[simp] theorem drawn_slotEntry (s : State) (m : Nat) : (s.drawn).slotEntry m = s.slotEntry m := rfl
@[simp] theorem drawn_streamEntry (s : State) (m : Nat) : (s.drawn).streamEntry m = s.streamEntry m := rfl
@[simp] theorem drawn_profile (s : State) (m : Nat) : (s.drawn).profile m = s.profile m := rfl
@[simp] theorem drawn_lane (s : State) (m : Nat) : (s.drawn).lane m = s.lane m := rfl
@[simp] theorem drawn_block (s : State) (m : Nat) : (s.drawn).block m = s.block m := rfl
@[simp] theorem drawn_link (s : State) (m : Nat) : (s.drawn).link m = s.link m := rfl
@[simp] theorem drawn_port (s : State) (r : Port) : (s.drawn).port r = s.port r := rfl
@[simp] theorem drawn_queueOf (s : State) (r : Port) : (s.drawn).queueOf r = s.queueOf r := rfl
@[simp] theorem drawn_sweepOf (s : State) (r : Port) : (s.drawn).sweepOf r = s.sweepOf r := rfl
@[simp] theorem drawn_findStream (s : State) (k : StreamKey) : (s.drawn).findStream k = s.findStream k := rfl
@[simp] theorem drawn_lowestStream (s : State) : (s.drawn).lowestStream = s.lowestStream := rfl
@[simp] theorem drawn_contents (s : State) (m : Nat) : (s.drawn).contents m = s.contents m := rfl
@[simp] theorem drawn_handleOf (s : State) (j : Nat) : (s.drawn).handleOf j = s.handleOf j := rfl
@[simp] theorem drawn_fits (s : State) (k : Nat) : (s.drawn).fits k = s.fits k := rfl

@[simp] theorem setOrphans_slotEntry (s : State) (p : Port) (b : Bool) (m : Nat) : (s.setOrphans p b).slotEntry m = s.slotEntry m := rfl
@[simp] theorem setOrphans_streamEntry (s : State) (p : Port) (b : Bool) (m : Nat) : (s.setOrphans p b).streamEntry m = s.streamEntry m := rfl
@[simp] theorem setOrphans_profile (s : State) (p : Port) (b : Bool) (m : Nat) : (s.setOrphans p b).profile m = s.profile m := rfl
@[simp] theorem setOrphans_lane (s : State) (p : Port) (b : Bool) (m : Nat) : (s.setOrphans p b).lane m = s.lane m := rfl
@[simp] theorem setOrphans_block (s : State) (p : Port) (b : Bool) (m : Nat) : (s.setOrphans p b).block m = s.block m := rfl
@[simp] theorem setOrphans_link (s : State) (p : Port) (b : Bool) (m : Nat) : (s.setOrphans p b).link m = s.link m := rfl
@[simp] theorem setOrphans_port (s : State) (p : Port) (b : Bool) (r : Port) : (s.setOrphans p b).port r = s.port r := rfl
@[simp] theorem setOrphans_queueOf (s : State) (p : Port) (b : Bool) (r : Port) : (s.setOrphans p b).queueOf r = s.queueOf r := rfl
@[simp] theorem setOrphans_sweepOf (s : State) (p : Port) (b : Bool) (r : Port) : (s.setOrphans p b).sweepOf r = s.sweepOf r := rfl
@[simp] theorem setOrphans_findStream (s : State) (p : Port) (b : Bool) (k : StreamKey) : (s.setOrphans p b).findStream k = s.findStream k := rfl
@[simp] theorem setOrphans_lowestStream (s : State) (p : Port) (b : Bool) : (s.setOrphans p b).lowestStream = s.lowestStream := rfl
@[simp] theorem setOrphans_contents (s : State) (p : Port) (b : Bool) (m : Nat) : (s.setOrphans p b).contents m = s.contents m := rfl
@[simp] theorem setOrphans_fits (s : State) (p : Port) (b : Bool) (k : Nat) : (s.setOrphans p b).fits k = s.fits k := rfl

end Sys2Proof.Machine.State
end

