-- ==== Sys2Proof/Laws/Frames.lean ====
section
/-! SUPPORT. The frames of the composed operations: one lemma per operation and field that it does not write. -/

namespace Sys2Proof.Machine.State

/-- A fold of operations that each keep `g` keeps `g`. -/
theorem foldl_keeps {α β : Type} (g : State → α) (f : State → β → State) (h : ∀ t b, g (f t b) = g t) (l : List β)
    (s : State) : g (l.foldl f s) = g s := by
  induction l generalizing s with
  | nil => rfl
  | cons b l ih => rw [List.foldl_cons, ih, h]

@[simp] theorem raise_slotMap (s : State) (i : Nat) (k : Cond) :
    (s.raise i k).slotMap = s.slotMap := by unfold raise; split <;> rfl
@[simp] theorem raise_streamMap (s : State) (i : Nat) (k : Cond) :
    (s.raise i k).streamMap = s.streamMap := by unfold raise; split <;> rfl
@[simp] theorem raise_profiles (s : State) (i : Nat) (k : Cond) :
    (s.raise i k).profiles = s.profiles := by unfold raise; split <;> rfl
@[simp] theorem raise_available (s : State) (i : Nat) (k : Cond) :
    (s.raise i k).available = s.available := by unfold raise; split <;> rfl
@[simp] theorem raise_reserved (s : State) (i : Nat) (k : Cond) :
    (s.raise i k).reserved = s.reserved := by unfold raise; split <;> rfl
@[simp] theorem raise_lanes (s : State) (i : Nat) (k : Cond) :
    (s.raise i k).lanes = s.lanes := by unfold raise; split <;> rfl
@[simp] theorem raise_capture (s : State) (i : Nat) (k : Cond) :
    (s.raise i k).capture = s.capture := by unfold raise; split <;> rfl
@[simp] theorem raise_timer (s : State) (i : Nat) (k : Cond) :
    (s.raise i k).timer = s.timer := by unfold raise; split <;> rfl
@[simp] theorem raise_blocks (s : State) (i : Nat) (k : Cond) :
    (s.raise i k).blocks = s.blocks := by unfold raise; split <;> rfl
@[simp] theorem raise_links (s : State) (i : Nat) (k : Cond) :
    (s.raise i k).links = s.links := by unfold raise; split <;> rfl
@[simp] theorem raise_defaultRound (s : State) (i : Nat) (k : Cond) :
    (s.raise i k).defaultRound = s.defaultRound := by unfold raise; split <;> rfl
@[simp] theorem raise_sweeps (s : State) (i : Nat) (k : Cond) :
    (s.raise i k).sweeps = s.sweeps := by unfold raise; split <;> rfl
@[simp] theorem raise_ports (s : State) (i : Nat) (k : Cond) :
    (s.raise i k).ports = s.ports := by unfold raise; split <;> rfl
@[simp] theorem raise_tally0 (s : State) (i : Nat) (k : Cond) :
    (s.raise i k).tally0 = s.tally0 := by unfold raise; split <;> rfl
@[simp] theorem raise_tally1 (s : State) (i : Nat) (k : Cond) :
    (s.raise i k).tally1 = s.tally1 := by unfold raise; split <;> rfl
@[simp] theorem raise_pinHeld (s : State) (i : Nat) (k : Cond) :
    (s.raise i k).pinHeld = s.pinHeld := by unfold raise; split <;> rfl
@[simp] theorem raise_freeCount (s : State) (i : Nat) (k : Cond) :
    (s.raise i k).freeCount = s.freeCount := by unfold raise; split <;> rfl
@[simp] theorem raise_pending (s : State) (i : Nat) (k : Cond) :
    (s.raise i k).pending = s.pending := by unfold raise; split <;> rfl

@[simp] theorem raiseIf_slotMap (s : State) (b : Bool) (i : Nat) (k : Cond) :
    (s.raiseIf b i k).slotMap = s.slotMap := by cases b <;> simp [raiseIf]
@[simp] theorem raiseIf_streamMap (s : State) (b : Bool) (i : Nat) (k : Cond) :
    (s.raiseIf b i k).streamMap = s.streamMap := by cases b <;> simp [raiseIf]
@[simp] theorem raiseIf_profiles (s : State) (b : Bool) (i : Nat) (k : Cond) :
    (s.raiseIf b i k).profiles = s.profiles := by cases b <;> simp [raiseIf]
@[simp] theorem raiseIf_available (s : State) (b : Bool) (i : Nat) (k : Cond) :
    (s.raiseIf b i k).available = s.available := by cases b <;> simp [raiseIf]
@[simp] theorem raiseIf_reserved (s : State) (b : Bool) (i : Nat) (k : Cond) :
    (s.raiseIf b i k).reserved = s.reserved := by cases b <;> simp [raiseIf]
@[simp] theorem raiseIf_lanes (s : State) (b : Bool) (i : Nat) (k : Cond) :
    (s.raiseIf b i k).lanes = s.lanes := by cases b <;> simp [raiseIf]
@[simp] theorem raiseIf_capture (s : State) (b : Bool) (i : Nat) (k : Cond) :
    (s.raiseIf b i k).capture = s.capture := by cases b <;> simp [raiseIf]
@[simp] theorem raiseIf_timer (s : State) (b : Bool) (i : Nat) (k : Cond) :
    (s.raiseIf b i k).timer = s.timer := by cases b <;> simp [raiseIf]
@[simp] theorem raiseIf_blocks (s : State) (b : Bool) (i : Nat) (k : Cond) :
    (s.raiseIf b i k).blocks = s.blocks := by cases b <;> simp [raiseIf]
@[simp] theorem raiseIf_links (s : State) (b : Bool) (i : Nat) (k : Cond) :
    (s.raiseIf b i k).links = s.links := by cases b <;> simp [raiseIf]
@[simp] theorem raiseIf_defaultRound (s : State) (b : Bool) (i : Nat) (k : Cond) :
    (s.raiseIf b i k).defaultRound = s.defaultRound := by cases b <;> simp [raiseIf]
@[simp] theorem raiseIf_sweeps (s : State) (b : Bool) (i : Nat) (k : Cond) :
    (s.raiseIf b i k).sweeps = s.sweeps := by cases b <;> simp [raiseIf]
@[simp] theorem raiseIf_ports (s : State) (b : Bool) (i : Nat) (k : Cond) :
    (s.raiseIf b i k).ports = s.ports := by cases b <;> simp [raiseIf]
@[simp] theorem raiseIf_tally0 (s : State) (b : Bool) (i : Nat) (k : Cond) :
    (s.raiseIf b i k).tally0 = s.tally0 := by cases b <;> simp [raiseIf]
@[simp] theorem raiseIf_tally1 (s : State) (b : Bool) (i : Nat) (k : Cond) :
    (s.raiseIf b i k).tally1 = s.tally1 := by cases b <;> simp [raiseIf]
@[simp] theorem raiseIf_pinHeld (s : State) (b : Bool) (i : Nat) (k : Cond) :
    (s.raiseIf b i k).pinHeld = s.pinHeld := by cases b <;> simp [raiseIf]
@[simp] theorem raiseIf_freeCount (s : State) (b : Bool) (i : Nat) (k : Cond) :
    (s.raiseIf b i k).freeCount = s.freeCount := by cases b <;> simp [raiseIf]
@[simp] theorem raiseIf_pending (s : State) (b : Bool) (i : Nat) (k : Cond) :
    (s.raiseIf b i k).pending = s.pending := by cases b <;> simp [raiseIf]

@[simp] theorem raisePort_ctxs (s : State) (p : Port) (k : PortCond) :
    (s.raisePort p k).ctxs = s.ctxs := rfl
@[simp] theorem raisePort_slotMap (s : State) (p : Port) (k : PortCond) :
    (s.raisePort p k).slotMap = s.slotMap := rfl
@[simp] theorem raisePort_streamMap (s : State) (p : Port) (k : PortCond) :
    (s.raisePort p k).streamMap = s.streamMap := rfl
@[simp] theorem raisePort_profiles (s : State) (p : Port) (k : PortCond) :
    (s.raisePort p k).profiles = s.profiles := rfl
@[simp] theorem raisePort_available (s : State) (p : Port) (k : PortCond) :
    (s.raisePort p k).available = s.available := rfl
@[simp] theorem raisePort_reserved (s : State) (p : Port) (k : PortCond) :
    (s.raisePort p k).reserved = s.reserved := rfl
@[simp] theorem raisePort_lanes (s : State) (p : Port) (k : PortCond) :
    (s.raisePort p k).lanes = s.lanes := rfl
@[simp] theorem raisePort_capture (s : State) (p : Port) (k : PortCond) :
    (s.raisePort p k).capture = s.capture := rfl
@[simp] theorem raisePort_timer (s : State) (p : Port) (k : PortCond) :
    (s.raisePort p k).timer = s.timer := rfl
@[simp] theorem raisePort_blocks (s : State) (p : Port) (k : PortCond) :
    (s.raisePort p k).blocks = s.blocks := rfl
@[simp] theorem raisePort_links (s : State) (p : Port) (k : PortCond) :
    (s.raisePort p k).links = s.links := rfl
@[simp] theorem raisePort_defaultRound (s : State) (p : Port) (k : PortCond) :
    (s.raisePort p k).defaultRound = s.defaultRound := rfl
@[simp] theorem raisePort_sweeps (s : State) (p : Port) (k : PortCond) :
    (s.raisePort p k).sweeps = s.sweeps := rfl
@[simp] theorem raisePort_attention (s : State) (p : Port) (k : PortCond) :
    (s.raisePort p k).attention = s.attention := rfl
@[simp] theorem raisePort_tally0 (s : State) (p : Port) (k : PortCond) :
    (s.raisePort p k).tally0 = s.tally0 := rfl
@[simp] theorem raisePort_tally1 (s : State) (p : Port) (k : PortCond) :
    (s.raisePort p k).tally1 = s.tally1 := rfl
@[simp] theorem raisePort_pinHeld (s : State) (p : Port) (k : PortCond) :
    (s.raisePort p k).pinHeld = s.pinHeld := rfl
@[simp] theorem raisePort_freeCount (s : State) (p : Port) (k : PortCond) :
    (s.raisePort p k).freeCount = s.freeCount := rfl
@[simp] theorem raisePort_pending (s : State) (p : Port) (k : PortCond) :
    (s.raisePort p k).pending = s.pending := rfl

@[simp] theorem raiseBoth_ctxs (s : State) (k : PortCond) :
    (s.raiseBoth k).ctxs = s.ctxs := rfl
@[simp] theorem raiseBoth_slotMap (s : State) (k : PortCond) :
    (s.raiseBoth k).slotMap = s.slotMap := rfl
@[simp] theorem raiseBoth_streamMap (s : State) (k : PortCond) :
    (s.raiseBoth k).streamMap = s.streamMap := rfl
@[simp] theorem raiseBoth_profiles (s : State) (k : PortCond) :
    (s.raiseBoth k).profiles = s.profiles := rfl
@[simp] theorem raiseBoth_available (s : State) (k : PortCond) :
    (s.raiseBoth k).available = s.available := rfl
@[simp] theorem raiseBoth_reserved (s : State) (k : PortCond) :
    (s.raiseBoth k).reserved = s.reserved := rfl
@[simp] theorem raiseBoth_lanes (s : State) (k : PortCond) :
    (s.raiseBoth k).lanes = s.lanes := rfl
@[simp] theorem raiseBoth_capture (s : State) (k : PortCond) :
    (s.raiseBoth k).capture = s.capture := rfl
@[simp] theorem raiseBoth_timer (s : State) (k : PortCond) :
    (s.raiseBoth k).timer = s.timer := rfl
@[simp] theorem raiseBoth_blocks (s : State) (k : PortCond) :
    (s.raiseBoth k).blocks = s.blocks := rfl
@[simp] theorem raiseBoth_links (s : State) (k : PortCond) :
    (s.raiseBoth k).links = s.links := rfl
@[simp] theorem raiseBoth_defaultRound (s : State) (k : PortCond) :
    (s.raiseBoth k).defaultRound = s.defaultRound := rfl
@[simp] theorem raiseBoth_sweeps (s : State) (k : PortCond) :
    (s.raiseBoth k).sweeps = s.sweeps := rfl
@[simp] theorem raiseBoth_attention (s : State) (k : PortCond) :
    (s.raiseBoth k).attention = s.attention := rfl
@[simp] theorem raiseBoth_tally0 (s : State) (k : PortCond) :
    (s.raiseBoth k).tally0 = s.tally0 := rfl
@[simp] theorem raiseBoth_tally1 (s : State) (k : PortCond) :
    (s.raiseBoth k).tally1 = s.tally1 := rfl
@[simp] theorem raiseBoth_pinHeld (s : State) (k : PortCond) :
    (s.raiseBoth k).pinHeld = s.pinHeld := rfl
@[simp] theorem raiseBoth_freeCount (s : State) (k : PortCond) :
    (s.raiseBoth k).freeCount = s.freeCount := rfl
@[simp] theorem raiseBoth_pending (s : State) (k : PortCond) :
    (s.raiseBoth k).pending = s.pending := rfl

@[simp] theorem count_ctxs (s : State) (k : Event) (h : Option Handle) :
    (s.count k h).ctxs = s.ctxs := rfl
@[simp] theorem count_slotMap (s : State) (k : Event) (h : Option Handle) :
    (s.count k h).slotMap = s.slotMap := rfl
@[simp] theorem count_streamMap (s : State) (k : Event) (h : Option Handle) :
    (s.count k h).streamMap = s.streamMap := rfl
@[simp] theorem count_profiles (s : State) (k : Event) (h : Option Handle) :
    (s.count k h).profiles = s.profiles := rfl
@[simp] theorem count_available (s : State) (k : Event) (h : Option Handle) :
    (s.count k h).available = s.available := rfl
@[simp] theorem count_reserved (s : State) (k : Event) (h : Option Handle) :
    (s.count k h).reserved = s.reserved := rfl
@[simp] theorem count_lanes (s : State) (k : Event) (h : Option Handle) :
    (s.count k h).lanes = s.lanes := rfl
@[simp] theorem count_capture (s : State) (k : Event) (h : Option Handle) :
    (s.count k h).capture = s.capture := rfl
@[simp] theorem count_timer (s : State) (k : Event) (h : Option Handle) :
    (s.count k h).timer = s.timer := rfl
@[simp] theorem count_blocks (s : State) (k : Event) (h : Option Handle) :
    (s.count k h).blocks = s.blocks := rfl
@[simp] theorem count_links (s : State) (k : Event) (h : Option Handle) :
    (s.count k h).links = s.links := rfl
@[simp] theorem count_defaultRound (s : State) (k : Event) (h : Option Handle) :
    (s.count k h).defaultRound = s.defaultRound := rfl
@[simp] theorem count_sweeps (s : State) (k : Event) (h : Option Handle) :
    (s.count k h).sweeps = s.sweeps := rfl
@[simp] theorem count_attention (s : State) (k : Event) (h : Option Handle) :
    (s.count k h).attention = s.attention := rfl
@[simp] theorem count_ports (s : State) (k : Event) (h : Option Handle) :
    (s.count k h).ports = s.ports := rfl
@[simp] theorem count_pinHeld (s : State) (k : Event) (h : Option Handle) :
    (s.count k h).pinHeld = s.pinHeld := rfl
@[simp] theorem count_freeCount (s : State) (k : Event) (h : Option Handle) :
    (s.count k h).freeCount = s.freeCount := rfl
@[simp] theorem count_pending (s : State) (k : Event) (h : Option Handle) :
    (s.count k h).pending = s.pending := rfl

@[simp] theorem countFor_ctxs (s : State) (k : Event) (i : Nat) :
    (s.countFor k i).ctxs = s.ctxs := rfl
@[simp] theorem countFor_slotMap (s : State) (k : Event) (i : Nat) :
    (s.countFor k i).slotMap = s.slotMap := rfl
@[simp] theorem countFor_streamMap (s : State) (k : Event) (i : Nat) :
    (s.countFor k i).streamMap = s.streamMap := rfl
@[simp] theorem countFor_profiles (s : State) (k : Event) (i : Nat) :
    (s.countFor k i).profiles = s.profiles := rfl
@[simp] theorem countFor_available (s : State) (k : Event) (i : Nat) :
    (s.countFor k i).available = s.available := rfl
@[simp] theorem countFor_reserved (s : State) (k : Event) (i : Nat) :
    (s.countFor k i).reserved = s.reserved := rfl
@[simp] theorem countFor_lanes (s : State) (k : Event) (i : Nat) :
    (s.countFor k i).lanes = s.lanes := rfl
@[simp] theorem countFor_capture (s : State) (k : Event) (i : Nat) :
    (s.countFor k i).capture = s.capture := rfl
@[simp] theorem countFor_timer (s : State) (k : Event) (i : Nat) :
    (s.countFor k i).timer = s.timer := rfl
@[simp] theorem countFor_blocks (s : State) (k : Event) (i : Nat) :
    (s.countFor k i).blocks = s.blocks := rfl
@[simp] theorem countFor_links (s : State) (k : Event) (i : Nat) :
    (s.countFor k i).links = s.links := rfl
@[simp] theorem countFor_defaultRound (s : State) (k : Event) (i : Nat) :
    (s.countFor k i).defaultRound = s.defaultRound := rfl
@[simp] theorem countFor_sweeps (s : State) (k : Event) (i : Nat) :
    (s.countFor k i).sweeps = s.sweeps := rfl
@[simp] theorem countFor_attention (s : State) (k : Event) (i : Nat) :
    (s.countFor k i).attention = s.attention := rfl
@[simp] theorem countFor_ports (s : State) (k : Event) (i : Nat) :
    (s.countFor k i).ports = s.ports := rfl
@[simp] theorem countFor_pinHeld (s : State) (k : Event) (i : Nat) :
    (s.countFor k i).pinHeld = s.pinHeld := rfl
@[simp] theorem countFor_freeCount (s : State) (k : Event) (i : Nat) :
    (s.countFor k i).freeCount = s.freeCount := rfl
@[simp] theorem countFor_pending (s : State) (k : Event) (i : Nat) :
    (s.countFor k i).pending = s.pending := rfl

@[simp] theorem freeLane_ctxs (s : State) (i n : Nat) :
    (s.freeLane i n).ctxs = s.ctxs := by unfold freeLane; split <;> rfl
@[simp] theorem freeLane_slotMap (s : State) (i n : Nat) :
    (s.freeLane i n).slotMap = s.slotMap := by unfold freeLane; split <;> rfl
@[simp] theorem freeLane_streamMap (s : State) (i n : Nat) :
    (s.freeLane i n).streamMap = s.streamMap := by unfold freeLane; split <;> rfl
@[simp] theorem freeLane_profiles (s : State) (i n : Nat) :
    (s.freeLane i n).profiles = s.profiles := by unfold freeLane; split <;> rfl
@[simp] theorem freeLane_available (s : State) (i n : Nat) :
    (s.freeLane i n).available = s.available := by unfold freeLane; split <;> rfl
@[simp] theorem freeLane_reserved (s : State) (i n : Nat) :
    (s.freeLane i n).reserved = s.reserved := by unfold freeLane; split <;> rfl
@[simp] theorem freeLane_capture (s : State) (i n : Nat) :
    (s.freeLane i n).capture = s.capture := by unfold freeLane; split <;> rfl
@[simp] theorem freeLane_timer (s : State) (i n : Nat) :
    (s.freeLane i n).timer = s.timer := by unfold freeLane; split <;> rfl
@[simp] theorem freeLane_blocks (s : State) (i n : Nat) :
    (s.freeLane i n).blocks = s.blocks := by unfold freeLane; split <;> rfl
@[simp] theorem freeLane_links (s : State) (i n : Nat) :
    (s.freeLane i n).links = s.links := by unfold freeLane; split <;> rfl
@[simp] theorem freeLane_defaultRound (s : State) (i n : Nat) :
    (s.freeLane i n).defaultRound = s.defaultRound := by unfold freeLane; split <;> rfl
@[simp] theorem freeLane_sweeps (s : State) (i n : Nat) :
    (s.freeLane i n).sweeps = s.sweeps := by unfold freeLane; split <;> rfl
@[simp] theorem freeLane_attention (s : State) (i n : Nat) :
    (s.freeLane i n).attention = s.attention := by unfold freeLane; split <;> rfl
@[simp] theorem freeLane_ports (s : State) (i n : Nat) :
    (s.freeLane i n).ports = s.ports := by unfold freeLane; split <;> rfl
@[simp] theorem freeLane_tally0 (s : State) (i n : Nat) :
    (s.freeLane i n).tally0 = s.tally0 := by unfold freeLane; split <;> rfl
@[simp] theorem freeLane_tally1 (s : State) (i n : Nat) :
    (s.freeLane i n).tally1 = s.tally1 := by unfold freeLane; split <;> rfl
@[simp] theorem freeLane_pinHeld (s : State) (i n : Nat) :
    (s.freeLane i n).pinHeld = s.pinHeld := by unfold freeLane; split <;> rfl
@[simp] theorem freeLane_freeCount (s : State) (i n : Nat) :
    (s.freeLane i n).freeCount = s.freeCount := by unfold freeLane; split <;> rfl
@[simp] theorem freeLane_pending (s : State) (i n : Nat) :
    (s.freeLane i n).pending = s.pending := by unfold freeLane; split <;> rfl

@[simp] theorem freeLanes_ctxs (s : State) (i : Nat) :
    (s.freeLanes i).ctxs = s.ctxs := foldl_keeps (fun t => t.ctxs) _ (fun t n => freeLane_ctxs t i n) _ s
@[simp] theorem freeLanes_slotMap (s : State) (i : Nat) :
    (s.freeLanes i).slotMap = s.slotMap := foldl_keeps (fun t => t.slotMap) _ (fun t n => freeLane_slotMap t i n) _ s
@[simp] theorem freeLanes_streamMap (s : State) (i : Nat) :
    (s.freeLanes i).streamMap = s.streamMap := foldl_keeps (fun t => t.streamMap) _ (fun t n => freeLane_streamMap t i n) _ s
@[simp] theorem freeLanes_profiles (s : State) (i : Nat) :
    (s.freeLanes i).profiles = s.profiles := foldl_keeps (fun t => t.profiles) _ (fun t n => freeLane_profiles t i n) _ s
@[simp] theorem freeLanes_available (s : State) (i : Nat) :
    (s.freeLanes i).available = s.available := foldl_keeps (fun t => t.available) _ (fun t n => freeLane_available t i n) _ s
@[simp] theorem freeLanes_reserved (s : State) (i : Nat) :
    (s.freeLanes i).reserved = s.reserved := foldl_keeps (fun t => t.reserved) _ (fun t n => freeLane_reserved t i n) _ s
@[simp] theorem freeLanes_capture (s : State) (i : Nat) :
    (s.freeLanes i).capture = s.capture := foldl_keeps (fun t => t.capture) _ (fun t n => freeLane_capture t i n) _ s
@[simp] theorem freeLanes_timer (s : State) (i : Nat) :
    (s.freeLanes i).timer = s.timer := foldl_keeps (fun t => t.timer) _ (fun t n => freeLane_timer t i n) _ s
@[simp] theorem freeLanes_blocks (s : State) (i : Nat) :
    (s.freeLanes i).blocks = s.blocks := foldl_keeps (fun t => t.blocks) _ (fun t n => freeLane_blocks t i n) _ s
@[simp] theorem freeLanes_links (s : State) (i : Nat) :
    (s.freeLanes i).links = s.links := foldl_keeps (fun t => t.links) _ (fun t n => freeLane_links t i n) _ s
@[simp] theorem freeLanes_defaultRound (s : State) (i : Nat) :
    (s.freeLanes i).defaultRound = s.defaultRound := foldl_keeps (fun t => t.defaultRound) _ (fun t n => freeLane_defaultRound t i n) _ s
@[simp] theorem freeLanes_sweeps (s : State) (i : Nat) :
    (s.freeLanes i).sweeps = s.sweeps := foldl_keeps (fun t => t.sweeps) _ (fun t n => freeLane_sweeps t i n) _ s
@[simp] theorem freeLanes_attention (s : State) (i : Nat) :
    (s.freeLanes i).attention = s.attention := foldl_keeps (fun t => t.attention) _ (fun t n => freeLane_attention t i n) _ s
@[simp] theorem freeLanes_ports (s : State) (i : Nat) :
    (s.freeLanes i).ports = s.ports := foldl_keeps (fun t => t.ports) _ (fun t n => freeLane_ports t i n) _ s
@[simp] theorem freeLanes_tally0 (s : State) (i : Nat) :
    (s.freeLanes i).tally0 = s.tally0 := foldl_keeps (fun t => t.tally0) _ (fun t n => freeLane_tally0 t i n) _ s
@[simp] theorem freeLanes_tally1 (s : State) (i : Nat) :
    (s.freeLanes i).tally1 = s.tally1 := foldl_keeps (fun t => t.tally1) _ (fun t n => freeLane_tally1 t i n) _ s
@[simp] theorem freeLanes_pinHeld (s : State) (i : Nat) :
    (s.freeLanes i).pinHeld = s.pinHeld := foldl_keeps (fun t => t.pinHeld) _ (fun t n => freeLane_pinHeld t i n) _ s
@[simp] theorem freeLanes_freeCount (s : State) (i : Nat) :
    (s.freeLanes i).freeCount = s.freeCount := foldl_keeps (fun t => t.freeCount) _ (fun t n => freeLane_freeCount t i n) _ s
@[simp] theorem freeLanes_pending (s : State) (i : Nat) :
    (s.freeLanes i).pending = s.pending := foldl_keeps (fun t => t.pending) _ (fun t n => freeLane_pending t i n) _ s

@[simp] theorem discardWork_slotMap (s : State) (i : Nat) :
    (s.discardWork i).slotMap = s.slotMap := by simp [discardWork]
@[simp] theorem discardWork_streamMap (s : State) (i : Nat) :
    (s.discardWork i).streamMap = s.streamMap := by simp [discardWork]
@[simp] theorem discardWork_profiles (s : State) (i : Nat) :
    (s.discardWork i).profiles = s.profiles := by simp [discardWork]
@[simp] theorem discardWork_available (s : State) (i : Nat) :
    (s.discardWork i).available = s.available := by simp [discardWork]
@[simp] theorem discardWork_reserved (s : State) (i : Nat) :
    (s.discardWork i).reserved = s.reserved := by simp [discardWork]
@[simp] theorem discardWork_capture (s : State) (i : Nat) :
    (s.discardWork i).capture = s.capture := by simp [discardWork]
@[simp] theorem discardWork_timer (s : State) (i : Nat) :
    (s.discardWork i).timer = s.timer := by simp [discardWork]
@[simp] theorem discardWork_blocks (s : State) (i : Nat) :
    (s.discardWork i).blocks = s.blocks := by simp [discardWork]
@[simp] theorem discardWork_links (s : State) (i : Nat) :
    (s.discardWork i).links = s.links := by simp [discardWork]
@[simp] theorem discardWork_defaultRound (s : State) (i : Nat) :
    (s.discardWork i).defaultRound = s.defaultRound := by simp [discardWork]
@[simp] theorem discardWork_sweeps (s : State) (i : Nat) :
    (s.discardWork i).sweeps = s.sweeps := by simp [discardWork]
@[simp] theorem discardWork_attention (s : State) (i : Nat) :
    (s.discardWork i).attention = s.attention := by simp [discardWork]
@[simp] theorem discardWork_ports (s : State) (i : Nat) :
    (s.discardWork i).ports = s.ports := by simp [discardWork]
@[simp] theorem discardWork_tally0 (s : State) (i : Nat) :
    (s.discardWork i).tally0 = s.tally0 := by simp [discardWork]
@[simp] theorem discardWork_tally1 (s : State) (i : Nat) :
    (s.discardWork i).tally1 = s.tally1 := by simp [discardWork]
@[simp] theorem discardWork_pinHeld (s : State) (i : Nat) :
    (s.discardWork i).pinHeld = s.pinHeld := by simp [discardWork]
@[simp] theorem discardWork_freeCount (s : State) (i : Nat) :
    (s.discardWork i).freeCount = s.freeCount := by simp [discardWork]
@[simp] theorem discardWork_pending (s : State) (i : Nat) :
    (s.discardWork i).pending = s.pending := by simp [discardWork]

@[simp] theorem removeStream_ctxs (s : State) (k : StreamKey) :
    (s.removeStream k).ctxs = s.ctxs := by unfold removeStream; split <;> rfl
@[simp] theorem removeStream_slotMap (s : State) (k : StreamKey) :
    (s.removeStream k).slotMap = s.slotMap := by unfold removeStream; split <;> rfl
@[simp] theorem removeStream_profiles (s : State) (k : StreamKey) :
    (s.removeStream k).profiles = s.profiles := by unfold removeStream; split <;> rfl
@[simp] theorem removeStream_available (s : State) (k : StreamKey) :
    (s.removeStream k).available = s.available := by unfold removeStream; split <;> rfl
@[simp] theorem removeStream_reserved (s : State) (k : StreamKey) :
    (s.removeStream k).reserved = s.reserved := by unfold removeStream; split <;> rfl
@[simp] theorem removeStream_lanes (s : State) (k : StreamKey) :
    (s.removeStream k).lanes = s.lanes := by unfold removeStream; split <;> rfl
@[simp] theorem removeStream_capture (s : State) (k : StreamKey) :
    (s.removeStream k).capture = s.capture := by unfold removeStream; split <;> rfl
@[simp] theorem removeStream_timer (s : State) (k : StreamKey) :
    (s.removeStream k).timer = s.timer := by unfold removeStream; split <;> rfl
@[simp] theorem removeStream_blocks (s : State) (k : StreamKey) :
    (s.removeStream k).blocks = s.blocks := by unfold removeStream; split <;> rfl
@[simp] theorem removeStream_links (s : State) (k : StreamKey) :
    (s.removeStream k).links = s.links := by unfold removeStream; split <;> rfl
@[simp] theorem removeStream_defaultRound (s : State) (k : StreamKey) :
    (s.removeStream k).defaultRound = s.defaultRound := by unfold removeStream; split <;> rfl
@[simp] theorem removeStream_sweeps (s : State) (k : StreamKey) :
    (s.removeStream k).sweeps = s.sweeps := by unfold removeStream; split <;> rfl
@[simp] theorem removeStream_attention (s : State) (k : StreamKey) :
    (s.removeStream k).attention = s.attention := by unfold removeStream; split <;> rfl
@[simp] theorem removeStream_ports (s : State) (k : StreamKey) :
    (s.removeStream k).ports = s.ports := by unfold removeStream; split <;> rfl
@[simp] theorem removeStream_tally0 (s : State) (k : StreamKey) :
    (s.removeStream k).tally0 = s.tally0 := by unfold removeStream; split <;> rfl
@[simp] theorem removeStream_tally1 (s : State) (k : StreamKey) :
    (s.removeStream k).tally1 = s.tally1 := by unfold removeStream; split <;> rfl
@[simp] theorem removeStream_pinHeld (s : State) (k : StreamKey) :
    (s.removeStream k).pinHeld = s.pinHeld := by unfold removeStream; split <;> rfl
@[simp] theorem removeStream_freeCount (s : State) (k : StreamKey) :
    (s.removeStream k).freeCount = s.freeCount := by unfold removeStream; split <;> rfl
@[simp] theorem removeStream_pending (s : State) (k : StreamKey) :
    (s.removeStream k).pending = s.pending := by unfold removeStream; split <;> rfl

@[simp] theorem removeStreamOpt_ctxs (s : State) (k : Option StreamKey) :
    (s.removeStream? k).ctxs = s.ctxs := by cases k <;> simp [removeStream?]
@[simp] theorem removeStreamOpt_slotMap (s : State) (k : Option StreamKey) :
    (s.removeStream? k).slotMap = s.slotMap := by cases k <;> simp [removeStream?]
@[simp] theorem removeStreamOpt_profiles (s : State) (k : Option StreamKey) :
    (s.removeStream? k).profiles = s.profiles := by cases k <;> simp [removeStream?]
@[simp] theorem removeStreamOpt_available (s : State) (k : Option StreamKey) :
    (s.removeStream? k).available = s.available := by cases k <;> simp [removeStream?]
@[simp] theorem removeStreamOpt_reserved (s : State) (k : Option StreamKey) :
    (s.removeStream? k).reserved = s.reserved := by cases k <;> simp [removeStream?]
@[simp] theorem removeStreamOpt_lanes (s : State) (k : Option StreamKey) :
    (s.removeStream? k).lanes = s.lanes := by cases k <;> simp [removeStream?]
@[simp] theorem removeStreamOpt_capture (s : State) (k : Option StreamKey) :
    (s.removeStream? k).capture = s.capture := by cases k <;> simp [removeStream?]
@[simp] theorem removeStreamOpt_timer (s : State) (k : Option StreamKey) :
    (s.removeStream? k).timer = s.timer := by cases k <;> simp [removeStream?]
@[simp] theorem removeStreamOpt_blocks (s : State) (k : Option StreamKey) :
    (s.removeStream? k).blocks = s.blocks := by cases k <;> simp [removeStream?]
@[simp] theorem removeStreamOpt_links (s : State) (k : Option StreamKey) :
    (s.removeStream? k).links = s.links := by cases k <;> simp [removeStream?]
@[simp] theorem removeStreamOpt_defaultRound (s : State) (k : Option StreamKey) :
    (s.removeStream? k).defaultRound = s.defaultRound := by cases k <;> simp [removeStream?]
@[simp] theorem removeStreamOpt_sweeps (s : State) (k : Option StreamKey) :
    (s.removeStream? k).sweeps = s.sweeps := by cases k <;> simp [removeStream?]
@[simp] theorem removeStreamOpt_attention (s : State) (k : Option StreamKey) :
    (s.removeStream? k).attention = s.attention := by cases k <;> simp [removeStream?]
@[simp] theorem removeStreamOpt_ports (s : State) (k : Option StreamKey) :
    (s.removeStream? k).ports = s.ports := by cases k <;> simp [removeStream?]
@[simp] theorem removeStreamOpt_tally0 (s : State) (k : Option StreamKey) :
    (s.removeStream? k).tally0 = s.tally0 := by cases k <;> simp [removeStream?]
@[simp] theorem removeStreamOpt_tally1 (s : State) (k : Option StreamKey) :
    (s.removeStream? k).tally1 = s.tally1 := by cases k <;> simp [removeStream?]
@[simp] theorem removeStreamOpt_pinHeld (s : State) (k : Option StreamKey) :
    (s.removeStream? k).pinHeld = s.pinHeld := by cases k <;> simp [removeStream?]
@[simp] theorem removeStreamOpt_freeCount (s : State) (k : Option StreamKey) :
    (s.removeStream? k).freeCount = s.freeCount := by cases k <;> simp [removeStream?]
@[simp] theorem removeStreamOpt_pending (s : State) (k : Option StreamKey) :
    (s.removeStream? k).pending = s.pending := by cases k <;> simp [removeStream?]

@[simp] theorem addStream_ctxs (s : State) (k : StreamKey) (i : Nat) (r : Role) :
    (s.addStream k i r).ctxs = s.ctxs := rfl
@[simp] theorem addStream_slotMap (s : State) (k : StreamKey) (i : Nat) (r : Role) :
    (s.addStream k i r).slotMap = s.slotMap := rfl
@[simp] theorem addStream_profiles (s : State) (k : StreamKey) (i : Nat) (r : Role) :
    (s.addStream k i r).profiles = s.profiles := rfl
@[simp] theorem addStream_available (s : State) (k : StreamKey) (i : Nat) (r : Role) :
    (s.addStream k i r).available = s.available := rfl
@[simp] theorem addStream_reserved (s : State) (k : StreamKey) (i : Nat) (r : Role) :
    (s.addStream k i r).reserved = s.reserved := rfl
@[simp] theorem addStream_lanes (s : State) (k : StreamKey) (i : Nat) (r : Role) :
    (s.addStream k i r).lanes = s.lanes := rfl
@[simp] theorem addStream_capture (s : State) (k : StreamKey) (i : Nat) (r : Role) :
    (s.addStream k i r).capture = s.capture := rfl
@[simp] theorem addStream_timer (s : State) (k : StreamKey) (i : Nat) (r : Role) :
    (s.addStream k i r).timer = s.timer := rfl
@[simp] theorem addStream_blocks (s : State) (k : StreamKey) (i : Nat) (r : Role) :
    (s.addStream k i r).blocks = s.blocks := rfl
@[simp] theorem addStream_links (s : State) (k : StreamKey) (i : Nat) (r : Role) :
    (s.addStream k i r).links = s.links := rfl
@[simp] theorem addStream_defaultRound (s : State) (k : StreamKey) (i : Nat) (r : Role) :
    (s.addStream k i r).defaultRound = s.defaultRound := rfl
@[simp] theorem addStream_sweeps (s : State) (k : StreamKey) (i : Nat) (r : Role) :
    (s.addStream k i r).sweeps = s.sweeps := rfl
@[simp] theorem addStream_attention (s : State) (k : StreamKey) (i : Nat) (r : Role) :
    (s.addStream k i r).attention = s.attention := rfl
@[simp] theorem addStream_ports (s : State) (k : StreamKey) (i : Nat) (r : Role) :
    (s.addStream k i r).ports = s.ports := rfl
@[simp] theorem addStream_tally0 (s : State) (k : StreamKey) (i : Nat) (r : Role) :
    (s.addStream k i r).tally0 = s.tally0 := rfl
@[simp] theorem addStream_tally1 (s : State) (k : StreamKey) (i : Nat) (r : Role) :
    (s.addStream k i r).tally1 = s.tally1 := rfl
@[simp] theorem addStream_pinHeld (s : State) (k : StreamKey) (i : Nat) (r : Role) :
    (s.addStream k i r).pinHeld = s.pinHeld := rfl
@[simp] theorem addStream_freeCount (s : State) (k : StreamKey) (i : Nat) (r : Role) :
    (s.addStream k i r).freeCount = s.freeCount := rfl
@[simp] theorem addStream_pending (s : State) (k : StreamKey) (i : Nat) (r : Role) :
    (s.addStream k i r).pending = s.pending := rfl

@[simp] theorem releaseSlot_ctxs (s : State) (b : Option SlotBinding) :
    (s.releaseSlot b).ctxs = s.ctxs := by cases b <;> rfl
@[simp] theorem releaseSlot_streamMap (s : State) (b : Option SlotBinding) :
    (s.releaseSlot b).streamMap = s.streamMap := by cases b <;> rfl
@[simp] theorem releaseSlot_profiles (s : State) (b : Option SlotBinding) :
    (s.releaseSlot b).profiles = s.profiles := by cases b <;> rfl
@[simp] theorem releaseSlot_available (s : State) (b : Option SlotBinding) :
    (s.releaseSlot b).available = s.available := by cases b <;> rfl
@[simp] theorem releaseSlot_reserved (s : State) (b : Option SlotBinding) :
    (s.releaseSlot b).reserved = s.reserved := by cases b <;> rfl
@[simp] theorem releaseSlot_lanes (s : State) (b : Option SlotBinding) :
    (s.releaseSlot b).lanes = s.lanes := by cases b <;> rfl
@[simp] theorem releaseSlot_capture (s : State) (b : Option SlotBinding) :
    (s.releaseSlot b).capture = s.capture := by cases b <;> rfl
@[simp] theorem releaseSlot_timer (s : State) (b : Option SlotBinding) :
    (s.releaseSlot b).timer = s.timer := by cases b <;> rfl
@[simp] theorem releaseSlot_links (s : State) (b : Option SlotBinding) :
    (s.releaseSlot b).links = s.links := by cases b <;> rfl
@[simp] theorem releaseSlot_defaultRound (s : State) (b : Option SlotBinding) :
    (s.releaseSlot b).defaultRound = s.defaultRound := by cases b <;> rfl
@[simp] theorem releaseSlot_sweeps (s : State) (b : Option SlotBinding) :
    (s.releaseSlot b).sweeps = s.sweeps := by cases b <;> rfl
@[simp] theorem releaseSlot_attention (s : State) (b : Option SlotBinding) :
    (s.releaseSlot b).attention = s.attention := by cases b <;> rfl
@[simp] theorem releaseSlot_ports (s : State) (b : Option SlotBinding) :
    (s.releaseSlot b).ports = s.ports := by cases b <;> rfl
@[simp] theorem releaseSlot_tally0 (s : State) (b : Option SlotBinding) :
    (s.releaseSlot b).tally0 = s.tally0 := by cases b <;> rfl
@[simp] theorem releaseSlot_tally1 (s : State) (b : Option SlotBinding) :
    (s.releaseSlot b).tally1 = s.tally1 := by cases b <;> rfl
@[simp] theorem releaseSlot_pinHeld (s : State) (b : Option SlotBinding) :
    (s.releaseSlot b).pinHeld = s.pinHeld := by cases b <;> rfl
@[simp] theorem releaseSlot_freeCount (s : State) (b : Option SlotBinding) :
    (s.releaseSlot b).freeCount = s.freeCount := by cases b <;> rfl
@[simp] theorem releaseSlot_pending (s : State) (b : Option SlotBinding) :
    (s.releaseSlot b).pending = s.pending := by cases b <;> rfl

@[simp] theorem modRefs_ctxs (s : State) (n : Nat) (f : Nat → Nat) :
    (s.modRefs n f).ctxs = s.ctxs := rfl
@[simp] theorem modRefs_slotMap (s : State) (n : Nat) (f : Nat → Nat) :
    (s.modRefs n f).slotMap = s.slotMap := rfl
@[simp] theorem modRefs_streamMap (s : State) (n : Nat) (f : Nat → Nat) :
    (s.modRefs n f).streamMap = s.streamMap := rfl
@[simp] theorem modRefs_available (s : State) (n : Nat) (f : Nat → Nat) :
    (s.modRefs n f).available = s.available := rfl
@[simp] theorem modRefs_reserved (s : State) (n : Nat) (f : Nat → Nat) :
    (s.modRefs n f).reserved = s.reserved := rfl
@[simp] theorem modRefs_lanes (s : State) (n : Nat) (f : Nat → Nat) :
    (s.modRefs n f).lanes = s.lanes := rfl
@[simp] theorem modRefs_capture (s : State) (n : Nat) (f : Nat → Nat) :
    (s.modRefs n f).capture = s.capture := rfl
@[simp] theorem modRefs_timer (s : State) (n : Nat) (f : Nat → Nat) :
    (s.modRefs n f).timer = s.timer := rfl
@[simp] theorem modRefs_blocks (s : State) (n : Nat) (f : Nat → Nat) :
    (s.modRefs n f).blocks = s.blocks := rfl
@[simp] theorem modRefs_links (s : State) (n : Nat) (f : Nat → Nat) :
    (s.modRefs n f).links = s.links := rfl
@[simp] theorem modRefs_defaultRound (s : State) (n : Nat) (f : Nat → Nat) :
    (s.modRefs n f).defaultRound = s.defaultRound := rfl
@[simp] theorem modRefs_sweeps (s : State) (n : Nat) (f : Nat → Nat) :
    (s.modRefs n f).sweeps = s.sweeps := rfl
@[simp] theorem modRefs_attention (s : State) (n : Nat) (f : Nat → Nat) :
    (s.modRefs n f).attention = s.attention := rfl
@[simp] theorem modRefs_ports (s : State) (n : Nat) (f : Nat → Nat) :
    (s.modRefs n f).ports = s.ports := rfl
@[simp] theorem modRefs_tally0 (s : State) (n : Nat) (f : Nat → Nat) :
    (s.modRefs n f).tally0 = s.tally0 := rfl
@[simp] theorem modRefs_tally1 (s : State) (n : Nat) (f : Nat → Nat) :
    (s.modRefs n f).tally1 = s.tally1 := rfl
@[simp] theorem modRefs_pinHeld (s : State) (n : Nat) (f : Nat → Nat) :
    (s.modRefs n f).pinHeld = s.pinHeld := rfl
@[simp] theorem modRefs_freeCount (s : State) (n : Nat) (f : Nat → Nat) :
    (s.modRefs n f).freeCount = s.freeCount := rfl
@[simp] theorem modRefs_pending (s : State) (n : Nat) (f : Nat → Nat) :
    (s.modRefs n f).pending = s.pending := rfl

@[simp] theorem dropRef_ctxs (s : State) (n : Option Nat) :
    (s.dropRef n).ctxs = s.ctxs := by cases n <;> rfl
@[simp] theorem dropRef_slotMap (s : State) (n : Option Nat) :
    (s.dropRef n).slotMap = s.slotMap := by cases n <;> rfl
@[simp] theorem dropRef_streamMap (s : State) (n : Option Nat) :
    (s.dropRef n).streamMap = s.streamMap := by cases n <;> rfl
@[simp] theorem dropRef_available (s : State) (n : Option Nat) :
    (s.dropRef n).available = s.available := by cases n <;> rfl
@[simp] theorem dropRef_reserved (s : State) (n : Option Nat) :
    (s.dropRef n).reserved = s.reserved := by cases n <;> rfl
@[simp] theorem dropRef_lanes (s : State) (n : Option Nat) :
    (s.dropRef n).lanes = s.lanes := by cases n <;> rfl
@[simp] theorem dropRef_capture (s : State) (n : Option Nat) :
    (s.dropRef n).capture = s.capture := by cases n <;> rfl
@[simp] theorem dropRef_timer (s : State) (n : Option Nat) :
    (s.dropRef n).timer = s.timer := by cases n <;> rfl
@[simp] theorem dropRef_blocks (s : State) (n : Option Nat) :
    (s.dropRef n).blocks = s.blocks := by cases n <;> rfl
@[simp] theorem dropRef_links (s : State) (n : Option Nat) :
    (s.dropRef n).links = s.links := by cases n <;> rfl
@[simp] theorem dropRef_defaultRound (s : State) (n : Option Nat) :
    (s.dropRef n).defaultRound = s.defaultRound := by cases n <;> rfl
@[simp] theorem dropRef_sweeps (s : State) (n : Option Nat) :
    (s.dropRef n).sweeps = s.sweeps := by cases n <;> rfl
@[simp] theorem dropRef_attention (s : State) (n : Option Nat) :
    (s.dropRef n).attention = s.attention := by cases n <;> rfl
@[simp] theorem dropRef_ports (s : State) (n : Option Nat) :
    (s.dropRef n).ports = s.ports := by cases n <;> rfl
@[simp] theorem dropRef_tally0 (s : State) (n : Option Nat) :
    (s.dropRef n).tally0 = s.tally0 := by cases n <;> rfl
@[simp] theorem dropRef_tally1 (s : State) (n : Option Nat) :
    (s.dropRef n).tally1 = s.tally1 := by cases n <;> rfl
@[simp] theorem dropRef_pinHeld (s : State) (n : Option Nat) :
    (s.dropRef n).pinHeld = s.pinHeld := by cases n <;> rfl
@[simp] theorem dropRef_freeCount (s : State) (n : Option Nat) :
    (s.dropRef n).freeCount = s.freeCount := by cases n <;> rfl
@[simp] theorem dropRef_pending (s : State) (n : Option Nat) :
    (s.dropRef n).pending = s.pending := by cases n <;> rfl

@[simp] theorem dropHanded_ctxs (s : State) (i : Nat) :
    (s.dropHanded i).ctxs = s.ctxs := by unfold dropHanded; split <;> rfl
@[simp] theorem dropHanded_slotMap (s : State) (i : Nat) :
    (s.dropHanded i).slotMap = s.slotMap := by unfold dropHanded; split <;> rfl
@[simp] theorem dropHanded_streamMap (s : State) (i : Nat) :
    (s.dropHanded i).streamMap = s.streamMap := by unfold dropHanded; split <;> rfl
@[simp] theorem dropHanded_profiles (s : State) (i : Nat) :
    (s.dropHanded i).profiles = s.profiles := by unfold dropHanded; split <;> rfl
@[simp] theorem dropHanded_available (s : State) (i : Nat) :
    (s.dropHanded i).available = s.available := by unfold dropHanded; split <;> rfl
@[simp] theorem dropHanded_reserved (s : State) (i : Nat) :
    (s.dropHanded i).reserved = s.reserved := by unfold dropHanded; split <;> rfl
@[simp] theorem dropHanded_lanes (s : State) (i : Nat) :
    (s.dropHanded i).lanes = s.lanes := by unfold dropHanded; split <;> rfl
@[simp] theorem dropHanded_capture (s : State) (i : Nat) :
    (s.dropHanded i).capture = s.capture := by unfold dropHanded; split <;> rfl
@[simp] theorem dropHanded_timer (s : State) (i : Nat) :
    (s.dropHanded i).timer = s.timer := by unfold dropHanded; split <;> rfl
@[simp] theorem dropHanded_links (s : State) (i : Nat) :
    (s.dropHanded i).links = s.links := by unfold dropHanded; split <;> rfl
@[simp] theorem dropHanded_defaultRound (s : State) (i : Nat) :
    (s.dropHanded i).defaultRound = s.defaultRound := by unfold dropHanded; split <;> rfl
@[simp] theorem dropHanded_sweeps (s : State) (i : Nat) :
    (s.dropHanded i).sweeps = s.sweeps := by unfold dropHanded; split <;> rfl
@[simp] theorem dropHanded_attention (s : State) (i : Nat) :
    (s.dropHanded i).attention = s.attention := by unfold dropHanded; split <;> rfl
@[simp] theorem dropHanded_ports (s : State) (i : Nat) :
    (s.dropHanded i).ports = s.ports := by unfold dropHanded; split <;> rfl
@[simp] theorem dropHanded_tally0 (s : State) (i : Nat) :
    (s.dropHanded i).tally0 = s.tally0 := by unfold dropHanded; split <;> rfl
@[simp] theorem dropHanded_tally1 (s : State) (i : Nat) :
    (s.dropHanded i).tally1 = s.tally1 := by unfold dropHanded; split <;> rfl
@[simp] theorem dropHanded_pinHeld (s : State) (i : Nat) :
    (s.dropHanded i).pinHeld = s.pinHeld := by unfold dropHanded; split <;> rfl
@[simp] theorem dropHanded_freeCount (s : State) (i : Nat) :
    (s.dropHanded i).freeCount = s.freeCount := by unfold dropHanded; split <;> rfl
@[simp] theorem dropHanded_pending (s : State) (i : Nat) :
    (s.dropHanded i).pending = s.pending := by unfold dropHanded; split <;> rfl

@[simp] theorem playBlock_ctxs (s : State) (i : Nat) (c : Option (List Byte)) :
    (s.playBlock i c).ctxs = s.ctxs := by unfold playBlock; split <;> rfl
@[simp] theorem playBlock_slotMap (s : State) (i : Nat) (c : Option (List Byte)) :
    (s.playBlock i c).slotMap = s.slotMap := by unfold playBlock; split <;> rfl
@[simp] theorem playBlock_streamMap (s : State) (i : Nat) (c : Option (List Byte)) :
    (s.playBlock i c).streamMap = s.streamMap := by unfold playBlock; split <;> rfl
@[simp] theorem playBlock_profiles (s : State) (i : Nat) (c : Option (List Byte)) :
    (s.playBlock i c).profiles = s.profiles := by unfold playBlock; split <;> rfl
@[simp] theorem playBlock_available (s : State) (i : Nat) (c : Option (List Byte)) :
    (s.playBlock i c).available = s.available := by unfold playBlock; split <;> rfl
@[simp] theorem playBlock_reserved (s : State) (i : Nat) (c : Option (List Byte)) :
    (s.playBlock i c).reserved = s.reserved := by unfold playBlock; split <;> rfl
@[simp] theorem playBlock_lanes (s : State) (i : Nat) (c : Option (List Byte)) :
    (s.playBlock i c).lanes = s.lanes := by unfold playBlock; split <;> rfl
@[simp] theorem playBlock_capture (s : State) (i : Nat) (c : Option (List Byte)) :
    (s.playBlock i c).capture = s.capture := by unfold playBlock; split <;> rfl
@[simp] theorem playBlock_timer (s : State) (i : Nat) (c : Option (List Byte)) :
    (s.playBlock i c).timer = s.timer := by unfold playBlock; split <;> rfl
@[simp] theorem playBlock_links (s : State) (i : Nat) (c : Option (List Byte)) :
    (s.playBlock i c).links = s.links := by unfold playBlock; split <;> rfl
@[simp] theorem playBlock_defaultRound (s : State) (i : Nat) (c : Option (List Byte)) :
    (s.playBlock i c).defaultRound = s.defaultRound := by unfold playBlock; split <;> rfl
@[simp] theorem playBlock_sweeps (s : State) (i : Nat) (c : Option (List Byte)) :
    (s.playBlock i c).sweeps = s.sweeps := by unfold playBlock; split <;> rfl
@[simp] theorem playBlock_attention (s : State) (i : Nat) (c : Option (List Byte)) :
    (s.playBlock i c).attention = s.attention := by unfold playBlock; split <;> rfl
@[simp] theorem playBlock_ports (s : State) (i : Nat) (c : Option (List Byte)) :
    (s.playBlock i c).ports = s.ports := by unfold playBlock; split <;> rfl
@[simp] theorem playBlock_tally0 (s : State) (i : Nat) (c : Option (List Byte)) :
    (s.playBlock i c).tally0 = s.tally0 := by unfold playBlock; split <;> rfl
@[simp] theorem playBlock_tally1 (s : State) (i : Nat) (c : Option (List Byte)) :
    (s.playBlock i c).tally1 = s.tally1 := by unfold playBlock; split <;> rfl
@[simp] theorem playBlock_pinHeld (s : State) (i : Nat) (c : Option (List Byte)) :
    (s.playBlock i c).pinHeld = s.pinHeld := by unfold playBlock; split <;> rfl
@[simp] theorem playBlock_freeCount (s : State) (i : Nat) (c : Option (List Byte)) :
    (s.playBlock i c).freeCount = s.freeCount := by unfold playBlock; split <;> rfl
@[simp] theorem playBlock_pending (s : State) (i : Nat) (c : Option (List Byte)) :
    (s.playBlock i c).pending = s.pending := by unfold playBlock; split <;> rfl

@[simp] theorem enqueue_ctxs (s : State) (i : Nat) :
    (s.enqueue i).ctxs = s.ctxs := rfl
@[simp] theorem enqueue_slotMap (s : State) (i : Nat) :
    (s.enqueue i).slotMap = s.slotMap := rfl
@[simp] theorem enqueue_streamMap (s : State) (i : Nat) :
    (s.enqueue i).streamMap = s.streamMap := rfl
@[simp] theorem enqueue_profiles (s : State) (i : Nat) :
    (s.enqueue i).profiles = s.profiles := rfl
@[simp] theorem enqueue_available (s : State) (i : Nat) :
    (s.enqueue i).available = s.available := rfl
@[simp] theorem enqueue_reserved (s : State) (i : Nat) :
    (s.enqueue i).reserved = s.reserved := rfl
@[simp] theorem enqueue_lanes (s : State) (i : Nat) :
    (s.enqueue i).lanes = s.lanes := rfl
@[simp] theorem enqueue_capture (s : State) (i : Nat) :
    (s.enqueue i).capture = s.capture := rfl
@[simp] theorem enqueue_timer (s : State) (i : Nat) :
    (s.enqueue i).timer = s.timer := rfl
@[simp] theorem enqueue_blocks (s : State) (i : Nat) :
    (s.enqueue i).blocks = s.blocks := rfl
@[simp] theorem enqueue_links (s : State) (i : Nat) :
    (s.enqueue i).links = s.links := rfl
@[simp] theorem enqueue_defaultRound (s : State) (i : Nat) :
    (s.enqueue i).defaultRound = s.defaultRound := rfl
@[simp] theorem enqueue_sweeps (s : State) (i : Nat) :
    (s.enqueue i).sweeps = s.sweeps := rfl
@[simp] theorem enqueue_ports (s : State) (i : Nat) :
    (s.enqueue i).ports = s.ports := rfl
@[simp] theorem enqueue_tally0 (s : State) (i : Nat) :
    (s.enqueue i).tally0 = s.tally0 := rfl
@[simp] theorem enqueue_tally1 (s : State) (i : Nat) :
    (s.enqueue i).tally1 = s.tally1 := rfl
@[simp] theorem enqueue_pinHeld (s : State) (i : Nat) :
    (s.enqueue i).pinHeld = s.pinHeld := rfl
@[simp] theorem enqueue_freeCount (s : State) (i : Nat) :
    (s.enqueue i).freeCount = s.freeCount := rfl
@[simp] theorem enqueue_pending (s : State) (i : Nat) :
    (s.enqueue i).pending = s.pending := rfl

@[simp] theorem unqueue_ctxs (s : State) (p : Port) (i : Nat) :
    (s.unqueue p i).ctxs = s.ctxs := rfl
@[simp] theorem unqueue_slotMap (s : State) (p : Port) (i : Nat) :
    (s.unqueue p i).slotMap = s.slotMap := rfl
@[simp] theorem unqueue_streamMap (s : State) (p : Port) (i : Nat) :
    (s.unqueue p i).streamMap = s.streamMap := rfl
@[simp] theorem unqueue_profiles (s : State) (p : Port) (i : Nat) :
    (s.unqueue p i).profiles = s.profiles := rfl
@[simp] theorem unqueue_available (s : State) (p : Port) (i : Nat) :
    (s.unqueue p i).available = s.available := rfl
@[simp] theorem unqueue_reserved (s : State) (p : Port) (i : Nat) :
    (s.unqueue p i).reserved = s.reserved := rfl
@[simp] theorem unqueue_lanes (s : State) (p : Port) (i : Nat) :
    (s.unqueue p i).lanes = s.lanes := rfl
@[simp] theorem unqueue_capture (s : State) (p : Port) (i : Nat) :
    (s.unqueue p i).capture = s.capture := rfl
@[simp] theorem unqueue_timer (s : State) (p : Port) (i : Nat) :
    (s.unqueue p i).timer = s.timer := rfl
@[simp] theorem unqueue_blocks (s : State) (p : Port) (i : Nat) :
    (s.unqueue p i).blocks = s.blocks := rfl
@[simp] theorem unqueue_links (s : State) (p : Port) (i : Nat) :
    (s.unqueue p i).links = s.links := rfl
@[simp] theorem unqueue_defaultRound (s : State) (p : Port) (i : Nat) :
    (s.unqueue p i).defaultRound = s.defaultRound := rfl
@[simp] theorem unqueue_sweeps (s : State) (p : Port) (i : Nat) :
    (s.unqueue p i).sweeps = s.sweeps := rfl
@[simp] theorem unqueue_ports (s : State) (p : Port) (i : Nat) :
    (s.unqueue p i).ports = s.ports := rfl
@[simp] theorem unqueue_tally0 (s : State) (p : Port) (i : Nat) :
    (s.unqueue p i).tally0 = s.tally0 := rfl
@[simp] theorem unqueue_tally1 (s : State) (p : Port) (i : Nat) :
    (s.unqueue p i).tally1 = s.tally1 := rfl
@[simp] theorem unqueue_pinHeld (s : State) (p : Port) (i : Nat) :
    (s.unqueue p i).pinHeld = s.pinHeld := rfl
@[simp] theorem unqueue_freeCount (s : State) (p : Port) (i : Nat) :
    (s.unqueue p i).freeCount = s.freeCount := rfl
@[simp] theorem unqueue_pending (s : State) (p : Port) (i : Nat) :
    (s.unqueue p i).pending = s.pending := rfl

@[simp] theorem reserve_ctxs (s : State) (n : Nat) :
    (s.reserve n).ctxs = s.ctxs := rfl
@[simp] theorem reserve_slotMap (s : State) (n : Nat) :
    (s.reserve n).slotMap = s.slotMap := rfl
@[simp] theorem reserve_streamMap (s : State) (n : Nat) :
    (s.reserve n).streamMap = s.streamMap := rfl
@[simp] theorem reserve_profiles (s : State) (n : Nat) :
    (s.reserve n).profiles = s.profiles := rfl
@[simp] theorem reserve_available (s : State) (n : Nat) :
    (s.reserve n).available = s.available := rfl
@[simp] theorem reserve_lanes (s : State) (n : Nat) :
    (s.reserve n).lanes = s.lanes := rfl
@[simp] theorem reserve_capture (s : State) (n : Nat) :
    (s.reserve n).capture = s.capture := rfl
@[simp] theorem reserve_timer (s : State) (n : Nat) :
    (s.reserve n).timer = s.timer := rfl
@[simp] theorem reserve_blocks (s : State) (n : Nat) :
    (s.reserve n).blocks = s.blocks := rfl
@[simp] theorem reserve_links (s : State) (n : Nat) :
    (s.reserve n).links = s.links := rfl
@[simp] theorem reserve_defaultRound (s : State) (n : Nat) :
    (s.reserve n).defaultRound = s.defaultRound := rfl
@[simp] theorem reserve_sweeps (s : State) (n : Nat) :
    (s.reserve n).sweeps = s.sweeps := rfl
@[simp] theorem reserve_attention (s : State) (n : Nat) :
    (s.reserve n).attention = s.attention := rfl
@[simp] theorem reserve_ports (s : State) (n : Nat) :
    (s.reserve n).ports = s.ports := rfl
@[simp] theorem reserve_tally0 (s : State) (n : Nat) :
    (s.reserve n).tally0 = s.tally0 := rfl
@[simp] theorem reserve_tally1 (s : State) (n : Nat) :
    (s.reserve n).tally1 = s.tally1 := rfl
@[simp] theorem reserve_pinHeld (s : State) (n : Nat) :
    (s.reserve n).pinHeld = s.pinHeld := rfl
@[simp] theorem reserve_freeCount (s : State) (n : Nat) :
    (s.reserve n).freeCount = s.freeCount := rfl
@[simp] theorem reserve_pending (s : State) (n : Nat) :
    (s.reserve n).pending = s.pending := rfl

@[simp] theorem giveBack_ctxs (s : State) (n : Nat) :
    (s.giveBack n).ctxs = s.ctxs := rfl
@[simp] theorem giveBack_slotMap (s : State) (n : Nat) :
    (s.giveBack n).slotMap = s.slotMap := rfl
@[simp] theorem giveBack_streamMap (s : State) (n : Nat) :
    (s.giveBack n).streamMap = s.streamMap := rfl
@[simp] theorem giveBack_profiles (s : State) (n : Nat) :
    (s.giveBack n).profiles = s.profiles := rfl
@[simp] theorem giveBack_available (s : State) (n : Nat) :
    (s.giveBack n).available = s.available := rfl
@[simp] theorem giveBack_lanes (s : State) (n : Nat) :
    (s.giveBack n).lanes = s.lanes := rfl
@[simp] theorem giveBack_capture (s : State) (n : Nat) :
    (s.giveBack n).capture = s.capture := rfl
@[simp] theorem giveBack_timer (s : State) (n : Nat) :
    (s.giveBack n).timer = s.timer := rfl
@[simp] theorem giveBack_blocks (s : State) (n : Nat) :
    (s.giveBack n).blocks = s.blocks := rfl
@[simp] theorem giveBack_links (s : State) (n : Nat) :
    (s.giveBack n).links = s.links := rfl
@[simp] theorem giveBack_defaultRound (s : State) (n : Nat) :
    (s.giveBack n).defaultRound = s.defaultRound := rfl
@[simp] theorem giveBack_sweeps (s : State) (n : Nat) :
    (s.giveBack n).sweeps = s.sweeps := rfl
@[simp] theorem giveBack_attention (s : State) (n : Nat) :
    (s.giveBack n).attention = s.attention := rfl
@[simp] theorem giveBack_ports (s : State) (n : Nat) :
    (s.giveBack n).ports = s.ports := rfl
@[simp] theorem giveBack_tally0 (s : State) (n : Nat) :
    (s.giveBack n).tally0 = s.tally0 := rfl
@[simp] theorem giveBack_tally1 (s : State) (n : Nat) :
    (s.giveBack n).tally1 = s.tally1 := rfl
@[simp] theorem giveBack_pinHeld (s : State) (n : Nat) :
    (s.giveBack n).pinHeld = s.pinHeld := rfl
@[simp] theorem giveBack_freeCount (s : State) (n : Nat) :
    (s.giveBack n).freeCount = s.freeCount := rfl
@[simp] theorem giveBack_pending (s : State) (n : Nat) :
    (s.giveBack n).pending = s.pending := rfl

@[simp] theorem enterHeld_slotMap (s : State) (i : Nat) (c : HoldCause) :
    (s.enterHeld i c).slotMap = s.slotMap := by simp [enterHeld]
@[simp] theorem enterHeld_streamMap (s : State) (i : Nat) (c : HoldCause) :
    (s.enterHeld i c).streamMap = s.streamMap := by simp [enterHeld]
@[simp] theorem enterHeld_profiles (s : State) (i : Nat) (c : HoldCause) :
    (s.enterHeld i c).profiles = s.profiles := by simp [enterHeld]
@[simp] theorem enterHeld_available (s : State) (i : Nat) (c : HoldCause) :
    (s.enterHeld i c).available = s.available := by simp [enterHeld]
@[simp] theorem enterHeld_capture (s : State) (i : Nat) (c : HoldCause) :
    (s.enterHeld i c).capture = s.capture := by simp [enterHeld]
@[simp] theorem enterHeld_timer (s : State) (i : Nat) (c : HoldCause) :
    (s.enterHeld i c).timer = s.timer := by simp [enterHeld]
@[simp] theorem enterHeld_links (s : State) (i : Nat) (c : HoldCause) :
    (s.enterHeld i c).links = s.links := by simp [enterHeld]
@[simp] theorem enterHeld_defaultRound (s : State) (i : Nat) (c : HoldCause) :
    (s.enterHeld i c).defaultRound = s.defaultRound := by simp [enterHeld]
@[simp] theorem enterHeld_sweeps (s : State) (i : Nat) (c : HoldCause) :
    (s.enterHeld i c).sweeps = s.sweeps := by simp [enterHeld]
@[simp] theorem enterHeld_ports (s : State) (i : Nat) (c : HoldCause) :
    (s.enterHeld i c).ports = s.ports := by simp [enterHeld]
@[simp] theorem enterHeld_tally0 (s : State) (i : Nat) (c : HoldCause) :
    (s.enterHeld i c).tally0 = s.tally0 := by simp [enterHeld]
@[simp] theorem enterHeld_tally1 (s : State) (i : Nat) (c : HoldCause) :
    (s.enterHeld i c).tally1 = s.tally1 := by simp [enterHeld]
@[simp] theorem enterHeld_pinHeld (s : State) (i : Nat) (c : HoldCause) :
    (s.enterHeld i c).pinHeld = s.pinHeld := by simp [enterHeld]
@[simp] theorem enterHeld_freeCount (s : State) (i : Nat) (c : HoldCause) :
    (s.enterHeld i c).freeCount = s.freeCount := by simp [enterHeld]
@[simp] theorem enterHeld_pending (s : State) (i : Nat) (c : HoldCause) :
    (s.enterHeld i c).pending = s.pending := by simp [enterHeld]

@[simp] theorem leaveHeld_slotMap (s : State) (i : Nat) :
    (s.leaveHeld i).slotMap = s.slotMap := rfl
@[simp] theorem leaveHeld_streamMap (s : State) (i : Nat) :
    (s.leaveHeld i).streamMap = s.streamMap := rfl
@[simp] theorem leaveHeld_profiles (s : State) (i : Nat) :
    (s.leaveHeld i).profiles = s.profiles := rfl
@[simp] theorem leaveHeld_available (s : State) (i : Nat) :
    (s.leaveHeld i).available = s.available := rfl
@[simp] theorem leaveHeld_lanes (s : State) (i : Nat) :
    (s.leaveHeld i).lanes = s.lanes := rfl
@[simp] theorem leaveHeld_capture (s : State) (i : Nat) :
    (s.leaveHeld i).capture = s.capture := rfl
@[simp] theorem leaveHeld_timer (s : State) (i : Nat) :
    (s.leaveHeld i).timer = s.timer := rfl
@[simp] theorem leaveHeld_blocks (s : State) (i : Nat) :
    (s.leaveHeld i).blocks = s.blocks := rfl
@[simp] theorem leaveHeld_links (s : State) (i : Nat) :
    (s.leaveHeld i).links = s.links := rfl
@[simp] theorem leaveHeld_defaultRound (s : State) (i : Nat) :
    (s.leaveHeld i).defaultRound = s.defaultRound := rfl
@[simp] theorem leaveHeld_sweeps (s : State) (i : Nat) :
    (s.leaveHeld i).sweeps = s.sweeps := rfl
@[simp] theorem leaveHeld_attention (s : State) (i : Nat) :
    (s.leaveHeld i).attention = s.attention := rfl
@[simp] theorem leaveHeld_ports (s : State) (i : Nat) :
    (s.leaveHeld i).ports = s.ports := rfl
@[simp] theorem leaveHeld_tally0 (s : State) (i : Nat) :
    (s.leaveHeld i).tally0 = s.tally0 := rfl
@[simp] theorem leaveHeld_tally1 (s : State) (i : Nat) :
    (s.leaveHeld i).tally1 = s.tally1 := rfl
@[simp] theorem leaveHeld_pinHeld (s : State) (i : Nat) :
    (s.leaveHeld i).pinHeld = s.pinHeld := rfl
@[simp] theorem leaveHeld_freeCount (s : State) (i : Nat) :
    (s.leaveHeld i).freeCount = s.freeCount := rfl
@[simp] theorem leaveHeld_pending (s : State) (i : Nat) :
    (s.leaveHeld i).pending = s.pending := rfl

@[simp] theorem releaseHoldings_available (s : State) (i : Nat) :
    (s.releaseHoldings i).available = s.available := by simp [releaseHoldings]
@[simp] theorem releaseHoldings_capture (s : State) (i : Nat) :
    (s.releaseHoldings i).capture = s.capture := by simp [releaseHoldings]
@[simp] theorem releaseHoldings_timer (s : State) (i : Nat) :
    (s.releaseHoldings i).timer = s.timer := by simp [releaseHoldings]
@[simp] theorem releaseHoldings_links (s : State) (i : Nat) :
    (s.releaseHoldings i).links = s.links := by simp [releaseHoldings]
@[simp] theorem releaseHoldings_defaultRound (s : State) (i : Nat) :
    (s.releaseHoldings i).defaultRound = s.defaultRound := by simp [releaseHoldings]
@[simp] theorem releaseHoldings_sweeps (s : State) (i : Nat) :
    (s.releaseHoldings i).sweeps = s.sweeps := by simp [releaseHoldings]
@[simp] theorem releaseHoldings_attention (s : State) (i : Nat) :
    (s.releaseHoldings i).attention = s.attention := by simp [releaseHoldings]
@[simp] theorem releaseHoldings_ports (s : State) (i : Nat) :
    (s.releaseHoldings i).ports = s.ports := by simp [releaseHoldings]
@[simp] theorem releaseHoldings_tally0 (s : State) (i : Nat) :
    (s.releaseHoldings i).tally0 = s.tally0 := by simp [releaseHoldings]
@[simp] theorem releaseHoldings_tally1 (s : State) (i : Nat) :
    (s.releaseHoldings i).tally1 = s.tally1 := by simp [releaseHoldings]
@[simp] theorem releaseHoldings_pinHeld (s : State) (i : Nat) :
    (s.releaseHoldings i).pinHeld = s.pinHeld := by simp [releaseHoldings]
@[simp] theorem releaseHoldings_freeCount (s : State) (i : Nat) :
    (s.releaseHoldings i).freeCount = s.freeCount := by simp [releaseHoldings]
@[simp] theorem releaseHoldings_pending (s : State) (i : Nat) :
    (s.releaseHoldings i).pending = s.pending := by simp [releaseHoldings]

@[simp] theorem enterFree_available (s : State) (i : Nat) :
    (s.enterFree i).available = s.available := by simp [enterFree]
@[simp] theorem enterFree_capture (s : State) (i : Nat) :
    (s.enterFree i).capture = s.capture := by simp [enterFree]
@[simp] theorem enterFree_timer (s : State) (i : Nat) :
    (s.enterFree i).timer = s.timer := by simp [enterFree]
@[simp] theorem enterFree_links (s : State) (i : Nat) :
    (s.enterFree i).links = s.links := by simp [enterFree]
@[simp] theorem enterFree_defaultRound (s : State) (i : Nat) :
    (s.enterFree i).defaultRound = s.defaultRound := by simp [enterFree]
@[simp] theorem enterFree_sweeps (s : State) (i : Nat) :
    (s.enterFree i).sweeps = s.sweeps := by simp [enterFree]
@[simp] theorem enterFree_ports (s : State) (i : Nat) :
    (s.enterFree i).ports = s.ports := by simp [enterFree]
@[simp] theorem enterFree_tally0 (s : State) (i : Nat) :
    (s.enterFree i).tally0 = s.tally0 := by simp [enterFree]
@[simp] theorem enterFree_tally1 (s : State) (i : Nat) :
    (s.enterFree i).tally1 = s.tally1 := by simp [enterFree]
@[simp] theorem enterFree_pinHeld (s : State) (i : Nat) :
    (s.enterFree i).pinHeld = s.pinHeld := by simp [enterFree]
@[simp] theorem enterFree_freeCount (s : State) (i : Nat) :
    (s.enterFree i).freeCount = s.freeCount := by simp [enterFree]
@[simp] theorem enterFree_pending (s : State) (i : Nat) :
    (s.enterFree i).pending = s.pending := by simp [enterFree]

@[simp] theorem enterClosed_available (s : State) (i : Nat) (c : RetireCause) :
    (s.enterClosed i c).available = s.available := by unfold enterClosed; split <;> simp
@[simp] theorem enterClosed_capture (s : State) (i : Nat) (c : RetireCause) :
    (s.enterClosed i c).capture = s.capture := by unfold enterClosed; split <;> simp
@[simp] theorem enterClosed_timer (s : State) (i : Nat) (c : RetireCause) :
    (s.enterClosed i c).timer = s.timer := by unfold enterClosed; split <;> simp
@[simp] theorem enterClosed_links (s : State) (i : Nat) (c : RetireCause) :
    (s.enterClosed i c).links = s.links := by unfold enterClosed; split <;> simp
@[simp] theorem enterClosed_defaultRound (s : State) (i : Nat) (c : RetireCause) :
    (s.enterClosed i c).defaultRound = s.defaultRound := by unfold enterClosed; split <;> simp
@[simp] theorem enterClosed_sweeps (s : State) (i : Nat) (c : RetireCause) :
    (s.enterClosed i c).sweeps = s.sweeps := by unfold enterClosed; split <;> simp
@[simp] theorem enterClosed_ports (s : State) (i : Nat) (c : RetireCause) :
    (s.enterClosed i c).ports = s.ports := by unfold enterClosed; split <;> simp
@[simp] theorem enterClosed_tally0 (s : State) (i : Nat) (c : RetireCause) :
    (s.enterClosed i c).tally0 = s.tally0 := by unfold enterClosed; split <;> simp
@[simp] theorem enterClosed_tally1 (s : State) (i : Nat) (c : RetireCause) :
    (s.enterClosed i c).tally1 = s.tally1 := by unfold enterClosed; split <;> simp
@[simp] theorem enterClosed_pinHeld (s : State) (i : Nat) (c : RetireCause) :
    (s.enterClosed i c).pinHeld = s.pinHeld := by unfold enterClosed; split <;> simp
@[simp] theorem enterClosed_freeCount (s : State) (i : Nat) (c : RetireCause) :
    (s.enterClosed i c).freeCount = s.freeCount := by unfold enterClosed; split <;> simp
@[simp] theorem enterClosed_pending (s : State) (i : Nat) (c : RetireCause) :
    (s.enterClosed i c).pending = s.pending := by unfold enterClosed; split <;> simp

@[simp] theorem returnToOpen_slotMap (s : State) (i : Nat) :
    (s.returnToOpen i).slotMap = s.slotMap := by simp [returnToOpen]
@[simp] theorem returnToOpen_streamMap (s : State) (i : Nat) :
    (s.returnToOpen i).streamMap = s.streamMap := by simp [returnToOpen]
@[simp] theorem returnToOpen_profiles (s : State) (i : Nat) :
    (s.returnToOpen i).profiles = s.profiles := by simp [returnToOpen]
@[simp] theorem returnToOpen_available (s : State) (i : Nat) :
    (s.returnToOpen i).available = s.available := by simp [returnToOpen]
@[simp] theorem returnToOpen_capture (s : State) (i : Nat) :
    (s.returnToOpen i).capture = s.capture := by simp [returnToOpen]
@[simp] theorem returnToOpen_timer (s : State) (i : Nat) :
    (s.returnToOpen i).timer = s.timer := by simp [returnToOpen]
@[simp] theorem returnToOpen_blocks (s : State) (i : Nat) :
    (s.returnToOpen i).blocks = s.blocks := by simp [returnToOpen]
@[simp] theorem returnToOpen_links (s : State) (i : Nat) :
    (s.returnToOpen i).links = s.links := by simp [returnToOpen]
@[simp] theorem returnToOpen_defaultRound (s : State) (i : Nat) :
    (s.returnToOpen i).defaultRound = s.defaultRound := by simp [returnToOpen]
@[simp] theorem returnToOpen_sweeps (s : State) (i : Nat) :
    (s.returnToOpen i).sweeps = s.sweeps := by simp [returnToOpen]
@[simp] theorem returnToOpen_ports (s : State) (i : Nat) :
    (s.returnToOpen i).ports = s.ports := by simp [returnToOpen]
@[simp] theorem returnToOpen_tally0 (s : State) (i : Nat) :
    (s.returnToOpen i).tally0 = s.tally0 := by simp [returnToOpen]
@[simp] theorem returnToOpen_tally1 (s : State) (i : Nat) :
    (s.returnToOpen i).tally1 = s.tally1 := by simp [returnToOpen]
@[simp] theorem returnToOpen_pinHeld (s : State) (i : Nat) :
    (s.returnToOpen i).pinHeld = s.pinHeld := by simp [returnToOpen]
@[simp] theorem returnToOpen_freeCount (s : State) (i : Nat) :
    (s.returnToOpen i).freeCount = s.freeCount := by simp [returnToOpen]
@[simp] theorem returnToOpen_pending (s : State) (i : Nat) :
    (s.returnToOpen i).pending = s.pending := by simp [returnToOpen]

@[simp] theorem setSup_ctxs (s : State) (p : Port) (v : Supervision) :
    (s.setSup p v).ctxs = s.ctxs := rfl
@[simp] theorem setSup_slotMap (s : State) (p : Port) (v : Supervision) :
    (s.setSup p v).slotMap = s.slotMap := rfl
@[simp] theorem setSup_streamMap (s : State) (p : Port) (v : Supervision) :
    (s.setSup p v).streamMap = s.streamMap := rfl
@[simp] theorem setSup_profiles (s : State) (p : Port) (v : Supervision) :
    (s.setSup p v).profiles = s.profiles := rfl
@[simp] theorem setSup_available (s : State) (p : Port) (v : Supervision) :
    (s.setSup p v).available = s.available := rfl
@[simp] theorem setSup_reserved (s : State) (p : Port) (v : Supervision) :
    (s.setSup p v).reserved = s.reserved := rfl
@[simp] theorem setSup_lanes (s : State) (p : Port) (v : Supervision) :
    (s.setSup p v).lanes = s.lanes := rfl
@[simp] theorem setSup_capture (s : State) (p : Port) (v : Supervision) :
    (s.setSup p v).capture = s.capture := rfl
@[simp] theorem setSup_timer (s : State) (p : Port) (v : Supervision) :
    (s.setSup p v).timer = s.timer := rfl
@[simp] theorem setSup_blocks (s : State) (p : Port) (v : Supervision) :
    (s.setSup p v).blocks = s.blocks := rfl
@[simp] theorem setSup_links (s : State) (p : Port) (v : Supervision) :
    (s.setSup p v).links = s.links := rfl
@[simp] theorem setSup_defaultRound (s : State) (p : Port) (v : Supervision) :
    (s.setSup p v).defaultRound = s.defaultRound := rfl
@[simp] theorem setSup_sweeps (s : State) (p : Port) (v : Supervision) :
    (s.setSup p v).sweeps = s.sweeps := rfl
@[simp] theorem setSup_attention (s : State) (p : Port) (v : Supervision) :
    (s.setSup p v).attention = s.attention := rfl
@[simp] theorem setSup_tally0 (s : State) (p : Port) (v : Supervision) :
    (s.setSup p v).tally0 = s.tally0 := rfl
@[simp] theorem setSup_tally1 (s : State) (p : Port) (v : Supervision) :
    (s.setSup p v).tally1 = s.tally1 := rfl
@[simp] theorem setSup_pinHeld (s : State) (p : Port) (v : Supervision) :
    (s.setSup p v).pinHeld = s.pinHeld := rfl
@[simp] theorem setSup_freeCount (s : State) (p : Port) (v : Supervision) :
    (s.setSup p v).freeCount = s.freeCount := rfl
@[simp] theorem setSup_pending (s : State) (p : Port) (v : Supervision) :
    (s.setSup p v).pending = s.pending := rfl

@[simp] theorem setRx_ctxs (s : State) (p : Port) (r : Rx) :
    (s.setRx p r).ctxs = s.ctxs := rfl
@[simp] theorem setRx_slotMap (s : State) (p : Port) (r : Rx) :
    (s.setRx p r).slotMap = s.slotMap := rfl
@[simp] theorem setRx_streamMap (s : State) (p : Port) (r : Rx) :
    (s.setRx p r).streamMap = s.streamMap := rfl
@[simp] theorem setRx_profiles (s : State) (p : Port) (r : Rx) :
    (s.setRx p r).profiles = s.profiles := rfl
@[simp] theorem setRx_available (s : State) (p : Port) (r : Rx) :
    (s.setRx p r).available = s.available := rfl
@[simp] theorem setRx_reserved (s : State) (p : Port) (r : Rx) :
    (s.setRx p r).reserved = s.reserved := rfl
@[simp] theorem setRx_lanes (s : State) (p : Port) (r : Rx) :
    (s.setRx p r).lanes = s.lanes := rfl
@[simp] theorem setRx_capture (s : State) (p : Port) (r : Rx) :
    (s.setRx p r).capture = s.capture := rfl
@[simp] theorem setRx_timer (s : State) (p : Port) (r : Rx) :
    (s.setRx p r).timer = s.timer := rfl
@[simp] theorem setRx_blocks (s : State) (p : Port) (r : Rx) :
    (s.setRx p r).blocks = s.blocks := rfl
@[simp] theorem setRx_links (s : State) (p : Port) (r : Rx) :
    (s.setRx p r).links = s.links := rfl
@[simp] theorem setRx_defaultRound (s : State) (p : Port) (r : Rx) :
    (s.setRx p r).defaultRound = s.defaultRound := rfl
@[simp] theorem setRx_sweeps (s : State) (p : Port) (r : Rx) :
    (s.setRx p r).sweeps = s.sweeps := rfl
@[simp] theorem setRx_attention (s : State) (p : Port) (r : Rx) :
    (s.setRx p r).attention = s.attention := rfl
@[simp] theorem setRx_tally0 (s : State) (p : Port) (r : Rx) :
    (s.setRx p r).tally0 = s.tally0 := rfl
@[simp] theorem setRx_tally1 (s : State) (p : Port) (r : Rx) :
    (s.setRx p r).tally1 = s.tally1 := rfl
@[simp] theorem setRx_pinHeld (s : State) (p : Port) (r : Rx) :
    (s.setRx p r).pinHeld = s.pinHeld := rfl
@[simp] theorem setRx_freeCount (s : State) (p : Port) (r : Rx) :
    (s.setRx p r).freeCount = s.freeCount := rfl
@[simp] theorem setRx_pending (s : State) (p : Port) (r : Rx) :
    (s.setRx p r).pending = s.pending := rfl

@[simp] theorem pushResponse_ctxs (s : State) (p : Port) (r : Response) :
    (s.pushResponse p r).ctxs = s.ctxs := rfl
@[simp] theorem pushResponse_slotMap (s : State) (p : Port) (r : Response) :
    (s.pushResponse p r).slotMap = s.slotMap := rfl
@[simp] theorem pushResponse_streamMap (s : State) (p : Port) (r : Response) :
    (s.pushResponse p r).streamMap = s.streamMap := rfl
@[simp] theorem pushResponse_profiles (s : State) (p : Port) (r : Response) :
    (s.pushResponse p r).profiles = s.profiles := rfl
@[simp] theorem pushResponse_available (s : State) (p : Port) (r : Response) :
    (s.pushResponse p r).available = s.available := rfl
@[simp] theorem pushResponse_reserved (s : State) (p : Port) (r : Response) :
    (s.pushResponse p r).reserved = s.reserved := rfl
@[simp] theorem pushResponse_lanes (s : State) (p : Port) (r : Response) :
    (s.pushResponse p r).lanes = s.lanes := rfl
@[simp] theorem pushResponse_capture (s : State) (p : Port) (r : Response) :
    (s.pushResponse p r).capture = s.capture := rfl
@[simp] theorem pushResponse_timer (s : State) (p : Port) (r : Response) :
    (s.pushResponse p r).timer = s.timer := rfl
@[simp] theorem pushResponse_blocks (s : State) (p : Port) (r : Response) :
    (s.pushResponse p r).blocks = s.blocks := rfl
@[simp] theorem pushResponse_links (s : State) (p : Port) (r : Response) :
    (s.pushResponse p r).links = s.links := rfl
@[simp] theorem pushResponse_defaultRound (s : State) (p : Port) (r : Response) :
    (s.pushResponse p r).defaultRound = s.defaultRound := rfl
@[simp] theorem pushResponse_sweeps (s : State) (p : Port) (r : Response) :
    (s.pushResponse p r).sweeps = s.sweeps := rfl
@[simp] theorem pushResponse_attention (s : State) (p : Port) (r : Response) :
    (s.pushResponse p r).attention = s.attention := rfl
@[simp] theorem pushResponse_tally0 (s : State) (p : Port) (r : Response) :
    (s.pushResponse p r).tally0 = s.tally0 := rfl
@[simp] theorem pushResponse_tally1 (s : State) (p : Port) (r : Response) :
    (s.pushResponse p r).tally1 = s.tally1 := rfl
@[simp] theorem pushResponse_pinHeld (s : State) (p : Port) (r : Response) :
    (s.pushResponse p r).pinHeld = s.pinHeld := rfl
@[simp] theorem pushResponse_freeCount (s : State) (p : Port) (r : Response) :
    (s.pushResponse p r).freeCount = s.freeCount := rfl
@[simp] theorem pushResponse_pending (s : State) (p : Port) (r : Response) :
    (s.pushResponse p r).pending = s.pending := rfl

@[simp] theorem renewal_slotMap (s : State) (p : Port) :
    (s.renewal p).slotMap = s.slotMap := by unfold renewal; split <;> rfl
@[simp] theorem renewal_streamMap (s : State) (p : Port) :
    (s.renewal p).streamMap = s.streamMap := by unfold renewal; split <;> rfl
@[simp] theorem renewal_profiles (s : State) (p : Port) :
    (s.renewal p).profiles = s.profiles := by unfold renewal; split <;> rfl
@[simp] theorem renewal_available (s : State) (p : Port) :
    (s.renewal p).available = s.available := by unfold renewal; split <;> rfl
@[simp] theorem renewal_reserved (s : State) (p : Port) :
    (s.renewal p).reserved = s.reserved := by unfold renewal; split <;> rfl
@[simp] theorem renewal_lanes (s : State) (p : Port) :
    (s.renewal p).lanes = s.lanes := by unfold renewal; split <;> rfl
@[simp] theorem renewal_capture (s : State) (p : Port) :
    (s.renewal p).capture = s.capture := by unfold renewal; split <;> rfl
@[simp] theorem renewal_timer (s : State) (p : Port) :
    (s.renewal p).timer = s.timer := by unfold renewal; split <;> rfl
@[simp] theorem renewal_blocks (s : State) (p : Port) :
    (s.renewal p).blocks = s.blocks := by unfold renewal; split <;> rfl
@[simp] theorem renewal_links (s : State) (p : Port) :
    (s.renewal p).links = s.links := by unfold renewal; split <;> rfl
@[simp] theorem renewal_defaultRound (s : State) (p : Port) :
    (s.renewal p).defaultRound = s.defaultRound := by unfold renewal; split <;> rfl
@[simp] theorem renewal_sweeps (s : State) (p : Port) :
    (s.renewal p).sweeps = s.sweeps := by unfold renewal; split <;> rfl
@[simp] theorem renewal_attention (s : State) (p : Port) :
    (s.renewal p).attention = s.attention := by unfold renewal; split <;> rfl
@[simp] theorem renewal_tally0 (s : State) (p : Port) :
    (s.renewal p).tally0 = s.tally0 := by unfold renewal; split <;> rfl
@[simp] theorem renewal_tally1 (s : State) (p : Port) :
    (s.renewal p).tally1 = s.tally1 := by unfold renewal; split <;> rfl
@[simp] theorem renewal_pinHeld (s : State) (p : Port) :
    (s.renewal p).pinHeld = s.pinHeld := by unfold renewal; split <;> rfl
@[simp] theorem renewal_freeCount (s : State) (p : Port) :
    (s.renewal p).freeCount = s.freeCount := by unfold renewal; split <;> rfl
@[simp] theorem renewal_pending (s : State) (p : Port) :
    (s.renewal p).pending = s.pending := by unfold renewal; split <;> rfl

@[simp] theorem renew_slotMap (s : State) (p : Port) (c : Byte) :
    (s.renew p c).slotMap = s.slotMap := by unfold renew; split <;> simp
@[simp] theorem renew_streamMap (s : State) (p : Port) (c : Byte) :
    (s.renew p c).streamMap = s.streamMap := by unfold renew; split <;> simp
@[simp] theorem renew_profiles (s : State) (p : Port) (c : Byte) :
    (s.renew p c).profiles = s.profiles := by unfold renew; split <;> simp
@[simp] theorem renew_available (s : State) (p : Port) (c : Byte) :
    (s.renew p c).available = s.available := by unfold renew; split <;> simp
@[simp] theorem renew_reserved (s : State) (p : Port) (c : Byte) :
    (s.renew p c).reserved = s.reserved := by unfold renew; split <;> simp
@[simp] theorem renew_lanes (s : State) (p : Port) (c : Byte) :
    (s.renew p c).lanes = s.lanes := by unfold renew; split <;> simp
@[simp] theorem renew_capture (s : State) (p : Port) (c : Byte) :
    (s.renew p c).capture = s.capture := by unfold renew; split <;> simp
@[simp] theorem renew_timer (s : State) (p : Port) (c : Byte) :
    (s.renew p c).timer = s.timer := by unfold renew; split <;> simp
@[simp] theorem renew_blocks (s : State) (p : Port) (c : Byte) :
    (s.renew p c).blocks = s.blocks := by unfold renew; split <;> simp
@[simp] theorem renew_links (s : State) (p : Port) (c : Byte) :
    (s.renew p c).links = s.links := by unfold renew; split <;> simp
@[simp] theorem renew_defaultRound (s : State) (p : Port) (c : Byte) :
    (s.renew p c).defaultRound = s.defaultRound := by unfold renew; split <;> simp
@[simp] theorem renew_sweeps (s : State) (p : Port) (c : Byte) :
    (s.renew p c).sweeps = s.sweeps := by unfold renew; split <;> simp
@[simp] theorem renew_attention (s : State) (p : Port) (c : Byte) :
    (s.renew p c).attention = s.attention := by unfold renew; split <;> simp
@[simp] theorem renew_tally0 (s : State) (p : Port) (c : Byte) :
    (s.renew p c).tally0 = s.tally0 := by unfold renew; split <;> simp
@[simp] theorem renew_tally1 (s : State) (p : Port) (c : Byte) :
    (s.renew p c).tally1 = s.tally1 := by unfold renew; split <;> simp
@[simp] theorem renew_pinHeld (s : State) (p : Port) (c : Byte) :
    (s.renew p c).pinHeld = s.pinHeld := by unfold renew; split <;> simp
@[simp] theorem renew_freeCount (s : State) (p : Port) (c : Byte) :
    (s.renew p c).freeCount = s.freeCount := by unfold renew; split <;> simp
@[simp] theorem renew_pending (s : State) (p : Port) (c : Byte) :
    (s.renew p c).pending = s.pending := by unfold renew; split <;> simp

@[simp] theorem atOrder_slotMap (s : State) (p : Port) (c : Byte) :
    (s.atOrder p c).slotMap = s.slotMap := by simp [atOrder]
@[simp] theorem atOrder_streamMap (s : State) (p : Port) (c : Byte) :
    (s.atOrder p c).streamMap = s.streamMap := by simp [atOrder]
@[simp] theorem atOrder_profiles (s : State) (p : Port) (c : Byte) :
    (s.atOrder p c).profiles = s.profiles := by simp [atOrder]
@[simp] theorem atOrder_available (s : State) (p : Port) (c : Byte) :
    (s.atOrder p c).available = s.available := by simp [atOrder]
@[simp] theorem atOrder_reserved (s : State) (p : Port) (c : Byte) :
    (s.atOrder p c).reserved = s.reserved := by simp [atOrder]
@[simp] theorem atOrder_lanes (s : State) (p : Port) (c : Byte) :
    (s.atOrder p c).lanes = s.lanes := by simp [atOrder]
@[simp] theorem atOrder_capture (s : State) (p : Port) (c : Byte) :
    (s.atOrder p c).capture = s.capture := by simp [atOrder]
@[simp] theorem atOrder_timer (s : State) (p : Port) (c : Byte) :
    (s.atOrder p c).timer = s.timer := by simp [atOrder]
@[simp] theorem atOrder_blocks (s : State) (p : Port) (c : Byte) :
    (s.atOrder p c).blocks = s.blocks := by simp [atOrder]
@[simp] theorem atOrder_links (s : State) (p : Port) (c : Byte) :
    (s.atOrder p c).links = s.links := by simp [atOrder]
@[simp] theorem atOrder_defaultRound (s : State) (p : Port) (c : Byte) :
    (s.atOrder p c).defaultRound = s.defaultRound := by simp [atOrder]
@[simp] theorem atOrder_sweeps (s : State) (p : Port) (c : Byte) :
    (s.atOrder p c).sweeps = s.sweeps := by simp [atOrder]
@[simp] theorem atOrder_attention (s : State) (p : Port) (c : Byte) :
    (s.atOrder p c).attention = s.attention := by simp [atOrder]
@[simp] theorem atOrder_tally0 (s : State) (p : Port) (c : Byte) :
    (s.atOrder p c).tally0 = s.tally0 := by simp [atOrder]
@[simp] theorem atOrder_tally1 (s : State) (p : Port) (c : Byte) :
    (s.atOrder p c).tally1 = s.tally1 := by simp [atOrder]
@[simp] theorem atOrder_pinHeld (s : State) (p : Port) (c : Byte) :
    (s.atOrder p c).pinHeld = s.pinHeld := by simp [atOrder]
@[simp] theorem atOrder_freeCount (s : State) (p : Port) (c : Byte) :
    (s.atOrder p c).freeCount = s.freeCount := by simp [atOrder]
@[simp] theorem atOrder_pending (s : State) (p : Port) (c : Byte) :
    (s.atOrder p c).pending = s.pending := by simp [atOrder]

end Sys2Proof.Machine.State
end

