-- ==== Sys2Proof/Laws/ComposedFrames.lean ====
section
/-! SUPPORT. The frames of the composed operations of lanes, rates, handovers, period work, cells and notices: one lemma
per operation and field that it does not write. -/

namespace Sys2Proof.Machine.State

@[simp] theorem captureFault_ctxs (s : State) (k : FaultKind) (n : Nat) :
    (s.captureFault k n).ctxs = s.ctxs := by unfold captureFault; split <;> simp
@[simp] theorem captureFault_slotMap (s : State) (k : FaultKind) (n : Nat) :
    (s.captureFault k n).slotMap = s.slotMap := by unfold captureFault; split <;> simp
@[simp] theorem captureFault_streamMap (s : State) (k : FaultKind) (n : Nat) :
    (s.captureFault k n).streamMap = s.streamMap := by unfold captureFault; split <;> simp
@[simp] theorem captureFault_profiles (s : State) (k : FaultKind) (n : Nat) :
    (s.captureFault k n).profiles = s.profiles := by unfold captureFault; split <;> simp
@[simp] theorem captureFault_available (s : State) (k : FaultKind) (n : Nat) :
    (s.captureFault k n).available = s.available := by unfold captureFault; split <;> simp
@[simp] theorem captureFault_reserved (s : State) (k : FaultKind) (n : Nat) :
    (s.captureFault k n).reserved = s.reserved := by unfold captureFault; split <;> simp
@[simp] theorem captureFault_lanes (s : State) (k : FaultKind) (n : Nat) :
    (s.captureFault k n).lanes = s.lanes := by unfold captureFault; split <;> simp
@[simp] theorem captureFault_timer (s : State) (k : FaultKind) (n : Nat) :
    (s.captureFault k n).timer = s.timer := by unfold captureFault; split <;> simp
@[simp] theorem captureFault_blocks (s : State) (k : FaultKind) (n : Nat) :
    (s.captureFault k n).blocks = s.blocks := by unfold captureFault; split <;> simp
@[simp] theorem captureFault_links (s : State) (k : FaultKind) (n : Nat) :
    (s.captureFault k n).links = s.links := by unfold captureFault; split <;> simp
@[simp] theorem captureFault_defaultRound (s : State) (k : FaultKind) (n : Nat) :
    (s.captureFault k n).defaultRound = s.defaultRound := by unfold captureFault; split <;> simp
@[simp] theorem captureFault_sweeps (s : State) (k : FaultKind) (n : Nat) :
    (s.captureFault k n).sweeps = s.sweeps := by unfold captureFault; split <;> simp
@[simp] theorem captureFault_attention (s : State) (k : FaultKind) (n : Nat) :
    (s.captureFault k n).attention = s.attention := by unfold captureFault; split <;> simp
@[simp] theorem captureFault_tally0 (s : State) (k : FaultKind) (n : Nat) :
    (s.captureFault k n).tally0 = s.tally0 := by unfold captureFault; split <;> simp
@[simp] theorem captureFault_tally1 (s : State) (k : FaultKind) (n : Nat) :
    (s.captureFault k n).tally1 = s.tally1 := by unfold captureFault; split <;> simp
@[simp] theorem captureFault_pinHeld (s : State) (k : FaultKind) (n : Nat) :
    (s.captureFault k n).pinHeld = s.pinHeld := by unfold captureFault; split <;> simp
@[simp] theorem captureFault_freeCount (s : State) (k : FaultKind) (n : Nat) :
    (s.captureFault k n).freeCount = s.freeCount := by unfold captureFault; split <;> simp
@[simp] theorem captureFault_pending (s : State) (k : FaultKind) (n : Nat) :
    (s.captureFault k n).pending = s.pending := by unfold captureFault; split <;> simp

@[simp] theorem dropHand_slotMap (s : State) (n : Nat) :
    (s.dropHand n).slotMap = s.slotMap := by unfold dropHand; split <;> simp
@[simp] theorem dropHand_streamMap (s : State) (n : Nat) :
    (s.dropHand n).streamMap = s.streamMap := by unfold dropHand; split <;> simp
@[simp] theorem dropHand_profiles (s : State) (n : Nat) :
    (s.dropHand n).profiles = s.profiles := by unfold dropHand; split <;> simp
@[simp] theorem dropHand_available (s : State) (n : Nat) :
    (s.dropHand n).available = s.available := by unfold dropHand; split <;> simp
@[simp] theorem dropHand_reserved (s : State) (n : Nat) :
    (s.dropHand n).reserved = s.reserved := by unfold dropHand; split <;> simp
@[simp] theorem dropHand_capture (s : State) (n : Nat) :
    (s.dropHand n).capture = s.capture := by unfold dropHand; split <;> simp
@[simp] theorem dropHand_timer (s : State) (n : Nat) :
    (s.dropHand n).timer = s.timer := by unfold dropHand; split <;> simp
@[simp] theorem dropHand_blocks (s : State) (n : Nat) :
    (s.dropHand n).blocks = s.blocks := by unfold dropHand; split <;> simp
@[simp] theorem dropHand_links (s : State) (n : Nat) :
    (s.dropHand n).links = s.links := by unfold dropHand; split <;> simp
@[simp] theorem dropHand_defaultRound (s : State) (n : Nat) :
    (s.dropHand n).defaultRound = s.defaultRound := by unfold dropHand; split <;> simp
@[simp] theorem dropHand_sweeps (s : State) (n : Nat) :
    (s.dropHand n).sweeps = s.sweeps := by unfold dropHand; split <;> simp
@[simp] theorem dropHand_attention (s : State) (n : Nat) :
    (s.dropHand n).attention = s.attention := by unfold dropHand; split <;> simp
@[simp] theorem dropHand_ports (s : State) (n : Nat) :
    (s.dropHand n).ports = s.ports := by unfold dropHand; split <;> simp
@[simp] theorem dropHand_tally0 (s : State) (n : Nat) :
    (s.dropHand n).tally0 = s.tally0 := by unfold dropHand; split <;> simp
@[simp] theorem dropHand_tally1 (s : State) (n : Nat) :
    (s.dropHand n).tally1 = s.tally1 := by unfold dropHand; split <;> simp
@[simp] theorem dropHand_pinHeld (s : State) (n : Nat) :
    (s.dropHand n).pinHeld = s.pinHeld := by unfold dropHand; split <;> simp
@[simp] theorem dropHand_freeCount (s : State) (n : Nat) :
    (s.dropHand n).freeCount = s.freeCount := by unfold dropHand; split <;> simp
@[simp] theorem dropHand_pending (s : State) (n : Nat) :
    (s.dropHand n).pending = s.pending := by unfold dropHand; split <;> simp

@[simp] theorem setLaneState_ctxs (s : State) (n : Nat) (v : LaneState) :
    (s.setLaneState n v).ctxs = s.ctxs := rfl
@[simp] theorem setLaneState_slotMap (s : State) (n : Nat) (v : LaneState) :
    (s.setLaneState n v).slotMap = s.slotMap := rfl
@[simp] theorem setLaneState_streamMap (s : State) (n : Nat) (v : LaneState) :
    (s.setLaneState n v).streamMap = s.streamMap := rfl
@[simp] theorem setLaneState_profiles (s : State) (n : Nat) (v : LaneState) :
    (s.setLaneState n v).profiles = s.profiles := rfl
@[simp] theorem setLaneState_available (s : State) (n : Nat) (v : LaneState) :
    (s.setLaneState n v).available = s.available := rfl
@[simp] theorem setLaneState_reserved (s : State) (n : Nat) (v : LaneState) :
    (s.setLaneState n v).reserved = s.reserved := rfl
@[simp] theorem setLaneState_capture (s : State) (n : Nat) (v : LaneState) :
    (s.setLaneState n v).capture = s.capture := rfl
@[simp] theorem setLaneState_timer (s : State) (n : Nat) (v : LaneState) :
    (s.setLaneState n v).timer = s.timer := rfl
@[simp] theorem setLaneState_blocks (s : State) (n : Nat) (v : LaneState) :
    (s.setLaneState n v).blocks = s.blocks := rfl
@[simp] theorem setLaneState_links (s : State) (n : Nat) (v : LaneState) :
    (s.setLaneState n v).links = s.links := rfl
@[simp] theorem setLaneState_defaultRound (s : State) (n : Nat) (v : LaneState) :
    (s.setLaneState n v).defaultRound = s.defaultRound := rfl
@[simp] theorem setLaneState_sweeps (s : State) (n : Nat) (v : LaneState) :
    (s.setLaneState n v).sweeps = s.sweeps := rfl
@[simp] theorem setLaneState_attention (s : State) (n : Nat) (v : LaneState) :
    (s.setLaneState n v).attention = s.attention := rfl
@[simp] theorem setLaneState_ports (s : State) (n : Nat) (v : LaneState) :
    (s.setLaneState n v).ports = s.ports := rfl
@[simp] theorem setLaneState_tally0 (s : State) (n : Nat) (v : LaneState) :
    (s.setLaneState n v).tally0 = s.tally0 := rfl
@[simp] theorem setLaneState_tally1 (s : State) (n : Nat) (v : LaneState) :
    (s.setLaneState n v).tally1 = s.tally1 := rfl
@[simp] theorem setLaneState_pinHeld (s : State) (n : Nat) (v : LaneState) :
    (s.setLaneState n v).pinHeld = s.pinHeld := rfl
@[simp] theorem setLaneState_freeCount (s : State) (n : Nat) (v : LaneState) :
    (s.setLaneState n v).freeCount = s.freeCount := rfl
@[simp] theorem setLaneState_pending (s : State) (n : Nat) (v : LaneState) :
    (s.setLaneState n v).pending = s.pending := rfl

@[simp] theorem loseLane_ctxs (s : State) (n : Nat) (v : LaneState) :
    (s.loseLane n v).ctxs = s.ctxs := by simp [loseLane]
@[simp] theorem loseLane_slotMap (s : State) (n : Nat) (v : LaneState) :
    (s.loseLane n v).slotMap = s.slotMap := by simp [loseLane]
@[simp] theorem loseLane_streamMap (s : State) (n : Nat) (v : LaneState) :
    (s.loseLane n v).streamMap = s.streamMap := by simp [loseLane]
@[simp] theorem loseLane_profiles (s : State) (n : Nat) (v : LaneState) :
    (s.loseLane n v).profiles = s.profiles := by simp [loseLane]
@[simp] theorem loseLane_reserved (s : State) (n : Nat) (v : LaneState) :
    (s.loseLane n v).reserved = s.reserved := by simp [loseLane]
@[simp] theorem loseLane_capture (s : State) (n : Nat) (v : LaneState) :
    (s.loseLane n v).capture = s.capture := by simp [loseLane]
@[simp] theorem loseLane_timer (s : State) (n : Nat) (v : LaneState) :
    (s.loseLane n v).timer = s.timer := by simp [loseLane]
@[simp] theorem loseLane_blocks (s : State) (n : Nat) (v : LaneState) :
    (s.loseLane n v).blocks = s.blocks := by simp [loseLane]
@[simp] theorem loseLane_links (s : State) (n : Nat) (v : LaneState) :
    (s.loseLane n v).links = s.links := by simp [loseLane]
@[simp] theorem loseLane_defaultRound (s : State) (n : Nat) (v : LaneState) :
    (s.loseLane n v).defaultRound = s.defaultRound := by simp [loseLane]
@[simp] theorem loseLane_sweeps (s : State) (n : Nat) (v : LaneState) :
    (s.loseLane n v).sweeps = s.sweeps := by simp [loseLane]
@[simp] theorem loseLane_attention (s : State) (n : Nat) (v : LaneState) :
    (s.loseLane n v).attention = s.attention := by simp [loseLane]
@[simp] theorem loseLane_tally0 (s : State) (n : Nat) (v : LaneState) :
    (s.loseLane n v).tally0 = s.tally0 := by simp [loseLane]
@[simp] theorem loseLane_tally1 (s : State) (n : Nat) (v : LaneState) :
    (s.loseLane n v).tally1 = s.tally1 := by simp [loseLane]
@[simp] theorem loseLane_pinHeld (s : State) (n : Nat) (v : LaneState) :
    (s.loseLane n v).pinHeld = s.pinHeld := by simp [loseLane]
@[simp] theorem loseLane_freeCount (s : State) (n : Nat) (v : LaneState) :
    (s.loseLane n v).freeCount = s.freeCount := by simp [loseLane]
@[simp] theorem loseLane_pending (s : State) (n : Nat) (v : LaneState) :
    (s.loseLane n v).pending = s.pending := by simp [loseLane]

@[simp] theorem regainLane_ctxs (s : State) (n : Nat) :
    (s.regainLane n).ctxs = s.ctxs := by simp [regainLane]
@[simp] theorem regainLane_slotMap (s : State) (n : Nat) :
    (s.regainLane n).slotMap = s.slotMap := by simp [regainLane]
@[simp] theorem regainLane_streamMap (s : State) (n : Nat) :
    (s.regainLane n).streamMap = s.streamMap := by simp [regainLane]
@[simp] theorem regainLane_profiles (s : State) (n : Nat) :
    (s.regainLane n).profiles = s.profiles := by simp [regainLane]
@[simp] theorem regainLane_reserved (s : State) (n : Nat) :
    (s.regainLane n).reserved = s.reserved := by simp [regainLane]
@[simp] theorem regainLane_capture (s : State) (n : Nat) :
    (s.regainLane n).capture = s.capture := by simp [regainLane]
@[simp] theorem regainLane_timer (s : State) (n : Nat) :
    (s.regainLane n).timer = s.timer := by simp [regainLane]
@[simp] theorem regainLane_blocks (s : State) (n : Nat) :
    (s.regainLane n).blocks = s.blocks := by simp [regainLane]
@[simp] theorem regainLane_links (s : State) (n : Nat) :
    (s.regainLane n).links = s.links := by simp [regainLane]
@[simp] theorem regainLane_defaultRound (s : State) (n : Nat) :
    (s.regainLane n).defaultRound = s.defaultRound := by simp [regainLane]
@[simp] theorem regainLane_sweeps (s : State) (n : Nat) :
    (s.regainLane n).sweeps = s.sweeps := by simp [regainLane]
@[simp] theorem regainLane_attention (s : State) (n : Nat) :
    (s.regainLane n).attention = s.attention := by simp [regainLane]
@[simp] theorem regainLane_tally0 (s : State) (n : Nat) :
    (s.regainLane n).tally0 = s.tally0 := by simp [regainLane]
@[simp] theorem regainLane_tally1 (s : State) (n : Nat) :
    (s.regainLane n).tally1 = s.tally1 := by simp [regainLane]
@[simp] theorem regainLane_pinHeld (s : State) (n : Nat) :
    (s.regainLane n).pinHeld = s.pinHeld := by simp [regainLane]
@[simp] theorem regainLane_freeCount (s : State) (n : Nat) :
    (s.regainLane n).freeCount = s.freeCount := by simp [regainLane]
@[simp] theorem regainLane_pending (s : State) (n : Nat) :
    (s.regainLane n).pending = s.pending := by simp [regainLane]

@[simp] theorem retune_slotMap (s : State) (i r : Nat) :
    (s.retune i r).slotMap = s.slotMap := rfl
@[simp] theorem retune_streamMap (s : State) (i r : Nat) :
    (s.retune i r).streamMap = s.streamMap := rfl
@[simp] theorem retune_profiles (s : State) (i r : Nat) :
    (s.retune i r).profiles = s.profiles := rfl
@[simp] theorem retune_available (s : State) (i r : Nat) :
    (s.retune i r).available = s.available := rfl
@[simp] theorem retune_reserved (s : State) (i r : Nat) :
    (s.retune i r).reserved = s.reserved := rfl
@[simp] theorem retune_lanes (s : State) (i r : Nat) :
    (s.retune i r).lanes = s.lanes := rfl
@[simp] theorem retune_capture (s : State) (i r : Nat) :
    (s.retune i r).capture = s.capture := rfl
@[simp] theorem retune_timer (s : State) (i r : Nat) :
    (s.retune i r).timer = s.timer := rfl
@[simp] theorem retune_blocks (s : State) (i r : Nat) :
    (s.retune i r).blocks = s.blocks := rfl
@[simp] theorem retune_links (s : State) (i r : Nat) :
    (s.retune i r).links = s.links := rfl
@[simp] theorem retune_defaultRound (s : State) (i r : Nat) :
    (s.retune i r).defaultRound = s.defaultRound := rfl
@[simp] theorem retune_sweeps (s : State) (i r : Nat) :
    (s.retune i r).sweeps = s.sweeps := rfl
@[simp] theorem retune_attention (s : State) (i r : Nat) :
    (s.retune i r).attention = s.attention := rfl
@[simp] theorem retune_ports (s : State) (i r : Nat) :
    (s.retune i r).ports = s.ports := rfl
@[simp] theorem retune_pinHeld (s : State) (i r : Nat) :
    (s.retune i r).pinHeld = s.pinHeld := rfl
@[simp] theorem retune_freeCount (s : State) (i r : Nat) :
    (s.retune i r).freeCount = s.freeCount := rfl
@[simp] theorem retune_pending (s : State) (i r : Nat) :
    (s.retune i r).pending = s.pending := rfl

@[simp] theorem retunePaid_slotMap (s : State) (i r : Nat) :
    (s.retunePaid i r).slotMap = s.slotMap := rfl
@[simp] theorem retunePaid_streamMap (s : State) (i r : Nat) :
    (s.retunePaid i r).streamMap = s.streamMap := rfl
@[simp] theorem retunePaid_profiles (s : State) (i r : Nat) :
    (s.retunePaid i r).profiles = s.profiles := rfl
@[simp] theorem retunePaid_available (s : State) (i r : Nat) :
    (s.retunePaid i r).available = s.available := rfl
@[simp] theorem retunePaid_lanes (s : State) (i r : Nat) :
    (s.retunePaid i r).lanes = s.lanes := rfl
@[simp] theorem retunePaid_capture (s : State) (i r : Nat) :
    (s.retunePaid i r).capture = s.capture := rfl
@[simp] theorem retunePaid_timer (s : State) (i r : Nat) :
    (s.retunePaid i r).timer = s.timer := rfl
@[simp] theorem retunePaid_blocks (s : State) (i r : Nat) :
    (s.retunePaid i r).blocks = s.blocks := rfl
@[simp] theorem retunePaid_links (s : State) (i r : Nat) :
    (s.retunePaid i r).links = s.links := rfl
@[simp] theorem retunePaid_defaultRound (s : State) (i r : Nat) :
    (s.retunePaid i r).defaultRound = s.defaultRound := rfl
@[simp] theorem retunePaid_sweeps (s : State) (i r : Nat) :
    (s.retunePaid i r).sweeps = s.sweeps := rfl
@[simp] theorem retunePaid_attention (s : State) (i r : Nat) :
    (s.retunePaid i r).attention = s.attention := rfl
@[simp] theorem retunePaid_ports (s : State) (i r : Nat) :
    (s.retunePaid i r).ports = s.ports := rfl
@[simp] theorem retunePaid_pinHeld (s : State) (i r : Nat) :
    (s.retunePaid i r).pinHeld = s.pinHeld := rfl
@[simp] theorem retunePaid_freeCount (s : State) (i r : Nat) :
    (s.retunePaid i r).freeCount = s.freeCount := rfl
@[simp] theorem retunePaid_pending (s : State) (i r : Nat) :
    (s.retunePaid i r).pending = s.pending := rfl

@[simp] theorem dropRequest_slotMap (s : State) (i : Nat) :
    (s.dropRequest i).slotMap = s.slotMap := rfl
@[simp] theorem dropRequest_streamMap (s : State) (i : Nat) :
    (s.dropRequest i).streamMap = s.streamMap := rfl
@[simp] theorem dropRequest_profiles (s : State) (i : Nat) :
    (s.dropRequest i).profiles = s.profiles := rfl
@[simp] theorem dropRequest_available (s : State) (i : Nat) :
    (s.dropRequest i).available = s.available := rfl
@[simp] theorem dropRequest_reserved (s : State) (i : Nat) :
    (s.dropRequest i).reserved = s.reserved := rfl
@[simp] theorem dropRequest_lanes (s : State) (i : Nat) :
    (s.dropRequest i).lanes = s.lanes := rfl
@[simp] theorem dropRequest_capture (s : State) (i : Nat) :
    (s.dropRequest i).capture = s.capture := rfl
@[simp] theorem dropRequest_timer (s : State) (i : Nat) :
    (s.dropRequest i).timer = s.timer := rfl
@[simp] theorem dropRequest_blocks (s : State) (i : Nat) :
    (s.dropRequest i).blocks = s.blocks := rfl
@[simp] theorem dropRequest_links (s : State) (i : Nat) :
    (s.dropRequest i).links = s.links := rfl
@[simp] theorem dropRequest_defaultRound (s : State) (i : Nat) :
    (s.dropRequest i).defaultRound = s.defaultRound := rfl
@[simp] theorem dropRequest_sweeps (s : State) (i : Nat) :
    (s.dropRequest i).sweeps = s.sweeps := rfl
@[simp] theorem dropRequest_attention (s : State) (i : Nat) :
    (s.dropRequest i).attention = s.attention := rfl
@[simp] theorem dropRequest_ports (s : State) (i : Nat) :
    (s.dropRequest i).ports = s.ports := rfl
@[simp] theorem dropRequest_tally0 (s : State) (i : Nat) :
    (s.dropRequest i).tally0 = s.tally0 := rfl
@[simp] theorem dropRequest_tally1 (s : State) (i : Nat) :
    (s.dropRequest i).tally1 = s.tally1 := rfl
@[simp] theorem dropRequest_pinHeld (s : State) (i : Nat) :
    (s.dropRequest i).pinHeld = s.pinHeld := rfl
@[simp] theorem dropRequest_freeCount (s : State) (i : Nat) :
    (s.dropRequest i).freeCount = s.freeCount := rfl
@[simp] theorem dropRequest_pending (s : State) (i : Nat) :
    (s.dropRequest i).pending = s.pending := rfl

@[simp] theorem applyRate_slotMap (s : State) (i r : Nat) :
    (s.applyRate i r).slotMap = s.slotMap := by simp [applyRate]
@[simp] theorem applyRate_streamMap (s : State) (i r : Nat) :
    (s.applyRate i r).streamMap = s.streamMap := by simp [applyRate]
@[simp] theorem applyRate_profiles (s : State) (i r : Nat) :
    (s.applyRate i r).profiles = s.profiles := by simp [applyRate]
@[simp] theorem applyRate_available (s : State) (i r : Nat) :
    (s.applyRate i r).available = s.available := by simp [applyRate]
@[simp] theorem applyRate_lanes (s : State) (i r : Nat) :
    (s.applyRate i r).lanes = s.lanes := by simp [applyRate]
@[simp] theorem applyRate_capture (s : State) (i r : Nat) :
    (s.applyRate i r).capture = s.capture := by simp [applyRate]
@[simp] theorem applyRate_timer (s : State) (i r : Nat) :
    (s.applyRate i r).timer = s.timer := by simp [applyRate]
@[simp] theorem applyRate_blocks (s : State) (i r : Nat) :
    (s.applyRate i r).blocks = s.blocks := by simp [applyRate]
@[simp] theorem applyRate_links (s : State) (i r : Nat) :
    (s.applyRate i r).links = s.links := by simp [applyRate]
@[simp] theorem applyRate_defaultRound (s : State) (i r : Nat) :
    (s.applyRate i r).defaultRound = s.defaultRound := by simp [applyRate]
@[simp] theorem applyRate_sweeps (s : State) (i r : Nat) :
    (s.applyRate i r).sweeps = s.sweeps := by simp [applyRate]
@[simp] theorem applyRate_ports (s : State) (i r : Nat) :
    (s.applyRate i r).ports = s.ports := by simp [applyRate]
@[simp] theorem applyRate_pinHeld (s : State) (i r : Nat) :
    (s.applyRate i r).pinHeld = s.pinHeld := by simp [applyRate]
@[simp] theorem applyRate_freeCount (s : State) (i r : Nat) :
    (s.applyRate i r).freeCount = s.freeCount := by simp [applyRate]
@[simp] theorem applyRate_pending (s : State) (i r : Nat) :
    (s.applyRate i r).pending = s.pending := by simp [applyRate]

@[simp] theorem settleRaise_slotMap (s : State) (i c r : Nat) :
    (s.settleRaise i c r).slotMap = s.slotMap := by unfold settleRaise; split <;> simp
@[simp] theorem settleRaise_streamMap (s : State) (i c r : Nat) :
    (s.settleRaise i c r).streamMap = s.streamMap := by unfold settleRaise; split <;> simp
@[simp] theorem settleRaise_profiles (s : State) (i c r : Nat) :
    (s.settleRaise i c r).profiles = s.profiles := by unfold settleRaise; split <;> simp
@[simp] theorem settleRaise_available (s : State) (i c r : Nat) :
    (s.settleRaise i c r).available = s.available := by unfold settleRaise; split <;> simp
@[simp] theorem settleRaise_lanes (s : State) (i c r : Nat) :
    (s.settleRaise i c r).lanes = s.lanes := by unfold settleRaise; split <;> simp
@[simp] theorem settleRaise_capture (s : State) (i c r : Nat) :
    (s.settleRaise i c r).capture = s.capture := by unfold settleRaise; split <;> simp
@[simp] theorem settleRaise_timer (s : State) (i c r : Nat) :
    (s.settleRaise i c r).timer = s.timer := by unfold settleRaise; split <;> simp
@[simp] theorem settleRaise_blocks (s : State) (i c r : Nat) :
    (s.settleRaise i c r).blocks = s.blocks := by unfold settleRaise; split <;> simp
@[simp] theorem settleRaise_links (s : State) (i c r : Nat) :
    (s.settleRaise i c r).links = s.links := by unfold settleRaise; split <;> simp
@[simp] theorem settleRaise_defaultRound (s : State) (i c r : Nat) :
    (s.settleRaise i c r).defaultRound = s.defaultRound := by unfold settleRaise; split <;> simp
@[simp] theorem settleRaise_sweeps (s : State) (i c r : Nat) :
    (s.settleRaise i c r).sweeps = s.sweeps := by unfold settleRaise; split <;> simp
@[simp] theorem settleRaise_ports (s : State) (i c r : Nat) :
    (s.settleRaise i c r).ports = s.ports := by unfold settleRaise; split <;> simp
@[simp] theorem settleRaise_pinHeld (s : State) (i c r : Nat) :
    (s.settleRaise i c r).pinHeld = s.pinHeld := by unfold settleRaise; split <;> simp
@[simp] theorem settleRaise_freeCount (s : State) (i c r : Nat) :
    (s.settleRaise i c r).freeCount = s.freeCount := by unfold settleRaise; split <;> simp
@[simp] theorem settleRaise_pending (s : State) (i c r : Nat) :
    (s.settleRaise i c r).pending = s.pending := by unfold settleRaise; split <;> simp

@[simp] theorem settleRate_slotMap (s : State) (i c r : Nat) :
    (s.settleRate i c r).slotMap = s.slotMap := by unfold settleRate; split_ifs <;> simp
@[simp] theorem settleRate_streamMap (s : State) (i c r : Nat) :
    (s.settleRate i c r).streamMap = s.streamMap := by unfold settleRate; split_ifs <;> simp
@[simp] theorem settleRate_profiles (s : State) (i c r : Nat) :
    (s.settleRate i c r).profiles = s.profiles := by unfold settleRate; split_ifs <;> simp
@[simp] theorem settleRate_available (s : State) (i c r : Nat) :
    (s.settleRate i c r).available = s.available := by unfold settleRate; split_ifs <;> simp
@[simp] theorem settleRate_lanes (s : State) (i c r : Nat) :
    (s.settleRate i c r).lanes = s.lanes := by unfold settleRate; split_ifs <;> simp
@[simp] theorem settleRate_capture (s : State) (i c r : Nat) :
    (s.settleRate i c r).capture = s.capture := by unfold settleRate; split_ifs <;> simp
@[simp] theorem settleRate_timer (s : State) (i c r : Nat) :
    (s.settleRate i c r).timer = s.timer := by unfold settleRate; split_ifs <;> simp
@[simp] theorem settleRate_blocks (s : State) (i c r : Nat) :
    (s.settleRate i c r).blocks = s.blocks := by unfold settleRate; split_ifs <;> simp
@[simp] theorem settleRate_links (s : State) (i c r : Nat) :
    (s.settleRate i c r).links = s.links := by unfold settleRate; split_ifs <;> simp
@[simp] theorem settleRate_defaultRound (s : State) (i c r : Nat) :
    (s.settleRate i c r).defaultRound = s.defaultRound := by unfold settleRate; split_ifs <;> simp
@[simp] theorem settleRate_sweeps (s : State) (i c r : Nat) :
    (s.settleRate i c r).sweeps = s.sweeps := by unfold settleRate; split_ifs <;> simp
@[simp] theorem settleRate_ports (s : State) (i c r : Nat) :
    (s.settleRate i c r).ports = s.ports := by unfold settleRate; split_ifs <;> simp
@[simp] theorem settleRate_pinHeld (s : State) (i c r : Nat) :
    (s.settleRate i c r).pinHeld = s.pinHeld := by unfold settleRate; split_ifs <;> simp
@[simp] theorem settleRate_freeCount (s : State) (i c r : Nat) :
    (s.settleRate i c r).freeCount = s.freeCount := by unfold settleRate; split_ifs <;> simp
@[simp] theorem settleRate_pending (s : State) (i c r : Nat) :
    (s.settleRate i c r).pending = s.pending := by unfold settleRate; split_ifs <;> simp

@[simp] theorem settle_slotMap (s : State) (i : Nat) :
    (s.settle i).slotMap = s.slotMap := by unfold settle; split <;> (try split) <;> simp
@[simp] theorem settle_streamMap (s : State) (i : Nat) :
    (s.settle i).streamMap = s.streamMap := by unfold settle; split <;> (try split) <;> simp
@[simp] theorem settle_profiles (s : State) (i : Nat) :
    (s.settle i).profiles = s.profiles := by unfold settle; split <;> (try split) <;> simp
@[simp] theorem settle_available (s : State) (i : Nat) :
    (s.settle i).available = s.available := by unfold settle; split <;> (try split) <;> simp
@[simp] theorem settle_lanes (s : State) (i : Nat) :
    (s.settle i).lanes = s.lanes := by unfold settle; split <;> (try split) <;> simp
@[simp] theorem settle_capture (s : State) (i : Nat) :
    (s.settle i).capture = s.capture := by unfold settle; split <;> (try split) <;> simp
@[simp] theorem settle_timer (s : State) (i : Nat) :
    (s.settle i).timer = s.timer := by unfold settle; split <;> (try split) <;> simp
@[simp] theorem settle_blocks (s : State) (i : Nat) :
    (s.settle i).blocks = s.blocks := by unfold settle; split <;> (try split) <;> simp
@[simp] theorem settle_links (s : State) (i : Nat) :
    (s.settle i).links = s.links := by unfold settle; split <;> (try split) <;> simp
@[simp] theorem settle_defaultRound (s : State) (i : Nat) :
    (s.settle i).defaultRound = s.defaultRound := by unfold settle; split <;> (try split) <;> simp
@[simp] theorem settle_sweeps (s : State) (i : Nat) :
    (s.settle i).sweeps = s.sweeps := by unfold settle; split <;> (try split) <;> simp
@[simp] theorem settle_ports (s : State) (i : Nat) :
    (s.settle i).ports = s.ports := by unfold settle; split <;> (try split) <;> simp
@[simp] theorem settle_pinHeld (s : State) (i : Nat) :
    (s.settle i).pinHeld = s.pinHeld := by unfold settle; split <;> (try split) <;> simp
@[simp] theorem settle_freeCount (s : State) (i : Nat) :
    (s.settle i).freeCount = s.freeCount := by unfold settle; split <;> (try split) <;> simp
@[simp] theorem settle_pending (s : State) (i : Nat) :
    (s.settle i).pending = s.pending := by unfold settle; split <;> (try split) <;> simp

@[simp] theorem narrow_slotMap (s : State) (i : Nat) (x : RateSet) (r : Nat) :
    (s.narrow i x r).slotMap = s.slotMap := by simp [narrow]
@[simp] theorem narrow_streamMap (s : State) (i : Nat) (x : RateSet) (r : Nat) :
    (s.narrow i x r).streamMap = s.streamMap := by simp [narrow]
@[simp] theorem narrow_profiles (s : State) (i : Nat) (x : RateSet) (r : Nat) :
    (s.narrow i x r).profiles = s.profiles := by simp [narrow]
@[simp] theorem narrow_available (s : State) (i : Nat) (x : RateSet) (r : Nat) :
    (s.narrow i x r).available = s.available := by simp [narrow]
@[simp] theorem narrow_reserved (s : State) (i : Nat) (x : RateSet) (r : Nat) :
    (s.narrow i x r).reserved = s.reserved := by simp [narrow]
@[simp] theorem narrow_lanes (s : State) (i : Nat) (x : RateSet) (r : Nat) :
    (s.narrow i x r).lanes = s.lanes := by simp [narrow]
@[simp] theorem narrow_capture (s : State) (i : Nat) (x : RateSet) (r : Nat) :
    (s.narrow i x r).capture = s.capture := by simp [narrow]
@[simp] theorem narrow_timer (s : State) (i : Nat) (x : RateSet) (r : Nat) :
    (s.narrow i x r).timer = s.timer := by simp [narrow]
@[simp] theorem narrow_blocks (s : State) (i : Nat) (x : RateSet) (r : Nat) :
    (s.narrow i x r).blocks = s.blocks := by simp [narrow]
@[simp] theorem narrow_links (s : State) (i : Nat) (x : RateSet) (r : Nat) :
    (s.narrow i x r).links = s.links := by simp [narrow]
@[simp] theorem narrow_defaultRound (s : State) (i : Nat) (x : RateSet) (r : Nat) :
    (s.narrow i x r).defaultRound = s.defaultRound := by simp [narrow]
@[simp] theorem narrow_sweeps (s : State) (i : Nat) (x : RateSet) (r : Nat) :
    (s.narrow i x r).sweeps = s.sweeps := by simp [narrow]
@[simp] theorem narrow_ports (s : State) (i : Nat) (x : RateSet) (r : Nat) :
    (s.narrow i x r).ports = s.ports := by simp [narrow]
@[simp] theorem narrow_tally0 (s : State) (i : Nat) (x : RateSet) (r : Nat) :
    (s.narrow i x r).tally0 = s.tally0 := by simp [narrow]
@[simp] theorem narrow_tally1 (s : State) (i : Nat) (x : RateSet) (r : Nat) :
    (s.narrow i x r).tally1 = s.tally1 := by simp [narrow]
@[simp] theorem narrow_pinHeld (s : State) (i : Nat) (x : RateSet) (r : Nat) :
    (s.narrow i x r).pinHeld = s.pinHeld := by simp [narrow]
@[simp] theorem narrow_freeCount (s : State) (i : Nat) (x : RateSet) (r : Nat) :
    (s.narrow i x r).freeCount = s.freeCount := by simp [narrow]
@[simp] theorem narrow_pending (s : State) (i : Nat) (x : RateSet) (r : Nat) :
    (s.narrow i x r).pending = s.pending := by simp [narrow]

@[simp] theorem takeRequest_slotMap (s : State) (i f : Nat) :
    (s.takeRequest i f).slotMap = s.slotMap := by unfold takeRequest; split <;> (try split) <;> rfl
@[simp] theorem takeRequest_streamMap (s : State) (i f : Nat) :
    (s.takeRequest i f).streamMap = s.streamMap := by unfold takeRequest; split <;> (try split) <;> rfl
@[simp] theorem takeRequest_profiles (s : State) (i f : Nat) :
    (s.takeRequest i f).profiles = s.profiles := by unfold takeRequest; split <;> (try split) <;> rfl
@[simp] theorem takeRequest_available (s : State) (i f : Nat) :
    (s.takeRequest i f).available = s.available := by unfold takeRequest; split <;> (try split) <;> rfl
@[simp] theorem takeRequest_reserved (s : State) (i f : Nat) :
    (s.takeRequest i f).reserved = s.reserved := by unfold takeRequest; split <;> (try split) <;> rfl
@[simp] theorem takeRequest_lanes (s : State) (i f : Nat) :
    (s.takeRequest i f).lanes = s.lanes := by unfold takeRequest; split <;> (try split) <;> rfl
@[simp] theorem takeRequest_capture (s : State) (i f : Nat) :
    (s.takeRequest i f).capture = s.capture := by unfold takeRequest; split <;> (try split) <;> rfl
@[simp] theorem takeRequest_timer (s : State) (i f : Nat) :
    (s.takeRequest i f).timer = s.timer := by unfold takeRequest; split <;> (try split) <;> rfl
@[simp] theorem takeRequest_blocks (s : State) (i f : Nat) :
    (s.takeRequest i f).blocks = s.blocks := by unfold takeRequest; split <;> (try split) <;> rfl
@[simp] theorem takeRequest_links (s : State) (i f : Nat) :
    (s.takeRequest i f).links = s.links := by unfold takeRequest; split <;> (try split) <;> rfl
@[simp] theorem takeRequest_defaultRound (s : State) (i f : Nat) :
    (s.takeRequest i f).defaultRound = s.defaultRound := by unfold takeRequest; split <;> (try split) <;> rfl
@[simp] theorem takeRequest_sweeps (s : State) (i f : Nat) :
    (s.takeRequest i f).sweeps = s.sweeps := by unfold takeRequest; split <;> (try split) <;> rfl
@[simp] theorem takeRequest_attention (s : State) (i f : Nat) :
    (s.takeRequest i f).attention = s.attention := by unfold takeRequest; split <;> (try split) <;> rfl
@[simp] theorem takeRequest_ports (s : State) (i f : Nat) :
    (s.takeRequest i f).ports = s.ports := by unfold takeRequest; split <;> (try split) <;> rfl
@[simp] theorem takeRequest_tally0 (s : State) (i f : Nat) :
    (s.takeRequest i f).tally0 = s.tally0 := by unfold takeRequest; split <;> (try split) <;> rfl
@[simp] theorem takeRequest_tally1 (s : State) (i f : Nat) :
    (s.takeRequest i f).tally1 = s.tally1 := by unfold takeRequest; split <;> (try split) <;> rfl
@[simp] theorem takeRequest_pinHeld (s : State) (i f : Nat) :
    (s.takeRequest i f).pinHeld = s.pinHeld := by unfold takeRequest; split <;> (try split) <;> rfl
@[simp] theorem takeRequest_freeCount (s : State) (i f : Nat) :
    (s.takeRequest i f).freeCount = s.freeCount := by unfold takeRequest; split <;> (try split) <;> rfl
@[simp] theorem takeRequest_pending (s : State) (i f : Nat) :
    (s.takeRequest i f).pending = s.pending := by unfold takeRequest; split <;> (try split) <;> rfl

@[simp] theorem promote_ctxs (s : State) (k : StreamKey) :
    (s.promote k).ctxs = s.ctxs := by unfold promote; split <;> rfl
@[simp] theorem promote_slotMap (s : State) (k : StreamKey) :
    (s.promote k).slotMap = s.slotMap := by unfold promote; split <;> rfl
@[simp] theorem promote_profiles (s : State) (k : StreamKey) :
    (s.promote k).profiles = s.profiles := by unfold promote; split <;> rfl
@[simp] theorem promote_available (s : State) (k : StreamKey) :
    (s.promote k).available = s.available := by unfold promote; split <;> rfl
@[simp] theorem promote_reserved (s : State) (k : StreamKey) :
    (s.promote k).reserved = s.reserved := by unfold promote; split <;> rfl
@[simp] theorem promote_lanes (s : State) (k : StreamKey) :
    (s.promote k).lanes = s.lanes := by unfold promote; split <;> rfl
@[simp] theorem promote_capture (s : State) (k : StreamKey) :
    (s.promote k).capture = s.capture := by unfold promote; split <;> rfl
@[simp] theorem promote_timer (s : State) (k : StreamKey) :
    (s.promote k).timer = s.timer := by unfold promote; split <;> rfl
@[simp] theorem promote_blocks (s : State) (k : StreamKey) :
    (s.promote k).blocks = s.blocks := by unfold promote; split <;> rfl
@[simp] theorem promote_links (s : State) (k : StreamKey) :
    (s.promote k).links = s.links := by unfold promote; split <;> rfl
@[simp] theorem promote_defaultRound (s : State) (k : StreamKey) :
    (s.promote k).defaultRound = s.defaultRound := by unfold promote; split <;> rfl
@[simp] theorem promote_sweeps (s : State) (k : StreamKey) :
    (s.promote k).sweeps = s.sweeps := by unfold promote; split <;> rfl
@[simp] theorem promote_attention (s : State) (k : StreamKey) :
    (s.promote k).attention = s.attention := by unfold promote; split <;> rfl
@[simp] theorem promote_ports (s : State) (k : StreamKey) :
    (s.promote k).ports = s.ports := by unfold promote; split <;> rfl
@[simp] theorem promote_tally0 (s : State) (k : StreamKey) :
    (s.promote k).tally0 = s.tally0 := by unfold promote; split <;> rfl
@[simp] theorem promote_tally1 (s : State) (k : StreamKey) :
    (s.promote k).tally1 = s.tally1 := by unfold promote; split <;> rfl
@[simp] theorem promote_pinHeld (s : State) (k : StreamKey) :
    (s.promote k).pinHeld = s.pinHeld := by unfold promote; split <;> rfl
@[simp] theorem promote_freeCount (s : State) (k : StreamKey) :
    (s.promote k).freeCount = s.freeCount := by unfold promote; split <;> rfl
@[simp] theorem promote_pending (s : State) (k : StreamKey) :
    (s.promote k).pending = s.pending := by unfold promote; split <;> rfl

@[simp] theorem commit_slotMap (s : State) (i : Nat) (k : StreamKey) :
    (s.commit i k).slotMap = s.slotMap := by simp [commit]
@[simp] theorem commit_profiles (s : State) (i : Nat) (k : StreamKey) :
    (s.commit i k).profiles = s.profiles := by simp [commit]
@[simp] theorem commit_available (s : State) (i : Nat) (k : StreamKey) :
    (s.commit i k).available = s.available := by simp [commit]
@[simp] theorem commit_reserved (s : State) (i : Nat) (k : StreamKey) :
    (s.commit i k).reserved = s.reserved := by simp [commit]
@[simp] theorem commit_lanes (s : State) (i : Nat) (k : StreamKey) :
    (s.commit i k).lanes = s.lanes := by simp [commit]
@[simp] theorem commit_capture (s : State) (i : Nat) (k : StreamKey) :
    (s.commit i k).capture = s.capture := by simp [commit]
@[simp] theorem commit_timer (s : State) (i : Nat) (k : StreamKey) :
    (s.commit i k).timer = s.timer := by simp [commit]
@[simp] theorem commit_blocks (s : State) (i : Nat) (k : StreamKey) :
    (s.commit i k).blocks = s.blocks := by simp [commit]
@[simp] theorem commit_links (s : State) (i : Nat) (k : StreamKey) :
    (s.commit i k).links = s.links := by simp [commit]
@[simp] theorem commit_defaultRound (s : State) (i : Nat) (k : StreamKey) :
    (s.commit i k).defaultRound = s.defaultRound := by simp [commit]
@[simp] theorem commit_sweeps (s : State) (i : Nat) (k : StreamKey) :
    (s.commit i k).sweeps = s.sweeps := by simp [commit]
@[simp] theorem commit_ports (s : State) (i : Nat) (k : StreamKey) :
    (s.commit i k).ports = s.ports := by simp [commit]
@[simp] theorem commit_pinHeld (s : State) (i : Nat) (k : StreamKey) :
    (s.commit i k).pinHeld = s.pinHeld := by simp [commit]
@[simp] theorem commit_freeCount (s : State) (i : Nat) (k : StreamKey) :
    (s.commit i k).freeCount = s.freeCount := by simp [commit]
@[simp] theorem commit_pending (s : State) (i : Nat) (k : StreamKey) :
    (s.commit i k).pending = s.pending := by simp [commit]

@[simp] theorem abandon_slotMap (s : State) (i : Nat) (k : StreamKey) :
    (s.abandon i k).slotMap = s.slotMap := by simp [abandon]
@[simp] theorem abandon_profiles (s : State) (i : Nat) (k : StreamKey) :
    (s.abandon i k).profiles = s.profiles := by simp [abandon]
@[simp] theorem abandon_available (s : State) (i : Nat) (k : StreamKey) :
    (s.abandon i k).available = s.available := by simp [abandon]
@[simp] theorem abandon_reserved (s : State) (i : Nat) (k : StreamKey) :
    (s.abandon i k).reserved = s.reserved := by simp [abandon]
@[simp] theorem abandon_lanes (s : State) (i : Nat) (k : StreamKey) :
    (s.abandon i k).lanes = s.lanes := by simp [abandon]
@[simp] theorem abandon_capture (s : State) (i : Nat) (k : StreamKey) :
    (s.abandon i k).capture = s.capture := by simp [abandon]
@[simp] theorem abandon_timer (s : State) (i : Nat) (k : StreamKey) :
    (s.abandon i k).timer = s.timer := by simp [abandon]
@[simp] theorem abandon_blocks (s : State) (i : Nat) (k : StreamKey) :
    (s.abandon i k).blocks = s.blocks := by simp [abandon]
@[simp] theorem abandon_links (s : State) (i : Nat) (k : StreamKey) :
    (s.abandon i k).links = s.links := by simp [abandon]
@[simp] theorem abandon_defaultRound (s : State) (i : Nat) (k : StreamKey) :
    (s.abandon i k).defaultRound = s.defaultRound := by simp [abandon]
@[simp] theorem abandon_sweeps (s : State) (i : Nat) (k : StreamKey) :
    (s.abandon i k).sweeps = s.sweeps := by simp [abandon]
@[simp] theorem abandon_attention (s : State) (i : Nat) (k : StreamKey) :
    (s.abandon i k).attention = s.attention := by simp [abandon]
@[simp] theorem abandon_ports (s : State) (i : Nat) (k : StreamKey) :
    (s.abandon i k).ports = s.ports := by simp [abandon]
@[simp] theorem abandon_tally0 (s : State) (i : Nat) (k : StreamKey) :
    (s.abandon i k).tally0 = s.tally0 := by simp [abandon]
@[simp] theorem abandon_tally1 (s : State) (i : Nat) (k : StreamKey) :
    (s.abandon i k).tally1 = s.tally1 := by simp [abandon]
@[simp] theorem abandon_pinHeld (s : State) (i : Nat) (k : StreamKey) :
    (s.abandon i k).pinHeld = s.pinHeld := by simp [abandon]
@[simp] theorem abandon_freeCount (s : State) (i : Nat) (k : StreamKey) :
    (s.abandon i k).freeCount = s.freeCount := by simp [abandon]
@[simp] theorem abandon_pending (s : State) (i : Nat) (k : StreamKey) :
    (s.abandon i k).pending = s.pending := by simp [abandon]

@[simp] theorem expireHandover_slotMap (s : State) (i : Nat) (k : StreamKey) :
    (s.expireHandover i k).slotMap = s.slotMap := by simp [expireHandover]
@[simp] theorem expireHandover_profiles (s : State) (i : Nat) (k : StreamKey) :
    (s.expireHandover i k).profiles = s.profiles := by simp [expireHandover]
@[simp] theorem expireHandover_available (s : State) (i : Nat) (k : StreamKey) :
    (s.expireHandover i k).available = s.available := by simp [expireHandover]
@[simp] theorem expireHandover_reserved (s : State) (i : Nat) (k : StreamKey) :
    (s.expireHandover i k).reserved = s.reserved := by simp [expireHandover]
@[simp] theorem expireHandover_lanes (s : State) (i : Nat) (k : StreamKey) :
    (s.expireHandover i k).lanes = s.lanes := by simp [expireHandover]
@[simp] theorem expireHandover_capture (s : State) (i : Nat) (k : StreamKey) :
    (s.expireHandover i k).capture = s.capture := by simp [expireHandover]
@[simp] theorem expireHandover_timer (s : State) (i : Nat) (k : StreamKey) :
    (s.expireHandover i k).timer = s.timer := by simp [expireHandover]
@[simp] theorem expireHandover_blocks (s : State) (i : Nat) (k : StreamKey) :
    (s.expireHandover i k).blocks = s.blocks := by simp [expireHandover]
@[simp] theorem expireHandover_links (s : State) (i : Nat) (k : StreamKey) :
    (s.expireHandover i k).links = s.links := by simp [expireHandover]
@[simp] theorem expireHandover_defaultRound (s : State) (i : Nat) (k : StreamKey) :
    (s.expireHandover i k).defaultRound = s.defaultRound := by simp [expireHandover]
@[simp] theorem expireHandover_sweeps (s : State) (i : Nat) (k : StreamKey) :
    (s.expireHandover i k).sweeps = s.sweeps := by simp [expireHandover]
@[simp] theorem expireHandover_ports (s : State) (i : Nat) (k : StreamKey) :
    (s.expireHandover i k).ports = s.ports := by simp [expireHandover]
@[simp] theorem expireHandover_pinHeld (s : State) (i : Nat) (k : StreamKey) :
    (s.expireHandover i k).pinHeld = s.pinHeld := by simp [expireHandover]
@[simp] theorem expireHandover_freeCount (s : State) (i : Nat) (k : StreamKey) :
    (s.expireHandover i k).freeCount = s.freeCount := by simp [expireHandover]
@[simp] theorem expireHandover_pending (s : State) (i : Nat) (k : StreamKey) :
    (s.expireHandover i k).pending = s.pending := by simp [expireHandover]

@[simp] theorem stepHandover_slotMap (s : State) (i : Nat) :
    (s.stepHandover i).slotMap = s.slotMap := by unfold stepHandover; split <;> (try split) <;> simp
@[simp] theorem stepHandover_profiles (s : State) (i : Nat) :
    (s.stepHandover i).profiles = s.profiles := by unfold stepHandover; split <;> (try split) <;> simp
@[simp] theorem stepHandover_available (s : State) (i : Nat) :
    (s.stepHandover i).available = s.available := by unfold stepHandover; split <;> (try split) <;> simp
@[simp] theorem stepHandover_reserved (s : State) (i : Nat) :
    (s.stepHandover i).reserved = s.reserved := by unfold stepHandover; split <;> (try split) <;> simp
@[simp] theorem stepHandover_lanes (s : State) (i : Nat) :
    (s.stepHandover i).lanes = s.lanes := by unfold stepHandover; split <;> (try split) <;> simp
@[simp] theorem stepHandover_capture (s : State) (i : Nat) :
    (s.stepHandover i).capture = s.capture := by unfold stepHandover; split <;> (try split) <;> simp
@[simp] theorem stepHandover_timer (s : State) (i : Nat) :
    (s.stepHandover i).timer = s.timer := by unfold stepHandover; split <;> (try split) <;> simp
@[simp] theorem stepHandover_blocks (s : State) (i : Nat) :
    (s.stepHandover i).blocks = s.blocks := by unfold stepHandover; split <;> (try split) <;> simp
@[simp] theorem stepHandover_links (s : State) (i : Nat) :
    (s.stepHandover i).links = s.links := by unfold stepHandover; split <;> (try split) <;> simp
@[simp] theorem stepHandover_defaultRound (s : State) (i : Nat) :
    (s.stepHandover i).defaultRound = s.defaultRound := by unfold stepHandover; split <;> (try split) <;> simp
@[simp] theorem stepHandover_sweeps (s : State) (i : Nat) :
    (s.stepHandover i).sweeps = s.sweeps := by unfold stepHandover; split <;> (try split) <;> simp
@[simp] theorem stepHandover_ports (s : State) (i : Nat) :
    (s.stepHandover i).ports = s.ports := by unfold stepHandover; split <;> (try split) <;> simp
@[simp] theorem stepHandover_pinHeld (s : State) (i : Nat) :
    (s.stepHandover i).pinHeld = s.pinHeld := by unfold stepHandover; split <;> (try split) <;> simp
@[simp] theorem stepHandover_freeCount (s : State) (i : Nat) :
    (s.stepHandover i).freeCount = s.freeCount := by unfold stepHandover; split <;> (try split) <;> simp
@[simp] theorem stepHandover_pending (s : State) (i : Nat) :
    (s.stepHandover i).pending = s.pending := by unfold stepHandover; split <;> (try split) <;> simp

@[simp] theorem playReady_slotMap (s : State) (i : Nat) :
    (s.playReady i).slotMap = s.slotMap := by simp [playReady]
@[simp] theorem playReady_streamMap (s : State) (i : Nat) :
    (s.playReady i).streamMap = s.streamMap := by simp [playReady]
@[simp] theorem playReady_profiles (s : State) (i : Nat) :
    (s.playReady i).profiles = s.profiles := by simp [playReady]
@[simp] theorem playReady_available (s : State) (i : Nat) :
    (s.playReady i).available = s.available := by simp [playReady]
@[simp] theorem playReady_reserved (s : State) (i : Nat) :
    (s.playReady i).reserved = s.reserved := by simp [playReady]
@[simp] theorem playReady_lanes (s : State) (i : Nat) :
    (s.playReady i).lanes = s.lanes := by simp [playReady]
@[simp] theorem playReady_capture (s : State) (i : Nat) :
    (s.playReady i).capture = s.capture := by simp [playReady]
@[simp] theorem playReady_timer (s : State) (i : Nat) :
    (s.playReady i).timer = s.timer := by simp [playReady]
@[simp] theorem playReady_links (s : State) (i : Nat) :
    (s.playReady i).links = s.links := by simp [playReady]
@[simp] theorem playReady_defaultRound (s : State) (i : Nat) :
    (s.playReady i).defaultRound = s.defaultRound := by simp [playReady]
@[simp] theorem playReady_sweeps (s : State) (i : Nat) :
    (s.playReady i).sweeps = s.sweeps := by simp [playReady]
@[simp] theorem playReady_attention (s : State) (i : Nat) :
    (s.playReady i).attention = s.attention := by simp [playReady]
@[simp] theorem playReady_ports (s : State) (i : Nat) :
    (s.playReady i).ports = s.ports := by simp [playReady]
@[simp] theorem playReady_tally0 (s : State) (i : Nat) :
    (s.playReady i).tally0 = s.tally0 := by simp [playReady]
@[simp] theorem playReady_tally1 (s : State) (i : Nat) :
    (s.playReady i).tally1 = s.tally1 := by simp [playReady]
@[simp] theorem playReady_pinHeld (s : State) (i : Nat) :
    (s.playReady i).pinHeld = s.pinHeld := by simp [playReady]
@[simp] theorem playReady_freeCount (s : State) (i : Nat) :
    (s.playReady i).freeCount = s.freeCount := by simp [playReady]
@[simp] theorem playReady_pending (s : State) (i : Nat) :
    (s.playReady i).pending = s.pending := by simp [playReady]

@[simp] theorem stepSinceRate_slotMap (s : State) (i : Nat) :
    (s.stepSinceRate i).slotMap = s.slotMap := rfl
@[simp] theorem stepSinceRate_streamMap (s : State) (i : Nat) :
    (s.stepSinceRate i).streamMap = s.streamMap := rfl
@[simp] theorem stepSinceRate_profiles (s : State) (i : Nat) :
    (s.stepSinceRate i).profiles = s.profiles := rfl
@[simp] theorem stepSinceRate_available (s : State) (i : Nat) :
    (s.stepSinceRate i).available = s.available := rfl
@[simp] theorem stepSinceRate_reserved (s : State) (i : Nat) :
    (s.stepSinceRate i).reserved = s.reserved := rfl
@[simp] theorem stepSinceRate_lanes (s : State) (i : Nat) :
    (s.stepSinceRate i).lanes = s.lanes := rfl
@[simp] theorem stepSinceRate_capture (s : State) (i : Nat) :
    (s.stepSinceRate i).capture = s.capture := rfl
@[simp] theorem stepSinceRate_timer (s : State) (i : Nat) :
    (s.stepSinceRate i).timer = s.timer := rfl
@[simp] theorem stepSinceRate_blocks (s : State) (i : Nat) :
    (s.stepSinceRate i).blocks = s.blocks := rfl
@[simp] theorem stepSinceRate_links (s : State) (i : Nat) :
    (s.stepSinceRate i).links = s.links := rfl
@[simp] theorem stepSinceRate_defaultRound (s : State) (i : Nat) :
    (s.stepSinceRate i).defaultRound = s.defaultRound := rfl
@[simp] theorem stepSinceRate_sweeps (s : State) (i : Nat) :
    (s.stepSinceRate i).sweeps = s.sweeps := rfl
@[simp] theorem stepSinceRate_attention (s : State) (i : Nat) :
    (s.stepSinceRate i).attention = s.attention := rfl
@[simp] theorem stepSinceRate_ports (s : State) (i : Nat) :
    (s.stepSinceRate i).ports = s.ports := rfl
@[simp] theorem stepSinceRate_tally0 (s : State) (i : Nat) :
    (s.stepSinceRate i).tally0 = s.tally0 := rfl
@[simp] theorem stepSinceRate_tally1 (s : State) (i : Nat) :
    (s.stepSinceRate i).tally1 = s.tally1 := rfl
@[simp] theorem stepSinceRate_pinHeld (s : State) (i : Nat) :
    (s.stepSinceRate i).pinHeld = s.pinHeld := rfl
@[simp] theorem stepSinceRate_freeCount (s : State) (i : Nat) :
    (s.stepSinceRate i).freeCount = s.freeCount := rfl
@[simp] theorem stepSinceRate_pending (s : State) (i : Nat) :
    (s.stepSinceRate i).pending = s.pending := rfl

@[simp] theorem countConceal_slotMap (s : State) (i : Nat) (u : Uplink) :
    (s.countConceal i u).slotMap = s.slotMap := by unfold countConceal; split <;> simp
@[simp] theorem countConceal_streamMap (s : State) (i : Nat) (u : Uplink) :
    (s.countConceal i u).streamMap = s.streamMap := by unfold countConceal; split <;> simp
@[simp] theorem countConceal_profiles (s : State) (i : Nat) (u : Uplink) :
    (s.countConceal i u).profiles = s.profiles := by unfold countConceal; split <;> simp
@[simp] theorem countConceal_available (s : State) (i : Nat) (u : Uplink) :
    (s.countConceal i u).available = s.available := by unfold countConceal; split <;> simp
@[simp] theorem countConceal_reserved (s : State) (i : Nat) (u : Uplink) :
    (s.countConceal i u).reserved = s.reserved := by unfold countConceal; split <;> simp
@[simp] theorem countConceal_lanes (s : State) (i : Nat) (u : Uplink) :
    (s.countConceal i u).lanes = s.lanes := by unfold countConceal; split <;> simp
@[simp] theorem countConceal_capture (s : State) (i : Nat) (u : Uplink) :
    (s.countConceal i u).capture = s.capture := by unfold countConceal; split <;> simp
@[simp] theorem countConceal_timer (s : State) (i : Nat) (u : Uplink) :
    (s.countConceal i u).timer = s.timer := by unfold countConceal; split <;> simp
@[simp] theorem countConceal_blocks (s : State) (i : Nat) (u : Uplink) :
    (s.countConceal i u).blocks = s.blocks := by unfold countConceal; split <;> simp
@[simp] theorem countConceal_links (s : State) (i : Nat) (u : Uplink) :
    (s.countConceal i u).links = s.links := by unfold countConceal; split <;> simp
@[simp] theorem countConceal_defaultRound (s : State) (i : Nat) (u : Uplink) :
    (s.countConceal i u).defaultRound = s.defaultRound := by unfold countConceal; split <;> simp
@[simp] theorem countConceal_sweeps (s : State) (i : Nat) (u : Uplink) :
    (s.countConceal i u).sweeps = s.sweeps := by unfold countConceal; split <;> simp
@[simp] theorem countConceal_attention (s : State) (i : Nat) (u : Uplink) :
    (s.countConceal i u).attention = s.attention := by unfold countConceal; split <;> simp
@[simp] theorem countConceal_ports (s : State) (i : Nat) (u : Uplink) :
    (s.countConceal i u).ports = s.ports := by unfold countConceal; split <;> simp
@[simp] theorem countConceal_pinHeld (s : State) (i : Nat) (u : Uplink) :
    (s.countConceal i u).pinHeld = s.pinHeld := by unfold countConceal; split <;> simp
@[simp] theorem countConceal_freeCount (s : State) (i : Nat) (u : Uplink) :
    (s.countConceal i u).freeCount = s.freeCount := by unfold countConceal; split <;> simp
@[simp] theorem countConceal_pending (s : State) (i : Nat) (u : Uplink) :
    (s.countConceal i u).pending = s.pending := by unfold countConceal; split <;> simp

@[simp] theorem startWork_slotMap (s : State) (i : Nat) :
    (s.startWork i).slotMap = s.slotMap := by simp [startWork]
@[simp] theorem startWork_streamMap (s : State) (i : Nat) :
    (s.startWork i).streamMap = s.streamMap := by simp [startWork]
@[simp] theorem startWork_profiles (s : State) (i : Nat) :
    (s.startWork i).profiles = s.profiles := by simp [startWork]
@[simp] theorem startWork_available (s : State) (i : Nat) :
    (s.startWork i).available = s.available := by simp [startWork]
@[simp] theorem startWork_reserved (s : State) (i : Nat) :
    (s.startWork i).reserved = s.reserved := by simp [startWork]
@[simp] theorem startWork_lanes (s : State) (i : Nat) :
    (s.startWork i).lanes = s.lanes := by simp [startWork]
@[simp] theorem startWork_capture (s : State) (i : Nat) :
    (s.startWork i).capture = s.capture := by simp [startWork]
@[simp] theorem startWork_timer (s : State) (i : Nat) :
    (s.startWork i).timer = s.timer := by simp [startWork]
@[simp] theorem startWork_links (s : State) (i : Nat) :
    (s.startWork i).links = s.links := by simp [startWork]
@[simp] theorem startWork_defaultRound (s : State) (i : Nat) :
    (s.startWork i).defaultRound = s.defaultRound := by simp [startWork]
@[simp] theorem startWork_sweeps (s : State) (i : Nat) :
    (s.startWork i).sweeps = s.sweeps := by simp [startWork]
@[simp] theorem startWork_attention (s : State) (i : Nat) :
    (s.startWork i).attention = s.attention := by simp [startWork]
@[simp] theorem startWork_ports (s : State) (i : Nat) :
    (s.startWork i).ports = s.ports := by simp [startWork]
@[simp] theorem startWork_pinHeld (s : State) (i : Nat) :
    (s.startWork i).pinHeld = s.pinHeld := by simp [startWork]
@[simp] theorem startWork_freeCount (s : State) (i : Nat) :
    (s.startWork i).freeCount = s.freeCount := by simp [startWork]
@[simp] theorem startWork_pending (s : State) (i : Nat) :
    (s.startWork i).pending = s.pending := by simp [startWork]

@[simp] theorem markClaimed_ctxs (s : State) (i : Nat) :
    (s.markClaimed i).ctxs = s.ctxs := rfl
@[simp] theorem markClaimed_slotMap (s : State) (i : Nat) :
    (s.markClaimed i).slotMap = s.slotMap := rfl
@[simp] theorem markClaimed_streamMap (s : State) (i : Nat) :
    (s.markClaimed i).streamMap = s.streamMap := rfl
@[simp] theorem markClaimed_profiles (s : State) (i : Nat) :
    (s.markClaimed i).profiles = s.profiles := rfl
@[simp] theorem markClaimed_available (s : State) (i : Nat) :
    (s.markClaimed i).available = s.available := rfl
@[simp] theorem markClaimed_reserved (s : State) (i : Nat) :
    (s.markClaimed i).reserved = s.reserved := rfl
@[simp] theorem markClaimed_lanes (s : State) (i : Nat) :
    (s.markClaimed i).lanes = s.lanes := rfl
@[simp] theorem markClaimed_capture (s : State) (i : Nat) :
    (s.markClaimed i).capture = s.capture := rfl
@[simp] theorem markClaimed_blocks (s : State) (i : Nat) :
    (s.markClaimed i).blocks = s.blocks := rfl
@[simp] theorem markClaimed_links (s : State) (i : Nat) :
    (s.markClaimed i).links = s.links := rfl
@[simp] theorem markClaimed_defaultRound (s : State) (i : Nat) :
    (s.markClaimed i).defaultRound = s.defaultRound := rfl
@[simp] theorem markClaimed_sweeps (s : State) (i : Nat) :
    (s.markClaimed i).sweeps = s.sweeps := rfl
@[simp] theorem markClaimed_attention (s : State) (i : Nat) :
    (s.markClaimed i).attention = s.attention := rfl
@[simp] theorem markClaimed_ports (s : State) (i : Nat) :
    (s.markClaimed i).ports = s.ports := rfl
@[simp] theorem markClaimed_tally0 (s : State) (i : Nat) :
    (s.markClaimed i).tally0 = s.tally0 := rfl
@[simp] theorem markClaimed_tally1 (s : State) (i : Nat) :
    (s.markClaimed i).tally1 = s.tally1 := rfl
@[simp] theorem markClaimed_pinHeld (s : State) (i : Nat) :
    (s.markClaimed i).pinHeld = s.pinHeld := rfl
@[simp] theorem markClaimed_freeCount (s : State) (i : Nat) :
    (s.markClaimed i).freeCount = s.freeCount := rfl
@[simp] theorem markClaimed_pending (s : State) (i : Nat) :
    (s.markClaimed i).pending = s.pending := rfl

@[simp] theorem countIf_ctxs (s : State) (b : Bool) (k : Event) (i : Nat) :
    (s.countIf b k i).ctxs = s.ctxs := by cases b <;> rfl
@[simp] theorem countIf_slotMap (s : State) (b : Bool) (k : Event) (i : Nat) :
    (s.countIf b k i).slotMap = s.slotMap := by cases b <;> rfl
@[simp] theorem countIf_streamMap (s : State) (b : Bool) (k : Event) (i : Nat) :
    (s.countIf b k i).streamMap = s.streamMap := by cases b <;> rfl
@[simp] theorem countIf_profiles (s : State) (b : Bool) (k : Event) (i : Nat) :
    (s.countIf b k i).profiles = s.profiles := by cases b <;> rfl
@[simp] theorem countIf_available (s : State) (b : Bool) (k : Event) (i : Nat) :
    (s.countIf b k i).available = s.available := by cases b <;> rfl
@[simp] theorem countIf_reserved (s : State) (b : Bool) (k : Event) (i : Nat) :
    (s.countIf b k i).reserved = s.reserved := by cases b <;> rfl
@[simp] theorem countIf_lanes (s : State) (b : Bool) (k : Event) (i : Nat) :
    (s.countIf b k i).lanes = s.lanes := by cases b <;> rfl
@[simp] theorem countIf_capture (s : State) (b : Bool) (k : Event) (i : Nat) :
    (s.countIf b k i).capture = s.capture := by cases b <;> rfl
@[simp] theorem countIf_timer (s : State) (b : Bool) (k : Event) (i : Nat) :
    (s.countIf b k i).timer = s.timer := by cases b <;> rfl
@[simp] theorem countIf_blocks (s : State) (b : Bool) (k : Event) (i : Nat) :
    (s.countIf b k i).blocks = s.blocks := by cases b <;> rfl
@[simp] theorem countIf_links (s : State) (b : Bool) (k : Event) (i : Nat) :
    (s.countIf b k i).links = s.links := by cases b <;> rfl
@[simp] theorem countIf_defaultRound (s : State) (b : Bool) (k : Event) (i : Nat) :
    (s.countIf b k i).defaultRound = s.defaultRound := by cases b <;> rfl
@[simp] theorem countIf_sweeps (s : State) (b : Bool) (k : Event) (i : Nat) :
    (s.countIf b k i).sweeps = s.sweeps := by cases b <;> rfl
@[simp] theorem countIf_attention (s : State) (b : Bool) (k : Event) (i : Nat) :
    (s.countIf b k i).attention = s.attention := by cases b <;> rfl
@[simp] theorem countIf_ports (s : State) (b : Bool) (k : Event) (i : Nat) :
    (s.countIf b k i).ports = s.ports := by cases b <;> rfl
@[simp] theorem countIf_pinHeld (s : State) (b : Bool) (k : Event) (i : Nat) :
    (s.countIf b k i).pinHeld = s.pinHeld := by cases b <;> rfl
@[simp] theorem countIf_freeCount (s : State) (b : Bool) (k : Event) (i : Nat) :
    (s.countIf b k i).freeCount = s.freeCount := by cases b <;> rfl
@[simp] theorem countIf_pending (s : State) (b : Bool) (k : Event) (i : Nat) :
    (s.countIf b k i).pending = s.pending := by cases b <;> rfl

@[simp] theorem acceptCounts_slotMap (s : State) (i : Nat) (b : Bool) :
    (s.acceptCounts i b).slotMap = s.slotMap := by simp [acceptCounts]
@[simp] theorem acceptCounts_streamMap (s : State) (i : Nat) (b : Bool) :
    (s.acceptCounts i b).streamMap = s.streamMap := by simp [acceptCounts]
@[simp] theorem acceptCounts_profiles (s : State) (i : Nat) (b : Bool) :
    (s.acceptCounts i b).profiles = s.profiles := by simp [acceptCounts]
@[simp] theorem acceptCounts_available (s : State) (i : Nat) (b : Bool) :
    (s.acceptCounts i b).available = s.available := by simp [acceptCounts]
@[simp] theorem acceptCounts_reserved (s : State) (i : Nat) (b : Bool) :
    (s.acceptCounts i b).reserved = s.reserved := by simp [acceptCounts]
@[simp] theorem acceptCounts_lanes (s : State) (i : Nat) (b : Bool) :
    (s.acceptCounts i b).lanes = s.lanes := by simp [acceptCounts]
@[simp] theorem acceptCounts_capture (s : State) (i : Nat) (b : Bool) :
    (s.acceptCounts i b).capture = s.capture := by simp [acceptCounts]
@[simp] theorem acceptCounts_timer (s : State) (i : Nat) (b : Bool) :
    (s.acceptCounts i b).timer = s.timer := by simp [acceptCounts]
@[simp] theorem acceptCounts_blocks (s : State) (i : Nat) (b : Bool) :
    (s.acceptCounts i b).blocks = s.blocks := by simp [acceptCounts]
@[simp] theorem acceptCounts_links (s : State) (i : Nat) (b : Bool) :
    (s.acceptCounts i b).links = s.links := by simp [acceptCounts]
@[simp] theorem acceptCounts_defaultRound (s : State) (i : Nat) (b : Bool) :
    (s.acceptCounts i b).defaultRound = s.defaultRound := by simp [acceptCounts]
@[simp] theorem acceptCounts_sweeps (s : State) (i : Nat) (b : Bool) :
    (s.acceptCounts i b).sweeps = s.sweeps := by simp [acceptCounts]
@[simp] theorem acceptCounts_attention (s : State) (i : Nat) (b : Bool) :
    (s.acceptCounts i b).attention = s.attention := by simp [acceptCounts]
@[simp] theorem acceptCounts_ports (s : State) (i : Nat) (b : Bool) :
    (s.acceptCounts i b).ports = s.ports := by simp [acceptCounts]
@[simp] theorem acceptCounts_pinHeld (s : State) (i : Nat) (b : Bool) :
    (s.acceptCounts i b).pinHeld = s.pinHeld := by simp [acceptCounts]
@[simp] theorem acceptCounts_freeCount (s : State) (i : Nat) (b : Bool) :
    (s.acceptCounts i b).freeCount = s.freeCount := by simp [acceptCounts]
@[simp] theorem acceptCounts_pending (s : State) (i : Nat) (b : Bool) :
    (s.acceptCounts i b).pending = s.pending := by simp [acceptCounts]

@[simp] theorem firstArrival_slotMap (s : State) (i : Nat) (c : InCell) :
    (s.firstArrival i c).slotMap = s.slotMap := by simp [firstArrival]
@[simp] theorem firstArrival_streamMap (s : State) (i : Nat) (c : InCell) :
    (s.firstArrival i c).streamMap = s.streamMap := by simp [firstArrival]
@[simp] theorem firstArrival_profiles (s : State) (i : Nat) (c : InCell) :
    (s.firstArrival i c).profiles = s.profiles := by simp [firstArrival]
@[simp] theorem firstArrival_available (s : State) (i : Nat) (c : InCell) :
    (s.firstArrival i c).available = s.available := by simp [firstArrival]
@[simp] theorem firstArrival_reserved (s : State) (i : Nat) (c : InCell) :
    (s.firstArrival i c).reserved = s.reserved := by simp [firstArrival]
@[simp] theorem firstArrival_lanes (s : State) (i : Nat) (c : InCell) :
    (s.firstArrival i c).lanes = s.lanes := by simp [firstArrival]
@[simp] theorem firstArrival_capture (s : State) (i : Nat) (c : InCell) :
    (s.firstArrival i c).capture = s.capture := by simp [firstArrival]
@[simp] theorem firstArrival_timer (s : State) (i : Nat) (c : InCell) :
    (s.firstArrival i c).timer = s.timer := by simp [firstArrival]
@[simp] theorem firstArrival_blocks (s : State) (i : Nat) (c : InCell) :
    (s.firstArrival i c).blocks = s.blocks := by simp [firstArrival]
@[simp] theorem firstArrival_links (s : State) (i : Nat) (c : InCell) :
    (s.firstArrival i c).links = s.links := by simp [firstArrival]
@[simp] theorem firstArrival_defaultRound (s : State) (i : Nat) (c : InCell) :
    (s.firstArrival i c).defaultRound = s.defaultRound := by simp [firstArrival]
@[simp] theorem firstArrival_sweeps (s : State) (i : Nat) (c : InCell) :
    (s.firstArrival i c).sweeps = s.sweeps := by simp [firstArrival]
@[simp] theorem firstArrival_attention (s : State) (i : Nat) (c : InCell) :
    (s.firstArrival i c).attention = s.attention := by simp [firstArrival]
@[simp] theorem firstArrival_ports (s : State) (i : Nat) (c : InCell) :
    (s.firstArrival i c).ports = s.ports := by simp [firstArrival]
@[simp] theorem firstArrival_pinHeld (s : State) (i : Nat) (c : InCell) :
    (s.firstArrival i c).pinHeld = s.pinHeld := by simp [firstArrival]
@[simp] theorem firstArrival_freeCount (s : State) (i : Nat) (c : InCell) :
    (s.firstArrival i c).freeCount = s.freeCount := by simp [firstArrival]
@[simp] theorem firstArrival_pending (s : State) (i : Nat) (c : InCell) :
    (s.firstArrival i c).pending = s.pending := by simp [firstArrival]

@[simp] theorem insertCell_slotMap (s : State) (i : Nat) (e : Seq16) (c : InCell) :
    (s.insertCell i e c).slotMap = s.slotMap := by simp [insertCell]
@[simp] theorem insertCell_streamMap (s : State) (i : Nat) (e : Seq16) (c : InCell) :
    (s.insertCell i e c).streamMap = s.streamMap := by simp [insertCell]
@[simp] theorem insertCell_profiles (s : State) (i : Nat) (e : Seq16) (c : InCell) :
    (s.insertCell i e c).profiles = s.profiles := by simp [insertCell]
@[simp] theorem insertCell_available (s : State) (i : Nat) (e : Seq16) (c : InCell) :
    (s.insertCell i e c).available = s.available := by simp [insertCell]
@[simp] theorem insertCell_reserved (s : State) (i : Nat) (e : Seq16) (c : InCell) :
    (s.insertCell i e c).reserved = s.reserved := by simp [insertCell]
@[simp] theorem insertCell_lanes (s : State) (i : Nat) (e : Seq16) (c : InCell) :
    (s.insertCell i e c).lanes = s.lanes := by simp [insertCell]
@[simp] theorem insertCell_capture (s : State) (i : Nat) (e : Seq16) (c : InCell) :
    (s.insertCell i e c).capture = s.capture := by simp [insertCell]
@[simp] theorem insertCell_timer (s : State) (i : Nat) (e : Seq16) (c : InCell) :
    (s.insertCell i e c).timer = s.timer := by simp [insertCell]
@[simp] theorem insertCell_blocks (s : State) (i : Nat) (e : Seq16) (c : InCell) :
    (s.insertCell i e c).blocks = s.blocks := by simp [insertCell]
@[simp] theorem insertCell_links (s : State) (i : Nat) (e : Seq16) (c : InCell) :
    (s.insertCell i e c).links = s.links := by simp [insertCell]
@[simp] theorem insertCell_defaultRound (s : State) (i : Nat) (e : Seq16) (c : InCell) :
    (s.insertCell i e c).defaultRound = s.defaultRound := by simp [insertCell]
@[simp] theorem insertCell_sweeps (s : State) (i : Nat) (e : Seq16) (c : InCell) :
    (s.insertCell i e c).sweeps = s.sweeps := by simp [insertCell]
@[simp] theorem insertCell_attention (s : State) (i : Nat) (e : Seq16) (c : InCell) :
    (s.insertCell i e c).attention = s.attention := by simp [insertCell]
@[simp] theorem insertCell_ports (s : State) (i : Nat) (e : Seq16) (c : InCell) :
    (s.insertCell i e c).ports = s.ports := by simp [insertCell]
@[simp] theorem insertCell_pinHeld (s : State) (i : Nat) (e : Seq16) (c : InCell) :
    (s.insertCell i e c).pinHeld = s.pinHeld := by simp [insertCell]
@[simp] theorem insertCell_freeCount (s : State) (i : Nat) (e : Seq16) (c : InCell) :
    (s.insertCell i e c).freeCount = s.freeCount := by simp [insertCell]
@[simp] theorem insertCell_pending (s : State) (i : Nat) (e : Seq16) (c : InCell) :
    (s.insertCell i e c).pending = s.pending := by simp [insertCell]

@[simp] theorem resync_slotMap (s : State) (i : Nat) (c : InCell) :
    (s.resync i c).slotMap = s.slotMap := by simp [resync]
@[simp] theorem resync_streamMap (s : State) (i : Nat) (c : InCell) :
    (s.resync i c).streamMap = s.streamMap := by simp [resync]
@[simp] theorem resync_profiles (s : State) (i : Nat) (c : InCell) :
    (s.resync i c).profiles = s.profiles := by simp [resync]
@[simp] theorem resync_available (s : State) (i : Nat) (c : InCell) :
    (s.resync i c).available = s.available := by simp [resync]
@[simp] theorem resync_reserved (s : State) (i : Nat) (c : InCell) :
    (s.resync i c).reserved = s.reserved := by simp [resync]
@[simp] theorem resync_lanes (s : State) (i : Nat) (c : InCell) :
    (s.resync i c).lanes = s.lanes := by simp [resync]
@[simp] theorem resync_capture (s : State) (i : Nat) (c : InCell) :
    (s.resync i c).capture = s.capture := by simp [resync]
@[simp] theorem resync_timer (s : State) (i : Nat) (c : InCell) :
    (s.resync i c).timer = s.timer := by simp [resync]
@[simp] theorem resync_blocks (s : State) (i : Nat) (c : InCell) :
    (s.resync i c).blocks = s.blocks := by simp [resync]
@[simp] theorem resync_links (s : State) (i : Nat) (c : InCell) :
    (s.resync i c).links = s.links := by simp [resync]
@[simp] theorem resync_defaultRound (s : State) (i : Nat) (c : InCell) :
    (s.resync i c).defaultRound = s.defaultRound := by simp [resync]
@[simp] theorem resync_sweeps (s : State) (i : Nat) (c : InCell) :
    (s.resync i c).sweeps = s.sweeps := by simp [resync]
@[simp] theorem resync_attention (s : State) (i : Nat) (c : InCell) :
    (s.resync i c).attention = s.attention := by simp [resync]
@[simp] theorem resync_ports (s : State) (i : Nat) (c : InCell) :
    (s.resync i c).ports = s.ports := by simp [resync]
@[simp] theorem resync_pinHeld (s : State) (i : Nat) (c : InCell) :
    (s.resync i c).pinHeld = s.pinHeld := by simp [resync]
@[simp] theorem resync_freeCount (s : State) (i : Nat) (c : InCell) :
    (s.resync i c).freeCount = s.freeCount := by simp [resync]
@[simp] theorem resync_pending (s : State) (i : Nat) (c : InCell) :
    (s.resync i c).pending = s.pending := by simp [resync]

@[simp] theorem shed_slotMap (s : State) (i : Nat) :
    (s.shed i).slotMap = s.slotMap := by simp [shed]
@[simp] theorem shed_streamMap (s : State) (i : Nat) :
    (s.shed i).streamMap = s.streamMap := by simp [shed]
@[simp] theorem shed_profiles (s : State) (i : Nat) :
    (s.shed i).profiles = s.profiles := by simp [shed]
@[simp] theorem shed_available (s : State) (i : Nat) :
    (s.shed i).available = s.available := by simp [shed]
@[simp] theorem shed_capture (s : State) (i : Nat) :
    (s.shed i).capture = s.capture := by simp [shed]
@[simp] theorem shed_timer (s : State) (i : Nat) :
    (s.shed i).timer = s.timer := by simp [shed]
@[simp] theorem shed_links (s : State) (i : Nat) :
    (s.shed i).links = s.links := by simp [shed]
@[simp] theorem shed_defaultRound (s : State) (i : Nat) :
    (s.shed i).defaultRound = s.defaultRound := by simp [shed]
@[simp] theorem shed_sweeps (s : State) (i : Nat) :
    (s.shed i).sweeps = s.sweeps := by simp [shed]
@[simp] theorem shed_ports (s : State) (i : Nat) :
    (s.shed i).ports = s.ports := by simp [shed]
@[simp] theorem shed_pinHeld (s : State) (i : Nat) :
    (s.shed i).pinHeld = s.pinHeld := by simp [shed]
@[simp] theorem shed_freeCount (s : State) (i : Nat) :
    (s.shed i).freeCount = s.freeCount := by simp [shed]
@[simp] theorem shed_pending (s : State) (i : Nat) :
    (s.shed i).pending = s.pending := by simp [shed]

@[simp] theorem lower_slotMap (s : State) (i r : Nat) :
    (s.lower i r).slotMap = s.slotMap := by simp [lower]
@[simp] theorem lower_streamMap (s : State) (i r : Nat) :
    (s.lower i r).streamMap = s.streamMap := by simp [lower]
@[simp] theorem lower_profiles (s : State) (i r : Nat) :
    (s.lower i r).profiles = s.profiles := by simp [lower]
@[simp] theorem lower_available (s : State) (i r : Nat) :
    (s.lower i r).available = s.available := by simp [lower]
@[simp] theorem lower_lanes (s : State) (i r : Nat) :
    (s.lower i r).lanes = s.lanes := by simp [lower]
@[simp] theorem lower_capture (s : State) (i r : Nat) :
    (s.lower i r).capture = s.capture := by simp [lower]
@[simp] theorem lower_timer (s : State) (i r : Nat) :
    (s.lower i r).timer = s.timer := by simp [lower]
@[simp] theorem lower_blocks (s : State) (i r : Nat) :
    (s.lower i r).blocks = s.blocks := by simp [lower]
@[simp] theorem lower_links (s : State) (i r : Nat) :
    (s.lower i r).links = s.links := by simp [lower]
@[simp] theorem lower_defaultRound (s : State) (i r : Nat) :
    (s.lower i r).defaultRound = s.defaultRound := by simp [lower]
@[simp] theorem lower_sweeps (s : State) (i r : Nat) :
    (s.lower i r).sweeps = s.sweeps := by simp [lower]
@[simp] theorem lower_ports (s : State) (i r : Nat) :
    (s.lower i r).ports = s.ports := by simp [lower]
@[simp] theorem lower_pinHeld (s : State) (i r : Nat) :
    (s.lower i r).pinHeld = s.pinHeld := by simp [lower]
@[simp] theorem lower_freeCount (s : State) (i r : Nat) :
    (s.lower i r).freeCount = s.freeCount := by simp [lower]
@[simp] theorem lower_pending (s : State) (i r : Nat) :
    (s.lower i r).pending = s.pending := by simp [lower]

@[simp] theorem deliver_available (s : State) (i : Nat) :
    (s.deliver i).available = s.available := by unfold deliver; split <;> simp
@[simp] theorem deliver_capture (s : State) (i : Nat) :
    (s.deliver i).capture = s.capture := by unfold deliver; split <;> simp
@[simp] theorem deliver_timer (s : State) (i : Nat) :
    (s.deliver i).timer = s.timer := by unfold deliver; split <;> simp
@[simp] theorem deliver_links (s : State) (i : Nat) :
    (s.deliver i).links = s.links := by unfold deliver; split <;> simp
@[simp] theorem deliver_defaultRound (s : State) (i : Nat) :
    (s.deliver i).defaultRound = s.defaultRound := by unfold deliver; split <;> simp
@[simp] theorem deliver_sweeps (s : State) (i : Nat) :
    (s.deliver i).sweeps = s.sweeps := by unfold deliver; split <;> simp
@[simp] theorem deliver_ports (s : State) (i : Nat) :
    (s.deliver i).ports = s.ports := by unfold deliver; split <;> simp
@[simp] theorem deliver_tally0 (s : State) (i : Nat) :
    (s.deliver i).tally0 = s.tally0 := by unfold deliver; split <;> simp
@[simp] theorem deliver_tally1 (s : State) (i : Nat) :
    (s.deliver i).tally1 = s.tally1 := by unfold deliver; split <;> simp
@[simp] theorem deliver_pinHeld (s : State) (i : Nat) :
    (s.deliver i).pinHeld = s.pinHeld := by unfold deliver; split <;> simp
@[simp] theorem deliver_freeCount (s : State) (i : Nat) :
    (s.deliver i).freeCount = s.freeCount := by unfold deliver; split <;> simp
@[simp] theorem deliver_pending (s : State) (i : Nat) :
    (s.deliver i).pending = s.pending := by unfold deliver; split <;> simp

@[simp] theorem moveQueued_ctxs (s : State) (p : Port) (i : Nat) :
    (s.moveQueued p i).ctxs = s.ctxs := by unfold moveQueued; split <;> rfl
@[simp] theorem moveQueued_slotMap (s : State) (p : Port) (i : Nat) :
    (s.moveQueued p i).slotMap = s.slotMap := by unfold moveQueued; split <;> rfl
@[simp] theorem moveQueued_streamMap (s : State) (p : Port) (i : Nat) :
    (s.moveQueued p i).streamMap = s.streamMap := by unfold moveQueued; split <;> rfl
@[simp] theorem moveQueued_profiles (s : State) (p : Port) (i : Nat) :
    (s.moveQueued p i).profiles = s.profiles := by unfold moveQueued; split <;> rfl
@[simp] theorem moveQueued_available (s : State) (p : Port) (i : Nat) :
    (s.moveQueued p i).available = s.available := by unfold moveQueued; split <;> rfl
@[simp] theorem moveQueued_reserved (s : State) (p : Port) (i : Nat) :
    (s.moveQueued p i).reserved = s.reserved := by unfold moveQueued; split <;> rfl
@[simp] theorem moveQueued_lanes (s : State) (p : Port) (i : Nat) :
    (s.moveQueued p i).lanes = s.lanes := by unfold moveQueued; split <;> rfl
@[simp] theorem moveQueued_capture (s : State) (p : Port) (i : Nat) :
    (s.moveQueued p i).capture = s.capture := by unfold moveQueued; split <;> rfl
@[simp] theorem moveQueued_timer (s : State) (p : Port) (i : Nat) :
    (s.moveQueued p i).timer = s.timer := by unfold moveQueued; split <;> rfl
@[simp] theorem moveQueued_blocks (s : State) (p : Port) (i : Nat) :
    (s.moveQueued p i).blocks = s.blocks := by unfold moveQueued; split <;> rfl
@[simp] theorem moveQueued_links (s : State) (p : Port) (i : Nat) :
    (s.moveQueued p i).links = s.links := by unfold moveQueued; split <;> rfl
@[simp] theorem moveQueued_defaultRound (s : State) (p : Port) (i : Nat) :
    (s.moveQueued p i).defaultRound = s.defaultRound := by unfold moveQueued; split <;> rfl
@[simp] theorem moveQueued_sweeps (s : State) (p : Port) (i : Nat) :
    (s.moveQueued p i).sweeps = s.sweeps := by unfold moveQueued; split <;> rfl
@[simp] theorem moveQueued_ports (s : State) (p : Port) (i : Nat) :
    (s.moveQueued p i).ports = s.ports := by unfold moveQueued; split <;> rfl
@[simp] theorem moveQueued_tally0 (s : State) (p : Port) (i : Nat) :
    (s.moveQueued p i).tally0 = s.tally0 := by unfold moveQueued; split <;> rfl
@[simp] theorem moveQueued_tally1 (s : State) (p : Port) (i : Nat) :
    (s.moveQueued p i).tally1 = s.tally1 := by unfold moveQueued; split <;> rfl
@[simp] theorem moveQueued_pinHeld (s : State) (p : Port) (i : Nat) :
    (s.moveQueued p i).pinHeld = s.pinHeld := by unfold moveQueued; split <;> rfl
@[simp] theorem moveQueued_freeCount (s : State) (p : Port) (i : Nat) :
    (s.moveQueued p i).freeCount = s.freeCount := by unfold moveQueued; split <;> rfl
@[simp] theorem moveQueued_pending (s : State) (p : Port) (i : Nat) :
    (s.moveQueued p i).pending = s.pending := by unfold moveQueued; split <;> rfl

end Sys2Proof.Machine.State
end

