-- ==== Sys2Proof/Laws/Tab.lean ====
section
/-! SUPPORT. Sparse tables: what a lookup reads after an update, and the canonical form that every update keeps. -/

namespace Sys2Proof.Machine.Tab

variable {α : Type}

theorem get_erase_same (d : Nat → α) (t : Tab α) (i : Nat) : get d (erase t i) i = d i := by
  induction t with
  | nil => rfl
  | cons e t ih =>
    obtain ⟨j, v⟩ := e
    by_cases h : i = j
    · subst h; simpa [erase] using ih
    · simp [erase, h, get, ih]

theorem get_erase_other (d : Nat → α) (t : Tab α) {i j : Nat} (h : j ≠ i) : get d (erase t i) j = get d t j := by
  induction t with
  | nil => rfl
  | cons e t ih =>
    obtain ⟨k, v⟩ := e
    by_cases hk : i = k
    · subst hk; simp [erase, get, ih, h]
    · by_cases hj : j = k
      · subst hj; simp [erase, hk, get]
      · simp [erase, hk, get, hj, ih]

theorem get_insert_other (d : Nat → α) (t : Tab α) {i j : Nat} (v : α) (h : j ≠ i) :
    get d (insert t i v) j = get d t j := by
  induction t with
  | nil => simp [insert, get, h]
  | cons e t ih =>
    obtain ⟨k, w⟩ := e
    by_cases hk : i < k
    · simp [insert, hk, get, h]
    · by_cases hj : j = k
      · subst hj; simp [insert, hk, get]
      · simp [insert, hk, get, hj, ih]

theorem get_insert_erase (d : Nat → α) (t : Tab α) (i : Nat) (v : α) : get d (insert (erase t i) i v) i = v := by
  induction t with
  | nil => simp [erase, insert, get]
  | cons e t ih =>
    obtain ⟨k, w⟩ := e
    by_cases hk : i = k
    · simp only [erase, hk, if_true] at ih ⊢; exact ih
    · by_cases hl : i < k
      · simp [erase, hk, insert, hl, get]
      · simp [erase, hk, insert, hl, get, ih]

variable [DecidableEq α]

/-- A lookup of the index just set reads the value set. -/
@[simp] theorem get_set_same (d : Nat → α) (t : Tab α) (i : Nat) (v : α) : get d (set d t i v) i = v := by
  unfold set
  split
  · next h => rw [get_erase_same, h]
  · exact get_insert_erase d t i v

/-- A lookup of any other index reads what it read before. -/
theorem get_set_other (d : Nat → α) (t : Tab α) {i j : Nat} (v : α) (h : j ≠ i) :
    get d (set d t i v) j = get d t j := by
  unfold set
  split
  · exact get_erase_other d t h
  · rw [get_insert_other d _ v h, get_erase_other d t h]

/-- A lookup after an update, in one equation. -/
theorem get_set (d : Nat → α) (t : Tab α) (i j : Nat) (v : α) :
    get d (set d t i v) j = if j = i then v else get d t j := by
  by_cases h : j = i
  · subst h; simp
  · rw [get_set_other d t v h, if_neg h]

omit [DecidableEq α] in
/-- A lookup after every entry was changed, where the change keeps the reset value. -/
theorem get_mapValues (d : Nat → α) (f : α → α) (t : Tab α) (j : Nat) (h : f (d j) = d j) :
    get d (mapValues f t) j = f (get d t j) := by
  induction t with
  | nil => simp [mapValues, get, h]
  | cons e t ih =>
    obtain ⟨k, w⟩ := e
    by_cases hj : j = k
    · subst hj; simp [mapValues, get]
    · simp only [mapValues, List.map_cons, get, hj, if_false] at ih ⊢; exact ih

omit [DecidableEq α] in
/-- An index that is not listed reads its reset value. -/
theorem get_of_not_mem (d : Nat → α) (t : Tab α) (j : Nat) (h : j ∉ keys t) : get d t j = d j := by
  induction t with
  | nil => rfl
  | cons e t ih =>
    obtain ⟨k, w⟩ := e
    simp only [keys, List.map_cons, List.mem_cons, not_or] at h
    simp only [get, h.1, if_false]
    exact ih h.2

omit [DecidableEq α] in
/-- An index that does not read its reset value is listed. -/
theorem mem_keys_of_get_ne (d : Nat → α) (t : Tab α) (j : Nat) (h : get d t j ≠ d j) : j ∈ keys t := by
  by_contra hc
  exact h (get_of_not_mem d t j hc)

omit [DecidableEq α] in
theorem erase_erase (t : Tab α) (i : Nat) : erase (erase t i) i = erase t i := by
  induction t with
  | nil => rfl
  | cons e t ih =>
    obtain ⟨k, w⟩ := e
    by_cases h : i = k
    · subst h; simpa [erase] using ih
    · simp [erase, h, ih]

omit [DecidableEq α] in
theorem erase_insert (t : Tab α) (i : Nat) (v : α) : erase (insert t i v) i = erase t i := by
  induction t with
  | nil => simp [erase, insert]
  | cons e t ih =>
    obtain ⟨k, w⟩ := e
    by_cases h : i < k
    · have : i ≠ k := by omega
      simp [erase, insert, h, this]
    · by_cases hk : i = k
      · subst hk; simpa [erase, insert] using ih
      · simp [erase, insert, h, hk, ih]

/-- Of two updates of one index the later stands. -/
theorem set_set (d : Nat → α) (t : Tab α) (i : Nat) (v w : α) : set d (set d t i v) i w = set d t i w := by
  have he : erase (set d t i v) i = erase t i := by
    unfold set
    split
    · exact erase_erase t i
    · rw [erase_insert, erase_erase]
  unfold set at he ⊢
  rw [he]

omit [DecidableEq α] in
theorem mem_keys_erase (t : Tab α) (i j : Nat) : j ∈ keys (erase t i) ↔ j ∈ keys t ∧ j ≠ i := by
  induction t with
  | nil => simp [erase, keys]
  | cons e t ih =>
    obtain ⟨k, w⟩ := e
    simp only [keys] at ih
    by_cases hk : i = k
    · subst hk
      simp only [erase, if_true, keys, List.map_cons, List.mem_cons, ih]
      tauto
    · simp only [erase, hk, if_false, keys, List.map_cons, List.mem_cons, ih]
      constructor
      · rintro (h | h)
        · subst h; exact ⟨Or.inl rfl, fun h => hk h.symm⟩
        · exact ⟨Or.inr h.1, h.2⟩
      · rintro ⟨h | h, h'⟩
        · exact Or.inl h
        · exact Or.inr ⟨h, h'⟩

omit [DecidableEq α] in
theorem mem_keys_insert (t : Tab α) (i j : Nat) (v : α) : j ∈ keys (insert t i v) ↔ j = i ∨ j ∈ keys t := by
  induction t with
  | nil => simp [insert, keys]
  | cons e t ih =>
    obtain ⟨k, w⟩ := e
    simp only [keys] at ih
    by_cases hk : i < k
    · simp [insert, hk, keys]
    · simp only [insert, hk, if_false, keys, List.map_cons, List.mem_cons, ih]
      tauto

theorem wf_erase (d : Nat → α) (t : Tab α) (i : Nat) (h : wf d t = true) : wf d (erase t i) = true := by
  induction t with
  | nil => rfl
  | cons e t ih =>
    obtain ⟨k, w⟩ := e
    simp only [wf, Bool.and_eq_true, decide_eq_true_eq, List.all_eq_true] at h
    by_cases hk : i = k
    · simp only [erase, hk, if_true]; rw [← hk]; exact ih h.2
    · simp only [erase, hk, if_false, wf, Bool.and_eq_true, decide_eq_true_eq, List.all_eq_true]
      exact ⟨⟨h.1.1, fun j hj => h.1.2 j ((mem_keys_erase t i j).1 hj).1⟩, ih h.2⟩

theorem wf_insert (d : Nat → α) (t : Tab α) (i : Nat) (v : α) (hv : v ≠ d i) (hi : i ∉ keys t) (h : wf d t = true) :
    wf d (insert t i v) = true := by
  induction t with
  | nil => simp [insert, wf, hv, keys]
  | cons e t ih =>
    obtain ⟨k, w⟩ := e
    simp only [keys, List.map_cons, List.mem_cons, not_or] at hi
    have h0 := h
    simp only [wf, Bool.and_eq_true, decide_eq_true_eq, List.all_eq_true] at h
    by_cases hk : i < k
    · simp only [insert, hk, if_true]
      simp only [wf, Bool.and_eq_true, decide_eq_true_eq, List.all_eq_true]
      refine ⟨⟨hv, fun j hj => ?_⟩, h⟩
      simp only [keys, List.map_cons, List.mem_cons] at hj
      rcases hj with hj | hj
      · rw [hj]; exact hk
      · exact lt_trans hk (h.1.2 j hj)
    · simp only [insert, hk, if_false, wf, Bool.and_eq_true, decide_eq_true_eq, List.all_eq_true]
      refine ⟨⟨h.1.1, fun j hj => ?_⟩, ih hi.2 h.2⟩
      rcases (mem_keys_insert t i j v).1 hj with hj | hj
      · rw [hj]; omega
      · exact h.1.2 j hj

/-- An update keeps the canonical form. -/
theorem wf_set (d : Nat → α) (t : Tab α) (i : Nat) (v : α) (h : wf d t = true) : wf d (set d t i v) = true := by
  unfold set
  split
  · exact wf_erase d t i h
  · next hv => exact wf_insert d _ i v hv (fun hm => ((mem_keys_erase t i i).1 hm).2 rfl) (wf_erase d t i h)

/-- Changing every entry keeps the canonical form, where no listed value becomes the reset value. -/
theorem wf_mapValues (d : Nat → α) (f : α → α) (t : Tab α) (hf : ∀ i v, v ≠ d i → f v ≠ d i) (h : wf d t = true) :
    wf d (mapValues f t) = true := by
  induction t with
  | nil => rfl
  | cons e t ih =>
    obtain ⟨k, w⟩ := e
    simp only [wf, Bool.and_eq_true, decide_eq_true_eq, List.all_eq_true] at h
    have hk : keys (mapValues f t) = keys t := by simp [keys, mapValues]
    simp only [mapValues, List.map_cons, wf, Bool.and_eq_true, decide_eq_true_eq, List.all_eq_true]
    refine ⟨⟨hf k w h.1.1, fun j hj => h.1.2 j ?_⟩, ih h.2⟩
    rw [← hk]; exact hj

/-- The listed indices of a canonical table have no repeats. -/
theorem keys_nodup (d : Nat → α) (t : Tab α) (h : wf d t = true) : (keys t).Nodup := by
  induction t with
  | nil => simp [keys]
  | cons e t ih =>
    obtain ⟨k, w⟩ := e
    simp only [wf, Bool.and_eq_true, decide_eq_true_eq, List.all_eq_true] at h
    simp only [keys, List.map_cons, List.nodup_cons]
    exact ⟨fun hm => absurd (h.1.2 k hm) (lt_irrefl k), ih h.2⟩

/-- In a canonical table a listed entry is what its index reads. -/
theorem get_of_mem (d : Nat → α) (t : Tab α) (i : Nat) (v : α) (h : wf d t = true) (hm : (i, v) ∈ t) :
    get d t i = v := by
  induction t with
  | nil => simp at hm
  | cons e t ih =>
    obtain ⟨k, w⟩ := e
    simp only [wf, Bool.and_eq_true, decide_eq_true_eq, List.all_eq_true] at h
    rcases List.mem_cons.1 hm with hm' | hm'
    · cases hm'; simp [get]
    · have hk : i ≠ k := by
        rintro rfl
        exact absurd (h.1.2 i (List.mem_map.2 ⟨(i, v), hm', rfl⟩)) (lt_irrefl i)
      simp only [get, hk, if_false]
      exact ih h.2 hm'

/-- `lowestFrom` finds the first index at which `p` holds. -/
theorem lowestFrom_eq (p : Nat → Bool) (n i m : Nat) (hi : i ≤ m) (hm : m < i + n) (hp : p m = true)
    (hl : ∀ j, i ≤ j → j < m → p j = false) : lowestFrom p n i = m := by
  induction n generalizing i with
  | zero => omega
  | succ n ih =>
    by_cases h : i = m
    · subst h; simp [lowestFrom, hp]
    · have hf : p i = false := hl i (le_refl i) (by omega)
      simp only [lowestFrom, hf]
      exact ih (i + 1) (by omega) (by omega) (fun j hj hjm => hl j (by omega) hjm)

/-- `lowestFrom` ends past its range where `p` holds nowhere. -/
theorem lowestFrom_none (p : Nat → Bool) (n i : Nat) (h : ∀ j, i ≤ j → j < i + n → p j = false) :
    lowestFrom p n i = i + n := by
  induction n generalizing i with
  | zero => rfl
  | succ n ih =>
    have hf : p i = false := h i (le_refl i) (by omega)
    simp only [lowestFrom, hf]
    rw [if_neg (by simp), ih (i + 1) (fun j hj hjm => h j (by omega) (by omega))]
    omega

/-- What `lowestFrom` finds, where it finds one, meets `p`. -/
theorem lowestFrom_spec (p : Nat → Bool) (n i : Nat) (h : lowestFrom p n i < i + n) :
    p (lowestFrom p n i) = true ∧ i ≤ lowestFrom p n i ∧ ∀ j, i ≤ j → j < lowestFrom p n i → p j = false := by
  induction n generalizing i with
  | zero => simp [lowestFrom] at h
  | succ n ih =>
    by_cases hp : p i = true
    · have he : lowestFrom p (n + 1) i = i := by simp [lowestFrom, hp]
      rw [he]
      exact ⟨hp, le_refl i, fun j hj hji => absurd hji (by omega)⟩
    · simp only [lowestFrom, hp] at h ⊢
      have hn : lowestFrom p n (i + 1) < i + 1 + n := by
        have : lowestFrom p n (i + 1) < i + (n + 1) := h
        omega
      obtain ⟨h1, h2, h3⟩ := ih (i + 1) hn
      refine ⟨h1, by simpa using (by omega : i ≤ lowestFrom p n (i + 1)), fun j hj hjl => ?_⟩
      by_cases hji : j = i
      · rw [hji]; simpa using hp
      · exact h3 j (by omega) hjl

end Sys2Proof.Machine.Tab
end

