-- ==== Sys2Proof/Laws/Ops.lean ====
section
/-! SUPPORT. The shared operations, one after the other: what an accessor reads after each. -/

namespace Sys2Proof

@[simp] theorem Port.other_ne (p : Port) : p.other ≠ p := by cases p <;> decide
@[simp] theorem Port.ne_other (p : Port) : p ≠ p.other := by cases p <;> decide
@[simp] theorem Port.other_other (p : Port) : p.other.other = p := by cases p <;> rfl
theorem Port.eq_or_other (p q : Port) : q = p ∨ q = p.other := by cases p <;> cases q <;> decide

namespace Machine

theorem PerPort.get_set {α : Type} (v : PerPort α) (p q : Port) (x : α) :
    (v.set p x).get q = if q = p then x else v.get q := by cases p <;> cases q <;> rfl

theorem PerPort.ext_get {α : Type} {v w : PerPort α} (h : ∀ p, v.get p = w.get p) : v = w := by
  cases v; cases w
  simpa [PerPort.get] using And.intro (h .a) (h .b)

namespace State

/-! ### Entries of states that agree on a field -/

theorem ctx_congr {s t : State} (h : s.ctxs = t.ctxs) (j : Nat) : s.ctx j = t.ctx j :=
  congrArg (fun x => Tab.get ctxDefault x j) h
theorem slotEntry_congr {s t : State} (h : s.slotMap = t.slotMap) (n : Nat) : s.slotEntry n = t.slotEntry n :=
  congrArg (fun x => Tab.get slotDefault x n) h
theorem streamEntry_congr {s t : State} (h : s.streamMap = t.streamMap) (n : Nat) : s.streamEntry n = t.streamEntry n :=
  congrArg (fun x => Tab.get streamDefault x n) h
theorem profile_congr {s t : State} (h : s.profiles = t.profiles) (n : Nat) : s.profile n = t.profile n :=
  congrArg (fun x => Tab.get profileDefault x n) h
theorem lane_congr {s t : State} (h : s.lanes = t.lanes) (n : Nat) : s.lane n = t.lane n :=
  congrArg (fun x => Tab.get laneDefault x n) h
theorem block_congr {s t : State} (h : s.blocks = t.blocks) (n : Nat) : s.block n = t.block n :=
  congrArg (fun x => Tab.get blocksDefault x n) h
theorem link_congr {s t : State} (h : s.links = t.links) (n : Nat) : s.link n = t.link n :=
  congrArg (fun x => Tab.get linkDefault x n) h
theorem port_congr {s t : State} (h : s.ports = t.ports) (p : Port) : s.port p = t.port p :=
  congrArg (fun x => PerPort.get x p) h
theorem queueOf_congr {s t : State} (h : s.attention = t.attention) (p : Port) : s.queueOf p = t.queueOf p :=
  congrArg (fun x => PerPort.get x p) h
theorem sweepOf_congr {s t : State} (h : s.sweeps = t.sweeps) (p : Port) : s.sweepOf p = t.sweepOf p :=
  congrArg (fun x => PerPort.get x p) h

/-- Two states that agree on every field are one. -/
theorem eq_of_fields {s t : State} (h0 : s.ctxs = t.ctxs) (h1 : s.slotMap = t.slotMap) (h2 : s.streamMap = t.streamMap)
    (h3 : s.profiles = t.profiles) (h4 : s.available = t.available) (h5 : s.reserved = t.reserved)
    (h6 : s.lanes = t.lanes) (h7 : s.capture = t.capture) (h8 : s.timer = t.timer) (h9 : s.blocks = t.blocks)
    (h10 : s.links = t.links) (h11 : s.defaultRound = t.defaultRound) (h12 : s.sweeps = t.sweeps)
    (h13 : s.attention = t.attention) (h14 : s.ports = t.ports) (h15 : s.tally0 = t.tally0) (h16 : s.tally1 = t.tally1)
    (h17 : s.pinHeld = t.pinHeld) (h18 : s.freeCount = t.freeCount) (h19 : s.pending = t.pending) : s = t := by
  cases s; cases t; simp_all

/-! ### An entry after its own update -/

@[simp] theorem ctx_setCtx (s : State) (i j : Nat) (c : Ctx) : (s.setCtx i c).ctx j = if j = i then c else s.ctx j :=
  Tab.get_set _ _ _ _ _
@[simp] theorem ctx_modCtx (s : State) (i j : Nat) (f : Ctx → Ctx) :
    (s.modCtx i f).ctx j = if j = i then f (s.ctx i) else s.ctx j := ctx_setCtx _ _ _ _
@[simp] theorem slotEntry_setSlotEntry (s : State) (n m : Nat) (e : Option Nat) :
    (s.setSlotEntry n e).slotEntry m = if m = n then e else s.slotEntry m := Tab.get_set _ _ _ _ _
@[simp] theorem streamEntry_setStreamEntry (s : State) (n m : Nat) (e : Option StreamEntry) :
    (s.setStreamEntry n e).streamEntry m = if m = n then e else s.streamEntry m := Tab.get_set _ _ _ _ _
@[simp] theorem profile_setProfile (s : State) (n m : Nat) (v : ProfileSlot) :
    (s.setProfile n v).profile m = if m = n then v else s.profile m := Tab.get_set _ _ _ _ _
@[simp] theorem lane_setLane (s : State) (n m : Nat) (v : Lane) :
    (s.setLane n v).lane m = if m = n then v else s.lane m := Tab.get_set _ _ _ _ _
@[simp] theorem block_setBlock (s : State) (n m : Nat) (v : SlotBlocks) :
    (s.setBlock n v).block m = if m = n then v else s.block m := Tab.get_set _ _ _ _ _
@[simp] theorem link_setLink (s : State) (n m : Nat) (v : List OutCell) :
    (s.setLink n v).link m = if m = n then v else s.link m := Tab.get_set _ _ _ _ _
@[simp] theorem port_setPort (s : State) (p q : Port) (v : PortState) :
    (s.setPort p v).port q = if q = p then v else s.port q := PerPort.get_set _ _ _ _
@[simp] theorem queueOf_setQueue (s : State) (p r : Port) (q : List Nat) :
    (s.setQueue p q).queueOf r = if r = p then q else s.queueOf r := PerPort.get_set _ _ _ _
@[simp] theorem sweepOf_setSweep (s : State) (p q : Port) (v : Sweep) :
    (s.setSweep p v).sweepOf q = if q = p then v else s.sweepOf q := PerPort.get_set _ _ _ _

/-- Every context after the orphaned flags of a port's contexts are set (R172). -/
@[simp] theorem ctx_setOrphans (s : State) (p : Port) (b : Bool) (j : Nat) :
    (s.setOrphans p b).ctx j =
      if (s.ctx j).state ≠ .free ∧ (s.ctx j).owner = p then { s.ctx j with orphaned := b } else s.ctx j :=
  Tab.get_mapValues ctxDefault
    (fun c => if c.state ≠ .free ∧ c.owner = p then { c with orphaned := b } else c) s.ctxs j
    (by simp [ctxDefault, Ctx.reset])

/-! ### Canonical form -/

theorem canonical_iff (s : State) : s.canonical = true ↔
    s.ctxs.wf ctxDefault = true ∧ s.slotMap.wf slotDefault = true ∧ s.streamMap.wf streamDefault = true ∧
      s.profiles.wf profileDefault = true ∧ s.lanes.wf laneDefault = true ∧ s.blocks.wf blocksDefault = true ∧
      s.links.wf linkDefault = true ∧ s.timer.claimed.wf claimDefault = true := by
  simp [canonical, and_assoc]

theorem canonical_setCtx (s : State) (i : Nat) (c : Ctx) (h : s.canonical = true) : (s.setCtx i c).canonical = true := by
  rw [canonical_iff] at h ⊢; exact ⟨Tab.wf_set _ _ _ _ h.1, h.2⟩
theorem canonical_modCtx (s : State) (i : Nat) (f : Ctx → Ctx) (h : s.canonical = true) :
    (s.modCtx i f).canonical = true := canonical_setCtx s i _ h
theorem canonical_setSlotEntry (s : State) (n : Nat) (e : Option Nat) (h : s.canonical = true) :
    (s.setSlotEntry n e).canonical = true := by
  rw [canonical_iff] at h ⊢; exact ⟨h.1, Tab.wf_set _ _ _ _ h.2.1, h.2.2⟩
theorem canonical_setStreamEntry (s : State) (n : Nat) (e : Option StreamEntry) (h : s.canonical = true) :
    (s.setStreamEntry n e).canonical = true := by
  rw [canonical_iff] at h ⊢; exact ⟨h.1, h.2.1, Tab.wf_set _ _ _ _ h.2.2.1, h.2.2.2⟩
theorem canonical_setProfile (s : State) (n : Nat) (v : ProfileSlot) (h : s.canonical = true) :
    (s.setProfile n v).canonical = true := by
  rw [canonical_iff] at h ⊢; exact ⟨h.1, h.2.1, h.2.2.1, Tab.wf_set _ _ _ _ h.2.2.2.1, h.2.2.2.2⟩
theorem canonical_setLane (s : State) (n : Nat) (v : Lane) (h : s.canonical = true) :
    (s.setLane n v).canonical = true := by
  rw [canonical_iff] at h ⊢
  exact ⟨h.1, h.2.1, h.2.2.1, h.2.2.2.1, Tab.wf_set _ _ _ _ h.2.2.2.2.1, h.2.2.2.2.2⟩
theorem canonical_setBlock (s : State) (n : Nat) (v : SlotBlocks) (h : s.canonical = true) :
    (s.setBlock n v).canonical = true := by
  rw [canonical_iff] at h ⊢
  exact ⟨h.1, h.2.1, h.2.2.1, h.2.2.2.1, h.2.2.2.2.1, Tab.wf_set _ _ _ _ h.2.2.2.2.2.1, h.2.2.2.2.2.2⟩
theorem canonical_setLink (s : State) (n : Nat) (v : List OutCell) (h : s.canonical = true) :
    (s.setLink n v).canonical = true := by
  rw [canonical_iff] at h ⊢
  exact ⟨h.1, h.2.1, h.2.2.1, h.2.2.2.1, h.2.2.2.2.1, h.2.2.2.2.2.1, Tab.wf_set _ _ _ _ h.2.2.2.2.2.2.1,
    h.2.2.2.2.2.2.2⟩
theorem canonical_markClaimed (s : State) (i : Nat) (h : s.canonical = true) : (s.markClaimed i).canonical = true := by
  rw [canonical_iff] at h ⊢
  exact ⟨h.1, h.2.1, h.2.2.1, h.2.2.2.1, h.2.2.2.2.1, h.2.2.2.2.2.1, h.2.2.2.2.2.2.1,
    Tab.wf_set claimDefault s.timer.claimed i true h.2.2.2.2.2.2.2⟩
theorem canonical_setOrphans (s : State) (p : Port) (b : Bool) (h : s.canonical = true) :
    (s.setOrphans p b).canonical = true := by
  rw [canonical_iff] at h ⊢
  refine ⟨Tab.wf_mapValues ctxDefault
    (fun c : Ctx => if c.state ≠ .free ∧ c.owner = p then { c with orphaned := b } else c) s.ctxs
    (fun i v hv => ?_) h.1, h.2⟩
  split
  · next hc => intro he; exact hc.1 (by have := congrArg Ctx.state he; simpa [ctxDefault, Ctx.reset] using this)
  · exact hv

/-! ### Conditions and tallies -/

/-- A raised condition: the kind joins the set of context `i`, no other context changes. -/
theorem ctx_raise (s : State) (i j : Nat) (k : Cond) :
    (s.raise i k).ctx j = if j = i then { s.ctx i with conds := (s.ctx i).conds.add k } else s.ctx j := by
  unfold raise; split <;> simp [enqueue]

/-- A raised condition: the index joins its owner's queue where the set was empty. -/
theorem queueOf_raise (s : State) (i : Nat) (k : Cond) (p : Port) :
    (s.raise i k).queueOf p =
      if (s.ctx i).conds = 0 ∧ p = (s.ctx i).owner then s.queueOf p ++ [i] else s.queueOf p := by
  unfold raise
  rw [modCtx_queueOf]
  by_cases h : (s.ctx i).conds = 0
  · by_cases hp : p = (s.ctx i).owner
    · subst hp; rw [if_pos h, if_pos ⟨h, rfl⟩]; simp [enqueue]
    · rw [if_pos h, if_neg (fun hc => hp hc.2)]; simp [enqueue, hp]
  · rw [if_neg h, if_neg (fun hc => h hc.1)]

theorem ctx_raiseIf (s : State) (b : Bool) (i j : Nat) (k : Cond) :
    (s.raiseIf b i k).ctx j =
      if b = true ∧ j = i then { s.ctx i with conds := (s.ctx i).conds.add k } else s.ctx j := by
  cases b <;> simp [raiseIf, ctx_raise]

theorem port_raisePort (s : State) (p q : Port) (k : PortCond) :
    (s.raisePort p k).port q = if q = p then { s.port p with conds := (s.port p).conds.add k } else s.port q :=
  port_setPort _ _ _ _

theorem port_raiseBoth (s : State) (k : PortCond) (q : Port) :
    (s.raiseBoth k).port q = { s.port q with conds := (s.port q).conds.add k } := by
  cases q <;> simp [raiseBoth, raisePort]

theorem count_eq (s : State) (k : Event) (h : Option Handle) :
    s.count k h = s.setTallies (s.tally0.step k h) (s.tally1.step k h) := rfl

end State

/-- A counted event changes a tally's count alone. -/
theorem Tally.step_eq (t : Tally) (k : Event) (h : Option Handle) : t.step k h = { t with count := (t.step k h).count } := by
  unfold Tally.step; split <;> rfl

namespace State

/-! ### Works and lanes -/

theorem lane_freeLane (s : State) (i n m : Nat) :
    (s.freeLane i n).lane m =
      if m = n ∧ (s.lane m).inHand = some i then { s.lane m with inHand := none } else s.lane m := by
  unfold freeLane
  by_cases h : (s.lane n).inHand = some i
  · by_cases hm : m = n
    · subst hm; simp [h]
    · simp [h, hm]
  · by_cases hm : m = n
    · subst hm; simp [h]
    · simp [h, hm]

theorem lane_foldl_freeLane (i : Nat) (l : List Nat) (s : State) (m : Nat) :
    (l.foldl (fun t n => t.freeLane i n) s).lane m =
      if m ∈ l ∧ (s.lane m).inHand = some i then { s.lane m with inHand := none } else s.lane m := by
  induction l generalizing s with
  | nil => simp
  | cons n l ih =>
    rw [List.foldl_cons, ih, lane_freeLane]
    by_cases hm : m = n
    · subst hm
      by_cases hi : (s.lane m).inHand = some i <;> simp [hi]
    · simp [hm]

/-- Every lane after the work of `i` leaves the lanes. -/
theorem lane_freeLanes (s : State) (i m : Nat) :
    (s.freeLanes i).lane m =
      if m < 8 ∧ (s.lane m).inHand = some i then { s.lane m with inHand := none } else s.lane m := by
  have h := lane_foldl_freeLane i (List.range Config.lanes) s m
  simpa [freeLanes, Config.lanes] using h

theorem ctx_discardWork (s : State) (i j : Nat) :
    (s.discardWork i).ctx j = if j = i then { s.ctx i with work := none } else s.ctx j := by
  have h : (s.discardWork i).ctxs = (s.modCtx i fun c => { c with work := none }).ctxs := freeLanes_ctxs _ _
  exact (ctx_congr h j).trans (ctx_modCtx s i j _)

theorem lane_discardWork (s : State) (i m : Nat) :
    (s.discardWork i).lane m =
      if m < 8 ∧ (s.lane m).inHand = some i then { s.lane m with inHand := none } else s.lane m := by
  unfold discardWork; rw [lane_freeLanes]; rfl

/-! ### The stream map -/

theorem streamEntry_removeStream (s : State) (k : StreamKey) (m : Nat) :
    (s.removeStream k).streamEntry m =
      if (s.findStream k).map Prod.fst = some m then none else s.streamEntry m := by
  unfold removeStream
  split
  · next n e h => simp only [h, Option.map_some, streamEntry_setStreamEntry, Option.some.injEq, eq_comm]
  · next h => simp [h]

/-- What a lookup finds: an entry of the map that holds the key. -/
theorem findStream_spec (s : State) (k : StreamKey) (n : Nat) (e : StreamEntry) (h : s.findStream k = some (n, e)) :
    (n, some e) ∈ s.streamMap ∧ e.key = k := by
  unfold findStream at h
  obtain ⟨x, hx, he⟩ := List.exists_of_findSome?_eq_some h
  obtain ⟨m, o⟩ := x
  cases o with
  | none => simp at he
  | some y =>
    by_cases hk : y.key = k
    · simp only [hk, if_true, Option.some.injEq, Prod.mk.injEq] at he
      obtain ⟨rfl, rfl⟩ := he
      exact ⟨hx, hk⟩
    · simp [hk] at he

/-- A lookup that misses: no entry of the map holds the key. -/
theorem findStream_none (s : State) (k : StreamKey) (h : s.findStream k = none) (n : Nat) (e : StreamEntry)
    (he : (n, some e) ∈ s.streamMap) : e.key ≠ k := by
  intro hk
  unfold findStream at h
  have := (List.findSome?_eq_none_iff.1 h) _ he
  simp [hk] at this

/-- In a canonical map a lookup finds what its number reads. -/
theorem streamEntry_of_findStream (s : State) (k : StreamKey) (n : Nat) (e : StreamEntry)
    (hw : s.streamMap.wf streamDefault = true) (h : s.findStream k = some (n, e)) : s.streamEntry n = some e :=
  Tab.get_of_mem _ _ _ _ hw (findStream_spec s k n e h).1

/-! ### Slots, profiles -/

theorem profile_dropRef (s : State) (n : Option Nat) (m : Nat) :
    (s.dropRef n).profile m = if n = some m then { s.profile m with refs := (s.profile m).refs - 1 } else s.profile m := by
  cases n with
  | none => rfl
  | some n =>
    by_cases h : m = n
    · subst h; simp [dropRef, modRefs]
    · simp [dropRef, modRefs, h, eq_comm]

/-! ### Transitions -/

@[simp] theorem ctx_playBlock (s : State) (i j : Nat) (x : Option (List Byte)) : (s.playBlock i x).ctx j = s.ctx j :=
  ctx_congr (playBlock_ctxs ..) j

/-- The outbound block of the slot of context `i` is replaced, every other block stands. -/
theorem block_playBlock (s : State) (i n : Nat) (x : Option (List Byte)) :
    (s.playBlock i x).block n =
      if (s.ctx i).slot.map SlotBinding.slot = some n then { s.block n with outbound := x } else s.block n := by
  unfold playBlock
  split
  · rename_i b h
    by_cases hn : n = b.slot
    · subst hn; simp [h]
    · simp [h, hn, eq_comm]
  · rename_i h; simp [h]

theorem ctx_enterHeld (s : State) (i j : Nat) (c : HoldCause) :
    (s.enterHeld i c).ctx j =
      if j = i then
        { ({ s.ctx i with work := none } : Ctx).toHeld c with
          conds := if fromOrder (s.ctx i).request then (s.ctx i).conds.add .rateRefused else (s.ctx i).conds }
      else s.ctx j := by
  unfold enterHeld
  rw [ctx_raiseIf]
  by_cases hj : j = i
  · subst hj
    by_cases hb : fromOrder (s.ctx j).request = true
    · simp [hb, ctx_discardWork, giveBack, Ctx.toHeld]
    · simp [hb, ctx_discardWork, giveBack, Ctx.toHeld]
  · simp [hj, ctx_discardWork, giveBack]

theorem reserved_enterHeld (s : State) (i : Nat) (c : HoldCause) :
    (s.enterHeld i c).reserved = s.reserved - s.currentCost i := by
  simp [enterHeld, giveBack]

theorem lane_enterHeld (s : State) (i m : Nat) (c : HoldCause) :
    (s.enterHeld i c).lane m =
      if m < 8 ∧ (s.lane m).inHand = some i then { s.lane m with inHand := none } else s.lane m := by
  have h : (s.enterHeld i c).lanes = ((s.giveBack (s.currentCost i)).discardWork i).lanes := by simp [enterHeld]
  rw [lane_congr h, lane_discardWork]; rfl

/-- The slot of a context that enters HELD is IDLE from then on; its inbound block is still collected (R22, R26). -/
theorem block_enterHeld (s : State) (i n : Nat) (c : HoldCause) :
    (s.enterHeld i c).block n =
      if (s.ctx i).slot.map SlotBinding.slot = some n then { s.block n with outbound := none } else s.block n := by
  have h : (s.enterHeld i c).blocks = (((s.giveBack (s.currentCost i)).discardWork i).playBlock i none).blocks := by
    simp [enterHeld]
  have hb : ((s.giveBack (s.currentCost i)).discardWork i).block n = s.block n := block_congr (by simp) n
  rw [block_congr h, block_playBlock, hb]
  simp [ctx_discardWork, giveBack]

theorem queueOf_enterHeld (s : State) (i : Nat) (c : HoldCause) (p : Port) :
    (s.enterHeld i c).queueOf p =
      if fromOrder (s.ctx i).request = true ∧ (s.ctx i).conds = 0 ∧ p = (s.ctx i).owner then s.queueOf p ++ [i]
      else s.queueOf p := by
  unfold enterHeld
  have hq : ∀ q, ((((s.giveBack (s.currentCost i)).discardWork i).playBlock i none).modCtx i fun x =>
      x.toHeld c).queueOf q = s.queueOf q := fun q => queueOf_congr (by simp) q
  cases h : fromOrder (s.ctx i).request
  · simp [raiseIf, hq]
  · have hd : ∀ q, (((s.giveBack (s.currentCost i)).discardWork i).playBlock i none).queueOf q = s.queueOf q :=
      fun q => queueOf_congr (by simp) q
    have he : (((s.giveBack (s.currentCost i)).discardWork i).playBlock i none).ctx i = { s.ctx i with work := none } := by
      simp [ctx_discardWork, giveBack]
    simp [raiseIf, queueOf_raise, Ctx.toHeld, hd, he]

theorem ctx_leaveHeld (s : State) (i j : Nat) :
    (s.leaveHeld i).ctx j = if j = i then (s.ctx i).fromHeld else s.ctx j := by
  simp [leaveHeld, reserve]

theorem ctx_releaseHoldings (s : State) (i j : Nat) :
    (s.releaseHoldings i).ctx j = if j = i then (s.ctx i).released else s.ctx j := by
  have h : ∀ k, ((((((s.giveBack (s.reservation i)).discardWork i).releaseSlot (s.ctx i).slot).removeStream?
      (s.ctx i).primary).removeStream? ((s.ctx i).handover.map Handover.key)).dropRef (s.ctx i).profile).ctx k =
      if k = i then { s.ctx i with work := none } else s.ctx k := fun k => by
    rw [ctx_congr (t := (s.giveBack (s.reservation i)).discardWork i) (by simp), ctx_discardWork]; rfl
  unfold releaseHoldings
  rw [ctx_modCtx, h, h]
  by_cases hj : j = i
  · simp [hj, Ctx.released]
  · simp [hj]

/-- The units of a released context return to the account (R18, R59). -/
theorem reserved_releaseHoldings (s : State) (i : Nat) :
    (s.releaseHoldings i).reserved = s.reserved - s.reservation i := by
  simp [releaseHoldings, giveBack]

theorem lane_releaseHoldings (s : State) (i m : Nat) :
    (s.releaseHoldings i).lane m =
      if m < 8 ∧ (s.lane m).inHand = some i then { s.lane m with inHand := none } else s.lane m := by
  have h : (s.releaseHoldings i).lanes = ((s.giveBack (s.reservation i)).discardWork i).lanes := by
    simp [releaseHoldings]
  rw [lane_congr h, lane_discardWork]; rfl

theorem profile_releaseHoldings (s : State) (i m : Nat) :
    (s.releaseHoldings i).profile m =
      if (s.ctx i).profile = some m then { s.profile m with refs := (s.profile m).refs - 1 } else s.profile m := by
  have hp : ∀ k, (((((s.giveBack (s.reservation i)).discardWork i).releaseSlot (s.ctx i).slot).removeStream?
      (s.ctx i).primary).removeStream? ((s.ctx i).handover.map Handover.key)).profile k = s.profile k :=
    fun k => profile_congr (by simp) k
  have h : (s.releaseHoldings i).profiles = (((((((s.giveBack (s.reservation i)).discardWork i).releaseSlot
      (s.ctx i).slot).removeStream? (s.ctx i).primary).removeStream? ((s.ctx i).handover.map Handover.key)).dropRef
      (s.ctx i).profile)).profiles := rfl
  rw [profile_congr h, profile_dropRef, hp]

theorem slotEntry_releaseHoldings (s : State) (i n : Nat) :
    (s.releaseHoldings i).slotEntry n =
      if (s.ctx i).slot.map SlotBinding.slot = some n then none else s.slotEntry n := by
  have h : (s.releaseHoldings i).slotMap =
      (((s.giveBack (s.reservation i)).discardWork i).releaseSlot (s.ctx i).slot).slotMap := by simp [releaseHoldings]
  have h' : ∀ k, ((s.giveBack (s.reservation i)).discardWork i).slotEntry k = s.slotEntry k :=
    fun k => slotEntry_congr (by simp) k
  rw [slotEntry_congr h]
  cases (s.ctx i).slot with
  | none => simp [releaseSlot, h']
  | some b =>
    by_cases hb : n = b.slot
    · subst hb; simp [releaseSlot]
    · simp [releaseSlot, h', hb, Ne.symm hb]

theorem streamEntry_releaseHoldings (s : State) (i n : Nat) :
    (s.releaseHoldings i).streamEntry n =
      ((s.removeStream? (s.ctx i).primary).removeStream? ((s.ctx i).handover.map Handover.key)).streamEntry n := by
  have hr : ∀ (a b : State) (k : StreamKey), a.streamMap = b.streamMap →
      (a.removeStream k).streamMap = (b.removeStream k).streamMap := by
    intro a b k hab
    have hf : a.findStream k = b.findStream k := by unfold findStream; rw [hab]
    unfold removeStream
    rw [hf]
    split
    · simp [setStreamEntry, hab]
    · exact hab
  have ho : ∀ (a b : State) (k : Option StreamKey), a.streamMap = b.streamMap →
      (a.removeStream? k).streamMap = (b.removeStream? k).streamMap := by
    intro a b k hab
    cases k
    · exact hab
    · exact hr a b _ hab
  have h : (s.releaseHoldings i).streamMap =
      ((((s.giveBack (s.reservation i)).discardWork i).releaseSlot (s.ctx i).slot).removeStream?
        (s.ctx i).primary |>.removeStream? ((s.ctx i).handover.map Handover.key)).streamMap := by
    simp [releaseHoldings]
  exact streamEntry_congr (h.trans (ho _ _ _ (ho _ _ _ (by simp)))) n

/-- A context after entry into FREE, and every other one (R18). -/
theorem ctx_enterFree (s : State) (i j : Nat) :
    (s.enterFree i).ctx j =
      if j = i then { (s.ctx i).released with state := .free, gen := (s.ctx i).gen + 1, conds := 0 } else s.ctx j := by
  by_cases h : j = i
  · subst h; simp [enterFree, unqueue, ctx_releaseHoldings, Ctx.released]
  · simp [enterFree, unqueue, ctx_releaseHoldings, h]

theorem queueOf_enterFree (s : State) (i : Nat) (p : Port) :
    (s.enterFree i).queueOf p = if p = (s.ctx i).owner then (s.queueOf p).filter (· ≠ i) else s.queueOf p := by
  have h : ∀ q, (s.releaseHoldings i).queueOf q = s.queueOf q := fun q => queueOf_congr (by simp) q
  by_cases hp : p = (s.ctx i).owner
  · subst hp; simp [enterFree, unqueue, h]
  · simp [enterFree, unqueue, h, hp]

/-- A context after entry into CLOSED, and every other one (R20). -/
theorem ctx_enterClosed (s : State) (i j : Nat) (c : RetireCause) :
    (s.enterClosed i c).ctx j =
      if j = i then
        { (s.ctx i).released with state := .closed, retireCause := some c, conds := CondSet.one .retired }
      else s.ctx j := by
  by_cases h : j = i
  · subst h
    unfold enterClosed
    split <;> simp [enqueue, ctx_releaseHoldings]
  · unfold enterClosed
    split <;> simp [enqueue, ctx_releaseHoldings, h]

/-- Entry into CLOSED leaves the index in its owner's queue (R20). -/
theorem queueOf_enterClosed (s : State) (i : Nat) (c : RetireCause) (p : Port) :
    (s.enterClosed i c).queueOf p =
      if i ∉ s.queueOf (s.ctx i).owner ∧ p = (s.ctx i).owner then s.queueOf p ++ [i] else s.queueOf p := by
  have h : ∀ q, (s.releaseHoldings i).queueOf q = s.queueOf q := fun q => queueOf_congr (by simp) q
  have ho : ((s.releaseHoldings i).ctx i).owner = (s.ctx i).owner := by simp [ctx_releaseHoldings, Ctx.released]
  unfold enterClosed
  rw [modCtx_queueOf]
  by_cases hi : i ∈ s.queueOf (s.ctx i).owner
  · rw [if_pos hi, if_neg (fun hc => hc.1 hi), h]
  · rw [if_neg hi]
    by_cases hp : p = (s.ctx i).owner
    · subst hp; rw [if_pos ⟨hi, rfl⟩]; simp [enqueue, ho, h]
    · rw [if_neg (fun hc => hp hc.2)]; simp [enqueue, ho, h, hp]

/-! ### The release of a context's holdings, as one relation (R18) -/

/-- A lane freed of the work of `i`, as a filter of what it has in hand. -/
theorem lane_filter (v : Lane) (i : Nat) :
    (if v.inHand = some i then { v with inHand := none } else v) = ⟨v.state, v.inHand.filter (· ≠ i)⟩ := by
  obtain ⟨st, h⟩ := v
  cases h with
  | none => simp
  | some j => by_cases hj : j = i <;> simp [hj, Option.filter]

/-- A released slot has no block (R27). -/
theorem block_releaseSlot (s : State) (b : Option SlotBinding) (n : Nat) :
    (s.releaseSlot b).block n = if b.map SlotBinding.slot = some n then ⟨none, none, none⟩ else s.block n := by
  cases b with
  | none => simp [releaseSlot]
  | some b =>
    by_cases h : n = b.slot
    · subst h; simp [releaseSlot]
    · simp [releaseSlot, h, Ne.symm h]

theorem block_releaseHoldings (s : State) (i n : Nat) :
    (s.releaseHoldings i).block n =
      if (s.ctx i).slot.map SlotBinding.slot = some n then ⟨none, none, none⟩ else s.block n := by
  have h : (s.releaseHoldings i).blocks =
      (((s.giveBack (s.reservation i)).discardWork i).releaseSlot (s.ctx i).slot).blocks := by simp [releaseHoldings]
  rw [block_congr h, block_releaseSlot, block_congr (t := s) (by simp)]

/-- The removal of a key leaves every entry that does not hold it. -/
theorem streamEntry_removeStream_kept (s : State) (k : StreamKey) (hc : s.streamMap.wf streamDefault = true) (n : Nat)
    (h : ¬ s.holdsKey n k) : (s.removeStream k).streamEntry n = s.streamEntry n := by
  rw [streamEntry_removeStream]
  refine if_neg fun hf => ?_
  cases hfs : s.findStream k with
  | none => simp [hfs] at hf
  | some x =>
    obtain ⟨m, e⟩ := x
    rw [hfs] at hf
    simp only [Option.map_some, Option.some.injEq] at hf
    subst hf
    exact h ⟨e, streamEntry_of_findStream s k m e hc hfs, (findStream_spec s k m e hfs).2⟩

/-- The removal of a key gives no entry a key. -/
theorem holdsKey_removeStream (s : State) (k k' : StreamKey) (n : Nat) (h : (s.removeStream k).holdsKey n k') :
    s.holdsKey n k' := by
  obtain ⟨e, he, hk⟩ := h
  rw [streamEntry_removeStream] at he
  split at he
  · cases he
  · exact ⟨e, he, hk⟩

/-- An entry found stays the one found when an entry of another number is emptied. -/
theorem findStream_removeStream (s : State) (k k' : StreamKey) (n : Nat) (e : StreamEntry)
    (h : s.findStream k = some (n, e)) :
    (s.removeStream k').streamEntry n = none ∨ (s.removeStream k').findStream k = some (n, e) := by
  unfold removeStream
  split
  · next m x hf =>
    by_cases hm : n = m
    · subst hm; left; simp
    · right
      unfold findStream at h ⊢
      have hs : (s.setStreamEntry m none).streamMap = s.streamMap.erase m := by
        simp [setStreamEntry, Tab.set, streamDefault]
      rw [hs]
      generalize s.streamMap = l at h
      induction l with
      | nil => cases h
      | cons y l ih =>
        obtain ⟨j, o⟩ := y
        rw [List.findSome?_cons] at h
        unfold Tab.erase
        by_cases hj : m = j
        · rw [if_pos hj]
          refine ih ?_
          cases o with
          | none => simpa using h
          | some z =>
            by_cases hz : z.key = k
            · simp only [hz, if_true, Option.some.injEq, Prod.mk.injEq] at h
              exact absurd (h.1.symm.trans hj.symm) hm
            · simpa [hz] using h
        · rw [if_neg hj, List.findSome?_cons]
          cases o with
          | none => exact ih (by simpa using h)
          | some z =>
            by_cases hz : z.key = k
            · simpa [hz] using h
            · simp only [hz, if_false] at h ⊢
              exact ih h
  · exact Or.inr h

/-- What the release of a context's holdings does to the maps, the account, the profiles and the lanes (R18). -/
theorem holdingsReleased_releaseHoldings (s : State) (i : Nat) : HoldingsReleased s (s.releaseHoldings i) i where
  reserved := reserved_releaseHoldings s i
  slots := slotEntry_releaseHoldings s i
  blocks := block_releaseHoldings s i
  streams k n e hk hf := by
    have hr : ∀ (t : State) (k : StreamKey) n, t.streamEntry n = none → (t.removeStream k).streamEntry n = none := by
      intro t k n h; rw [streamEntry_removeStream, h]; simp
    have hr? : ∀ (t : State) (k : Option StreamKey) n, t.streamEntry n = none → (t.removeStream? k).streamEntry n = none := by
      intro t k n h
      cases k
      · exact h
      · exact hr _ _ _ h
    rw [streamEntry_releaseHoldings]
    rcases hk with hk | hk
    · refine hr? _ _ _ ?_
      rw [hk]
      show (s.removeStream k).streamEntry n = none
      rw [streamEntry_removeStream, hf]; simp
    · rw [hk]
      show (((s.removeStream? (s.ctx i).primary)).removeStream k).streamEntry n = none
      cases hp : (s.ctx i).primary with
      | none =>
        show (s.removeStream k).streamEntry n = none
        rw [streamEntry_removeStream, hf]; simp
      | some k' =>
        show ((s.removeStream k').removeStream k).streamEntry n = none
        rcases findStream_removeStream s k k' n e hf with h | h
        · exact hr _ _ _ h
        · rw [streamEntry_removeStream, h]; simp
  streams_kept hc n hk := by
    rw [streamEntry_releaseHoldings]
    have hw := ((canonical_iff s).1 hc)
    have hkept : ∀ (t : State) (k : Option StreamKey), t.canonical = true → (∀ x, k = some x → ¬ t.holdsKey n x) →
        (t.removeStream? k).streamEntry n = t.streamEntry n := by
      intro t k hc h
      cases k with
      | none => rfl
      | some k => exact streamEntry_removeStream_kept t k ((canonical_iff t).1 hc).2.2.1 n (h k rfl)
    have hc' : (s.removeStream? (s.ctx i).primary).canonical = true := by
      cases (s.ctx i).primary with
      | none => exact hc
      | some k =>
        show (s.removeStream k).canonical = true
        unfold removeStream
        split
        · exact canonical_setStreamEntry _ _ _ hc
        · exact hc
    rw [hkept _ _ hc', hkept _ _ hc]
    · exact fun x hx => hk x (Or.inl hx)
    · intro x hx hh
      refine hk x (Or.inr hx) ?_
      cases hp : (s.ctx i).primary with
      | none => rw [hp] at hh; exact hh
      | some k' => rw [hp] at hh; exact holdsKey_removeStream s k' x n hh
  profiles := profile_releaseHoldings s i
  lanes n hn := by
    rw [lane_releaseHoldings, ← lane_filter]
    simp [hn]

/-- The release seen through what changes none of those tables, before and after. -/
theorem holdingsReleased_congr {s s' t t' : State} {i : Nat} (h : HoldingsReleased s t i)
    (c : s'.ctx i = s.ctx i) (hcan : s'.canonical = true → s.canonical = true) (r : s'.reserved = s.reserved)
    (cost : s'.currentCost i = s.currentCost i) (sl : s'.slotMap = s.slotMap) (st : s'.streamMap = s.streamMap)
    (p : s'.profiles = s.profiles) (l : s'.lanes = s.lanes) (b : s'.blocks = s.blocks) (r' : t'.reserved = t.reserved)
    (sl' : t'.slotMap = t.slotMap) (st' : t'.streamMap = t.streamMap) (p' : t'.profiles = t.profiles)
    (l' : t'.lanes = t.lanes) (b' : t'.blocks = t.blocks) : HoldingsReleased s' t' i where
  reserved := by rw [r', h.reserved, r, c, cost]
  slots n := by rw [slotEntry_congr sl', h.slots, c, slotEntry_congr sl]
  blocks n := by rw [block_congr b', h.blocks, c, block_congr b]
  streams k n e hk hf := by
    have hs : s'.findStream k = s.findStream k := by unfold findStream; rw [st]
    rw [streamEntry_congr st']
    exact h.streams k n e (c ▸ hk) (hs ▸ hf)
  streams_kept hc n hk := by
    rw [streamEntry_congr st', streamEntry_congr st]
    refine h.streams_kept (hcan hc) n fun k hk' hh => hk k (c ▸ hk') ?_
    obtain ⟨e, he, hke⟩ := hh
    exact ⟨e, (streamEntry_congr st n).trans he, hke⟩
  profiles n := by rw [profile_congr p', h.profiles, c, profile_congr p]
  lanes n hn := by rw [lane_congr l', h.lanes n hn, lane_congr l]

/-- Entry into FREE releases the holdings (R18). -/
theorem holdingsReleased_enterFree (s : State) (i : Nat) : HoldingsReleased s (s.enterFree i) i :=
  holdingsReleased_congr (holdingsReleased_releaseHoldings s i) rfl id rfl rfl rfl rfl rfl rfl rfl
    (by simp [enterFree, unqueue]) (by simp [enterFree, unqueue]) (by simp [enterFree, unqueue])
    (by simp [enterFree, unqueue]) (by simp [enterFree, unqueue]) (by simp [enterFree, unqueue])

/-- Entry into CLOSED releases the holdings (R18, R20). -/
theorem holdingsReleased_enterClosed (s : State) (i : Nat) (c : RetireCause) :
    HoldingsReleased s (s.enterClosed i c) i :=
  holdingsReleased_congr (holdingsReleased_releaseHoldings s i) rfl id rfl rfl rfl rfl rfl rfl rfl
    (by unfold enterClosed; split <;> simp [enqueue]) (by unfold enterClosed; split <;> simp [enqueue])
    (by unfold enterClosed; split <;> simp [enqueue]) (by unfold enterClosed; split <;> simp [enqueue])
    (by unfold enterClosed; split <;> simp [enqueue]) (by unfold enterClosed; split <;> simp [enqueue])

/-- A claim marked taken (R82). -/
theorem claimTaken_markClaimed {s t : State} (i : Nat) (h : t.timer = s.timer) : ClaimTaken s (t.markClaimed i) i := by
  have hg : ∀ j, (t.markClaimed i).claimDue j =
      (s.timer.owed && !(Tab.get claimDefault (Tab.set claimDefault s.timer.claimed i true) j)) := fun j => by
    show (t.timer.owed && !(Tab.get claimDefault (Tab.set claimDefault t.timer.claimed i true) j)) = _
    rw [h]
  refine ⟨?_, ?_, fun j hj => ?_⟩
  · have hm : (t.markClaimed i).timer.claimed = s.timer.claimed.set claimDefault i true := by
      show t.timer.claimed.set claimDefault i true = _
      rw [h]
    rw [hm]
    show ({ t.timer with claimed := t.timer.claimed.set claimDefault i true } : Timer) = _
    rw [h]
  · rw [hg, Tab.get_set_same]; simp
  · rw [hg, Tab.get_set_other _ _ _ hj]; rfl

end State

/-! ### Frames and orders -/

/-- A code's byte names it. -/
theorem ofByte_byte (c : OrderCode) : OrderCode.ofByte c.byte = some c := by cases c <;> decide

/-- The claim of an order's frame is the claim of a good frame with its code (R163). -/
theorem orderFrame_eq_goodFrame (p : Port) (c : OrderCode) (hc : c ≠ .batch) (tag : Byte) (body : List Byte) (s : State) :
    orderFrame p c tag body (takeOrder p c body) s = goodFrame p c.byte tag body s := by
  unfold orderFrame goodFrame
  congr 1
  unfold takeGood
  funext t
  congr 1
  unfold takeFrame takeCode
  rw [ofByte_byte, if_neg]
  intro h
  have := ofByte_byte c
  rw [h, ofByte_byte] at this
  exact hc (Option.some.inj this).symm

/-- An order's frame at a port that takes frames: renewal, the order, its response (R163). -/
theorem runs_orderFrame (s : State) (p : Port) (c : OrderCode) (tag : Byte) (body : List Byte) (act : State → Taken)
    (h : s.takes p = true) :
    runs s (orderFrame p c tag body act s) = .next (respond p c.byte tag (act (s.atOrder p c.byte))) := by
  simp only [State.takes, Bool.and_eq_true, Bool.not_eq_true'] at h
  obtain ⟨⟨⟨h1, h2⟩, h3⟩, h4⟩ := h
  have h5 : (s.setRx p .hunt).lineFull p = false := by
    simpa [State.lineFull, State.setRx] using h4
  simp [runs, h1, orderFrame, onFrame, h2, h3, takeGood, h5, State.atOrder]

/-- A good frame by its code at a port that takes frames. -/
theorem runs_goodFrame (s : State) (p : Port) (code tag : Byte) (body : List Byte) (h : s.takes p = true) :
    runs s (goodFrame p code tag body s) = .next (takeFrame p code tag body (s.atOrder p code)) := by
  simp only [State.takes, Bool.and_eq_true, Bool.not_eq_true'] at h
  obtain ⟨⟨⟨h1, h2⟩, h3⟩, h4⟩ := h
  have h5 : (s.setRx p .hunt).lineFull p = false := by
    simpa [State.lineFull, State.setRx] using h4
  simp [runs, h1, goodFrame, onFrame, h2, h3, takeGood, h5, State.atOrder]

theorem respond_frame (p : Port) (code tag : Byte) (t : Taken) :
    respond p code tag t = { t.after with ports := (respond p code tag t).ports } := rfl

@[simp] theorem port_respond (p q : Port) (code tag : Byte) (t : Taken) :
    (respond p code tag t).port q =
      if q = p then
        { t.after.port p with line := (t.after.port p).line ++ [⟨responseCode code, tag, t.result, .single t.body⟩] }
      else t.after.port q := State.port_setPort _ _ _ _

@[simp] theorem ctx_respond (p : Port) (code tag : Byte) (t : Taken) (i : Nat) :
    (respond p code tag t).ctx i = t.after.ctx i := rfl

/-- An order that leaves the ports alone is answered in the sense of `Answered`. -/
theorem answered_respond (u : State) (p : Port) (code tag : Byte) (t : Taken) (h : t.after.ports = u.ports) :
    Answered u (respond p code tag t) p code tag t.result t.body := by
  have hp : ∀ q, t.after.port q = u.port q := fun q => congrArg (fun v : PerPort PortState => v.get q) h
  constructor
  · simp [hp, responseCode]
  · simp [hp]

/-- Checks 3 to 5 passed: the order's own effect (R164). -/
theorem ownerChecked_eq (p : Port) (i0 i1 g : Byte) (u : State) (act : Nat → Taken) (h : Owned u p i0 i1 g) :
    ownerChecked p i0 i1 g true u act = act (le16 i0 i1) := by
  obtain ⟨⟨h1, h2, h3⟩, h4⟩ := h
  simp [ownerChecked, named, owned, h2, h3, h4, Nat.not_lt.2 h1]

/-- Check 3 with further fields in range. -/
theorem ownerChecked_fields (p : Port) (i0 i1 g : Byte) (b : Bool) (hb : b = true) (u : State) (act : Nat → Taken)
    (h : Owned u p i0 i1 g) : ownerChecked p i0 i1 g b u act = act (le16 i0 i1) := by
  subst hb; exact ownerChecked_eq p i0 i1 g u act h

end Machine

end Sys2Proof
end

