-- ==== Sys2Proof/Laws/Composed.lean ====
section
/-! SUPPORT. The composed operations of bindings, handovers, rates, the shedding pass, the playout queue and the
boundary: what each does. -/

namespace Sys2Proof.Machine

namespace State

/-! ### The stream map (R30) -/

/-- The lowest-numbered empty entry, found. -/
theorem lowestStream_eq (s : State) (m : Nat) (hm : m < 4096) (h : s.streamEntry m = none)
    (hl : ∀ j, j < m → s.streamEntry j ≠ none) : s.lowestStream = m := by
  unfold lowestStream
  refine Tab.lowestFrom_eq _ _ _ _ (Nat.zero_le _) (by simpa [Config.streamEntries] using hm) (by simp [h]) ?_
  intro j _ hj
  simpa [Option.isSome_iff_ne_none] using hl j hj

theorem streamEntry_addStream (s : State) (k : StreamKey) (i : Nat) (r : Role) (m : Nat) :
    (s.addStream k i r).streamEntry m = if m = s.lowestStream then some ⟨k, i, r⟩ else s.streamEntry m :=
  streamEntry_setStreamEntry _ _ _ _

theorem streamEntry_removeStream? (s : State) (k : Option StreamKey) (m : Nat) :
    (s.removeStream? k).streamEntry m =
      if (k.bind fun k => (s.findStream k).map Prod.fst) = some m then none else s.streamEntry m := by
  cases k with
  | none => rfl
  | some k => exact streamEntry_removeStream s k m

/-- The entry that `promote` changes keeps its number, key and context (R126). -/
theorem streamEntry_promote (s : State) (k : StreamKey) (n : Nat) (e : StreamEntry) (h : s.findStream k = some (n, e))
    (m : Nat) : (s.promote k).streamEntry m = if m = n then some { e with role := .primary } else s.streamEntry m := by
  simp only [promote, h, streamEntry_setStreamEntry]

/-! ### Handovers (R126, R130, R132) -/

theorem ctx_commit (s : State) (i : Nat) (k : StreamKey) (j : Nat) :
    (s.commit i k).ctx j =
      if j = i then
        { s.ctx i with primary := some k, handover := none, conds := (s.ctx i).conds.add .handoverDone }
      else s.ctx j := by
  have h : ∀ j, ((s.removeStream? (s.ctx i).primary).promote k).ctx j = s.ctx j := fun j =>
    ctx_congr ((promote_ctxs _ _).trans (by simp)) j
  unfold commit
  rw [ctx_congr (countFor_ctxs _ _ _) j, ctx_raise]
  by_cases hj : j = i
  · subst hj; simp [h]
  · simp [hj, h]

theorem ctx_abandon (s : State) (i : Nat) (k : StreamKey) (j : Nat) :
    (s.abandon i k).ctx j = if j = i then { s.ctx i with handover := none } else s.ctx j := by
  have h : ∀ j, (s.removeStream k).ctx j = s.ctx j := fun j => ctx_congr (by simp) j
  unfold abandon
  rw [ctx_modCtx, h, h]

theorem streamEntry_abandon (s : State) (i : Nat) (k : StreamKey) (m : Nat) :
    (s.abandon i k).streamEntry m = if (s.findStream k).map Prod.fst = some m then none else s.streamEntry m := by
  unfold abandon
  rw [modCtx_streamEntry, streamEntry_removeStream]

theorem ctx_expireHandover (s : State) (i : Nat) (k : StreamKey) (j : Nat) :
    (s.expireHandover i k).ctx j =
      if j = i then { s.ctx i with handover := none, conds := (s.ctx i).conds.add .handoverFailed } else s.ctx j := by
  unfold expireHandover
  rw [ctx_congr (countFor_ctxs _ _ _) j, ctx_raise, ctx_abandon, ctx_abandon]
  by_cases hj : j = i
  · simp [hj]
  · simp [hj]

theorem stepHandover_none (s : State) (i : Nat) (h : (s.ctx i).handover = none) : s.stepHandover i = s := by
  simp [stepHandover, h]

/-! ### The return to OPEN (R17) -/

theorem ctx_returnToOpen (s : State) (i j : Nat) :
    (s.returnToOpen i).ctx j =
      if j = i then
        { s.ctx i with
          state := .opened, firstRemaining := none, request := none, ready := none, work := none
          conds := (if fromOrder (s.ctx i).request then (s.ctx i).conds.add .rateRefused
            else (s.ctx i).conds).add .noFirstCell }
      else s.ctx j := by
  unfold returnToOpen
  rw [ctx_raise, ctx_raiseIf, ctx_raiseIf]
  by_cases hj : j = i
  · subst hj
    cases hb : fromOrder (s.ctx j).request <;> simp [ctx_discardWork, giveBack]
  · simp [hj, ctx_discardWork, giveBack]

theorem reserved_returnToOpen (s : State) (i : Nat) :
    (s.returnToOpen i).reserved = s.reserved - s.currentCost i := by
  simp [returnToOpen, giveBack]

/-! ### Rates (R105, R112) -/

theorem ctx_retune (s : State) (i r j : Nat) :
    (s.retune i r).ctx j = if j = i then { s.ctx i with rate := some r, sinceRate := 0 } else s.ctx j := by
  unfold retune
  rw [ctx_congr (countFor_ctxs _ _ _) j, ctx_modCtx]

theorem ctx_retunePaid (s : State) (i r j : Nat) :
    (s.retunePaid i r).ctx j = if j = i then { s.ctx i with rate := some r, sinceRate := 0 } else s.ctx j :=
  ctx_retune _ _ _ _

theorem reserved_retunePaid (s : State) (i r : Nat) :
    (s.retunePaid i r).reserved = s.reserved + s.costOf i r - s.currentCost i := rfl

theorem ctx_applyRate (s : State) (i r j : Nat) :
    (s.applyRate i r).ctx j =
      if j = i then
        { s.ctx i with
          rate := some r, sinceRate := 0, request := none, conds := (s.ctx i).conds.add .rateChanged }
      else s.ctx j := by
  unfold applyRate dropRequest
  rw [ctx_raise, ctx_modCtx, ctx_modCtx, ctx_retunePaid, ctx_retunePaid]
  by_cases hj : j = i
  · simp [hj]
  · simp [hj]

theorem settle_none (s : State) (i : Nat) (h : (s.ctx i).request = none) : s.settle i = s := by simp [settle, h]

/-! ### Lanes and faults (R63, R64, R75) -/

theorem lessLane_eq (a : Nat) : lessLane a = a - 12000 := by
  unfold lessLane Config.laneUnits
  split <;> omega

theorem available_loseLane (s : State) (n : Nat) (v : LaneState) :
    (s.loseLane n v).available = s.available - 12000 := by
  rw [← lessLane_eq]; simp [loseLane]

theorem available_regainLane (s : State) (n : Nat) : (s.regainLane n).available = s.available + 12000 := by
  simp [regainLane, Config.laneUnits]

theorem lane_loseLane (s : State) (n m : Nat) (v : LaneState) :
    (s.loseLane n v).lane m = if m = n then { s.lane n with state := v } else s.lane m := by
  have h : (s.loseLane n v).lanes = (s.setLaneState n v).lanes := by simp [loseLane]
  rw [lane_congr h]; exact lane_setLane _ _ _ _

theorem lane_regainLane (s : State) (n m : Nat) :
    (s.regainLane n).lane m = if m = n then { s.lane n with state := .inService } else s.lane m := by
  have h : (s.regainLane n).lanes = (s.setLaneState n .inService).lanes := by simp [regainLane]
  rw [lane_congr h]; exact lane_setLane _ _ _ _

theorem port_loseLane (s : State) (n : Nat) (v : LaneState) (p : Port) :
    (s.loseLane n v).port p = { s.port p with conds := (s.port p).conds.add .laneOut } := by
  unfold loseLane
  rw [port_raiseBoth, port_congr (t := s) (by simp)]

theorem port_regainLane (s : State) (n : Nat) (p : Port) :
    (s.regainLane n).port p = { s.port p with conds := (s.port p).conds.add .laneBack } := by
  unfold regainLane
  rw [port_raiseBoth, port_congr (t := s) (by simp)]

/-- A fault that finds the capture record empty fills it and raises FAULT_CAPTURED at both ports (R75). -/
theorem captureFault_empty (s : State) (k : FaultKind) (n : Nat) (h : s.capture.record = none) :
    (s.captureFault k n).capture = ⟨some ⟨k, n, s.handAt n, s.timer.period⟩, false⟩ ∧
      ∀ p, (s.captureFault k n).port p = { s.port p with conds := (s.port p).conds.add .faultCaptured } := by
  unfold captureFault
  rw [h]
  refine ⟨by simp, fun p => ?_⟩
  rw [port_raiseBoth, port_congr (t := s) (by simp)]

/-- A fault that finds it filled sets further (R75). -/
theorem captureFault_filled (s : State) (k : FaultKind) (n : Nat) (r : FaultRecord) (h : s.capture.record = some r) :
    s.captureFault k n = s.setCapture ⟨some r, true⟩ := by simp [captureFault, h]

/-! ### The shedding pass (R65) -/

theorem foldl_shedOne (l : List Nat) (w : Walk) (h : w.after.overCommitted = false) : l.foldl shedOne w = w := by
  induction l with
  | nil => rfl
  | cons i l ih => rw [List.foldl_cons, show shedOne w i = w by simp [shedOne, h], ih]

theorem foldl_shedTwo (l : List Nat) (w : Walk) (h : w.after.overCommitted = false) : l.foldl shedTwo w = w := by
  induction l with
  | nil => rfl
  | cons i l ih => rw [List.foldl_cons, show shedTwo w i = w by simp [shedTwo, h], ih]

/-- A pass in a state whose reserved units fit does nothing. -/
theorem sheddingPass_fits (s : State) (h : s.overCommitted = false) : sheddingPass s = ⟨0, 0, s⟩ := by
  have h1 : s.sheddingOrder.foldl shedOne ⟨0, s⟩ = ⟨0, s⟩ := foldl_shedOne _ _ h
  have h2 : s.sheddingOrder.foldl shedTwo ⟨0, s⟩ = ⟨0, s⟩ := foldl_shedTwo _ _ h
  simp only [sheddingPass, h1, h2]

/-! ### Boundary claims (R82) -/

theorem boundaryClaim_eq (s : State) (i : Nat) (h : s.claimDue i = true) :
    s.boundaryClaim i = (s.claimBody i).markClaimed i := by simp [boundaryClaim, h]

theorem boundaryClaim_not_due (s : State) (i : Nat) (h : s.claimDue i = false) : s.boundaryClaim i = s := by
  simp [boundaryClaim, h]

theorem claimDue_markClaimed (s : State) (i : Nat) : (s.markClaimed i).claimDue i = false := by
  have : ((s.markClaimed i).timer.claimed).get claimDefault i = true :=
    (Tab.get_set claimDefault s.timer.claimed i i true).trans (if_pos rfl)
  simp [claimDue, this]

theorem foldl_boundaryClaim (l : List Nat) (s : State) (h : s.timer.owed = false) : l.foldl boundaryClaim s = s := by
  induction l with
  | nil => rfl
  | cons i l ih => rw [List.foldl_cons, boundaryClaim_not_due s i (by simp [claimDue, h]), ih]

/-- With no claim outstanding the next mark finds nothing to settle. -/
theorem settleBoundary_nothing (s : State) (h : s.timer.owed = false) (hp : s.timer.portDue = ⟨false, false⟩) :
    s.settleBoundary = s.setTimer { s.timer with owed := false, claimed := [] } := by
  have hd : ∀ p, s.portDue p = false := fun p => by cases p <;> simp [portDue, hp, PerPort.get]
  have hb : ∀ p, s.portBoundary p = s := fun p => by simp [portBoundary, hd]
  simp only [settleBoundary, hb, foldl_boundaryClaim _ s h]

/-! ### The counts of a boundary claim (R84, R141, R143) -/

/-- In ARMED, with no handover and at least two boundaries of the first-cell wait left, the wait steps alone. -/
theorem stepCounts_armed (s : State) (i n : Nat) (hs : (s.ctx i).state = .armed) (hh : (s.ctx i).handover = none)
    (hf : (s.ctx i).firstRemaining = some n) (hn : 2 ≤ n) :
    s.stepCounts i = s.modCtx i fun c => { c with firstRemaining := some (n - 1) } := by
  unfold stepCounts
  rw [hs]
  simp only [stepHandover_none s i hh, stepFirst, hf]
  rw [if_neg (by omega)]

theorem quiet_silence (c : Ctx) (h : c.silence + 1 < c.silenceLimit) : c.staleNext = false ∧ c.silenceCloses = false := by
  have h1 : c.silenceNext < c.silenceLimit := by unfold Ctx.silenceNext; omega
  constructor
  · simp [Ctx.staleNext, Nat.not_le.mpr h1]
  · have : ¬ 2 * c.silenceLimit ≤ c.silenceNext := by omega
    simp [Ctx.silenceCloses, this]

/-- In ACTIVE, with no handover and the silence below its limit, the silence steps alone. -/
theorem stepCounts_active (s : State) (i : Nat) (hs : (s.ctx i).state = .active) (hh : (s.ctx i).handover = none)
    (h : (s.ctx i).silence + 1 < (s.ctx i).silenceLimit) :
    s.stepCounts i = s.modCtx i fun c => { c with silence := c.silenceNext } := by
  obtain ⟨h1, h2⟩ := quiet_silence _ h
  unfold stepCounts
  rw [hs]
  simp only [stepHandover_none s i hh, stepSilence, h2, Bool.false_eq_true, if_false]
  unfold stepStale
  rw [h1]
  simp only [raiseIf, Bool.false_eq_true, if_false, modCtx]
  rw [h1, Bool.or_false]

/-! ### The start of a work (R85) -/

theorem ctx_playReady (s : State) (i j : Nat) :
    (s.playReady i).ctx j = if j = i then { s.ctx i with ready := none } else s.ctx j := by
  unfold playReady
  rw [ctx_modCtx, ctx_congr (playBlock_ctxs ..), ctx_congr (playBlock_ctxs ..)]

theorem block_playReady (s : State) (i : Nat) (b : SlotBinding) (h : (s.ctx i).slot = some b) (n : Nat) :
    (s.playReady i).block n = if n = b.slot then { s.block n with outbound := (s.ctx i).ready } else s.block n := by
  unfold playReady playBlock
  simp only [h]
  rw [modCtx_block, block_setBlock]
  by_cases hn : n = b.slot <;> simp [hn]

theorem ctx_stepSinceRate (s : State) (i j : Nat) :
    (s.stepSinceRate i).ctx j =
      if j = i then { s.ctx i with sinceRate := min 65535 ((s.ctx i).sinceRate + 1) } else s.ctx j :=
  ctx_modCtx _ _ _ _

theorem ctx_countConceal (s : State) (i j : Nat) (u : Uplink) :
    (s.countConceal i u).ctx j =
      if j = i ∧ u = .conceal then
        { s.ctx i with
          counters := { (s.ctx i).counters with concealed := (s.ctx i).counters.concealed + 1 } }
      else s.ctx j := by
  cases u <;> simp only [countConceal, reduceCtorEq, and_false, if_false, and_true]
  rw [ctx_congr (countFor_ctxs ..), ctx_modCtx]

/-- The record a work start leaves (R85, R100). -/
theorem ctx_startWork (s : State) (i j : Nat) :
    (s.startWork i).ctx j =
      if j = i then
        { (s.ctx i).uplinkStart.2 with
          work := some (s.newWork i (s.ctx i).uplinkStart.1)
          counters := if (s.ctx i).uplinkStart.1 = .conceal then
            { (s.ctx i).uplinkStart.2.counters with concealed := (s.ctx i).uplinkStart.2.counters.concealed + 1 }
            else (s.ctx i).uplinkStart.2.counters }
      else s.ctx j := by
  unfold startWork
  rw [ctx_congr (dropHanded_ctxs ..), ctx_countConceal]
  by_cases hj : j = i
  · subst hj
    by_cases hu : (s.ctx j).uplinkStart.1 = .conceal
    · simp [hu]
    · simp [hu]
  · simp [hj]

/-! ### The expiry of a handover as a claim before the claim (R130, R131) -/

/-- The table after one record is changed. -/
theorem ctxs_modCtx (s : State) (i : Nat) (f : Ctx → Ctx) :
    (s.modCtx i f).ctxs = s.ctxs.set ctxDefault i (f (s.ctx i)) := rfl

theorem ctxs_discardWork (s : State) (i : Nat) :
    (s.discardWork i).ctxs = s.ctxs.set ctxDefault i { s.ctx i with work := none } := by
  unfold discardWork
  rw [freeLanes_ctxs, ctxs_modCtx]

theorem ctxs_raise (s : State) (i : Nat) (k : Cond) :
    (s.raise i k).ctxs = s.ctxs.set ctxDefault i { s.ctx i with conds := (s.ctx i).conds.add k } := by
  unfold raise
  split
  · rw [ctxs_modCtx]; rfl
  · rw [ctxs_modCtx]

theorem ctxs_expireHandover (s : State) (i : Nat) (k : StreamKey) :
    (s.expireHandover i k).ctxs = s.ctxs.set ctxDefault i
      { s.ctx i with handover := none, conds := (s.ctx i).conds.add .handoverFailed } := by
  unfold expireHandover
  rw [countFor_ctxs, ctxs_raise, ctx_abandon]
  unfold abandon
  rw [ctxs_modCtx, removeStream_ctxs, ctx_congr (removeStream_ctxs ..), Tab.set_set]
  simp

/-- Freeing a context's lanes reads the lanes alone. -/
theorem lanes_freeLanes_congr (s t : State) (i : Nat) (h : s.lanes = t.lanes) :
    (s.freeLanes i).lanes = (t.freeLanes i).lanes := by
  have hl : ∀ (l : List Nat) (s t : State), s.lanes = t.lanes →
      (l.foldl (fun t n => t.freeLane i n) s).lanes = (l.foldl (fun t n => t.freeLane i n) t).lanes := by
    intro l
    induction l with
    | nil => exact fun s t h => h
    | cons n l ih =>
      intro s t h
      refine ih _ _ ?_
      have hn := lane_congr h n
      show (s.freeLane i n).lanes = (t.freeLane i n).lanes
      unfold freeLane
      rw [hn]
      split
      · show Tab.set _ s.lanes _ _ = Tab.set _ t.lanes _ _
        rw [h]
      · exact h
  exact hl _ _ _ h

/-- Removing a key reads the stream map alone. -/
theorem streamMap_removeStream_congr (s t : State) (k : StreamKey) (h : s.streamMap = t.streamMap) :
    (s.removeStream k).streamMap = (t.removeStream k).streamMap := by
  unfold removeStream
  rw [show s.findStream k = t.findStream k by unfold findStream; rw [h]]
  split
  · simp [setStreamEntry, h]
  · exact h

theorem streamMap_expireHandover (s : State) (i : Nat) (k : StreamKey) :
    (s.expireHandover i k).streamMap = (s.removeStream k).streamMap := by
  simp [expireHandover, abandon]

/-- A handover's expiry queues its context where the set was empty (R130, R167). -/
theorem attention_expireHandover (s : State) (i : Nat) (k : StreamKey) :
    (s.expireHandover i k).attention = if (s.ctx i).conds = 0 then
      s.attention.set (s.ctx i).owner (s.attention.get (s.ctx i).owner ++ [i]) else s.attention := by
  have h1 : (s.abandon i k).attention = s.attention := by simp [abandon]
  have h2 : (s.abandon i k).ctx i = { s.ctx i with handover := none } := by rw [ctx_abandon]; simp
  have h3 : (s.expireHandover i k).attention = ((s.abandon i k).raise i .handoverFailed).attention := by
    simp [expireHandover]
  rw [h3]
  unfold raise
  rw [h2]
  simp only
  by_cases hc : (s.ctx i).conds = 0
  · rw [if_pos hc, if_pos hc]
    show ((s.abandon i k).enqueue i).attention = _
    unfold enqueue setQueue queueOf
    rw [h2, h1]
  · rw [if_neg hc, if_neg hc]
    exact h1

/-- A handover's expiry counts one event for the handle as it stands (R130). -/
theorem tallies_expireHandover (s : State) (i : Nat) (k : StreamKey) :
    (s.expireHandover i k).tally0 = s.tally0.step .handoverFail (some ⟨i, (s.ctx i).gen⟩) ∧
    (s.expireHandover i k).tally1 = s.tally1.step .handoverFail (some ⟨i, (s.ctx i).gen⟩) := by
  have hg : (((s.abandon i k).raise i .handoverFailed).ctx i).gen = (s.ctx i).gen := by
    rw [ctx_raise]; simp [ctx_abandon]
  have h0 : ((s.abandon i k).raise i .handoverFailed).tally0 = s.tally0 := by simp [abandon]
  have h1 : ((s.abandon i k).raise i .handoverFailed).tally1 = s.tally1 := by simp [abandon]
  constructor
  · show ((s.abandon i k).raise i .handoverFailed).tally0.step .handoverFail (some ⟨i, _⟩) = _
    rw [h0, hg]
  · show ((s.abandon i k).raise i .handoverFailed).tally1.step .handoverFail (some ⟨i, _⟩) = _
    rw [h1, hg]

/-- A handover's expiry and the discard of the work touch different parts of the record. -/
theorem expireHandover_discardWork (s : State) (i : Nat) (k : StreamKey) :
    (s.discardWork i).expireHandover i k = (s.expireHandover i k).discardWork i := by
  have hc : (s.discardWork i).ctx i = { s.ctx i with work := none } := by rw [ctx_discardWork]; simp
  have hv : (s.expireHandover i k).ctx i =
      { s.ctx i with handover := none, conds := (s.ctx i).conds.add .handoverFailed } := by
    rw [ctx_expireHandover]; simp
  have hl : (s.discardWork i).lanes = (s.freeLanes i).lanes := by
    unfold discardWork; exact lanes_freeLanes_congr _ _ _ (by simp)
  apply eq_of_fields
  case h0 => rw [ctxs_expireHandover, ctxs_discardWork, ctxs_discardWork, ctxs_expireHandover, hc, hv, Tab.set_set, Tab.set_set]
  all_goals first | (simp; done) | skip
  · rw [streamMap_expireHandover, streamMap_removeStream_congr _ s k (by simp)]
    simp [streamMap_expireHandover]
  · rw [expireHandover_lanes, hl]
    unfold discardWork
    exact lanes_freeLanes_congr _ _ _ (by simp)
  · rw [attention_expireHandover, hc, discardWork_attention, discardWork_attention, attention_expireHandover]
  · rw [(tallies_expireHandover _ _ _).1, hc, discardWork_tally0, discardWork_tally0, (tallies_expireHandover _ _ _).1]
  · rw [(tallies_expireHandover _ _ _).2, hc, discardWork_tally1, discardWork_tally1, (tallies_expireHandover _ _ _).2]

/-- The boundary claim in which a handover deadline runs out is the boundary claim from the state in which that has been
taken (R130, R131). -/
theorem claimBody_expireHandover (s : State) (i : Nat) (h : Handover) (hh : (s.ctx i).handover = some h)
    (hr : h.remaining = 1) (hf : (s.ctx i).state ≠ .free) (hc : (s.ctx i).state ≠ .closed) :
    s.claimBody i = (s.expireHandover i h.key).claimBody i := by
  have hv : (s.expireHandover i h.key).ctx i =
      { s.ctx i with handover := none, conds := (s.ctx i).conds.add .handoverFailed } := by
    rw [ctx_expireHandover]; simp
  have hs : s.stepHandover i = s.expireHandover i h.key := by unfold stepHandover; rw [hh]; simp [hr]
  have hn : (s.expireHandover i h.key).stepHandover i = s.expireHandover i h.key :=
    stepHandover_none _ _ (by rw [hv])
  have hd : (s.discardWork i).ctx i = { s.ctx i with work := none } := by rw [ctx_discardWork]; simp
  have hsd : (s.discardWork i).stepHandover i = (s.expireHandover i h.key).discardWork i := by
    rw [← expireHandover_discardWork]
    unfold stepHandover
    rw [hd, hh]; simp [hr]
  have hdv : ((s.expireHandover i h.key).discardWork i).ctx i =
      { s.ctx i with handover := none, conds := (s.ctx i).conds.add .handoverFailed, work := none } := by
    rw [ctx_discardWork, if_pos rfl, hv]
  have hnd : ((s.expireHandover i h.key).discardWork i).stepHandover i = (s.expireHandover i h.key).discardWork i :=
    stepHandover_none _ _ (by rw [hdv])
  have hst : (s.ctx i).state = .armed ∨ (s.ctx i).state = .active →
      (s.discardWork i).stepCounts i = ((s.expireHandover i h.key).discardWork i).stepCounts i := by
    intro hst
    unfold stepCounts
    rw [hd, hdv, hsd, hnd]
    rcases hst with h1 | h1 <;> simp [h1]
  unfold claimBody
  rw [hv, hs, hn]
  cases h1 : (s.ctx i).state with
  | free => exact absurd h1 hf
  | closed => exact absurd h1 hc
  | opened => rfl
  | held => rfl
  | armed => simp only [hst (Or.inl h1)]
  | active => simp only [hst (Or.inr h1)]

/-! ### Inbound blocks (R26) -/

theorem block_collectAt (rx : List (Nat × Byte)) (s : State) (a n : Nat) :
    (collectAt rx s a).block n = if n = a then
      { s.block a with inbound := (s.block a).inbound.map (· ++ [receivedAt s.freeCount rx a]) }
    else s.block n := by
  unfold collectAt
  by_cases hn : n = a
  · subst hn
    cases h : s.block n with
    | mk inbound handed outbound => cases inbound <;> simp [h]
  · split <;> simp [hn]

theorem freeCount_collectAt (rx : List (Nat × Byte)) (s : State) (a : Nat) :
    (collectAt rx s a).freeCount = s.freeCount := by unfold collectAt; split <;> rfl

/-- Every slot of the list takes one code where it collects; no other slot changes. -/
theorem block_foldl_collectAt (rx : List (Nat × Byte)) (l : List Nat) (hl : l.Nodup) (s : State) (n : Nat) :
    (l.foldl (collectAt rx) s).block n = if n ∈ l then
      { s.block n with inbound := (s.block n).inbound.map (· ++ [receivedAt s.freeCount rx n]) }
    else s.block n := by
  induction l generalizing s with
  | nil => simp
  | cons a l ih =>
    obtain ⟨ha, hl⟩ := List.nodup_cons.mp hl
    rw [List.foldl_cons, ih hl, freeCount_collectAt, block_collectAt]
    by_cases hn : n = a
    · subst hn; simp [ha]
    · simp [hn]

end State

/-! ### The playout queue (R96, R97) -/

theorem mem_insertEntry (e : Seq16) (x y : QEntry) (l : List QEntry) :
    y ∈ insertEntry e x l ↔ y ∈ l ∨ y = x := by
  induction l with
  | nil => simp [insertEntry]
  | cons z t ih =>
    unfold insertEntry
    split
    · simp only [List.mem_cons]; tauto
    · simp only [List.mem_cons, ih]; tauto

/-- An entry at a distance no other has keeps the queue in strictly ascending distance. -/
theorem pairwise_insertEntry (e : Seq16) (x : QEntry) (l : List QEntry)
    (hx : ∀ y ∈ l, (y.seq - e).toNat ≠ (x.seq - e).toNat)
    (h : l.Pairwise fun y z => (y.seq - e).toNat < (z.seq - e).toNat) :
    (insertEntry e x l).Pairwise fun y z => (y.seq - e).toNat < (z.seq - e).toNat := by
  induction l with
  | nil => simp [insertEntry]
  | cons z t ih =>
    obtain ⟨hz, ht⟩ := List.pairwise_cons.mp h
    have hne := hx z (List.mem_cons_self ..)
    unfold insertEntry
    split
    · next hlt =>
      refine List.pairwise_cons.mpr ⟨fun y hy => ?_, h⟩
      rcases List.mem_cons.mp hy with rfl | hy
      · exact hlt
      · exact hlt.trans (hz y hy)
    · next hge =>
      refine List.pairwise_cons.mpr ⟨fun y hy => ?_, ih (fun y hy => hx y (List.mem_cons_of_mem _ hy)) ht⟩
      rcases (mem_insertEntry e x y t).mp hy with hy | rfl
      · exact hz y hy
      · omega

end Sys2Proof.Machine
end

