-- ==== Sys2Proof/Laws/Counts.lean ====
section
/-! SUPPORT. The events each operation counts in the two tallies (R181): one lemma per operation, each with the context's
generation kept, so that they chain. -/

namespace Sys2Proof.Machine

/-- `Counted`, with the generation of the context kept: what a chain of operations passes on. -/
structure Tallied (s t : State) (i : Nat) (events : List Event) : Prop where
  counted : Counted s t i events
  gen : (t.ctx i).gen = (s.ctx i).gen

/-- An operation that leaves both tallies and the generation counts nothing. -/
theorem Tallied.same {s t : State} {i : Nat} (h0 : t.tally0 = s.tally0) (h1 : t.tally1 = s.tally1)
    (hg : (t.ctx i).gen = (s.ctx i).gen) : Tallied s t i [] := ⟨⟨h0, h1⟩, hg⟩

theorem Tallied.trans {s t u : State} {i : Nat} {l l' : List Event} (h : Tallied s t i l) (h' : Tallied t u i l') :
    Tallied s u i (l ++ l') := by
  obtain ⟨⟨h0, h1⟩, hg⟩ := h
  obtain ⟨⟨h0', h1'⟩, hg'⟩ := h'
  refine ⟨⟨?_, ?_⟩, hg'.trans hg⟩
  · rw [List.foldl_append, ← h0, h0', hg]
  · rw [List.foldl_append, ← h1, h1', hg]

theorem Tallied.to {s t : State} {i : Nat} {l l' : List Event} (h : Tallied s t i l) (e : l = l') : Tallied s t i l' :=
  e ▸ h

namespace State

theorem tallied_countFor (s : State) (k : Event) (i : Nat) : Tallied s (s.countFor k i) i [k] := ⟨⟨rfl, rfl⟩, rfl⟩

theorem tallied_countIf (s : State) (b : Bool) (k : Event) (i : Nat) :
    Tallied s (s.countIf b k i) i (if b then [k] else []) := by
  cases b
  · exact .same rfl rfl rfl
  · exact tallied_countFor s k i

/-- A record changed without its generation counts nothing. -/
theorem tallied_modCtx (s : State) (i : Nat) (f : Ctx → Ctx) (h : (f (s.ctx i)).gen = (s.ctx i).gen) :
    Tallied s (s.modCtx i f) i [] := .same rfl rfl (by rw [ctx_modCtx, if_pos rfl, h])

theorem tallied_raise (s : State) (i j : Nat) (k : Cond) : Tallied s (s.raise j k) i [] :=
  .same (by simp) (by simp) (by rw [ctx_raise]; split <;> simp_all)

theorem tallied_raiseIf (s : State) (b : Bool) (i : Nat) (k : Cond) : Tallied s (s.raiseIf b i k) i [] := by
  cases b
  · exact .same rfl rfl rfl
  · exact tallied_raise s i i k

theorem tallied_takeRequest (s : State) (i field : Nat) : Tallied s (s.takeRequest i field) i [] := by
  unfold takeRequest
  split
  · exact .same rfl rfl rfl
  · split
    · exact tallied_modCtx _ _ _ rfl
    · exact .same rfl rfl rfl

/-! ### Cells (R97 to R99) -/

/-- Whether a cell is bad rests on the context's profile alone (R40). -/
theorem badCell_congr {s t : State} (i : Nat) (c : InCell) (h : (t.ctx i).profile = (s.ctx i).profile)
    (hp : t.profiles = s.profiles) : t.badCell i c = s.badCell i c := by
  unfold badCell rateEntry profileOf contents
  rw [h]
  simp only [profile_congr hp]

/-- The record of an accepted cell's context (R97, R99). -/
theorem ctx_acceptCounts (s : State) (i j : Nat) (bad : Bool) :
    (s.acceptCounts i bad).ctx j =
      if j = i then { s.ctx i with counters := (s.ctx i).counters.accept bad } else s.ctx j := by
  unfold acceptCounts
  rw [ctx_congr (countIf_ctxs ..), ctx_congr (countFor_ctxs ..), ctx_modCtx]

/-- A request taken changes the pending request alone (R106). -/
theorem ctx_takeRequest (s : State) (i f j : Nat) :
    (s.takeRequest i f).ctx j =
      if j = i then { s.ctx i with request := ((s.takeRequest i f).ctx i).request } else s.ctx j := by
  unfold takeRequest
  by_cases hj : j = i
  · subst hj
    split
    · simp
    · split <;> simp
  · simp only [hj, if_false]
    split
    · rfl
    · split
      · simp [hj]
      · rfl

theorem tallied_acceptCounts (s : State) (i : Nat) (bad : Bool) :
    Tallied s (s.acceptCounts i bad) i (.cellIn :: if bad then [.cellBad] else []) :=
  ((tallied_modCtx s i _ rfl).trans (tallied_countFor _ .cellIn i)).trans (tallied_countIf _ bad .cellBad i)

/-- The record of a first arrival's context (R98). -/
theorem ctx_firstArrival (s : State) (i : Nat) (c : InCell) :
    (s.firstArrival i c).ctx i = { (s.ctx i).startQueue (c.entry (s.badCell i c)) with
      counters := (s.ctx i).counters.accept (s.badCell i c), request := ((s.firstArrival i c).ctx i).request } := by
  unfold firstArrival
  rw [ctx_takeRequest, if_pos rfl, ctx_acceptCounts, if_pos rfl, ctx_modCtx, if_pos rfl]
  rfl

theorem tallied_firstArrival (s : State) (i : Nat) (c : InCell) :
    Tallied s (s.firstArrival i c) i (.cellIn :: if s.badCell i c then [.cellBad] else []) :=
  (((tallied_modCtx s i (fun x => x.startQueue (c.entry (s.badCell i c))) rfl).trans
    (tallied_acceptCounts _ i (s.badCell i c))).trans (tallied_takeRequest _ i c.request)).to (by simp)

theorem tallied_insertCell (s : State) (i : Nat) (e : Seq16) (c : InCell) :
    Tallied s (s.insertCell i e c) i (.cellIn :: if s.badCell i c then [.cellBad] else []) :=
  (((tallied_modCtx s i
    (fun x => { x with queue := insertEntry e (c.entry (s.badCell i c)) x.queue }) rfl).trans
      (tallied_acceptCounts _ i (s.badCell i c))).trans (tallied_takeRequest _ i c.request)).to (by simp)

theorem tallied_resync (s : State) (i : Nat) (c : InCell) :
    Tallied s (s.resync i c) i (.cellIn :: (if s.badCell i c then [.cellBad] else []) ++ [.cellResync]) :=
  ((((tallied_modCtx s i
    (fun x => { x.startQueue (c.entry (s.badCell i c)) with
      counters := { x.counters with resync := x.counters.resync + 1 } }) rfl).trans
      (tallied_acceptCounts _ i (s.badCell i c))).trans (tallied_countFor _ .cellResync i)).trans
        (tallied_takeRequest _ i c.request)).to (by simp)

theorem tallied_dropDuplicate (s : State) (i : Nat) : Tallied s (s.dropDuplicate i) i [.cellDup] :=
  (tallied_modCtx s i _ rfl).trans (tallied_countFor _ .cellDup i)

theorem tallied_dropLate (s : State) (i : Nat) : Tallied s (s.dropLate i) i [.cellLate] :=
  (tallied_modCtx s i _ rfl).trans (tallied_countFor _ .cellLate i)

/-! ### The start of a work (R85, R100) -/

theorem tallied_countConceal (s : State) (i : Nat) (u : Uplink) :
    Tallied s (s.countConceal i u) i (if u = .conceal then [.conceal] else []) := by
  cases u
  case conceal => exact (tallied_modCtx s i _ rfl).trans (tallied_countFor _ .conceal i)
  all_goals exact .same rfl rfl rfl

theorem gen_playHead (c : Ctx) (e : Seq16) : (playHead c e).2.gen = c.gen := by
  unfold playHead
  split
  · split
    · unfold consume
      split <;> try rfl
      split <;> rfl
    · rfl
  · rfl

theorem gen_uplinkStart (c : Ctx) : c.uplinkStart.2.gen = c.gen := by
  unfold Ctx.uplinkStart selectUplink
  repeat' split
  all_goals first | rfl | exact gen_playHead _ _

/-- A work start counts CONCEAL where it conceals, and nothing else. -/
theorem tallied_startWork (s : State) (i : Nat) :
    Tallied s (s.startWork i) i (if (s.ctx i).uplinkStart.1 = .conceal then [.conceal] else []) := by
  have h1 : Tallied s (s.setCtx i { (s.ctx i).uplinkStart.2 with work := some (s.newWork i (s.ctx i).uplinkStart.1) }) i [] :=
    .same rfl rfl (by rw [ctx_setCtx, if_pos rfl]; exact gen_uplinkStart _)
  have h2 := h1.trans (tallied_countConceal _ i (s.ctx i).uplinkStart.1)
  have h3 := h2.trans (.same (dropHanded_tally0 ..) (dropHanded_tally1 ..) (by rw [ctx_congr (dropHanded_ctxs _ i)]))
  exact h3.to (by simp)

/-! ### Settling and expiry (R111, R112, R130) -/

theorem tallied_applyRate (s : State) (i r : Nat) : Tallied s (s.applyRate i r) i [.rateChange] := by
  have h1 : Tallied s (s.setReserved (s.reserved + s.costOf i r - s.currentCost i)) i [] := .same rfl rfl rfl
  have h2 := (h1.trans (tallied_modCtx _ i (fun c => { c with rate := some r, sinceRate := 0 }) rfl)).trans
    (tallied_countFor _ .rateChange i)
  exact (h2.trans (tallied_modCtx _ i (fun c => { c with request := none }) rfl)).trans (tallied_raise _ i i .rateChanged)

/-- A raise that nothing fits counts ADMIT_REFUSED (R111). -/
theorem tallied_refuseRaise (s : State) (i : Nat) :
    Tallied s (((s.dropRequest i).raise i .rateRefused).countFor .admitRefused i) i [.admitRefused] :=
  ((tallied_modCtx s i (fun c => { c with request := none }) rfl).trans (tallied_raise _ i i .rateRefused)).trans
    (tallied_countFor _ .admitRefused i)

/-- The events of a settling: none at the current rate, RATE_CHANGE where a rate is applied, ADMIT_REFUSED where a raise
finds nothing that fits (R110 to R112). -/
theorem tallied_settleRate (s : State) (i current r : Nat) :
    Tallied s (s.settleRate i current r) i
      (if r = current then [] else if r < current ∨ (s.affordable i current r).isSome then [.rateChange]
        else [.admitRefused]) := by
  unfold settleRate settleRaise
  by_cases h : r = current
  · rw [if_pos h, if_pos h]
    exact tallied_modCtx _ _ _ rfl
  · rw [if_neg h, if_neg h]
    by_cases hl : r < current
    · rw [if_pos hl, if_pos (Or.inl hl)]
      exact tallied_applyRate _ _ _
    · rw [if_neg hl]
      cases ha : s.affordable i current r with
      | some x => exact (tallied_applyRate s i x).to (by simp)
      | none => exact (tallied_refuseRaise s i).to (by simp [hl])

theorem tallied_expireHandover (s : State) (i : Nat) (k : StreamKey) :
    Tallied s (s.expireHandover i k) i [.handoverFail] :=
  ⟨tallies_expireHandover s i k, by rw [ctx_expireHandover, if_pos rfl]⟩

/-! ### Completion (R86) -/

theorem tallied_sendCell (s : State) (i : Nat) (w : Work) (payload : List Byte) (k : StreamKey) :
    Tallied s (s.sendCell i w payload k) i [.cellOut] := ⟨⟨rfl, rfl⟩, rfl⟩

theorem tallied_sendCellOpt (s : State) (i : Nat) (w : Work) (payload : List Byte) (k : Option StreamKey) :
    Tallied s (s.sendCell? i w payload k) i (if k.isSome then [.cellOut] else []) := by
  cases k
  · exact .same rfl rfl rfl
  · exact tallied_sendCell ..

theorem tallied_reportClip (s : State) (i : Nat) (w : Work) (clipped : Bool) :
    Tallied s (s.reportClip i w clipped) i (if clipped then [.clipPeriod] else []) := by
  cases clipped
  · exact .same rfl rfl rfl
  · exact (tallied_countFor s .clipPeriod i).trans (tallied_raiseIf _ _ i .clipping)

/-- A completion counts CELL_OUT for each cell sent, then CLIP_PERIOD for a clipping work (R86). -/
theorem tallied_complete (s : State) (n i : Nat) (w : Work) :
    Tallied s (s.complete n i w) i ((if w.primary.isSome then [.cellOut] else []) ++
      (if w.bicast.isSome then [.cellOut] else []) ++ if w.clipping s.freeCount then [.clipPeriod] else []) := by
  have h0 : Tallied s (s.setLane n { s.lane n with inHand := none }) i [] := .same rfl rfl rfl
  have h1 := (h0.trans (tallied_sendCellOpt _ i w (w.payload (s.ctx i).law s.freeCount) w.primary)).trans
    (tallied_sendCellOpt _ i w (w.payload (s.ctx i).law s.freeCount) w.bicast)
  have h2 := (h1.trans (tallied_modCtx _ i (fun c => c.completed w s.freeCount) rfl)).trans
    (tallied_reportClip _ i w (w.clipping s.freeCount))
  have h3 := h2.trans (.same (t := s.complete n i w) rfl rfl rfl)
  exact h3.to (by simp)

end State

end Sys2Proof.Machine
end

