-- ==== Sys2Proof/Laws/Claims.lean ====
section
/-! SUPPORT. The boundary claim of a converting context that goes on converting, up to the settling of its request and the
start of its work: what the state `beforeSettling` holds (R84, R141, R143). -/

namespace Sys2Proof.Machine

/-- The boundary claim does not end the conversion of the context: its first-cell wait goes on, or its silence does not close it. -/
def Ctx.GoesOn (c : Ctx) : Prop :=
  c.state = .armed ∧ (∃ n, c.firstRemaining = some n ∧ 2 ≤ n) ∨ c.state = .active ∧ c.silenceCloses = false

/-- The record once the counts are stepped (R141, R143). -/
def Ctx.countsStepped (c : Ctx) : Ctx :=
  { c with
    firstRemaining := if c.state = .armed then c.firstRemaining.map (· - 1) else c.firstRemaining
    silence := if c.state = .active then c.silenceNext else c.silence
    staleRaised := c.staleRaised || (decide (c.state = .active) && c.staleNext)
    conds := if c.state = .active ∧ c.staleNext = true then c.conds.add .stale else c.conds }

namespace State

/-- The state of a boundary claim in which the pending request is settled: the work discarded, the counts stepped, the
ready block played, the periods since rate change stepped (R84, steps 1 to 3). -/
def beforeSettling (s : State) (i : Nat) : State := (((s.discardWork i).stepCounts i).playReady i).stepSinceRate i

theorem ctx_stepStale (s : State) (i j : Nat) :
    (s.stepStale i).ctx j = if j = i then
      { s.ctx i with
        silence := (s.ctx i).silenceNext
        staleRaised := (s.ctx i).staleRaised || (s.ctx i).staleNext
        conds := if (s.ctx i).staleNext = true then (s.ctx i).conds.add .stale else (s.ctx i).conds }
    else s.ctx j := by
  unfold stepStale
  rw [ctx_raiseIf, ctx_modCtx, ctx_modCtx, if_pos rfl]
  by_cases hj : j = i
  · cases h : (s.ctx i).staleNext <;> simp [hj]
  · simp [hj]

theorem ctx_stepCounts (s : State) (i j : Nat) (hh : (s.ctx i).handover = none) (hs : (s.ctx i).GoesOn) :
    (s.stepCounts i).ctx j = if j = i then (s.ctx i).countsStepped else s.ctx j := by
  unfold stepCounts Ctx.countsStepped
  rcases hs with ⟨h1, n, h2, h3⟩ | ⟨h1, h2⟩
  · rw [h1]
    simp only [stepHandover_none s i hh, stepFirst, h2]
    rw [if_neg (by omega), ctx_modCtx]
    by_cases hj : j = i <;> simp [hj, h1]
  · rw [h1]
    simp only [stepHandover_none s i hh, stepSilence, h2, Bool.false_eq_true, if_false]
    rw [ctx_stepStale]
    by_cases hj : j = i <;> simp [hj, h1]

theorem tallied_stepCounts (s : State) (i : Nat) (hh : (s.ctx i).handover = none) (hs : (s.ctx i).GoesOn) :
    Tallied s (s.stepCounts i) i [] := by
  refine .same ?_ ?_ (by rw [ctx_stepCounts s i i hh hs, if_pos rfl]; rfl) <;>
    unfold stepCounts <;> rcases hs with ⟨h1, n, h2, h3⟩ | ⟨h1, h2⟩ <;> rw [h1] <;>
    simp only [stepHandover_none s i hh, stepFirst, stepSilence, h2, Bool.false_eq_true, if_false]
  · rw [if_neg (by omega)]; rfl
  · simp [stepStale]
  · rw [if_neg (by omega)]; rfl
  · simp [stepStale]

theorem goesOn_discardWork {s : State} {i : Nat} (hs : (s.ctx i).GoesOn) : ((s.discardWork i).ctx i).GoesOn := by
  rw [ctx_discardWork, if_pos rfl]; exact hs

/-- The claim of a context that goes on converting: its request is settled in `beforeSettling`, and its work starts. -/
theorem claimBody_goesOn (s : State) (i : Nat) (hh : (s.ctx i).handover = none) (hs : (s.ctx i).GoesOn) :
    s.claimBody i = ((s.beforeSettling i).settle i).startWork i := by
  have hd : (s.discardWork i).ctx i = { s.ctx i with work := none } := by rw [ctx_discardWork, if_pos rfl]
  have hst : (s.ctx i).state = .armed ∨ (s.ctx i).state = .active := by
    rcases hs with h | h <;> simp [h.1]
  have hc : (((s.discardWork i).stepCounts i).ctx i).converting = true := by
    rw [ctx_stepCounts _ i i (by rw [hd]; exact hh) (goesOn_discardWork hs), if_pos rfl, hd]
    rcases hst with h | h <;> simp [Ctx.countsStepped, Ctx.converting, h]
  have hb : s.claimBody i = ((s.discardWork i).stepCounts i).continueClaim i := by
    unfold claimBody
    rcases hst with h | h <;> rw [h]
  rw [hb]
  unfold continueClaim
  rw [if_pos hc]
  rfl

/-- The record in which the request is settled. -/
theorem ctx_beforeSettling (s : State) (i j : Nat) (hh : (s.ctx i).handover = none) (hs : (s.ctx i).GoesOn) :
    (s.beforeSettling i).ctx j = if j = i then
      { (s.ctx i).countsStepped with
        work := none, ready := none, sinceRate := min 65535 ((s.ctx i).sinceRate + 1) }
    else s.ctx j := by
  have hd : (s.discardWork i).ctx i = { s.ctx i with work := none } := by rw [ctx_discardWork, if_pos rfl]
  unfold beforeSettling
  rw [ctx_stepSinceRate, ctx_playReady, ctx_playReady, ctx_stepCounts _ i i (by rw [hd]; exact hh) (goesOn_discardWork hs),
    ctx_stepCounts _ i j (by rw [hd]; exact hh) (goesOn_discardWork hs), hd, ctx_discardWork]
  by_cases hj : j = i <;> simp [hj, Ctx.countsStepped, Ctx.staleNext, Ctx.silenceNext]

/-- Nothing is counted before the settling. -/
theorem tallied_beforeSettling (s : State) (i : Nat) (hh : (s.ctx i).handover = none) (hs : (s.ctx i).GoesOn) :
    Tallied s (s.beforeSettling i) i [] := by
  have hd : (s.discardWork i).ctx i = { s.ctx i with work := none } := by rw [ctx_discardWork, if_pos rfl]
  have h0 : Tallied s (s.discardWork i) i [] := .same (by simp) (by simp) (by rw [hd])
  have h1 := h0.trans (tallied_stepCounts (s.discardWork i) i (by rw [hd]; exact hh) (goesOn_discardWork hs))
  have h2 : ∀ v : State, Tallied v ((v.playReady i).stepSinceRate i) i [] := fun v =>
    .same (by simp) (by simp) (by rw [ctx_stepSinceRate, if_pos rfl, ctx_playReady, if_pos rfl])
  exact h1.trans (h2 _)

/-- A claim without a request counts CONCEAL where its work conceals, and nothing else. -/
theorem tallied_claimBody_quiet (s : State) (i : Nat) (hh : (s.ctx i).handover = none) (hs : (s.ctx i).GoesOn)
    (hr : (s.ctx i).request = none) :
    ∃ w, ((s.claimBody i).ctx i).work = some w ∧
      Tallied s (s.claimBody i) i (if w.uplink = .conceal then [.conceal] else []) := by
  have he : (s.beforeSettling i).settle i = s.beforeSettling i :=
    settle_none _ _ (by rw [ctx_beforeSettling s i i hh hs, if_pos rfl]; exact hr)
  rw [claimBody_goesOn s i hh hs, he]
  generalize hv : s.beforeSettling i = v
  have h0 : Tallied s v i [] := hv ▸ tallied_beforeSettling s i hh hs
  refine ⟨v.newWork i (v.ctx i).uplinkStart.1, by rw [ctx_startWork, if_pos rfl], ?_⟩
  exact (h0.trans (tallied_startWork v i)).to (List.nil_append _)

/-- What the work start keeps of a record: all but the playout queue's part and the kernel's. -/
theorem uplinkStart_keeps (c : Ctx) : c.uplinkStart.2 = { c with
    queue := c.uplinkStart.2.queue, expected := c.uplinkStart.2.expected, priming := c.uplinkStart.2.priming,
    noise := c.uplinkStart.2.noise, history := c.uplinkStart.2.history } := by
  unfold Ctx.uplinkStart selectUplink playHead consume
  repeat' split
  all_goals rfl

end State

end Sys2Proof.Machine
end

