-- ==== Sys2Proof/Laws/Companding.lean ====
section
/-! SUPPORT. What scaling by a gain and the two companding laws do (R89, R91, R92, R93): one lemma per operation. -/

namespace Sys2Proof.Machine

/-! ### Gains -/

/-- `climb` finds the greatest number of its range at which `ok`, which never turns true again, holds. -/
theorem climb_spec (ok : Nat → Bool) (h : ∀ a b, a ≤ b → ok b = true → ok a = true) (b n : Nat) :
    n ≤ climb ok b n ∧ climb ok b n < n + 2 ^ b ∧ (climb ok b n = n ∨ ok (climb ok b n) = true) ∧
      ∀ j, climb ok b n < j → j < n + 2 ^ b → ok j = false := by
  induction b generalizing n with
  | zero => exact ⟨Nat.le_refl _, by simp [climb], Or.inl rfl, fun j h1 h2 => by simp [climb] at h1 h2; omega⟩
  | succ b ih =>
    simp only [climb]
    have hp : 2 ^ (b + 1) = 2 ^ b + 2 ^ b := by rw [pow_succ]; omega
    cases e : ok (n + 2 ^ b) with
    | true =>
      simp only [if_true]
      obtain ⟨h1, h2, h3, h4⟩ := ih (n + 2 ^ b)
      refine ⟨by omega, by omega, Or.inr ?_, fun j a b => h4 j a (by omega)⟩
      rcases h3 with h3 | h3
      · rw [h3]; exact e
      · exact h3
    | false =>
      simp only [Bool.false_eq_true, if_false]
      obtain ⟨h1, h2, h3, h4⟩ := ih n
      refine ⟨h1, by omega, h3, fun j a c => ?_⟩
      by_cases hj : j < n + 2 ^ b
      · exact h4 j a hj
      · cases hk : ok j with
        | false => rfl
        | true => rw [h _ _ (by omega) hk] at e; cases e

/-- The test of `scaleMagnitude`, in the reals. -/
theorem scaledAtLeast_iff (g : Int) (k n : Nat) (hn : 1 ≤ n) :
    scaledAtLeast g k n = true ↔ (n : ℝ) - 1 / 2 ≤ k * (10 : ℝ) ^ ((g : ℝ) / 20) := by
  set r : ℝ := (10 : ℝ) ^ ((g : ℝ) / 20) with hr
  have hr0 : 0 < r := Real.rpow_pos_of_pos (by norm_num) _
  have hr20 : r ^ 20 = (10 : ℝ) ^ (g : ℤ) := by
    rw [hr, ← Real.rpow_natCast, ← Real.rpow_mul (by norm_num), ← Real.rpow_intCast]
    congr 1; push_cast; ring
  have hg : (10 : ℝ) ^ (g : ℤ) * (10 : ℝ) ^ ((-g).toNat) = (10 : ℝ) ^ (g.toNat) := by
    have : (g.toNat : ℤ) = g + ((-g).toNat : ℤ) := by omega
    rw [← zpow_natCast, ← zpow_natCast, ← zpow_add₀ (by norm_num), this]
  have hp : (0 : ℝ) < (10 : ℝ) ^ ((-g).toNat) := by positivity
  have hc : ((2 * n - 1 : ℕ) : ℝ) = 2 * (n : ℝ) - 1 := by
    rw [Nat.cast_sub (by omega)]; push_cast; ring
  rw [scaledAtLeast, decide_eq_true_iff, ← Nat.cast_le (α := ℝ)]
  push_cast
  rw [hc, ← hg, ← hr20]
  have h1 : (2 * (k : ℝ)) ^ 20 * (r ^ 20 * (10 : ℝ) ^ ((-g).toNat)) = (2 * k * r) ^ 20 * (10 : ℝ) ^ ((-g).toNat) := by
    rw [mul_pow (2 * (k : ℝ)) r]; ring
  rw [h1, mul_le_mul_iff_left₀ hp, pow_le_pow_iff_left₀ (by
    have : (1 : ℝ) ≤ n := by exact_mod_cast hn
    linarith) (by positivity) (by norm_num)]
  constructor <;> intro h <;> linarith

/-- A magnitude scaled by a gain of -12..+12 dB is the product with 10 raised to the gain divided by 20, rounded to the
nearest integer, halves away from zero (R89, R92). -/
theorem scaleMagnitude_spec (g : Int) (k : Nat) (hg : g ≤ 12) (hk : k ≤ 32768) :
    (scaleMagnitude g k : ℝ) - 1 / 2 ≤ k * (10 : ℝ) ^ ((g : ℝ) / 20) ∧
      (k : ℝ) * (10 : ℝ) ^ ((g : ℝ) / 20) < scaleMagnitude g k + 1 / 2 := by
  set r : ℝ := (10 : ℝ) ^ ((g : ℝ) / 20) with hr
  have hr0 : 0 < r := Real.rpow_pos_of_pos (by norm_num) _
  have hr4 : r ≤ 4 := by
    have h1 : r ≤ (10 : ℝ) ^ ((3 : ℝ) / 5) := by
      apply Real.rpow_le_rpow_of_exponent_le (by norm_num)
      have : (g : ℝ) ≤ 12 := by exact_mod_cast hg
      linarith
    have h2 : (10 : ℝ) ^ ((3 : ℝ) / 5) ≤ 4 := by
      rw [← pow_le_pow_iff_left₀ (Real.rpow_nonneg (by norm_num) _) (by norm_num) (by norm_num : (5 : ℕ) ≠ 0),
        ← Real.rpow_natCast, ← Real.rpow_mul (by norm_num)]
      norm_num
    linarith
  have hk' : (k : ℝ) ≤ 32768 := by exact_mod_cast hk
  have hprod : (k : ℝ) * r ≤ 131072 := by
    calc (k : ℝ) * r ≤ 32768 * 4 := by
          apply mul_le_mul hk' hr4 hr0.le (by norm_num)
      _ = 131072 := by norm_num
  have hanti : ∀ a b, a ≤ b → scaledAtLeast g k b = true → scaledAtLeast g k a = true := by
    intro a b hab hb
    rcases Nat.eq_zero_or_pos a with rfl | ha
    · simp [scaledAtLeast]
    · rw [scaledAtLeast_iff g k a ha]
      rw [scaledAtLeast_iff g k b (by omega)] at hb
      have : (a : ℝ) ≤ b := by exact_mod_cast hab
      linarith
  obtain ⟨_, h2, h3, h4⟩ := climb_spec (scaledAtLeast g k) hanti 18 0
  change scaleMagnitude g k < 0 + 2 ^ 18 at h2
  change scaleMagnitude g k = 0 ∨ scaledAtLeast g k (scaleMagnitude g k) = true at h3
  change ∀ j, scaleMagnitude g k < j → j < 0 + 2 ^ 18 → scaledAtLeast g k j = false at h4
  have hpos : 0 ≤ (k : ℝ) * r := by positivity
  constructor
  · rcases Nat.eq_zero_or_pos (scaleMagnitude g k) with h0 | h0
    · rw [h0]; push_cast; linarith
    · rcases h3 with h3 | h3
      · omega
      · exact (scaledAtLeast_iff g k _ h0).mp h3
  · by_cases hb : scaleMagnitude g k + 1 < 2 ^ 18
    · have := h4 (scaleMagnitude g k + 1) (by omega) (by omega)
      by_contra hc
      have : scaledAtLeast g k (scaleMagnitude g k + 1) = true := by
        rw [scaledAtLeast_iff g k _ (by omega)]
        push_cast
        linarith [not_lt.mp hc]
      simp_all
    · have : (2 ^ 18 - 1 : ℝ) ≤ scaleMagnitude g k := by
        have h : 2 ^ 18 ≤ scaleMagnitude g k + 1 := by omega
        have : ((2 ^ 18 : ℕ) : ℝ) ≤ ((scaleMagnitude g k + 1 : ℕ) : ℝ) := by exact_mod_cast h
        push_cast at this
        linarith
      linarith [show ((2 : ℝ) ^ 18 - 1) = 262143 by norm_num]

/-- A level scaled by a gain keeps its sign and its magnitude is scaled (R89, R92). -/
theorem natAbs_scale (g x : Int) : (scale g x).natAbs = scaleMagnitude g x.natAbs ∧ (0 ≤ x → 0 ≤ scale g x) ∧
    (x ≤ 0 → scale g x ≤ 0) := by
  unfold scale
  by_cases h : x < 0
  · simp only [h, if_true]
    exact ⟨by omega, fun _ => by omega, fun _ => by omega⟩
  · simp only [h, if_false]
    refine ⟨by omega, fun _ => by omega, fun hx => ?_⟩
    have h0 : x = 0 := by omega
    subst h0
    have : scaleMagnitude g 0 = 0 := by
      have h1 : ∀ b, climb (scaledAtLeast g 0) b 0 = 0 := by
        intro b
        induction b with
        | zero => rfl
        | succ b ih =>
          simp only [climb]
          have : scaledAtLeast g 0 (0 + 2 ^ b) = false := by
            simp only [scaledAtLeast, decide_eq_false_iff_not, not_le]
            have : 1 ≤ 2 ^ b := Nat.one_le_two_pow
            have h2 : 0 < (2 * (0 + 2 ^ b) - 1) ^ 20 := pow_pos (by omega) _
            have h3 : 0 < 10 ^ ((-g).toNat) := pow_pos (by norm_num) _
            have h4 := Nat.mul_pos h2 h3
            simpa using h4
          simp only [this, Bool.false_eq_true, if_false]
          exact ih
      exact h1 18
    simp [this]

/-! ### Codes and levels -/

/-- Levels rise with the magnitude index (R91). -/
theorem level_lt_iff (l : Law) (m n : Nat) (hm : m < 128) (hn : n < 128) : l.level m < l.level n ↔ m < n := by
  have h : ∀ l : Law, ∀ m, m < 127 → l.level m < l.level (m + 1) := by
    intro l; cases l <;> decide
  have h2 : ∀ m n, n < 128 → m < n → l.level m < l.level n := by
    intro m n hn hmn
    induction n with
    | zero => omega
    | succ n ih =>
      rcases Nat.lt_or_ge m n with h1 | h1
      · exact lt_trans (ih (by omega) h1) (h l n (by omega))
      · have : m = n := by omega
        subst this; exact h l m (by omega)
  constructor
  · intro h1
    by_contra h3
    rcases Nat.lt_or_ge n m with h4 | h4
    · have := h2 n m hm h4; omega
    · have : m = n := by omega
      subst this; omega
  · exact h2 m n hn

/-- No two magnitude indices have one level. -/
theorem level_inj (l : Law) (m n : Nat) (hm : m < 128) (hn : n < 128) (h : l.level m = l.level n) : m = n := by
  by_contra e
  rcases Nat.lt_or_ge m n with h1 | h1
  · have := (level_lt_iff l m n hm hn).mpr h1; omega
  · have := (level_lt_iff l n m hn hm).mpr (by omega); omega

/-- A byte is its sign and magnitude index under the law's pattern, and its level is theirs (R91). -/
theorem expand_byteOf (l : Law) (c : Code) (h : c.index < 128) : l.expand (l.byteOf c.positive c.index) = c.level l := by
  obtain ⟨p, m⟩ := c
  have key : ∀ l : Law, ∀ p : Bool, ∀ m : Fin 128, l.expand (l.byteOf p m.val) = Code.level l ⟨p, m.val⟩ := by
    intro l p; cases l <;> cases p <;> decide +kernel
  exact key l p ⟨m, h⟩

/-- Every byte is the byte of a code. -/
theorem exists_code (l : Law) (b : Byte) : ∃ c : Code, c.index < 128 ∧ b = l.byteOf c.positive c.index := by
  refine ⟨⟨decide (128 ≤ (b ^^^ l.pattern).toNat), (b ^^^ l.pattern).toNat % 128⟩, Nat.mod_lt _ (by decide), ?_⟩
  simp only [Law.byteOf]
  have h1 : ∀ v : Byte, BitVec.ofNat 8 ((if decide (128 ≤ v.toNat) = true then 128 else 0) + v.toNat % 128) = v := by
    decide +kernel
  rw [h1, BitVec.xor_assoc, BitVec.xor_self, BitVec.xor_zero]

/-- The greatest index whose level is at most `v`. -/
theorem indexBelow_spec (l : Law) (v : Nat) :
    (∀ m, l.indexBelow v = some m → m < 128 ∧ l.level m ≤ v ∧ ∀ n, n < 128 → l.level n ≤ v → n ≤ m) ∧
      (l.indexBelow v = none → ∀ n, n < 128 → v < l.level n) := by
  have key : ∀ k, ∀ x, ((List.range k).filter fun m => l.level m ≤ v).getLast? = x →
      (∀ m, x = some m → m < k ∧ l.level m ≤ v ∧ ∀ n, n < k → l.level n ≤ v → n ≤ m) ∧
        (x = none → ∀ n, n < k → v < l.level n) := by
    intro k
    induction k with
    | zero => intro x h; subst h; exact ⟨fun m h => by simp at h, fun _ n h => by omega⟩
    | succ k ih =>
      intro x h
      rw [List.range_succ, List.filter_append] at h
      by_cases e : l.level k ≤ v
      · rw [List.filter_cons_of_pos (by simpa using e), List.filter_nil, List.getLast?_append_of_ne_nil _ (by simp)] at h
        subst h
        refine ⟨fun m hm => ?_, fun hn => by simp at hn⟩
        obtain rfl : k = m := by simpa using hm
        exact ⟨by omega, e, fun n hn _ => by omega⟩
      · rw [List.filter_cons_of_neg (by simpa using e), List.filter_nil, List.append_nil] at h
        obtain ⟨h1, h2⟩ := ih x h
        refine ⟨fun m hm => ?_, fun hx n hn => ?_⟩
        · obtain ⟨a, b, c⟩ := h1 m hm
          refine ⟨by omega, b, fun n hn hv => ?_⟩
          rcases Nat.lt_succ_iff_lt_or_eq.mp hn with hk | hk
          · exact c n hk hv
          · subst hk; exact absurd hv e
        · rcases Nat.lt_succ_iff_lt_or_eq.mp hn with hk | hk
          · exact h2 hx n hk
          · subst hk; omega
  exact key 128 _ rfl

/-- The least index whose level is at least `v`. -/
theorem indexAbove_spec (l : Law) (v : Nat) :
    (∀ m, l.indexAbove v = some m → m < 128 ∧ v ≤ l.level m ∧ ∀ n, n < 128 → v ≤ l.level n → m ≤ n) ∧
      (l.indexAbove v = none → ∀ n, n < 128 → l.level n < v) := by
  refine ⟨fun m h => ?_, fun h n hn => ?_⟩
  · obtain ⟨h1, as, bs, h2, h3⟩ := List.find?_eq_some_iff_append.mp h
    have hm : m ∈ List.range 128 := by rw [h2]; simp
    refine ⟨List.mem_range.mp hm, by simpa using h1, fun n hn hv => ?_⟩
    by_contra hlt
    have hs := List.pairwise_lt_range (n := 128)
    rw [h2, List.pairwise_append] at hs
    have hmem : n ∈ as ++ m :: bs := by rw [← h2]; exact List.mem_range.mpr hn
    rcases List.mem_append.mp hmem with ha | ha
    · have := h3 n ha; simp at this; omega
    · rcases List.mem_cons.mp ha with rfl | ha
      · omega
      · have := (List.pairwise_cons.mp hs.2.1).1 n ha; omega
  · have := List.find?_eq_none.mp h n (List.mem_range.mpr hn)
    simpa using this

/-- `Code.normal` keeps index and level, and makes the code of level 0 the positive one. -/
theorem normal_spec (l : Law) (m : Nat) : (Code.normal l ⟨false, m⟩).index = m ∧
    (Code.normal l ⟨false, m⟩).level l = -(l.level m : Int) ∧
    ((Code.normal l ⟨false, m⟩).level l = 0 → (Code.normal l ⟨false, m⟩).positive = true) := by
  unfold Code.normal
  by_cases h : l.level m = 0
  · simp [h, Code.level]
  · simp [h, Code.level]

/-- The level of a code lies within its law's largest. -/
theorem natAbs_level_le (l : Law) (c : Code) (h : c.index < 128) : (c.level l).natAbs ≤ l.level 127 := by
  have : l.level c.index ≤ l.level 127 := by
    rcases Nat.lt_or_ge c.index 127 with h1 | h1
    · exact le_of_lt ((level_lt_iff l _ _ h (by decide)).mpr h1)
    · have : c.index = 127 := by omega
      rw [this]
  unfold Code.level
  split <;> omega

/-- The code of the highest level that is at most `x`, where `x` lies within the largest level or above. -/
theorem codeBelow_spec (l : Law) (x : Int) (h : l.beyond x = false) :
    (l.codeBelow x).index < 128 ∧ (l.codeBelow x).level l ≤ x ∧
      (∀ d : Code, d.index < 128 → d.level l ≤ x → d.level l ≤ (l.codeBelow x).level l) ∧
      ((l.codeBelow x).level l = 0 → (l.codeBelow x).positive = true) := by
  have hb : x.natAbs ≤ l.level 127 := by simpa [Law.beyond] using h
  unfold Law.codeBelow
  by_cases hx : 0 ≤ x
  · simp only [hx, if_true]
    obtain ⟨h1, h2⟩ := indexBelow_spec l x.natAbs
    cases e : l.indexBelow x.natAbs with
    | some m =>
      obtain ⟨a, b, c⟩ := h1 m e
      refine ⟨a, by simp only [Code.level, if_true]; omega, fun d hd hl => ?_, fun _ => rfl⟩
      simp only [Code.level] at hl ⊢
      cases hp : d.positive with
      | true =>
        simp only [hp, if_true] at hl ⊢
        have := c d.index hd (by omega)
        rcases Nat.lt_or_ge d.index m with h3 | h3
        · have := (level_lt_iff l _ _ hd a).mpr h3; omega
        · have : d.index = m := by omega
          rw [this]
      | false => simp only [Bool.false_eq_true, if_false, if_true]; omega
    | none =>
      have hn := h2 e
      obtain ⟨n1, n2, n3⟩ := normal_spec l 0
      dsimp only
      refine ⟨by omega, by omega, fun d hd hl => ?_, n3⟩
      rw [n2]
      simp only [Code.level] at hl ⊢
      cases hp : d.positive with
      | true => simp only [hp, if_true] at hl; have := hn d.index hd; omega
      | false =>
        simp only [Bool.false_eq_true, if_false]
        rcases Nat.eq_zero_or_pos d.index with h3 | h3
        · rw [h3]
        · have := (level_lt_iff l 0 _ (by decide) hd).mpr h3; omega
  · simp only [hx, if_false]
    obtain ⟨h1, h2⟩ := indexAbove_spec l x.natAbs
    cases e : l.indexAbove x.natAbs with
    | some m =>
      obtain ⟨a, b, c⟩ := h1 m e
      obtain ⟨n1, n2, n3⟩ := normal_spec l m
      dsimp only
      refine ⟨by omega, by omega, fun d hd hl => ?_, n3⟩
      rw [n2]
      simp only [Code.level] at hl ⊢
      cases hp : d.positive with
      | true => simp only [hp, if_true] at hl; omega
      | false =>
        simp only [hp, Bool.false_eq_true, if_false] at hl ⊢
        have := c d.index hd (by omega)
        rcases Nat.lt_or_ge m d.index with h3 | h3
        · have := (level_lt_iff l _ _ a hd).mpr h3; omega
        · have : d.index = m := by omega
          rw [this]
    | none => have := h2 e 127 (by decide); omega

/-- The code of the lowest level that is at least `x`, where `x` lies within the largest level or below. -/
theorem codeAbove_spec (l : Law) (x : Int) (h : l.beyond x = false) :
    (l.codeAbove x).index < 128 ∧ x ≤ (l.codeAbove x).level l ∧
      (∀ d : Code, d.index < 128 → x ≤ d.level l → (l.codeAbove x).level l ≤ d.level l) ∧
      ((l.codeAbove x).level l = 0 → (l.codeAbove x).positive = true) := by
  have hb : x.natAbs ≤ l.level 127 := by simpa [Law.beyond] using h
  unfold Law.codeAbove
  by_cases hx : 0 ≤ x
  · simp only [hx, if_true]
    obtain ⟨h1, h2⟩ := indexAbove_spec l x.natAbs
    cases e : l.indexAbove x.natAbs with
    | some m =>
      obtain ⟨a, b, c⟩ := h1 m e
      refine ⟨a, by simp only [Code.level, if_true]; omega, fun d hd hl => ?_, fun _ => rfl⟩
      simp only [Code.level] at hl ⊢
      cases hp : d.positive with
      | true =>
        simp only [hp, if_true] at hl ⊢
        have := c d.index hd (by omega)
        rcases Nat.lt_or_ge m d.index with h3 | h3
        · have := (level_lt_iff l _ _ a hd).mpr h3; omega
        · have : d.index = m := by omega
          rw [this]
      | false =>
        simp only [hp, Bool.false_eq_true, if_false, if_true] at hl ⊢
        have h4 : x = 0 := by omega
        have h5 : l.level d.index = 0 := by omega
        have h6 := c d.index hd (by omega)
        rcases Nat.lt_or_ge m d.index with h3 | h3
        · have := (level_lt_iff l _ _ a hd).mpr h3; omega
        · have : d.index = m := by omega
          rw [this] at h5 ⊢; omega
    | none => have := h2 e 127 (by decide); omega
  · simp only [hx, if_false]
    obtain ⟨h1, h2⟩ := indexBelow_spec l x.natAbs
    cases e : l.indexBelow x.natAbs with
    | some m =>
      obtain ⟨a, b, c⟩ := h1 m e
      obtain ⟨n1, n2, n3⟩ := normal_spec l m
      dsimp only
      refine ⟨by omega, by omega, fun d hd hl => ?_, n3⟩
      rw [n2]
      simp only [Code.level] at hl ⊢
      cases hp : d.positive with
      | true => simp only [if_true]; omega
      | false =>
        simp only [hp, Bool.false_eq_true, if_false] at hl ⊢
        have := c d.index hd (by omega)
        rcases Nat.lt_or_ge d.index m with h3 | h3
        · have := (level_lt_iff l _ _ hd a).mpr h3; omega
        · have : d.index = m := by omega
          rw [this]
    | none =>
      have hn := h2 e
      dsimp only
      refine ⟨Nat.zero_lt_succ _, by simp only [Code.level, if_true]; omega, fun d hd hl => ?_, fun _ => rfl⟩
      simp only [Code.level, if_true] at hl ⊢
      cases hp : d.positive with
      | true =>
        simp only [if_true]
        rcases Nat.eq_zero_or_pos d.index with h3 | h3
        · rw [h3]
        · have := (level_lt_iff l 0 _ (by decide) hd).mpr h3; omega
      | false => simp only [hp, Bool.false_eq_true, if_false] at hl; have := hn d.index hd; omega

/-! ### Compression (R93) -/

/-- The magnitude index of a code's byte. -/
theorem magnitudeOf_byteOf (l : Law) (c : Code) (h : c.index < 128) :
    (l.byteOf c.positive c.index ^^^ l.pattern).toNat % 128 = c.index := by
  obtain ⟨p, m⟩ := c
  have key : ∀ l : Law, ∀ p : Bool, ∀ m : Fin 128, (l.byteOf p m.val ^^^ l.pattern).toNat % 128 = m.val := by
    intro l p; cases l <;> cases p <;> decide +kernel
  exact key l p ⟨m, h⟩

/-- Codes of one level have one index, and one sign but at level 0. -/
theorem code_of_level (l : Law) (c d : Code) (hc : c.index < 128) (hd : d.index < 128) (h : c.level l = d.level l) :
    c.index = d.index ∧ (c.level l ≠ 0 → c = d) := by
  have hi : l.level c.index = l.level d.index := by
    simp only [Code.level] at h; split at h <;> split at h <;> omega
  have hx := level_inj l _ _ hc hd hi
  refine ⟨hx, fun h0 => ?_⟩
  obtain ⟨p, m⟩ := c
  obtain ⟨q, n⟩ := d
  simp only at hx
  subst hx
  have : p = q := by
    simp only [Code.level] at h h0
    cases p <;> cases q <;> simp_all
  rw [this]

/-- The code a value is compressed to: its own level's, or the one its mode chooses. -/
def Law.chosen (l : Law) (mode : RoundMode) (x : Int) : Code :=
  if (l.codeBelow x).level l = x then l.codeBelow x else chooseCode l mode x (l.codeBelow x) (l.codeAbove x)

/-- Where no level lies beyond `x`, its byte is that of the chosen code. -/
theorem compress_within (l : Law) (mode : RoundMode) (x : Int) (h : l.beyond x = false) :
    l.compress mode x = l.byteOf (l.chosen mode x).positive (l.chosen mode x).index := by
  simp [Law.compress, h, Law.chosen]

/-- Beyond the largest level a value is compressed to the largest code of its sign, under every mode (R92). -/
theorem compress_beyond (l : Law) (mode : RoundMode) (x : Int) (h : ∀ b, (l.expand b).natAbs < x.natAbs) :
    l.compress mode x = l.byteOf (decide (0 ≤ x)) 127 := by
  have : l.beyond x = true := by
    have h1 := h (l.byteOf true 127)
    rw [expand_byteOf l ⟨true, 127⟩ (by decide)] at h1
    simp only [Code.level, if_true] at h1
    simp only [Law.beyond, decide_eq_true_eq]
    omega
  simp [Law.compress, this]

/-- The level of a value's byte within the range of the levels: its own level where it is one, else the one the mode
chooses between the level below and the level above; the byte of level 0 is the positive one (R93). -/
theorem compress_spec (l : Law) (mode : RoundMode) (x : Int) :
    ((∃ b, l.expand b = x) → l.expand (l.compress mode x) = x) ∧
    (∀ L H, l.expand L < x → x < l.expand H → (∀ b, l.expand b ≤ l.expand L ∨ l.expand H ≤ l.expand b) →
      l.expand (l.compress mode x) =
        match mode with
        | .downward => l.expand L
        | .upward => l.expand H
        | .towardZero => if (l.expand L).natAbs < (l.expand H).natAbs then l.expand L else l.expand H
        | .nearestEven =>
          if x - l.expand L < l.expand H - x then l.expand L
          else if l.expand H - x < x - l.expand L then l.expand H
          else if (L ^^^ l.pattern).toNat % 2 = 0 ∧ (H ^^^ l.pattern).toNat % 2 = 1 then l.expand L
          else l.expand H) ∧
    (l.expand (l.compress mode x) = 0 → l.compress mode x = l.byteOf true 0) := by
  by_cases hb : l.beyond x = true
  · have hbig : l.level 127 < x.natAbs := by simpa [Law.beyond] using hb
    have hc : l.compress mode x = l.byteOf (decide (0 ≤ x)) 127 := by simp [Law.compress, hb]
    have hall : ∀ b, (l.expand b).natAbs ≤ l.level 127 := by
      intro b
      obtain ⟨c, h1, h2⟩ := exists_code l b
      rw [h2, expand_byteOf l c h1]
      exact natAbs_level_le l c h1
    refine ⟨fun ⟨b, h⟩ => ?_, fun L H h1 h2 _ => ?_, fun h => ?_⟩
    · have := hall b; omega
    · have a := hall L; have b := hall H; omega
    · rw [hc, expand_byteOf l ⟨decide (0 ≤ x), 127⟩ (Nat.lt_succ_self 127)] at h
      have h127 : ∀ l : Law, 0 < l.level 127 := by intro l; cases l <;> decide
      have := h127 l
      simp only [Code.level] at h
      split at h <;> omega
  · have hb : l.beyond x = false := by simpa using hb
    obtain ⟨a1, a2, a3, a4⟩ := codeBelow_spec l x hb
    obtain ⟨b1, b2, b3, b4⟩ := codeAbove_spec l x hb
    have hch : l.chosen mode x = l.codeBelow x ∨ l.chosen mode x = l.codeAbove x := by
      unfold Law.chosen chooseCode
      split
      · exact Or.inl rfl
      · cases mode <;> dsimp only <;> repeat' split
        all_goals first | exact Or.inl rfl | exact Or.inr rfl
    have hidx : (l.chosen mode x).index < 128 := by rcases hch with h | h <;> rw [h] <;> assumption
    have hexp : l.expand (l.compress mode x) = (l.chosen mode x).level l := by
      rw [compress_within l mode x hb, expand_byteOf l _ hidx]
    refine ⟨fun ⟨b, h⟩ => ?_, fun L H h1 h2 h3 => ?_, fun h => ?_⟩
    · obtain ⟨c, hc1, hc2⟩ := exists_code l b
      rw [hc2, expand_byteOf l c hc1] at h
      have hx : (l.codeBelow x).level l = x := by
        have := a3 c hc1 (by omega); omega
      rw [hexp, Law.chosen, if_pos hx, hx]
    · obtain ⟨cl, hl1, hl2⟩ := exists_code l L
      obtain ⟨ch, hh1, hh2⟩ := exists_code l H
      have el : l.expand L = cl.level l := by rw [hl2, expand_byteOf l cl hl1]
      have eh : l.expand H = ch.level l := by rw [hh2, expand_byteOf l ch hh1]
      have hlo : (l.codeBelow x).level l = cl.level l := by
        have i1 := a3 cl hl1 (by omega)
        have i2 := h3 (l.byteOf (l.codeBelow x).positive (l.codeBelow x).index)
        rw [expand_byteOf l _ a1] at i2
        omega
      have hhi : (l.codeAbove x).level l = ch.level l := by
        have i1 := b3 ch hh1 (by omega)
        have i2 := h3 (l.byteOf (l.codeAbove x).positive (l.codeAbove x).index)
        rw [expand_byteOf l _ b1] at i2
        omega
      have hli : (l.codeBelow x).index = cl.index := (code_of_level l _ _ a1 hl1 hlo).1
      have hhi' : (l.codeAbove x).index = ch.index := (code_of_level l _ _ b1 hh1 hhi).1
      have pl : (L ^^^ l.pattern).toNat % 2 = cl.index % 2 := by
        have := magnitudeOf_byteOf l cl hl1; rw [← hl2] at this; omega
      have ph : (H ^^^ l.pattern).toNat % 2 = ch.index % 2 := by
        have := magnitudeOf_byteOf l ch hh1; rw [← hh2] at this; omega
      have hne : (l.codeBelow x).level l ≠ x := by omega
      rw [hexp, Law.chosen, if_neg hne, el, eh, pl, ph]
      have hs : (l.codeBelow x).positive = true → (l.codeAbove x).level l ≠ 0 → 0 ≤ (l.codeBelow x).level l := by
        intro hp _
        simp only [Code.level, hp, if_true]; omega
      cases mode with
      | downward => exact hlo
      | upward => exact hhi
      | towardZero =>
        simp only [chooseCode, hlo, hhi]
        by_cases c1 : (cl.level l).natAbs < (ch.level l).natAbs
        · simp only [c1, if_true]; exact hlo
        · simp only [c1, if_false]
          by_cases c2 : (ch.level l).natAbs < (cl.level l).natAbs
          · simp only [c2, if_true]; exact hhi
          · simp only [c2, if_false]
            by_cases c3 : (l.codeBelow x).positive = true
            · have : 0 ≤ (l.codeBelow x).level l := by simp only [Code.level, c3, if_true]; omega
              omega
            · simp only [c3]; exact hhi
      | nearestEven =>
        simp only [chooseCode, hlo, hhi, hli, hhi']
        by_cases c1 : x - cl.level l < ch.level l - x
        · simp only [c1, if_true]; exact hlo
        · simp only [c1, if_false]
          by_cases c2 : ch.level l - x < x - cl.level l
          · simp only [c2, if_true]; exact hhi
          · simp only [c2, if_false]
            by_cases c3 : cl.index % 2 = 0 ∧ ch.index % 2 = 1
            · simp only [c3, and_self, if_true]; exact hlo
            · simp only [c3, if_false]
              by_cases c4 : cl.index % 2 = 1 ∧ ch.index % 2 = 0
              · simp only [c4, and_self, if_true]; exact hhi
              · simp only [c4, if_false]
                by_cases c5 : (l.codeBelow x).positive = true
                · -- both indices have one parity; the lower level is not negative
                  exfalso
                  have q1 : 0 ≤ cl.level l := by
                    rw [← hlo]; simp only [Code.level, c5, if_true]; omega
                  have e1 : l.level cl.index = (cl.level l).natAbs := by simp only [Code.level]; split <;> omega
                  have e2 : l.level ch.index = (ch.level l).natAbs := by simp only [Code.level]; split <;> omega
                  have e3 : cl.index < ch.index := (level_lt_iff l _ _ hl1 hh1).mp (by omega)
                  have e4 : ¬ cl.index + 1 < ch.index := by
                    intro e5
                    have f1 := (level_lt_iff l cl.index (cl.index + 1) hl1 (by omega)).mpr (by omega)
                    have f2 := (level_lt_iff l (cl.index + 1) ch.index (by omega) hh1).mpr e5
                    have f3 := h3 (l.byteOf true (cl.index + 1))
                    rw [expand_byteOf l ⟨true, cl.index + 1⟩ (by simp only; omega), el, eh] at f3
                    simp only [Code.level, if_true] at f3
                    rcases f3 with f3 | f3
                    · have : (cl.level l) = (l.level cl.index : Int) := by omega
                      simp only [Code.level] at this; omega
                    · have : (ch.level l) = (l.level ch.index : Int) := by omega
                      simp only [Code.level] at this; omega
                  omega
                · simp only [c5]; exact hhi
    · rw [hexp] at h
      have hp : (l.chosen mode x).positive = true := by
        rcases hch with h' | h' <;> rw [h'] at h ⊢
        · exact a4 h
        · exact b4 h
      have hi : (l.chosen mode x).index = 0 := by
        have h0 : l.level (l.chosen mode x).index = 0 := by
          simp only [Code.level] at h; split at h <;> omega
        rcases Nat.eq_zero_or_pos (l.chosen mode x).index with h1 | h1
        · exact h1
        · have := (level_lt_iff l 0 _ (by decide) hidx).mpr h1; omega
      rw [compress_within l mode x hb, hp, hi]

end Sys2Proof.Machine
end

