-- ==== Sys2Proof/Laws/Passes.lean ====
section
/-! SUPPORT. The shedding pass, the readmission pass and the release of every context, each as one lemma that says what
it does to a whole state (R25, R65 to R67, R69). -/

namespace Sys2Proof.Machine

namespace State

/-! ### Costs depend on the profiles and on one record alone -/

theorem costOf_congr {s t : State} (hp : s.profiles = t.profiles) (i r : Nat)
    (hc : (s.ctx i).profile = (t.ctx i).profile) : s.costOf i r = t.costOf i r := by
  have h : s.profileOf i = t.profileOf i := by
    unfold profileOf contents
    rw [hc]
    cases (t.ctx i).profile with
    | none => rfl
    | some n => simp only [profile_congr hp]
  unfold costOf rateEntry
  rw [h]

theorem currentCost_congr {s t : State} (hp : s.profiles = t.profiles) (i : Nat)
    (hc : (s.ctx i).profile = (t.ctx i).profile) (hr : (s.ctx i).rate = (t.ctx i).rate) :
    s.currentCost i = t.currentCost i := by
  unfold currentCost
  rw [hr]
  cases (t.ctx i).rate with
  | none => rfl
  | some r => exact costOf_congr hp i r hc

/-! ### The bits that the passes add -/

theorem add_rateChanged (x : CondSet) : x.add .rateChanged = x ||| 0x08#12 := congrArg (x ||| ·) (by decide)
theorem add_rateRefused (x : CondSet) : x.add .rateRefused = x ||| 0x10#12 := congrArg (x ||| ·) (by decide)
theorem add_shed (x : CondSet) : x.add .shed = x ||| 0x80#12 := congrArg (x ||| ·) (by decide)
theorem add_readmitted (x : CondSet) : x.add .readmitted = x ||| 0x100#12 := congrArg (x ||| ·) (by decide)

/-- A set with a condition added is not empty. -/
theorem add_ne_zero (x : CondSet) (k : Cond) : x.add k ≠ 0 := by
  intro h
  have h1 : (x.add k).getLsbD k.bit = false := by rw [h]; simp
  have h2 : k.bit < 12 := by cases k <;> decide
  simp [CondSet.add, CondSet.one, h2] at h1

/-! ### Step one at one context (R66) -/

theorem ctx_lower (s : State) (i r j : Nat) :
    (s.lower i r).ctx j = if j = i then (s.ctx i).afterShedding (some r) false else s.ctx j := by
  unfold lower dropRequest
  rw [ctx_raise, ctx_raiseIf, ctx_raiseIf, ctx_modCtx, ctx_modCtx, ctx_retunePaid, ctx_retunePaid]
  by_cases hj : j = i
  · subst hj
    cases h : fromOrder (s.ctx j).request
    · simp [Ctx.afterShedding, add_rateChanged, h]
    · simp [Ctx.afterShedding, add_rateChanged, add_rateRefused, h, BitVec.or_assoc]
  · simp [hj]

theorem reserved_lower (s : State) (i r : Nat) :
    (s.lower i r).reserved = s.reserved + s.costOf i r - s.currentCost i := by
  simp [lower, dropRequest, reserved_retunePaid]

theorem queueOf_lower (s : State) (i r : Nat) (p : Port) :
    (s.lower i r).queueOf p = s.queueOf p ++ if (s.ctx i).owner = p ∧ (s.ctx i).conds = 0 then [i] else [] := by
  unfold lower
  have h0 : ∀ q, ((s.retunePaid i r).dropRequest i).queueOf q = s.queueOf q := fun q =>
    queueOf_congr (by simp [dropRequest, retunePaid, retune]) q
  have hc : ((s.retunePaid i r).dropRequest i).ctx i =
      { s.ctx i with rate := some r, sinceRate := 0, request := none } := by
    simp [dropRequest, ctx_retunePaid]
  rw [queueOf_raise, ctx_raiseIf]
  have hne : ∀ x : CondSet, x.add .rateRefused ≠ 0 := fun x => add_ne_zero x _
  cases h : fromOrder (s.ctx i).request
  · simp only [raiseIf, Bool.false_eq_true, false_and, if_false, hc, h0]
    by_cases hz : (s.ctx i).conds = 0 ∧ p = (s.ctx i).owner
    · simp [hz]
    · rw [if_neg hz, if_neg (fun x => hz ⟨x.2, x.1.symm⟩), List.append_nil]
  · simp only [raiseIf, if_true, and_self, hc, hne, false_and, if_false, queueOf_raise, h0]
    by_cases hz : (s.ctx i).conds = 0 ∧ p = (s.ctx i).owner
    · simp [hz]
    · rw [if_neg hz, if_neg (fun x => hz ⟨x.2, x.1.symm⟩), List.append_nil]

theorem tallies_lower (s : State) (i r : Nat) :
    (s.lower i r).tally0 = s.tally0.step .rateChange (some (s.handleOf i)) ∧
      (s.lower i r).tally1 = s.tally1.step .rateChange (some (s.handleOf i)) := by
  constructor <;> simp [lower, dropRequest, retunePaid, retune, countFor, count, handleOf]

/-! ### Step two at one context (R67) -/

theorem ctx_shed (s : State) (i j : Nat) (h : (s.ctx i).converting = true) :
    (s.shed i).ctx j = if j = i then (s.ctx i).afterShedding none true else s.ctx j := by
  have hc : ∀ k, (s.countFor .shed i).ctx k = s.ctx k := fun k => ctx_congr (countFor_ctxs _ _ _) k
  have hf : heldFromOf (s.ctx i).state = if (s.ctx i).state = .armed then .armed else .active := by
    cases hs : (s.ctx i).state <;> simp_all [heldFromOf, Ctx.converting]
  unfold shed
  rw [ctx_raise, ctx_enterHeld, ctx_enterHeld, hc, hc]
  by_cases hj : j = i
  · subst hj
    cases hr : fromOrder (s.ctx j).request
    · simp [Ctx.afterShedding, Ctx.toHeld, hr, hf, add_shed]
    · simp [Ctx.afterShedding, Ctx.toHeld, hr, hf, add_shed, add_rateRefused, BitVec.or_assoc]
  · simp [hj]

theorem reserved_shed (s : State) (i : Nat) : (s.shed i).reserved = s.reserved - s.currentCost i := by
  have h : (s.shed i).reserved = ((s.countFor .shed i).enterHeld i .shed).reserved := by simp [shed]
  rw [h, reserved_enterHeld]
  rw [currentCost_congr (t := s) (countFor_profiles ..) i (by rw [ctx_congr (countFor_ctxs ..)])
    (by rw [ctx_congr (countFor_ctxs ..)])]
  simp

theorem queueOf_shed (s : State) (i : Nat) (p : Port) :
    (s.shed i).queueOf p = s.queueOf p ++ if (s.ctx i).owner = p ∧ (s.ctx i).conds = 0 then [i] else [] := by
  have hc : ∀ k, (s.countFor .shed i).ctx k = s.ctx k := fun k => ctx_congr (countFor_ctxs _ _ _) k
  have hq : ∀ q, (s.countFor .shed i).queueOf q = s.queueOf q := fun q => queueOf_congr (countFor_attention ..) q
  have hne : ∀ x : CondSet, x.add .rateRefused ≠ 0 := fun x => add_ne_zero x _
  unfold shed
  rw [queueOf_raise, ctx_enterHeld, queueOf_enterHeld, hc, hq]
  cases h : fromOrder (s.ctx i).request
  · simp only [if_true, Ctx.toHeld, Bool.false_eq_true, if_false, false_and]
    by_cases hz : (s.ctx i).conds = 0 ∧ p = (s.ctx i).owner
    · simp [hz]
    · rw [if_neg hz, if_neg (fun x => hz ⟨x.2, x.1.symm⟩), List.append_nil]
  · simp only [if_true, Ctx.toHeld, hne, false_and, if_false, true_and]
    by_cases hz : (s.ctx i).conds = 0 ∧ p = (s.ctx i).owner
    · simp [hz]
    · rw [if_neg hz, if_neg (fun x => hz ⟨x.2, x.1.symm⟩), List.append_nil]

theorem lane_shed (s : State) (i m : Nat) : (s.shed i).lane m =
    if m < 8 ∧ (s.lane m).inHand = some i then { s.lane m with inHand := none } else s.lane m := by
  have h : (s.shed i).lanes = ((s.countFor .shed i).enterHeld i .shed).lanes := by simp [shed]
  have hl : (s.countFor .shed i).lane m = s.lane m := lane_congr (countFor_lanes ..) m
  rw [lane_congr h, lane_enterHeld, hl]

theorem block_shed (s : State) (i n : Nat) : (s.shed i).block n =
    if (s.ctx i).slot.map SlotBinding.slot = some n then { s.block n with outbound := none } else s.block n := by
  have h : (s.shed i).blocks = ((s.countFor .shed i).enterHeld i .shed).blocks := by simp [shed]
  have hl : (s.countFor .shed i).block n = s.block n := block_congr (countFor_blocks ..) n
  rw [block_congr h, block_enterHeld, hl, ctx_congr (countFor_ctxs ..)]

theorem tallies_shed (s : State) (i : Nat) :
    (s.shed i).tally0 = s.tally0.step .shed (some (s.handleOf i)) ∧
      (s.shed i).tally1 = s.tally1.step .shed (some (s.handleOf i)) := by
  constructor <;> simp [shed, countFor, count, handleOf]

/-! ### A list of contexts lowered, or held, in turn -/

/-- The contexts of a list lowered in turn, each to what `low` gives. -/
def lowerAll (low : Nat → Option Nat) (l : List Nat) (s : State) : State :=
  l.foldl (fun t i => t.lower i ((low i).getD 0)) s

/-- The contexts of a list held in turn. -/
def shedAll (l : List Nat) (s : State) : State := l.foldl State.shed s

/-- Lowering one context touches neither the records nor the costs of the others. -/
theorem currentCost_lower (s : State) (i r j : Nat) (h : j ≠ i) : (s.lower i r).currentCost j = s.currentCost j :=
  currentCost_congr (by simp) j (by rw [ctx_lower, if_neg h]) (by rw [ctx_lower, if_neg h])

theorem costOf_lower (s : State) (i r j q : Nat) : (s.lower i r).costOf j q = s.costOf j q :=
  costOf_congr (by simp) j q (by
    rw [ctx_lower]; split
    · next h => subst h; rfl
    · rfl)

/-- What lowering the contexts of a list without repetition does. -/
theorem lowerAll_spec (low : Nat → Option Nat) (l : List Nat) (s : State) (hl : l.Nodup)
    (hs : ∀ i ∈ l, (low i).isSome = true) :
    (∀ j, (lowerAll low l s).ctx j = (s.ctx j).afterShedding (if j ∈ l then low j else none) false) ∧
    (lowerAll low l s).reserved = s.unitsLowered low l ∧
    (∀ p, (lowerAll low l s).queueOf p =
      s.queueOf p ++ l.filter fun i => decide ((s.ctx i).owner = p ∧ (s.ctx i).conds = 0)) ∧
    (lowerAll low l s).tally0 = l.foldl (fun y i => y.step .rateChange (some (s.handleOf i))) s.tally0 ∧
    (lowerAll low l s).tally1 = l.foldl (fun y i => y.step .rateChange (some (s.handleOf i))) s.tally1 ∧
    (lowerAll low l s).lanes = s.lanes ∧ (lowerAll low l s).blocks = s.blocks ∧
    (lowerAll low l s).profiles = s.profiles ∧ (lowerAll low l s).available = s.available := by
  induction l generalizing s with
  | nil =>
    refine ⟨fun j => ?_, rfl, fun p => (List.append_nil _).symm, rfl, rfl, rfl, rfl, rfl, rfl⟩
    simp [lowerAll, Ctx.afterShedding]
  | cons i l ih =>
    obtain ⟨hi, hl'⟩ := List.nodup_cons.mp hl
    obtain ⟨q, hq⟩ := Option.isSome_iff_exists.mp (hs i (by simp))
    obtain ⟨h1, h2, h3, h4, h5, h6, h7, h8, h9⟩ := ih (s.lower i ((low i).getD 0)) hl' fun j hj => hs j (by simp [hj])
    have hne : ∀ j ∈ l, j ≠ i := fun j hj he => hi (he ▸ hj)
    have hcx : ∀ j ∈ l, (s.lower i ((low i).getD 0)).ctx j = s.ctx j := fun j hj => by
      rw [ctx_lower, if_neg (hne j hj)]
    have hfold : ∀ n, l.foldl (fun n j => n + (s.lower i ((low i).getD 0)).costOf j ((low j).getD 0) -
        (s.lower i ((low i).getD 0)).currentCost j) n =
        l.foldl (fun n j => n + s.costOf j ((low j).getD 0) - s.currentCost j) n := by
      intro n
      apply List.foldl_ext
      intro n j hj
      rw [costOf_lower, currentCost_lower _ _ _ _ (hne j hj)]
    have htal : ∀ y : Tally, l.foldl (fun y j => y.step .rateChange (some ((s.lower i ((low i).getD 0)).handleOf j))) y =
        l.foldl (fun y j => y.step .rateChange (some (s.handleOf j))) y := by
      intro y
      apply List.foldl_ext
      intro y j hj
      simp only [handleOf, hcx j hj]
    refine ⟨fun j => ?_, ?_, fun p => ?_, ?_, ?_, h6.trans (by simp), h7.trans (by simp), h8.trans (by simp),
      h9.trans (by simp)⟩
    · change (lowerAll low l (s.lower i ((low i).getD 0))).ctx j = _
      rw [h1, ctx_lower]
      by_cases hj : j = i
      · subst hj
        simp [hi, hq, Ctx.afterShedding]
      · simp [hj]
    · change (lowerAll low l (s.lower i ((low i).getD 0))).reserved = _
      rw [h2, unitsLowered, hfold, reserved_lower]; rfl
    · change (lowerAll low l (s.lower i ((low i).getD 0))).queueOf p = _
      rw [h3, queueOf_lower, List.append_assoc, List.filter_cons]
      congr 1
      have : (l.filter fun j => decide (((s.lower i ((low i).getD 0)).ctx j).owner = p ∧
          ((s.lower i ((low i).getD 0)).ctx j).conds = 0)) =
          l.filter fun j => decide ((s.ctx j).owner = p ∧ (s.ctx j).conds = 0) :=
        List.filter_congr fun j hj => by rw [hcx j hj]
      rw [this]
      by_cases hz : (s.ctx i).owner = p ∧ (s.ctx i).conds = 0
      · simp only [hz.1, hz.2, and_self, decide_true, if_true]; rfl
      · simp only [hz, decide_false, Bool.false_eq_true, if_false, List.nil_append]
    · change (lowerAll low l (s.lower i ((low i).getD 0))).tally0 = _
      rw [h4, htal, (tallies_lower s i _).1]; rfl
    · change (lowerAll low l (s.lower i ((low i).getD 0))).tally1 = _
      rw [h5, htal, (tallies_lower s i _).2]; rfl

theorem currentCost_shed (s : State) (i j : Nat) (hc : (s.ctx i).converting = true) :
    (s.shed i).currentCost j = s.currentCost j :=
  currentCost_congr (by simp) j
    (by rw [ctx_shed s i j hc]; split
        · next h => subst h; rfl
        · rfl)
    (by rw [ctx_shed s i j hc]; split
        · next h => subst h; rfl
        · rfl)

/-- What holding the converting contexts of a list without repetition does. -/
theorem shedAll_spec (l : List Nat) (s : State) (hl : l.Nodup) (hs : ∀ i ∈ l, (s.ctx i).converting = true) :
    (∀ j, (shedAll l s).ctx j = (s.ctx j).afterShedding none (decide (j ∈ l))) ∧
    (shedAll l s).reserved = l.foldl (fun n i => n - s.currentCost i) s.reserved ∧
    (∀ p, (shedAll l s).queueOf p =
      s.queueOf p ++ l.filter fun i => decide ((s.ctx i).owner = p ∧ (s.ctx i).conds = 0)) ∧
    (∀ n, ((shedAll l s).lane n).state = (s.lane n).state ∧
      (n < 8 → ((shedAll l s).lane n).inHand = (s.lane n).inHand.filter (· ∉ l))) ∧
    (∀ n, (shedAll l s).block n = if ∃ i ∈ l, (s.ctx i).slot.map SlotBinding.slot = some n
      then { s.block n with outbound := none } else s.block n) ∧
    (shedAll l s).tally0 = l.foldl (fun y i => y.step .shed (some (s.handleOf i))) s.tally0 ∧
    (shedAll l s).tally1 = l.foldl (fun y i => y.step .shed (some (s.handleOf i))) s.tally1 ∧
    (shedAll l s).available = s.available := by
  induction l generalizing s with
  | nil =>
    refine ⟨fun j => ?_, rfl, fun p => (List.append_nil _).symm, fun n => ⟨rfl, fun _ => ?_⟩, fun n => ?_, rfl, rfl, rfl⟩
    · simp [shedAll, Ctx.afterShedding]
    · cases h : (s.lane n).inHand <;> simp [shedAll, h, Option.filter]
    · simp [shedAll]
  | cons i l ih =>
    obtain ⟨hi, hl'⟩ := List.nodup_cons.mp hl
    have hc := hs i (by simp)
    have hne : ∀ j ∈ l, j ≠ i := fun j hj he => hi (he ▸ hj)
    have hcx : ∀ j ∈ l, (s.shed i).ctx j = s.ctx j := fun j hj => by rw [ctx_shed s i j hc, if_neg (hne j hj)]
    obtain ⟨h1, h2, h3, h4, h5, h6, h7, h8⟩ := ih (s.shed i) hl' fun j hj => by rw [hcx j hj]; exact hs j (by simp [hj])
    refine ⟨fun j => ?_, ?_, fun p => ?_, fun n => ⟨?_, fun hn => ?_⟩, fun n => ?_, ?_, ?_, h8.trans (by simp)⟩
    · change (shedAll l (s.shed i)).ctx j = _
      rw [h1, ctx_shed s i j hc]
      by_cases hj : j = i
      · subst hj; simp [hi, Ctx.afterShedding]
      · simp [hj]
    · change (shedAll l (s.shed i)).reserved = _
      rw [h2, reserved_shed, List.foldl_cons]
      apply List.foldl_ext
      intro n j _
      rw [currentCost_shed s i j hc]
    · change (shedAll l (s.shed i)).queueOf p = _
      rw [h3, queueOf_shed, List.append_assoc, List.filter_cons]
      congr 1
      have : (l.filter fun j => decide (((s.shed i).ctx j).owner = p ∧ ((s.shed i).ctx j).conds = 0)) =
          l.filter fun j => decide ((s.ctx j).owner = p ∧ (s.ctx j).conds = 0) :=
        List.filter_congr fun j hj => by rw [hcx j hj]
      rw [this]
      by_cases hz : (s.ctx i).owner = p ∧ (s.ctx i).conds = 0
      · simp only [hz.1, hz.2, and_self, decide_true, if_true]; rfl
      · simp only [hz, decide_false, Bool.false_eq_true, if_false, List.nil_append]
    · change ((shedAll l (s.shed i)).lane n).state = _
      rw [(h4 n).1, lane_shed]; split <;> rfl
    · change ((shedAll l (s.shed i)).lane n).inHand = _
      rw [(h4 n).2 hn, lane_shed]
      cases hh : (s.lane n).inHand with
      | none => simp [hh]
      | some j =>
        by_cases hj : j = i
        · subst hj; simp [hn, Option.filter]
        · simp [hn, hh, hj, Option.filter]
    · change (shedAll l (s.shed i)).block n = _
      rw [h5, block_shed]
      have hex : (∃ j ∈ l, ((s.shed i).ctx j).slot.map SlotBinding.slot = some n) ↔
          ∃ j ∈ l, (s.ctx j).slot.map SlotBinding.slot = some n :=
        ⟨fun ⟨j, a, b⟩ => ⟨j, a, by rw [← hcx j a]; exact b⟩, fun ⟨j, a, b⟩ => ⟨j, a, by rw [hcx j a]; exact b⟩⟩
      simp only [hex, List.mem_cons, exists_eq_or_imp]
      by_cases ha : (s.ctx i).slot.map SlotBinding.slot = some n
      · simp [ha]
      · simp [ha]
    · change (shedAll l (s.shed i)).tally0 = _
      rw [h6, (tallies_shed s i).1, List.foldl_cons]
      apply List.foldl_ext
      intro y j hj
      simp only [handleOf, hcx j hj]
    · change (shedAll l (s.shed i)).tally1 = _
      rw [h7, (tallies_shed s i).2, List.foldl_cons]
      apply List.foldl_ext
      intro y j hj
      simp only [handleOf, hcx j hj]

/-! ### The two steps of the shedding pass -/

theorem reducible_lower (s : State) (i r j : Nat) (h : j ≠ i) :
    ((s.lower i r).ctx j).reducible = (s.ctx j).reducible := by rw [ctx_lower, if_neg h]

/-- Step one lowers the first reducible contexts of the order, each only while reserved exceeds available; where reserved
still exceeds it, all of them (R66). -/
theorem foldl_shedOne_spec (order : List Nat) (s : State) (n : Nat) (low : Nat → Option Nat) (ho : order.Nodup)
    (hlow : ∀ i ∈ order, low i = (s.ctx i).reducible) :
    ∃ l, l <+: (order.filter fun i => (low i).isSome) ∧
      order.foldl shedOne ⟨n, s⟩ = ⟨n + l.length, lowerAll low l s⟩ ∧
      (∀ a i b, l = a ++ i :: b → s.available < s.unitsLowered low a) ∧
      (s.available < s.unitsLowered low l → l = order.filter fun i => (low i).isSome) := by
  induction order generalizing s n with
  | nil => exact ⟨[], List.prefix_refl _, rfl, fun a i b h => by simp at h, fun _ => rfl⟩
  | cons i order ih =>
    obtain ⟨hi, ho'⟩ := List.nodup_cons.mp ho
    rw [List.foldl_cons]
    by_cases hov : s.overCommitted = true
    · cases hr : (s.ctx i).reducible with
      | none =>
        have h0 : shedOne ⟨n, s⟩ i = ⟨n, s⟩ := by simp [shedOne, hov, hr]
        have hn : low i = none := (hlow i (by simp)).trans hr
        rw [h0, List.filter_cons, hn]
        exact ih s n ho' fun j hj => hlow j (by simp [hj])
      | some r =>
        have h0 : shedOne ⟨n, s⟩ i = ⟨n + 1, s.lower i r⟩ := by simp [shedOne, hov, hr]
        have hn : low i = some r := (hlow i (by simp)).trans hr
        have hne : ∀ j ∈ order, j ≠ i := fun j hj he => hi (he ▸ hj)
        obtain ⟨l, h1, h2, h3, h4⟩ := ih (s.lower i r) (n + 1) ho' fun j hj => by
          rw [reducible_lower s i r j (hne j hj)]; exact hlow j (by simp [hj])
        have hu : ∀ a, (∀ j ∈ a, j ≠ i) → (s.lower i r).unitsLowered low a = s.unitsLowered low (i :: a) := by
          intro a ha
          rw [unitsLowered, unitsLowered, List.foldl_cons, reserved_lower, hn]
          apply List.foldl_ext
          intro m j hj
          rw [costOf_lower, currentCost_lower _ _ _ _ (ha j hj)]
        have hl : ∀ j ∈ l, j ≠ i := fun j hj => hne j (List.mem_of_mem_filter (h1.subset hj))
        have hav : (s.lower i r).available = s.available := by simp
        refine ⟨i :: l, ?_, ?_, ?_, ?_⟩
        · rw [List.filter_cons, hn]
          exact (List.prefix_cons_inj i).mpr h1
        · have e1 : n + 1 + l.length = n + (i :: l).length := by rw [List.length_cons]; omega
          have e2 : lowerAll low (i :: l) s = lowerAll low l (s.lower i r) := by
            unfold lowerAll; rw [List.foldl_cons, hn]; rfl
          rw [h0, h2, e1, e2]
        · intro a j b hab
          cases a with
          | nil => exact of_decide_eq_true hov
          | cons x a =>
            obtain ⟨rfl, hl2⟩ := List.cons.inj hab
            have := h3 a j b hl2
            rw [hu a fun y hy => hl y (by rw [hl2]; simp [hy]), hav] at this
            exact this
        · intro h
          rw [← hu l hl, ← hav] at h
          rw [List.filter_cons, hn, h4 h]; rfl
    · have h0 : s.overCommitted = false := by simpa using hov
      refine ⟨[], List.nil_prefix, ?_, fun a j b h => by simp at h, fun h => ?_⟩
      · have : shedOne ⟨n, s⟩ i = ⟨n, s⟩ := by simp [shedOne, h0]
        rw [this, foldl_shedOne order ⟨n, s⟩ h0]; rfl
      · exact absurd (decide_eq_true h : s.overCommitted = true) hov

/-- Step two holds the first contexts of the order, each only while reserved exceeds available; where reserved still
exceeds it, all of them (R67). -/
theorem foldl_shedTwo_spec (order : List Nat) (s : State) (n : Nat) (ho : order.Nodup)
    (hc : ∀ i ∈ order, (s.ctx i).converting = true) :
    ∃ l, l <+: order ∧ order.foldl shedTwo ⟨n, s⟩ = ⟨n + l.length, shedAll l s⟩ ∧
      (∀ a i b, l = a ++ i :: b → s.available < a.foldl (fun m j => m - s.currentCost j) s.reserved) ∧
      (l.foldl (fun m j => m - s.currentCost j) s.reserved ≤ s.available ∨ l = order) := by
  induction order generalizing s n with
  | nil => exact ⟨[], List.prefix_refl _, rfl, fun a i b h => by simp at h, Or.inr rfl⟩
  | cons i order ih =>
    obtain ⟨hi, ho'⟩ := List.nodup_cons.mp ho
    rw [List.foldl_cons]
    by_cases hov : s.overCommitted = true
    · have h0 : shedTwo ⟨n, s⟩ i = ⟨n + 1, s.shed i⟩ := by simp [shedTwo, hov]
      have hci := hc i (by simp)
      obtain ⟨l, h1, h2, h3, h4⟩ := ih (s.shed i) (n + 1) ho' fun j hj => by
        rw [ctx_shed s i j hci, if_neg (fun he : j = i => hi (he ▸ hj))]; exact hc j (by simp [hj])
      have hu : ∀ a : List Nat, a.foldl (fun m j => m - (s.shed i).currentCost j) (s.shed i).reserved =
          (i :: a).foldl (fun m j => m - s.currentCost j) s.reserved := by
        intro a
        rw [List.foldl_cons, reserved_shed]
        apply List.foldl_ext
        intro m j _
        rw [currentCost_shed s i j hci]
      have hav : (s.shed i).available = s.available := by simp
      refine ⟨i :: l, (List.prefix_cons_inj i).mpr h1, ?_, ?_, ?_⟩
      · have e1 : n + 1 + l.length = n + (i :: l).length := by rw [List.length_cons]; omega
        rw [h0, h2, e1]; rfl
      · intro a j b hab
        cases a with
        | nil => exact of_decide_eq_true hov
        | cons x a =>
          obtain ⟨rfl, hl2⟩ := List.cons.inj hab
          have := h3 a j b hl2
          rw [hu a, hav] at this
          exact this
      · rw [hu l, hav] at h4
        rcases h4 with h4 | h4
        · exact Or.inl h4
        · exact Or.inr (by rw [h4])
    · have h0 : s.overCommitted = false := by simpa using hov
      refine ⟨[], List.nil_prefix, ?_, fun a j b h => by simp at h, Or.inl ?_⟩
      · have : shedTwo ⟨n, s⟩ i = ⟨n, s⟩ := by simp [shedTwo, h0]
        rw [this, foldl_shedTwo order ⟨n, s⟩ h0]; rfl
      · have : ¬ s.available < s.reserved := by simpa [overCommitted] using h0
        simpa using this

/-! ### The shedding order (R65) -/

theorem keys_sorted (s : State) (h : s.canonical = true) : s.ctxs.keys.Pairwise (· < ·) := by
  have hw := ((canonical_iff s).mp h).1
  revert hw
  generalize s.ctxs = t
  induction t with
  | nil => intro _; exact List.Pairwise.nil
  | cons e t ih =>
    intro hw
    obtain ⟨i, v⟩ := e
    simp only [Tab.wf, Bool.and_eq_true, List.all_eq_true, decide_eq_true_eq] at hw
    exact List.Pairwise.cons (fun j hj => hw.1.2 j hj) (ih hw.2)

/-- The listed contexts that meet a test the reset record fails are all that meet it. -/
theorem mem_indicesWhere (s : State) (f : Ctx → Bool) (hf : f Ctx.reset = false) (i : Nat) :
    i ∈ s.indicesWhere f ↔ f (s.ctx i) = true := by
  unfold indicesWhere
  rw [List.mem_filter]
  refine ⟨fun h => h.2, fun h => ⟨?_, h⟩⟩
  apply Tab.mem_keys_of_get_ne ctxDefault
  intro he
  change s.ctx i = Ctx.reset at he
  rw [he, hf] at h; cases h

theorem indicesWhere_sorted (s : State) (f : Ctx → Bool) (h : s.canonical = true) :
    (s.indicesWhere f).Pairwise (· < ·) := (keys_sorted s h).filter _

theorem mem_sheddingOrder (s : State) (hp : ∀ i, (s.ctx i).priority ≤ 3) (i : Nat) :
    i ∈ s.sheddingOrder ↔ (s.ctx i).converting = true := by
  have hd : ∀ n, Ctx.convertingAt n Ctx.reset = false := by intro n; simp [Ctx.convertingAt, Ctx.converting, Ctx.reset]
  simp only [sheddingOrder, List.mem_flatMap, List.mem_reverse, mem_indicesWhere s _ (hd _), Ctx.convertingAt,
    Bool.and_eq_true, decide_eq_true_eq]
  constructor
  · rintro ⟨n, _, h, _⟩; exact h
  · intro h
    refine ⟨(s.ctx i).priority, ?_, h, rfl⟩
    have := hp i
    simp only [List.mem_cons, List.not_mem_nil, or_false]
    omega

theorem sheddingOrder_sorted (s : State) (h : s.canonical = true) : s.sheddingOrder.Pairwise fun i j =>
    (s.ctx j).priority < (s.ctx i).priority ∨ (s.ctx i).priority = (s.ctx j).priority ∧ j < i := by
  have hd : ∀ n, Ctx.convertingAt n Ctx.reset = false := by intro n; simp [Ctx.convertingAt, Ctx.converting, Ctx.reset]
  have hm : ∀ n i, i ∈ (s.indicesWhere (Ctx.convertingAt n)).reverse → (s.ctx i).priority = n := by
    intro n i hi
    rw [List.mem_reverse, mem_indicesWhere s _ (hd n)] at hi
    simp only [Ctx.convertingAt, Bool.and_eq_true, decide_eq_true_eq] at hi
    exact hi.2
  unfold sheddingOrder
  rw [List.pairwise_flatMap]
  refine ⟨fun n _ => ?_, ?_⟩
  · have h1 : (s.indicesWhere (Ctx.convertingAt n)).reverse.Pairwise fun i j => j < i :=
      List.pairwise_reverse.mpr (indicesWhere_sorted s _ h)
    exact h1.imp_of_mem fun ha hb hab => Or.inr ⟨(hm n _ ha).trans (hm n _ hb).symm, hab⟩
  · refine List.Pairwise.imp (R := fun a b => b < a) (fun {a b} hab x hx y hy => Or.inl ?_) (by decide)
    rw [hm a x hx, hm b y hy]; exact hab

theorem sheddingOrder_nodup (s : State) (h : s.canonical = true) : s.sheddingOrder.Nodup :=
  (sheddingOrder_sorted s h).imp fun {a b} hab he => by subst he; rcases hab with h1 | h1 <;> omega

/-- `reducible` is the lowest index of a non-empty permitted set, where the current rate lies above it. -/
theorem reducible_iff (c : Ctx) (h : c.permitted ≠ some 0) (q : Nat) : c.reducible = some q ↔ LowersTo c q := by
  have hlow8 : ∀ set : RateSet, set ≠ 0 → set.getLsbD set.lowest = true ∧ set.lowest < 8 ∧
      ∀ x, x < 8 → set.getLsbD x = true → set.lowest ≤ x := by
    decide +kernel
  have hlow : ∀ set : RateSet, set ≠ 0 →
      set.getLsbD set.lowest = true ∧ ∀ x, set.getLsbD x = true → set.lowest ≤ x := fun set hs =>
    ⟨(hlow8 set hs).1, fun x hx => by
      by_cases h8 : x < 8
      · exact (hlow8 set hs).2.2 x h8 hx
      · have := (hlow8 set hs).2.1; omega⟩
  unfold Ctx.reducible LowersTo
  cases hp : c.permitted with
  | none => simp
  | some set =>
    cases hr : c.rate with
    | none => simp
    | some r =>
      have hs : set ≠ 0 := fun he => h (by rw [hp, he])
      obtain ⟨h1, h2⟩ := hlow set hs
      simp only
      constructor
      · intro hh
        split at hh
        · next hlt =>
          obtain rfl := Option.some.inj hh
          exact ⟨set, r, rfl, rfl, hlt, h1, h2⟩
        · cases hh
      · rintro ⟨set', r', e1, e2, h3, h4, h5⟩
        obtain rfl := Option.some.inj e1
        obtain rfl := Option.some.inj e2
        have : q = set.lowest := by
          have a := h5 _ h1; have b := h2 _ h4; omega
        subst this
        rw [if_pos h3]

/-- Step two after step one at one record. -/
theorem afterShedding_then (c : Ctx) (x : Option Nat) (held : Bool) :
    (c.afterShedding x false).afterShedding none held = c.afterShedding x held := by
  have hf : ∀ o : Option RateRequest, o = none → fromOrder o = false := fun o h => by rw [h]; rfl
  cases x <;> cases held <;> cases hr : fromOrder c.request <;>
    simp [Ctx.afterShedding, hr, hf, BitVec.or_assoc]

/-- The shedding pass, whole (R65 to R67). -/
theorem sheddingPass_spec (s : State) (h : s.canonical = true) (hp : ∀ i, (s.ctx i).priority ≤ 3)
    (hs : ∀ i, (s.ctx i).permitted ≠ some 0) :
    ∃ low order lowered held, ShedBy s (sheddingPass s).after low order lowered held ∧
      (sheddingPass s).lowered = lowered.length ∧ (sheddingPass s).held = held.length ∧
      (sheddingPass s).after.available = s.available := by
  have hm := mem_sheddingOrder s hp
  have hso := sheddingOrder_sorted s h
  have hnd := sheddingOrder_nodup s h
  obtain ⟨low, hlow⟩ : ∃ low : Nat → Option Nat, ∀ i, low i = (s.ctx i).reducible := ⟨_, fun _ => rfl⟩
  obtain ⟨lo, a1, a2, a3, a4⟩ := foldl_shedOne_spec s.sheddingOrder s 0 low hnd fun i _ => hlow i
  have hlnd : lo.Nodup := a1.sublist.nodup (hnd.filter _)
  obtain ⟨b1, b2, b3, b4, b5, b6, b7, b8, b9⟩ := lowerAll_spec low lo s hlnd fun i hi => by
    have := a1.subset hi
    rw [List.mem_filter] at this
    exact this.2
  have hconv : ∀ i ∈ s.sheddingOrder, ((lowerAll low lo s).ctx i).converting = true := fun i hi => by
    rw [b1]; exact (hm i).mp hi
  obtain ⟨he, c1, c2, c3, c4⟩ := foldl_shedTwo_spec s.sheddingOrder (lowerAll low lo s) 0 hnd hconv
  have hhnd : he.Nodup := c1.sublist.nodup hnd
  obtain ⟨d1, d2, d3, d4, d5, d6, d7, d8⟩ := shedAll_spec he (lowerAll low lo s) hhnd fun i hi => hconv i (c1.subset hi)
  have hcost : ∀ i, (lowerAll low lo s).currentCost i =
      if i ∈ lo then s.costOf i ((low i).getD 0) else s.currentCost i := by
    intro i
    by_cases hi : i ∈ lo
    · rw [if_pos hi]
      have hsome : (low i).isSome = true := by
        have := a1.subset hi
        rw [List.mem_filter] at this
        exact this.2
      obtain ⟨q, hq⟩ := Option.isSome_iff_exists.mp hsome
      have hr : ((lowerAll low lo s).ctx i).rate = some q := by rw [b1, if_pos hi]; simp [Ctx.afterShedding, hq]
      unfold currentCost
      rw [hr, hq]
      exact costOf_congr b8 i q (by rw [b1]; rfl)
    · rw [if_neg hi]
      exact currentCost_congr b8 i (by rw [b1]; rfl) (by rw [b1, if_neg hi]; simp [Ctx.afterShedding])
  have hheld : ∀ l : List Nat, l.foldl (fun m j => m - (lowerAll low lo s).currentCost j) (lowerAll low lo s).reserved =
      s.unitsHeld low lo l := by
    intro l
    rw [b2, unitsHeld]
    apply List.foldl_ext
    intro m j _
    rw [hcost]
  have hafter : (sheddingPass s).after = shedAll he (lowerAll low lo s) := by
    simp only [sheddingPass, a2, c2]
  have hhand : ∀ i, (lowerAll low lo s).handleOf i = s.handleOf i := fun i => by
    simp only [handleOf]; rw [b1]; rfl
  have hown : ∀ i, ((lowerAll low lo s).ctx i).owner = (s.ctx i).owner := fun i => by rw [b1]; rfl
  have hslot : ∀ i, ((lowerAll low lo s).ctx i).slot = (s.ctx i).slot := fun i => by rw [b1]; rfl
  have hzero : ∀ i, ((lowerAll low lo s).ctx i).conds = 0 ↔ (i ∉ lo ∧ (s.ctx i).conds = 0) := by
    intro i
    rw [b1]
    by_cases hi : i ∈ lo
    · have hsome : (low i).isSome = true := by
        have := a1.subset hi
        rw [List.mem_filter] at this
        exact this.2
      have : ((s.ctx i).afterShedding (low i) false).conds ≠ 0 := by
        intro h0
        have h1 : ((s.ctx i).afterShedding (low i) false).conds.getLsbD 3 = false := by rw [h0]; rfl
        simp [Ctx.afterShedding, hsome] at h1
      simp only [hi, if_true, this, not_true_eq_false, false_and]
    · simp [hi, Ctx.afterShedding]
  refine ⟨low, s.sheddingOrder, lo, he, ?_, ?_, ?_, ?_⟩
  · rw [hafter]
    refine ⟨hm, hso, fun i q => ?_, a1, a3, c1, fun l i rest hl => ?_, fun hne => ?_, ?_, ?_, fun i => ?_, fun p => ?_,
      fun n => ⟨?_, fun hn => ?_⟩, fun n => ?_, ?_, ?_⟩
    · rw [hlow]; exact reducible_iff _ (hs i) q
    · have := c3 l i rest hl
      rw [hheld, b9] at this
      exact this
    · cases he with
      | nil => exact absurd rfl hne
      | cons i rest =>
        have := c3 [] i rest rfl
        rw [b9, List.foldl_nil, b2] at this
        exact a4 this
    · rcases c4 with c4 | c4
      · exact Or.inl (by rw [← hheld, ← b9]; exact c4)
      · exact Or.inr c4
    · rw [d2, hheld]
    · rw [d1, b1]
      exact afterShedding_then ..
    · rw [d3, b3, List.append_assoc]
      congr 1
      rw [List.filter_append, List.filter_filter]
      congr 1
      apply List.filter_congr
      intro i _
      rw [Bool.eq_iff_iff]
      simp only [decide_eq_true_eq, Bool.and_eq_true, hown, hzero]
      tauto
    · rw [(d4 n).1, lane_congr b6]
    · rw [(d4 n).2 hn, lane_congr b6]
    · rw [d5]; simp only [hslot, block_congr b7]
    · rw [d6, b4]
      apply List.foldl_ext
      intro y i _
      rw [hhand]
    · rw [d7, b5]
      apply List.foldl_ext
      intro y i _
      rw [hhand]
  · simp only [sheddingPass, a2]; omega
  · simp only [sheddingPass, a2, c2]; omega
  · rw [hafter, d8, b9]

/-! ### The readmission pass (R69) -/

/-- A returned context (R14, R69). -/
theorem ctx_readmit (s : State) (i j : Nat) : ((s.leaveHeld i).raise i .readmitted).ctx j =
    if j = i then { (s.ctx i).fromHeld with conds := (s.ctx i).conds ||| 0x100#12 } else s.ctx j := by
  rw [ctx_raise, ctx_leaveHeld, ctx_leaveHeld]
  by_cases hj : j = i
  · subst hj; simp [add_readmitted, Ctx.fromHeld]
  · simp [hj]

theorem reserved_readmit (s : State) (i : Nat) :
    ((s.leaveHeld i).raise i .readmitted).reserved = s.reserved + s.currentCost i := by
  simp [leaveHeld, reserve]

theorem queueOf_readmit (s : State) (i : Nat) (p : Port) : ((s.leaveHeld i).raise i .readmitted).queueOf p =
    s.queueOf p ++ if (s.ctx i).owner = p ∧ (s.ctx i).conds = 0 then [i] else [] := by
  have hq : (s.leaveHeld i).queueOf p = s.queueOf p := queueOf_congr (leaveHeld_attention ..) p
  rw [queueOf_raise, ctx_leaveHeld, hq]
  simp only [if_true, Ctx.fromHeld]
  by_cases hz : (s.ctx i).conds = 0 ∧ p = (s.ctx i).owner
  · simp [hz]
  · rw [if_neg hz, if_neg (fun x => hz ⟨x.2, x.1.symm⟩), List.append_nil]

theorem currentCost_readmit (s : State) (i j : Nat) :
    ((s.leaveHeld i).raise i .readmitted).currentCost j = s.currentCost j :=
  currentCost_congr (by simp) j
    (by rw [ctx_readmit]; split
        · next h => subst h; rfl
        · rfl)
    (by rw [ctx_readmit]; split
        · next h => subst h; rfl
        · rfl)

/-- The walk of the readmission order: a context returns exactly when its cost fits as it is considered (R69). -/
theorem foldl_readmitOne_spec (order : List Nat) (s : State) (n : Nat) (ho : order.Nodup) :
    ∃ (l : List Nat) (t : State), order.foldl readmitOne ⟨n, s⟩ = ⟨n + l.length, t⟩ ∧ l.Sublist order ∧ t.available = s.available ∧
      t.reserved = s.reserved + (l.map s.currentCost).sum ∧
      (∀ a i b, order = a ++ i :: b → (i ∈ l ↔
        s.reserved + ((a.filter (· ∈ l)).map s.currentCost).sum + s.currentCost i ≤ s.available)) ∧
      (∀ j, t.ctx j = if j ∈ l then { (s.ctx j).fromHeld with conds := (s.ctx j).conds ||| 0x100#12 } else s.ctx j) ∧
      (∀ p, t.queueOf p = s.queueOf p ++ l.filter fun i => decide ((s.ctx i).owner = p ∧ (s.ctx i).conds = 0)) := by
  induction order generalizing s n with
  | nil =>
    refine ⟨[], s, rfl, List.Sublist.slnil, rfl, rfl, fun a i b h => by simp at h, fun j => by simp, fun p => ?_⟩
    exact (List.append_nil _).symm
  | cons i order ih =>
    obtain ⟨hi, ho'⟩ := List.nodup_cons.mp ho
    have hne : ∀ j ∈ order, j ≠ i := fun j hj he => hi (he ▸ hj)
    rw [List.foldl_cons]
    by_cases hf : s.fits (s.currentCost i) = true
    · have h0 : readmitOne ⟨n, s⟩ i = ⟨n + 1, (s.leaveHeld i).raise i .readmitted⟩ := by simp [readmitOne, hf]
      obtain ⟨l, t, h1, h2, h3, h4, h5, h6, h7⟩ := ih ((s.leaveHeld i).raise i .readmitted) (n + 1) ho'
      have hav : ((s.leaveHeld i).raise i .readmitted).available = s.available := by simp
      have hcc : ((s.leaveHeld i).raise i .readmitted).currentCost = s.currentCost :=
        funext (currentCost_readmit s i)
      have hil : i ∉ l := fun hm => hi (h2.subset hm)
      have hcx : ∀ j, j ≠ i → ((s.leaveHeld i).raise i .readmitted).ctx j = s.ctx j := fun j hj => by
        rw [ctx_readmit, if_neg hj]
      have e1 : n + 1 + l.length = n + (i :: l).length := by rw [List.length_cons]; omega
      refine ⟨i :: l, t, by rw [h0, h1, e1], h2.cons_cons i, h3.trans hav, ?_, ?_, fun j => ?_, fun p => ?_⟩
      · rw [h4, reserved_readmit, hcc, List.map_cons, List.sum_cons]; omega
      · intro a j b hab
        cases a with
        | nil =>
          obtain ⟨rfl, -⟩ := List.cons.inj hab
          have : s.reserved + s.currentCost i ≤ s.available := of_decide_eq_true hf
          simpa using this
        | cons x a =>
          obtain ⟨rfl, hl2⟩ := List.cons.inj hab
          have hj : j ≠ i := hne j (by rw [hl2]; simp)
          have h := h5 a j b hl2
          rw [hcc, reserved_readmit, hav] at h
          have hfil : (a.filter fun y => decide (y ∈ i :: l)) = a.filter fun y => decide (y ∈ l) := by
            apply List.filter_congr
            intro y hy
            have : y ≠ i := hne y (by rw [hl2]; simp [hy])
            simp [this]
          rw [List.mem_cons, or_iff_right hj, h, List.filter_cons, if_pos (by simp), hfil, List.map_cons, List.sum_cons]
          omega
      · rw [h6]
        by_cases hj : j = i
        · subst hj; rw [if_neg hil, if_pos (by simp), ctx_readmit, if_pos rfl]
        · simp only [List.mem_cons, hj, false_or, hcx j hj]
      · rw [h7, queueOf_readmit, List.append_assoc, List.filter_cons]
        congr 1
        have : (l.filter fun j => decide ((((s.leaveHeld i).raise i .readmitted).ctx j).owner = p ∧
            (((s.leaveHeld i).raise i .readmitted).ctx j).conds = 0)) =
            l.filter fun j => decide ((s.ctx j).owner = p ∧ (s.ctx j).conds = 0) :=
          List.filter_congr fun j hj => by rw [hcx j (hne j (h2.subset hj))]
        rw [this]
        by_cases hz : (s.ctx i).owner = p ∧ (s.ctx i).conds = 0
        · simp only [hz.1, hz.2, and_self, decide_true, if_true]; rfl
        · simp only [hz, decide_false, Bool.false_eq_true, if_false, List.nil_append]
    · have h0 : readmitOne ⟨n, s⟩ i = ⟨n, s⟩ := by simp [readmitOne, hf]
      obtain ⟨l, t, h1, h2, h3, h4, h5, h6, h7⟩ := ih s n ho'
      have hil : i ∉ l := fun hm => hi (h2.subset hm)
      refine ⟨l, t, by rw [h0, h1], h2.cons i, h3, h4, ?_, h6, h7⟩
      intro a j b hab
      cases a with
      | nil =>
        obtain ⟨rfl, -⟩ := List.cons.inj hab
        have : ¬ s.reserved + s.currentCost i ≤ s.available := fun hh => hf (decide_eq_true hh)
        simpa [hil] using this
      | cons x a =>
        obtain ⟨rfl, hl2⟩ := List.cons.inj hab
        have h := h5 a j b hl2
        rw [h, List.filter_cons, if_neg (by simpa using hil)]

theorem mem_readmissionOrder (s : State) (hp : ∀ i, (s.ctx i).priority ≤ 3) (i : Nat) :
    i ∈ s.readmissionOrder ↔ (s.ctx i).state = .held ∧ (s.ctx i).holdCause = some .shed := by
  have hd : ∀ n, Ctx.shedAt n Ctx.reset = false := by intro n; simp [Ctx.shedAt, Ctx.reset]
  simp only [readmissionOrder, List.mem_flatMap, mem_indicesWhere s _ (hd _), Ctx.shedAt,
    Bool.and_eq_true, decide_eq_true_eq]
  constructor
  · rintro ⟨n, _, h, _⟩; exact h
  · intro h
    refine ⟨(s.ctx i).priority, ?_, h, rfl⟩
    have := hp i
    simp only [List.mem_cons, List.not_mem_nil, or_false]
    omega

theorem readmissionOrder_sorted (s : State) (h : s.canonical = true) : s.readmissionOrder.Pairwise fun i j =>
    (s.ctx i).priority < (s.ctx j).priority ∨ (s.ctx i).priority = (s.ctx j).priority ∧ i < j := by
  have hd : ∀ n, Ctx.shedAt n Ctx.reset = false := by intro n; simp [Ctx.shedAt, Ctx.reset]
  have hm : ∀ n i, i ∈ s.indicesWhere (Ctx.shedAt n) → (s.ctx i).priority = n := by
    intro n i hi
    rw [mem_indicesWhere s _ (hd n)] at hi
    simp only [Ctx.shedAt, Bool.and_eq_true, decide_eq_true_eq] at hi
    exact hi.2
  unfold readmissionOrder
  rw [List.pairwise_flatMap]
  refine ⟨fun n _ => ?_, ?_⟩
  · exact (indicesWhere_sorted s _ h).imp_of_mem fun ha hb hab => Or.inr ⟨(hm n _ ha).trans (hm n _ hb).symm, hab⟩
  · refine List.Pairwise.imp (R := fun a b => a < b) (fun {a b} hab x hx y hy => Or.inl ?_) (by decide)
    rw [hm a x hx, hm b y hy]; exact hab

/-- The readmission pass, whole (R69). -/
theorem readmissionPass_spec (s : State) (h : s.canonical = true) (hp : ∀ i, (s.ctx i).priority ≤ 3) :
    ∃ order returned, ReadmittedBy s (readmissionPass s).after order returned ∧
      (readmissionPass s).count = returned.length ∧ (readmissionPass s).after.available = s.available := by
  have hso := readmissionOrder_sorted s h
  have hnd : s.readmissionOrder.Nodup :=
    hso.imp fun {a b} hab he => by subst he; rcases hab with h1 | h1 <;> omega
  obtain ⟨l, t, h1, h2, h3, h4, h5, h6, h7⟩ := foldl_readmitOne_spec s.readmissionOrder s 0 hnd
  have ht : (readmissionPass s).after = t := by rw [readmissionPass, h1]
  refine ⟨s.readmissionOrder, l, ?_, by rw [readmissionPass, h1]; simp, by rw [ht, h3]⟩
  rw [ht]
  refine ⟨mem_readmissionOrder s hp, hso, h2, h5, h4, fun i hi hl => ?_, h6, h7⟩
  obtain ⟨a, b, hab⟩ := List.append_of_mem hi
  have hn := mt (h5 a i b hab).mpr hl
  have hle : ((a.filter (· ∈ l)).map s.currentCost).sum ≤ (l.map s.currentCost).sum := by
    have hsub : (a.filter (· ∈ l)).Sublist s.readmissionOrder :=
      List.filter_sublist.trans (by rw [hab]; exact List.sublist_append_left ..)
    have hp' : (a.filter (· ∈ l)).Subperm l :=
      List.subperm_of_subset (hsub.nodup hnd) fun x hx => by
        have := (List.mem_filter.mp hx).2
        exact of_decide_eq_true this
    obtain ⟨m, hm1, hm2⟩ := hp'
    rw [← (hm1.map s.currentCost).sum_eq]
    exact (hm2.map s.currentCost).sum_le_sum fun _ _ => Nat.zero_le _
  rw [h4]
  omega

/-! ### What the passes leave unchanged -/

/-- Whatever lowering and holding one context keep, the shedding pass keeps. -/
theorem sheddingPass_keeps {α : Type} (f : State → α) (h1 : ∀ s i r, f (lower s i r) = f s)
    (h2 : ∀ s i, f (shed s i) = f s) (s : State) : f (sheddingPass s).after = f s := by
  have one : ∀ (l : List Nat) (w : Walk), f (l.foldl shedOne w).after = f w.after := by
    intro l
    induction l with
    | nil => intro w; rfl
    | cons i l ih =>
      intro w
      rw [List.foldl_cons, ih]
      unfold shedOne
      split
      · split
        · exact h1 _ _ _
        · rfl
      · rfl
  have two : ∀ (l : List Nat) (w : Walk), f (l.foldl shedTwo w).after = f w.after := by
    intro l
    induction l with
    | nil => intro w; rfl
    | cons i l ih =>
      intro w
      rw [List.foldl_cons, ih]
      unfold shedTwo
      split
      · exact h2 _ _
      · rfl
  exact (two _ _).trans (one _ _)

/-- Whatever the return of one context keeps, the readmission pass keeps. -/
theorem readmissionPass_keeps {α : Type} (f : State → α)
    (h : ∀ s i, f ((leaveHeld s i).raise i .readmitted) = f s) (s : State) : f (readmissionPass s).after = f s := by
  have walk : ∀ (l : List Nat) (w : Walk), f (l.foldl readmitOne w).after = f w.after := by
    intro l
    induction l with
    | nil => intro w; rfl
    | cons i l ih =>
      intro w
      rw [List.foldl_cons, ih]
      unfold readmitOne
      split
      · exact h _ _
      · rfl
  exact walk _ _

/-- The shedding pass moves contexts, units, queues, lanes, blocks and tallies alone (R65 to R67). -/
theorem sheddingPass_frame (s : State) : (sheddingPass s).after = { s with
    ctxs := (sheddingPass s).after.ctxs, reserved := (sheddingPass s).after.reserved,
    attention := (sheddingPass s).after.attention, lanes := (sheddingPass s).after.lanes,
    blocks := (sheddingPass s).after.blocks, tally0 := (sheddingPass s).after.tally0,
    tally1 := (sheddingPass s).after.tally1 } := by
  apply eq_of_fields <;> first
    | rfl
    | exact sheddingPass_keeps _ (fun s i r => by simp) (fun s i => by simp) s

/-- The readmission pass moves contexts, units and queues alone (R69). -/
theorem readmissionPass_frame (s : State) : (readmissionPass s).after = { s with
    ctxs := (readmissionPass s).after.ctxs, reserved := (readmissionPass s).after.reserved,
    attention := (readmissionPass s).after.attention } := by
  apply eq_of_fields <;> first
    | rfl
    | exact readmissionPass_keeps _ (fun s i => by simp) s

/-! ### Every context taken to FREE (R25) -/

/-- A cost depends on a profile's contents, not on its reference count. -/
theorem costOf_congr_state {s t : State} (hp : ∀ n, (s.profile n).state = (t.profile n).state) (i r : Nat)
    (hc : (s.ctx i).profile = (t.ctx i).profile) : s.costOf i r = t.costOf i r := by
  have h : s.profileOf i = t.profileOf i := by
    unfold profileOf contents
    rw [hc]
    cases (t.ctx i).profile with
    | none => rfl
    | some n => simp only [hp]
  unfold costOf rateEntry
  rw [h]

theorem reserved_enterFree (s : State) (i : Nat) : (s.enterFree i).reserved = s.reserved - s.reservation i := by
  have h : (s.enterFree i).reserved = (s.releaseHoldings i).reserved := by simp [enterFree, unqueue]
  rw [h, reserved_releaseHoldings]

theorem lane_enterFree (s : State) (i m : Nat) : (s.enterFree i).lane m =
    if m < 8 ∧ (s.lane m).inHand = some i then { s.lane m with inHand := none } else s.lane m := by
  have h : (s.enterFree i).lanes = (s.releaseHoldings i).lanes := by simp [enterFree, unqueue]
  rw [lane_congr h, lane_releaseHoldings]

theorem profile_enterFree (s : State) (i m : Nat) : (s.enterFree i).profile m =
    if (s.ctx i).profile = some m then { s.profile m with refs := (s.profile m).refs - 1 } else s.profile m := by
  have h : (s.enterFree i).profiles = (s.releaseHoldings i).profiles := by simp [enterFree, unqueue]
  rw [profile_congr h, profile_releaseHoldings]

theorem reservation_enterFree (s : State) (i j : Nat) (h : j ≠ i) :
    (s.enterFree i).reservation j = s.reservation j := by
  have hc : (s.enterFree i).ctx j = s.ctx j := by rw [ctx_enterFree, if_neg h]
  have hp : ∀ n, ((s.enterFree i).profile n).state = (s.profile n).state := fun n => by
    rw [profile_enterFree]; split <;> rfl
  unfold reservation currentCost
  rw [hc]
  cases (s.ctx j).rate with
  | none => rfl
  | some r => simp only; rw [costOf_congr_state hp j r (by rw [hc])]

/-- What entry into FREE of the contexts of a list without repetition does (R18, R25). -/
theorem foldl_enterFree_spec (l : List Nat) (s : State) (hl : l.Nodup) :
    (∀ j, (l.foldl enterFree s).ctx j = if j ∈ l then
      { (s.ctx j).released with state := .free, gen := (s.ctx j).gen + 1, conds := 0 } else s.ctx j) ∧
    (l.foldl enterFree s).reserved = s.reserved - (l.map s.reservation).sum ∧
    (∀ n, (l.foldl enterFree s).profile n =
      { s.profile n with refs := (s.profile n).refs - (l.filter fun i => (s.ctx i).profile = some n).length }) ∧
    ∀ n, ((l.foldl enterFree s).lane n).state = (s.lane n).state ∧
      (n < 8 → ((l.foldl enterFree s).lane n).inHand = (s.lane n).inHand.filter (· ∉ l)) := by
  induction l generalizing s with
  | nil =>
    refine ⟨fun j => by simp, by simp, fun n => by simp, fun n => ⟨rfl, fun _ => ?_⟩⟩
    cases h : (s.lane n).inHand <;> simp [h, Option.filter]
  | cons i l ih =>
    obtain ⟨hi, hl'⟩ := List.nodup_cons.mp hl
    have hne : ∀ j ∈ l, j ≠ i := fun j hj he => hi (he ▸ hj)
    have hcx : ∀ j ∈ l, (s.enterFree i).ctx j = s.ctx j := fun j hj => by rw [ctx_enterFree, if_neg (hne j hj)]
    obtain ⟨h1, h2, h3, h4⟩ := ih (s.enterFree i) hl'
    simp only [List.foldl_cons]
    refine ⟨fun j => ?_, ?_, fun n => ?_, fun n => ⟨?_, fun hn => ?_⟩⟩
    · rw [h1, ctx_enterFree]
      by_cases hj : j = i
      · subst hj; simp [hi]
      · simp [hj]
    · have hm : l.map (s.enterFree i).reservation = l.map s.reservation :=
        List.map_congr_left fun j hj => reservation_enterFree s i j (hne j hj)
      rw [h2, reserved_enterFree, hm, List.map_cons, List.sum_cons]; omega
    · have hf : (l.filter fun j => decide (((s.enterFree i).ctx j).profile = some n)) =
          l.filter fun j => decide ((s.ctx j).profile = some n) :=
        List.filter_congr fun j hj => by rw [hcx j hj]
      rw [h3, hf, profile_enterFree, List.filter_cons]
      by_cases hp : (s.ctx i).profile = some n
      · simp only [hp, if_true, decide_true, List.length_cons]
        congr 1; omega
      · simp [hp]
    · rw [(h4 n).1, lane_enterFree]; split <;> rfl
    · rw [(h4 n).2 hn, lane_enterFree]
      cases hh : (s.lane n).inHand with
      | none => simp [hh]
      | some j =>
        by_cases hj : j = i
        · subst hj; simp [hn, Option.filter]
        · simp [hn, hh, hj, Option.filter]

theorem mem_liveContexts (s : State) (i : Nat) : i ∈ s.liveContexts ↔ (s.ctx i).state ≠ .free := by
  unfold liveContexts
  rw [mem_indicesWhere s _ (by simp [Ctx.reset])]
  simp

end State

end Sys2Proof.Machine
end

