-- ==== Sys2Proof/Tests/Slice0.lean ====
section
/-! SUPPORT. The model's own tests: ill-formed commands that the check refuses, values the manual prints, small steps,
and for every obligation with hypotheses a state and operands that meet them (`test_meets_…`). -/

namespace Sys2Proof.Machine

/-! ### Well-formedness -/

theorem test_wf_body_of_1020 : (Instr.query .a 0 (List.replicate 1020 0)).WellFormed = true := by decide +kernel
theorem test_ill_body_of_1021 : (Instr.query .a 0 (List.replicate 1021 0)).WellFormed = false := by decide +kernel
theorem test_wf_unknown_order : (Instr.unknownOrder .b 0x07 1 []).WellFormed = true := by decide
theorem test_ill_unknown_order_known : (Instr.unknownOrder .b 0x10 1 []).WellFormed = false := by decide
theorem test_ill_unknown_order_long : (Instr.unknownOrder .b 7 1 (List.replicate 1021 0)).WellFormed = false := by
  decide +kernel
theorem test_wf_length_1021 : (Instr.frameTooLong .a 1021).WellFormed = true := by decide
theorem test_ill_length_1020 : (Instr.frameTooLong .a 1020).WellFormed = false := by decide
theorem test_ill_length_65536 : (Instr.frameTooLong .a 65536).WellFormed = false := by decide
theorem test_wf_codes : (Instr.frameMark [(0, 0xD5), (2047, 0xFF)]).WellFormed = true := by decide
theorem test_ill_slot_2048 : (Instr.frameMark [(2048, 0)]).WellFormed = false := by decide
theorem test_ill_slot_twice : (Instr.frameMark [(5, 0), (5, 1)]).WellFormed = false := by decide

/-! ### The table gives no bits -/

theorem test_no_word_decodes : decodeTableWord 32 0xDEADBEEF = none := rfl
theorem test_no_word_is_queued : State.reset.withFetchWord 32 5 = State.reset := by decide

/-! ### Values the manual prints -/

/-- R27, R91: the idle codes. -/
theorem test_idle_codes : Law.idle .aLaw = 0xD5 ∧ Law.idle .muLaw = 0xFF := by decide

/-- R91: the largest and smallest levels. -/
theorem test_levels : Law.level .aLaw 127 = 32256 ∧ Law.level .muLaw 127 = 32124 ∧ Law.level .aLaw 0 = 8 ∧
    Law.expand .aLaw 0xFB = 976 ∧ Law.expand .aLaw 0xFA = 1008 := by decide

/-- R93's worked example, x = 1000. -/
theorem test_compress_1000 :
    [RoundMode.nearestEven, .towardZero, .downward, .upward].map (fun m => Law.compress .aLaw m 1000) =
      [0xFA, 0xFB, 0xFB, 0xFA] := by decide

/-- R93's worked example, x = 992, midway. -/
theorem test_compress_992 :
    [RoundMode.nearestEven, .towardZero, .downward, .upward].map (fun m => Law.compress .aLaw m 992) =
      [0xFB, 0xFB, 0xFB, 0xFA] := by decide

/-- R93's worked example, x = -1000, by the levels of its codes. -/
theorem test_compress_minus_1000 :
    [RoundMode.nearestEven, .towardZero, .downward, .upward].map
      (fun m => Law.expand .aLaw (Law.compress .aLaw m (-1000))) = [-1008, -976, -1008, -976] := by decide

/-- R92's worked example: 9000 at +12 dB clips and compresses to the largest code under every mode. -/
theorem test_gain_clips : scale 12 1000 = 3981 ∧ scale 12 9000 = 35830 ∧ clips 35830 = true ∧ limit 35830 = 32767 ∧
    Law.compress .aLaw .downward 32767 = Law.byteOf .aLaw true 127 := by decide

/-- R165, R189: a BATCH of 8 QUERY passes the size test, one of 9 does not. -/
theorem test_batch_size : batchSize (List.replicate 8 (0x12, [0, 0, 0])) ≤ 1020 ∧
    1020 < batchSize (List.replicate 9 (0x12, [0, 0, 0])) := by decide

/-- R189: 40 orders, each named by its code. -/
theorem test_order_codes : OrderCode.all.length = 40 ∧
    OrderCode.all.map (fun c => OrderCode.ofByte c.byte) = OrderCode.all.map some := by decide

/-! ### Small states -/

/-- An OPEN context of Port A, complete: slot 5, link 1 tag 77, profile 0 with every rate, at its default 5. -/
def complete : Ctx :=
  { Ctx.reset with
    state := .opened, slot := some ⟨5, .aLaw⟩, primary := some ⟨1, 77⟩, profile := some 0, permitted := some 0x3F,
    rate := some 5 }

/-- It ARMED. -/
def armed : Ctx := { complete with state := .armed, firstRemaining := some 250 }

/-- It ACTIVE, expecting sequence 10 with an empty queue. -/
def active : Ctx := { complete with state := .active, expected := some 10 }

/-- It HELD by ORDER from ACTIVE. -/
def held : Ctx := { complete with state := .held, holdCause := some .order, heldFrom := some .active }

/-- It CLOSED for silence, RETIRED pending. -/
def closed : Ctx :=
  { Ctx.reset with state := .closed, retireCause := some .silence, conds := 0x800 }

/-- A work of the ACTIVE context. -/
def aWork : Work :=
  { rate := 5, length := 31, family := .narrowMulti, primary := some ⟨1, 77⟩, bicast := none, outSeq := 0,
    gainLand := 0, gainMobile := 0, round := .nearestEven, clipReport := false, landline := [], uplink := .noSamples,
    history := 0 }

/-- A handover record to link 2, tag 99. -/
def aHandover (n : Nat) : Handover := ⟨⟨2, 99⟩, true, n⟩

/-- The part with record `c` at index 3, its slot and primary key mapped and `reserved` units reserved. -/
def part (c : Ctx) (reserved : Nat) : State :=
  { State.reset with
    ctxs := [(3, c)], slotMap := [(5, some 3)], streamMap := [(0, some ⟨⟨1, 77⟩, 3, .primary⟩)],
    profiles := [(0, { profileDefault 0 with refs := 1 })], reserved := reserved }

/-- The part with nothing in the maps but record `c` at index 3. -/
def bare (c : Ctx) : State := { State.reset with ctxs := [(3, c)] }

/-- Its handover key in the second map entry. -/
def handed (s : State) : State := s.setStreamEntry 1 (some ⟨⟨2, 99⟩, 3, .handover⟩)

/-- A boundary just produced: every claim outstanding. -/
def due (s : State) : State := { s with timer := ⟨some 0, 1, true, [], ⟨true, true⟩⟩ }

/-- Lane 7 has the work of context 3 in hand. -/
def inLane (s : State) : State := s.setLane 7 ⟨.inService, some 3⟩

/-- Port A in supervision state `st` with count `n`. -/
def supervised (st : SupState) (n : Nat) : State :=
  State.reset.setPort .a { PortState.reset with sup := ⟨st, n, ⟨true, false, 3000, 250⟩⟩ }

/-- The outcome is a next state that meets `q`. -/
def nextIs (o : Host.Outcome State Fault Refusal) (q : State → Bool) : Bool :=
  match o with
  | .next t => q t
  | .fault _ => false
  | .refused _ => false

/-! ### Small steps: one command each -/

theorem test_empty_queue_idles : State.reset.pending = [] ∧ nextIs (step State.reset) (· = State.reset) = true := by
  decide

theorem test_step_runs_front : nextIs (step { State.reset with pending := [.powerOn, .resetPin] })
    (· = { State.reset with pending := [.resetPin] }) = true := by decide

theorem test_open : nextIs (exec (.openContext .a 9 [0xFF]) State.reset) (fun t =>
    (t.ctx 0).state = .opened && (t.ctx 0).priority = 2 &&
      (t.port .a).line = [⟨0x90, 9, .ok, .single (.handle ⟨0, 0⟩)⟩]) = true := by decide

theorem test_open_bad_field : nextIs (exec (.openContext .a 9 [4]) State.reset) (fun t =>
    (t.port .a).line = [⟨0x90, 9, .badField, .single .nothing⟩]) = true := by decide

theorem test_arm : nextIs (exec (.arm .a 1 [3, 0, 0]) (part complete 0)) (fun t =>
    (t.ctx 3).state = .armed && t.reserved = 48 && (t.ctx 3).firstRemaining = some 250) = true := by decide

theorem test_held_and_resumed_slot_stays_idle :
    (((part active 48).setBlock 5 ⟨some [], none, some [0x00]⟩).drive 5,
      ((((part active 48).setBlock 5 ⟨some [], none, some [0x00]⟩).enterHeld 3 .order).leaveHeld 3).drive 5) =
      (Drive.speech, Drive.idle) := by decide

theorem test_hold : nextIs (exec (.hold .a 1 [3, 0, 0]) (part active 48)) (fun t =>
    (t.ctx 3).state = .held && t.reserved = 0 && (t.ctx 3).heldFrom = some .active) = true := by decide

theorem test_retire : nextIs (exec (.retire .a 1 [3, 0, 0]) (part active 48)) (fun t =>
    (t.ctx 3).gen = 1 && (t.slotEntry 5).isNone && (t.streamEntry 0).isNone && t.reserved = 0) = true := by
  decide

theorem test_stale_handle : nextIs (exec (.retire .a 1 [3, 0, 1]) (part active 48)) (fun t =>
    (t.port .a).line = [⟨0x91, 1, .staleHandle, .single .nothing⟩] && (t.ctx 3).state = .active) = true := by
  decide

theorem test_first_cell : nextIs (exec (.cellArrival 1 [77, 0, 0, 0, 10, 0, 0xF0, 0]) (part armed 48)) (fun t =>
    (t.ctx 3).state = .armed) = true := by decide

/-- A NO_DATA cell of sequence 10: tag 77, kind 2, no request. -/
theorem test_first_cell_activates : nextIs (exec (.cellArrival 1 [77, 0, 0x20, 10, 0, 0xF0, 0, 0]) (part armed 48))
    (fun t => (t.ctx 3).state = .active && (t.ctx 3).expected = some 10 && (t.ctx 3).conds = 1 &&
      t.queueOf .a = [3]) = true := by decide

theorem test_boundary_starts_work : nextIs (exec (.boundaryClaim 3) (due (part active 48))) (fun t =>
    (t.ctx 3).work.map Work.uplink = some .conceal && (t.ctx 3).expected = some 11 && (t.ctx 3).silence = 1) = true := by
  decide

theorem test_work_sends_its_cell :
    nextIs (exec (.workCompletion 7) (inLane (part { active with work := some aWork } 48))) (fun t =>
      ((t.link 1).map fun c => (c.tag, c.rate, c.seq, c.payload.length)) = [(77, 5, 0, 31)] &&
        (t.ctx 3).outSeq = 1 && (t.lane 7).inHand = none) = true := by decide

theorem test_pin_holds_everything :
    nextIs (exec (.openContext .a 0 [0xFF]) { State.reset with pinHeld := true }) (· = { State.reset with pinHeld := true }) =
      true := by decide

theorem test_response_bytes :
    (⟨0x90, 9, .ok, .single (.handle ⟨258, 7⟩)⟩ : Response).frame = [0x5A, 3, 0, 0x90, 9, 0, 2, 1, 7, 0xA6, 0] := by
  decide

/-- R51, R187: PROFILE_CLEAR of an EMPTY slot answers with its number and the state code EMPTY. -/
theorem test_vacant_bytes : (RespBody.profileVacant 9).bytes = [9, 0] := by decide

/-- R52's listing of fixed profile 1: family, count, its one entry, default, rate hold, stamp. -/
theorem test_profile_bytes : (match (profileDefault 1).state with
    | .fixed c => c.bytes
    | _ => []) = [1, 1, 33, 30, 0, 0, 0, 0, 0] := by decide

/-! ### A coherent state -/

theorem ctx_part (c : Ctx) (n i : Nat) : (part c n).ctx i = if i = 3 then c else Ctx.reset := by
  simp only [part, State.ctx, Tab.get, ctxDefault]

theorem slotEntry_part (c : Ctx) (n i : Nat) : (part c n).slotEntry i = if i = 5 then some 3 else none := by
  simp only [part, State.slotEntry, Tab.get, slotDefault]

theorem streamEntry_part (c : Ctx) (n i : Nat) :
    (part c n).streamEntry i = if i = 0 then some ⟨⟨1, 77⟩, 3, .primary⟩ else none := by
  simp only [part, State.streamEntry, Tab.get, streamDefault]

theorem profile_part (c : Ctx) (n i : Nat) :
    (part c n).profile i = if i = 0 then { profileDefault 0 with refs := 1 } else profileDefault i := by
  simp only [part, State.profile, Tab.get]

theorem profileDefault_ascending (n : Nat) (c : Profile) (h : (profileDefault n).state = .fixed c) :
    c.table.Pairwise fun a b => a.cost < b.cost := by
  match n with
  | 0 | 1 | 2 | 3 => cases h; decide
  | n + 4 => cases h

/-- The part with the ACTIVE context is coherent. -/
theorem test_part_coherent : (part active 48).coherent := by
  refine ⟨by decide, fun i => ?_, fun n i => ?_, ⟨?_, ?_, ?_, ?_⟩, fun n => ?_, ⟨?_, ?_⟩, ⟨by decide, by decide⟩, ?_, ?_,
    fun p => ⟨by cases p <;> decide, fun i => ?_⟩⟩
  · rw [ctx_part]
    by_cases h : i = 3
    · simp only [h, if_true]
      refine ⟨?_, ⟨by decide, fun e he => ⟨List.Pairwise.nil, fun x hx => by cases hx⟩⟩, by decide, by decide⟩
      unfold Ctx.partsMatch
      exact ⟨by decide, by decide, by decide, by decide, by decide, by decide, by decide, by decide, by decide, by decide,
        by decide, by decide⟩
    · simp only [h, if_false]
      refine ⟨?_, ⟨by decide, fun e he => by cases he⟩, by decide, fun _ => rfl⟩
      unfold Ctx.partsMatch
      refine ⟨by decide, by decide, by decide, by decide, by decide, fun _ => ⟨rfl, rfl, rfl, fun w hw => by cases hw⟩,
        by decide, by decide, by decide, by decide, by decide, by decide⟩
  · rw [slotEntry_part, ctx_part]
    by_cases h : i = 3
    · subst h
      by_cases hn : n = 5
      · subst hn; decide
      · simp only [hn, if_false, if_true]
        exact ⟨fun e => (nomatch e), fun e => absurd (Option.some.inj e).symm hn⟩
    · by_cases hn : n = 5
      · simp only [hn, if_true, h, if_false]
        exact ⟨fun e => absurd (Option.some.inj e).symm h, fun e => (nomatch e)⟩
      · simp only [hn, if_false, h]
        exact ⟨fun e => (nomatch e), fun e => (nomatch e)⟩
  · rintro n m k ⟨e, he, _⟩ ⟨f, hf, _⟩
    rw [streamEntry_part] at he hf
    split at he <;> split at hf <;> simp_all
  · intro n e he
    rw [streamEntry_part] at he
    split at he <;> simp_all
  · intro i k
    rw [ctx_part]
    constructor
    · intro h
      by_cases hi : i = 3
      · subst hi
        simp only [if_true] at h
        obtain rfl := Option.some.inj h
        exact ⟨0, rfl⟩
      · simp only [hi, if_false] at h; cases h
    · rintro ⟨n, hn⟩
      rw [streamEntry_part] at hn
      split at hn
      · obtain ⟨rfl, rfl, -⟩ := StreamEntry.mk.inj (Option.some.inj hn)
        rfl
      · cases hn
  · intro i k
    rw [ctx_part]
    constructor
    · intro h
      by_cases hi : i = 3 <;> simp only [hi, if_true, if_false] at h <;> cases h
    · rintro ⟨n, hn⟩
      rw [streamEntry_part] at hn
      split at hn <;> cases hn
  · rw [profile_part]
    by_cases hn : n = 0
    · subst hn; decide
    · have h1 : ((part active 48).indicesWhere fun c => c.profile = some n) = [] := by
        simp only [State.indicesWhere, part, Tab.keys, List.map_cons, List.map_nil]
        have : active.profile ≠ some n := fun e => hn (Option.some.inj e).symm
        simp [State.ctx, Tab.get, this]
      rw [h1]
      match n, hn with
      | 1, _ | 2, _ | 3, _ => rfl
      | n + 4, _ => rfl
  · intro n c h
    have hs : ∀ m, ((part active 48).profile m).state = (profileDefault m).state := fun m => by
      rw [profile_part]; split
      · next e => subst e; rfl
      · rfl
    unfold State.contents at h
    rw [hs] at h
    split at h
    · cases h
    · next d hd => match n with
      | 0 | 1 | 2 | 3 => cases hd
      | n + 4 => cases hd
    · next d hd => obtain rfl := Option.some.inj h; exact profileDefault_ascending n d hd
  · intro i set h
    rw [ctx_part] at h
    by_cases hi : i = 3
    · subst hi
      obtain rfl := Option.some.inj h
      refine ⟨by decide, ⟨⟨.narrowMulti, [⟨12, 34⟩, ⟨15, 36⟩, ⟨18, 39⟩, ⟨22, 42⟩, ⟨26, 45⟩, ⟨31, 48⟩], 5, 2, 0⟩, rfl,
        fun r hr => ?_⟩, fun r hr => ?_, fun q hq => by cases hq⟩
      · have h8 : r < 8 := by
          by_contra hc
          have : (0x3F : RateSet).getLsbD r = false := BitVec.getLsbD_of_ge _ _ (by omega)
          rw [this] at hr; cases hr
        revert hr; revert h8; revert r; decide
      · obtain rfl := Option.some.inj hr; decide
    · simp only [hi, if_false] at h; cases h
  · intro n i h; cases h
  · intro p n h; cases p <;> cases h
  · rw [ctx_part]
    have hq : (part active 48).queueOf p = [] := by cases p <;> rfl
    rw [hq]
    by_cases h : i = 3
    · simp only [h, if_true]
      exact ⟨fun m => (nomatch m), fun m => absurd rfl m.2⟩
    · simp only [h, if_false]
      exact ⟨fun m => (nomatch m), fun m => absurd rfl m.2⟩

/-! ### What the hypotheses of the obligations ask is met

Each theorem below gives a state and operands that meet every hypothesis of one obligation, or of one clause of it;
where the clause bounds an operand, at a bound. -/

theorem test_meets_StepTakesFrontCommand : State.reset.pending = [] := rfl

theorem test_meets_EveryCommandCompletes : { State.reset with pinHeld := true }.pinHeld = true ∧
    Instr.framingLost ≠ .resetPin ∧ Instr.framingLost ≠ .resetPinReleased ∧ Instr.framingLost ≠ .powerOn := by
  decide

theorem test_meets_GoodFrameRenews_strict :
    ((State.reset.setPort .a { PortState.reset with sup := ⟨.silent, 9, ⟨true, true, 10, 10⟩⟩ }).port .a).sup.settings.strict
      = true ∧ (0x02 : Byte) ≠ 0x01 := by decide

theorem test_meets_GoodFrameRenews_live : (State.reset.port .a).sup.settings.strict = false ∧
    (State.reset.port .a).sup.state ≠ .silent := by decide

theorem test_meets_GoodFrameRenews_silent : ((supervised .silent 3000).port .a).sup.settings.strict = false ∧
    ((supervised .silent 3000).port .a).sup.state = .silent := by decide

theorem test_meets_RefusedOrdersChangeNothing :
    (Instr.retire .a 1 [3, 0, 1]).order = some ⟨.a, 1, .retire, [3, 0, 1]⟩ ∧ OrderCode.retire ≠ .batch ∧
      (part active 48).takes .a = true ∧
      (takeOrder .a .retire [3, 0, 1] ((part active 48).atOrder .a 0x11)).result ≠ .ok := by decide

/-- BATCH among the rows that are their good frames; an order's code, and one that is none. -/
theorem test_meets_RefusedOrdersChangeNothing_frame : (Instr.batch .a 1 []).order = some ⟨.a, 1, .batch, []⟩ ∧
    (part active 48).pinHeld = false ∧ OrderCode.ofByte 0x11 = some .retire ∧ OrderCode.ofByte 0x07 = none := by decide

theorem test_meets_HandleChecksInSequence_range : (Instr.arm .b 1 [0, 8, 0]).order = some ⟨.b, 1, .arm, [0, 8, 0]⟩ ∧
    OrderCode.arm ∈ [OrderCode.retire, .query, .adopt, .arm, .hold, .resume, .unbindSlot, .unbindStream, .handoverCommit,
      .handoverCancel] ∧ State.reset.takes .b = true ∧ 2047 < le16 0 8 := by decide

theorem test_meets_HandleChecksInSequence_stale : le16 255 7 ≤ 2047 ∧
    ((State.reset.atOrder .b 0x13).ctx (le16 255 7)).state = .free := by decide

theorem test_meets_HandleChecksInSequence_owner : Named ((part active 48).atOrder .b 0x13) 3 0 0 ∧
    (((part active 48).atOrder .b 0x13).ctx (le16 3 0)).owner ≠ .b := by unfold Named; decide

/-- QUERY and ADOPT: an index of 2048, and a stale generation at a context of the other port. -/
theorem test_meets_HandleChecksInSequence_reading (i : Nat → Byte → Instr)
    (h : i = (fun n g => .query .b 1 [byteOf n, byteOf (n / 256), g]) ∨
      i = (fun n g => .adopt .b 1 [byteOf n, byteOf (n / 256), g])) :
    ((i 3 1).order.map OrderFrame.body) = some [3, 0, 1] ∧ (part active 48).takes .b = true ∧
      nextIs (exec (i 2048 0) (part active 48)) (fun t => ((t.port .b).line.map Response.result) = [.badField]) = true ∧
      nextIs (exec (i 3 1) (part active 48)) (fun t => ((t.port .b).line.map Response.result) = [.staleHandle]) = true := by
  rcases h with rfl | rfl <;> decide

theorem test_meets_FramesWithoutAnOrder_unknown : OrderCode.ofByte 0x07 = none ∧ State.reset.takes .a = true := by
  decide

theorem test_meets_FramesWithoutAnOrder_long : 1020 < 1021 ∧ State.reset.pinHeld = false ∧
    (State.reset.port .a).resetPending = false := by decide

/-- Port B with 8 responses in its line. -/
def lineOf (n : Nat) : State :=
  State.reset.setPort .b { PortState.reset with line := List.replicate n ⟨0x81, 0, .ok, .single .nothing⟩ }

theorem test_meets_FramesWithoutAnOrder_line : (lineOf 8).pinHeld = false ∧ ((lineOf 8).port .b).resetPending = false ∧
    (lineOf 8).frameWaits .b = false ∧ 8 ≤ ((lineOf 8).port .b).line.length := by decide

/-- Port B taking a batch of two sub-orders, with `n` frames held. -/
def batching (n : Nat) : State :=
  State.reset.setPort .b
    { PortState.reset with
      batch := some ⟨1, true, [(0x10, [0xFF]), (0x71, [])], []⟩
      heldFrames := List.replicate n ⟨true, 0x71, 2, []⟩ }

theorem test_meets_FramesWithoutAnOrder_hold : (batching 8).pinHeld = false ∧ ((batching 8).port .b).resetPending = false ∧
    8 ≤ ((batching 8).port .b).heldFrames.length := by decide

/-- Behind a batch with 7 frames held: an order's frame, one of an unknown code, a spoilt one. -/
theorem test_meets_FramesWithoutAnOrder_joins (i : Instr) (f : Frame)
    (h : i = .tallyRead .b 9 [] ∧ f = ⟨true, 0x71, 9, []⟩ ∨ i = .unknownOrder .b 7 9 [1] ∧ f = ⟨true, 7, 9, [1]⟩ ∨
      i = .badFrame .b 7 9 ∧ f = ⟨false, 7, 9, []⟩) :
    CompletesFrame i .b f ∧ (batching 7).pinHeld = false ∧ ((batching 7).port .b).resetPending = false ∧
      (batching 7).frameWaits .b = true ∧ ((batching 7).port .b).heldFrames.length < 8 ∧
      (batching 8).frameWaits .b = true ∧ 8 ≤ ((batching 8).port .b).heldFrames.length ∧
      nextIs (exec i (batching 7)) (fun t =>
        (t.port .b).heldFrames = ((batching 7).port .b).heldFrames ++ [f] && (t.port .b).line.isEmpty) = true := by
  rcases h with ⟨rfl, rfl⟩ | ⟨rfl, rfl⟩ | ⟨rfl, rfl⟩
  · exact ⟨Or.inl ⟨_, rfl, rfl, rfl⟩, by decide⟩
  · exact ⟨Or.inr (Or.inl ⟨_, _, _, rfl, rfl⟩), by decide⟩
  · exact ⟨Or.inr (Or.inr ⟨_, _, rfl, rfl⟩), by decide⟩

/-- Behind a held frame with no batch; and at a line of 8 responses with nothing to wait for. -/
theorem test_meets_FramesWithoutAnOrder_spoilt : CompletesFrame (.badFrame .b 7 9) .b ⟨false, 7, 9, []⟩ ∧
    (((batching 1).setBatch .b none).port .b).batch = none ∧ ((batching 1).setBatch .b none).frameWaits .b = true ∧
    (lineOf 8).frameWaits .b = false ∧ 8 ≤ ((lineOf 8).port .b).line.length ∧
    nextIs (exec (.badFrame .b 7 9) (lineOf 8)) (· = lineOf 8) = true :=
  ⟨Or.inr (Or.inr ⟨_, _, rfl, rfl⟩), by decide⟩

theorem test_meets_IncomingBytesMakeTheFrame (body : List Byte) (h : body = List.replicate 1020 0) :
    body.length ≤ 1020 ∧ State.reset.pinHeld = false ∧ (State.reset.port .a).resetPending = false ∧
      (State.reset.port .a).rx = .hunt := by
  refine ⟨?_, rfl, rfl, rfl⟩
  rw [h, List.length_replicate]

/-- The port in LENGTH, its first byte taken or not. -/
def inLength (low : Option Byte) : State := State.reset.setRx .a (.lengthField low)

theorem test_meets_IncomingBytesMakeTheFrame_first : (inLength none).pinHeld = false ∧
    ((inLength none).port .a).resetPending = false ∧ ((inLength none).port .a).rx = .lengthField none := by
  decide

theorem test_meets_IncomingBytesMakeTheFrame_1021 : ((inLength (some 0xFD)).port .a).rx = .lengthField (some 0xFD) ∧
    1020 < (0xFD : Byte).toNat + 256 * (0x03 : Byte).toNat := by decide

theorem test_meets_IncomingBytesMakeTheFrame_1020 : ((inLength (some 0xFC)).port .a).rx = .lengthField (some 0xFC) ∧
    (0xFC : Byte).toNat + 256 * (0x03 : Byte).toNat ≤ 1020 := by decide

/-- The frame's own checksum is 1; 0 and 65535 are others. -/
theorem test_meets_IncomingBytesMakeTheFrame_spoilt : checksum (orderSummed 0x01 0 []) = 1 ∧
    0 ≠ checksum (orderSummed 0x01 0 []) ∧ 65535 < 65536 ∧ 65535 ≠ checksum (orderSummed 0x01 0 []) := by decide

theorem test_meets_BatchIntakeKeepsSubOrders (subs : List (Byte × List Byte)) (h : subs = List.replicate 16 (0x10, [0xFF])) :
    State.reset.takes .a = true ∧ 1 ≤ subs.length ∧ subs.length ≤ 16 ∧
      (∀ x ∈ subs, x.2.length ≤ 1020 ∧ x.1 ≠ 0x04 ∧ x.1 ≠ 0x05) ∧
      1 + (subs.map fun x => 4 + ((OrderCode.ofByte x.1).map OrderCode.maxResponse).getD 0).sum ≤ 1020 := by
  subst h; decide

/-- A body that stops within its one sub-order's heading. -/
theorem test_meets_BatchIntakeKeepsSubOrders_length : ([1] : List Byte).length < 2 ∧
    ∀ subs : List (Byte × List Byte), (∀ x ∈ subs, x.2.length < 65536) → subs.length = (1 : Byte).toNat →
      ([0x10] : List Byte) ≠ subs.flatMap subOrderBytes := by
  refine ⟨by decide, fun subs _ h e => ?_⟩
  match subs, h with
  | [x], _ =>
    have := congrArg List.length e
    simp [subOrderBytes, leBytes] at this

theorem test_meets_BatchIntakeKeepsSubOrders_size : 1020 < batchResponseSize (List.replicate 9 (0x12, [0, 0, 0])) ∧
    (List.replicate 9 ((0x12 : Byte), ([0, 0, 0] : List Byte))).length = (9 : Byte).toNat := by decide

theorem test_meets_BatchIntakeKeepsSubOrders_field :
    batchResponseSize (List.replicate 17 (0x07, [])) ≤ 1020 ∧ 16 < (17 : Byte).toNat ∧ batchResponseSize [] ≤ 1020 ∧
      batchResponseSize [(0x05, [0])] ≤ 1020 ∧ 1 < (2 : Byte).toNat := by decide

theorem test_meets_SubOrdersThenHeldFrames_going_on : (batching 0).pinHeld = false ∧
    ((batching 0).port .b).batch = some ⟨1, true, (0x10, [0xFF]) :: [(0x71, [])], []⟩ ∧
    (takeCode .b 0x10 [0xFF] (batching 0)).result = .ok ∧ [((0x71 : Byte), ([] : List Byte))] ≠ [] := by decide

/-- Port B at its batch's last sub-order. -/
def lastSub (body : List Byte) : State :=
  State.reset.setPort .b { PortState.reset with batch := some ⟨1, true, [(0x10, body)], []⟩ }

theorem test_meets_SubOrdersThenHeldFrames_last : ((lastSub [0xFF]).port .b).batch = some ⟨1, true, [(0x10, [0xFF])], []⟩ ∧
    (takeCode .b 0x10 [0xFF] (lastSub [0xFF])).result = .ok := by decide

theorem test_meets_SubOrdersThenHeldFrames_stopped : ((lastSub [4]).port .b).batch = some ⟨1, true, [(0x10, [4])], []⟩ ∧
    (takeCode .b 0x10 [4] (lastSub [4])).result ≠ .ok := by decide

/-- Port A with 7 responses in the line, no batch and one held frame. -/
def holding (good : Bool) : State :=
  State.reset.setPort .a
    { PortState.reset with
      line := List.replicate 7 ⟨0x81, 0, .ok, .single .nothing⟩, heldFrames := [⟨good, 0x71, 2, []⟩] }

/-- The same with `n` responses in the line and a BATCH frame held. -/
def holdingBatch (n : Nat) : State :=
  State.reset.setPort .a
    { PortState.reset with
      line := List.replicate n ⟨0x81, 0, .ok, .single .nothing⟩, heldFrames := [⟨true, 0x04, 2, [0, 0]⟩] }

theorem test_meets_SubOrdersThenHeldFrames_batch : ((holdingBatch 7).port .a).heldFrames = [⟨true, 0x04, 2, [0, 0]⟩] ∧
    ((holdingBatch 7).port .a).line.length < 8 ∧ ((holdingBatch 7).port .a).batch = none ∧
    8 ≤ ((holdingBatch 8).port .a).line.length ∧ ((holdingBatch 8).port .a).resetPending = false := by decide

theorem test_meets_SubOrdersThenHeldFrames_held (good : Bool) : (holding good).pinHeld = false ∧
    ((holding good).port .a).batch = none ∧ ((holding good).port .a).resetPending = false ∧
    ((holding good).port .a).line.length < 8 ∧ ((holding good).port .a).heldFrames = [⟨good, 0x71, 2, []⟩] ∧
    (0x71 : Byte) ≠ 0x04 := by cases good <;> decide

/-- Port A with a HARD RESET ordered, `n` responses in its line. -/
def resetting (n : Nat) : State :=
  State.reset.setPort .a
    { PortState.reset with line := List.replicate n ⟨0x85, 0, .ok, .single .nothing⟩, resetPending := true }

theorem test_meets_HardResetAfterItsResponse : State.reset.takes .a = true ∧
    (Instr.resetSoft .a 0).order = some ⟨.a, 0, .reset, [0]⟩ ∧ ((resetting 1).port .a).resetPending = true ∧
    (resetting 1).pinHeld = false ∧
    ((resetting 1).port .a).line = [⟨0x85, 0, .ok, .single .nothing⟩] ∧
    ((resetting 2).port .a).line = [⟨0x85, 0, .ok, .single .nothing⟩, ⟨0x85, 0, .ok, .single .nothing⟩] := by
  decide

theorem test_meets_SoftResetFreesEveryContext : (part active 48).takes .a = true ∧ (part active 48).coherent ∧
    (((part active 48).atOrder .a 0x05).ctx 3).state ≠ .free ∧ (((part active 48).atOrder .a 0x05).ctx 0).state = .free :=
  ⟨by decide, test_part_coherent, by decide, by decide⟩

theorem test_meets_OpenTakesLowestFree (u : State) (h : u = (bare complete).atOrder .a 0x10) :
    (bare complete).takes .a = true ∧ (0xFF : Byte) = 0xFF ∧ (3 : Byte).toNat ≤ 3 ∧ (u.ctx 0).state = .free := by
  subst h; decide

/-- Every record OPEN. -/
def full : State := { State.reset with ctxs := (List.range 2048).map fun i => (i, complete) }

theorem ctxs_atOrder_reset (l : Tab Ctx) : ({ State.reset with ctxs := l }.atOrder .a 0x10).ctxs = l := rfl

theorem test_meets_OpenTakesLowestFree_none : full.takes .a = true ∧
    ∀ i, i < 2048 → ((full.atOrder .a 0x10).ctx i).state ≠ .free := by
  refine ⟨by decide, fun i hi => ?_⟩
  have hmem : ∀ (l : List Nat) (i : Nat), i ∈ l →
      Tab.get ctxDefault (l.map fun i => (i, complete)) i = complete := by
    intro l
    induction l with
    | nil => intro i h; cases h
    | cons a t ih =>
      intro i h
      by_cases e : i = a
      · simp [Tab.get, e]
      · have : i ∈ t := by simpa [e] using h
        simpa [Tab.get, e] using ih i this
  have : (full.atOrder .a 0x10).ctx i = complete := by
    simp only [State.ctx, full, ctxs_atOrder_reset]
    exact hmem _ i (List.mem_range.mpr hi)
  rw [this]; decide

theorem test_meets_RetireReleasesEverything : (part active 48).takes .a = true ∧
    Owned ((part active 48).atOrder .a 0x11) .a 3 0 0 := by unfold Owned Named; decide

/-- A handover beside the primary key: entries 0 and 1 hold its keys, entry 2 holds neither. -/
theorem test_meets_RetireReleasesEverything_entries : (handed (part { active with handover := some (aHandover 50) } 48)).canonical = true ∧
    (handed (part { active with handover := some (aHandover 50) } 48)).findStream ⟨2, 99⟩ =
      some (1, ⟨⟨2, 99⟩, 3, .handover⟩) ∧
    (handed (part { active with handover := some (aHandover 50) } 48)).streamEntry 2 = none ∧
    nextIs (exec (.retire .a 1 [3, 0, 0]) (handed (part { active with handover := some (aHandover 50) } 48))) (fun t =>
      t.streamMap = [] && t.slotMap = [] && t.blocks = []) = true := by decide

theorem test_meets_ReadingOrders : (part active 48).takes .a = true ∧ Named ((part active 48).atOrder .a 0x12) 3 0 0 ∧
    (15 : Byte).toNat ≤ 15 ∧ (1 : Byte) = 1 := by unfold Named; decide

theorem test_meets_InspectReadsOneEntry : State.reset.takes .a = true ∧ le16 255 7 < 2048 ∧ le16 255 15 < 4096 ∧
    ([2048, 2048, 4096, 16, 2048, 2, 8, 2] : List Nat).getD 2 0 ≤ le16 0 16 ∧
    ([2048, 2048, 4096, 16, 2048, 2, 8, 2] : List Nat).getD 0 0 ≤ le16 0 8 ∧
    ([2048, 2048, 4096, 16, 2048, 2, 8, 2] : List Nat).getD 7 0 ≤ le16 2 0 ∧
    ([2048, 2048, 4096, 16, 2048, 2, 8, 2] : List Nat).getD 8 0 ≤ le16 0 0 ∧ le16 15 0 < 16 ∧ le16 1 0 < 2 ∧ le16 7 0 < 8 ∧ 7 < (8 : Byte).toNat := by decide

/-- The issuing port's own entry: no response counted yet, and HUNT (log 30). -/
theorem test_inspect_own_port : nextIs (exec (.inspect .a 1 [7, 0, 0]) State.reset) (fun t =>
    (t.port .a).line = [⟨0xF2, 1, .ok, .single (.inspectPort ⟨.live, 0, ⟨true, false, 3000, 250⟩⟩ .hunt 0 0 0 none false)⟩]) =
      true := by decide

theorem test_meets_AdmissionReservesTheCost_arm (u : State) (h : u = (part complete 95952).atOrder .a 0x13) :
    (part complete 95952).takes .a = true ∧ Owned u .a 3 0 0 ∧ (u.ctx 3).state = .opened ∧ (u.ctx 3).slot.isSome = true ∧
      (u.ctx 3).primary.isSome = true ∧ (u.ctx 3).profile = some 0 ∧ (u.ctx 3).rate = some 5 ∧
      (u.contents 0).map (fun c => c.table[5]?) = some (some ⟨31, 48⟩) ∧ u.reserved + 48 ≤ u.available := by
  subst h; unfold Owned Named; decide

theorem test_meets_AdmissionReservesTheCost_resume (u : State) (h : u = (part held 0).atOrder .a 0x15) :
    (part held 0).takes .a = true ∧ Owned u .a 3 0 0 ∧ (u.ctx 3).state = .held ∧ (u.ctx 3).heldFrom = some .active ∧
      u.reserved + u.currentCost 3 ≤ u.available := by subst h; unfold Owned Named; decide

/-- One unit short. -/
theorem test_meets_AdmissionReservesTheCost_refused (u v : State) (h : u = (part complete 95953).atOrder .a 0x13)
    (h' : v = (part held 95953).atOrder .a 0x15) :
    Owned u .a 3 0 0 ∧ (u.ctx 3).state = .opened ∧ (u.ctx 3).complete = true ∧ (u.ctx 3).rate = some 5 ∧
      (u.contents 0).map (fun c => c.table[5]?) = some (some ⟨31, 48⟩) ∧ u.available < u.reserved + 48 ∧
      Owned v .a 3 0 0 ∧ (v.ctx 3).state = .held ∧ v.available < v.reserved + v.currentCost 3 := by
  subst h; subst h'; unfold Owned Named; decide

theorem test_meets_AdmissionReservesTheCost_incomplete (u v : State)
    (h : u = (bare { complete with slot := none }).atOrder .a 0x13) (h' : v = (part active 48).atOrder .a 0x13) :
    Owned u .a 3 0 0 ∧ (u.ctx 3).state = .opened ∧ (u.ctx 3).slot = none ∧ Owned v .a 3 0 0 ∧
      (v.ctx 3).state ≠ .opened ∧ (v.ctx 3).state ≠ .held := by
  subst h; subst h'; unfold Owned Named; decide

theorem test_meets_HoldReturnsTheUnits (u v : State) (h : u = (part active 48).atOrder .a 0x14)
    (h' : v = (part held 0).atOrder .a 0x14) :
    (part active 48).takes .a = true ∧ Owned u .a 3 0 0 ∧ (u.ctx 3).state = .active ∧ (part held 0).takes .a = true ∧
      Owned v .a 3 0 0 ∧ (v.ctx 3).state = .held ∧ (v.ctx 3).heldFrom = some .active := by
  subst h; subst h'; unfold Owned Named; decide

theorem test_meets_HoldReturnsTheUnits_armed : ((part armed 48).atOrder .a 0x14).ctx 3 = armed ∧
    armed.state = .armed := by decide

theorem test_meets_ContextSettingsReplaced : (part active 48).takes .a = true ∧
    (∀ code ∈ [(0x16 : Byte), 0x50, 0x52], ((part active 48).atOrder .a code).ctx 3 = active) ∧ active.owner = .a ∧
    active.gen = 0 ∧ active.state ≠ .closed ∧ (3 : Byte).toNat ≤ 3 ∧ (-12 : Int) ≤ -12 ∧ (12 : Int) ≤ 12 ∧
    1 ≤ (4 : Byte).toNat ∧ (4 : Byte).toNat ≤ 4 := by decide

theorem test_meets_SetSupervisionReplacesSettings : (part active 48).takes .a = true ∧ le16 0xB8 0x0B = 3000 ∧
    le16 0xB9 0x0B = 3001 ∧ le16 5 0 = 5 ∧ Named ((part active 48).atOrder .a 0x48) 3 0 0 ∧
    (((part active 48).atOrder .a 0x48).ctx 3).owner = .a ∧ Named ((part active 48).atOrder .b 0x48) 3 0 0 ∧
    (((part active 48).atOrder .b 0x48).ctx 3).owner ≠ .b ∧ Named ((bare closed).atOrder .a 0x48) 3 0 0 ∧
    (((bare closed).atOrder .a 0x48).ctx 3).state = .closed := by unfold Named; decide

theorem test_meets_BindSlotFillsTheEntry (u : State) (h : u = (part complete 0).atOrder .a 0x20) :
    (part complete 0).takes .a = true ∧ Owned u .a 3 0 0 ∧ le16 255 7 ≤ 2047 ∧ (1 : Byte) = 1 ∧
      (u.ctx 3).state = .opened ∧ u.slotEntry (le16 255 7) = none ∧ u.slotEntry (le16 5 0) = some 3 := by
  subst h; unfold Owned Named; decide

theorem test_meets_BindSlotFillsTheEntry_taken (u : State)
    (h : u = ((part complete 0).setSlotEntry 6 (some 4)).atOrder .a 0x20) :
    Owned u .a 3 0 0 ∧ u.slotEntry (le16 6 0) = some 4 := by subst h; unfold Owned Named; decide

theorem test_meets_UnbindEmptiesTheEntry : (part complete 0).takes .a = true ∧
    (∀ code ∈ [(0x22 : Byte), 0x23], ((part complete 0).atOrder .a code).ctx 3 = complete) ∧ complete.owner = .a ∧
    complete.gen = 0 ∧ complete.state = .opened := by decide

theorem test_meets_UnbindEmptiesTheEntry_none (u : State)
    (h : u = (bare { Ctx.reset with state := .opened }).atOrder .a 0x22) :
    (bare { Ctx.reset with state := .opened }).takes .a = true ∧ Owned u .a 3 0 0 ∧ (u.ctx 3).state = .opened ∧
      (u.ctx 3).slot = none ∧ (u.ctx 3).primary = none := by subst h; unfold Owned Named; decide

theorem test_meets_PrimaryKeyTakesLowestEntry_bind (u : State) (h : u = (part complete 0).atOrder .a 0x21) :
    (part complete 0).takes .a = true ∧ Owned u .a 3 0 0 ∧ (u.ctx 3).state = .opened ∧ (3 : Byte).toNat ≤ 3 ∧
      le24 0xFF 0xFF 0x0F = 1048575 ∧ u.findStream ⟨3, 1048575⟩ = none ∧
      ((u.ctx 3).primary.bind fun k => (u.findStream k).map Prod.fst) = some 0 := by
  subst h; unfold Owned Named; decide

theorem test_meets_PrimaryKeyTakesLowestEntry_relink (u : State) (h : u = (part active 48).atOrder .a 0x24) :
    (part active 48).takes .a = true ∧ Owned u .a 3 0 0 ∧ (u.ctx 3).state ≠ .closed ∧ (u.ctx 3).handover = none ∧
      (u.ctx 3).primary = some ⟨1, 77⟩ ∧ (3 : Byte).toNat ≤ 3 ∧ (3 : Byte).toNat ≠ 1 ∧ u.findStream ⟨3, 77⟩ = none ∧
      (u.findStream ⟨1, 77⟩).map Prod.fst = some 0 := by subst h; unfold Owned Named; decide

/-- BIND_STREAM of the context's own key, of its own handover key, and of another state's context. -/
theorem test_meets_PrimaryKeyTakesLowestEntry_own (u v : State) (h : u = (part complete 0).atOrder .a 0x21)
    (h' : v = (handed (part { complete with handover := some (aHandover 50) } 0)).atOrder .a 0x21) :
    Owned u .a 3 0 0 ∧ (u.ctx 3).state = .opened ∧ u.findStream ⟨1, 77⟩ = some (0, ⟨⟨1, 77⟩, 3, .primary⟩) ∧
      (u.ctx 3).primary = some ⟨1, 77⟩ ∧ le24 77 0 0 = 77 ∧ Owned v .a 3 0 0 ∧ (v.ctx 3).state = .opened ∧
      (v.findStream ⟨2, 99⟩).isSome = true ∧ (v.ctx 3).primary ≠ some ⟨2, 99⟩ ∧
      (((part active 48).atOrder .a 0x21).ctx 3).state ≠ .opened := by
  subst h; subst h'; unfold Owned Named; decide

/-- RELINK to the same link, to a link on which another entry holds the tag, and at a context with a handover record. -/
theorem test_meets_PrimaryKeyTakesLowestEntry_refused (u v : State)
    (h : u = ((part active 48).setStreamEntry 4095 (some ⟨⟨3, 77⟩, 4, .primary⟩)).atOrder .a 0x24)
    (h' : v = (handed (part { active with handover := some (aHandover 50) } 48)).atOrder .a 0x24) :
    Owned u .a 3 0 0 ∧ (u.ctx 3).state ≠ .closed ∧ (u.ctx 3).handover = none ∧ (u.ctx 3).primary = some ⟨1, 77⟩ ∧
      (1 : Byte).toNat = 1 ∧ u.findStream ⟨1, 77⟩ = some (0, ⟨⟨1, 77⟩, 3, .primary⟩) ∧ (3 : Byte).toNat ≤ 3 ∧
      (u.findStream ⟨3, 77⟩).isSome = true ∧ Owned v .a 3 0 0 ∧ (v.ctx 3).handover.isSome = true ∧
      ((bare { Ctx.reset with state := .opened }).ctx 3).primary = none := by
  subst h; subst h'; unfold Owned Named; decide

/-- A profile of one rate at the limits of R45. -/
def limitProfile : Profile := ⟨.narrowSingle, [⟨80, 4000⟩], 0, 50, 0xFFFF⟩

theorem test_meets_ProfileLoadLoadsItsBody : State.reset.takes .a = true ∧
    ((State.reset.atOrder .a 0x30).profile 15).state = .vacant ∧ 1 ≤ limitProfile.table.length ∧
    limitProfile.table.length ≤ 8 ∧ (∀ e ∈ limitProfile.table, 5 ≤ e.bytes ∧ e.bytes ≤ 80 ∧ 1 ≤ e.cost ∧ e.cost ≤ 4000) ∧
    limitProfile.table.Pairwise (fun a b => a.cost < b.cost) ∧
    limitProfile.defaultIndex < limitProfile.table.length ∧ limitProfile.hold ≤ 50 ∧
    (limitProfile.family = .narrowSingle → limitProfile.table.length = 1) := by decide

/-- Slot 15 loaded, with `n` references. -/
def loaded (n : Nat) : State := State.reset.setProfile 15 ⟨.loaded limitProfile, n⟩

theorem test_meets_ProfileClearBySlotState : (loaded 1).takes .a = true ∧ (15 : Byte).toNat ≤ 15 ∧
    (((loaded 0).atOrder .a 0x31).profile 15) = ⟨.loaded limitProfile, 0⟩ ∧
    (((loaded 1).atOrder .a 0x31).profile 15) = ⟨.loaded limitProfile, 1⟩ ∧
    (((loaded 0).atOrder .a 0x31).profile 4).state = .vacant ∧
    ((loaded 0).atOrder .a 0x31).profile 3 = profileDefault 3 := by decide

theorem test_meets_SetProfileDerivesTheRate (u : State) (h : u = (part complete 0).atOrder .a 0x33) :
    (part complete 0).takes .a = true ∧ Owned u .a 3 0 0 ∧ (u.ctx 3).state = .opened ∧ (2 : Byte).toNat ≤ 15 ∧
      (u.contents 2).map Profile.defaultIndex = some 2 ∧ (0x03 : RateSet) ≠ 0 ∧ (0x03 : RateSet).getLsbD 1 = true ∧
      (0x03 : RateSet).getLsbD 2 = false ∧ (0x1F : RateSet).getLsbD 2 = true ∧
      (u.contents 2).map (fun c => c.table[1]?) = some (some ⟨23, 74⟩) := by subst h; unfold Owned Named; decide

theorem test_meets_SetRateByState : (part active 48).takes .a = true ∧ (part complete 0).takes .a = true ∧
    (∀ x ∈ [(active, 48), (complete, 0)], ((part x.1 x.2).atOrder .a 0x39).ctx 3 = x.1) ∧ (5 : Byte).toNat = 5 ∧ active.owner = .a ∧
    active.permitted = some 0x3F ∧ (0x3F : RateSet).getLsbD 0 = true ∧ (0x3F : RateSet).getLsbD 5 = true ∧
    active.rate = some 5 ∧ complete.rate = some 5 ∧ complete.state = .opened ∧ active.state = .active := by decide

theorem test_meets_SetRatesetMovesTheRate (u : State) (h : u = (part active 48).atOrder .a 0x38) :
    (part active 48).takes .a = true ∧ Owned u .a 3 0 0 ∧ (u.ctx 3).state = .active ∧ (u.ctx 3).profile = some 0 ∧
      (u.ctx 3).rate = some 5 ∧ (0x0F : RateSet) ≠ 0 ∧ (0x0F : RateSet).getLsbD 5 = false ∧
      (0x0F : RateSet).getLsbD 3 = true ∧ (0x3F : RateSet).getLsbD 5 = true ∧ (u.ctx 3).request = none ∧
      (u.contents 0).map (fun c => (c.table[5]?, c.table[3]?)) = some (some ⟨31, 48⟩, some ⟨22, 42⟩) := by
  subst h; unfold Owned Named; decide

/-- At rate 0 a set without it moves the rate upward; the account has 13 units, or 14, left. -/
theorem test_meets_SetRatesetMovesTheRate_up (u : State)
    (h : u = (part { active with rate := some 0 } 95987).atOrder .a 0x38) :
    Owned u .a 3 0 0 ∧ (u.ctx 3).rate = some 0 ∧ (0x20 : RateSet).getLsbD 0 = false ∧ (0x20 : RateSet).getLsbD 5 = true ∧
      u.available < u.reserved + (48 - 34) ∧ u.reserved + (45 - 34) ≤ u.available ∧
      (u.contents 0).map (fun c => (c.table[0]?, c.table[5]?)) = some (some ⟨12, 34⟩, some ⟨31, 48⟩) := by
  subst h; unfold Owned Named; decide

/-- With a pending request, at rate 5 and the new set 0..3: the rate comes to 3. -/
theorem test_meets_SetRatesetMovesTheRate_pending (x : RateRequest) (hx : x = ⟨5, .order⟩ ∨ x = ⟨3, .cell⟩ ∨ x = ⟨1, .cell⟩)
    (u : State) (h : u = (part { active with request := some x } 48).atOrder .a 0x38) :
    (part { active with request := some x } 48).takes .a = true ∧ Owned u .a 3 0 0 ∧ (u.ctx 3).state ≠ .closed ∧
      (u.ctx 3).rate = some 5 ∧ (0x0F : RateSet).getLsbD 5 = false ∧ (0x0F : RateSet).getLsbD 3 = true ∧ 3 < 5 ∧
      (∀ r, r < 8 → (0x0F : RateSet).getLsbD r = true → r < 5 → r ≤ 3) ∧ (u.ctx 3).request = some x ∧
      (u.contents 0).map (fun c => (c.table[5]?, c.table[3]?)) = some (some ⟨31, 48⟩, some ⟨22, 42⟩) := by
  subst h; unfold Owned Named; rcases hx with rfl | rfl | rfl <;> decide

theorem test_meets_SetRatesetMovesTheRate_open (u v : State) (h : u = (part complete 0).atOrder .a 0x38)
    (h' : v = (part held 0).atOrder .a 0x38) :
    Owned u .a 3 0 0 ∧ (u.ctx 3).state = .opened ∧ (u.ctx 3).converting = false ∧ (u.ctx 3).rate = some 5 ∧
      Owned v .a 3 0 0 ∧ (v.ctx 3).state = .held ∧ (v.ctx 3).converting = false ∧ (v.ctx 3).rate = some 5 := by
  subst h; subst h'; unfold Owned Named; decide

theorem test_meets_DeviceAndPortSettings : State.reset.takes .a = true ∧ 10 ≤ (⟨true, false, 10, 65535⟩ : SupSettings).initialLimit ∧
    (⟨true, false, 10, 65535⟩ : SupSettings).steadyLimit ≤ 65535 := by decide

theorem test_meets_PreparePlacesTheNewKey (u : State) (h : u = (part active 48).atOrder .a 0x40) :
    (part active 48).takes .a = true ∧ Owned u .a 3 0 0 ∧ (u.ctx 3).state ≠ .opened ∧ (u.ctx 3).state ≠ .closed ∧
      (u.ctx 3).handover = none ∧ (2 : Byte).toNat ≤ 3 ∧ 1 ≤ le24 1 0 0 ∧ (1 : Byte).toNat ≤ 1 ∧ le16 0xF4 1 = 500 ∧
      (u.ctx 3).primary ≠ some ⟨2, 1⟩ ∧ u.findStream ⟨2, 1⟩ = none ∧ u.streamEntry 1 = none ∧
      (∀ j, j < 1 → u.streamEntry j ≠ none) := by subst h; unfold Owned Named; decide

/-- A handover held at the ACTIVE context with `n` periods left. -/
def handingOver (n : Nat) : State := handed (part { active with handover := some (aHandover n) } 48)

theorem test_meets_CommitAndCancel : (handingOver 50).takes .a = true ∧ (handingOver 50).canonical = true ∧
    ∀ code ∈ [(0x41 : Byte), 0x42], ∀ u ∈ [(handingOver 50).atOrder .a code],
      (u.ctx 3).owner = .a ∧ (u.ctx 3).gen = 0 ∧ (u.ctx 3).handover = some (aHandover 50) ∧
        (u.findStream ⟨2, 99⟩).map Prod.fst = some 1 ∧ (u.ctx 3).primary = some ⟨1, 77⟩ ∧
        (u.findStream ⟨1, 77⟩).map Prod.fst = some 0 := by decide

/-- An OPEN context with a handover record and no primary stream. -/
theorem test_meets_CommitAndCancel_no_primary (s u : State)
    (hs : s = handed (bare { Ctx.reset with state := .opened, handover := some (aHandover 50) }))
    (h : u = s.atOrder .a 0x41) : s.takes .a = true ∧ s.canonical = true ∧ Owned u .a 3 0 0 ∧
      (u.ctx 3).handover = some (aHandover 50) ∧ u.findStream ⟨2, 99⟩ = some (1, ⟨⟨2, 99⟩, 3, .handover⟩) ∧
      (u.ctx 3).primary = none := by subst h; subst hs; unfold Owned Named; decide

/-- A cell on the handover key. -/
theorem test_meets_CommitAndCancel_cell : (handingOver 50).pinHeld = false ∧ (handingOver 50).canonical = true ∧
    (wellFormedCell 2 [99, 0, 0x20, 10, 0, 0xF0, 0, 0]).map InCell.tag = some 99 ∧
    (handingOver 50).findStream ⟨2, 99⟩ = some (1, ⟨⟨2, 99⟩, 3, .handover⟩) ∧
    ((handingOver 50).ctx 3).handover = some (aHandover 50) ∧ (aHandover 50).key = ⟨2, 99⟩ ∧
    ((handingOver 50).ctx 3).primary ≠ some (aHandover 50).key := by decide

theorem ctx_atOrder_part (c : Ctx) (n i : Nat) (p : Port) (code : Byte) :
    ((part c n).atOrder p code).ctx i = (part c n).ctx i := by cases p <;> rfl

theorem test_meets_LaneOutShedsUntilItFits (u : State) (h : u = (part active 84001).atOrder .a 0x58) :
    (part active 84001).takes .a = true ∧ (7 : Byte).toNat ≤ 7 ∧ (u.lane (7 : Byte).toNat).state = .inService ∧
      u.available - 12000 < u.reserved ∧ ∀ i, (u.ctx i).priority ≤ 3 := by
  subst h
  refine ⟨by decide, by decide, by decide, by decide, fun i => ?_⟩
  rw [ctx_atOrder_part, ctx_part]
  split <;> decide

/-- Every context that holds a permitted set holds a non-empty one. -/
theorem permitted_part (n : Nat) (i : Nat) : ((part active n).ctx i).permitted ≠ some 0 := by
  rw [ctx_part]; split <;> decide

theorem test_meets_LaneOutShedsUntilItFits_pass (u : State) (h : u = (part active 84001).atOrder .a 0x58) :
    (part active 84001).canonical = true ∧ ∀ i, (u.ctx i).permitted ≠ some 0 := by
  subst h
  exact ⟨by decide, fun i => by rw [ctx_atOrder_part]; exact permitted_part _ i⟩

theorem test_meets_LaneOutShedsUntilItFits_out (st : LaneState) (h : st = .outOrder ∨ st = .outFault) :
    (((State.reset.setLane 7 ⟨st, none⟩).atOrder .a 0x58).lane (7 : Byte).toNat).state = st ∧
      (State.reset.setLane 7 ⟨st, none⟩).takes .a = true := by rcases h with rfl | rfl <;> decide

/-- Lane 7 out of service. -/
def laneDown (s : State) : State := (s.setLane 7 ⟨.outOrder, none⟩).setAvailable 84000

theorem test_meets_LaneInReadmits : (laneDown (part held 0)).takes .a = true ∧ (laneDown (part held 0)).canonical = true ∧
    (((laneDown (part held 0)).atOrder .a 0x58).lane 7).state ≠ .inService ∧
    ((laneDown (part held 0)).atOrder .a 0x58).reserved ≤ ((laneDown (part held 0)).atOrder .a 0x58).available := by
  decide

/-- The held context returns in a part with room, and stays held in one with 84,000 + 12,000 units but 95,953 reserved. -/
theorem test_meets_LaneInReadmits_pass (n : Nat) (s : State)
    (h : s = laneDown (part { held with holdCause := some .shed } n)) :
    ∀ i, ((s.atOrder .a 0x58).ctx i).priority ≤ 3 := by
  subst h
  intro i
  have : ((laneDown (part { held with holdCause := some .shed } n)).atOrder .a 0x58).ctx i =
      (part { held with holdCause := some .shed } n).ctx i := rfl
  rw [this, ctx_part]; split <;> decide

theorem test_lane_in_readmits : nextIs (exec (.laneServiceIn .a 1 7) (laneDown (part { held with holdCause := some .shed } 0)))
    (fun t => (t.ctx 3).state = .active && t.reserved = 48 && (t.port .a).line =
      [⟨0xD8, 1, .ok, .single (.laneService 7 .outOrder .inService 96000 48 0 0 1)⟩]) = true := by decide

theorem test_meets_LaneInReadmits_in_service : ((State.reset.atOrder .a 0x58).lane (7 : Byte).toNat).state = .inService := by
  decide

theorem test_meets_LaneTakesWaitingWork (s : State) (h : s = part { active with work := some aWork } 48) :
    s.pinHeld = false ∧ (s.lane 7).state = .inService ∧ (s.lane 7).inHand = none ∧ (s.ctx 3).work.isSome = true ∧
      (∀ m, m < 8 → (s.lane m).inHand ≠ some 3) ∧ s.claimDue 3 = false := by subst h; decide

theorem test_meets_LaneCheckTakesTheLaneOut (s : State) (h : s = inLane (part { active with work := some aWork } 84000)) :
    s.pinHeld = false ∧ (s.lane 7).state = .inService ∧ (s.lane 7).inHand = some 3 ∧ s.reserved ≤ s.available - 12000 ∧
      s.capture.record = none ∧ (s.setCapture ⟨some ⟨.laneCheck, 0, none, 0⟩, false⟩).capture.record ≠ none := by
  subst h; decide

/-- Shedding is forced: 84,001 units reserved. -/
theorem test_meets_LaneCheckTakesTheLaneOut_pass (s : State) (h : s = part active 84001) : s.pinHeld = false ∧
    s.canonical = true ∧ (s.lane 7).state = .inService ∧ (s.lane 7).inHand = none ∧ (∀ i, (s.ctx i).priority ≤ 3) ∧
    ∀ i, (s.ctx i).permitted ≠ some 0 := by
  subst h
  refine ⟨by decide, by decide, by decide, by decide, fun i => ?_, permitted_part _⟩
  rw [ctx_part]; split <;> decide

theorem test_lane_check_sheds : nextIs (exec (.laneCheck 7) (inLane (part { active with work := some aWork } 84001)))
    (fun t => (t.ctx 3).rate = some 0 && t.reserved = 83987 && t.available = 84000 && (t.ctx 3).work.isNone &&
      (t.lane 7).state = .outFault) = true := by decide

theorem test_meets_LaneCheckTakesTheLaneOut_out (s v : State)
    (h : s = (part { active with work := some aWork } 48).setLane 7 ⟨.outOrder, some 3⟩)
    (h' : v = State.reset.setLane 7 ⟨.outOrder, none⟩) : s.pinHeld = false ∧ (s.lane 7).state = .outOrder ∧
      (s.lane 7).inHand = some 3 ∧ (v.lane 7).state = .outOrder ∧ (v.lane 7).inHand = none := by
  subst h; subst h'; decide

/-- An OUT_FAULT lane: the event is not reported there (R71), and the command changes nothing (log 2). -/
theorem test_meets_LaneCheckTakesTheLaneOut_fault (s : State) (h : s = State.reset.setLane 7 ⟨.outFault, none⟩) :
    s.pinHeld = false ∧ (s.lane 7).state = .outFault ∧ nextIs (exec (.laneCheck 7) s) (· = s) = true := by
  subst h; decide

theorem test_meets_ContextAndQueueChecks (s : State) (h : s = inLane (part { active with work := some aWork } 48)) :
    s.pinHeld = false ∧ (s.lane 7).inHand = some 3 ∧ (s.ctx 3).converting = true ∧ (s.ctx 3).state = .active := by
  subst h; decide

/-- The capture record empty, or filled; the context's set empty, or not. -/
theorem test_meets_ContextAndQueueChecks_capture (s : State)
    (h : s = { inLane (part { active with work := some aWork, conds := 1 } 48) with
      capture := ⟨some ⟨.laneCheck, 0, none, 9⟩, false⟩ }) :
    s.pinHeld = false ∧ (s.lane 7).inHand = some 3 ∧ (s.ctx 3).state = .active ∧
      s.capture.record = some ⟨.laneCheck, 0, none, 9⟩ ∧ (s.ctx 3).conds ≠ 0 ∧ State.reset.capture.record = none ∧
      active.conds = 0 := by subst h; decide

/-- Locked at frame count `n`, slot 5 collecting an empty block. -/
def locked (n : Nat) : State :=
  { (part active 48).setBlock 5 ⟨some [], none, none⟩ with timer := ⟨some n, 0, false, [], ⟨false, false⟩⟩ }

theorem test_meets_FrameMarksAndTheirLoss (n : Nat) (h : n = 158 ∨ n = 159) : (locked n).pinHeld = false ∧
    (locked n).timer.owed = false ∧ (locked n).timer.portDue = ⟨false, false⟩ ∧ (locked n).timer.frame = some n ∧
    (locked n).canonical = true ∧ (locked n).slotEntry 5 ≠ none ∧ ((locked n).block 5).inbound = some [] ∧
    [((5 : Nat), (0xD5 : Byte))].find? (fun e => e.1 = 5) = some (5, 0xD5) := by
  rcases h with rfl | rfl <;> decide

/-- A collecting slot the mark does not list, and a mapped slot without an inbound block. -/
theorem test_meets_FrameMarksAndTheirLoss_unlisted (n : Nat) (h : n = 158 ∨ n = 159) (s : State)
    (hs : s = (locked n).setBlock 5 ⟨none, none, none⟩) : ((locked n).block 5).inbound = some [] ∧
      ([((6 : Nat), (0xD5 : Byte))].find? (fun e => e.1 = 5)) = none ∧ s.canonical = true ∧ s.slotEntry 5 ≠ none ∧
      (s.block 5).inbound = none ∧ s.timer.frame = some n ∧ s.slotEntry 6 = none ∧
      nextIs (exec (.frameMark [(6, 0xD5)]) (locked n)) (fun t =>
        ((if n = 158 then (t.block 5).inbound else (t.block 5).handed).map List.length) = some 1) = true ∧
      nextIs (exec (.frameMark [(5, 0xD5)]) s) (fun t =>
        t.block 5 = if n = 158 then ⟨none, none, none⟩ else ⟨some [], none, none⟩) = true := by
  subst hs; rcases h with rfl | rfl <;> decide

theorem test_meets_FrameMarksAndTheirLoss_unlocked : State.reset.timer.frame = none ∧ State.reset.timer.owed = false ∧
    State.reset.timer.portDue = ⟨false, false⟩ ∧ (part active 48).slotEntry 5 ≠ none := by decide

/-- The last boundary still owes its claims at the next mark; a FREE record. -/
theorem test_meets_FrameMarksAndTheirLoss_owed (s : State) (h : s = due (part active 48)) : s.pinHeld = false ∧
    s.canonical = true ∧ s.timer.owed = true ∧ s.timer.frame = some 0 ∧ (s.ctx 3).state = .active ∧
    (s.ctx 4).state = .free ∧
    nextIs (exec (.frameMark []) s) (fun t => (t.ctx 3).work.isSome && !t.timer.owed && t.timer.frame = some 1) = true := by
  subst h; decide

/-- Slot 5 in frame `k`, its outbound block of two codes there or not. -/
def playing (l : Law) (out : Option (List Byte)) : State :=
  { (part { active with slot := some ⟨5, l⟩ } 48).setBlock 5 ⟨some [], none, out⟩ with
    timer := ⟨some 1, 0, false, [], ⟨false, false⟩⟩ }

theorem test_meets_FrameMarksAndTheirLoss_speech (s : State) (h : s = playing .aLaw (some [0x11, 0x22])) :
    s.slotEntry 5 = some 3 ∧ (s.ctx 3).slot = some ⟨5, .aLaw⟩ ∧ s.timer.frame = some 1 ∧ (s.ctx 3).state = .active ∧
      (s.block 5).outbound = some [0x11, 0x22] ∧ ([0x11, 0x22] : List Byte)[1]? = some 0x22 ∧
      s.transmits 5 = some 0x22 ∧ s.slotEntry 6 = none ∧ State.reset.timer.frame = none := by subst h; decide

theorem test_meets_FrameMarksAndTheirLoss_idle : ((playing .aLaw none).block 5).outbound = none ∧
    (playing .aLaw none).transmits 5 = some 0xD5 ∧ (playing .muLaw none).transmits 5 = some 0xFF := by decide

theorem test_meets_BoundaryClaimStartsWork_active (s : State)
    (h : s = due (part { active with silence := 48 } 48)) : s.pinHeld = false ∧ s.claimDue 3 = true ∧
      (s.ctx 3).handover = none ∧ (s.ctx 3).request = none ∧ (s.ctx 3).slot = some ⟨5, .aLaw⟩ ∧ (s.ctx 3).state = .active ∧
      (s.ctx 3).silence + 1 < (s.ctx 3).silenceLimit := by subst h; decide

theorem test_meets_BoundaryClaimStartsWork_armed (s : State)
    (h : s = due (part { armed with firstRemaining := some 2 } 48)) : s.claimDue 3 = true ∧ (s.ctx 3).state = .armed ∧
      ∃ n, (s.ctx 3).firstRemaining = some n ∧ 2 ≤ n := by subst h; exact ⟨by decide, by decide, 2, by decide, by decide⟩

/-- A handover with bicast whose deadline goes on, or runs out. -/
theorem test_meets_BoundaryClaimStartsWork_bicast (n : Nat) (hn : n = 1 ∨ n = 2) (s : State) (h : s = due (handingOver n)) :
    s.pinHeld = false ∧ s.claimDue 3 = true ∧ (s.ctx 3).handover = some (aHandover n) ∧ (aHandover n).bicast = true ∧
      (aHandover n).remaining = n ∧ (s.ctx 3).request = none ∧ (s.ctx 3).state = .active ∧
      (s.ctx 3).silence + 1 < (s.ctx 3).silenceLimit := by subst h; rcases hn with rfl | rfl <;> decide

/-- An OPEN and a HELD context, with no handover and with one whose deadline goes on. -/
theorem test_meets_BoundaryClaimStartsWork_still (c : Ctx) (hc : c = complete ∨ c = { held with handover := some (aHandover 2) })
    (s : State) (h : s = due (part c 0)) : s.pinHeld = false ∧ s.claimDue 3 = true ∧ (s.ctx 3) = c ∧
      (c.state = .opened ∨ c.state = .held) ∧ (∀ x, c.handover = some x → 2 ≤ x.remaining) := by
  subst h
  rcases hc with rfl | rfl
  · exact ⟨by decide, by decide, by decide, Or.inl rfl, fun x hx => by cases hx⟩
  · exact ⟨by decide, by decide, by decide, Or.inr rfl, fun x hx => by cases hx; decide⟩

theorem test_meets_BoundaryClaimStartsWork_length (s : State) (h : s = due (part active 48)) :
    (s.ctx 3).profile = some 0 ∧ (s.ctx 3).rate.getD 0 = 5 ∧
      (s.contents 0).map (fun c => (c.table[5]?, c.family)) = some (some ⟨31, 48⟩, .narrowMulti) := by subst h; decide

/-- An entry of sequence 10. -/
def anEntry : QEntry := ⟨10, .speech, 5, List.replicate 31 0⟩

theorem test_meets_QueueSelection (s : State) (h : s = due (part { active with queue := [anEntry], priming := true } 48)) :
    s.claimDue 3 = true ∧ (s.ctx 3).expected = some 10 ∧ (s.ctx 3).priming = true ∧
      (s.ctx 3).queue.length < (s.ctx 3).depth ∧ (s.ctx 3).request = none ∧ (s.ctx 3).state = .active := by
  subst h; decide

theorem test_meets_QueueSelection_head (s : State)
    (h : s = due (part { active with queue := [anEntry], priming := true, depth := 1 } 48)) :
    (s.ctx 3).expected = some 10 ∧ (s.ctx 3).depth ≤ (s.ctx 3).queue.length ∧ (s.ctx 3).queue = [anEntry] ∧
      anEntry.seq = 10 ∧ anEntry.kind = .speech := by subst h; decide

/-- A head of each other kind; NO_DATA with a description held and without. -/
theorem test_meets_QueueSelection_kinds (k : EntryKind) (_ : k ≠ .speech) (d : Option (List Byte)) (s : State)
    (h : s = due (part { active with queue := [⟨10, k, 5, []⟩], noise := d } 48)) :
    (s.ctx 3).expected = some 10 ∧ (s.ctx 3).priming = false ∧ (s.ctx 3).queue = [⟨10, k, 5, []⟩] ∧
      (⟨10, k, 5, []⟩ : QEntry).seq = 10 ∧ (⟨10, k, 5, []⟩ : QEntry).kind = k ∧ (s.ctx 3).noise = d ∧
      (s.ctx 3).handover = none ∧ (s.ctx 3).request = none ∧ (s.ctx 3).state = .active := by
  subst h; exact ⟨rfl, rfl, rfl, rfl, rfl, rfl, rfl, rfl, rfl⟩

theorem test_meets_QueueSelection_conceal (s : State) (h : s = due (part { active with expected := some 9, queue := [anEntry] } 48)) :
    (s.ctx 3).priming = false ∧ (∀ x ∈ (s.ctx 3).queue, x.seq ≠ 9) := by subst h; decide

/-- An ACTIVE context of profile 0 with a pending request. -/
def asking (q r since reserved : Nat) (src : RateSource) : State :=
  due (part { active with rate := some q, request := some ⟨r, src⟩, sinceRate := since } reserved)

theorem test_meets_RateSettledBeforeTheWorkStarts (s : State) (h : s = asking 5 0 0 48 .cell) :
    s.pinHeld = false ∧ s.claimDue 3 = true ∧ (s.ctx 3).handover = none ∧ (s.ctx 3).state = .active ∧
      (s.ctx 3).silence + 1 < (s.ctx 3).silenceLimit ∧ (s.ctx 3).request = some ⟨0, .cell⟩ ∧ (s.ctx 3).rate = some 5 ∧
      (s.ctx 3).profile = some 0 ∧
      (s.contents 0).map (fun c => (c.table[5]?, c.table[0]?, decide (min 65535 ((s.ctx 3).sinceRate + 1) < c.hold))) =
        some (some ⟨31, 48⟩, some ⟨12, 34⟩, true) := by subst h; decide

/-- The rate hold of profile 0 is 2 periods; a raise from rate 4 to 5 needs 3 units. -/
theorem test_meets_RateSettledBeforeTheWorkStarts_bounds : 2 ≤ min 65535 (1 + 1) ∧
    (asking 4 5 1 95997 .cell).reserved + (48 - 45) ≤ (asking 4 5 1 95997 .cell).available ∧
    (asking 4 5 1 95998 .cell).available < (asking 4 5 1 95998 .cell).reserved + ((asking 4 5 1 95998 .cell).costOf 3 5 - 45) := by
  decide

/-- A raise from rate 0 to 5 with 10 units left: 5 and 4 do not fit, 3 does. -/
theorem test_meets_RateSettledBeforeTheWorkStarts_lower (s : State) (h : s = asking 0 5 0 95990 .order) :
    (s.ctx 3).permitted = some 0x3F ∧ (0x3F : RateSet).getLsbD 3 = true ∧ s.reserved + (42 - 34) ≤ s.available ∧
      (∀ y, y < 8 → (y = 5 ∨ (0x3F : RateSet).getLsbD y = true ∧ 3 < y ∧ y < 5) →
        s.available < s.reserved + (s.costOf 3 y - 34)) ∧
      (s.contents 0).map (fun c => (c.table[0]?, c.table[3]?)) = some (some ⟨12, 34⟩, some ⟨22, 42⟩) ∧
      nextIs (exec (.boundaryClaim 3) s) (fun t => (t.ctx 3).rate = some 3) = true := by subst h; decide

theorem test_meets_RateSettledBeforeTheWorkStarts_armed (s : State)
    (h : s = due (part { armed with firstRemaining := some 2, request := some ⟨0, .order⟩ } 48)) :
    (s.ctx 3).state = .armed ∧ (s.ctx 3).firstRemaining = some 2 ∧ (s.ctx 3).request = some ⟨0, .order⟩ ∧
      (s.ctx 3).rate = some 5 ∧ s.claimDue 3 = true ∧ (s.ctx 3).handover = none := by subst h; decide

theorem test_meets_WorkCompletionSendsItsCell (s : State) (h : s = inLane (part { active with work := some aWork } 48)) :
    s.pinHeld = false ∧ (s.lane 7).inHand = some 3 ∧ (s.ctx 3).work = some aWork ∧ aWork.primary = some ⟨1, 77⟩ ∧
      aWork.bicast = none ∧ (s.setLink 3 [⟨77, 5, 0, []⟩]).link 3 = [⟨77, 5, 0, []⟩] := by subst h; decide

theorem test_meets_WorkCompletionSendsItsCell_samples (u : Uplink) (h : u = .silence ∨ u = .conceal) :
    (inLane (part { active with work := some { aWork with uplink := u } } 48)).ctx 3 =
      { active with work := some { aWork with uplink := u } } ∧ u ≠ .noSamples := by rcases h with rfl | rfl <;> decide

/-- 1000 under A-law lies between 976 and 1008; 32767 lies beyond every level. -/
theorem test_meets_WorkCompletionSendsItsCell_compression : Law.expand .aLaw 0xFB < 1000 ∧ 1000 < Law.expand .aLaw 0xFA ∧
    (∀ b : Fin 256, Law.expand .aLaw (BitVec.ofFin b) ≤ Law.expand .aLaw 0xFB ∨
      Law.expand .aLaw 0xFA ≤ Law.expand .aLaw (BitVec.ofFin b)) ∧
    (∀ b : Fin 256, (Law.expand .aLaw (BitVec.ofFin b)).natAbs < (32767 : Int).natAbs) ∧
    (∃ b, Law.expand .muLaw b = 0) ∧ Law.compress .muLaw .downward 0 = 0xFF := by
  refine ⟨by decide, by decide, by decide +kernel, by decide +kernel, ⟨0xFF, by decide⟩, by decide⟩

theorem test_meets_FirstCellWaitExpires (b : Bool) (s : State)
    (h : s = due (part { armed with firstRemaining := some 1, autoRetire := b } 48)) :
    s.pinHeld = false ∧ s.claimDue 3 = true ∧ (s.ctx 3).state = .armed ∧ (s.ctx 3).firstRemaining = some 1 ∧
      (s.ctx 3).handover = none ∧ (s.ctx 3).autoRetire = b := by subst h; cases b <;> decide

/-- At the limit; above it, the limit lowered to 5 with stale raised no; at 6000 with stale raised; above the limit and
below twice it with auto-retire on. -/
theorem test_meets_SilenceCounts (c : Ctx) (s : State)
    (hc : c ∈ [{ active with silence := 2999, silenceLimit := 3000 }, { active with silence := 4999, silenceLimit := 5 },
      { active with silence := 6000, silenceLimit := 5, staleRaised := true },
      { active with silence := 8, silenceLimit := 5, autoRetire := true }])
    (h : s = due (part c 48)) : s.pinHeld = false ∧ s.claimDue 3 = true ∧ (s.ctx 3).state = .active ∧
      (s.ctx 3).handover = none ∧ (s.ctx 3).silenceLimit ≤ min 6000 ((s.ctx 3).silence + 1) ∧
      ((s.ctx 3).autoRetire = false ∨ min 6000 ((s.ctx 3).silence + 1) < 2 * (s.ctx 3).silenceLimit) ∧
      (s.ctx 3).request = none ∧
      nextIs (exec (.boundaryClaim 3) s) (fun t => (t.ctx 3).staleRaised && (t.ctx 3).work.isSome &&
        (t.ctx 3).conds = if c.staleRaised then 0 else 4) = true := by
  subst h
  simp only [List.mem_cons, List.not_mem_nil, or_false] at hc
  rcases hc with rfl | rfl | rfl | rfl <;> decide

/-- At twice the limit, and above it. -/
theorem test_meets_SilenceCounts_twice (n m : Nat) (hn : n = 5999 ∧ m = 3000 ∨ n = 999 ∧ m = 5) (s : State)
    (h : s = due (part { active with silence := n, silenceLimit := m, autoRetire := true } 48)) :
    2 * (s.ctx 3).silenceLimit ≤ min 6000 ((s.ctx 3).silence + 1) ∧ (s.ctx 3).autoRetire = true ∧
      (s.ctx 3).handover = none ∧ s.claimDue 3 = true ∧
      nextIs (exec (.silenceRetire 3) s) (fun t => (t.ctx 3).state = .closed && (t.ctx 3).silence = n + 1) = true := by
  subst h; rcases hn with ⟨rfl, rfl⟩ | ⟨rfl, rfl⟩ <;> decide

/-- The set empty, and not: the queues agree with it in both. -/
theorem test_meets_SilenceCounts_queues (b : Bool) (s : State)
    (h : s = { due (part { active with
      silence := 5999, silenceLimit := 3000, autoRetire := true, staleRaised := b, conds := if b then 4 else 0 } 48) with
        attention := ⟨if b then [3] else [], []⟩ }) :
    s.queuesMatch ∧ (s.ctx 3).silence + 1 = 2 * (s.ctx 3).silenceLimit := by
  subst h
  cases b <;> refine ⟨fun p => ⟨by cases p <;> decide, fun i => ?_⟩, by decide⟩ <;>
    (by_cases hi : i = 3
     · subst hi; cases p <;> decide
     · have hc : ∀ c q, ({ due (part c 48) with attention := q } : State).ctx i = Ctx.reset :=
         fun c q => (ctx_part c 48 i).trans (if_neg hi)
       rw [hc]
       cases p <;> simp [State.queueOf, PerPort.get, Ctx.reset, hi])

theorem test_meets_HandoverDeadlineExpires (s : State) (h : s = due (handingOver 1)) : s.pinHeld = false ∧
    s.claimDue 3 = true ∧ (s.ctx 3).handover = some (aHandover 1) ∧ (aHandover 1).remaining = 1 ∧
    (s.findStream (aHandover 1).key).map Prod.fst = some 1 ∧ (s.ctx 3).state = .active ∧
    (s.ctx 3).silence + 1 < (s.ctx 3).silenceLimit ∧ (s.ctx 3).silenceLimit ≤ 3000 ∧ (s.ctx 3).request = none := by
  subst h; decide

/-- The states of R131: OPEN and HELD, and the other count running out in the same claim. -/
theorem test_meets_HandoverDeadlineExpires_states (c : Ctx)
    (hc : c ∈ [{ complete with handover := some (aHandover 1) }, { held with handover := some (aHandover 1) },
      { armed with handover := some (aHandover 1), firstRemaining := some 1 },
      { active with handover := some (aHandover 1), silence := 2999, silenceLimit := 3000 },
      { active with handover := some (aHandover 1), silence := 5999, silenceLimit := 3000, autoRetire := true }])
    (s : State) (h : s = due (handed (part c 48))) : s.pinHeld = false ∧ s.claimDue 3 = true ∧
      (s.ctx 3).handover = some (aHandover 1) ∧ (s.findStream ⟨2, 99⟩).map Prod.fst = some 1 ∧
      (s.ctx 3).state ∈ [.opened, .armed, .active, .held] ∧
      nextIs (exec (.handoverExpiry 3) s) (fun t => (t.ctx 3).handover = none && t.streamEntry 1 = none) = true := by
  subst h
  simp only [List.mem_cons, List.not_mem_nil, or_false] at hc
  rcases hc with rfl | rfl | rfl | rfl | rfl <;> decide

theorem test_meets_PortSupervision (s : State) (h : s = due (supervised .initial 2999)) : s.pinHeld = false ∧
    s.timer.portDue.get .a = true ∧ (s.port .a).sup.settings.enabled = true ∧ (s.port .a).sup.count < 65535 ∧
    (s.port .a).sup.state = .initial ∧ (s.port .a).sup.settings.initialLimit ≤ (s.port .a).sup.count + 1 := by
  subst h; decide

/-- Supervision disabled; a SILENT port at the largest count. -/
theorem test_meets_PortSupervision_others (s v : State) (h : s = due (supervised .silent 65535))
    (h' : v = due (State.reset.setPort .a { PortState.reset with sup := ⟨.initial, 0, ⟨false, false, 3000, 250⟩⟩ })) :
    s.pinHeld = false ∧ s.timer.portDue.get .a = true ∧ (s.port .a).sup.settings.enabled = true ∧
      (s.port .a).sup.state = .silent ∧ min 65535 ((s.port .a).sup.count + 1) = 65535 ∧ v.pinHeld = false ∧
      v.timer.portDue.get .a = true ∧ (v.port .a).sup.settings.enabled = false := by subst h; subst h'; decide

theorem test_meets_PortSupervision_live (s : State) (h : s = due (supervised .live 248)) :
    (s.port .a).sup.state = .live ∧ (s.port .a).sup.count + 1 < (s.port .a).sup.settings.steadyLimit := by
  subst h; decide

theorem test_meets_CellsThatDoNotReachAQueue : ([1, 2, 3, 4, 5, 6, 7] : List Byte).length < 8 ∧
    88 < (List.replicate 89 (0 : Byte)).length ∧
    (parseCell 1 (List.replicate 8 0)).map InCell.tag = some 0 ∧
    (wellFormedCell 3 [77, 0, 0, 0, 0, 0xF0, 0, 0]).map InCell.key = some ⟨3, 77⟩ ∧
    (part held 0).findStream ⟨3, 77⟩ = none ∧
    (wellFormedCell 1 [77, 0, 0, 0, 0, 0xF0, 0, 0]).map InCell.key = some ⟨1, 77⟩ ∧
    (part held 0).findStream ⟨1, 77⟩ = some (0, ⟨⟨1, 77⟩, 3, .primary⟩) ∧ ((part held 0).ctx 3).state = .held := by
  decide

/-- A NO_DATA cell of sequence `q` for link 1, tag 77, with no rate request. -/
def aCell (q : Seq16) : InCell := ⟨1, 77, 2, false, q, 0, 15, 0, []⟩

/-- Its link frame. -/
def cellBytes (q : Seq16) : List Byte := [77, 0, 0x20, q.setWidth 8, (q >>> 8).setWidth 8, 0xF0, 0, 0]

theorem test_meets_FirstCellActivates : (part armed 48).pinHeld = false ∧ wellFormedCell 1 (cellBytes 10) = some (aCell 10) ∧
    (part armed 48).findStream ⟨1, 77⟩ = some (0, ⟨⟨1, 77⟩, 3, .primary⟩) ∧ ((part armed 48).ctx 3).state = .armed ∧
    ((part { active with expected := none } 48).ctx 3).state = .active ∧
    ((part { active with expected := none } 48).ctx 3).expected = none := by decide

/-- A request for 7 is corrected to 5 in the set 0..5, and one for 0 to 2 in the set 2..5. -/
theorem test_meets_FirstCellActivates_request : CorrectedTo 0x3F 7 5 ∧ CorrectedTo 0x3C 0 2 ∧ 7 ≤ 7 ∧ 7 < 8 ∧
    armed.permitted = some 0x3F := by
  have h8 : ∀ (set : RateSet) x, set.getLsbD x = true → x < 8 := fun set x h => by
    by_contra hc
    rw [BitVec.getLsbD_of_ge _ _ (by omega)] at h; cases h
  refine ⟨⟨by decide, Or.inr ⟨by decide, Or.inl ⟨by decide, fun x hx h => ?_⟩⟩⟩,
    ⟨by decide, Or.inr ⟨by decide, Or.inr fun x hx => ?_⟩⟩, by decide, by decide, by decide⟩
  · have h3 := h8 _ x hx
    have key : ∀ y, y < 8 → (0x3F : RateSet).getLsbD y = true → y < 7 → y ≤ 5 := by decide
    exact key x h3 hx h
  · have h3 := h8 _ x hx
    have key : ∀ y, y < 8 → (0x3C : RateSet).getLsbD y = true → 0 < y ∧ 2 ≤ y := by decide
    exact key x h3 hx

/-- With 10 expected: distances 0, 5, 6, 32767 and 32768. -/
theorem test_meets_QueuePlacementByDistance : (part active 48).pinHeld = false ∧
    ([10, 15, 16, 32777, 32778] : List Seq16).all (fun q => wellFormedCell 1 (cellBytes q) = some (aCell q)) = true ∧
    (part active 48).findStream ⟨1, 77⟩ = some (0, ⟨⟨1, 77⟩, 3, .primary⟩) ∧
    ((part active 48).ctx 3).state = .active ∧ ((part active 48).ctx 3).expected = some 10 ∧
    ([10, 15, 16, 32777, 32778] : List Seq16).map (fun q => (q - 10).toNat) = [0, 5, 6, 32767, 32768] ∧
    ((part { active with queue := [anEntry] } 48).ctx 3).queue.any (fun x => x.seq = 10) = true := by decide

/-! ### The events of R181 -/

/-- Tally 0 enabled for events of kind `k`, its count 0. -/
def counting (k : Event) (s : State) : State := { s with tally0 := ⟨true, k, none, 0⟩ }

/-- How many events of kind `k` a command counts. -/
def eventsOf (k : Event) (i : Instr) (s : State) : Option (BitVec 40) :=
  match exec i (counting k s) with
  | .next t => some t.tally0.count
  | .fault _ => none
  | .refused _ => none

/-- In window, duplicate, far ahead, behind: with 10 expected and held. -/
theorem test_events_of_cells (s : State) (h : s = part { active with queue := [anEntry] } 48) :
    [eventsOf .cellIn (.cellArrival 1 (cellBytes 11)) s, eventsOf .cellDup (.cellArrival 1 (cellBytes 10)) s,
      eventsOf .cellResync (.cellArrival 1 (cellBytes 16)) s, eventsOf .cellIn (.cellArrival 1 (cellBytes 16)) s,
      eventsOf .cellLate (.cellArrival 1 (cellBytes 32778)) s, eventsOf .cellBad (.cellArrival 1 (cellBytes 11)) s] =
      [some 1, some 1, some 1, some 1, some 1, some 0] := by subst h; decide

/-- A first cell marked bad becomes an ERASED entry and counts CELL_IN and CELL_BAD. -/
theorem test_events_of_a_bad_first_cell (i : Instr) (h : i = .cellArrival 1 [77, 0, 0x60, 10, 0, 0xF0, 0, 0]) :
    eventsOf .cellIn i (part armed 48) = some 1 ∧ eventsOf .cellBad i (part armed 48) = some 1 ∧
      nextIs (exec i (part armed 48)) (fun t => (t.ctx 3).queue = [⟨10, .erased, 0, []⟩] &&
        (t.ctx 3).counters.bad = 1) = true := by subst h; decide

/-- A concealment; an applied rate; a refused raise, before the work that conceals starts. -/
theorem test_events_of_a_claim :
    [eventsOf .conceal (.boundaryClaim 3) (due (part active 48)), eventsOf .rateChange (.boundaryClaim 3) (asking 5 0 9 48 .cell),
      eventsOf .admitRefused (.boundaryClaim 3) (asking 4 5 9 96000 .order),
      eventsOf .conceal (.boundaryClaim 3) (asking 4 5 9 96000 .order),
      eventsOf .handoverFail (.boundaryClaim 3) (due (handingOver 1))] = [some 1, some 1, some 1, some 1, some 1] := by
  decide

/-- Two CELL_OUT for a bicast work; on one link the primary key's cell stands first (log 31). -/
theorem test_events_of_a_bicast (s : State)
    (h : s = inLane (part { active with work := some { aWork with bicast := some ⟨1, 99⟩ } } 48)) :
    eventsOf .cellOut (.workCompletion 7) s = some 2 ∧ eventsOf .clipPeriod (.workCompletion 7) s = some 0 ∧
      nextIs (exec (.workCompletion 7) s) (fun t => ((t.link 1).map OutCell.tag) = [77, 99]) = true := by subst h; decide

/-- The CLOSED context in its owner's queue. -/
def noticed : State := { bare closed with attention := ⟨[3], []⟩ }

theorem test_meets_NoticesDeliverFromTheHead : noticed.takes .a = true ∧ ((noticed.atOrder .a 0x03).queueOf .a).Nodup ∧
    3 ∈ ((noticed.atOrder .a 0x03).queueOf .a).take 8 ∧ ((noticed.atOrder .a 0x03).ctx 3).state = .closed ∧
    ∀ i, i ∈ (noticed.atOrder .a 0x03).queueOf .a → ((noticed.atOrder .a 0x03).ctx i).owner = .a := by
  refine ⟨by decide, by decide, by decide, by decide, fun i hi => ?_⟩
  have : i = 3 := List.mem_singleton.mp hi
  subst this; decide

theorem test_meets_AdoptByOwner : (part active 48).takes .a = true ∧ Named ((part active 48).atOrder .a 0x06) 3 0 0 ∧
    (((part active 48).atOrder .a 0x06).ctx 3).owner = .a ∧ Named ((part active 48).atOrder .b 0x06) 3 0 0 ∧
    (((part active 48).atOrder .b 0x06).ctx 3).owner = Port.other .b ∧
    (((part active 48).atOrder .b 0x06).port .a).sup.state ≠ .silent := by unfold Named; decide

theorem test_meets_AdoptByOwner_silent (s : State)
    (h : s = { supervised .silent 3000 with ctxs := [(3, { active with conds := 1 })], attention := ⟨[3], []⟩ }) :
    s.takes .b = true ∧ Named (s.atOrder .b 0x06) 3 0 0 ∧ ((s.atOrder .b 0x06).ctx 3).owner = .a ∧
      ((s.atOrder .b 0x06).port .a).sup.state = .silent ∧ ((s.atOrder .b 0x06).ctx 3).conds ≠ 0 := by
  subst h; unfold Named; decide

/-- Port A's sweep: HOLD with no criterion, `n` visits left from `cursor`. -/
def sweeping (st : SweepState) (cursor n : Nat) : State :=
  (part active 48).setSweep .a
    ⟨st, some .hold, some ⟨none, none, none, none, none⟩, some .never, cursor, n, 0, 0, 0, 0, none, .none⟩

theorem test_meets_SweepOrders : (sweeping .running 3 2).takes .a = true ∧ le16 255 7 = 2047 ∧ le16 0 8 = 2048 ∧
    (((sweeping .running 3 2).atOrder .a 0x61).sweepOf .a).state = .running ∧
    (((sweeping .suspended 3 2).atOrder .a 0x62).sweepOf .a).state = .suspended ∧
    (State.reset.sweepOf .a).state = .idle := by decide

/-- A selector with every criterion at its highest value, and one with none. -/
theorem test_meets_SweepOrders_selector :
    SelectorSpelled 0x1F 63 3 63 15 3 ⟨some 63, some 3, some 63, some 15, some 3⟩ ∧
      SelectorSpelled 0 0xFF 0xFF 0xFF 0xFF 0xFF ⟨none, none, none, none, none⟩ := by unfold SelectorSpelled; decide

/-- Each criterion just out of its range. -/
theorem test_meets_SweepOrders_range : 32 ≤ (32 : Byte).toNat ∧ 64 ≤ (64 : Byte).toNat ∧ 3 < (4 : Byte).toNat ∧
    63 < (64 : Byte).toNat ∧ 15 < (16 : Byte).toNat ∧ 6 < (7 : Byte).toNat ∧ 2 < (3 : Byte).toNat ∧
    2047 < le16 0 8 ∧ le16 0 0 = 0 ∧ 2048 < le16 1 8 ∧ (0x1F : Byte).getLsbD 4 = true := by decide

theorem test_meets_SweepVisits (s : State) (h : s = sweeping .running 3 1) : s.pinHeld = false ∧
    (s.sweepOf .a).state = .running ∧ (s.sweepOf .a).action = some .hold ∧
    (s.sweepOf .a).selector = some ⟨none, none, none, none, none⟩ ∧
    SweepMatches .a .hold ⟨none, none, none, none, none⟩ (s.ctx (s.sweepOf .a).cursor) ∧
    (s.sweepOf .a).remaining = 1 := by
  subst h
  refine ⟨by decide, by decide, by decide, by decide, ⟨by decide, by decide, by decide, ?_, ?_, ?_, ?_, ?_⟩, by decide⟩ <;>
    · intro _ e; cases e

/-- The handle of the context an action is about; its lowest permitted index; a context without a set. -/
theorem test_meets_SweepVisits_orders : Owned (part active 48) .a 3 0 0 ∧ le16 3 0 = 3 ∧
    ((part active 48).ctx 3).permitted = some 0x3F ∧ (0x3F : RateSet).getLsbD (0 : Byte).toNat = true ∧
    (3 : Byte).toNat ≤ 3 ∧ ((bare { Ctx.reset with state := .opened }).ctx 3).permitted = none ∧
    Owned (bare { Ctx.reset with state := .opened }) .a 3 0 0 := by unfold Owned Named; decide

theorem test_meets_SweepVisits_end (s : State) (h : s = sweeping .running 2047 2) :
    ¬ SweepMatches .a .hold ⟨none, none, none, none, none⟩ (s.ctx (s.sweepOf .a).cursor) ∧
      2 ≤ (s.sweepOf .a).remaining ∧ (s.sweepOf .a).cursor = 2047 ∧ (s.sweepOf .a).stopRule = some .never := by
  subst h
  exact ⟨fun h => h.2.2.1 (by decide), by decide, by decide, by decide⟩

/-- Every criterion met: states, link, highway, profile, priority. -/
theorem test_meets_SweepVisits_criteria : SweepMatches .a .retire ⟨some 0x3F, some 1, some 0, some 0, some 2⟩ active := by
  refine ⟨by decide, by decide, by decide, ?_, ?_, ?_, ?_, ?_⟩
  · intro x e; obtain rfl := Option.some.inj e; decide
  · intro x e; obtain rfl := Option.some.inj e; exact ⟨⟨1, 77⟩, by decide, by decide⟩
  · intro x e; obtain rfl := Option.some.inj e; exact ⟨⟨5, .aLaw⟩, by decide, by decide⟩
  · intro x e; obtain rfl := Option.some.inj e; decide
  · intro x e; obtain rfl := Option.some.inj e; decide

/-- A RESUME of an ACTIVE context is refused, a HOLD answered OK. -/
theorem test_meets_SweepVisits_stops (s : State) (h : s = sweeping .running 3 2) : (s.sweepOf .a).cursor < 2047 ∧
    (applyAction .a .resume 3 s).result ≠ .ok ∧ (applyAction .a .hold 3 s).result = .ok ∧
    nextIs (exec (.sweepVisit .a) (s.setSweep .a { s.sweepOf .a with stopRule := some .onFirstAction })) (fun t =>
      (t.sweepOf .a).state = .suspended && (t.sweepOf .a).stopReason = .firstAction && (t.port .a).conds = 1) = true ∧
    nextIs (exec (.sweepVisit .a) (s.setSweep .a
      { s.sweepOf .a with action := some .resume, stopRule := some .onRefusal })) (fun t =>
        (t.sweepOf .a).state = .suspended && (t.sweepOf .a).stopReason = .refusal &&
          (t.sweepOf .a).lastRefusal = some (3, .wrongState)) = true := by subst h; decide

theorem test_meets_TallySetWritesOneTally : State.reset.takes .a = true ∧ 1 < (2 : Byte).toNat ∧ 15 < (16 : Byte).toNat ∧
    2047 < le16 0 8 ∧ Event.code .retire = (15 : Byte).toNat ∧ le16 255 7 ≤ 2047 ∧ (1 : Byte).toNat ≤ 1 := by decide

theorem test_meets_CanonicalTablesKept : (part active 48).canonical = true ∧
    nextIs (step { part active 48 with pending := [.retire .a 1 [3, 0, 0]] }) (fun t => t.canonical) = true := by
  decide

theorem test_meets_PortBoundsKept : (lineOf 8).portsBounded = true ∧
    nextIs (step { lineOf 7 with pending := [.tallyRead .b 1 []] }) (fun t => t.portsBounded) = true := by decide

/-- An orphaned context of the SILENT Port A, and a frame that renews that port. -/
theorem test_meets_PortBoundsKept_orphans (s : State)
    (h : s = { supervised .silent 3000 with ctxs := [(3, { active with orphaned := true })] }) : s.orphansMatch ∧
      nextIs (step { s with pending := [.keepalive .a 1 []] }) (fun t => (t.ctx 3).orphaned = false) = true := by
  subst h
  refine ⟨fun i hi => ?_, by decide⟩
  have hc : ({ supervised .silent 3000 with ctxs := [(3, { active with orphaned := true })] } : State).ctx i =
      if i = 3 then { active with orphaned := true } else Ctx.reset := by
    simp only [State.ctx, Tab.get, ctxDefault]
  rw [hc] at hi ⊢
  by_cases e : i = 3
  · subst e; decide
  · simp only [e, if_false] at hi; exact absurd rfl hi

theorem test_meets_AvailableUnitsKept : (laneDown (part held 0)).availableMatches ∧
    nextIs (step { laneDown (part held 0) with pending := [.laneServiceIn .a 1 7] })
      (fun t => t.available = Config.laneUnits * t.lanesInService) = true := by
  unfold State.availableMatches; decide

theorem test_meets_AttentionQueuesKept : noticed.canonical = true ∧ noticed.queuesMatch ∧ noticed.freeIsBare ∧
    nextIs (step { noticed with pending := [.notices .a 1 []] }) (fun t => (t.queueOf .a).isEmpty) = true := by
  have hc : ∀ i, noticed.ctx i = if i = 3 then closed else Ctx.reset := fun i => by
    simp only [noticed, bare, State.ctx, Tab.get, ctxDefault]
  have hk : ∀ n e, noticed.streamEntry n ≠ some e := fun n e h => by cases h
  refine ⟨by decide, fun p => ⟨by cases p <;> decide, fun i => ?_⟩, ⟨fun i h => ?_, ?_, ?_⟩, by decide⟩
  · rw [hc]
    cases p
    · by_cases h : i = 3
      · subst h; decide
      · simp only [h, if_false]
        exact ⟨fun m => absurd (List.mem_singleton.mp m) h, fun m => absurd rfl m.2⟩
    · by_cases h : i = 3
      · subst h; decide
      · simp only [h, if_false]
        exact ⟨fun m => absurd m (List.not_mem_nil), fun m => absurd rfl m.2⟩
  · rw [hc] at h ⊢
    by_cases e : i = 3
    · subst e; exact absurd h (by decide)
    · simp only [e, if_false]; exact ⟨rfl, rfl, rfl⟩
  · rintro n m k ⟨e, he, _⟩ _
    exact absurd he (hk n e)
  · intro n e he _
    exact absurd he (hk n e)

theorem test_meets_AttentionQueuesKept_coherent : (part active 48).coherent ∧
    nextIs (step { part active 48 with pending := [.retire .a 1 [3, 0, 0]] }) (fun t => t.reserved = 0) = true :=
  ⟨test_part_coherent, by decide⟩

theorem test_meets_GenerationRule : (part active 48).canonical = true ∧
    nextIs (step { part active 48 with pending := [.retire .a 1 [3, 0, 0]] }) (fun t => (t.ctx 3).gen = 1) = true := by
  decide

end Sys2Proof.Machine
end

section
/-! SUPPORT. How a record's generation can move (R4): the operations that free no record, those that free some, and
what a whole command can do. -/

namespace Sys2Proof.Machine

/-! ### Relations between a record before and after -/

/-- The generation and the state of a record stand. -/
structure Ctx.SameStage (c d : Ctx) : Prop where
  gen : d.gen = c.gen
  state : d.state = c.state

/-- A record is not taken to FREE: its generation stands, and one in use stays in use. -/
structure Ctx.NotFreed (c d : Ctx) : Prop where
  gen : d.gen = c.gen
  inUse : c.state ≠ .free → d.state ≠ .free

/-- The rule of R4 for one record: the generation advances by one exactly when the record becomes FREE. -/
def Ctx.GenFollows (c d : Ctx) : Prop :=
  d.gen = if c.state ≠ .free ∧ d.state = .free then c.gen + 1 else c.gen

/-- A record delivered by NOTICES: it stands in its state, or it was CLOSED and is FREE with its generation advanced. -/
def Ctx.Delivered (c d : Ctx) : Prop :=
  c.SameStage d ∨ c.state = .closed ∧ d.state = .free ∧ d.gen = c.gen + 1

theorem Ctx.SameStage.notFreed {c d : Ctx} (h : c.SameStage d) : c.NotFreed d := ⟨h.gen, fun hc => h.state ▸ hc⟩

theorem Ctx.NotFreed.trans {c d e : Ctx} (h : c.NotFreed d) (h' : d.NotFreed e) : c.NotFreed e :=
  ⟨h'.gen.trans h.gen, fun hc => h'.inUse (h.inUse hc)⟩

theorem Ctx.NotFreed.genFollows {c d : Ctx} (h : c.NotFreed d) : c.GenFollows d := by
  unfold GenFollows
  rw [if_neg fun hc => h.inUse hc.1 hc.2, h.gen]

theorem Ctx.SameStage.genFollows {c d e : Ctx} (h : c.SameStage d) (h' : d.GenFollows e) : c.GenFollows e := by
  unfold GenFollows at h' ⊢
  rw [← h.gen, ← h.state, h']

theorem Ctx.Delivered.trans {c d e : Ctx} (h : c.Delivered d) (h' : d.Delivered e) : c.Delivered e := by
  rcases h with ⟨hg, hs⟩ | ⟨hc, hf, hg⟩
  · rcases h' with ⟨hg', hs'⟩ | ⟨hc', hf', hg'⟩
    · exact Or.inl ⟨hg'.trans hg, hs'.trans hs⟩
    · exact Or.inr ⟨hs ▸ hc', hf', hg ▸ hg'⟩
  · rcases h' with ⟨hg', hs'⟩ | ⟨hc', -, -⟩
    · exact Or.inr ⟨hc, hs'.trans hf, hg'.trans hg⟩
    · rw [hf] at hc'; cases hc'

theorem Ctx.Delivered.genFollows {c d : Ctx} (h : c.Delivered d) : c.GenFollows d := by
  rcases h with h | ⟨hc, hf, hg⟩
  · exact h.notFreed.genFollows
  · simp [GenFollows, hc, hf, hg]

/-- A converting state that a held-from field names is not FREE. -/
theorem HeldFrom.state_ne_free (h : HeldFrom) : h.state ≠ .free := by cases h <;> simp [HeldFrom.state]

namespace State

/-- Every record keeps its generation and its state. -/
def StagesKept (s t : State) : Prop := ∀ i, (s.ctx i).SameStage (t.ctx i)

/-- No record is taken to FREE. -/
def NoneFreed (s t : State) : Prop := ∀ i, (s.ctx i).NotFreed (t.ctx i)

/-- Every record follows the rule of R4. -/
def GensFollow (s t : State) : Prop := ∀ i, (s.ctx i).GenFollows (t.ctx i)

/-! ### Chaining -/

theorem StagesKept.of_ctxs {s t : State} (h : t.ctxs = s.ctxs) : StagesKept s t := fun i => by
  rw [ctx_congr h]; exact ⟨rfl, rfl⟩

theorem StagesKept.noneFreed {s t : State} (h : StagesKept s t) : NoneFreed s t := fun i => (h i).notFreed

theorem StagesKept.trans {s t u : State} (h : StagesKept s t) (h' : StagesKept t u) : StagesKept s u := fun i =>
  ⟨(h' i).gen.trans (h i).gen, (h' i).state.trans (h i).state⟩

theorem NoneFreed.refl (s : State) : NoneFreed s s := fun _ => ⟨rfl, id⟩

theorem NoneFreed.of_ctxs {s t : State} (h : t.ctxs = s.ctxs) : NoneFreed s t := (StagesKept.of_ctxs h).noneFreed

theorem NoneFreed.trans {s t u : State} (h : NoneFreed s t) (h' : NoneFreed t u) : NoneFreed s u := fun i =>
  (h i).trans (h' i)

/-- An operation that changes one record, and does not take that one to FREE. -/
theorem NoneFreed.of_one {s t : State} {i : Nat} {d : Ctx} (h : ∀ j, t.ctx j = if j = i then d else s.ctx j)
    (hd : (s.ctx i).NotFreed d) : NoneFreed s t := fun j => by
  rw [h]
  by_cases hj : j = i
  · rw [if_pos hj, hj]; exact hd
  · rw [if_neg hj]; exact ⟨rfl, id⟩

theorem NoneFreed.gensFollow {s t : State} (h : NoneFreed s t) : GensFollow s t := fun i => (h i).genFollows

theorem StagesKept.gensFollow {s t u : State} (h : StagesKept s t) (h' : GensFollow t u) : GensFollow s u := fun i =>
  (h i).genFollows (h' i)

theorem GensFollow.of_ctxs {s t u : State} (h : GensFollow s t) (hc : u.ctxs = t.ctxs) : GensFollow s u := fun i => by
  rw [ctx_congr hc]; exact h i

theorem noneFreed_foldl {β : Type} (f : State → β → State) (h : ∀ t b, NoneFreed t (f t b)) (l : List β) (s : State) :
    NoneFreed s (l.foldl f s) := by
  induction l generalizing s with
  | nil => exact .refl s
  | cons b l ih => exact (h s b).trans (ih _)

/-! ### The single updates -/

theorem noneFreed_modCtx (s : State) (i : Nat) (f : Ctx → Ctx) (h : (s.ctx i).NotFreed (f (s.ctx i))) :
    NoneFreed s (s.modCtx i f) := .of_one (ctx_modCtx s i · f) h

/-- A record changed in other fields than its generation and state. -/
theorem noneFreed_modCtx_fields (s : State) (i : Nat) (f : Ctx → Ctx) (hg : ∀ c, (f c).gen = c.gen)
    (hs : ∀ c, (f c).state = c.state) : NoneFreed s (s.modCtx i f) :=
  noneFreed_modCtx s i f (Ctx.SameStage.notFreed ⟨hg _, hs _⟩)

theorem stagesKept_setOrphans (s : State) (p : Port) (b : Bool) : StagesKept s (s.setOrphans p b) := fun i => by
  rw [ctx_setOrphans]; split <;> exact ⟨rfl, rfl⟩

theorem noneFreed_raise (s : State) (i : Nat) (k : Cond) : NoneFreed s (s.raise i k) :=
  .of_one (ctx_raise s i · k) ⟨rfl, id⟩

theorem noneFreed_raiseIf (s : State) (b : Bool) (i : Nat) (k : Cond) : NoneFreed s (s.raiseIf b i k) := by
  cases b
  · exact .refl s
  · exact noneFreed_raise s i k

theorem noneFreed_discardWork (s : State) (i : Nat) : NoneFreed s (s.discardWork i) :=
  .of_one (ctx_discardWork s i) ⟨rfl, id⟩

/-! ### Transitions -/

theorem noneFreed_enterHeld (s : State) (i : Nat) (c : HoldCause) : NoneFreed s (s.enterHeld i c) :=
  .of_one (ctx_enterHeld s i · c) ⟨rfl, fun _ => by simp [Ctx.toHeld]⟩

theorem noneFreed_leaveHeld (s : State) (i : Nat) : NoneFreed s (s.leaveHeld i) :=
  .of_one (ctx_leaveHeld s i) ⟨rfl, fun _ => HeldFrom.state_ne_free _⟩

theorem noneFreed_enterClosed (s : State) (i : Nat) (c : RetireCause) : NoneFreed s (s.enterClosed i c) :=
  .of_one (ctx_enterClosed s i · c) ⟨rfl, fun _ => by simp⟩

theorem noneFreed_returnToOpen (s : State) (i : Nat) : NoneFreed s (s.returnToOpen i) :=
  .of_one (ctx_returnToOpen s i) ⟨rfl, fun _ => by simp⟩

/-- Entry into FREE of a record in use advances its generation, and that of no other (R4, R18). -/
theorem gensFollow_enterFree (s : State) (i : Nat) (h : (s.ctx i).state ≠ .free) : GensFollow s (s.enterFree i) :=
  fun j => by
    rw [ctx_enterFree]
    by_cases hj : j = i
    · subst hj; simp [Ctx.GenFollows, h]
    · rw [if_neg hj]; exact Ctx.NotFreed.genFollows ⟨rfl, id⟩

/-! ### Handovers -/

theorem noneFreed_commit (s : State) (i : Nat) (k : StreamKey) : NoneFreed s (s.commit i k) :=
  .of_one (ctx_commit s i k) ⟨rfl, id⟩

theorem noneFreed_abandon (s : State) (i : Nat) (k : StreamKey) : NoneFreed s (s.abandon i k) :=
  .of_one (ctx_abandon s i k) ⟨rfl, id⟩

theorem noneFreed_expireHandover (s : State) (i : Nat) (k : StreamKey) : NoneFreed s (s.expireHandover i k) :=
  .of_one (ctx_expireHandover s i k) ⟨rfl, id⟩

theorem noneFreed_stepHandover (s : State) (i : Nat) : NoneFreed s (s.stepHandover i) := by
  unfold stepHandover
  split
  · exact .refl s
  · split
    · exact noneFreed_expireHandover _ _ _
    · exact noneFreed_modCtx_fields _ _ _ (fun _ => rfl) fun _ => rfl

/-! ### Rates -/

theorem noneFreed_retune (s : State) (i r : Nat) : NoneFreed s (s.retune i r) := .of_one (ctx_retune s i r) ⟨rfl, id⟩

theorem noneFreed_retunePaid (s : State) (i r : Nat) : NoneFreed s (s.retunePaid i r) :=
  .of_one (ctx_retunePaid s i r) ⟨rfl, id⟩

theorem noneFreed_dropRequest (s : State) (i : Nat) : NoneFreed s (s.dropRequest i) :=
  noneFreed_modCtx_fields _ _ _ (fun _ => rfl) fun _ => rfl

theorem noneFreed_applyRate (s : State) (i r : Nat) : NoneFreed s (s.applyRate i r) :=
  .of_one (ctx_applyRate s i r) ⟨rfl, id⟩

theorem noneFreed_settleRate (s : State) (i current r : Nat) : NoneFreed s (s.settleRate i current r) := by
  unfold settleRate settleRaise
  split
  · exact noneFreed_dropRequest s i
  · split
    · exact noneFreed_applyRate s i r
    · split
      · exact noneFreed_applyRate s i _
      · exact ((noneFreed_dropRequest s i).trans (noneFreed_raise _ i _)).trans (.of_ctxs (countFor_ctxs ..))

theorem noneFreed_settle (s : State) (i : Nat) : NoneFreed s (s.settle i) := by
  unfold settle
  split
  · exact .refl s
  · split
    · exact .refl s
    · exact noneFreed_settleRate _ _ _ _
  · exact noneFreed_settleRate _ _ _ _

theorem noneFreed_narrow (s : State) (i : Nat) (set : RateSet) (r : Nat) : NoneFreed s (s.narrow i set r) :=
  (noneFreed_modCtx_fields s i (fun c => { c with permitted := some set, request := keptRequest set r c.request })
    (fun _ => rfl) fun _ => rfl).trans (noneFreed_raiseIf _ _ _ _)

theorem noneFreed_takeRequest (s : State) (i field : Nat) : NoneFreed s (s.takeRequest i field) :=
  .of_one (ctx_takeRequest s i field) ⟨rfl, id⟩

/-! ### Boundary claims -/

theorem noneFreed_stepFirst (s : State) (i : Nat) : NoneFreed s (s.stepFirst i) := by
  unfold stepFirst expireFirst
  split
  · split
    · split
      · exact noneFreed_enterClosed _ _ _
      · exact noneFreed_returnToOpen _ _
    · exact noneFreed_modCtx_fields _ _ _ (fun _ => rfl) fun _ => rfl
  · exact .refl s

theorem noneFreed_stepSilence (s : State) (i : Nat) : NoneFreed s (s.stepSilence i) := by
  have hs : NoneFreed s (s.stepStale i) := .of_one (ctx_stepStale s i) ⟨rfl, id⟩
  unfold stepSilence
  split
  · exact hs.trans (noneFreed_enterClosed _ _ _)
  · exact hs

theorem noneFreed_stepCounts (s : State) (i : Nat) : NoneFreed s (s.stepCounts i) := by
  unfold stepCounts
  split
  · exact (noneFreed_stepHandover s i).trans (noneFreed_stepFirst _ i)
  · exact (noneFreed_stepHandover s i).trans (noneFreed_stepSilence _ i)
  all_goals exact .refl s

theorem noneFreed_playReady (s : State) (i : Nat) : NoneFreed s (s.playReady i) :=
  .of_one (ctx_playReady s i) ⟨rfl, id⟩

theorem noneFreed_stepSinceRate (s : State) (i : Nat) : NoneFreed s (s.stepSinceRate i) :=
  .of_one (ctx_stepSinceRate s i) ⟨rfl, id⟩

theorem noneFreed_startWork (s : State) (i : Nat) : NoneFreed s (s.startWork i) := by
  refine .of_one (ctx_startWork s i) ?_
  rw [uplinkStart_keeps]
  exact ⟨rfl, id⟩

theorem noneFreed_continueClaim (s : State) (i : Nat) : NoneFreed s (s.continueClaim i) := by
  unfold continueClaim
  split
  · exact (((noneFreed_playReady s i).trans (noneFreed_stepSinceRate _ i)).trans (noneFreed_settle _ i)).trans
      (noneFreed_startWork _ i)
  · exact .of_ctxs (dropHanded_ctxs ..)

theorem noneFreed_claimBody (s : State) (i : Nat) : NoneFreed s (s.claimBody i) := by
  have hquiet : NoneFreed s ((s.stepHandover i).dropHanded i) :=
    (noneFreed_stepHandover s i).trans (.of_ctxs (dropHanded_ctxs ..))
  have hconv : NoneFreed s (((s.discardWork i).stepCounts i).continueClaim i) :=
    ((noneFreed_discardWork s i).trans (noneFreed_stepCounts _ i)).trans (noneFreed_continueClaim _ i)
  unfold claimBody
  split
  · exact hquiet
  · exact hquiet
  · exact hconv
  · exact hconv
  · exact .refl s
  · exact .refl s

theorem noneFreed_boundaryClaim (s : State) (i : Nat) : NoneFreed s (s.boundaryClaim i) := by
  unfold boundaryClaim
  split
  · exact (noneFreed_claimBody s i).trans (.of_ctxs rfl)
  · exact .refl s

theorem noneFreed_portBody (s : State) (p : Port) : NoneFreed s (s.portBody p) := by
  unfold portBody goSilent
  split
  · exact .refl s
  · split
    · exact (stagesKept_setOrphans _ p true).noneFreed
    · exact .of_ctxs rfl

theorem noneFreed_portBoundary (s : State) (p : Port) : NoneFreed s (s.portBoundary p) := by
  unfold portBoundary
  split
  · have h : NoneFreed s (s.setTimer { s.timer with portDue := s.timer.portDue.set p false }) := .of_ctxs rfl
    exact h.trans (noneFreed_portBody _ p)
  · exact .refl s

theorem noneFreed_settleBoundary (s : State) : NoneFreed s s.settleBoundary :=
  ((noneFreed_portBoundary s .a).trans (noneFreed_portBoundary _ .b)).trans
    (noneFreed_foldl _ noneFreed_boundaryClaim _ _)

/-! ### Frame marks (R80 to R82) -/

theorem foldl_blocks_ctxs (f : State → Nat → State) (h : ∀ t n, (f t n).ctxs = t.ctxs) (l : List Nat) (s : State) :
    (l.foldl f s).ctxs = s.ctxs := foldl_keeps (fun t => t.ctxs) f h l s

theorem collectAt_ctxs (rx : List (Nat × Byte)) (s : State) (n : Nat) : (collectAt rx s n).ctxs = s.ctxs := by
  unfold collectAt; split <;> rfl

theorem noneFreed_frameMark (s : State) (rx : List (Nat × Byte)) : NoneFreed s (s.frameMark rx) := by
  have hs := noneFreed_settleBoundary s
  unfold frameMark
  split
  · exact hs.trans (.of_ctxs (foldl_blocks_ctxs freshBlocks (fun _ _ => rfl) _ _))
  · refine hs.trans (.of_ctxs ?_)
    have hc : (s.settleBoundary.collect rx).ctxs = s.settleBoundary.ctxs :=
      foldl_blocks_ctxs _ (collectAt_ctxs rx) _ _
    unfold markAt boundary
    split
    · exact (foldl_blocks_ctxs handOver (fun _ _ => rfl) _ _).trans hc
    · exact hc

theorem noneFreed_framingLost (s : State) : NoneFreed s s.framingLost := by
  unfold framingLost
  split
  · exact .refl s
  · exact (noneFreed_settleBoundary s).trans (.of_ctxs (foldl_blocks_ctxs dropBlocks (fun _ _ => rfl) _ _))

/-! ### Cells (R37 to R41, R97, R98) -/

theorem noneFreed_acceptCounts (s : State) (i : Nat) (bad : Bool) : NoneFreed s (s.acceptCounts i bad) :=
  .of_one (ctx_acceptCounts s i · bad) ⟨rfl, id⟩

theorem noneFreed_firstArrival (s : State) (i : Nat) (c : InCell) : NoneFreed s (s.firstArrival i c) :=
  ((noneFreed_modCtx_fields s i (fun x => x.startQueue (c.entry (s.badCell i c))) (fun _ => rfl) fun _ => rfl).trans
    (noneFreed_acceptCounts _ i _)).trans (noneFreed_takeRequest _ i _)

theorem noneFreed_insertCell (s : State) (i : Nat) (e : Seq16) (c : InCell) : NoneFreed s (s.insertCell i e c) :=
  ((noneFreed_modCtx_fields s i (fun x => { x with queue := insertEntry e (c.entry (s.badCell i c)) x.queue })
    (fun _ => rfl) fun _ => rfl).trans (noneFreed_acceptCounts _ i _)).trans (noneFreed_takeRequest _ i _)

theorem noneFreed_resync (s : State) (i : Nat) (c : InCell) : NoneFreed s (s.resync i c) :=
  (((noneFreed_modCtx_fields s i (fun x => { x.startQueue (c.entry (s.badCell i c)) with
    counters := { x.counters with resync := x.counters.resync + 1 } }) (fun _ => rfl) fun _ => rfl).trans
    (noneFreed_acceptCounts _ i _)).trans (.of_ctxs (countFor_ctxs ..))).trans (noneFreed_takeRequest _ i _)

theorem noneFreed_place (s : State) (i : Nat) (c : InCell) : NoneFreed s (s.place i c) := by
  unfold place placeAt
  split
  · split
    · split
      · exact (noneFreed_modCtx_fields s i (fun c => { c with counters :=
          { c.counters with duplicate := c.counters.duplicate + 1 } }) (fun _ => rfl) fun _ => rfl).trans
          (.of_ctxs (countFor_ctxs ..))
      · exact noneFreed_insertCell _ _ _ _
    · split
      · exact noneFreed_resync _ _ _
      · exact (noneFreed_modCtx_fields s i (fun c => { c with counters :=
          { c.counters with late := c.counters.late + 1 } }) (fun _ => rfl) fun _ => rfl).trans
          (.of_ctxs (countFor_ctxs ..))
  · exact noneFreed_firstArrival _ _ _

theorem noneFreed_heard (s : State) (i : Nat) : NoneFreed s (s.heard i) :=
  noneFreed_modCtx_fields _ _ _ (fun _ => rfl) fun _ => rfl

theorem noneFreed_firstCell (s : State) (i : Nat) (c : InCell) : NoneFreed s (s.firstCell i c) :=
  (((noneFreed_heard s i).trans (noneFreed_modCtx _ i (fun x => { x with state := .active, firstRemaining := none })
    ⟨rfl, fun _ => by simp⟩)).trans (noneFreed_firstArrival _ i c)).trans (noneFreed_raise _ i _)

theorem noneFreed_dispatch (s : State) (i : Nat) (c : InCell) : NoneFreed s (s.dispatch i c) := by
  unfold dispatch
  split
  · exact .of_ctxs (countFor_ctxs ..)
  · exact .of_ctxs (countFor_ctxs ..)
  · exact noneFreed_firstCell s i c
  · exact (noneFreed_heard s i).trans (noneFreed_place _ i c)
  · exact .of_ctxs rfl
  · exact .of_ctxs rfl

theorem noneFreed_intake (s : State) (link : Nat) (bytes : List Byte) : NoneFreed s (s.intake link bytes) := by
  unfold intake reach
  split
  · exact .of_ctxs rfl
  · split
    · exact .of_ctxs rfl
    · split
      · exact noneFreed_dispatch _ _ _
      · exact (noneFreed_commit s _ _).trans (noneFreed_dispatch _ _ _)

/-! ### Lanes, passes and faults (R63 to R75) -/

theorem noneFreed_shed (s : State) (i : Nat) : NoneFreed s (s.shed i) :=
  ((NoneFreed.of_ctxs (countFor_ctxs s .shed i)).trans (noneFreed_enterHeld _ i .shed)).trans (noneFreed_raise _ i _)

theorem noneFreed_lower (s : State) (i r : Nat) : NoneFreed s (s.lower i r) := .of_one (ctx_lower s i r) ⟨rfl, id⟩

/-- A walk of contexts each of whose steps frees no record frees none. -/
theorem noneFreed_walk (f : Walk → Nat → Walk) (h : ∀ w i, NoneFreed w.after (f w i).after) (l : List Nat) (w : Walk) :
    NoneFreed w.after (l.foldl f w).after := by
  induction l generalizing w with
  | nil => exact .refl _
  | cons i l ih => exact (h w i).trans (ih _)

theorem noneFreed_sheddingPass (s : State) : NoneFreed s (sheddingPass s).after := by
  have h1 : ∀ w i, NoneFreed w.after (shedOne w i).after := fun w i => by
    unfold shedOne
    split
    · split
      · exact noneFreed_lower _ _ _
      · exact .refl _
    · exact .refl _
  have h2 : ∀ w i, NoneFreed w.after (shedTwo w i).after := fun w i => by
    unfold shedTwo
    split
    · exact noneFreed_shed _ _
    · exact .refl _
  exact (noneFreed_walk shedOne h1 s.sheddingOrder ⟨0, s⟩).trans (noneFreed_walk shedTwo h2 s.sheddingOrder ⟨0, _⟩)

theorem noneFreed_readmissionPass (s : State) : NoneFreed s (readmissionPass s).after :=
  noneFreed_walk readmitOne (fun w i => by
    unfold readmitOne
    split
    · exact (noneFreed_leaveHeld _ i).trans (noneFreed_raise _ i _)
    · exact .refl _) s.readmissionOrder ⟨0, s⟩

theorem noneFreed_loseLane (s : State) (n : Nat) (v : LaneState) : NoneFreed s (s.loseLane n v) :=
  .of_ctxs (loseLane_ctxs ..)

theorem noneFreed_regainLane (s : State) (n : Nat) : NoneFreed s (s.regainLane n) := .of_ctxs (regainLane_ctxs ..)

theorem noneFreed_laneFault (s : State) (n : Nat) : NoneFreed s (s.laneFault n) := by
  have hd : NoneFreed s ((s.captureFault .laneCheck n).dropHand n) := by
    refine (NoneFreed.of_ctxs (captureFault_ctxs s .laneCheck n)).trans ?_
    unfold dropHand
    split
    · exact noneFreed_discardWork _ _
    · exact .refl _
  unfold laneFault
  split
  · exact (hd.trans (noneFreed_loseLane _ n .outFault)).trans (noneFreed_sheddingPass _)
  · exact hd.trans (.of_ctxs rfl)
  · exact .refl s
  · exact .refl s

theorem noneFreed_contextFault (s : State) (n : Nat) : NoneFreed s (s.contextFault n) := by
  unfold contextFault
  split
  · split
    · exact ((NoneFreed.of_ctxs (captureFault_ctxs ..)).trans (noneFreed_enterHeld _ _ .fault)).trans
        (noneFreed_raise _ _ _)
    · exact .refl s
  · exact .refl s

theorem noneFreed_queueFault (s : State) (n : Nat) : NoneFreed s (s.queueFault n) := by
  unfold queueFault
  split
  · split
    · exact ((NoneFreed.of_ctxs (captureFault_ctxs ..)).trans (noneFreed_modCtx_fields _ _
        (fun c => { c with queue := [], expected := none, priming := true }) (fun _ => rfl) fun _ => rfl)).trans
        (noneFreed_raise _ _ _)
    · exact .refl s
  · exact .refl s

theorem noneFreed_complete (s : State) (n i : Nat) (w : Work) : NoneFreed s (s.complete n i w) := by
  have hsend : ∀ (t : State) payload k, NoneFreed t (t.sendCell? i w payload k) := fun t payload k => by
    cases k
    · exact .refl t
    · exact .of_ctxs rfl
  have hclip : ∀ (t : State) b, NoneFreed t (t.reportClip i w b) := fun t b => by
    cases b
    · exact .refl t
    · exact (NoneFreed.of_ctxs (countFor_ctxs ..)).trans (noneFreed_raiseIf _ _ _ _)
  have hlane : NoneFreed s (s.setLane n { s.lane n with inHand := none }) := .of_ctxs rfl
  exact ((((hlane.trans (hsend _ _ _)).trans (hsend _ _ _)).trans (noneFreed_modCtx_fields _ i
    (fun c => c.completed w s.freeCount) (fun _ => rfl) fun _ => rfl)).trans (hclip _ _)).trans (.of_ctxs rfl)

theorem noneFreed_finishWork (s : State) (n : Nat) : NoneFreed s (s.finishWork n) := by
  unfold finishWork
  split
  · split
    · exact noneFreed_complete _ _ _ _
    · exact .refl s
  · exact .refl s

theorem noneFreed_takeWork (s : State) (n i : Nat) : NoneFreed s (s.takeWork n i) := by
  unfold takeWork
  split
  · exact .of_ctxs rfl
  · exact .refl s

/-! ### Entry into FREE of several records (R25, R169) -/

theorem delivered_deliver (s : State) (i j : Nat) : (s.ctx j).Delivered ((s.deliver i).ctx j) := by
  unfold deliver
  by_cases hj : j = i
  · subst hj
    split
    · next h => exact Or.inr ⟨h, by simp [ctx_enterFree], by simp [ctx_enterFree]⟩
    · exact Or.inl ⟨by simp, by simp⟩
  · split
    · exact Or.inl (by rw [ctx_enterFree, if_neg hj]; exact ⟨rfl, rfl⟩)
    · exact Or.inl (by rw [ctx_modCtx, if_neg hj]; exact ⟨rfl, rfl⟩)

theorem gensFollow_foldl_deliver (l : List Nat) (s : State) : GensFollow s (l.foldl deliver s) := by
  have h : ∀ j, (s.ctx j).Delivered ((l.foldl deliver s).ctx j) := by
    induction l generalizing s with
    | nil => exact fun j => Or.inl ⟨rfl, rfl⟩
    | cons i l ih => exact fun j => (delivered_deliver s i j).trans (ih _ j)
  exact fun j => (h j).genFollows

theorem liveContexts_nodup (s : State) (h : s.canonical = true) : s.liveContexts.Nodup :=
  (Tab.keys_nodup _ _ ((canonical_iff s).1 h).1).filter _

/-- A soft reset changes records by taking them to FREE, and in no other way. -/
theorem softReset_ctxs (s : State) : s.softReset.ctxs = s.freeAll.ctxs := rfl

theorem gensFollow_softReset (s : State) (h : s.canonical = true) : GensFollow s s.softReset := fun i => by
  rw [ctx_congr (softReset_ctxs s)]
  unfold freeAll
  rw [(foldl_enterFree_spec _ s (liveContexts_nodup s h)).1]
  split
  · next hi => simp [Ctx.GenFollows, (mem_liveContexts s i).1 hi]
  · exact Ctx.NotFreed.genFollows ⟨rfl, id⟩

end State

/-! ### Orders -/

open State

/-- An order that passes checks 3 and 4 acts on a record in use (R164). -/
theorem gensFollow_named (i0 i1 g : Byte) (b : Bool) (s : State) (act : Nat → Taken)
    (h : ∀ i, (s.ctx i).state ≠ .free → GensFollow s (act i).after) : GensFollow s (named i0 i1 g b s act).after := by
  unfold named
  split
  · exact (NoneFreed.refl s).gensFollow
  · split
    · exact (NoneFreed.refl s).gensFollow
    · next hn => exact h _ fun hf => hn (Or.inr hf)

theorem gensFollow_ownerChecked (p : Port) (i0 i1 g : Byte) (b : Bool) (s : State) (act : Nat → Taken)
    (h : ∀ i, (s.ctx i).state ≠ .free → GensFollow s (act i).after) :
    GensFollow s (ownerChecked p i0 i1 g b s act).after := by
  refine gensFollow_named i0 i1 g b s _ fun i hi => ?_
  unfold owned
  split
  · exact h i hi
  · exact (NoneFreed.refl s).gensFollow

theorem noneFreed_armContext (i : Nat) (s : State) : NoneFreed s (armContext i s).after := by
  unfold armContext
  split
  · exact .refl s
  · split
    · exact .refl s
    · split
      · exact .of_ctxs (countFor_ctxs ..)
      · have hr : NoneFreed s (s.reserve (s.currentCost i)) := .of_ctxs rfl
        exact hr.trans (noneFreed_modCtx _ i _ ⟨rfl, fun _ => by simp [Ctx.toArmed]⟩)

theorem noneFreed_holdContext (i : Nat) (s : State) : NoneFreed s (holdContext i s).after := by
  unfold holdContext
  split
  · exact noneFreed_enterHeld s i .order
  · exact noneFreed_enterHeld s i .order
  · split
    · exact .refl s
    · exact noneFreed_modCtx_fields s i _ (fun _ => rfl) fun _ => rfl
  all_goals exact .refl s

theorem noneFreed_resumeContext (i : Nat) (s : State) : NoneFreed s (resumeContext i s).after := by
  unfold resumeContext
  split
  · exact .refl s
  · split
    · exact .of_ctxs (countFor_ctxs ..)
    · exact noneFreed_leaveHeld s i

theorem noneFreed_prioritize (i n : Nat) (s : State) : NoneFreed s (prioritize i n s).after := by
  unfold prioritize
  split
  · exact .refl s
  · exact noneFreed_modCtx_fields s i _ (fun _ => rfl) fun _ => rfl

theorem noneFreed_adoptContext (p : Port) (i : Nat) (s : State) : NoneFreed s (adoptContext p i s).after := by
  unfold adoptContext
  split
  · exact .refl s
  · split
    · exact (NoneFreed.of_ctxs (moveQueued_ctxs s p i)).trans (noneFreed_modCtx_fields _ i
        (fun c => { c with owner := p, orphaned := s.silent p }) (fun _ => rfl) fun _ => rfl)
    · exact .refl s

theorem noneFreed_bindSlotTo (i n : Nat) (l : Law) (s : State) : NoneFreed s (bindSlotTo i n l s).after := by
  have hm : ∀ t : State, NoneFreed t (t.modCtx i fun c => { c with slot := some ⟨n, l⟩ }) := fun t =>
    noneFreed_modCtx_fields t i _ (fun _ => rfl) fun _ => rfl
  unfold bindSlotTo
  split
  · exact .refl s
  · split
    · split
      · exact hm s
      · exact .refl s
    · have hr : NoneFreed s (((s.releaseSlot ((s.ctx i).slotLeft n)).setSlotEntry n (some i)).setBlock n
          ⟨none, none, none⟩) := .of_ctxs (releaseSlot_ctxs ..)
      exact hr.trans (hm _)

theorem noneFreed_unbindSlotOf (i : Nat) (s : State) : NoneFreed s (unbindSlotOf i s).after := by
  unfold unbindSlotOf
  split
  · exact .refl s
  · split
    · exact (NoneFreed.of_ctxs (releaseSlot_ctxs ..)).trans
        (noneFreed_modCtx_fields _ i (fun c => { c with slot := none }) (fun _ => rfl) fun _ => rfl)
    · exact .refl s

theorem noneFreed_placePrimary (i : Nat) (k : StreamKey) (s : State) : NoneFreed s (placePrimary i k s) := by
  have hr : NoneFreed s ((s.removeStream? (s.ctx i).primary).addStream k i .primary) := .of_ctxs (by simp)
  exact hr.trans (noneFreed_modCtx_fields _ i _ (fun _ => rfl) fun _ => rfl)

theorem noneFreed_bindStreamTo (i : Nat) (k : StreamKey) (s : State) : NoneFreed s (bindStreamTo i k s).after := by
  unfold bindStreamTo
  split
  · exact .refl s
  · split
    · split <;> exact .refl s
    · exact noneFreed_placePrimary i k s

theorem noneFreed_unbindStreamOf (i : Nat) (s : State) : NoneFreed s (unbindStreamOf i s).after := by
  unfold unbindStreamOf
  split
  · exact .refl s
  · split
    · exact (NoneFreed.of_ctxs (removeStream_ctxs ..)).trans
        (noneFreed_modCtx_fields _ i (fun c => { c with primary := none }) (fun _ => rfl) fun _ => rfl)
    · exact .refl s

theorem noneFreed_relinkContext (i l : Nat) (s : State) : NoneFreed s (relinkContext i l s).after := by
  unfold relinkContext relinkFrom
  split
  · exact .refl s
  · split
    · split
      · exact .refl s
      · split
        · exact .refl s
        · exact noneFreed_placePrimary i _ s
    · exact .refl s

theorem noneFreed_setProfileOf (i n : Nat) (set : RateSet) (s : State) : NoneFreed s (setProfileOf i n set s).after := by
  unfold setProfileOf
  split
  · exact .refl s
  · split
    · exact .refl s
    · next c _ =>
      have hr : NoneFreed s (moveRef (s.ctx i).profile n s) := .of_ctxs (by simp [moveRef])
      exact hr.trans (noneFreed_modCtx_fields _ i (fun x => { x with
        profile := some n, permitted := some set, rate := some (derivedRate c set), sinceRate := 0 })
        (fun _ => rfl) fun _ => rfl)

theorem noneFreed_setRatesetOf (i : Nat) (set : RateSet) (s : State) : NoneFreed s (setRatesetOf i set s).after := by
  unfold setRatesetOf replaceRateset moveRateset
  split
  · exact .refl s
  · split
    · exact .refl s
    · split
      · split
        · exact noneFreed_narrow _ _ _ _
        · split
          · exact (noneFreed_retune s i _).trans (noneFreed_narrow _ _ _ _)
          · split
            · exact .of_ctxs (countFor_ctxs ..)
            · exact (noneFreed_retunePaid s i _).trans (noneFreed_narrow _ _ _ _)
      · exact .refl s

theorem noneFreed_setRateOf (i r : Nat) (s : State) : NoneFreed s (setRateOf i r s).after := by
  unfold setRateOf setRatePending setRateAtOnce
  split
  · exact .refl s
  · split
    · exact .refl s
    · split
      · split
        · exact noneFreed_dropRequest s i
        · exact noneFreed_modCtx_fields s i _ (fun _ => rfl) fun _ => rfl
      · split
        · exact .refl s
        · exact noneFreed_retune s i r

theorem noneFreed_prepareHandover (i : Nat) (h : Handover) (s : State) : NoneFreed s (prepareHandover i h s).after := by
  unfold prepareHandover
  split
  · exact .refl s
  · split
    · exact .refl s
    · have ha : NoneFreed s (s.addStream h.key i .handover) := .of_ctxs rfl
      exact ha.trans (noneFreed_modCtx_fields _ i _ (fun _ => rfl) fun _ => rfl)

theorem noneFreed_commitHandover (i : Nat) (s : State) : NoneFreed s (commitHandover i s).after := by
  unfold commitHandover
  split
  · exact .refl s
  · exact noneFreed_commit s i _

theorem noneFreed_cancelHandover (i : Nat) (s : State) : NoneFreed s (cancelHandover i s).after := by
  unfold cancelHandover
  split
  · exact .refl s
  · exact noneFreed_abandon s i _

theorem noneFreed_setSupervisionOf (i d l : Nat) (a : Bool) (s : State) :
    NoneFreed s (setSupervisionOf i d l a s).after := by
  unfold setSupervisionOf
  split
  · exact .refl s
  · exact noneFreed_modCtx_fields s i _ (fun _ => rfl) fun _ => rfl

theorem noneFreed_setLevelOf (i : Nat) (v : Levels) (s : State) : NoneFreed s (setLevelOf i v s).after := by
  unfold setLevelOf
  split
  · exact .refl s
  · exact noneFreed_modCtx_fields s i _ (fun _ => rfl) fun _ => rfl

theorem noneFreed_setPlayoutOf (i n : Nat) (s : State) : NoneFreed s (setPlayoutOf i n s).after := by
  unfold setPlayoutOf
  split
  · exact .refl s
  · exact noneFreed_modCtx_fields s i _ (fun _ => rfl) fun _ => rfl

theorem noneFreed_openAt (p : Port) (n : Nat) (s : State) : NoneFreed s (openAt p n s).after := by
  unfold openAt
  split
  · exact noneFreed_modCtx s _ _ ⟨rfl, fun _ => by simp [Ctx.opening]⟩
  · exact .refl s

theorem noneFreed_laneOut (n : Nat) (s : State) : NoneFreed s (laneOut n s).after := by
  unfold laneOut laneReply
  split
  · exact (noneFreed_loseLane s n .outOrder).trans (noneFreed_sheddingPass _)
  · exact .refl s
  · exact .of_ctxs rfl

theorem noneFreed_laneIn (n : Nat) (s : State) : NoneFreed s (laneIn n s).after := by
  unfold laneIn laneReply
  split
  · exact .refl s
  all_goals exact (noneFreed_regainLane s n).trans (noneFreed_readmissionPass _)

theorem gensFollow_retireContext (i : Nat) (s : State) (h : (s.ctx i).state ≠ .free) :
    GensFollow s (retireContext i s).after :=
  (StagesKept.of_ctxs (countFor_ctxs s .retire i)).gensFollow (gensFollow_enterFree _ i h)

/-- The orders that write no context record. -/
def leavesRecords : OrderCode → Bool
  | .keepalive | .superviseSet | .batch | .query | .profileLoad | .profileClear | .profileRead | .levelDefaults
  | .faultRead | .sweep | .sweepAbort | .sweepContinue | .sweepStatus | .tallySet | .tallyRead | .inspect => true
  | _ => false

theorem loadProfile_ctxs (n : Nat) (c : Profile) (s : State) : (loadProfile n c s).after.ctxs = s.ctxs := by
  unfold loadProfile; split <;> rfl

theorem clearProfile_ctxs (n : Nat) (s : State) : (clearProfile n s).after.ctxs = s.ctxs := by
  unfold clearProfile; split
  · rfl
  · rfl
  · split <;> rfl

theorem startSweep_ctxs (p : Port) (v : Sweep) (s : State) : (startSweep p v s).after.ctxs = s.ctxs := by
  unfold startSweep; split <;> rfl

theorem named_ctxs (i0 i1 g : Byte) (b : Bool) (s : State) (act : Nat → Taken) (h : ∀ i, (act i).after.ctxs = s.ctxs) :
    (named i0 i1 g b s act).after.ctxs = s.ctxs := by
  unfold named
  split
  · rfl
  · split
    · rfl
    · exact h _

theorem takeOrder_ctxs (p : Port) (c : OrderCode) (body : List Byte) (s : State) (hc : leavesRecords c = true) :
    (takeOrder p c body s).after.ctxs = s.ctxs := by
  cases c <;> first | (cases hc; done) | simp only [takeOrder]
  case keepalive => unfold keepaliveOrder; split <;> rfl
  case superviseSet =>
    unfold superviseSetOrder; split
    · split <;> rfl
    · rfl
  case batch => rfl
  case query =>
    unfold queryOrder; split
    · exact named_ctxs _ _ _ _ _ _ fun _ => rfl
    · rfl
  case profileLoad =>
    unfold profileLoadOrder; split
    · split
      · rfl
      · split
        · rfl
        · split
          · exact loadProfile_ctxs _ _ s
          · rfl
    · rfl
  case profileClear =>
    unfold profileClearOrder; split
    · split
      · rfl
      · exact clearProfile_ctxs _ s
    · rfl
  case profileRead =>
    unfold profileReadOrder; split
    · split <;> rfl
    · rfl
  case levelDefaults =>
    unfold levelDefaultsOrder; split
    · split <;> rfl
    · rfl
  case faultRead => unfold faultReadOrder; split <;> rfl
  case sweep =>
    unfold sweepOrder; split
    · split
      · exact startSweep_ctxs p _ s
      · rfl
    · rfl
  case sweepAbort =>
    unfold sweepAbortOrder; split
    · split <;> rfl
    · rfl
  case sweepContinue =>
    unfold sweepContinueOrder; split
    · split <;> rfl
    · rfl
  case sweepStatus =>
    unfold sweepStatusOrder; split
    · split <;> rfl
    · rfl
  case tallySet =>
    unfold tallySetOrder setTally; split
    · split
      · split <;> rfl
      · rfl
    · rfl
  case tallyRead => unfold tallyReadOrder; split <;> rfl
  case inspect =>
    unfold inspectOrder; split
    · split <;> rfl
    · rfl

/-- An order whose body is three bytes, handled behind checks 3 to 5. -/
theorem gensFollow_checked (p : Port) (s : State) (act : Nat → Taken) (hact : ∀ i, NoneFreed s (act i).after)
    (i0 i1 g : Byte) (b : Bool) : GensFollow s (ownerChecked p i0 i1 g b s act).after :=
  gensFollow_ownerChecked p i0 i1 g b s act fun i _ => (hact i).gensFollow

/-- Every order follows the rule of R4 (OPEN keeps the generation; RETIRE, NOTICES and RESET SOFT free records). -/
theorem gensFollow_takeOrder (p : Port) (c : OrderCode) (body : List Byte) (s : State) (hc : s.canonical = true) :
    GensFollow s (takeOrder p c body s).after := by
  have hs : GensFollow s s := (NoneFreed.refl s).gensFollow
  by_cases hl : leavesRecords c = true
  · exact (NoneFreed.of_ctxs (takeOrder_ctxs p c body s hl)).gensFollow
  cases c <;> first | exact absurd rfl hl | simp only [takeOrder]
  case notices =>
    unfold noticesOrder; split
    · exact (StagesKept.of_ctxs (t := s.takeNotices p) rfl).gensFollow (gensFollow_foldl_deliver _ _)
    · exact hs
  case reset =>
    unfold resetOrder; split
    · split
      · exact gensFollow_softReset s hc
      · split
        · exact (NoneFreed.of_ctxs rfl).gensFollow
        · exact hs
    · exact hs
  case adopt =>
    unfold adoptOrder; split
    · exact gensFollow_named _ _ _ _ s _ fun i _ => (noneFreed_adoptContext p i s).gensFollow
    · exact hs
  case openContext =>
    unfold openOrder; split
    · split
      · exact (noneFreed_openAt p _ s).gensFollow
      · exact hs
    · exact hs
  case retire =>
    unfold retireOrder; split
    · exact gensFollow_ownerChecked p _ _ _ _ s _ fun i hi => gensFollow_retireContext i s hi
    · exact hs
  case arm =>
    unfold armOrder; split
    · exact gensFollow_checked p s _ (noneFreed_armContext · s) _ _ _ _
    · exact hs
  case hold =>
    unfold holdOrder; split
    · exact gensFollow_checked p s _ (noneFreed_holdContext · s) _ _ _ _
    · exact hs
  case resume =>
    unfold resumeOrder; split
    · exact gensFollow_checked p s _ (noneFreed_resumeContext · s) _ _ _ _
    · exact hs
  case setPriority =>
    unfold setPriorityOrder; split
    · exact gensFollow_checked p s _ (noneFreed_prioritize · _ s) _ _ _ _
    · exact hs
  case bindSlot =>
    unfold bindSlotOrder; split
    · exact gensFollow_checked p s _ (noneFreed_bindSlotTo · _ _ s) _ _ _ _
    · exact hs
  case bindStream =>
    unfold bindStreamOrder; split
    · exact gensFollow_checked p s _ (noneFreed_bindStreamTo · _ s) _ _ _ _
    · exact hs
  case unbindSlot =>
    unfold unbindSlotOrder; split
    · exact gensFollow_checked p s _ (noneFreed_unbindSlotOf · s) _ _ _ _
    · exact hs
  case unbindStream =>
    unfold unbindStreamOrder; split
    · exact gensFollow_checked p s _ (noneFreed_unbindStreamOf · s) _ _ _ _
    · exact hs
  case relink =>
    unfold relinkOrder; split
    · exact gensFollow_checked p s _ (noneFreed_relinkContext · _ s) _ _ _ _
    · exact hs
  case setProfile =>
    unfold setProfileOrder; split
    · exact gensFollow_checked p s _ (noneFreed_setProfileOf · _ _ s) _ _ _ _
    · exact hs
  case setRateset =>
    unfold setRatesetOrder; split
    · exact gensFollow_checked p s _ (noneFreed_setRatesetOf · _ s) _ _ _ _
    · exact hs
  case setRate =>
    unfold setRateOrder; split
    · exact gensFollow_checked p s _ (noneFreed_setRateOf · _ s) _ _ _ _
    · exact hs
  case handoverPrepare =>
    unfold handoverPrepareOrder; split
    · exact gensFollow_checked p s _ (noneFreed_prepareHandover · _ s) _ _ _ _
    · exact hs
  case handoverCommit =>
    unfold handoverCommitOrder; split
    · exact gensFollow_checked p s _ (noneFreed_commitHandover · s) _ _ _ _
    · exact hs
  case handoverCancel =>
    unfold handoverCancelOrder; split
    · exact gensFollow_checked p s _ (noneFreed_cancelHandover · s) _ _ _ _
    · exact hs
  case setSupervision =>
    unfold setSupervisionOrder; split
    · exact gensFollow_checked p s _ (noneFreed_setSupervisionOf · _ _ _ s) _ _ _ _
    · exact hs
  case setLevel =>
    unfold setLevelOrder; split
    · exact gensFollow_checked p s _ (noneFreed_setLevelOf · _ s) _ _ _ _
    · exact hs
  case setPlayout =>
    unfold setPlayoutOrder; split
    · exact gensFollow_checked p s _ (noneFreed_setPlayoutOf · _ s) _ _ _ _
    · exact hs
  case laneService =>
    unfold laneServiceOrder; split
    · split
      · exact hs
      · split
        · exact (noneFreed_laneOut _ s).gensFollow
        · split
          · exact (noneFreed_laneIn _ s).gensFollow
          · exact hs
    · exact hs

/-! ### Frames and batches (R162 to R166) -/

theorem stagesKept_renew (s : State) (p : Port) (code : Byte) : StagesKept s (s.renew p code) := by
  unfold renew renewal
  split
  · split
    · exact stagesKept_setOrphans _ p false
    · exact .of_ctxs rfl
  · exact .of_ctxs rfl

theorem canonical_renew (s : State) (p : Port) (code : Byte) (h : s.canonical = true) :
    (s.renew p code).canonical = true := by
  unfold renew renewal
  split
  · split
    · exact canonical_setOrphans (s.setSup p { (s.port p).sup with state := .live, count := 0 }) p false h
    · exact h
  · exact h

theorem gensFollow_takeCode (p : Port) (code : Byte) (body : List Byte) (s : State) (h : s.canonical = true) :
    GensFollow s (takeCode p code body s).after := by
  unfold takeCode
  split
  · exact gensFollow_takeOrder p _ body s h
  · exact (NoneFreed.refl s).gensFollow

theorem gensFollow_takeFrame (p : Port) (code tag : Byte) (body : List Byte) (s : State) (h : s.canonical = true) :
    GensFollow s (takeFrame p code tag body s) := by
  unfold takeFrame takeBatch
  split
  · split <;> exact (NoneFreed.of_ctxs rfl).gensFollow
  · exact (gensFollow_takeCode p code body s h).of_ctxs rfl

theorem gensFollow_takeGood (p : Port) (code tag : Byte) (body : List Byte) (s : State) (h : s.canonical = true) :
    GensFollow s (takeGood p code (takeFrame p code tag body) s) := by
  unfold takeGood
  split
  · exact (NoneFreed.refl s).gensFollow
  · exact (stagesKept_renew s p code).gensFollow (gensFollow_takeFrame p code tag body _ (canonical_renew s p code h))

theorem noneFreed_takeBad (p : Port) (code tag : Byte) (s : State) : NoneFreed s (takeBad p code tag s) := by
  unfold takeBad
  split
  · exact .refl s
  · exact .of_ctxs rfl

theorem gensFollow_onFrame (p : Port) (f : Frame) (take : State → State) (s : State)
    (h : GensFollow (s.setRx p .hunt) (take (s.setRx p .hunt))) : GensFollow s (onFrame p f take s) := by
  unfold onFrame holdFrame
  split
  · exact (NoneFreed.refl s).gensFollow
  · split
    · split <;> exact (NoneFreed.of_ctxs rfl).gensFollow
    · exact (StagesKept.of_ctxs (t := s.setRx p .hunt) rfl).gensFollow h

theorem gensFollow_goodFrame (p : Port) (code tag : Byte) (body : List Byte) (s : State) (h : s.canonical = true) :
    GensFollow s (goodFrame p code tag body s) :=
  gensFollow_onFrame p _ _ s (gensFollow_takeGood p code tag body (s.setRx p .hunt) h)

theorem gensFollow_spoiltFrame (p : Port) (code tag : Byte) (s : State) : GensFollow s (spoiltFrame p code tag s) :=
  gensFollow_onFrame p _ _ s (noneFreed_takeBad p code tag _).gensFollow

theorem gensFollow_subOrder (p : Port) (s : State) (h : s.canonical = true) : GensFollow s (s.subOrder p) := by
  unfold subOrder afterSubOrder
  split
  · split
    · next x _ _ =>
      have hx := gensFollow_takeCode p x.1 x.2 s h
      split
      · exact hx.of_ctxs rfl
      · split <;> exact hx.of_ctxs rfl
    · exact (NoneFreed.refl s).gensFollow
  · exact (NoneFreed.refl s).gensFollow

theorem gensFollow_takeHeldFrame (p : Port) (s : State) (h : s.canonical = true) : GensFollow s (s.takeHeldFrame p) := by
  unfold takeHeldFrame takeHeld
  split
  · exact (NoneFreed.refl s).gensFollow
  · split
    · next f t _ =>
      have hp : StagesKept s (s.setPort p { s.port p with heldFrames := t }) := .of_ctxs rfl
      split
      · exact hp.gensFollow (gensFollow_takeGood p f.code f.tag f.body _ h)
      · exact hp.gensFollow (noneFreed_takeBad p f.code f.tag _).gensFollow
    · exact (NoneFreed.refl s).gensFollow

theorem gensFollow_incoming (p : Port) (b : Byte) (s : State) (h : s.canonical = true) :
    GensFollow s (s.incoming p b) := by
  have hs : GensFollow s s := (NoneFreed.refl s).gensFollow
  have hrx : ∀ r, GensFollow s (s.setRx p r) := fun r => (NoneFreed.of_ctxs rfl).gensFollow
  unfold incoming byteIn completeFrame
  split
  · exact hs
  · split
    · split
      · exact hrx _
      · exact hs
    · exact hrx _
    · exact hrx _
    · exact hrx _
    · exact hrx _
    · split
      · exact gensFollow_goodFrame p _ _ _ s h
      · exact gensFollow_spoiltFrame p _ _ s

/-! ### Sweep visits (R152, R154) -/

theorem gensFollow_applyAction (p : Port) (a : SweepAction) (i : Nat) (s : State) (h : (s.ctx i).state ≠ .free) :
    GensFollow s (applyAction p a i s).after := by
  cases a with
  | retire => exact gensFollow_retireContext i s h
  | hold => exact (noneFreed_holdContext i s).gensFollow
  | resume => exact (noneFreed_resumeContext i s).gensFollow
  | relink l => exact (noneFreed_relinkContext i l s).gensFollow
  | rerateLow => exact (noneFreed_setRateOf i _ s).gensFollow
  | setPriority n => exact (noneFreed_prioritize i n s).gensFollow
  | adopt => exact (noneFreed_adoptContext p i s).gensFollow

theorem endVisit_ctxs (s : State) (p : Port) (v : Sweep) : (s.endVisit p v).ctxs = s.ctxs := by
  unfold endVisit; split <;> rfl

/-- A visit applies its action at a match alone, and a FREE record matches none (R151). -/
theorem gensFollow_visit (p : Port) (s : State) : GensFollow s (s.visit p) := by
  unfold visit visitWith visitMatch
  split
  · next a sel _ _ _ =>
    split
    · next hm =>
      refine (gensFollow_applyAction p a _ s fun hf => ?_).of_ctxs (endVisit_ctxs ..)
      simp [matchesSweep, hf] at hm
    · exact (NoneFreed.of_ctxs (endVisit_ctxs ..)).gensFollow
  · exact (NoneFreed.refl s).gensFollow

/-! ### Every command -/

/-- An order's row is the claim of its good frame, where the reset pin is released (R163). -/
theorem exec_order (i : Instr) (f : OrderFrame) (h : i.order = some f) (s : State) :
    exec i s = runs s (goodFrame f.port f.code.byte f.tag f.body s) := by
  have hf : ∀ p c tag body, c ≠ .batch → runs s (orderFrame p c tag body (takeOrder p c body) s) =
      runs s (goodFrame p c.byte tag body s) := fun p c tag body hc => by rw [orderFrame_eq_goodFrame p c hc]
  cases i <;> cases h
  case batch => rfl
  all_goals exact hf _ _ _ _ (by decide)

/-- The power-on state, but for what no reset of the part touches: the pin's level, the draw counter, the queue. -/
def State.IsPowerOn (t : State) : Prop :=
  t = { State.reset with pinHeld := t.pinHeld, freeCount := t.freeCount, pending := t.pending }

theorem isPowerOn_hardReset (s : State) : s.hardReset.IsPowerOn := rfl

/-- What a command does to the generations: R4's rule, or the power-on state. -/
def State.GensMove (s t : State) : Prop := GensFollow s t ∨ t.IsPowerOn

/-- A command whose effect runs keeps what its effect keeps. -/
theorem gensMove_runs {s t u : State} (h : GensMove s u) (ht : runs s u = .next t) : GensMove s t := by
  unfold runs at ht
  split at ht <;> cases ht
  · exact Or.inl (NoneFreed.refl s).gensFollow
  · exact h

theorem gensMove_responseSent (p : Port) (s : State) : GensMove s (s.responseSent p) := by
  unfold responseSent
  split
  · exact Or.inl (NoneFreed.refl s).gensFollow
  · split
    · exact Or.inr (isPowerOn_hardReset s)
    · exact Or.inl (NoneFreed.of_ctxs rfl).gensFollow

theorem State.GensFollow.ite {s t : State} (c : Prop) [Decidable c] (h : GensFollow s t) :
    GensFollow s (if c then t else s) := by
  split
  · exact h
  · exact (NoneFreed.refl s).gensFollow

/-- What a command that is no order does to the generations. -/
theorem gensMove_event (i : Instr) (ho : i.order = none) (s t : State) (h : s.canonical = true)
    (ht : exec i s = .next t) : GensMove s t := by
  cases i <;> first | (cases ho; done) | skip
  case batchSubOrder p => exact gensMove_runs (Or.inl (gensFollow_subOrder p s h)) ht
  case heldFrameTaken p => exact gensMove_runs (Or.inl (gensFollow_takeHeldFrame p s h)) ht
  case hardResetPerformed p =>
    refine gensMove_runs ?_ ht
    split
    · exact gensMove_responseSent p s
    · exact Or.inl (NoneFreed.refl s).gensFollow
  case unknownOrder p code tag body => exact gensMove_runs (Or.inl (gensFollow_goodFrame p code tag body s h)) ht
  case badFrame p code tag => exact gensMove_runs (Or.inl (gensFollow_spoiltFrame p code tag s)) ht
  case frameTooLong p n =>
    refine gensMove_runs (Or.inl ?_) ht
    split
    · exact (NoneFreed.refl s).gensFollow
    · exact (NoneFreed.of_ctxs rfl).gensFollow
  case frameDiscardedFullLine p code tag body =>
    exact gensMove_runs (Or.inl (.ite _ (gensFollow_goodFrame p code tag body s h))) ht
  case frameDiscardedBatchHold p good code tag body =>
    refine gensMove_runs (Or.inl (.ite _ ?_)) ht
    split
    · exact gensFollow_goodFrame p code tag body s h
    · exact gensFollow_spoiltFrame p code tag s
  case responseSent p => exact gensMove_runs (gensMove_responseSent p s) ht
  case resetPin => cases ht; exact Or.inr rfl
  case powerOn => cases ht; exact Or.inr (isPowerOn_hardReset s)
  case resetPinReleased => cases ht; exact Or.inl (NoneFreed.of_ctxs rfl).gensFollow
  case frameMark rx => exact gensMove_runs (Or.inl (noneFreed_frameMark s rx).gensFollow) ht
  case framingLost => exact gensMove_runs (Or.inl (noneFreed_framingLost s).gensFollow) ht
  case boundaryClaim j => exact gensMove_runs (Or.inl (noneFreed_boundaryClaim s j).gensFollow) ht
  case portBoundary p => exact gensMove_runs (Or.inl (noneFreed_portBoundary s p).gensFollow) ht
  case portSilent p => exact gensMove_runs (Or.inl (.ite _ (noneFreed_portBoundary s p).gensFollow)) ht
  case firstCellExpiry j => exact gensMove_runs (Or.inl (.ite _ (noneFreed_boundaryClaim s j).gensFollow)) ht
  case silenceLimit j => exact gensMove_runs (Or.inl (.ite _ (noneFreed_boundaryClaim s j).gensFollow)) ht
  case silenceRetire j => exact gensMove_runs (Or.inl (.ite _ (noneFreed_boundaryClaim s j).gensFollow)) ht
  case handoverExpiry j => exact gensMove_runs (Or.inl (.ite _ (noneFreed_boundaryClaim s j).gensFollow)) ht
  case cellArrival l bytes => exact gensMove_runs (Or.inl (noneFreed_intake s l bytes).gensFollow) ht
  case laneTakesWork n j => exact gensMove_runs (Or.inl (noneFreed_takeWork s n j).gensFollow) ht
  case workCompletion n => exact gensMove_runs (Or.inl (noneFreed_finishWork s n).gensFollow) ht
  case laneCheck n => exact gensMove_runs (Or.inl (noneFreed_laneFault s n).gensFollow) ht
  case contextCheck n => exact gensMove_runs (Or.inl (noneFreed_contextFault s n).gensFollow) ht
  case queueCheck n => exact gensMove_runs (Or.inl (noneFreed_queueFault s n).gensFollow) ht
  case sweepVisit p => exact gensMove_runs (Or.inl (gensFollow_visit p s)) ht
  case incomingByte p b => exact gensMove_runs (Or.inl (gensFollow_incoming p b s h)) ht
  case outboundCellSent l =>
    refine gensMove_runs (Or.inl (NoneFreed.of_ctxs ?_).gensFollow) ht
    unfold cellSent
    split <;> rfl

theorem gensMove_exec (i : Instr) (s t : State) (h : s.canonical = true) (ht : exec i s = .next t) : GensMove s t := by
  cases ho : i.order with
  | some f =>
    rw [exec_order i f ho s] at ht
    exact gensMove_runs (Or.inl (gensFollow_goodFrame f.port f.code.byte f.tag f.body s h)) ht
  | none => exact gensMove_event i ho s t h ht

/-- A step is the front command on the queue's rest. -/
theorem step_cons (c : Instr) (rest : List Instr) (s : State) :
    step { s with pending := c :: rest } = exec c { s with pending := rest } := rfl

/-- With an empty queue a step does nothing. -/
theorem step_nil (s : State) (h : s.pending = []) : step s = .next s := by unfold step; rw [h]

theorem gensMove_step (s t : State) (h : s.canonical = true) (ht : step s = .next t) : GensMove s t := by
  unfold step at ht
  split at ht
  · cases ht; exact Or.inl (NoneFreed.refl s).gensFollow
  · next c rest _ => exact gensMove_exec c { s with pending := rest } t h ht

/-- Settles O1, by whether the queue is empty. -/
theorem stepTakesFrontCommand : Obligations.StepTakesFrontCommand := ⟨step_cons, step_nil⟩

/-- Settles O60, from what a command can do to the generations (`gensMove_step`). -/
theorem generationRule : Obligations.GenerationRule := by
  refine ⟨fun i => rfl, fun s t i hc ht => ?_⟩
  rcases gensMove_step s t hc ht with h | h
  · exact Or.inl (h i)
  · refine Or.inr ⟨h, ?_⟩
    unfold IsPowerOn at h
    rw [h]
    rfl

end Sys2Proof.Machine
end

section
/-! SUPPORT. The orders of chapter 1 and the settings of a context, each from the state in which it is taken (R8 to R19,
R94, R102), and the orders that only read. -/

namespace Sys2Proof.Machine

open State

/-! ### An order's row, once its own effect is known -/

/-- A row whose order the port takes: what the order yields, answered in the port's line (R163). -/
theorem exec_eq_respond {i : Instr} {p : Port} {tag : Byte} {c : OrderCode} {body : List Byte} {s u : State} {r : Taken}
    (ho : i.order = some ⟨p, tag, c, body⟩) (hb : c ≠ .batch) (hs : s.takes p = true) (hu : u = s.atOrder p c.byte)
    (hr : takeOrder p c body u = r) : exec i s = .next (respond p c.byte tag r) := by
  rw [exec_order i _ ho s, ← orderFrame_eq_goodFrame p c hb, runs_orderFrame s p c tag body _ hs, ← hu, hr]

theorem queueOf_respond (p q : Port) (code tag : Byte) (t : Taken) :
    (respond p code tag t).queueOf q = t.after.queueOf q := rfl

/-- A refused order is answered and changes nothing (R164). -/
theorem refused_respond (u : State) (p : Port) (code tag : Byte) (r : Result) :
    Answered u (respond p code tag (refuse r u)) p code tag r .nothing ∧
      respond p code tag (refuse r u) = { u with ports := (respond p code tag (refuse r u)).ports } :=
  ⟨answered_respond u p code tag _ rfl, rfl⟩

/-- An order that reads is answered and changes nothing. -/
theorem read_respond (u : State) (p : Port) (code tag : Byte) (b : RespBody) :
    respond p code tag ⟨.ok, b, u⟩ = { u with ports := (respond p code tag ⟨.ok, b, u⟩).ports } ∧
      Answered u (respond p code tag ⟨.ok, b, u⟩) p code tag .ok b :=
  ⟨rfl, answered_respond u p code tag _ rfl⟩

/-- An order that changes one record is answered and changes nothing else. -/
theorem modCtx_respond (u : State) (p : Port) (code tag : Byte) (b : RespBody) (i : Nat) (f : Ctx → Ctx) :
    (respond p code tag ⟨.ok, b, u.modCtx i f⟩).ctx i = f (u.ctx i) ∧
      OnlyCtx u (respond p code tag ⟨.ok, b, u.modCtx i f⟩) i ∧
      Answered u (respond p code tag ⟨.ok, b, u.modCtx i f⟩) p code tag .ok b ∧
      respond p code tag ⟨.ok, b, u.modCtx i f⟩ = { u with
        ctxs := (respond p code tag ⟨.ok, b, u.modCtx i f⟩).ctxs
        ports := (respond p code tag ⟨.ok, b, u.modCtx i f⟩).ports } :=
  ⟨by simp, fun j hj => by simp [hj], answered_respond u p code tag _ rfl, rfl⟩

/-- Checks 3 and 4 passed: the order's own effect (R164). -/
theorem named_eq (i0 i1 g : Byte) (u : State) (act : Nat → Taken) (h : Named u i0 i1 g) :
    named i0 i1 g true u act = act (le16 i0 i1) := by
  obtain ⟨hi, hg, hf⟩ := h
  simp [named, hg, hf, Nat.not_lt.2 hi]

/-- Check 4 passed: the context's generation is the handle's (R164). -/
theorem Owned.gen_eq {u : State} {p : Port} {i0 i1 g : Byte} (h : Owned u p i0 i1 g) : (u.ctx (le16 i0 i1)).gen = g := by
  obtain ⟨⟨-, hg, -⟩, -⟩ := h
  exact hg

/-! ### The orders whose body is a handle, behind checks 3 to 5 -/

theorem takeOrder_retire {p : Port} {i0 i1 g : Byte} {u : State} (h : Owned u p i0 i1 g) :
    takeOrder p .retire [i0, i1, g] u = retireContext (le16 i0 i1) u :=
  ownerChecked_eq p i0 i1 g u (fun i => retireContext i u) h

theorem takeOrder_arm {p : Port} {i0 i1 g : Byte} {u : State} (h : Owned u p i0 i1 g) :
    takeOrder p .arm [i0, i1, g] u = armContext (le16 i0 i1) u :=
  ownerChecked_eq p i0 i1 g u (fun i => armContext i u) h

theorem takeOrder_hold {p : Port} {i0 i1 g : Byte} {u : State} (h : Owned u p i0 i1 g) :
    takeOrder p .hold [i0, i1, g] u = holdContext (le16 i0 i1) u :=
  ownerChecked_eq p i0 i1 g u (fun i => holdContext i u) h

theorem takeOrder_resume {p : Port} {i0 i1 g : Byte} {u : State} (h : Owned u p i0 i1 g) :
    takeOrder p .resume [i0, i1, g] u = resumeContext (le16 i0 i1) u :=
  ownerChecked_eq p i0 i1 g u (fun i => resumeContext i u) h

/-! ### The orders that read -/

/-- Settles O15: each of these orders answers with what it reads (`read_respond`). -/
theorem readingOrders : Obligations.ReadingOrders := by
  intro p tag s hs
  refine ⟨fun i0 i1 g u hu hn => ?_, fun n u hu hn => ?_, fun q n u hu hn => ?_, fun u hu => ?_, fun u hu => ?_,
    fun u hu => ?_⟩
  · exact ⟨_, exec_eq_respond rfl (by decide) hs hu (named_eq i0 i1 g u (fun i => ⟨.ok, .query (u.report i), u⟩) hn),
      read_respond u p _ tag _⟩
  · have ht : takeOrder p .profileRead [n] u = ⟨.ok, .profile (u.profile n.toNat), u⟩ :=
      if_neg (Nat.not_lt.2 hn)
    exact ⟨_, exec_eq_respond rfl (by decide) hs hu ht, read_respond u p _ tag _⟩
  · have ht : takeOrder p .sweepStatus [n] u = ⟨.ok, .sweep (u.sweepOf q), u⟩ := by
      rcases hn with ⟨rfl, rfl⟩ | ⟨rfl, rfl⟩ <;> rfl
    exact ⟨_, exec_eq_respond rfl (by decide) hs hu ht, read_respond u p _ tag _⟩
  · exact ⟨_, exec_eq_respond rfl (by decide) hs hu rfl, read_respond u p _ tag _⟩
  · exact ⟨_, exec_eq_respond rfl (by decide) hs hu rfl, read_respond u p _ tag _⟩
  · exact ⟨_, exec_eq_respond rfl (by decide) hs hu rfl, rfl,
      answered_respond u p _ tag _ rfl⟩

/-! ### OPEN (R8) -/

theorem openPriority_eq (b : Byte) (priority : Nat) (h : b.toNat ≤ 3 ∧ priority = b.toNat ∨ b = 0xFF ∧ priority = 2) :
    openPriority b = some priority := by
  rcases h with ⟨hb, rfl⟩ | ⟨rfl, rfl⟩
  · simp [openPriority, hb]
  · rfl

/-- The lowest FREE record is the one before which none is FREE. -/
theorem lowestFree_eq (u : State) (i : Nat) (hi : i < 2048) (hf : (u.ctx i).state = .free)
    (hl : ∀ j, j < i → (u.ctx j).state ≠ .free) : u.lowestFree = i :=
  Tab.lowestFrom_eq _ _ _ _ (Nat.zero_le _) (by simpa [Config.contexts] using hi) (by simp [hf])
    fun j _ hj => by simp [hl j hj]

theorem lowestFree_none (u : State) (h : ∀ i, i < 2048 → (u.ctx i).state ≠ .free) : u.lowestFree = 2048 :=
  Tab.lowestFrom_none _ _ _ fun j _ hj => by simp [h j (by simpa [Config.contexts] using hj)]

/-- Settles O13, by whether a FREE record exists (`lowestFree_eq`, `lowestFree_none`). -/
theorem openTakesLowestFree : Obligations.OpenTakesLowestFree := by
  intro p tag b priority s u hs hu hb
  have hopen : takeOrder p .openContext [b] u = openAt p priority u := by
    simp only [takeOrder, openOrder, openPriority_eq b priority hb]
  have hexec := exec_eq_respond (i := .openContext p tag [b]) rfl (by decide) hs hu hopen
  refine ⟨fun i hi hf hl => ⟨_, hexec, ?_⟩, fun hnone => ⟨_, hexec, ?_⟩⟩
  · have ht : openAt p priority u = ⟨.ok, .handle (u.handleOf i), u.modCtx i fun c => c.opening p (u.silent p) priority⟩ := by
      unfold openAt
      rw [lowestFree_eq u i hi hf hl, if_pos (by simpa [Config.contexts] using hi)]
    rw [ht]
    exact modCtx_respond u p _ tag _ i _
  · have ht : openAt p priority u = refuse .noContext u := by
      unfold openAt
      rw [lowestFree_none u hnone, if_neg (by simp [Config.contexts])]
    rw [ht]
    exact refused_respond u p _ tag _

/-! ### RETIRE (R18, R19) -/

/-- What RETIRE leaves besides the records, the account, the maps, the profiles, the lanes and the queues: two tallies
that counted one RETIRE event. -/
theorem retireContext_frame (u : State) (i : Nat) : (retireContext i u).after = { u with
    ctxs := (retireContext i u).after.ctxs, reserved := (retireContext i u).after.reserved,
    attention := (retireContext i u).after.attention, slotMap := (retireContext i u).after.slotMap,
    blocks := (retireContext i u).after.blocks, streamMap := (retireContext i u).after.streamMap,
    profiles := (retireContext i u).after.profiles, lanes := (retireContext i u).after.lanes,
    tally0 := u.tally0.step .retire (some (u.handleOf i)), tally1 := u.tally1.step .retire (some (u.handleOf i)) } := by
  unfold retireContext
  apply eq_of_fields <;> simp [countFor, count, setTallies]

/-- Settles O14, from what entry into FREE does (`ctx_enterFree`, `holdingsReleased_enterFree`). -/
theorem retireReleasesEverything : Obligations.RetireReleasesEverything := by
  intro p tag i0 i1 g s u i hs hu ho hi
  subst hi
  generalize hi : le16 i0 i1 = i
  have hgen : (u.ctx i).gen = g := hi ▸ ho.gen_eq
  have howner : (u.ctx i).owner = p := hi ▸ ho.2
  have ht : takeOrder p .retire [i0, i1, g] u = retireContext i u := hi ▸ takeOrder_retire ho
  have hctx : ∀ j, (u.countFor .retire i).ctx j = u.ctx j := fun j => ctx_congr (countFor_ctxs ..) j
  have hframe := retireContext_frame u i
  have hports : (retireContext i u).after.ports = u.ports := by rw [hframe]
  have hhandle : u.handleOf i = ⟨i, g⟩ := by rw [← hgen]; rfl
  have htally0 : (retireContext i u).after.tally0 = u.tally0.step .retire (some ⟨i, g⟩) := by rw [hframe, hhandle]
  have htally1 : (retireContext i u).after.tally1 = u.tally1.step .retire (some ⟨i, g⟩) := by rw [hframe, hhandle]
  refine ⟨_, exec_eq_respond rfl (by decide) hs hu ht, ?_, fun j hj => ?_, answered_respond u p _ tag _ hports, ?_,
    fun q => ?_, htally0, htally1, ?_⟩
  · rw [ctx_respond, ← hgen]
    exact (ctx_enterFree _ i i).trans ((if_pos rfl).trans (by rw [hctx]; rfl))
  · rw [ctx_respond]
    exact (ctx_enterFree _ i j).trans ((if_neg hj).trans (hctx j))
  · exact holdingsReleased_congr (holdingsReleased_enterFree (u.countFor .retire i) i) rfl id rfl rfl rfl rfl rfl rfl rfl
      rfl rfl rfl rfl rfl rfl
  · have hq : (retireContext i u).after.queueOf q =
        if q = ((u.countFor .retire i).ctx i).owner then (u.queueOf q).filter (· ≠ i) else u.queueOf q :=
      queueOf_enterFree (u.countFor .retire i) i q
    rw [queueOf_respond, hq, hctx, howner]
    by_cases hqp : q = p <;> simp [hqp]
  · rw [respond_frame, hframe]

/-! ### ARM and RESUME (R10, R14, R15, R58) -/

/-- The cost of the current rate, where profile, rate and entry are known. -/
theorem currentCost_eq (u : State) (i n r : Nat) (c : Profile) (e : RateEntry) (hp : (u.ctx i).profile = some n)
    (hr : (u.ctx i).rate = some r) (hc : u.contents n = some c) (he : c.table[r]? = some e) : u.currentCost i = e.cost := by
  simp [currentCost, hr, costOf, rateEntry, profileOf, hp, hc, he]

theorem fits_iff (u : State) (n : Nat) : u.fits n = true ↔ u.reserved + n ≤ u.available := by simp [fits]

theorem fits_eq_false_iff (u : State) (n : Nat) : u.fits n = false ↔ u.available < u.reserved + n := by simp [fits]

theorem complete_iff (c : Ctx) : c.complete = true ↔ c.slot.isSome ∧ c.primary.isSome ∧ c.profile.isSome := by
  simp [Ctx.complete, and_assoc]

theorem armContext_wrongState (i : Nat) (u : State) (h : (u.ctx i).state ≠ .opened) :
    armContext i u = refuse .wrongState u := if_pos h

theorem armContext_incomplete (i : Nat) (u : State) (h : (u.ctx i).state = .opened) (hc : (u.ctx i).complete = false) :
    armContext i u = refuse .incomplete u := by simp [armContext, h, hc]

theorem armContext_complete (i : Nat) (u : State) (h : (u.ctx i).state = .opened) (hc : (u.ctx i).complete = true) :
    armContext i u = if u.fits (u.currentCost i) = false then ⟨.noCapacity, .nothing, u.countFor .admitRefused i⟩
      else ⟨.ok, .rateUnits ((u.ctx i).rate.getD 0) (u.currentCost i),
        (u.reserve (u.currentCost i)).modCtx i Ctx.toArmed⟩ := by
  simp [armContext, h, hc]

theorem resumeContext_wrongState (i : Nat) (u : State) (h : (u.ctx i).state ≠ .held) :
    resumeContext i u = refuse .wrongState u := if_pos h

theorem resumeContext_held (i : Nat) (u : State) (h : (u.ctx i).state = .held) :
    resumeContext i u = if u.fits (u.currentCost i) = false then ⟨.noCapacity, .nothing, u.countFor .admitRefused i⟩
      else ⟨.ok, .stateUnits (u.ctx i).heldFromState (u.currentCost i), u.leaveHeld i⟩ := by
  simp [resumeContext, h]

/-- A refused admission is answered NO_CAPACITY, counts ADMIT_REFUSED and changes nothing else (R58, R181). -/
theorem noCapacity_respond (u : State) (p : Port) (code tag : Byte) (i : Nat) (g : Byte) (hg : (u.ctx i).gen = g) :
    Answered u (respond p code tag ⟨.noCapacity, .nothing, u.countFor .admitRefused i⟩) p code tag .noCapacity .nothing ∧
      respond p code tag ⟨.noCapacity, .nothing, u.countFor .admitRefused i⟩ = { u with
        ports := (respond p code tag ⟨.noCapacity, .nothing, u.countFor .admitRefused i⟩).ports
        tally0 := u.tally0.step .admitRefused (some ⟨i, g⟩), tally1 := u.tally1.step .admitRefused (some ⟨i, g⟩) } := by
  subst hg
  exact ⟨answered_respond u p code tag _ rfl, rfl⟩

/-- An admission granted: the units are reserved and the one record changes (R58). -/
theorem admitted_respond (u : State) (p : Port) (code tag : Byte) (b : RespBody) (i n : Nat) (f : Ctx → Ctx) :
    (respond p code tag ⟨.ok, b, (u.reserve n).modCtx i f⟩).ctx i = f (u.ctx i) ∧
      OnlyCtx u (respond p code tag ⟨.ok, b, (u.reserve n).modCtx i f⟩) i ∧
      (respond p code tag ⟨.ok, b, (u.reserve n).modCtx i f⟩).reserved = u.reserved + n ∧
      Answered u (respond p code tag ⟨.ok, b, (u.reserve n).modCtx i f⟩) p code tag .ok b ∧
      respond p code tag ⟨.ok, b, (u.reserve n).modCtx i f⟩ = { u with
        ctxs := (respond p code tag ⟨.ok, b, (u.reserve n).modCtx i f⟩).ctxs
        reserved := (respond p code tag ⟨.ok, b, (u.reserve n).modCtx i f⟩).reserved
        ports := (respond p code tag ⟨.ok, b, (u.reserve n).modCtx i f⟩).ports } := by
  have hr : ∀ j, (u.reserve n).ctx j = u.ctx j := fun j => ctx_congr rfl j
  exact ⟨by simp [hr], fun j hj => by simp [hj, hr], rfl, answered_respond u p code tag _ rfl, rfl⟩

/-- Settles O17: ARM and RESUME admitted (`admitted_respond`), then each refused. -/
theorem admissionReservesTheCost : Obligations.AdmissionReservesTheCost := by
  refine ⟨?_, ?_, ?_, ?_⟩
  · intro p tag i0 i1 g s u i n r c e hs hu ho hi hst hsl hpr hpf hra hco he hfit
    subst hi
    have hcost := currentCost_eq u _ n r c e hpf hra hco he
    have ht : takeOrder p .arm [i0, i1, g] u = ⟨.ok, .rateUnits r e.cost,
        (u.reserve e.cost).modCtx (le16 i0 i1) Ctx.toArmed⟩ := by
      refine (takeOrder_arm ho).trans ?_
      rw [armContext_complete _ u hst ((complete_iff _).2 ⟨hsl, hpr, by simp [hpf]⟩), hcost,
        if_neg (by simp [(fits_iff u e.cost).2 hfit]), hra]
      rfl
    exact ⟨_, exec_eq_respond rfl (by decide) hs hu ht, admitted_respond u p _ tag _ _ _ _⟩
  · intro p tag i0 i1 g s u i h hs hu ho hi hst hh hfit
    subst hi
    have ht : takeOrder p .resume [i0, i1, g] u = ⟨.ok, .stateUnits h.state (u.currentCost (le16 i0 i1)),
        (u.reserve (u.currentCost (le16 i0 i1))).modCtx (le16 i0 i1) Ctx.fromHeld⟩ := by
      refine (takeOrder_resume ho).trans ?_
      rw [resumeContext_held _ u hst, if_neg (by simp [(fits_iff u _).2 hfit])]
      simp [Ctx.heldFromState, hh, leaveHeld]
    obtain ⟨hctx, hrest⟩ := admitted_respond u p OrderCode.resume.byte tag
      (.stateUnits h.state (u.currentCost (le16 i0 i1))) (le16 i0 i1) (u.currentCost (le16 i0 i1)) Ctx.fromHeld
    refine ⟨_, exec_eq_respond rfl (by decide) hs hu ht, hctx.trans ?_, hrest⟩
    simp [Ctx.fromHeld, hh]
  · intro p tag i0 i1 g s u i hs hu ho hi
    subst hi
    have hexec : ∀ r, armContext (le16 i0 i1) u = r →
        exec (.arm p tag [i0, i1, g]) s = .next (respond p OrderCode.arm.byte tag r) := fun r hr =>
      exec_eq_respond rfl (by decide) hs hu ((takeOrder_arm ho).trans hr)
    refine ⟨fun hst => ⟨_, hexec _ (armContext_wrongState _ u hst), refused_respond u p _ tag _⟩, fun hst hmiss => ?_,
      fun n r c e hst hsl hpr hpf hra hco he hfit => ?_⟩
    · have hc : (u.ctx (le16 i0 i1)).complete = false := by
        rcases hmiss with h | h | h <;> simp [Ctx.complete, h]
      exact ⟨_, hexec _ (armContext_incomplete _ u hst hc), refused_respond u p _ tag _⟩
    · have ht := armContext_complete _ u hst ((complete_iff _).2 ⟨hsl, hpr, by simp [hpf]⟩)
      rw [currentCost_eq u _ n r c e hpf hra hco he, if_pos ((fits_eq_false_iff u _).2 hfit)] at ht
      exact ⟨_, hexec _ ht, noCapacity_respond u p OrderCode.arm.byte tag (le16 i0 i1) g ho.gen_eq⟩
  · intro p tag i0 i1 g s u i hs hu ho hi
    subst hi
    have hexec : ∀ r, resumeContext (le16 i0 i1) u = r →
        exec (.resume p tag [i0, i1, g]) s = .next (respond p OrderCode.resume.byte tag r) := fun r hr =>
      exec_eq_respond rfl (by decide) hs hu ((takeOrder_resume ho).trans hr)
    refine ⟨fun hst => ⟨_, hexec _ (resumeContext_wrongState _ u hst), refused_respond u p _ tag _⟩, fun hst hfit => ?_⟩
    have ht := resumeContext_held _ u hst
    rw [if_pos ((fits_eq_false_iff u _).2 hfit)] at ht
    exact ⟨_, hexec _ ht, noCapacity_respond u p OrderCode.resume.byte tag (le16 i0 i1) g ho.gen_eq⟩

/-! ### HOLD (R12, R13) -/

theorem holdContext_converting (i : Nat) (u : State) (h : (u.ctx i).state = .armed ∨ (u.ctx i).state = .active) :
    holdContext i u = ⟨.ok, .state (u.ctx i).state, u.enterHeld i .order⟩ := by
  unfold holdContext
  rcases h with h | h <;> rw [h]

/-- HOLD of a held context whose cause is ORDER changes nothing. -/
theorem holdContext_held_order (i : Nat) (u : State) (h : (u.ctx i).state = .held)
    (hc : (u.ctx i).holdCause = some .order) : holdContext i u = ⟨.ok, .state (u.ctx i).heldFromState, u⟩ := by
  unfold holdContext
  rw [h]
  exact if_pos hc

theorem holdContext_held_other (i : Nat) (u : State) (h : (u.ctx i).state = .held)
    (hc : (u.ctx i).holdCause ≠ some .order) : holdContext i u =
      ⟨.ok, .state (u.ctx i).heldFromState, u.modCtx i fun c => { c with holdCause := some .order }⟩ := by
  unfold holdContext
  rw [h]
  exact if_neg hc

/-- What entry into HELD leaves besides the records, the reserved units, the lanes, the queues and the blocks. -/
theorem enterHeld_frame (u : State) (i : Nat) (c : HoldCause) : u.enterHeld i c = { u with
    ctxs := (u.enterHeld i c).ctxs, reserved := (u.enterHeld i c).reserved, lanes := (u.enterHeld i c).lanes,
    attention := (u.enterHeld i c).attention, blocks := (u.enterHeld i c).blocks } := by
  apply eq_of_fields <;> simp

/-- The state a converting context was held from. -/
theorem heldFromOf_converting (x : CtxState) (h : x = .armed ∨ x = .active) :
    heldFromOf x = if x = .armed then .armed else .active := by
  rcases h with rfl | rfl <;> rfl

/-- Settles O18, from what entry into HELD does. -/
theorem holdReturnsTheUnits : Obligations.HoldReturnsTheUnits := by
  refine ⟨?_, ?_⟩
  · intro p tag i0 i1 g s u i hs hu ho hi hst
    subst hi
    have ht := (takeOrder_hold ho).trans (holdContext_converting _ u hst)
    have howner : (u.ctx (le16 i0 i1)).owner = p := ho.2
    generalize le16 i0 i1 = i at *
    have hports : (u.enterHeld i .order).ports = u.ports := by simp
    refine ⟨_, exec_eq_respond rfl (by decide) hs hu ht, ?_, fun j hj => ?_, reserved_enterHeld u i .order,
      fun n hn => ?_, fun q => ?_, fun n => block_enterHeld u i n .order, answered_respond u p _ tag _ hports, ?_⟩
    · refine (ctx_respond p _ tag _ i).trans ((ctx_enterHeld u i i .order).trans ((if_pos rfl).trans ?_))
      rw [add_rateRefused, ← heldFromOf_converting _ hst]
      rfl
    · exact (ctx_respond p _ tag _ j).trans ((ctx_enterHeld u i j .order).trans (if_neg hj))
    · refine (lane_enterHeld u i n .order).trans ?_
      rw [← lane_filter]
      simp [hn]
    · refine (queueOf_enterHeld u i .order q).trans (if_congr ?_ rfl rfl)
      rw [howner]
      tauto
    · rw [respond_frame, enterHeld_frame]
  · intro p tag i0 i1 g s u i h hs hu ho hi hst hh
    subst hi
    have hfrom : (u.ctx (le16 i0 i1)).heldFromState = h.state := by simp [Ctx.heldFromState, hh]
    by_cases hc : (u.ctx (le16 i0 i1)).holdCause = some .order
    · have ht := (takeOrder_hold ho).trans (holdContext_held_order _ u hst hc)
      rw [hfrom] at ht
      refine ⟨_, exec_eq_respond rfl (by decide) hs hu ht, ?_, fun j _ => rfl, answered_respond u p _ tag _ rfl, rfl⟩
      rw [← hc]
      rfl
    · have ht := (takeOrder_hold ho).trans (holdContext_held_other _ u hst hc)
      rw [hfrom] at ht
      exact ⟨_, exec_eq_respond rfl (by decide) hs hu ht, modCtx_respond u p _ tag _ _ _⟩

/-! ### SET_PRIORITY, SET_LEVEL and SET_PLAYOUT (R16, R94, R102) -/

theorem flagOf_flagByte (b : Bool) : flagOf (flagByte b) = some b := by cases b <;> rfl

theorem roundingOf_code (r : Rounding) : roundingOf (byteOf r.code) = some r := by
  cases r with
  | mode m => cases m <;> rfl
  | deviceDefault => rfl

/-- A gain in range is what its byte spells. -/
theorem gainOf_gainByte (x : Int) (hl : -12 ≤ x) (hu : x ≤ 12) : gainOf (gainByte x) = some x := by
  have hx : (gainByte x).toInt = x := by
    unfold gainByte
    rw [BitVec.toInt_ofInt]
    exact Int.bmod_eq_of_le (by omega) (by omega)
  unfold gainOf
  rw [hx, if_pos ⟨hl, hu⟩]

/-- Levels in range are what their bytes spell (R94). -/
theorem levelsOf_bytes (v : Levels) (h1 : -12 ≤ v.gainLand) (h2 : v.gainLand ≤ 12) (h3 : -12 ≤ v.gainMobile)
    (h4 : v.gainMobile ≤ 12) : levelsOf (gainByte v.gainLand) (gainByte v.gainMobile) (byteOf v.rounding.code)
      (flagByte v.clipReport) = some v := by
  unfold levelsOf
  rw [gainOf_gainByte _ h1 h2, gainOf_gainByte _ h3 h4, roundingOf_code, flagOf_flagByte]

/-- Settles O19: the fields spell the value, and the order changes one record (`modCtx_respond`). -/
theorem contextSettingsReplaced : Obligations.ContextSettingsReplaced := by
  intro p tag i0 i1 g s i hs hi
  subst hi
  refine ⟨fun n u hu ho hst hn => ?_, fun v u hu ho hst h1 h2 h3 h4 => ?_, fun d u hu ho hst h1 h2 => ?_⟩
  · have ht : takeOrder p .setPriority [i0, i1, g, n] u = ⟨.ok, .priority (u.ctx (le16 i0 i1)).priority,
        u.modCtx (le16 i0 i1) fun c => { c with priority := n.toNat }⟩ :=
      (ownerChecked_fields p i0 i1 g _ (decide_eq_true hn) u (fun i => prioritize i n.toNat u) ho).trans (if_neg hst)
    exact ⟨_, exec_eq_respond rfl (by decide) hs hu ht, modCtx_respond u p _ tag _ _ _⟩
  · have hv := levelsOf_bytes v h1 h2 h3 h4
    have ht : takeOrder p .setLevel ([i0, i1, g] ++ v.bytes) u = setLevelOf (le16 i0 i1) v u := by
      refine (ownerChecked_fields p i0 i1 g _ (by rw [hv]; rfl) u (fun i => setLevelOf i ((levelsOf (gainByte v.gainLand)
        (gainByte v.gainMobile) (byteOf v.rounding.code) (flagByte v.clipReport)).getD ⟨0, 0, .deviceDefault, false⟩) u)
        ho).trans ?_
      rw [hv]
      rfl
    exact ⟨_, exec_eq_respond rfl (by decide) hs hu (ht.trans (if_neg hst)), modCtx_respond u p _ tag _ _ _⟩
  · have ht : takeOrder p .setPlayout [i0, i1, g, d] u = ⟨.ok, .depth (u.ctx (le16 i0 i1)).depth,
        u.modCtx (le16 i0 i1) fun c => { c with depth := d.toNat }⟩ :=
      (ownerChecked_fields p i0 i1 g _ (decide_eq_true ⟨h1, h2⟩) u (fun i => setPlayoutOf i d.toNat u) ho).trans
        (if_neg hst)
    exact ⟨_, exec_eq_respond rfl (by decide) hs hu ht, modCtx_respond u p _ tag _ _ _⟩

end Sys2Proof.Machine
end

section
/-! SUPPORT. The part at power-on and at a hard reset (R2, R24, R43, R48, R56, R78, R83, R104, R161, R177, R178, R184). -/

namespace Sys2Proof.Machine

open State

/-! ### What the power-on state reads as -/

theorem ctx_reset (i : Nat) : State.reset.ctx i = Ctx.reset := rfl
theorem slotEntry_reset (n : Nat) : State.reset.slotEntry n = none := rfl
theorem streamEntry_reset (n : Nat) : State.reset.streamEntry n = none := rfl
theorem lane_reset (n : Nat) : State.reset.lane n = ⟨.inService, none⟩ := rfl
theorem profile_reset (n : Nat) : State.reset.profile n = profileDefault n := rfl
theorem port_reset (p : Port) : State.reset.port p = PortState.reset := by cases p <;> rfl
theorem queueOf_reset (p : Port) : State.reset.queueOf p = [] := by cases p <;> rfl
theorem sweepOf_reset (p : Port) : State.reset.sweepOf p = Sweep.reset := by cases p <;> rfl

/-- No context names anything at power-on. -/
theorem indicesWhere_reset (f : Ctx → Bool) : State.reset.indicesWhere f = [] := rfl

/-- The slots above 3 are EMPTY at power-on (R48). -/
theorem profileDefault_vacant (n : Nat) (h : 3 < n) : profileDefault n = ⟨.vacant, 0⟩ := by
  obtain ⟨k, rfl⟩ := Nat.exists_eq_add_of_lt h
  rw [show 3 + k + 1 = k + 4 by omega]
  rfl

theorem profileDefault_refs (n : Nat) : (profileDefault n).refs = 0 := by
  unfold profileDefault
  split <;> rfl

/-- The slots 0..3 are FIXED (R48). -/
theorem profileDefault_fixed (n : Nat) (h : n ≤ 3) : ∃ c, (profileDefault n).state = .fixed c := by
  interval_cases n <;> exact ⟨_, rfl⟩

/-- Settles O10: the power-on state is read off, item by item. -/
theorem powerOnState : Obligations.PowerOnState := by
  refine ⟨fun i => ⟨rfl, rfl⟩, fun n => ⟨rfl, rfl, rfl, rfl, rfl⟩, fun n => ⟨profileDefault_refs n, fun h => ?_,
    profileDefault_fixed n⟩, rfl, rfl, rfl, rfl, rfl, rfl, rfl, rfl, rfl, rfl, fun p => ?_, rfl, rfl, rfl,
    fun s => ⟨rfl, rfl, rfl⟩⟩
  · rw [profile_reset, profileDefault_vacant n h]
  · rw [port_reset]
    exact ⟨queueOf_reset p, sweepOf_reset p, rfl, rfl, rfl, rfl⟩

/-! ### The invariants at power-on -/

theorem partsMatch_reset : Ctx.reset.partsMatch := by
  unfold Ctx.partsMatch Ctx.reset
  simp

theorem queueInWindow_reset : Ctx.reset.queueInWindow := ⟨fun _ => rfl, fun _ h => nomatch h⟩

theorem recordsMatch_reset : State.reset.recordsMatch := fun i => by
  rw [ctx_reset]
  exact ⟨partsMatch_reset, queueInWindow_reset, by decide, fun _ => rfl⟩

theorem slotsMatch_reset : State.reset.slotsMatch := fun n i => by simp [slotEntry_reset, ctx_reset, Ctx.reset]

theorem not_holdsKey_reset (n : Nat) (k : StreamKey) : ¬ State.reset.holdsKey n k := fun ⟨_, h, _⟩ => nomatch h

theorem streamsMatch_reset : State.reset.streamsMatch :=
  ⟨fun n _ k h => absurd h (not_holdsKey_reset n k), fun n e h => (by simp [streamEntry_reset] at h),
    fun i k => by simp [streamEntry_reset, ctx_reset, Ctx.reset],
    fun i k => by simp [streamEntry_reset, ctx_reset, Ctx.reset]⟩

theorem refsMatch_reset : State.reset.refsMatch := fun n => profileDefault_refs n

/-- The costs of the fixed profiles ascend along their tables (R46, R48). -/
theorem contents_reset_ascending (n : Nat) (c : Profile) (h : State.reset.contents n = some c) :
    c.table.Pairwise fun a b => a.cost < b.cost := by
  by_cases hn : n ≤ 3
  · interval_cases n <;> cases h <;> decide
  · unfold contents at h
    rw [profile_reset, profileDefault_vacant n (by omega)] at h
    cases h

theorem ratesMatch_reset : State.reset.ratesMatch := ⟨contents_reset_ascending, fun _ _ h => nomatch h⟩

theorem accountMatches_reset : State.reset.accountMatches := ⟨rfl, Nat.zero_le _⟩

theorem lanesMatch_reset : State.reset.lanesMatch := fun _ _ h => nomatch h

theorem sweepsMatch_reset : State.reset.sweepsMatch := fun p n h => by
  rw [sweepOf_reset] at h
  cases h

theorem queuesMatch_reset : State.reset.queuesMatch := fun p => by
  rw [queueOf_reset]
  exact ⟨List.nodup_nil, fun i => by simp [ctx_reset, Ctx.reset]⟩

theorem freeIsBare_reset : State.reset.freeIsBare :=
  ⟨fun _ _ => ⟨rfl, rfl, rfl⟩, fun n _ k h => absurd h (not_holdsKey_reset n k), fun _ _ h => nomatch h⟩

theorem coherent_reset : State.reset.coherent :=
  ⟨rfl, recordsMatch_reset, slotsMatch_reset, streamsMatch_reset, refsMatch_reset, ratesMatch_reset,
    accountMatches_reset, lanesMatch_reset, sweepsMatch_reset, queuesMatch_reset⟩

/-- Settles O59, invariant by invariant. -/
theorem invariantsAtReset : Obligations.InvariantsAtReset :=
  ⟨rfl, by decide, by unfold availableMatches; decide, queuesMatch_reset, freeIsBare_reset, coherent_reset,
    fun _ h => absurd rfl h⟩

end Sys2Proof.Machine
end

section
/-! SUPPORT. The first arrival at a context: how a rate request is corrected and taken (R106 to R108), the record a first
arrival leaves, and what it counts (R11, R98, R99, R181). -/

namespace Sys2Proof.Machine

open State

/-! ### A requested index corrected into the permitted set (R107) -/

theorem RateSet.mem_indices (set : RateSet) (x : Nat) : x ∈ set.indices ↔ set.getLsbD x = true := by
  unfold RateSet.indices RateSet.has
  rw [List.mem_filter, List.mem_range]
  exact ⟨And.right, fun h => ⟨BitVec.lt_of_getLsbD h, h⟩⟩

theorem RateSet.indices_sorted (set : RateSet) : set.indices.Pairwise (· < ·) := List.pairwise_lt_range.filter _

/-- The last of a rising list is its greatest. -/
theorem getLast?_of_greatest {l : List Nat} {v : Nat} (hs : l.Pairwise (· < ·)) (hv : v ∈ l) (hm : ∀ x ∈ l, x ≤ v) :
    l.getLast? = some v := by
  induction l with
  | nil => cases hv
  | cons a t ih =>
    obtain ⟨ha, ht⟩ := List.pairwise_cons.mp hs
    cases t with
    | nil => rw [List.mem_singleton.mp hv]; rfl
    | cons b t =>
      have hav : a ≠ v := fun he => by
        have := ha b (List.mem_cons_self ..)
        have := hm b (by simp)
        omega
      rw [List.getLast?_cons_cons]
      exact ih ht ((List.mem_cons.mp hv).resolve_left (Ne.symm hav)) fun x hx => hm x (List.mem_cons_of_mem _ hx)

/-- The first of a rising list is its least. -/
theorem headD_of_least {l : List Nat} {v d : Nat} (hs : l.Pairwise (· < ·)) (hv : v ∈ l) (hm : ∀ x ∈ l, v ≤ x) :
    l.headD d = v := by
  cases l with
  | nil => cases hv
  | cons a t =>
    rcases List.mem_cons.mp hv with rfl | ht
    · rfl
    · have := (List.pairwise_cons.mp hs).1 v ht
      have := hm a (List.mem_cons_self ..)
      omega

/-- The correction of a request is the one R107 names. -/
theorem correct_eq {set : RateSet} {r v : Nat} (h : CorrectedTo set r v) : set.correct r = v := by
  obtain ⟨hv, rfl | ⟨hr, ⟨hlt, hmax⟩ | hmin⟩⟩ := h
  · simp [RateSet.correct, RateSet.has, hv]
  · have hb : set.highestBelow r = some v := by
      refine getLast?_of_greatest (set.indices_sorted.filter _) ?_ fun x hx => ?_
      · simp [RateSet.mem_indices, hv, hlt]
      · obtain ⟨hx, hxr⟩ := List.mem_filter.mp hx
        exact hmax x ((RateSet.mem_indices set x).mp hx) (of_decide_eq_true hxr)
    simp [RateSet.correct, RateSet.has, hr, hb]
  · have hb : set.highestBelow r = none := by
      unfold RateSet.highestBelow
      rw [List.filter_eq_nil_iff.mpr fun x hx => by
        have := (hmin x ((RateSet.mem_indices set x).mp hx)).1
        simp; omega]
      rfl
    have hl : set.lowest = v := headD_of_least set.indices_sorted ((RateSet.mem_indices set v).mpr hv)
      fun x hx => (hmin x ((RateSet.mem_indices set x).mp hx)).2
    simp [RateSet.correct, RateSet.has, hr, hb, hl]

/-! ### The request field of an accepted cell (R106, R108) -/

theorem takeRequest_none (s : State) (i field : Nat) (h : 7 < field) : s.takeRequest i field = s := if_pos h

theorem request_takeRequest (s : State) (i field : Nat) (set : RateSet) (h : field ≤ 7)
    (hp : (s.ctx i).permitted = some set) : ((s.takeRequest i field).ctx i).request =
      placedRequest (s.ctx i).request (s.ctx i).rate (set.correct field) := by
  unfold takeRequest
  rw [if_neg (Nat.not_lt.mpr h), hp]
  simp

theorem placedRequest_order (x : Nat) (current : Option Nat) (c : Nat) :
    placedRequest (some ⟨x, .order⟩) current c = some ⟨x, .order⟩ := rfl

theorem placedRequest_cell {q : Option RateRequest} (h : q = none ∨ ∃ x, q = some ⟨x, .cell⟩) (current : Option Nat)
    (c : Nat) : placedRequest q current c = if some c = current then none else some ⟨c, .cell⟩ := by
  obtain rfl | ⟨x, rfl⟩ := h <;> rfl

/-- Taking a request does what R106 and R108 say. -/
theorem requestTaken_takeRequest (s : State) (i field : Nat) :
    RequestTaken (s.ctx i) ((s.takeRequest i field).ctx i) field := by
  refine ⟨fun h => by rw [takeRequest_none s i field h], fun set v hf hp hc => ?_⟩
  rw [request_takeRequest s i field set hf hp, correct_eq hc]
  refine ⟨fun x hx => by rw [hx, placedRequest_order], fun hq => ?_⟩
  rw [placedRequest_cell hq]
  exact ⟨fun hr => if_pos hr.symm, fun hr => if_neg (Ne.symm hr)⟩

/-- What becomes of a request rests on the pending request, the permitted set and the rate of the record before. -/
theorem RequestTaken.congr {c c' d d' : Ctx} {field : Nat} (h : RequestTaken c d field) (hq : c.request = c'.request)
    (hp : c.permitted = c'.permitted) (hr : c.rate = c'.rate) (hd : d.request = d'.request) :
    RequestTaken c' d' field := by
  unfold RequestTaken at h ⊢
  rwa [hq, hp, hr, hd] at h

/-! ### A first arrival (R98, R99) -/

theorem InCell.entry_seq (c : InCell) (bad : Bool) : (c.entry bad).seq = c.seq := by cases bad <;> rfl

theorem Counters.accept_eq (k : Counters) (bad : Bool) :
    k.accept bad = { k with cellsIn := k.cellsIn + 1, bad := k.bad + if bad then 1 else 0 } := by
  cases bad <;> simp [Counters.accept]

theorem ctx_firstArrival_other (s : State) (i j : Nat) (c : InCell) (h : j ≠ i) : (s.firstArrival i c).ctx j = s.ctx j := by
  unfold firstArrival
  rw [ctx_takeRequest, if_neg h, ctx_acceptCounts, if_neg h, ctx_modCtx, if_neg h]

theorem requestTaken_firstArrival (s : State) (i : Nat) (c : InCell) :
    RequestTaken (s.ctx i) ((s.firstArrival i c).ctx i) c.request := by
  refine (requestTaken_takeRequest ((s.modCtx i fun x => x.startQueue (c.entry (s.badCell i c))).acceptCounts i
    (s.badCell i c)) i c.request).congr ?_ ?_ ?_ rfl
  all_goals rw [ctx_acceptCounts, if_pos rfl, ctx_modCtx, if_pos rfl]; rfl

theorem firstArrival_frame (s : State) (i : Nat) (c : InCell) : s.firstArrival i c = { s with
    ctxs := (s.firstArrival i c).ctxs, tally0 := (s.firstArrival i c).tally0, tally1 := (s.firstArrival i c).tally1 } := by
  apply eq_of_fields <;> simp

/-- The state in which a cell's queue starts: its context is heard, and ACTIVE with the first-cell wait ended. -/
def State.activated (s : State) (i : Nat) : State :=
  (s.heard i).modCtx i fun x => { x with state := .active, firstRemaining := none }

theorem ctx_heard (s : State) (i j : Nat) :
    (s.heard i).ctx j = if j = i then { s.ctx i with silence := 0, staleRaised := false } else s.ctx j :=
  ctx_modCtx _ _ _ _

theorem ctx_activated (s : State) (i j : Nat) : (s.activated i).ctx j = if j = i then
    { s.ctx i with silence := 0, staleRaised := false, state := .active, firstRemaining := none } else s.ctx j := by
  unfold State.activated
  rw [ctx_modCtx, ctx_heard, ctx_heard, if_pos rfl]
  by_cases hj : j = i <;> simp [hj]

theorem firstCell_eq (s : State) (i : Nat) (c : InCell) :
    s.firstCell i c = ((s.activated i).firstArrival i c).raise i .firstCell := rfl

/-- A cell in range found under a key of role PRIMARY is dispatched to the context of the entry (R38, R39). -/
theorem exec_cellArrival {link : Fin 4} {bytes : List Byte} {s : State} {c : InCell} {n : Nat} {e : StreamEntry}
    (hp : s.pinHeld = false) (hw : wellFormedCell link.val bytes = some c)
    (hf : s.findStream ⟨link.val, c.tag⟩ = some (n, e)) (hr : e.role = .primary) (hl : c.link = link.val) :
    exec (.cellArrival link bytes) s = .next (s.dispatch e.index c) := by
  have hk : c.key = ⟨link.val, c.tag⟩ := by rw [← hl]; rfl
  show runs s (s.intake link.val bytes) = _
  unfold runs intake reach
  rw [hp, hw]
  simp only [hk, hf, hr]
  rfl

theorem link_of_wellFormedCell {link : Nat} {bytes : List Byte} {c : InCell} (h : wellFormedCell link bytes = some c) :
    c.link = link := by
  unfold wellFormedCell parseCell at h
  split at h
  · next x hx =>
    split at h
    · cases h
      split at hx <;> cases hx
      rfl
    · cases h
  · cases h

/-- From `s` to `t` the queue of context `i` has started on cell `c`, which was counted and whose request was taken
(R98, R99, R106, R181). -/
structure QueueStarted (s t : State) (i : Nat) (c : InCell) : Prop where
  expected : (t.ctx i).expected = some c.seq
  queue : (t.ctx i).queue = [c.entry (s.badCell i c)]
  priming : (t.ctx i).priming = true
  silence : (t.ctx i).silence = 0
  staleRaised : (t.ctx i).staleRaised = false
  counters : (t.ctx i).counters = { (s.ctx i).counters with
    cellsIn := (s.ctx i).counters.cellsIn + 1
    bad := (s.ctx i).counters.bad + if s.badCell i c then 1 else 0 }
  tallied : Tallied s t i (.cellIn :: if s.badCell i c then [.cellBad] else [])
  request : RequestTaken (s.ctx i) (t.ctx i) c.request
  only : OnlyCtx s t i

/-- A first arrival at a context just heard, whose state `st` and first-cell wait `w` were set before. -/
theorem queueStarted_firstArrival {s v : State} {i : Nat} {c : InCell} {st : CtxState} {w : Option Nat}
    (hv : ∀ j, v.ctx j = if j = i then
      { s.ctx i with silence := 0, staleRaised := false, state := st, firstRemaining := w } else s.ctx j)
    (hp : v.profiles = s.profiles) (h0 : v.tally0 = s.tally0) (h1 : v.tally1 = s.tally1) :
    QueueStarted s (v.firstArrival i c) i c ∧ ((v.firstArrival i c).ctx i).state = st ∧
      ((v.firstArrival i c).ctx i).firstRemaining = w ∧ ((v.firstArrival i c).ctx i).conds = (s.ctx i).conds := by
  have hd := (hv i).trans (if_pos rfl)
  have hbad : v.badCell i c = s.badCell i c := badCell_congr i c (by rw [hd]) hp
  have hc := ctx_firstArrival v i c
  rw [hbad, hd] at hc
  have ht := (Tallied.same h0 h1 (by rw [hd])).trans (tallied_firstArrival v i c)
  rw [hbad] at ht
  refine ⟨⟨?_, by rw [hc]; rfl, by rw [hc]; rfl, by rw [hc]; rfl, by rw [hc]; rfl, ?_, ht, ?_, fun j hj => ?_⟩,
    by rw [hc]; rfl, by rw [hc]; rfl, by rw [hc]; rfl⟩
  · rw [hc, ← InCell.entry_seq c (s.badCell i c)]; rfl
  · rw [hc]; exact Counters.accept_eq _ _
  · exact (requestTaken_firstArrival v i c).congr (by rw [hd]) (by rw [hd]) (by rw [hd]) rfl
  · rw [ctx_firstArrival_other v i j c hj, hv, if_neg hj]

/-- FIRST_CELL raised changes the pending set of its context, and no other item of `QueueStarted`. -/
theorem QueueStarted.raise {s t : State} {i : Nat} {c : InCell} (h : QueueStarted s t i c) (k : Cond) :
    QueueStarted s (t.raise i k) i c := by
  have hc : (t.raise i k).ctx i = { t.ctx i with conds := (t.ctx i).conds.add k } :=
    (ctx_raise t i i k).trans (if_pos rfl)
  refine ⟨by rw [hc]; exact h.expected, by rw [hc]; exact h.queue, by rw [hc]; exact h.priming,
    by rw [hc]; exact h.silence, by rw [hc]; exact h.staleRaised, by rw [hc]; exact h.counters,
    (h.tallied.trans (tallied_raise t i i k)).to (List.append_nil _), h.request.congr rfl rfl rfl (by rw [hc]),
    fun j hj => ?_⟩
  rw [ctx_raise, if_neg hj]
  exact h.only j hj

theorem add_firstCell (x : CondSet) : x.add .firstCell = x ||| 0x01#12 := congrArg (x ||| ·) (by decide)

theorem firstCell_frame (s : State) (i : Nat) (c : InCell) : s.firstCell i c = { s with
    ctxs := (s.firstCell i c).ctxs, attention := (s.firstCell i c).attention, tally0 := (s.firstCell i c).tally0,
    tally1 := (s.firstCell i c).tally1 } := by
  apply eq_of_fields <;> simp [firstCell, heard]

/-- Settles O47: both clauses are a first arrival (`queueStarted_firstArrival`), the first one after the context has
become ACTIVE and with FIRST_CELL raised after it. -/
theorem firstCellActivates : Obligations.FirstCellActivates := by
  refine ⟨?_, ?_⟩
  · intro link bytes s c n e i hp hw hf hr hi hst
    have hexec := exec_cellArrival hp hw hf hr (link_of_wellFormedCell hw)
    rw [← hi] at hexec
    have hd : s.dispatch i c = s.firstCell i c := by unfold dispatch; rw [hst]
    rw [hd] at hexec
    obtain ⟨hq, hs, hw, hc⟩ := queueStarted_firstArrival (c := c) (ctx_activated s i) rfl rfl rfl
    have hr := hq.raise .firstCell
    have hctx : (s.firstCell i c).ctx i = { ((s.activated i).firstArrival i c).ctx i with
        conds := (((s.activated i).firstArrival i c).ctx i).conds.add .firstCell } :=
      (ctx_raise _ i i .firstCell).trans (if_pos rfl)
    exact ⟨_, hexec, by rw [hctx]; exact hs, by rw [hctx]; exact hw, hr.expected, hr.queue, hr.priming, hr.silence,
      hr.staleRaised, hr.counters, hr.tallied.counted, by rw [hctx]; simp only [hc, add_firstCell], hr.request, hr.only,
      firstCell_frame s i c⟩
  · intro link bytes s c n e i hp hw hf hr hi hst he
    have hexec := exec_cellArrival hp hw hf hr (link_of_wellFormedCell hw)
    rw [← hi] at hexec
    have hh : ∀ j, (s.heard i).ctx j = if j = i then { s.ctx i with
        silence := 0, staleRaised := false, state := .active, firstRemaining := (s.ctx i).firstRemaining }
        else s.ctx j := fun j => by
      rw [ctx_heard, ← hst]
    have hd : s.dispatch i c = (s.heard i).firstArrival i c := by
      unfold dispatch place
      rw [hst, hh, if_pos rfl]
      simp only [he]
    rw [hd] at hexec
    obtain ⟨hq, hs, -, hc⟩ := queueStarted_firstArrival (c := c) hh rfl rfl rfl
    exact ⟨_, hexec, hs, hq.expected, hq.queue, hq.priming, hq.silence, hq.staleRaised, hq.counters, hq.tallied.counted,
      hc, hq.request, hq.only, firstArrival_frame (s.heard i) i c⟩

end Sys2Proof.Machine
end

section
/-! SUPPORT. RESET SOFT (R25, R43, R56, R161, R177, R179): what the invariants of the records say in the state in which
the order is taken, and what the release of every context leaves. -/

namespace Sys2Proof.Machine

open State

/-! ### The records in the state in which an order is taken -/

namespace State

/-- Renewal leaves the records, or clears the orphaned flags of the port's contexts (R171, R172). -/
theorem ctxs_atOrder (s : State) (p : Port) (code : Byte) :
    (s.atOrder p code).ctxs = s.ctxs ∨ (s.atOrder p code).ctxs = (s.setOrphans p false).ctxs := by
  unfold atOrder renew renewal
  split
  · split
    · exact Or.inr rfl
    · exact Or.inl rfl
  · exact Or.inl rfl

/-- Renewal changes no item of a record but its orphaned flag. -/
theorem ctx_atOrder (s : State) (p : Port) (code : Byte) (i : Nat) :
    (s.atOrder p code).ctx i = { s.ctx i with orphaned := ((s.atOrder p code).ctx i).orphaned } := by
  rcases ctxs_atOrder s p code with h | h
  · rw [ctx_congr h]
  · rw [ctx_congr h, ctx_setOrphans]
    split <;> rfl

theorem keys_atOrder (s : State) (p : Port) (code : Byte) : (s.atOrder p code).ctxs.keys = s.ctxs.keys := by
  rcases ctxs_atOrder s p code with h | h
  · rw [h]
  · rw [h]
    simp [setOrphans, Tab.keys, Tab.mapValues]

theorem canonical_atOrder (s : State) (p : Port) (code : Byte) (h : s.canonical = true) :
    (s.atOrder p code).canonical = true := canonical_renew (s.setRx p .hunt) p code h

/-- A test that does not read the orphaned flag finds the same contexts. -/
theorem indicesWhere_atOrder (s : State) (p : Port) (code : Byte) (f : Ctx → Bool)
    (hf : ∀ (c : Ctx) b, f { c with orphaned := b } = f c) : (s.atOrder p code).indicesWhere f = s.indicesWhere f := by
  unfold indicesWhere
  rw [keys_atOrder]
  exact List.filter_congr fun i _ => by rw [ctx_atOrder, hf]

theorem currentCost_atOrder (s : State) (p : Port) (code : Byte) (i : Nat) :
    (s.atOrder p code).currentCost i = s.currentCost i :=
  currentCost_congr (atOrder_profiles ..) i (by rw [ctx_atOrder]) (by rw [ctx_atOrder])

theorem recordsMatch_atOrder {s : State} (h : s.recordsMatch) (p : Port) (code : Byte) :
    (s.atOrder p code).recordsMatch := fun i => by
  rw [ctx_atOrder]
  exact h i

theorem accountMatches_atOrder {s : State} (h : s.accountMatches) (p : Port) (code : Byte) :
    (s.atOrder p code).accountMatches := by
  unfold accountMatches at h ⊢
  rw [indicesWhere_atOrder s p code Ctx.converting (fun _ _ => rfl), atOrder_reserved, atOrder_available,
    List.map_congr_left fun i _ => currentCost_atOrder s p code i]
  exact h

theorem refsMatch_atOrder {s : State} (h : s.refsMatch) (p : Port) (code : Byte) : (s.atOrder p code).refsMatch :=
  fun n => by
    rw [profile_congr (atOrder_profiles s p code) n, indicesWhere_atOrder s p code _ fun _ _ => rfl]
    exact h n

theorem lanesMatch_atOrder {s : State} (h : s.lanesMatch) (p : Port) (code : Byte) : (s.atOrder p code).lanesMatch :=
  fun n i hi => by
    simp only [lane_congr (atOrder_lanes s p code)] at hi ⊢
    rw [ctx_atOrder]
    exact h n i hi

/-! ### What the contexts in use hold is all there is (R3, R49, R57, R60) -/

theorem conds_of_free {s : State} (h : s.recordsMatch) (i : Nat) (hf : (s.ctx i).state = .free) :
    (s.ctx i).conds = 0 := by
  obtain ⟨⟨-, -, -, -, -, -, -, -, -, -, hfree, -⟩, -⟩ := h i
  exact hfree hf

/-- A context with a work is converting. -/
theorem converting_of_work {s : State} (h : s.recordsMatch) (i : Nat) (hw : (s.ctx i).work.isSome = true) :
    (s.ctx i).state = .armed ∨ (s.ctx i).state = .active := by
  obtain ⟨⟨-, -, -, -, hwork, -⟩, -⟩ := h i
  by_contra hc
  rw [not_or] at hc
  rw [(hwork hc.1 hc.2).2] at hw
  cases hw

theorem work_of_free {s : State} (h : s.recordsMatch) (i : Nat) (hf : (s.ctx i).state = .free) :
    (s.ctx i).work = none := by
  rw [← Option.not_isSome_iff_eq_none]
  intro hw
  have := converting_of_work h i hw
  rw [hf] at this
  simp at this

/-- A context that names a profile is in use. -/
theorem live_of_profile {s : State} (h : s.recordsMatch) (i n : Nat) (hp : (s.ctx i).profile = some n) :
    (s.ctx i).state ≠ .free := by
  obtain ⟨⟨hbare, -⟩, -⟩ := h i
  intro hf
  obtain ⟨-, -, -, hnone⟩ := hbare (Or.inl hf)
  rw [hnone] at hp
  cases hp

/-- The reservations of the contexts in use are those of the converting ones. -/
theorem sum_reservation (s : State) (l : List Nat) :
    ((l.filter fun i => (s.ctx i).state ≠ .free).map s.reservation).sum =
      ((l.filter fun i => (s.ctx i).converting).map s.currentCost).sum := by
  induction l with
  | nil => rfl
  | cons i l ih =>
    by_cases hc : (s.ctx i).converting = true
    · have hf : (s.ctx i).state ≠ .free := fun hf => by simp [Ctx.converting, hf] at hc
      simp [hc, hf, reservation, ← ih]
    · by_cases hf : (s.ctx i).state = .free <;> simp [hc, hf, reservation, ← ih]

theorem reserved_eq_sum {s : State} (h : s.accountMatches) : (s.liveContexts.map s.reservation).sum = s.reserved :=
  (sum_reservation s s.ctxs.keys).trans h.1.symm

/-- The references of a profile slot are those of the contexts in use. -/
theorem refs_eq_length {s : State} (hr : s.recordsMatch) (h : s.refsMatch) (n : Nat) :
    (s.liveContexts.filter fun i => decide ((s.ctx i).profile = some n)).length = (s.profile n).refs := by
  rw [h n]
  unfold liveContexts indicesWhere
  rw [List.filter_filter]
  refine congrArg List.length (List.filter_congr fun i _ => ?_)
  by_cases hp : (s.ctx i).profile = some n <;> simp [hp, live_of_profile hr i n]

/-- A work in hand is that of a context in use. -/
theorem inHand_live {s : State} (hr : s.recordsMatch) (h : s.lanesMatch) (n : Nat) :
    (s.lane n).inHand.filter (· ∉ s.liveContexts) = none := by
  cases hi : (s.lane n).inHand with
  | none => rfl
  | some i =>
    obtain ⟨-, hw, -, -⟩ := h n i hi
    have hl : i ∈ s.liveContexts := (mem_liveContexts s i).2 fun hf => by
      have := converting_of_work hr i hw
      simp [hf] at this
    simp [Option.filter, hl]

/-! ### The soft reset (R177) -/

theorem freeAll_keeps {α : Type} (g : State → α) (h : ∀ t i, g (enterFree t i) = g t) (s : State) :
    g s.freeAll = g s := foldl_keeps g enterFree h s.liveContexts s

theorem softReset_frame (s : State) : s.softReset = { s with
    ctxs := s.softReset.ctxs, slotMap := s.softReset.slotMap, streamMap := s.softReset.streamMap,
    profiles := s.softReset.profiles, reserved := s.softReset.reserved, lanes := s.softReset.lanes,
    blocks := s.softReset.blocks, sweeps := s.softReset.sweeps, attention := s.softReset.attention,
    ports := s.softReset.ports } := by
  apply eq_of_fields
  case h4 => exact freeAll_keeps (·.available) (fun t i => by simp) s
  case h7 => exact freeAll_keeps (·.capture) (fun t i => by simp) s
  case h8 => exact freeAll_keeps (·.timer) (fun t i => by simp) s
  case h10 => exact freeAll_keeps (·.links) (fun t i => by simp) s
  case h11 => exact freeAll_keeps (·.defaultRound) (fun t i => by simp) s
  case h15 => exact freeAll_keeps (·.tally0) (fun t i => by simp) s
  case h16 => exact freeAll_keeps (·.tally1) (fun t i => by simp) s
  case h17 => exact freeAll_keeps (·.pinHeld) (fun t i => by simp) s
  case h18 => exact freeAll_keeps (·.freeCount) (fun t i => by simp) s
  case h19 => exact freeAll_keeps (·.pending) (fun t i => by simp) s
  all_goals rfl

/-- A port after a soft reset: its condition set emptied, the rest as it was (R179). -/
theorem port_softReset (s : State) (q : Port) : s.softReset.port q = { s.port q with conds := 0 } := by
  have hp : ∀ r, s.freeAll.port r = s.port r := port_congr (freeAll_keeps (·.ports) (fun t i => by simp) s)
  have he : ∀ r, s.freeAll.emptyTables.port r = s.port r := hp
  unfold softReset clearConds
  cases q <;> simp [he]

/-- A sweep after a soft reset (R161). -/
theorem sweepOf_softReset (s : State) (q : Port) :
    s.softReset.sweepOf q = { s.sweepOf q with state := .idle, stopReason := .reset } := by
  have hs : ∀ r, s.freeAll.sweepOf r = s.sweepOf r := sweepOf_congr (freeAll_keeps (·.sweeps) (fun t i => by simp) s)
  rw [← hs]
  cases q <;> rfl

theorem queueOf_softReset (s : State) (q : Port) : s.softReset.queueOf q = [] := by cases q <;> rfl

/-- Every record after a soft reset. -/
theorem ctx_softReset (s : State) (h : s.canonical = true) (i : Nat) : s.softReset.ctx i =
    if (s.ctx i).state = .free then s.ctx i
    else { (s.ctx i).released with state := .free, gen := (s.ctx i).gen + 1, conds := 0 } := by
  rw [ctx_congr (softReset_ctxs s)]
  unfold freeAll
  rw [(foldl_enterFree_spec _ s (liveContexts_nodup s h)).1]
  by_cases hf : (s.ctx i).state = .free
  · rw [if_neg fun hl => (mem_liveContexts s i).1 hl hf, if_pos hf]
  · rw [if_pos ((mem_liveContexts s i).2 hf), if_neg hf]

theorem reserved_softReset (s : State) (h : s.canonical = true) (ha : s.accountMatches) : s.softReset.reserved = 0 := by
  have hr : s.softReset.reserved = s.reserved - (s.liveContexts.map s.reservation).sum :=
    (foldl_enterFree_spec _ s (liveContexts_nodup s h)).2.1
  rw [hr, reserved_eq_sum ha, Nat.sub_self]

theorem profile_softReset (s : State) (h : s.canonical = true) (hr : s.recordsMatch) (hf : s.refsMatch) (n : Nat) :
    s.softReset.profile n = ⟨(s.profile n).state, 0⟩ := by
  obtain ⟨-, -, hprofile, -⟩ := foldl_enterFree_spec _ s (liveContexts_nodup s h)
  have hp : s.softReset.profile n = { s.profile n with
      refs := (s.profile n).refs - (s.liveContexts.filter fun i => decide ((s.ctx i).profile = some n)).length } :=
    hprofile n
  rw [hp, refs_eq_length hr hf, Nat.sub_self]

theorem laneState_softReset (s : State) (h : s.canonical = true) (n : Nat) :
    (s.softReset.lane n).state = (s.lane n).state := by
  obtain ⟨-, -, -, hlane⟩ := foldl_enterFree_spec _ s (liveContexts_nodup s h)
  exact (hlane n).1

theorem lane_softReset (s : State) (h : s.canonical = true) (hr : s.recordsMatch) (hl : s.lanesMatch) (n : Nat)
    (hn : n < 8) : s.softReset.lane n = ⟨(s.lane n).state, none⟩ := by
  obtain ⟨-, -, -, hlane⟩ := foldl_enterFree_spec _ s (liveContexts_nodup s h)
  have hi : (s.softReset.lane n).inHand = (s.lane n).inHand.filter (· ∉ s.liveContexts) := (hlane n).2 hn
  rw [inHand_live hr hl] at hi
  rw [← laneState_softReset s h n, ← hi]

end State

theorem resetOrder_soft (p : Port) (s : State) :
    resetOrder p [0] s = ⟨.ok, .freed s.liveContexts.length, s.softReset⟩ := by
  simp [resetOrder]

/-- Settles O12: the invariants hold in `u` as in `s`, so what the contexts in use hold is all that is held, and
nothing stays held when each of them is freed. -/
theorem softResetFreesEveryContext : Obligations.SoftResetFreesEveryContext := by
  intro p tag s u hs hcoh hu
  obtain ⟨hcan, hrec, -, -, hrefs, -, hacc, hlanes, -, -⟩ := hcoh
  have hcan : u.canonical = true := hu ▸ canonical_atOrder s p 0x05 hcan
  have hrec : u.recordsMatch := hu ▸ recordsMatch_atOrder hrec p 0x05
  have hrefs : u.refsMatch := hu ▸ refsMatch_atOrder hrefs p 0x05
  have hacc : u.accountMatches := hu ▸ accountMatches_atOrder hacc p 0x05
  have hlanes : u.lanesMatch := hu ▸ lanesMatch_atOrder hlanes p 0x05
  have ht : takeOrder p .reset [0] u = ⟨.ok, .freed u.liveContexts.length, u.softReset⟩ := resetOrder_soft p u
  have hctx : ∀ i, (respond p OrderCode.reset.byte tag ⟨.ok, .freed u.liveContexts.length, u.softReset⟩).ctx i =
      if (u.ctx i).state = .free then u.ctx i
      else { (u.ctx i).released with state := .free, gen := (u.ctx i).gen + 1, conds := 0 } := ctx_softReset u hcan
  have hprofile := profile_softReset u hcan hrec hrefs
  have hframe := softReset_frame u
  refine ⟨_, exec_eq_respond rfl (by decide) hs hu ht, fun i => ?_, fun i hf => ?_, fun i hf => ?_,
    ⟨u.liveContexts, liveContexts_nodup u hcan, mem_liveContexts u, ?_, ?_⟩, reserved_softReset u hcan hacc, hprofile,
    lane_softReset u hcan hrec hlanes, fun n => ⟨rfl, rfl, rfl, ?_, laneState_softReset u hcan n⟩, fun q => ?_,
    ?_, ?_, ?_, ?_, ?_, ?_, ?_, ?_⟩
  · rw [hctx]
    by_cases hf : (u.ctx i).state = .free
    · simp [hf, conds_of_free hrec i hf, work_of_free hrec i hf]
    · simp [hf, Ctx.released]
  · rw [hctx, if_pos hf]
  · rw [hctx, if_neg hf]; rfl
  · rw [port_respond, if_pos rfl, port_softReset]; rfl
  · rw [port_respond, if_neg (by simp), port_softReset]
  · show (u.softReset.profile n).state = (u.profile n).state
    rw [hprofile]
  · by_cases hq : q = p
    · subst hq
      rw [port_respond, if_pos rfl, port_softReset]
      exact ⟨queueOf_softReset u q, rfl, rfl, rfl, sweepOf_softReset u q⟩
    · rw [port_respond, if_neg hq, port_softReset]
      exact ⟨queueOf_softReset u q, rfl, rfl, rfl, sweepOf_softReset u q⟩
  all_goals rw [respond_frame, hframe]

end Sys2Proof.Machine
end

section
/-! SUPPORT. The binding orders of chapter 2, each from the state in which it is taken (R31 to R35): what BIND_SLOT,
UNBIND_SLOT, BIND_STREAM, UNBIND_STREAM and RELINK yield, and what they leave in the two maps. -/

namespace Sys2Proof.Machine

open State

/-! ### The slot map and the blocks (R27, R29, R31) -/

namespace State

theorem slotEntry_releaseSlot (s : State) (b : Option SlotBinding) (n : Nat) :
    (s.releaseSlot b).slotEntry n = if b.map SlotBinding.slot = some n then none else s.slotEntry n := by
  cases b with
  | none => rfl
  | some b => simp [releaseSlot, eq_comm]

theorem releaseSlot_frame (s : State) (b : Option SlotBinding) : s.releaseSlot b = { s with
    slotMap := (s.releaseSlot b).slotMap, blocks := (s.releaseSlot b).blocks } := by cases b <;> rfl

end State

/-- The slot a context leaves is the one it holds, unless that is the slot it binds to. -/
theorem slotLeft_slot (c : Ctx) (n : Nat) :
    (c.slotLeft n).map SlotBinding.slot = (c.slot.map SlotBinding.slot).filter (· ≠ n) := by
  unfold Ctx.slotLeft
  cases c.slot with
  | none => rfl
  | some b => by_cases h : b.slot = n <;> simp [h, Option.filter]

/-- A number other than the new slot's is that of the slot left where it is that of the slot held. -/
theorem slotLeft_slot_iff (c : Ctx) (n m : Nat) (h : m ≠ n) :
    (c.slotLeft n).map SlotBinding.slot = some m ↔ c.slot.map SlotBinding.slot = some m := by
  rw [slotLeft_slot, Option.filter_eq_some_iff]
  simp [h]

theorem ctx_takeSlot (i n : Nat) (law : Law) (u : State) (j : Nat) :
    (takeSlot i n law u).ctx j = if j = i then { u.ctx i with slot := some ⟨n, law⟩ } else u.ctx j := by
  have h : ∀ k, (((u.releaseSlot ((u.ctx i).slotLeft n)).setSlotEntry n (some i)).setBlock n ⟨none, none, none⟩).ctx k =
      u.ctx k := ctx_congr (releaseSlot_ctxs ..)
  unfold takeSlot
  rw [ctx_modCtx, h, h]

/-- Every slot map entry after a context takes an empty one: an earlier slot's is emptied (R31). -/
theorem slotEntry_takeSlot (i n : Nat) (law : Law) (u : State) (m : Nat) :
    (takeSlot i n law u).slotEntry m = if m = n then some i
      else if (u.ctx i).slot.map SlotBinding.slot = some m then none else u.slotEntry m := by
  unfold takeSlot
  rw [modCtx_slotEntry, setBlock_slotEntry, slotEntry_setSlotEntry]
  by_cases h : m = n
  · rw [if_pos h, if_pos h]
  · rw [if_neg h, if_neg h, slotEntry_releaseSlot]
    simp only [slotLeft_slot_iff _ n m h]

/-- Every slot's blocks after a context takes an empty entry: the new slot and the slot left have none (R26, R27). -/
theorem block_takeSlot (i n : Nat) (law : Law) (u : State) (m : Nat) :
    (takeSlot i n law u).block m = if m = n ∨ (u.ctx i).slot.map SlotBinding.slot = some m then ⟨none, none, none⟩
      else u.block m := by
  unfold takeSlot
  rw [modCtx_block, block_setBlock, setSlotEntry_block]
  by_cases h : m = n
  · rw [if_pos h, if_pos (Or.inl h)]
  · rw [if_neg h, block_releaseSlot]
    simp only [slotLeft_slot_iff _ n m h, h, false_or]

theorem takeSlot_frame (i n : Nat) (law : Law) (u : State) : takeSlot i n law u = { u with
    ctxs := (takeSlot i n law u).ctxs, slotMap := (takeSlot i n law u).slotMap,
    blocks := (takeSlot i n law u).blocks } := by
  unfold takeSlot
  rw [releaseSlot_frame]
  rfl

/-! ### BIND_SLOT (R31) -/

theorem lawOf_eq {l : Byte} {law : Law} (h : l = 0 ∧ law = .aLaw ∨ l = 1 ∧ law = .muLaw) : lawOf l = some law := by
  rcases h with ⟨rfl, rfl⟩ | ⟨rfl, rfl⟩ <;> rfl

theorem takeOrder_bindSlot {p : Port} {i0 i1 g n0 n1 l : Byte} {law : Law} {u : State} (h : Owned u p i0 i1 g)
    (hn : le16 n0 n1 ≤ 2047) (hl : lawOf l = some law) :
    takeOrder p .bindSlot [i0, i1, g, n0, n1, l] u = bindSlotTo (le16 i0 i1) (le16 n0 n1) law u := by
  refine (ownerChecked_fields p i0 i1 g _ (by simp [hn, hl]) u
    (fun i => bindSlotTo i (le16 n0 n1) ((lawOf l).getD .aLaw) u) h).trans ?_
  rw [hl]
  rfl

theorem bindSlotTo_empty {i n : Nat} {u : State} (law : Law) (h : (u.ctx i).state = .opened)
    (he : u.slotEntry n = none) : bindSlotTo i n law u =
      ⟨.ok, .slotBound n law (((u.ctx i).slot.map SlotBinding.slot).filter (· ≠ n)), takeSlot i n law u⟩ := by
  unfold bindSlotTo
  rw [if_neg (not_not.2 h), ← slotLeft_slot]
  simp only [he]

theorem bindSlotTo_own {i n : Nat} {u : State} (law : Law) (h : (u.ctx i).state = .opened)
    (he : u.slotEntry n = some i) : bindSlotTo i n law u =
      ⟨.ok, .slotBound n law none, u.modCtx i fun c => { c with slot := some ⟨n, law⟩ }⟩ := by
  unfold bindSlotTo
  rw [if_neg (not_not.2 h)]
  simp only [he, if_true]

theorem bindSlotTo_taken {i n j : Nat} {u : State} (law : Law) (h : (u.ctx i).state = .opened)
    (he : u.slotEntry n = some j) (hj : j ≠ i) : bindSlotTo i n law u = refuse .slotTaken u := by
  unfold bindSlotTo
  rw [if_neg (not_not.2 h)]
  simp only [he, hj, if_false]

/-- Settles O21, by what the slot map entry holds. -/
theorem bindSlotFillsTheEntry : Obligations.BindSlotFillsTheEntry := by
  intro p tag i0 i1 g n0 n1 l law s u i n hs hu ho hi hn hle hl hst
  subst hi hn
  have ht := takeOrder_bindSlot ho hle (lawOf_eq hl)
  generalize le16 i0 i1 = i at *
  generalize le16 n0 n1 = n at *
  refine ⟨_, exec_eq_respond rfl (by decide) hs hu ht, fun he => ?_, fun he => ?_, fun j he hj => ?_⟩
  · rw [bindSlotTo_empty law hst he]
    have hf := takeSlot_frame i n law u
    refine ⟨(ctx_takeSlot i n law u i).trans (if_pos rfl), fun j hj => (ctx_takeSlot i n law u j).trans (if_neg hj),
      slotEntry_takeSlot i n law u, block_takeSlot i n law u, answered_respond u p _ tag _ (by rw [hf]), ?_⟩
    rw [respond_frame, hf]
  · rw [bindSlotTo_own law hst he]
    exact modCtx_respond u p _ tag _ i _
  · rw [bindSlotTo_taken law hst he hj]
    exact refused_respond u p _ tag _

/-! ### UNBIND_SLOT and UNBIND_STREAM (R32, R34) -/

theorem takeOrder_unbindSlot {p : Port} {i0 i1 g : Byte} {u : State} (h : Owned u p i0 i1 g) :
    takeOrder p .unbindSlot [i0, i1, g] u = unbindSlotOf (le16 i0 i1) u :=
  ownerChecked_eq p i0 i1 g u (fun i => unbindSlotOf i u) h

theorem takeOrder_unbindStream {p : Port} {i0 i1 g : Byte} {u : State} (h : Owned u p i0 i1 g) :
    takeOrder p .unbindStream [i0, i1, g] u = unbindStreamOf (le16 i0 i1) u :=
  ownerChecked_eq p i0 i1 g u (fun i => unbindStreamOf i u) h

theorem unbindSlotOf_some {i : Nat} {u : State} {b : SlotBinding} (h : (u.ctx i).state = .opened)
    (hb : (u.ctx i).slot = some b) : unbindSlotOf i u =
      ⟨.ok, .slotReleased (some b.slot), (u.releaseSlot (some b)).modCtx i fun c => { c with slot := none }⟩ := by
  unfold unbindSlotOf
  rw [if_neg (not_not.2 h)]
  simp only [hb]

theorem unbindSlotOf_none {i : Nat} {u : State} (h : (u.ctx i).state = .opened) (hb : (u.ctx i).slot = none) :
    unbindSlotOf i u = ⟨.ok, .slotReleased none, u⟩ := by
  unfold unbindSlotOf
  rw [if_neg (not_not.2 h)]
  simp only [hb]

theorem unbindStreamOf_some {i : Nat} {u : State} {k : StreamKey} (h : (u.ctx i).state = .opened)
    (hk : (u.ctx i).primary = some k) : unbindStreamOf i u =
      ⟨.ok, .streamReleased (some k), (u.removeStream k).modCtx i fun c => { c with primary := none }⟩ := by
  unfold unbindStreamOf
  rw [if_neg (not_not.2 h)]
  simp only [hk]

theorem unbindStreamOf_none {i : Nat} {u : State} (h : (u.ctx i).state = .opened) (hk : (u.ctx i).primary = none) :
    unbindStreamOf i u = ⟨.ok, .streamReleased none, u⟩ := by
  unfold unbindStreamOf
  rw [if_neg (not_not.2 h)]
  simp only [hk]

/-- A record changed after an operation that writes no record. -/
theorem ctx_modCtx_of_ctxs {u v : State} (h : v.ctxs = u.ctxs) (i j : Nat) (f : Ctx → Ctx) :
    (v.modCtx i f).ctx j = if j = i then f (u.ctx i) else u.ctx j := by
  rw [ctx_modCtx, ctx_congr h, ctx_congr h]

theorem State.removeStream_frame (s : State) (k : StreamKey) :
    s.removeStream k = { s with streamMap := (s.removeStream k).streamMap } := by
  unfold removeStream
  split <;> rfl

/-- Settles O22: each order by whether the context holds a binding. -/
theorem unbindEmptiesTheEntry : Obligations.UnbindEmptiesTheEntry := by
  intro p tag i0 i1 g s i hs hi
  subst hi
  refine ⟨fun u hu ho hst => ?_, fun u hu ho hst => ?_⟩
  · have ht := takeOrder_unbindSlot ho
    generalize le16 i0 i1 = i at *
    refine ⟨_, exec_eq_respond rfl (by decide) hs hu ht, ?_⟩
    cases hb : (u.ctx i).slot with
    | none =>
      rw [unbindSlotOf_none hst hb]
      refine ⟨?_, fun j _ => rfl, fun m => rfl, fun m => rfl, fun _ => rfl, answered_respond u p _ tag _ rfl, rfl⟩
      rw [← hb]
      rfl
    | some b =>
      rw [unbindSlotOf_some hst hb]
      have hc := ctx_modCtx_of_ctxs (releaseSlot_ctxs u (some b)) i (f := fun c => { c with slot := none })
      exact ⟨(hc i).trans (if_pos rfl), fun j hj => (hc j).trans (if_neg hj), slotEntry_releaseSlot u (some b),
        block_releaseSlot u (some b), fun h => (nomatch h), answered_respond u p _ tag _ rfl, rfl⟩
  · have ht := takeOrder_unbindStream ho
    generalize le16 i0 i1 = i at *
    refine ⟨_, exec_eq_respond rfl (by decide) hs hu ht, ?_⟩
    cases hk : (u.ctx i).primary with
    | none =>
      rw [unbindStreamOf_none hst hk]
      refine ⟨?_, fun j _ => rfl, fun m => rfl, fun _ => rfl, answered_respond u p _ tag _ rfl, rfl⟩
      rw [← hk]
      rfl
    | some k =>
      rw [unbindStreamOf_some hst hk]
      have hc := ctx_modCtx_of_ctxs (removeStream_ctxs u k) i (f := fun c => { c with primary := none })
      refine ⟨(hc i).trans (if_pos rfl), fun j hj => (hc j).trans (if_neg hj), streamEntry_removeStream u k,
        fun h => (nomatch h), answered_respond u p _ tag _ (by simp), ?_⟩
      rw [respond_frame, removeStream_frame]
      rfl

/-! ### The entry a primary key takes (R30, R33, R35) -/

/-- The number of the entry that holds the primary key of context `i`, which a new primary key vacates. -/
def State.vacatedEntry (u : State) (i : Nat) : Option Nat :=
  (u.ctx i).primary.bind fun k => (u.findStream k).map Prod.fst

/-- Entry `m` is the lowest-numbered empty one once the primary entry of context `i` is removed. -/
structure LowestVacant (u : State) (i m : Nat) : Prop where
  inRange : m < 4096
  vacant : u.streamEntry m = none ∨ u.vacatedEntry i = some m
  lowest : ∀ j, j < m → u.streamEntry j ≠ none ∧ u.vacatedEntry i ≠ some j

theorem streamEntry_removePrimary (u : State) (i m : Nat) : (u.removeStream? (u.ctx i).primary).streamEntry m =
    if u.vacatedEntry i = some m then none else u.streamEntry m := streamEntry_removeStream? _ _ _

theorem placedEntry_eq {u : State} {i m : Nat} (h : LowestVacant u i m) : placedEntry i u = m := by
  obtain ⟨hm, hv, hl⟩ := h
  refine lowestStream_eq _ m hm ?_ fun j hj => ?_
  · rw [streamEntry_removePrimary]
    rcases hv with hv | hv <;> simp [hv]
  · obtain ⟨h1, h2⟩ := hl j hj
    rw [streamEntry_removePrimary, if_neg h2]
    exact h1

theorem ctx_placePrimary (i : Nat) (k : StreamKey) (u : State) (j : Nat) :
    (placePrimary i k u).ctx j = if j = i then { u.ctx i with primary := some k } else u.ctx j :=
  ctx_modCtx_of_ctxs (by simp) i j _

/-- Every stream map entry after a primary key is placed: the key's own, the vacated one, the others. -/
theorem streamEntry_placePrimary (i : Nat) (k : StreamKey) (u : State) (j : Nat) : (placePrimary i k u).streamEntry j =
    if j = placedEntry i u then some ⟨k, i, .primary⟩ else if u.vacatedEntry i = some j then none
      else u.streamEntry j := by
  unfold placePrimary
  rw [modCtx_streamEntry, streamEntry_addStream, streamEntry_removePrimary]
  rfl

theorem placePrimary_frame (i : Nat) (k : StreamKey) (u : State) : placePrimary i k u = { u with
    ctxs := (placePrimary i k u).ctxs, streamMap := (placePrimary i k u).streamMap } := by
  apply eq_of_fields <;> simp [placePrimary]

/-- An order that places a primary key is answered, and changes one record and the stream map alone. -/
theorem placePrimary_respond {u : State} {i m : Nat} (h : LowestVacant u i m) (p : Port) (code tag : Byte)
    (b : RespBody) (k : StreamKey) (t : State) (ht : t = respond p code tag ⟨.ok, b, placePrimary i k u⟩) :
    t.ctx i = { u.ctx i with primary := some k } ∧ OnlyCtx u t i ∧
      (∀ j, t.streamEntry j = if j = m then some ⟨k, i, .primary⟩ else if u.vacatedEntry i = some j then none
        else u.streamEntry j) ∧
      Answered u t p code tag .ok b ∧ t = { u with ctxs := t.ctxs, streamMap := t.streamMap, ports := t.ports } := by
  subst ht
  have hf := placePrimary_frame i k u
  refine ⟨(ctx_placePrimary i k u i).trans (if_pos rfl), fun j hj => (ctx_placePrimary i k u j).trans (if_neg hj),
    fun j => ?_, answered_respond u p code tag _ (by rw [hf]), ?_⟩
  · rw [← placedEntry_eq h]
    exact streamEntry_placePrimary i k u j
  · rw [respond_frame, hf]

/-! ### BIND_STREAM (R33) -/

theorem takeOrder_bindStream {p : Port} {i0 i1 g l t0 t1 t2 : Byte} {u : State} (h : Owned u p i0 i1 g)
    (hl : l.toNat ≤ 3) (h1 : 1 ≤ le24 t0 t1 t2) (h2 : le24 t0 t1 t2 ≤ 1048575) :
    takeOrder p .bindStream [i0, i1, g, l, t0, t1, t2] u =
      bindStreamTo (le16 i0 i1) ⟨l.toNat, le24 t0 t1 t2⟩ u := by
  have hk : keyOf l t0 t1 t2 = some ⟨l.toNat, le24 t0 t1 t2⟩ := if_pos ⟨hl, h1, h2⟩
  refine (ownerChecked_fields p i0 i1 g _ (by rw [hk]; rfl) u
    (fun i => bindStreamTo i ((keyOf l t0 t1 t2).getD ⟨0, 0⟩) u) h).trans ?_
  rw [hk]
  rfl

theorem bindStreamTo_wrongState {i : Nat} {u : State} (k : StreamKey) (h : (u.ctx i).state ≠ .opened) :
    bindStreamTo i k u = refuse .wrongState u := if_pos h

theorem bindStreamTo_new {i : Nat} {u : State} {k : StreamKey} (h : (u.ctx i).state = .opened)
    (hf : u.findStream k = none) :
    bindStreamTo i k u = ⟨.ok, .streamBound (placedEntry i u) (u.ctx i).primary, placePrimary i k u⟩ := by
  unfold bindStreamTo
  rw [if_neg (not_not.2 h)]
  simp only [hf]

theorem bindStreamTo_held {i n : Nat} {u : State} {k : StreamKey} {e : StreamEntry} (h : (u.ctx i).state = .opened)
    (hf : u.findStream k = some (n, e)) : bindStreamTo i k u =
      if (u.ctx i).primary = some k then ⟨.ok, .streamBound n none, u⟩ else refuse .streamTaken u := by
  unfold bindStreamTo
  rw [if_neg (not_not.2 h)]
  simp only [hf]

/-- BIND_STREAM where it places no key changes nothing. -/
theorem bindStreamTo_after {i : Nat} {u : State} {k : StreamKey}
    (h : (u.ctx i).state ≠ .opened ∨ (u.findStream k).isSome = true) : (bindStreamTo i k u).after = u := by
  by_cases hst : (u.ctx i).state = .opened
  · obtain ⟨⟨n, e⟩, hf⟩ := Option.isSome_iff_exists.1 (h.resolve_left (not_not.2 hst))
    rw [bindStreamTo_held hst hf]
    split <;> rfl
  · rw [bindStreamTo_wrongState k hst]
    rfl

/-! ### RELINK (R35) -/

theorem takeOrder_relink {p : Port} {i0 i1 g l : Byte} {u : State} (h : Owned u p i0 i1 g) (hl : l.toNat ≤ 3) :
    takeOrder p .relink [i0, i1, g, l] u = relinkContext (le16 i0 i1) l.toNat u :=
  ownerChecked_fields p i0 i1 g _ (decide_eq_true hl) u (fun i => relinkContext i l.toNat u) h

theorem relinkContext_wrongState {i : Nat} {u : State} (link : Nat)
    (h : (u.ctx i).state = .closed ∨ (u.ctx i).handover.isSome = true ∨ (u.ctx i).primary = none) :
    relinkContext i link u = refuse .wrongState u := by
  unfold relinkContext
  split
  · rfl
  · next hn =>
    have hp : (u.ctx i).primary = none := by tauto
    rw [hp]

theorem relinkContext_primary {i : Nat} {u : State} {old : StreamKey} (link : Nat) (h : (u.ctx i).state ≠ .closed)
    (hh : (u.ctx i).handover = none) (hp : (u.ctx i).primary = some old) :
    relinkContext i link u = relinkFrom i link old u := by
  unfold relinkContext
  rw [if_neg (by simp [h, hh]), hp]

theorem relinkFrom_own {i n : Nat} {u : State} {old : StreamKey} {e : StreamEntry}
    (hf : u.findStream old = some (n, e)) : relinkFrom i old.link old u = ⟨.ok, .relinked old.link n, u⟩ := by
  unfold relinkFrom
  rw [if_pos rfl]
  simp only [entryOf, hf]

theorem relinkFrom_taken {i link : Nat} {u : State} {old : StreamKey} (hl : link ≠ old.link)
    (hf : (u.findStream ⟨link, old.tag⟩).isSome = true) : relinkFrom i link old u = refuse .streamTaken u := by
  obtain ⟨x, hx⟩ := Option.isSome_iff_exists.1 hf
  unfold relinkFrom
  rw [if_neg hl]
  simp only [hx]

theorem relinkFrom_new {i link : Nat} {u : State} {old : StreamKey} (hl : link ≠ old.link)
    (hf : u.findStream ⟨link, old.tag⟩ = none) : relinkFrom i link old u =
      ⟨.ok, .relinked old.link (placedEntry i u), placePrimary i ⟨link, old.tag⟩ u⟩ := by
  unfold relinkFrom
  rw [if_neg hl]
  simp only [hf]

/-- Settles O23: a key placed (`placePrimary_respond`), then the orders that place none. -/
theorem primaryKeyTakesLowestEntry : Obligations.PrimaryKeyTakesLowestEntry := by
  refine ⟨fun p tag i0 i1 g s i m hs hi hm => ⟨?_, ?_⟩, fun p tag i0 i1 g s i hs hi => ⟨?_, ?_, ?_⟩⟩
  · intro l t0 t1 t2 k u vacated hu ho hst hk hl h1 h2 hf hv hvac hlow
    subst hi hk hv
    have hm : LowestVacant u (le16 i0 i1) m := ⟨hm, hvac, hlow⟩
    have ht := (takeOrder_bindStream ho hl h1 h2).trans (bindStreamTo_new hst hf)
    rw [placedEntry_eq hm] at ht
    exact ⟨_, exec_eq_respond rfl (by decide) hs hu ht, placePrimary_respond hm p _ tag _ _ _ rfl⟩
  · intro l k old u vacated hu ho hst hh hp hl hne hk hf hv hvac hlow
    subst hi hk
    have hv : vacated = u.vacatedEntry (le16 i0 i1) := by rw [hv, vacatedEntry, hp]; rfl
    subst hv
    have hm : LowestVacant u (le16 i0 i1) m := ⟨hm, hvac, hlow⟩
    have ht := ((takeOrder_relink ho hl).trans (relinkContext_primary _ hst hh hp)).trans (relinkFrom_new hne hf)
    rw [placedEntry_eq hm] at ht
    exact ⟨_, exec_eq_respond rfl (by decide) hs hu ht, placePrimary_respond hm p _ tag _ _ _ rfl⟩
  · intro l t0 t1 t2 k u hu ho hk hl h1 h2 hnone
    subst hi hk
    have ht := takeOrder_bindStream ho hl h1 h2
    have ha := bindStreamTo_after hnone
    refine ⟨_, exec_eq_respond rfl (by decide) hs hu ht, by rw [respond_frame, ha], fun hst => ?_,
      fun n e hst hf => ⟨fun hp => ?_, fun hp => ?_⟩⟩
    · rw [bindStreamTo_wrongState _ hst]
      exact answered_respond u p _ tag _ rfl
    · rw [bindStreamTo_held hst hf, if_pos hp]
      exact answered_respond u p _ tag _ rfl
    · rw [bindStreamTo_held hst hf, if_neg hp]
      exact answered_respond u p _ tag _ rfl
  · intro l u hu ho hl hw
    subst hi
    have ht := (takeOrder_relink ho hl).trans (relinkContext_wrongState _ hw)
    exact ⟨_, exec_eq_respond rfl (by decide) hs hu ht, (refused_respond u p _ tag _).symm⟩
  · intro l old u hu ho hl hst hh hp
    subst hi
    have ht := (takeOrder_relink ho hl).trans (relinkContext_primary _ hst hh hp)
    refine ⟨fun n e hlink hf => ?_, fun hlink hf => ?_⟩
    · rw [hlink, relinkFrom_own hf] at ht
      exact ⟨_, exec_eq_respond rfl (by decide) hs hu ht, read_respond u p _ tag _⟩
    · rw [relinkFrom_taken hlink hf] at ht
      exact ⟨_, exec_eq_respond rfl (by decide) hs hu ht, (refused_respond u p _ tag _).symm⟩

end Sys2Proof.Machine
end

section
/-! SUPPORT. Cells that reach no playout queue (R37 to R39): malformed ones, misses, and those at contexts that do not
convert. -/

namespace Sys2Proof.Machine

open State

/-- With the reset pin released a command's effect takes place (R177). -/
theorem runs_released {s : State} (t : State) (h : s.pinHeld = false) : runs s t = .next t := by
  unfold runs
  rw [h]
  rfl

/-- A link frame shorter than a header has none (R188). -/
theorem parseCell_short {link : Nat} {bytes : List Byte} (h : bytes.length < 8) : parseCell link bytes = none := by
  unfold parseCell
  split
  · simp only [List.length_cons] at h
    omega
  · rfl

/-- The three ways a link frame is malformed: too short, too long, or at odds with its own header (R37). -/
theorem wellFormedCell_malformed {link : Nat} {bytes : List Byte}
    (h : bytes.length < 8 ∨ 88 < bytes.length ∨
      ∃ c, parseCell link bytes = some c ∧ (bytes.length ≠ 8 + c.length ∨ c.tag = 0)) :
    wellFormedCell link bytes = none := by
  unfold wellFormedCell
  cases hp : parseCell link bytes with
  | none => rfl
  | some c =>
    refine if_neg fun ⟨hmax, hlen, htag⟩ => ?_
    rcases h with h | h | ⟨d, hd, h⟩
    · rw [parseCell_short h] at hp
      cases hp
    · omega
    · cases hp.symm.trans hd
      exact h.elim (absurd hlen) fun h => htag h

theorem intake_malformed {s : State} {link : Nat} {bytes : List Byte} (h : wellFormedCell link bytes = none) :
    s.intake link bytes = s.count .cellMiss none := by
  unfold intake
  rw [h]

theorem intake_unknown {s : State} {link : Nat} {bytes : List Byte} {c : InCell}
    (h : wellFormedCell link bytes = some c) (hf : s.findStream ⟨link, c.tag⟩ = none) :
    s.intake link bytes = s.count .cellMiss none := by
  have hk : c.key = ⟨link, c.tag⟩ := by rw [← link_of_wellFormedCell h]; rfl
  unfold intake
  rw [h]
  simp only [hk, hf]

/-- A cell at a context that does not convert is counted CELL_IDLE for it (R39). -/
theorem dispatch_idle {s : State} {i : Nat} (c : InCell) (h : (s.ctx i).state = .opened ∨ (s.ctx i).state = .held) :
    s.dispatch i c = s.countFor .cellIdle i := by
  unfold dispatch
  rcases h with h | h <;> rw [h]

/-- Settles O46, by how far each cell comes: intake, the stream map, the context's state. -/
theorem cellsThatDoNotReachAQueue : Obligations.CellsThatDoNotReachAQueue := by
  intro link bytes s hp
  have hexec : exec (.cellArrival link bytes) s = .next (s.intake link.val bytes) := runs_released _ hp
  refine ⟨fun h => ?_, fun c hw hf => ?_, fun c n e hw hf hr hst => ?_⟩
  · rw [hexec, intake_malformed (wellFormedCell_malformed h)]
    rfl
  · rw [hexec, intake_unknown hw hf]
    rfl
  · rw [exec_cellArrival hp hw hf hr (link_of_wellFormedCell hw), dispatch_idle c hst]
    rfl

end Sys2Proof.Machine
end

section
/-! SUPPORT. The completion of a work (R28, R86, R87, R89, R90, R92): what it leaves of the links, the lanes and the
record, and the samples its ready block is made of. -/

namespace Sys2Proof.Machine

open State

namespace State

/-! ### What a completion may write -/

/-- From `s` to `t` nothing changed but the records, the links, the lanes, the attention queues, the tallies and the
draw counter. -/
def CompletionFrame (s t : State) : Prop := t = { s with
  ctxs := t.ctxs, links := t.links, lanes := t.lanes, attention := t.attention, tally0 := t.tally0,
  tally1 := t.tally1, freeCount := t.freeCount }

theorem CompletionFrame.trans {s t u : State} (h : CompletionFrame s t) (h' : CompletionFrame t u) :
    CompletionFrame s u := by
  unfold CompletionFrame at h h'
  exact h'.trans (by rw [h])

theorem completionFrame_sendCellOpt (s : State) (i : Nat) (w : Work) (payload : List Byte) (k : Option StreamKey) :
    CompletionFrame s (s.sendCell? i w payload k) := by cases k <;> rfl

theorem completionFrame_reportClip (s : State) (i : Nat) (w : Work) (b : Bool) :
    CompletionFrame s (s.reportClip i w b) := by
  cases b with
  | false => rfl
  | true => apply eq_of_fields <;> simp [reportClip]

theorem completionFrame_complete (s : State) (n i : Nat) (w : Work) : CompletionFrame s (s.complete n i w) := by
  have hlane : CompletionFrame s (s.setLane n { s.lane n with inHand := none }) := rfl
  have hsend := (hlane.trans (completionFrame_sendCellOpt _ i w (w.payload (s.ctx i).law s.freeCount) w.primary)).trans
    (completionFrame_sendCellOpt _ i w (w.payload (s.ctx i).law s.freeCount) w.bicast)
  have hctx := hsend.trans (u := State.modCtx _ i fun c => c.completed w s.freeCount) rfl
  exact (hctx.trans (completionFrame_reportClip _ i w (w.clipping s.freeCount))).trans rfl

/-! ### Links, lanes and records -/

/-- A cell handed to a link joins its tail; no other link changes (R28). -/
theorem link_sendCell (s : State) (i : Nat) (w : Work) (payload : List Byte) (k : StreamKey) (l : Nat) :
    (s.sendCell i w payload k).link l =
      s.link l ++ if l = k.link then [⟨k.tag, w.rate, w.outSeq, payload⟩] else [] := by
  refine (link_setLink s k.link l _).trans ?_
  by_cases h : l = k.link
  · rw [if_pos h, if_pos h, h]
  · rw [if_neg h, if_neg h, List.append_nil]

theorem sendCellOpt_ctxs (s : State) (i : Nat) (w : Work) (payload : List Byte) (k : Option StreamKey) :
    (s.sendCell? i w payload k).ctxs = s.ctxs := by cases k <;> rfl

theorem sendCellOpt_lanes (s : State) (i : Nat) (w : Work) (payload : List Byte) (k : Option StreamKey) :
    (s.sendCell? i w payload k).lanes = s.lanes := by cases k <;> rfl

theorem reportClip_links (s : State) (i : Nat) (w : Work) (b : Bool) : (s.reportClip i w b).links = s.links := by
  cases b with
  | false => rfl
  | true => exact raiseIf_links ..

theorem reportClip_lanes (s : State) (i : Nat) (w : Work) (b : Bool) : (s.reportClip i w b).lanes = s.lanes := by
  cases b with
  | false => rfl
  | true => exact raiseIf_lanes ..

/-- CLIPPING is raised for a clipping work whose reporting flag is on (R92). -/
theorem ctx_reportClip (s : State) (i j : Nat) (w : Work) (b : Bool) :
    (s.reportClip i w b).ctx j =
      if (b = true ∧ w.clipReport = true) ∧ j = i then { s.ctx i with conds := (s.ctx i).conds.add .clipping }
      else s.ctx j := by
  cases b with
  | false => simp [reportClip]
  | true =>
    refine (ctx_raiseIf (s.countFor .clipPeriod i) w.clipReport i j .clipping).trans ?_
    simp only [ctx_congr (countFor_ctxs s .clipPeriod i), true_and]

/-- The links after a completion: the primary key's cell first, then the bicast key's (R28, R86). -/
theorem link_complete (s : State) (n i : Nat) (w : Work) (l : Nat) : (s.complete n i w).link l =
    (((s.setLane n { s.lane n with inHand := none }).sendCell? i w (w.payload (s.ctx i).law s.freeCount)
      w.primary).sendCell? i w (w.payload (s.ctx i).law s.freeCount) w.bicast).link l :=
  link_congr (reportClip_links ..) l

theorem lane_complete (s : State) (n i m : Nat) (w : Work) :
    (s.complete n i w).lane m = if m = n then { s.lane n with inHand := none } else s.lane m := by
  have h : (s.complete n i w).lanes = (s.setLane n { s.lane n with inHand := none }).lanes :=
    (reportClip_lanes ..).trans ((sendCellOpt_lanes ..).trans (sendCellOpt_lanes ..))
  rw [lane_congr h, lane_setLane]

/-- Every record after a completion (R86, R92). -/
theorem ctx_complete (s : State) (n i j : Nat) (w : Work) : (s.complete n i w).ctx j =
    if j = i then
      { (s.ctx i).completed w s.freeCount with
        conds := if w.clipping s.freeCount = true ∧ w.clipReport = true then (s.ctx i).conds.add .clipping
          else (s.ctx i).conds }
    else s.ctx j := by
  have hsent : ∀ k, (((s.setLane n { s.lane n with inHand := none }).sendCell? i w
      (w.payload (s.ctx i).law s.freeCount) w.primary).sendCell? i w (w.payload (s.ctx i).law s.freeCount)
      w.bicast).ctx k = s.ctx k := ctx_congr ((sendCellOpt_ctxs ..).trans (sendCellOpt_ctxs ..))
  unfold complete
  rw [drawn_ctx, ctx_reportClip, ctx_modCtx, ctx_modCtx, hsent, hsent, if_pos rfl]
  by_cases hj : j = i
  · by_cases hc : w.clipping s.freeCount = true ∧ w.clipReport = true
    · rw [if_pos ⟨hc, hj⟩, if_pos hj, if_pos hc]
      rfl
    · rw [if_neg fun h => hc h.1, if_pos hj, if_pos hj, if_neg hc]
      rfl
  · rw [if_neg fun h => hj h.2, if_neg hj, if_neg hj]

theorem finishWork_eq {s : State} {n i : Nat} {w : Work} (hi : (s.lane n).inHand = some i)
    (hw : (s.ctx i).work = some w) : s.finishWork n = s.complete n i w := by
  unfold finishWork
  simp only [hi, hw]

end State

/-! ### Samples and the ready block (R87, R90, R92) -/

/-- Samples of a frame that are 16-bit values. -/
theorem drawnSamples_spec (f : Nat → BitVec 16) :
    ((List.range Config.periodFrames).map fun k => (f k).toInt).length = 160 ∧
      ∀ x ∈ (List.range Config.periodFrames).map fun k => (f k).toInt, -32768 ≤ x ∧ x ≤ 32767 := by
  refine ⟨by simp [Config.periodFrames], fun x hx => ?_⟩
  obtain ⟨k, -, rfl⟩ := List.mem_map.1 hx
  have hl := BitVec.le_toInt (f k)
  have hu := BitVec.toInt_lt (x := f k)
  omega

/-- The samples of a work that has any: 160 16-bit values, each 0 in silence (R90). -/
theorem samples_spec (w : Work) (draw : Nat) (h : w.uplink ≠ .noSamples) : ∃ l, w.samples draw = some l ∧
    l.length = 160 ∧ (∀ x ∈ l, -32768 ≤ x ∧ x ≤ 32767) ∧ (w.uplink = .silence → ∀ x ∈ l, x = 0) := by
  unfold Work.samples
  cases hu : w.uplink with
  | noSamples => exact absurd hu h
  | silence =>
    have hz : ∀ x ∈ List.replicate Config.periodFrames (0 : Int), x = 0 := fun x hx => List.eq_of_mem_replicate hx
    exact ⟨_, rfl, List.length_replicate, fun x hx => by rw [hz x hx]; decide, fun _ => hz⟩
  | speech r p =>
    obtain ⟨hl, hb⟩ := drawnSamples_spec fun k => Config.uplinkSample draw w.family.code 0 r p w.history k
    exact ⟨_, rfl, hl, hb, nofun⟩
  | noise d =>
    obtain ⟨hl, hb⟩ := drawnSamples_spec fun k => Config.uplinkSample draw w.family.code 1 0 d w.history k
    exact ⟨_, rfl, hl, hb, nofun⟩
  | conceal =>
    obtain ⟨hl, hb⟩ := drawnSamples_spec fun k => Config.uplinkSample draw w.family.code 2 0 [] w.history k
    exact ⟨_, rfl, hl, hb, nofun⟩

theorem clipping_iff {w : Work} {draw : Nat} {l : List Int} (h : w.samples draw = some l) :
    w.clipping draw = true ↔ ∃ x ∈ l, scale w.gainLand x < -32768 ∨ 32767 < scale w.gainLand x := by
  unfold Work.clipping Work.scaled
  rw [h]
  simp [clips, or_comm]

theorem readyBlock_eq {w : Work} {draw : Nat} {l : List Int} (law : Law) (h : w.samples draw = some l) :
    w.readyBlock law draw = some (l.map fun x => law.compress w.round (limit (scale w.gainLand x))) := by
  unfold Work.readyBlock Work.scaled
  rw [h]
  simp [Function.comp_def]

/-- The samples of a work, compressed, become the ready block (R87). -/
theorem ready_completed {w : Work} {draw : Nat} {l : List Int} (c : Ctx) (h : w.samples draw = some l) :
    (c.completed w draw).ready = some (l.map fun x => c.law.compress w.round (limit (scale w.gainLand x))) := by
  simp only [Ctx.completed, readyBlock_eq c.law h]

/-- A work without samples clips in none and leaves the ready block and the clip count as they are. -/
theorem completed_noSamples {w : Work} (c : Ctx) (draw : Nat) (h : w.uplink = .noSamples) :
    w.clipping draw = false ∧ (c.completed w draw).ready = c.ready ∧
      (c.completed w draw).counters.clipPeriods = c.counters.clipPeriods := by
  have hs : w.samples draw = none := by unfold Work.samples; rw [h]
  simp [Ctx.completed, Work.clipping, Work.readyBlock, Work.scaled, hs]

/-! ### The payload (R89, R90) -/

theorem length_payload (w : Work) (law : Law) (draw : Nat) : (w.payload law draw).length = w.length := by
  simp [Work.payload]

theorem length_downlinkLevels (w : Work) (law : Law) : (w.downlinkLevels law).length = 160 := by
  simp [Work.downlinkLevels, Config.periodFrames]

/-- The encoder's samples: the codes expanded, 0 where there is none, scaled and limited (R89). -/
theorem getElem?_downlinkLevels (w : Work) (law : Law) (k : Nat) (h : k < 160) : (w.downlinkLevels law)[k]? =
    some (limit (scale w.gainMobile (((w.landline[k]?).map law.expand).getD 0))) := by
  unfold Work.downlinkLevels
  rw [List.getElem?_map, List.getElem?_range (by simpa [Config.periodFrames] using h)]
  cases hb : w.landline[k]? <;> simp [hb]

theorem add_clipping (x : CondSet) : x.add .clipping = x ||| 0x400#12 := congrArg (x ||| ·) (by decide)

/-! ### The departure of a cell (R28) -/

theorem cellSent_cons {s : State} {l : Nat} {c : OutCell} {rest : List OutCell} (h : s.link l = c :: rest) :
    s.cellSent l = s.setLink l rest := by
  unfold cellSent
  rw [h]

end Sys2Proof.Machine
end

section
/-! SUPPORT. Scaling, limiting, expansion and compression as R89, R91, R92 and R93 name them. -/

namespace Sys2Proof.Machine

/-- Scaling multiplies by 10 raised to a 20th of the gain and rounds to the nearest integer (R89, R92). -/
theorem scale_spec (g x : Int) (hg : g ≤ 12) (hl : -32768 ≤ x) (hu : x ≤ 32767) :
    ((scale g x).natAbs : ℝ) - 1 / 2 ≤ x.natAbs * (10 : ℝ) ^ ((g : ℝ) / 20) ∧
      (x.natAbs : ℝ) * (10 : ℝ) ^ ((g : ℝ) / 20) < (scale g x).natAbs + 1 / 2 ∧
      (0 ≤ x → 0 ≤ scale g x) ∧ (x ≤ 0 → scale g x ≤ 0) := by
  obtain ⟨habs, hsign⟩ := natAbs_scale g x
  obtain ⟨hlow, hhigh⟩ := scaleMagnitude_spec g x.natAbs hg (by omega)
  rw [habs]
  exact ⟨hlow, hhigh, hsign⟩

theorem limit_eq (x : Int) : limit x = max (-32768) (min 32767 x) := by
  unfold limit
  split
  · omega
  · split <;> omega

/-- The level of a positive code and of a negative one, by segment and step (R91). -/
theorem expand_segment (l : Law) (q s : Nat) (hq : q < 16) (hs : s < 8) :
    l.expand (BitVec.ofNat 8 (128 + 16 * s + q) ^^^ l.pattern) = (l.level (16 * s + q) : Int) ∧
      l.expand (BitVec.ofNat 8 (16 * s + q) ^^^ l.pattern) = -(l.level (16 * s + q) : Int) := by
  have hp := expand_byteOf l ⟨true, 16 * s + q⟩ (show 16 * s + q < 128 by omega)
  have hn := expand_byteOf l ⟨false, 16 * s + q⟩ (show 16 * s + q < 128 by omega)
  simp only [Law.byteOf, Code.level, if_true, Bool.false_eq_true, if_false, Nat.zero_add, ← Nat.add_assoc] at hp hn
  exact ⟨hp, hn⟩

theorem level_aLaw (q s : Nat) (hq : q < 16) : Law.level .aLaw (16 * s + q) =
    if s = 0 then 8 * (2 * q + 1) else 8 * (2 * q + 33) * 2 ^ (s - 1) := by
  have hd : (16 * s + q) / 16 = s := by omega
  have hm : (16 * s + q) % 16 = q := by omega
  simp only [Law.level, hd, hm]

theorem level_muLaw (q s : Nat) (hq : q < 16) :
    (Law.level .muLaw (16 * s + q) : Int) = 4 * ((2 * q + 33) * 2 ^ s - 33) := by
  have hd : (16 * s + q) / 16 = s := by omega
  have hm : (16 * s + q) % 16 = q := by omega
  have hle : 33 ≤ (2 * q + 33) * 2 ^ s :=
    (Nat.le_add_left 33 (2 * q)).trans (Nat.le_mul_of_pos_right _ (Nat.two_pow_pos s))
  simp only [Law.level, hd, hm]
  push_cast [Nat.cast_sub hle]
  ring

/-- The bits a law inverts, as the manual prints them. -/
theorem pattern_eq {l : Law} {pattern : Byte} (h : l = .aLaw ∧ pattern = 0x55 ∨ l = .muLaw ∧ pattern = 0x7F) :
    pattern = l.pattern := by
  rcases h with ⟨rfl, rfl⟩ | ⟨rfl, rfl⟩ <;> rfl

/-- The byte of the largest code of a sign. -/
theorem byteOf_largest (l : Law) (x : Int) :
    l.byteOf (decide (0 ≤ x)) 127 = (if 0 ≤ x then 0xFF else 0x7F) ^^^ l.pattern := by
  by_cases h : 0 ≤ x <;> simp [Law.byteOf, h]

/-! ### The statement -/

open State

/-- Settles O41: a completion read off `complete`, the departure of a cell, then the arithmetic. -/
theorem workCompletionSendsItsCell : Obligations.WorkCompletionSendsItsCell := by
  refine ⟨?_, ?_, fun g x _ hg hl hu => scale_spec g x hg hl hu, limit_eq, fun q s hq hs => ?_,
    fun l pattern mode x hp => ?_⟩
  · intro n s i w k hp hi hw hk
    have hexec : exec (.workCompletion n) s = .next (s.complete n.val i w) :=
      (runs_released _ hp).trans (by rw [finishWork_eq hi hw])
    have hc := (ctx_complete s n.val i i w).trans (if_pos rfl)
    have hcount := (tallied_complete s n.val i w).counted
    have hlink := link_complete s n.val i w
    rw [hk] at hcount hlink
    refine ⟨_, w.payload (s.ctx i).law s.freeCount, hexec, length_payload w _ _, fun hb l => ?_, fun k' hb l => ?_,
      by rw [hc]; rfl, by rw [hc]; rfl, by rw [hc]; rfl,
      ⟨w.downlinkLevels (s.ctx i).law, length_downlinkLevels w _, getElem?_downlinkLevels w _, rfl⟩, fun hu => ?_,
      fun hu => ?_, fun hu => ?_, by rw [hc]; rfl, by rw [hc]; rfl,
      fun j hj => (ctx_complete s n.val i j w).trans (if_neg hj), (lane_complete s n.val i n.val w).trans (if_pos rfl),
      fun m hm => (lane_complete s n.val i m w).trans (if_neg hm), completionFrame_complete s n.val i w⟩
    · rw [hlink, hb]
      exact link_sendCell _ i w _ k l
    · rw [hlink, hb]
      exact (link_sendCell _ i w _ k' l).trans (congrArg (· ++ _) (link_sendCell _ i w _ k l))
    · obtain ⟨hclip, hready, hperiods⟩ := completed_noSamples (s.ctx i) s.freeCount hu
      rw [hclip] at hc hcount
      rw [hc]
      exact ⟨hready, by simp, hperiods, by simpa using hcount⟩
    · obtain ⟨l, hl, hlen, hbound, hsilence⟩ := samples_spec w s.freeCount hu
      rw [hc, ← add_clipping]
      exact ⟨l, w.clipping s.freeCount, hlen, hbound, hsilence, ready_completed (s.ctx i) hl, clipping_iff hl, rfl, rfl,
        hcount⟩
    · obtain ⟨l, hl, hlen, -⟩ := samples_spec w s.freeCount hu
      rw [hc]
      exact ⟨_, ready_completed (s.ctx i) hl, by rw [List.length_map, hlen]⟩
  · intro l s c rest hp hl
    have hexec : exec (.outboundCellSent l) s = .next (s.setLink l.val rest) :=
      (runs_released _ hp).trans (by rw [cellSent_cons hl])
    exact ⟨_, hexec, (link_setLink ..).trans (if_pos rfl), fun m hm => (link_setLink ..).trans (if_neg hm), rfl⟩
  · obtain ⟨hap, han⟩ := expand_segment .aLaw q s hq hs
    obtain ⟨hmp, hmn⟩ := expand_segment .muLaw q s hq hs
    rw [level_aLaw q s hq] at hap han
    rw [level_muLaw q s hq] at hmp hmn
    exact ⟨hap, han, hmp, hmn⟩
  · obtain rfl := pattern_eq hp
    obtain ⟨hlevel, hbetween, hzero⟩ := compress_spec l mode x
    refine ⟨hlevel, fun h => (compress_beyond l mode x h).trans (byteOf_largest l x), hzero, fun L H h1 h2 h3 => ?_⟩
    have h := hbetween L H h1 h2 h3
    exact ⟨fun hm => by subst hm; exact h, fun hm => by subst hm; exact h, fun hm => by subst hm; exact h,
      fun hm => by subst hm; exact h⟩

end Sys2Proof.Machine
end

section
/-! SUPPORT. Frame marks and their loss (R26, R27, R80 to R82): what the claims a boundary owes leave of the timer, what
a mark does to the blocks of each slot, and what a slot carries. -/

namespace Sys2Proof.Machine

open State

namespace State

/-! ### The claims a boundary owes (R82) -/

/-- What the boundary claims of contexts leave: the frame count, the ports that have not had the boundary, the pin. -/
structure ClaimFrame (s t : State) : Prop where
  frame : t.timer.frame = s.timer.frame
  portDue : t.timer.portDue = s.timer.portDue
  pinHeld : t.pinHeld = s.pinHeld

theorem ClaimFrame.of_timer {s t : State} (ht : t.timer = s.timer) (hp : t.pinHeld = s.pinHeld) : ClaimFrame s t :=
  ⟨by rw [ht], by rw [ht], hp⟩

theorem ClaimFrame.trans {s t u : State} (h : ClaimFrame s t) (h' : ClaimFrame t u) : ClaimFrame s u :=
  ⟨h'.frame.trans h.frame, h'.portDue.trans h.portDue, h'.pinHeld.trans h.pinHeld⟩

theorem claimFrame_stepFirst (s : State) (i : Nat) : ClaimFrame s (s.stepFirst i) := by
  unfold stepFirst expireFirst
  split
  · split
    · split
      · exact .of_timer (by simp) (by simp)
      · exact .of_timer (by simp) (by simp)
    · exact .of_timer rfl rfl
  · exact .of_timer rfl rfl

theorem claimFrame_stepSilence (s : State) (i : Nat) : ClaimFrame s (s.stepSilence i) := by
  unfold stepSilence stepStale
  split <;> exact .of_timer (by simp) (by simp)

theorem claimFrame_stepCounts (s : State) (i : Nat) : ClaimFrame s (s.stepCounts i) := by
  have hh : ClaimFrame s (s.stepHandover i) := .of_timer (by simp) (by simp)
  unfold stepCounts
  split
  · exact hh.trans (claimFrame_stepFirst _ i)
  · exact hh.trans (claimFrame_stepSilence _ i)
  all_goals exact .of_timer rfl rfl

theorem claimFrame_continueClaim (s : State) (i : Nat) : ClaimFrame s (s.continueClaim i) := by
  unfold continueClaim
  split <;> exact .of_timer (by simp) (by simp)

theorem claimFrame_claimBody (s : State) (i : Nat) : ClaimFrame s (s.claimBody i) := by
  have hquiet : ClaimFrame s ((s.stepHandover i).dropHanded i) := .of_timer (by simp) (by simp)
  have hwork : ClaimFrame s (s.discardWork i) := .of_timer (by simp) (by simp)
  have hconv : ClaimFrame s (((s.discardWork i).stepCounts i).continueClaim i) :=
    (hwork.trans (claimFrame_stepCounts _ i)).trans (claimFrame_continueClaim _ i)
  unfold claimBody
  split
  · exact hquiet
  · exact hquiet
  · exact hconv
  · exact hconv
  all_goals exact .of_timer rfl rfl

theorem claimFrame_boundaryClaim (s : State) (i : Nat) : ClaimFrame s (s.boundaryClaim i) := by
  unfold boundaryClaim
  split
  · exact (claimFrame_claimBody s i).trans ⟨rfl, rfl, rfl⟩
  · exact .of_timer rfl rfl

theorem claimFrame_foldl_boundaryClaim (l : List Nat) (s : State) : ClaimFrame s (l.foldl boundaryClaim s) := by
  induction l generalizing s with
  | nil => exact .of_timer rfl rfl
  | cons i l ih => exact (claimFrame_boundaryClaim s i).trans (ih _)

/-- A claim at a record that is FREE or CLOSED changes no record (log 29). -/
theorem claimBody_unused {s : State} {i : Nat} (h : (s.ctx i).state = .free ∨ (s.ctx i).state = .closed) :
    s.claimBody i = s := by
  unfold claimBody
  rcases h with h | h <;> rw [h]

theorem boundaryClaim_unused {s : State} {i : Nat} (h : (s.ctx i).state = .free ∨ (s.ctx i).state = .closed) :
    s.boundaryClaim i = { s with timer := { s.timer with claimed := (s.boundaryClaim i).timer.claimed } } := by
  unfold boundaryClaim
  rw [claimBody_unused h]
  split <;> rfl

theorem portBody_timer (s : State) (p : Port) :
    (s.portBody p).timer = s.timer ∧ (s.portBody p).pinHeld = s.pinHeld := by
  unfold portBody goSilent
  split
  · exact ⟨rfl, rfl⟩
  · split <;> exact ⟨by simp, by simp⟩

/-- A boundary at a port ends that port's due, and leaves the rest of the timer (R82). -/
theorem portBoundary_timer (s : State) (p : Port) :
    (s.portBoundary p).timer = { s.timer with portDue := s.timer.portDue.set p false } ∧
      (s.portBoundary p).pinHeld = s.pinHeld := by
  unfold portBoundary
  split
  · exact portBody_timer _ p
  · next h =>
    have hset : s.timer.portDue.set p false = s.timer.portDue := PerPort.ext_get fun q => by
      rw [PerPort.get_set]
      split
      · next hq => rw [hq]; exact (Bool.eq_false_iff.2 h).symm
      · rfl
    rw [hset]
    exact ⟨rfl, rfl⟩

theorem settleBoundary_owed (s : State) : s.settleBoundary.timer.owed = false := rfl

/-- Once the owed claims are taken the frame count stands, no port has the boundary to take, and the pin stands. -/
theorem settleBoundary_timer (s : State) : s.settleBoundary.timer.frame = s.timer.frame ∧
    s.settleBoundary.timer.portDue = ⟨false, false⟩ ∧ s.settleBoundary.pinHeld = s.pinHeld := by
  obtain ⟨hta, hpa⟩ := portBoundary_timer s .a
  obtain ⟨htb, hpb⟩ := portBoundary_timer (s.portBoundary .a) .b
  obtain ⟨hf, hd, hp⟩ := claimFrame_foldl_boundaryClaim s.ctxs.keys ((s.portBoundary .a).portBoundary .b)
  rw [htb, hta] at hf hd
  exact ⟨hf, hd, hp.trans (hpb.trans hpa)⟩

/-- The state with no claim outstanding and no record of those taken. -/
def settled (s : State) : State := s.setTimer { s.timer with owed := false, claimed := [] }

/-- Taking the owed claims leaves nothing to take. -/
theorem settleBoundary_settleBoundary (s : State) : s.settleBoundary.settleBoundary = s.settleBoundary := by
  obtain ⟨-, hd, -⟩ := settleBoundary_timer s
  rw [settleBoundary_nothing _ (settleBoundary_owed s) hd]
  rfl

/-- A mark is the mark from the state in which the owed claims have been taken (log 6). -/
theorem frameMark_settleBoundary (s : State) (rx : List (Nat × Byte)) :
    s.settleBoundary.frameMark rx = s.frameMark rx := by
  unfold frameMark
  rw [settleBoundary_settleBoundary]

/-- So is a loss of framing while LOCKED. -/
theorem framingLost_settleBoundary {s : State} {k : Nat} (h : s.timer.frame = some k) :
    s.settleBoundary.framingLost = s.framingLost := by
  obtain ⟨hf, -, -⟩ := settleBoundary_timer s
  unfold framingLost
  rw [settleBoundary_settleBoundary, hf, h]

/-- A context in use is listed. -/
theorem mem_keys_of_state {s : State} {i : Nat} (h : (s.ctx i).state ≠ .free) : i ∈ s.ctxs.keys :=
  Tab.mem_keys_of_get_ne ctxDefault s.ctxs i fun he => h (congrArg Ctx.state he)

/-! ### Slots in turn -/

theorem mem_mappedSlots (s : State) (n : Nat) : n ∈ s.mappedSlots ↔ s.slotEntry n ≠ none := by
  unfold mappedSlots
  rw [List.mem_filter, Option.isSome_iff_ne_none]
  exact ⟨And.right, fun h => ⟨Tab.mem_keys_of_get_ne slotDefault s.slotMap n h, h⟩⟩

theorem mappedSlots_nodup {s : State} (h : s.canonical = true) : s.mappedSlots.Nodup := by
  obtain ⟨-, hslots, -⟩ := (canonical_iff s).1 h
  exact (Tab.keys_nodup _ _ hslots).filter _

theorem mappedSlots_congr {s t : State} (h : t.slotMap = s.slotMap) : t.mappedSlots = s.mappedSlots := by
  unfold mappedSlots slotEntry
  rw [h]

/-- From `s` to `t` blocks changed, and nothing else. -/
def BlocksOnly (s t : State) : Prop := t = { s with blocks := t.blocks }

theorem BlocksOnly.trans {s t u : State} (h : BlocksOnly s t) (h' : BlocksOnly t u) : BlocksOnly s u := by
  unfold BlocksOnly at h h'
  exact h'.trans (by rw [h])

theorem blocksOnly_foldl {f : State → Nat → State} (h : ∀ t n, BlocksOnly t (f t n)) (l : List Nat) (s : State) :
    BlocksOnly s (l.foldl f s) := by
  induction l generalizing s with
  | nil => rfl
  | cons n l ih => exact (h s n).trans (ih _)

/-- An operation on the blocks of each slot of a list leaves those of any other slot. -/
theorem block_foldl_other {f : State → Nat → State} {n : Nat} (h : ∀ t m, n ≠ m → (f t m).block n = t.block n)
    (l : List Nat) (hn : n ∉ l) (s : State) : (l.foldl f s).block n = s.block n := by
  induction l generalizing s with
  | nil => rfl
  | cons m l ih =>
    obtain ⟨hm, hl⟩ := not_or.1 (mt List.mem_cons.2 hn)
    exact (ih hl _).trans (h s m hm)

/-- The blocks of each slot of a list changed by `g`: a list without repeats, or a `g` that does no more the second
time. -/
theorem block_foldl_setBlock (g : SlotBlocks → SlotBlocks) (l : List Nat) (s : State) (n : Nat)
    (h : l.Nodup ∨ ∀ b, g (g b) = g b) :
    (l.foldl (fun t m => t.setBlock m (g (t.block m))) s).block n = if n ∈ l then g (s.block n) else s.block n := by
  induction l generalizing s with
  | nil => simp
  | cons m l ih =>
    rw [List.foldl_cons, ih _ (h.imp_left List.Nodup.of_cons), block_setBlock]
    by_cases hn : n = m
    · subst hn
      rcases h with h | h
      · simp [(List.nodup_cons.1 h).1]
      · simp [h]
    · simp [hn]

/-! ### What a mark does (R80, R26) -/

theorem settleBoundary_settled {s : State} (ho : s.timer.owed = false) (hp : s.timer.portDue = ⟨false, false⟩) :
    s.settleBoundary = s.settled := settleBoundary_nothing s ho hp

theorem frameMark_unlocked {s : State} (rx : List (Nat × Byte)) (ho : s.timer.owed = false)
    (hp : s.timer.portDue = ⟨false, false⟩) (hf : s.timer.frame = none) : s.frameMark rx = s.settled.relock := by
  have h : s.settled.timer.frame = none := hf
  unfold frameMark
  rw [settleBoundary_settled ho hp, h]

theorem frameMark_locked {s : State} {k : Nat} (rx : List (Nat × Byte)) (ho : s.timer.owed = false)
    (hp : s.timer.portDue = ⟨false, false⟩) (hf : s.timer.frame = some k) :
    s.frameMark rx = (s.settled.collect rx).markAt k := by
  have h : s.settled.timer.frame = some k := hf
  unfold frameMark
  rw [settleBoundary_settled ho hp, h]

/-- The 160th mark produces a boundary. -/
theorem markAt_last (s : State) {k : Nat} (h : k + 1 = 160) : s.markAt k = s.boundary := if_pos h

/-- Every other mark counts (R80). -/
theorem markAt_count (s : State) {k : Nat} (h : k + 1 ≠ 160) :
    s.markAt k = s.setTimer { s.timer with frame := some (k + 1) } := if_neg h

theorem blocksOnly_collectAt (rx : List (Nat × Byte)) (s : State) (n : Nat) : BlocksOnly s (collectAt rx s n) := by
  unfold collectAt
  split <;> rfl

/-- From `s` to `t` nothing changed but the timer, the blocks and the draw counter. -/
def MarkFrame (s t : State) : Prop :=
  t = { s with timer := t.timer, blocks := t.blocks, freeCount := t.freeCount }

theorem MarkFrame.trans {s t u : State} (h : MarkFrame s t) (h' : MarkFrame t u) : MarkFrame s u := by
  unfold MarkFrame at h h'
  exact h'.trans (by rw [h])

theorem BlocksOnly.markFrame {s t : State} (h : BlocksOnly s t) : MarkFrame s t := by
  unfold BlocksOnly at h
  exact h.trans (by rw [h])

theorem markFrame_collect (s : State) (rx : List (Nat × Byte)) : MarkFrame s (s.collect rx) :=
  (blocksOnly_foldl (blocksOnly_collectAt rx) s.mappedSlots s).markFrame.trans (by rfl)

theorem blocksOnly_handOver (s : State) : BlocksOnly s (s.mappedSlots.foldl handOver s) :=
  blocksOnly_foldl (f := handOver) (fun _ _ => rfl) _ _

theorem markFrame_markAt (s : State) (k : Nat) : MarkFrame s (s.markAt k) := by
  unfold markAt
  split
  · exact (blocksOnly_handOver s).markFrame.trans (by rfl)
  · rfl

theorem markFrame_frameMark {s : State} (rx : List (Nat × Byte)) (ho : s.timer.owed = false)
    (hp : s.timer.portDue = ⟨false, false⟩) : MarkFrame s (s.frameMark rx) := by
  have hs : MarkFrame s s.settled := rfl
  cases hf : s.timer.frame with
  | none =>
    rw [frameMark_unlocked rx ho hp hf]
    exact (hs.trans (blocksOnly_foldl (f := freshBlocks) (fun _ _ => rfl) _ _).markFrame).trans rfl
  | some k =>
    rw [frameMark_locked rx ho hp hf]
    exact (hs.trans (markFrame_collect _ rx)).trans (markFrame_markAt _ k)

theorem block_relock (s : State) (n : Nat) :
    s.relock.block n = if s.slotEntry n = none then s.block n else ⟨some [], none, none⟩ := by
  refine (block_foldl_setBlock (fun _ => ⟨some [], none, none⟩) s.mappedSlots s n (Or.inr fun _ => rfl)).trans ?_
  simp only [mem_mappedSlots]
  by_cases h : s.slotEntry n = none <;> simp [h]

/-- A slot with no map entry collects nothing, and no boundary hands its blocks over. -/
theorem block_collect_unmapped (s : State) (rx : List (Nat × Byte)) (n : Nat) (h : s.slotEntry n = none) :
    (s.collect rx).block n = s.block n :=
  block_foldl_other (fun t m hm => by rw [block_collectAt, if_neg hm]) _ (by simp [mem_mappedSlots, h]) s

theorem block_markAt_unmapped (s : State) (k n : Nat) (h : s.slotEntry n = none) :
    (s.markAt k).block n = s.block n := by
  unfold markAt
  split
  · exact block_foldl_other (fun t m hm => (block_setBlock ..).trans (if_neg hm)) _ (by simp [mem_mappedSlots, h]) s
  · rfl

theorem collect_slotMap (s : State) (rx : List (Nat × Byte)) : (s.collect rx).slotMap = s.slotMap := by
  rw [markFrame_collect s rx]

theorem collect_timer (s : State) (rx : List (Nat × Byte)) : (s.collect rx).timer = s.timer := by
  show (s.mappedSlots.foldl (collectAt rx) s).timer = s.timer
  rw [blocksOnly_foldl (blocksOnly_collectAt rx) s.mappedSlots s]

theorem block_frameMark_unmapped {s : State} (rx : List (Nat × Byte)) (ho : s.timer.owed = false)
    (hp : s.timer.portDue = ⟨false, false⟩) (n : Nat) (h : s.slotEntry n = none) :
    (s.frameMark rx).block n = s.block n := by
  cases hf : s.timer.frame with
  | none =>
    rw [frameMark_unlocked rx ho hp hf, block_relock]
    exact if_pos h
  | some k =>
    rw [frameMark_locked rx ho hp hf]
    have hn := (slotEntry_congr (collect_slotMap s.settled rx) n).trans h
    exact (block_markAt_unmapped _ k n hn).trans (block_collect_unmapped s.settled rx n h)

/-- The blocks of a slot with the code of the frame that ended joined to the inbound one. -/
def collected (s : State) (rx : List (Nat × Byte)) (n : Nat) : SlotBlocks :=
  { s.block n with inbound := (s.block n).inbound.map (· ++ [receivedAt s.freeCount rx n]) }

/-- A mark while LOCKED at a mapped slot: its code is collected, and the 160th hands the block over (R26). -/
theorem block_frameMark_mapped {s : State} {k : Nat} (rx : List (Nat × Byte)) (ho : s.timer.owed = false)
    (hp : s.timer.portDue = ⟨false, false⟩) (hf : s.timer.frame = some k) (hc : s.canonical = true) (n : Nat)
    (h : s.slotEntry n ≠ none) :
    (s.frameMark rx).block n = if k + 1 = 160 then (s.collected rx n).atBoundary else s.collected rx n := by
  have hnodup : s.settled.mappedSlots.Nodup := mappedSlots_nodup (s := s) hc
  have hmem : n ∈ s.settled.mappedSlots := (mem_mappedSlots s n).2 h
  have hcollect : (s.settled.collect rx).block n = s.collected rx n :=
    (block_foldl_collectAt rx _ hnodup s.settled n).trans (if_pos hmem)
  have hmapped := mappedSlots_congr (collect_slotMap s.settled rx)
  rw [frameMark_locked rx ho hp hf]
  by_cases hk : k + 1 = 160
  · rw [markAt_last _ hk, if_pos hk, ← hcollect]
    refine (block_foldl_setBlock SlotBlocks.atBoundary _ _ n (Or.inl ?_)).trans (if_pos ?_) <;> rw [hmapped]
    · exact hnodup
    · exact hmem
  · rw [markAt_count _ hk, if_neg hk]
    exact hcollect

/-- The timer after a mark that produces no boundary (R80). -/
theorem timer_frameMark_lt {s : State} {k : Nat} (rx : List (Nat × Byte)) (ho : s.timer.owed = false)
    (hp : s.timer.portDue = ⟨false, false⟩) (hf : s.timer.frame = some k) (hk : k + 1 < 160) :
    (s.frameMark rx).timer = { s.settled.timer with frame := some (k + 1) } := by
  rw [frameMark_locked rx ho hp hf, markAt_count _ (Nat.ne_of_lt hk), setTimer_timer, collect_timer]

/-- The timer after the mark that produces a boundary (R80, R82). -/
theorem timer_frameMark_last {s : State} (rx : List (Nat × Byte)) (ho : s.timer.owed = false)
    (hp : s.timer.portDue = ⟨false, false⟩) (hf : s.timer.frame = some 159) :
    (s.frameMark rx).timer = ⟨some 0, s.timer.period + 1, true, [], ⟨true, true⟩⟩ := by
  rw [frameMark_locked rx ho hp hf, markAt_last _ rfl]
  show (⟨some 0, (s.settled.collect rx).timer.period + 1, true, [], ⟨true, true⟩⟩ : Timer) = _
  rw [collect_timer]
  rfl

/-- The code a mark lists for a slot is the one the slot received. -/
theorem receivedAt_listed {rx : List (Nat × Byte)} {n : Nat} {b : Byte} (draw : Nat)
    (h : rx.find? (fun e => e.1 = n) = some (n, b)) : receivedAt draw rx n = b := by
  unfold receivedAt
  rw [h]

theorem collected_some {s : State} {n : Nat} {l : List Byte} (rx : List (Nat × Byte))
    (h : (s.block n).inbound = some l) :
    s.collected rx n = { s.block n with inbound := some (l ++ [receivedAt s.freeCount rx n]) } := by
  unfold collected
  rw [h]
  rfl

theorem collected_none {s : State} {n : Nat} (rx : List (Nat × Byte)) (h : (s.block n).inbound = none) :
    s.collected rx n = s.block n := by
  unfold collected
  rw [h, Option.map_none, ← h]

/-! ### Loss of framing (R81) -/

theorem framingLost_locked {s : State} {k : Nat} (ho : s.timer.owed = false)
    (hp : s.timer.portDue = ⟨false, false⟩) (hf : s.timer.frame = some k) :
    s.framingLost = (s.blocks.keys.foldl dropBlocks s.settled).setTimer { s.settled.timer with frame := none } := by
  unfold framingLost
  rw [settleBoundary_settled ho hp, hf]
  rfl

/-- A slot that lists no blocks has none, so that dropping them from those listed drops them everywhere. -/
theorem block_foldl_dropBlocks (s : State) (n : Nat) : (s.blocks.keys.foldl dropBlocks s).block n =
    { s.block n with inbound := none, outbound := none } := by
  refine (block_foldl_setBlock (fun b => { b with inbound := none, outbound := none }) s.blocks.keys s n
    (Or.inr fun _ => rfl)).trans ?_
  by_cases h : n ∈ s.blocks.keys
  · rw [if_pos h]
  · rw [if_neg h, show s.block n = ⟨none, none, none⟩ from Tab.get_of_not_mem _ _ _ h]

/-! ### The slot on the highway (R27) -/

theorem drive_speech {s : State} {n i : Nat} {codes : List Byte} (he : s.slotEntry n = some i)
    (ha : (s.ctx i).state = .active) (hb : (s.block n).outbound = some codes) : s.drive n = .speech := by
  unfold drive
  simp [he, ha, hb]

theorem drive_idle {s : State} {n i : Nat} (he : s.slotEntry n = some i)
    (h : (s.ctx i).state ≠ .active ∨ (s.block n).outbound = none) : s.drive n = .idle := by
  unfold drive
  simp only [he]
  refine if_neg fun ⟨ha, hb⟩ => ?_
  rcases h with h | h
  · exact h ha
  · rw [h] at hb
    cases hb

theorem transmits_mapped {s : State} {n i k : Nat} (hf : s.timer.frame = some k) (he : s.slotEntry n = some i) :
    s.transmits n = if s.drive n = .speech
      then some ((((s.block n).outbound.getD [])[k]?).getD (s.ctx i).law.idle) else some (s.ctx i).law.idle := by
  unfold transmits
  simp only [hf, he]

theorem transmits_unlocked {s : State} (n : Nat) (hf : s.timer.frame = none) : s.transmits n = none := by
  unfold transmits
  simp only [hf]

theorem drive_unmapped {s : State} {n : Nat} (he : s.slotEntry n = none) :
    s.drive n = .notDriven ∧ s.transmits n = none := by
  unfold drive transmits
  simp [he]

end State

/-- Settles O37: a mark with nothing owed, a loss of framing, the claims owed before either, then the slot's codes. -/
theorem frameMarksAndTheirLoss : Obligations.FrameMarksAndTheirLoss := by
  refine ⟨fun rx s hpin ho hp => ?_, fun s k hpin ho hp hf => ?_, fun s hpin => ⟨fun p => runs_released _ hpin,
    fun i => runs_released _ hpin⟩, fun s i => boundaryClaim_unused, fun s hpin hc => ?_,
    fun s n => ⟨drive_unmapped, transmits_unlocked n⟩, fun s n i b k he hb hf => ⟨fun codes c ha ho hcode => ?_,
      fun h => ?_⟩⟩
  · have hmapped := fun k hf hc => block_frameMark_mapped (k := k) rx ho hp hf hc
    refine ⟨_, runs_released _ hpin, markFrame_frameMark rx ho hp, block_frameMark_unmapped rx ho hp, fun hf => ?_,
      fun k hf hk => ?_, fun k hf hk hc n hn => ⟨fun l hl _ => ?_, fun hl => ?_⟩,
      fun hf hc n hn => ⟨fun l hl _ => ?_, fun hl => ?_⟩, fun hf => ?_⟩
    · rw [frameMark_unlocked rx ho hp hf]
      exact ⟨rfl, rfl, rfl, fun n hn => (block_relock _ n).trans (if_neg hn)⟩
    · rw [timer_frameMark_lt rx ho hp hf hk]
      refine ⟨rfl, rfl, rfl, fun n l b hc hn hl hb => ?_⟩
      rw [hmapped k hf hc n hn, if_neg (Nat.ne_of_lt hk), collected_some rx hl, receivedAt_listed _ hb]
    · rw [hmapped k hf hc n hn, if_neg (Nat.ne_of_lt hk)]
      exact ⟨_, collected_some rx hl⟩
    · rw [hmapped k hf hc n hn, if_neg (Nat.ne_of_lt hk), collected_none rx hl]
    · rw [hmapped 159 hf hc n hn, if_pos rfl, collected_some rx hl]
      exact ⟨_, rfl⟩
    · rw [hmapped 159 hf hc n hn, if_pos rfl, collected_none rx hl, SlotBlocks.atBoundary, hl]
    · have ht := timer_frameMark_last rx ho hp hf
      have hdue : ∀ i, (s.frameMark rx).claimDue i = true := fun i => by unfold claimDue; rw [ht]; rfl
      refine ⟨by rw [ht], by rw [ht], by rw [ht], hdue, fun n l b hc hn hl hb => ?_⟩
      rw [hmapped 159 hf hc n hn, if_pos rfl, collected_some rx hl, receivedAt_listed _ hb]
      rfl
  · have hlost := framingLost_locked ho hp hf
    have hblocks := blocksOnly_foldl (f := dropBlocks) (fun _ _ => rfl) s.blocks.keys s.settled
    refine ⟨_, runs_released _ hpin, by rw [hlost]; rfl, by rw [hlost]; rfl, fun n => ?_, ?_⟩
    · rw [hlost]
      exact block_foldl_dropBlocks s.settled n
    · rw [hlost]
      generalize s.blocks.keys.foldl dropBlocks s.settled = x at hblocks
      unfold BlocksOnly at hblocks
      rw [hblocks]
      rfl
  · obtain ⟨hf, hd, hp⟩ := settleBoundary_timer s
    have hpin' := hp.trans hpin
    refine ⟨s.ctxs.keys, s.settleBoundary, _, keys_sorted s hc, fun i hi => mem_keys_of_state fun hfree => ?_, rfl, rfl,
      hd, fun rx => ?_, fun k hk => ⟨hf.trans hk, ?_⟩⟩
    · rw [hfree] at hi
      simp at hi
    · exact (runs_released (s.frameMark rx) hpin).trans
        ((runs_released _ hpin').trans (congrArg _ (frameMark_settleBoundary s rx))).symm
    · exact (runs_released s.framingLost hpin).trans
        ((runs_released _ hpin').trans (congrArg _ (framingLost_settleBoundary hk))).symm
  · have hd := drive_speech he ha ho
    refine ⟨hd, ?_⟩
    rw [transmits_mapped hf he, if_pos hd, ho]
    simp [hcode]
  · have hd := drive_idle he h
    have ht : s.transmits n = some b.law.idle := by
      rw [transmits_mapped hf he, if_neg (by rw [hd]; decide), Ctx.law, hb]
    refine ⟨hd, fun hl => ?_, fun hl => ?_⟩ <;> rw [ht, hl] <;> decide

end Sys2Proof.Machine
end

section
/-! SUPPORT. The profile orders of chapter 3, each from the state in which it is taken (R44 to R53, R187): what the body
of PROFILE_LOAD spells, what PROFILE_CLEAR does with a slot as it stands, and the rate and references of SET_PROFILE. -/

namespace Sys2Proof.Machine

open State

/-! ### Fields that bytes spell (R187) -/

theorem familyOf_byte (f : Family) : familyOf f.byte = some f := by cases f <;> rfl

theorem toNat_byteOf {n : Nat} (h : n < 256) : (byteOf n).toNat = n :=
  (BitVec.toNat_ofNat n 8).trans (Nat.mod_eq_of_lt h)

theorem le16_byteOf {n : Nat} (h : n < 65536) : le16 (byteOf n) (byteOf (n / 256)) = n := by
  have hlow : (byteOf n).toNat = n % 256 := BitVec.toNat_ofNat n 8
  rw [le16, hlow, toNat_byteOf (by omega)]
  omega

/-- The two bytes of a word, high byte first, make the word. -/
theorem byteOf_append_byteOf (x : BitVec 16) : byteOf (x.toNat / 256) ++ byteOf x.toNat = x := by
  apply BitVec.eq_of_toNat_eq
  have hlow : (byteOf x.toNat).toNat = x.toNat % 256 := BitVec.toNat_ofNat _ 8
  have hx := x.isLt
  rw [BitVec.toNat_append, toNat_byteOf (by omega), ← Nat.shiftLeft_add_eq_or_of_lt (byteOf x.toNat).isLt, hlow,
    Nat.shiftLeft_eq]
  omega

/-! ### The profile a PROFILE_LOAD body spells (R44, R46, R50, R187) -/

/-- Every field of a profile is in the range PROFILE_LOAD checks (R46, R50). -/
structure Profile.Loadable (c : Profile) : Prop where
  nonempty : 1 ≤ c.table.length
  short : c.table.length ≤ 8
  entries : ∀ e ∈ c.table, 5 ≤ e.bytes ∧ e.bytes ≤ 80 ∧ 1 ≤ e.cost ∧ e.cost ≤ 4000
  ascending : c.table.Pairwise fun a b => a.cost < b.cost
  default : c.defaultIndex < c.table.length
  hold : c.hold ≤ 50
  single : c.family = .narrowSingle → c.table.length = 1

/-- The body of a PROFILE_LOAD of profile `c` into slot `n` (R187). -/
def profileLoadBody (n : Nat) (c : Profile) : List Byte :=
  [byteOf n, c.family.byte] ++ leBytes 2 c.stamp.toNat ++
    [byteOf c.defaultIndex, byteOf c.hold, byteOf c.table.length] ++ c.table.flatMap RateEntry.bytesOf

theorem profileLoadBody_eq (n : Nat) (c : Profile) : profileLoadBody n c =
    byteOf n :: c.family.byte :: byteOf c.stamp.toNat :: byteOf (c.stamp.toNat / 256) :: byteOf c.defaultIndex ::
      byteOf c.hold :: byteOf c.table.length :: c.table.flatMap RateEntry.bytesOf := rfl

theorem length_flatMap_bytesOf (table : List RateEntry) :
    (table.flatMap RateEntry.bytesOf).length = 3 * table.length := by
  induction table with
  | nil => rfl
  | cons e t ih =>
    rw [List.flatMap_cons, List.length_append, ih, List.length_cons]
    simp only [RateEntry.bytesOf, leBytes, List.length_cons, List.length_nil]
    omega

/-- The bytes of entries that fit their fields spell these entries. -/
theorem rateEntriesOf_flatMap_bytesOf {table : List RateEntry} (h : ∀ e ∈ table, e.bytes < 256 ∧ e.cost < 65536) :
    rateEntriesOf (table.flatMap RateEntry.bytesOf) = table := by
  induction table with
  | nil => rfl
  | cons e t ih =>
    obtain ⟨hb, hc⟩ := h e (List.mem_cons_self ..)
    have ht := ih fun x hx => h x (List.mem_cons_of_mem _ hx)
    calc rateEntriesOf ((e :: t).flatMap RateEntry.bytesOf)
        = ⟨(byteOf e.bytes).toNat, le16 (byteOf e.cost) (byteOf (e.cost / 256))⟩ ::
            rateEntriesOf (t.flatMap RateEntry.bytesOf) := rfl
      _ = e :: t := by rw [toNat_byteOf hb, le16_byteOf hc, ht]

theorem ascendingCosts_of_pairwise {table : List RateEntry} (h : table.Pairwise fun a b => a.cost < b.cost) :
    ascendingCosts table = true := by
  induction table with
  | nil => rfl
  | cons a t ih =>
    obtain ⟨ha, ht⟩ := List.pairwise_cons.1 h
    cases t with
    | nil => rfl
    | cons b t => exact Bool.and_eq_true_iff.2 ⟨decide_eq_true (ha b (List.mem_cons_self ..)), ih ht⟩

theorem Profile.Loadable.tableOk {c : Profile} (h : c.Loadable) : tableOk c.table = true := by
  have hall : (c.table.all fun e => decide (5 ≤ e.bytes ∧ e.bytes ≤ 80 ∧ 1 ≤ e.cost ∧ e.cost ≤ 4000)) = true :=
    List.all_eq_true.2 fun e he => decide_eq_true (h.entries e he)
  rw [Machine.tableOk, hall, ascendingCosts_of_pairwise h.ascending, decide_eq_true h.nonempty, decide_eq_true h.short]
  rfl

/-- The fields of a profile in range spell the profile. -/
theorem profileOfFields_bytes {c : Profile} (h : c.Loadable) :
    profileOfFields c.family.byte (byteOf c.stamp.toNat) (byteOf (c.stamp.toNat / 256)) (byteOf c.defaultIndex)
      (byteOf c.hold) c.table = some c := by
  have hshort := h.short
  have hdefault := h.default
  have hhold := h.hold
  rw [profileOfFields, familyOf_byte, toNat_byteOf (by omega), toNat_byteOf (by omega), byteOf_append_byteOf]
  exact if_pos ⟨h.tableOk, hdefault, hhold, h.single⟩

/-- PROFILE_LOAD takes the profile its body spells to the slot its body names. -/
theorem profileLoadOrder_body {n : Nat} {c : Profile} (u : State) (hn : n ≤ 15) (h : c.Loadable) :
    profileLoadOrder (profileLoadBody n c) u = loadProfile n c u := by
  have hshort := h.short
  have hentries := rateEntriesOf_flatMap_bytesOf fun e he => by
    have := h.entries e he
    exact ⟨by omega, by omega⟩
  simp only [profileLoadBody_eq, profileLoadOrder, length_flatMap_bytesOf, hentries, profileOfFields_bytes h]
  rw [toNat_byteOf (n := n) (by omega), toNat_byteOf (n := c.table.length) (by omega), if_neg (not_not.2 rfl),
    if_neg (Nat.not_lt.2 hn)]

theorem loadProfile_vacant {n : Nat} {u : State} (c : Profile) (h : (u.profile n).state = .vacant) :
    loadProfile n c u = ⟨.ok, .profileLoaded n c.stamp, u.setProfile n { u.profile n with state := .loaded c }⟩ := by
  rw [loadProfile, h]

/-- An order that writes one profile slot is answered and changes nothing else. -/
theorem setProfile_respond (u : State) (p : Port) (code tag : Byte) (b : RespBody) (n : Nat) (v : ProfileSlot)
    (t : State) (ht : t = respond p code tag ⟨.ok, b, u.setProfile n v⟩) :
    t.profile n = v ∧ (∀ m, m ≠ n → t.profile m = u.profile m) ∧ Answered u t p code tag .ok b ∧
      t = { u with profiles := t.profiles, ports := t.ports } := by
  subst ht
  have hp := profile_setProfile u n (v := v)
  exact ⟨(hp n).trans (if_pos rfl), fun m hm => (hp m).trans (if_neg hm), answered_respond u p code tag _ rfl, rfl⟩

/-- Settles O24: the body spells the profile (`profileLoadOrder_body`), and the order writes one slot. -/
theorem profileLoadLoadsItsBody : Obligations.ProfileLoadLoadsItsBody := by
  intro p tag n c s u hs hu hn hv h1 h8 hentries hasc hdefault hhold hsingle
  have ht : takeOrder p .profileLoad (profileLoadBody n c) u = _ :=
    (profileLoadOrder_body u hn ⟨h1, h8, hentries, hasc, hdefault, hhold, hsingle⟩).trans (loadProfile_vacant c hv)
  exact ⟨_, exec_eq_respond rfl (by decide) hs hu ht, setProfile_respond u p _ tag _ n _ _ rfl⟩

/-! ### PROFILE_CLEAR (R51) -/

theorem takeOrder_profileClear {p : Port} {n : Byte} (u : State) (h : n.toNat ≤ 15) :
    takeOrder p .profileClear [n] u = clearProfile n.toNat u := if_neg (Nat.not_lt.2 h)

theorem clearProfile_fixed {n : Nat} {u : State} {c : Profile} (h : (u.profile n).state = .fixed c) :
    clearProfile n u = refuse .profileFixed u := by
  rw [clearProfile, h]

theorem clearProfile_vacant {n : Nat} {u : State} (h : (u.profile n).state = .vacant) :
    clearProfile n u = ⟨.ok, .profileVacant n, u⟩ := by
  rw [clearProfile, h]

theorem clearProfile_referenced {n : Nat} {u : State} {c : Profile} (h : (u.profile n).state = .loaded c)
    (hr : 0 < (u.profile n).refs) :
    clearProfile n u = ⟨.profileInUse, .profileRefs (u.profile n).refs, u⟩ := by
  rw [clearProfile, h]
  exact if_pos hr

theorem clearProfile_unreferenced {n : Nat} {u : State} {c : Profile} (h : (u.profile n).state = .loaded c)
    (hr : (u.profile n).refs = 0) : clearProfile n u = ⟨.ok, .profileCleared c.stamp, u.setProfile n ⟨.vacant, 0⟩⟩ := by
  rw [clearProfile, h]
  exact (if_neg (by omega)).trans (by simp only [hr])

/-- An order that leaves the part as it is, is answered and changes nothing. -/
theorem unchanged_respond (u : State) (p : Port) (code tag : Byte) (r : Result) (b : RespBody) :
    Answered u (respond p code tag ⟨r, b, u⟩) p code tag r b ∧
      respond p code tag ⟨r, b, u⟩ = { u with ports := (respond p code tag ⟨r, b, u⟩).ports } :=
  ⟨answered_respond u p code tag _ rfl, rfl⟩

/-- Settles O25, by the state of the slot. -/
theorem profileClearBySlotState : Obligations.ProfileClearBySlotState := by
  intro p tag n s u hs hu hn
  refine ⟨_, exec_eq_respond rfl (by decide) hs hu (takeOrder_profileClear u hn), fun c hc => ?_, fun hc => ?_,
    fun c hc hr => ?_, fun c hc hr => ?_⟩
  · rw [clearProfile_fixed hc]
    exact refused_respond u p _ tag _
  · rw [clearProfile_vacant hc]
    exact unchanged_respond u p _ tag _ _
  · rw [clearProfile_referenced hc hr]
    exact unchanged_respond u p _ tag _ _
  · rw [clearProfile_unreferenced hc hr]
    exact setProfile_respond u p _ tag _ n.toNat _ _ rfl

/-! ### The rate SET_PROFILE derives (R53) -/

theorem RateSet.within_iff (set : RateSet) (n : Nat) : set.within n = true ↔ ∀ q, set.getLsbD q = true → q < n := by
  simp [RateSet.within, RateSet.mem_indices]

theorem RateSet.highest_eq {set : RateSet} {r : Nat} (hr : set.getLsbD r = true)
    (hmax : ∀ q, set.getLsbD q = true → q ≤ r) : set.highest = r := by
  have hlast : set.indices.getLast? = some r :=
    getLast?_of_greatest set.indices_sorted ((RateSet.mem_indices set r).2 hr) fun q hq =>
      hmax q ((RateSet.mem_indices set q).1 hq)
  rw [RateSet.highest, List.getLastD_eq_getLast?, hlast]
  rfl

/-- The default index where the set holds it, else the set's highest (R53). -/
theorem derivedRate_eq {c : Profile} {set : RateSet} {r : Nat} (hr : set.getLsbD r = true)
    (h : r = c.defaultIndex ∨ set.getLsbD c.defaultIndex = false ∧ ∀ q, set.getLsbD q = true → q ≤ r) :
    derivedRate c set = r := by
  rcases h with rfl | ⟨hd, hmax⟩
  · exact if_pos hr
  · exact (if_neg (by simp [RateSet.has, hd])).trans (RateSet.highest_eq hr hmax)

/-! ### SET_PROFILE (R49, R53) -/

theorem setProfileFields_eq_true {n : Nat} {set : RateSet} {u : State} {c : Profile} (hn : n ≤ 15)
    (hc : u.contents n = some c) (hset : set ≠ 0) (hin : ∀ q, set.getLsbD q = true → q < c.table.length) :
    setProfileFields n set u = true := by
  rw [setProfileFields, hc, decide_eq_true hn, decide_eq_true hset]
  exact (RateSet.within_iff set _).2 hin

theorem takeOrder_setProfile {p : Port} {i0 i1 g n set : Byte} {u : State} (h : Owned u p i0 i1 g)
    (hf : setProfileFields n.toNat set u = true) :
    takeOrder p .setProfile [i0, i1, g, n, set] u = setProfileOf (le16 i0 i1) n.toNat set u :=
  ownerChecked_fields p i0 i1 g _ hf u (fun i => setProfileOf i n.toNat set u) h

/-- The record after SET_PROFILE: slot, set and derived rate, no period converted at that rate yet (R53). -/
def Ctx.withProfile (x : Ctx) (n : Nat) (set : RateSet) (r : Nat) : Ctx :=
  { x with profile := some n, permitted := some set, rate := some r, sinceRate := 0 }

theorem setProfileOf_opened {i n r : Nat} {set : RateSet} {u : State} {c : Profile} {e : RateEntry}
    (h : (u.ctx i).state = .opened) (hc : u.contents n = some c) (hr : derivedRate c set = r)
    (he : c.table[r]? = some e) : setProfileOf i n set u =
      ⟨.ok, .profileSet n c.stamp r e.bytes e.cost (u.ctx i).profile,
        (moveRef (u.ctx i).profile n u).modCtx i fun x => x.withProfile n set r⟩ := by
  rw [setProfileOf, if_neg (not_not.2 h), hc]
  simp only [hr, he]
  rfl

theorem profile_modRefs (s : State) (n : Nat) (f : Nat → Nat) (m : Nat) : (s.modRefs n f).profile m =
    if m = n then { s.profile m with refs := f (s.profile m).refs } else s.profile m := by
  rw [modRefs, profile_setProfile]
  split
  · next h => rw [h]
  · rfl

/-- A reference moved: no slot's contents change, the slot left counts one less, the slot named one more (R49). -/
theorem profile_moveRef (old : Option Nat) (n : Nat) (s : State) (m : Nat) :
    ((moveRef old n s).profile m).state = (s.profile m).state ∧
      ((moveRef old n s).profile m).refs =
        ((s.profile m).refs - (if old = some m then 1 else 0)) + (if m = n then 1 else 0) := by
  rw [moveRef, profile_modRefs, profile_dropRef]
  split <;> split <;> exact ⟨rfl, rfl⟩

theorem moveRef_frame (old : Option Nat) (n : Nat) (s : State) :
    moveRef old n s = { s with profiles := (moveRef old n s).profiles } := by
  cases old <;> rfl

/-- Settles O26: the derived rate is the one named, the reference moves (`profile_moveRef`), one record changes. -/
theorem setProfileDerivesTheRate : Obligations.SetProfileDerivesTheRate := by
  intro p tag i0 i1 g n set s u i c r e hs hu ho hi hst hn hc hset hin hr hderived he
  subst hi
  have ht := (takeOrder_setProfile ho (setProfileFields_eq_true hn hc hset hin)).trans
    (setProfileOf_opened hst hc (derivedRate_eq hr hderived) he)
  generalize le16 i0 i1 = i at *
  have hf := moveRef_frame (u.ctx i).profile n.toNat u
  have hports : (moveRef (u.ctx i).profile n.toNat u).ports = u.ports := by rw [hf]
  have hctx := ctx_modCtx_of_ctxs (congrArg State.ctxs hf) i (f := fun x => x.withProfile n.toNat set r)
  refine ⟨_, exec_eq_respond rfl (by decide) hs hu ht, (hctx i).trans (if_pos rfl),
    fun j hj => (hctx j).trans (if_neg hj), profile_moveRef (u.ctx i).profile n.toNat u,
    answered_respond u p _ tag _ hports, ?_⟩
  rw [respond_frame, hf]
  rfl

end Sys2Proof.Machine
end

section
/-! SUPPORT. The available units against the lanes in service (R57): the operations that leave both, the three that move
both (R63, R64, R72), and what a whole command can do. -/

namespace Sys2Proof.Machine

open State

namespace State

/-! ### Operations that leave the units and the lanes' service states -/

/-- The available units and the service state of every lane stand. -/
structure ServiceKept (s t : State) : Prop where
  available : t.available = s.available
  service : ∀ n, (t.lane n).state = (s.lane n).state

theorem ServiceKept.refl (s : State) : ServiceKept s s := ⟨rfl, fun _ => rfl⟩

theorem ServiceKept.of_lanes {s t : State} (ha : t.available = s.available) (hl : t.lanes = s.lanes) : ServiceKept s t :=
  ⟨ha, fun n => by rw [lane_congr hl]⟩

theorem ServiceKept.trans {s t u : State} (h : ServiceKept s t) (h' : ServiceKept t u) : ServiceKept s u :=
  ⟨h'.available.trans h.available, fun n => (h'.service n).trans (h.service n)⟩

theorem ServiceKept.ite {s t : State} (c : Prop) [Decidable c] (h : ServiceKept s t) :
    ServiceKept s (if c then t else s) := by
  split
  · exact h
  · exact .refl s

theorem serviceKept_foldl {β : Type} (f : State → β → State) (h : ∀ t b, ServiceKept t (f t b)) (l : List β)
    (s : State) : ServiceKept s (l.foldl f s) := by
  induction l generalizing s with
  | nil => exact .refl s
  | cons b l ih => exact (h s b).trans (ih _)

/-- An operation that takes works out of lanes, and touches no lane otherwise (R22). -/
theorem ServiceKept.of_handsCleared {s t : State} {c : Nat → Prop} [DecidablePred c] (ha : t.available = s.available)
    (hl : ∀ n, t.lane n = if c n then { s.lane n with inHand := none } else s.lane n) : ServiceKept s t :=
  ⟨ha, fun n => by rw [hl]; split <;> rfl⟩

theorem serviceKept_discardWork (s : State) (i : Nat) : ServiceKept s (s.discardWork i) :=
  .of_handsCleared (discardWork_available s i) (lane_discardWork s i)

theorem serviceKept_enterHeld (s : State) (i : Nat) (c : HoldCause) : ServiceKept s (s.enterHeld i c) :=
  .of_handsCleared (enterHeld_available s i c) (lane_enterHeld s i · c)

theorem serviceKept_releaseHoldings (s : State) (i : Nat) : ServiceKept s (s.releaseHoldings i) :=
  .of_handsCleared (releaseHoldings_available s i) (lane_releaseHoldings s i)

theorem serviceKept_enterFree (s : State) (i : Nat) : ServiceKept s (s.enterFree i) :=
  .of_handsCleared (enterFree_available s i) (lane_enterFree s i)

theorem serviceKept_enterClosed (s : State) (i : Nat) (c : RetireCause) : ServiceKept s (s.enterClosed i c) := by
  refine (serviceKept_releaseHoldings s i).trans (.of_lanes (by simp) ?_)
  unfold enterClosed
  split <;> simp

theorem serviceKept_returnToOpen (s : State) (i : Nat) : ServiceKept s (s.returnToOpen i) :=
  (ServiceKept.of_lanes (t := s.giveBack (s.currentCost i)) (by simp) (by simp)).trans
    ((serviceKept_discardWork _ i).trans (.of_lanes (by simp [returnToOpen]) (by simp [returnToOpen])))

/-! ### Boundary claims, marks and cells -/

theorem serviceKept_stepFirst (s : State) (i : Nat) : ServiceKept s (s.stepFirst i) := by
  unfold stepFirst expireFirst
  split
  · split
    · split
      · exact serviceKept_enterClosed _ _ _
      · exact serviceKept_returnToOpen _ _
    · exact .of_lanes rfl rfl
  · exact .refl s

theorem serviceKept_stepSilence (s : State) (i : Nat) : ServiceKept s (s.stepSilence i) := by
  have hs : ServiceKept s (s.stepStale i) := .of_lanes (by simp [stepStale]) (by simp [stepStale])
  unfold stepSilence
  split
  · exact hs.trans (serviceKept_enterClosed _ _ _)
  · exact hs

theorem serviceKept_stepCounts (s : State) (i : Nat) : ServiceKept s (s.stepCounts i) := by
  have hh : ServiceKept s (s.stepHandover i) := .of_lanes (by simp) (by simp)
  unfold stepCounts
  split
  · exact hh.trans (serviceKept_stepFirst _ i)
  · exact hh.trans (serviceKept_stepSilence _ i)
  all_goals exact .refl s

theorem serviceKept_continueClaim (s : State) (i : Nat) : ServiceKept s (s.continueClaim i) := by
  unfold continueClaim
  split <;> exact .of_lanes (by simp) (by simp)

theorem serviceKept_claimBody (s : State) (i : Nat) : ServiceKept s (s.claimBody i) := by
  have hquiet : ServiceKept s ((s.stepHandover i).dropHanded i) := .of_lanes (by simp) (by simp)
  have hconv : ServiceKept s (((s.discardWork i).stepCounts i).continueClaim i) :=
    ((serviceKept_discardWork s i).trans (serviceKept_stepCounts _ i)).trans (serviceKept_continueClaim _ i)
  unfold claimBody
  split
  · exact hquiet
  · exact hquiet
  · exact hconv
  · exact hconv
  all_goals exact .refl s

theorem serviceKept_boundaryClaim (s : State) (i : Nat) : ServiceKept s (s.boundaryClaim i) := by
  unfold boundaryClaim
  split
  · exact (serviceKept_claimBody s i).trans (.of_lanes rfl rfl)
  · exact .refl s

theorem serviceKept_portBoundary (s : State) (p : Port) : ServiceKept s (s.portBoundary p) := by
  unfold portBoundary portBody goSilent
  split
  · split
    · exact .of_lanes rfl rfl
    · split <;> exact .of_lanes rfl rfl
  · exact .refl s

theorem serviceKept_settleBoundary (s : State) : ServiceKept s s.settleBoundary :=
  (((serviceKept_portBoundary s .a).trans (serviceKept_portBoundary _ .b)).trans
    (serviceKept_foldl _ serviceKept_boundaryClaim _ _)).trans (.of_lanes rfl rfl)

/-- An operation on slots that changes blocks alone. -/
theorem BlocksOnly.serviceKept {s t : State} (h : BlocksOnly s t) : ServiceKept s t := by
  unfold BlocksOnly at h
  exact .of_lanes (by rw [h]) (by rw [h])

theorem MarkFrame.serviceKept {s t : State} (h : MarkFrame s t) : ServiceKept s t := by
  unfold MarkFrame at h
  exact .of_lanes (by rw [h]) (by rw [h])

theorem serviceKept_frameMark (s : State) (rx : List (Nat × Byte)) : ServiceKept s (s.frameMark rx) := by
  have hs := serviceKept_settleBoundary s
  unfold frameMark
  split
  · have hf : BlocksOnly s.settleBoundary (s.settleBoundary.mappedSlots.foldl freshBlocks s.settleBoundary) :=
      blocksOnly_foldl (fun t n => (rfl : t.freshBlocks n = _)) _ _
    exact (hs.trans hf.serviceKept).trans (.of_lanes rfl rfl)
  · exact (hs.trans (markFrame_collect _ rx).serviceKept).trans (markFrame_markAt _ _).serviceKept

theorem serviceKept_framingLost (s : State) : ServiceKept s s.framingLost := by
  unfold framingLost
  split
  · exact .refl s
  · have hf : BlocksOnly s.settleBoundary (s.settleBoundary.blocks.keys.foldl dropBlocks s.settleBoundary) :=
      blocksOnly_foldl (fun t n => (rfl : t.dropBlocks n = _)) _ _
    exact ((serviceKept_settleBoundary s).trans hf.serviceKept).trans (.of_lanes rfl rfl)

theorem serviceKept_dispatch (s : State) (i : Nat) (c : InCell) : ServiceKept s (s.dispatch i c) := by
  unfold dispatch
  split
  case h_4 =>
    unfold place placeAt
    split
    · split
      · split <;> exact .of_lanes (by simp [heard, dropDuplicate]) (by simp [heard, dropDuplicate])
      · split <;> exact .of_lanes (by simp [heard, dropLate]) (by simp [heard, dropLate])
    · exact .of_lanes (by simp [heard]) (by simp [heard])
  all_goals exact .of_lanes (by simp [firstCell, heard]) (by simp [firstCell, heard])

theorem serviceKept_intake (s : State) (link : Nat) (bytes : List Byte) : ServiceKept s (s.intake link bytes) := by
  unfold intake reach
  split
  · exact .of_lanes rfl rfl
  · split
    · exact .of_lanes rfl rfl
    · split
      · exact serviceKept_dispatch _ _ _
      · exact (ServiceKept.of_lanes (by simp) (by simp)).trans (serviceKept_dispatch _ _ _)

/-! ### Works and faults (R61, R73, R74, R86) -/

/-- A lane that keeps its service state. -/
theorem serviceKept_setLane (s : State) (n : Nat) (v : Lane) (h : v.state = (s.lane n).state) :
    ServiceKept s (s.setLane n v) :=
  ⟨rfl, fun m => by
    rw [lane_setLane]
    split
    · next hm => rw [hm, h]
    · rfl⟩

theorem serviceKept_takeWork (s : State) (n i : Nat) : ServiceKept s (s.takeWork n i) := by
  unfold takeWork
  exact .ite _ (serviceKept_setLane s n _ rfl)

theorem serviceKept_complete (s : State) (n i : Nat) (w : Work) : ServiceKept s (s.complete n i w) := by
  have hframe := completionFrame_complete s n i w
  unfold CompletionFrame at hframe
  have hlane := serviceKept_setLane s n { s.lane n with inHand := none } rfl
  refine ⟨by rw [hframe], fun m => ?_⟩
  rw [lane_complete, ← hlane.service m, lane_setLane]

theorem serviceKept_finishWork (s : State) (n : Nat) : ServiceKept s (s.finishWork n) := by
  unfold finishWork
  split
  · split
    · exact serviceKept_complete _ _ _ _
    · exact .refl s
  · exact .refl s

theorem serviceKept_captureFault (s : State) (k : FaultKind) (n : Nat) : ServiceKept s (s.captureFault k n) :=
  .of_lanes (by simp) (by simp)

theorem serviceKept_dropHand (s : State) (n : Nat) : ServiceKept s (s.dropHand n) := by
  unfold dropHand
  split
  · exact serviceKept_discardWork _ _
  · exact .refl s

theorem serviceKept_contextFault (s : State) (n : Nat) : ServiceKept s (s.contextFault n) := by
  unfold contextFault
  split
  · next i _ =>
    have hheld := (serviceKept_captureFault s .contextCheck n).trans (serviceKept_enterHeld _ i .fault)
    exact .ite _ (hheld.trans (.of_lanes (by simp) (by simp)))
  · exact .refl s

theorem serviceKept_queueFault (s : State) (n : Nat) : ServiceKept s (s.queueFault n) := by
  unfold queueFault
  split
  · exact .ite _ (.of_lanes (by simp) (by simp))
  · exact .refl s

/-! ### The passes over the account (R65 to R69) -/

/-- Lowering and holding contexts leave every lane's service state (R66, R67). -/
theorem serviceKept_sheddingPass (s : State) : ServiceKept s (sheddingPass s).after := by
  have hshed : ∀ t i, ServiceKept t (shed t i) := fun t i =>
    .of_handsCleared (shed_available t i) (lane_shed t i)
  exact ⟨sheddingPass_keeps State.available (fun t i r => by simp) (fun t i => by simp) s, fun n =>
    sheddingPass_keeps (fun t => (t.lane n).state) (fun t i r => by rw [lane_congr (lower_lanes t i r)])
      (fun t i => (hshed t i).service n) s⟩

theorem serviceKept_readmissionPass (s : State) : ServiceKept s (readmissionPass s).after :=
  .of_lanes (readmissionPass_keeps State.available (fun t i => by simp) s)
    (readmissionPass_keeps State.lanes (fun t i => by simp) s)

/-! ### A lane leaves service, or comes back (R57) -/

/-- The lanes in service, as a set. -/
def lanesUp (s : State) : Finset Nat := (Finset.range 8).filter fun n => (s.lane n).state = .inService

theorem lanesInService_eq_card (s : State) : s.lanesInService = s.lanesUp.card := rfl

theorem mem_lanesUp (s : State) (n : Nat) : n ∈ s.lanesUp ↔ n < 8 ∧ (s.lane n).state = .inService := by
  simp [lanesUp]

/-- The invariant of R57 depends on the units and the service states alone. -/
theorem ServiceKept.availableMatches {s t : State} (h : ServiceKept s t) (hs : s.availableMatches) :
    t.availableMatches := by
  have hup : t.lanesUp = s.lanesUp := Finset.ext fun n => by rw [mem_lanesUp, mem_lanesUp, h.service]
  unfold State.availableMatches at hs ⊢
  rw [lanesInService_eq_card, hup, h.available, hs, lanesInService_eq_card]

/-- A lane in service goes out as `v`, with its 12,000 units (R63, R72). -/
theorem availableMatches_loseLane {s : State} {n : Nat} {v : LaneState} (hs : s.availableMatches) (hn : n < 8)
    (hin : (s.lane n).state = .inService) (hv : v ≠ .inService) : (s.loseLane n v).availableMatches := by
  have hmem : n ∈ s.lanesUp := (mem_lanesUp s n).2 ⟨hn, hin⟩
  have hup : (s.loseLane n v).lanesUp = s.lanesUp.erase n := Finset.ext fun m => by
    rw [Finset.mem_erase, mem_lanesUp, mem_lanesUp, lane_loseLane]
    by_cases hm : m = n <;> simp [hm, hv]
  have hcard := Finset.card_erase_add_one hmem
  unfold State.availableMatches at hs ⊢
  rw [lanesInService_eq_card] at hs ⊢
  rw [available_loseLane, hs, hup, ← hcard]
  simp only [Config.laneUnits]
  omega

/-- A lane comes back into service, with its 12,000 units (R64). -/
theorem availableMatches_regainLane {s : State} {n : Nat} (hs : s.availableMatches) (hn : n < 8)
    (hout : (s.lane n).state ≠ .inService) : (s.regainLane n).availableMatches := by
  have hmem : n ∉ s.lanesUp := fun h => hout ((mem_lanesUp s n).1 h).2
  have hup : (s.regainLane n).lanesUp = insert n s.lanesUp := Finset.ext fun m => by
    rw [Finset.mem_insert, mem_lanesUp, mem_lanesUp, lane_regainLane]
    by_cases hm : m = n <;> simp [hm, hn]
  have hcard := Finset.card_insert_of_notMem hmem
  unfold State.availableMatches at hs ⊢
  rw [lanesInService_eq_card] at hs ⊢
  rw [available_regainLane, hs, hup, hcard]
  simp only [Config.laneUnits]
  omega

/-- A lane out of service goes out in another way: no units move (R62, R72). -/
theorem availableMatches_setLaneState {s : State} {n : Nat} {v : LaneState} (hs : s.availableMatches)
    (hout : (s.lane n).state ≠ .inService) (hv : v ≠ .inService) : (s.setLaneState n v).availableMatches := by
  have hlane : ∀ m, (s.setLaneState n v).lane m = if m = n then { s.lane n with state := v } else s.lane m := fun m =>
    lane_setLane s n m _
  have hup : (s.setLaneState n v).lanesUp = s.lanesUp := Finset.ext fun m => by
    rw [mem_lanesUp, mem_lanesUp, hlane]
    by_cases hm : m = n <;> simp [hm, hv, hout]
  unfold State.availableMatches at hs ⊢
  rw [lanesInService_eq_card, hup, ← lanesInService_eq_card]
  exact hs

/-! ### What an operation does to the invariant -/

/-- An operation keeps the available units at 12,000 for each lane in service (R57). -/
def UnitsFollow (s t : State) : Prop := s.availableMatches → t.availableMatches

theorem UnitsFollow.refl (s : State) : UnitsFollow s s := id

theorem ServiceKept.unitsFollow {s t : State} (h : ServiceKept s t) : UnitsFollow s t := h.availableMatches

theorem UnitsFollow.trans {s t u : State} (h : UnitsFollow s t) (h' : UnitsFollow t u) : UnitsFollow s u := h' ∘ h

theorem UnitsFollow.ite {s t : State} (c : Prop) [Decidable c] (h : UnitsFollow s t) :
    UnitsFollow s (if c then t else s) := by
  split
  · exact h
  · exact .refl s

/-- A LANE_CHECK (R72): the lane in service takes its units out with it, the lane already out has none. -/
theorem unitsFollow_laneFault (s : State) (n : Fin 8) : UnitsFollow s (s.laneFault n) := by
  have hdrop : ServiceKept s ((s.captureFault .laneCheck n).dropHand n) :=
    (serviceKept_captureFault s .laneCheck n).trans (serviceKept_dropHand _ n)
  intro hs
  unfold laneFault
  split
  · next hin =>
    have hlost := availableMatches_loseLane (v := .outFault) (hdrop.unitsFollow hs) n.isLt
      ((hdrop.service n).trans hin) (by decide)
    exact (serviceKept_sheddingPass _).unitsFollow hlost
  · next hout _ =>
    exact availableMatches_setLaneState (hdrop.unitsFollow hs) (by rw [hdrop.service, hout]; decide) (by decide)
  · exact hs
  · exact hs

theorem serviceKept_softReset (s : State) : ServiceKept s s.softReset :=
  (serviceKept_foldl enterFree serviceKept_enterFree s.liveContexts s).trans (.of_lanes rfl rfl)

theorem availableMatches_reset : State.reset.availableMatches := rfl

theorem unitsFollow_hardReset (s : State) : UnitsFollow s s.hardReset := fun _ => availableMatches_reset

end State

/-! ### LANE_SERVICE (R62 to R64) -/

theorem unitsFollow_laneOut {n : Nat} (hn : n < 8) (s : State) : UnitsFollow s (laneOut n s).after := by
  intro hs
  unfold laneOut laneReply
  split
  · next hin =>
    exact (serviceKept_sheddingPass _).unitsFollow (availableMatches_loseLane hs hn hin (by decide))
  · exact hs
  · next hout => exact availableMatches_setLaneState hs (by rw [hout]; decide) (by decide)

theorem unitsFollow_laneIn {n : Nat} (hn : n < 8) (s : State) : UnitsFollow s (laneIn n s).after := by
  have hback : (s.lane n).state ≠ .inService → UnitsFollow s (readmissionPass (s.regainLane n)).after := fun hout hs =>
    (serviceKept_readmissionPass _).unitsFollow (availableMatches_regainLane hs hn hout)
  unfold laneIn laneReply
  split
  · exact .refl s
  · next hout => exact hback (by rw [hout]; decide)
  · next hout => exact hback (by rw [hout]; decide)

theorem unitsFollow_laneServiceOrder (body : List Byte) (s : State) : UnitsFollow s (laneServiceOrder body s).after := by
  unfold laneServiceOrder
  split
  · split
    · exact .refl s
    · split
      · exact unitsFollow_laneOut (by omega) s
      · split
        · exact unitsFollow_laneIn (by omega) s
        · exact .refl s
  · exact .refl s

/-! ### The other orders -/

theorem serviceKept_named (i0 i1 g : Byte) (b : Bool) (s : State) (act : Nat → Taken)
    (h : ∀ i, ServiceKept s (act i).after) : ServiceKept s (named i0 i1 g b s act).after := by
  unfold named
  split
  · exact .refl s
  · split
    · exact .refl s
    · exact h _

theorem serviceKept_ownerChecked (p : Port) (i0 i1 g : Byte) (b : Bool) (s : State) (act : Nat → Taken)
    (h : ∀ i, ServiceKept s (act i).after) : ServiceKept s (ownerChecked p i0 i1 g b s act).after := by
  refine serviceKept_named i0 i1 g b s _ fun i => ?_
  unfold owned
  split
  · exact h i
  · exact .refl s

theorem serviceKept_retireContext (i : Nat) (s : State) : ServiceKept s (retireContext i s).after := by
  have hcount : ServiceKept s (s.countFor .retire i) := .of_lanes rfl rfl
  exact hcount.trans (serviceKept_enterFree _ i)

theorem serviceKept_armContext (i : Nat) (s : State) : ServiceKept s (armContext i s).after := by
  unfold armContext
  split
  · exact .refl s
  · split
    · exact .refl s
    · split <;> exact .of_lanes rfl rfl

theorem serviceKept_holdContext (i : Nat) (s : State) : ServiceKept s (holdContext i s).after := by
  unfold holdContext
  split
  · exact serviceKept_enterHeld s i .order
  · exact serviceKept_enterHeld s i .order
  · split <;> exact .of_lanes rfl rfl
  all_goals exact .refl s

theorem serviceKept_resumeContext (i : Nat) (s : State) : ServiceKept s (resumeContext i s).after := by
  unfold resumeContext
  split
  · exact .refl s
  · split <;> exact .of_lanes rfl rfl

theorem serviceKept_adoptContext (p : Port) (i : Nat) (s : State) : ServiceKept s (adoptContext p i s).after := by
  unfold adoptContext
  split
  · exact .refl s
  · split
    · exact .of_lanes (by simp) (by simp)
    · exact .refl s

theorem serviceKept_bindSlotTo (i n : Nat) (l : Law) (s : State) : ServiceKept s (bindSlotTo i n l s).after := by
  unfold bindSlotTo
  split
  · exact .refl s
  · split
    · split <;> exact .of_lanes rfl rfl
    · exact .of_lanes (by simp [takeSlot]) (by simp [takeSlot])

theorem serviceKept_unbindSlotOf (i : Nat) (s : State) : ServiceKept s (unbindSlotOf i s).after := by
  unfold unbindSlotOf
  split
  · exact .refl s
  · split
    · exact .of_lanes (by simp) (by simp)
    · exact .refl s

theorem serviceKept_placePrimary (i : Nat) (k : StreamKey) (s : State) : ServiceKept s (placePrimary i k s) :=
  .of_lanes (by simp [placePrimary]) (by simp [placePrimary])

theorem serviceKept_bindStreamTo (i : Nat) (k : StreamKey) (s : State) : ServiceKept s (bindStreamTo i k s).after := by
  unfold bindStreamTo
  split
  · exact .refl s
  · split
    · split <;> exact .refl s
    · exact serviceKept_placePrimary i k s

theorem serviceKept_unbindStreamOf (i : Nat) (s : State) : ServiceKept s (unbindStreamOf i s).after := by
  unfold unbindStreamOf
  split
  · exact .refl s
  · split
    · exact .of_lanes (by simp) (by simp)
    · exact .refl s

theorem serviceKept_relinkContext (i l : Nat) (s : State) : ServiceKept s (relinkContext i l s).after := by
  unfold relinkContext relinkFrom
  split
  · exact .refl s
  · split
    · split
      · exact .refl s
      · split
        · exact .refl s
        · exact serviceKept_placePrimary i _ s
    · exact .refl s

theorem serviceKept_setProfileOf (i n : Nat) (set : RateSet) (s : State) :
    ServiceKept s (setProfileOf i n set s).after := by
  unfold setProfileOf
  split
  · exact .refl s
  · split
    · exact .refl s
    · exact .of_lanes (by simp [moveRef]) (by simp [moveRef])

theorem serviceKept_setRatesetOf (i : Nat) (set : RateSet) (s : State) :
    ServiceKept s (setRatesetOf i set s).after := by
  unfold setRatesetOf replaceRateset moveRateset
  split
  · exact .refl s
  · split
    · exact .refl s
    · split
      · split
        · exact .of_lanes (by simp) (by simp)
        · split
          · exact .of_lanes (by simp) (by simp)
          · split <;> exact .of_lanes (by simp) (by simp)
      · exact .refl s

theorem serviceKept_setRateOf (i r : Nat) (s : State) : ServiceKept s (setRateOf i r s).after := by
  unfold setRateOf setRatePending setRateAtOnce
  split
  · exact .refl s
  · split
    · exact .refl s
    · split
      · split <;> exact .of_lanes rfl rfl
      · split <;> exact .of_lanes rfl rfl

theorem serviceKept_prepareHandover (i : Nat) (h : Handover) (s : State) :
    ServiceKept s (prepareHandover i h s).after := by
  unfold prepareHandover
  split
  · exact .refl s
  · split <;> exact .of_lanes rfl rfl

theorem serviceKept_commitHandover (i : Nat) (s : State) : ServiceKept s (commitHandover i s).after := by
  unfold commitHandover
  split <;> exact .of_lanes (by simp [refuse]) (by simp [refuse])

theorem serviceKept_cancelHandover (i : Nat) (s : State) : ServiceKept s (cancelHandover i s).after := by
  unfold cancelHandover
  split <;> exact .of_lanes (by simp [refuse]) (by simp [refuse])

theorem serviceKept_prioritize (i n : Nat) (s : State) : ServiceKept s (prioritize i n s).after := by
  unfold prioritize
  split <;> exact .of_lanes rfl rfl

theorem serviceKept_setSupervisionOf (i d l : Nat) (a : Bool) (s : State) :
    ServiceKept s (setSupervisionOf i d l a s).after := by
  unfold setSupervisionOf
  split <;> exact .of_lanes rfl rfl

theorem serviceKept_setLevelOf (i : Nat) (v : Levels) (s : State) : ServiceKept s (setLevelOf i v s).after := by
  unfold setLevelOf
  split <;> exact .of_lanes rfl rfl

theorem serviceKept_setPlayoutOf (i n : Nat) (s : State) : ServiceKept s (setPlayoutOf i n s).after := by
  unfold setPlayoutOf
  split <;> exact .of_lanes rfl rfl

theorem serviceKept_deliver (s : State) (i : Nat) : ServiceKept s (s.deliver i) := by
  unfold deliver
  split
  · exact serviceKept_enterFree s i
  · exact .of_lanes rfl rfl

/-- The orders that act on one context behind checks 3 to 5, but for the owner check of ADOPT (R164). -/
def ownerOrder : OrderCode → Bool
  | .retire | .arm | .hold | .resume | .setPriority | .bindSlot | .bindStream | .unbindSlot | .unbindStream | .relink
  | .setProfile | .setRateset | .setRate | .handoverPrepare | .handoverCommit | .handoverCancel | .setSupervision
  | .setLevel | .setPlayout => true
  | _ => false

theorem serviceKept_ownerOrder (p : Port) (c : OrderCode) (body : List Byte) (s : State) (hc : ownerOrder c = true) :
    ServiceKept s (takeOrder p c body s).after := by
  cases c <;> first | (cases hc; done) | simp only [takeOrder]
  case retire =>
    unfold retireOrder; split
    · exact serviceKept_ownerChecked p _ _ _ _ s _ fun i => serviceKept_retireContext i s
    · exact .refl s
  case arm =>
    unfold armOrder; split
    · exact serviceKept_ownerChecked p _ _ _ _ s _ fun i => serviceKept_armContext i s
    · exact .refl s
  case hold =>
    unfold holdOrder; split
    · exact serviceKept_ownerChecked p _ _ _ _ s _ fun i => serviceKept_holdContext i s
    · exact .refl s
  case resume =>
    unfold resumeOrder; split
    · exact serviceKept_ownerChecked p _ _ _ _ s _ fun i => serviceKept_resumeContext i s
    · exact .refl s
  case setPriority =>
    unfold setPriorityOrder; split
    · exact serviceKept_ownerChecked p _ _ _ _ s _ fun i => serviceKept_prioritize i _ s
    · exact .refl s
  case bindSlot =>
    unfold bindSlotOrder; split
    · exact serviceKept_ownerChecked p _ _ _ _ s _ fun i => serviceKept_bindSlotTo i _ _ s
    · exact .refl s
  case bindStream =>
    unfold bindStreamOrder; split
    · exact serviceKept_ownerChecked p _ _ _ _ s _ fun i => serviceKept_bindStreamTo i _ s
    · exact .refl s
  case unbindSlot =>
    unfold unbindSlotOrder; split
    · exact serviceKept_ownerChecked p _ _ _ _ s _ fun i => serviceKept_unbindSlotOf i s
    · exact .refl s
  case unbindStream =>
    unfold unbindStreamOrder; split
    · exact serviceKept_ownerChecked p _ _ _ _ s _ fun i => serviceKept_unbindStreamOf i s
    · exact .refl s
  case relink =>
    unfold relinkOrder; split
    · exact serviceKept_ownerChecked p _ _ _ _ s _ fun i => serviceKept_relinkContext i _ s
    · exact .refl s
  case setProfile =>
    unfold setProfileOrder; split
    · exact serviceKept_ownerChecked p _ _ _ _ s _ fun i => serviceKept_setProfileOf i _ _ s
    · exact .refl s
  case setRateset =>
    unfold setRatesetOrder; split
    · exact serviceKept_ownerChecked p _ _ _ _ s _ fun i => serviceKept_setRatesetOf i _ s
    · exact .refl s
  case setRate =>
    unfold setRateOrder; split
    · exact serviceKept_ownerChecked p _ _ _ _ s _ fun i => serviceKept_setRateOf i _ s
    · exact .refl s
  case handoverPrepare =>
    unfold handoverPrepareOrder; split
    · exact serviceKept_ownerChecked p _ _ _ _ s _ fun i => serviceKept_prepareHandover i _ s
    · exact .refl s
  case handoverCommit =>
    unfold handoverCommitOrder; split
    · exact serviceKept_ownerChecked p _ _ _ _ s _ fun i => serviceKept_commitHandover i s
    · exact .refl s
  case handoverCancel =>
    unfold handoverCancelOrder; split
    · exact serviceKept_ownerChecked p _ _ _ _ s _ fun i => serviceKept_cancelHandover i s
    · exact .refl s
  case setSupervision =>
    unfold setSupervisionOrder; split
    · exact serviceKept_ownerChecked p _ _ _ _ s _ fun i => serviceKept_setSupervisionOf i _ _ _ s
    · exact .refl s
  case setLevel =>
    unfold setLevelOrder; split
    · exact serviceKept_ownerChecked p _ _ _ _ s _ fun i => serviceKept_setLevelOf i _ s
    · exact .refl s
  case setPlayout =>
    unfold setPlayoutOrder; split
    · exact serviceKept_ownerChecked p _ _ _ _ s _ fun i => serviceKept_setPlayoutOf i _ s
    · exact .refl s

/-- The orders that write no record leave the units and the lanes too (LANE_SERVICE is not one of them). -/
theorem serviceKept_leavesRecords (p : Port) (c : OrderCode) (body : List Byte) (s : State)
    (hc : leavesRecords c = true) : ServiceKept s (takeOrder p c body s).after := by
  cases c <;> first | (cases hc; done) | simp only [takeOrder]
  case keepalive => unfold keepaliveOrder; split <;> exact .refl s
  case superviseSet =>
    unfold superviseSetOrder; split
    · split <;> exact .of_lanes rfl rfl
    · exact .refl s
  case batch => exact .refl s
  case query =>
    unfold queryOrder; split
    · exact serviceKept_named _ _ _ _ s _ fun _ => .refl s
    · exact .refl s
  case profileLoad =>
    unfold profileLoadOrder loadProfile; split
    · split
      · exact .refl s
      · split
        · exact .refl s
        · split
          · split <;> exact .of_lanes rfl rfl
          · exact .refl s
    · exact .refl s
  case profileClear =>
    unfold profileClearOrder clearProfile; split
    · split
      · exact .refl s
      · split
        · exact .refl s
        · exact .refl s
        · split <;> exact .of_lanes rfl rfl
    · exact .refl s
  case profileRead =>
    unfold profileReadOrder; split
    · split <;> exact .refl s
    · exact .refl s
  case levelDefaults =>
    unfold levelDefaultsOrder; split
    · split <;> exact .of_lanes rfl rfl
    · exact .refl s
  case faultRead => unfold faultReadOrder; split <;> exact .of_lanes rfl rfl
  case sweep =>
    unfold sweepOrder startSweep; split
    · split
      · split <;> exact .of_lanes rfl rfl
      · exact .refl s
    · exact .refl s
  case sweepAbort =>
    unfold sweepAbortOrder; split
    · split <;> exact .of_lanes rfl rfl
    · exact .refl s
  case sweepContinue =>
    unfold sweepContinueOrder; split
    · split <;> exact .of_lanes rfl rfl
    · exact .refl s
  case sweepStatus =>
    unfold sweepStatusOrder; split
    · split <;> exact .refl s
    · exact .refl s
  case tallySet =>
    unfold tallySetOrder setTally; split
    · split
      · split <;> exact .of_lanes rfl rfl
      · exact .refl s
    · exact .refl s
  case tallyRead => unfold tallyReadOrder; split <;> exact .refl s
  case inspect =>
    unfold inspectOrder; split
    · split <;> exact .refl s
    · exact .refl s

/-- Every order keeps the invariant; LANE_SERVICE alone moves units. -/
theorem unitsFollow_takeOrder (p : Port) (c : OrderCode) (body : List Byte) (s : State) :
    UnitsFollow s (takeOrder p c body s).after := by
  by_cases hl : leavesRecords c = true
  · exact (serviceKept_leavesRecords p c body s hl).unitsFollow
  by_cases ho : ownerOrder c = true
  · exact (serviceKept_ownerOrder p c body s ho).unitsFollow
  cases c <;> first | exact absurd rfl hl | exact absurd rfl ho | simp only [takeOrder]
  case notices =>
    unfold noticesOrder; split
    · have htaken : ServiceKept s (s.takeNotices p) := .of_lanes rfl rfl
      exact (htaken.trans (serviceKept_foldl _ serviceKept_deliver _ _)).unitsFollow
    · exact .refl s
  case reset =>
    unfold resetOrder; split
    · split
      · exact (serviceKept_softReset s).unitsFollow
      · split <;> exact (ServiceKept.of_lanes rfl rfl).unitsFollow
    · exact .refl s
  case adopt =>
    unfold adoptOrder; split
    · exact (serviceKept_named _ _ _ _ s _ fun i => serviceKept_adoptContext p i s).unitsFollow
    · exact .refl s
  case openContext =>
    unfold openOrder openAt; split
    · split
      · split <;> exact (ServiceKept.of_lanes rfl rfl).unitsFollow
      · exact .refl s
    · exact .refl s
  case laneService => exact unitsFollow_laneServiceOrder body s

/-! ### Frames, batches and visits (R154, R162 to R166) -/

namespace State

/-- What is done to a port leaves the units and the lanes. -/
theorem serviceKept_setPort (s : State) (p : Port) (v : PortState) : ServiceKept s (s.setPort p v) := .of_lanes rfl rfl

end State

theorem unitsFollow_takeCode (p : Port) (code : Byte) (body : List Byte) (s : State) :
    UnitsFollow s (takeCode p code body s).after := by
  unfold takeCode
  split
  · exact unitsFollow_takeOrder p _ body s
  · exact .refl s

theorem unitsFollow_takeFrame (p : Port) (code tag : Byte) (body : List Byte) (s : State) :
    UnitsFollow s (takeFrame p code tag body s) := by
  unfold takeFrame takeBatch
  split
  · split <;> exact (serviceKept_setPort s p _).unitsFollow
  · exact (unitsFollow_takeCode p code body s).trans (serviceKept_setPort _ p _).unitsFollow

theorem unitsFollow_takeGood (p : Port) (code tag : Byte) (body : List Byte) (s : State) :
    UnitsFollow s (takeGood p code (takeFrame p code tag body) s) := by
  have hrenew : ServiceKept s (s.renew p code) := .of_lanes (by simp) (by simp)
  unfold takeGood
  split
  · exact .refl s
  · exact hrenew.unitsFollow.trans (unitsFollow_takeFrame p code tag body _)

theorem unitsFollow_takeBad (p : Port) (code tag : Byte) (s : State) : UnitsFollow s (takeBad p code tag s) := by
  unfold takeBad
  split
  · exact .refl s
  · exact (serviceKept_setPort s p _).unitsFollow

theorem unitsFollow_onFrame (p : Port) (f : Frame) (take : State → State) (s : State)
    (h : ∀ t, UnitsFollow t (take t)) : UnitsFollow s (onFrame p f take s) := by
  have hrx : UnitsFollow s (s.setRx p .hunt) := (serviceKept_setPort s p _).unitsFollow
  unfold onFrame holdFrame
  split
  · exact .refl s
  · split
    · split
      · exact hrx.trans (serviceKept_setPort _ p _).unitsFollow
      · exact hrx
    · exact hrx.trans (h _)

theorem unitsFollow_goodFrame (p : Port) (code tag : Byte) (body : List Byte) (s : State) :
    UnitsFollow s (goodFrame p code tag body s) :=
  unitsFollow_onFrame p _ _ s (unitsFollow_takeGood p code tag body)

theorem unitsFollow_spoiltFrame (p : Port) (code tag : Byte) (s : State) : UnitsFollow s (spoiltFrame p code tag s) :=
  unitsFollow_onFrame p _ _ s (unitsFollow_takeBad p code tag)

theorem unitsFollow_subOrder (p : Port) (s : State) : UnitsFollow s (s.subOrder p) := by
  unfold subOrder afterSubOrder
  split
  · split
    · next x _ _ =>
      have hx := unitsFollow_takeCode p x.1 x.2 s
      split
      · exact hx.trans (ServiceKept.of_lanes rfl rfl).unitsFollow
      · split <;> exact hx.trans (ServiceKept.of_lanes rfl rfl).unitsFollow
    · exact .refl s
  · exact .refl s

theorem unitsFollow_takeHeldFrame (p : Port) (s : State) : UnitsFollow s (s.takeHeldFrame p) := by
  unfold takeHeldFrame takeHeld
  split
  · exact .refl s
  · split
    · have hp := fun t => (serviceKept_setPort s p { s.port p with heldFrames := t }).unitsFollow
      split
      · exact (hp _).trans (unitsFollow_takeGood p _ _ _ _)
      · exact (hp _).trans (unitsFollow_takeBad p _ _ _)
    · exact .refl s

theorem unitsFollow_incoming (p : Port) (b : Byte) (s : State) : UnitsFollow s (s.incoming p b) := by
  have hrx : ∀ r, UnitsFollow s (s.setRx p r) := fun r => (serviceKept_setPort s p _).unitsFollow
  unfold incoming byteIn completeFrame
  split
  · exact .refl s
  · split
    · exact .ite _ (hrx _)
    · exact hrx _
    · exact hrx _
    · exact hrx _
    · exact hrx _
    · split
      · exact unitsFollow_goodFrame p _ _ _ s
      · exact unitsFollow_spoiltFrame p _ _ s

theorem unitsFollow_responseSent (p : Port) (s : State) : UnitsFollow s (s.responseSent p) := by
  unfold responseSent
  split
  · exact .refl s
  · split
    · exact unitsFollow_hardReset s
    · exact (serviceKept_setPort s p _).unitsFollow

theorem serviceKept_applyAction (p : Port) (a : SweepAction) (i : Nat) (s : State) :
    ServiceKept s (applyAction p a i s).after := by
  cases a with
  | retire => exact serviceKept_retireContext i s
  | hold => exact serviceKept_holdContext i s
  | resume => exact serviceKept_resumeContext i s
  | relink l => exact serviceKept_relinkContext i l s
  | rerateLow => exact serviceKept_setRateOf i _ s
  | setPriority n => exact serviceKept_prioritize i n s
  | adopt => exact serviceKept_adoptContext p i s

theorem serviceKept_visit (p : Port) (s : State) : ServiceKept s (s.visit p) := by
  have hend : ∀ (t : State) v, ServiceKept t (t.endVisit p v) := fun t v => by
    unfold endVisit
    split <;> exact .of_lanes rfl rfl
  unfold visit visitWith visitMatch
  split
  · split
    · exact (serviceKept_applyAction p _ _ s).trans (hend _ _)
    · exact hend _ _
  · exact .refl s

/-! ### Every command -/

theorem unitsFollow_runs {s t u : State} (h : UnitsFollow s u) (ht : runs s u = .next t) : UnitsFollow s t := by
  unfold runs at ht
  split at ht <;> cases ht
  · exact .refl s
  · exact h

/-- A command that is no order keeps the invariant. -/
theorem unitsFollow_event (i : Instr) (ho : i.order = none) (s t : State) (ht : exec i s = .next t) :
    UnitsFollow s t := by
  cases i <;> first | (cases ho; done) | skip
  case batchSubOrder p => exact unitsFollow_runs (unitsFollow_subOrder p s) ht
  case heldFrameTaken p => exact unitsFollow_runs (unitsFollow_takeHeldFrame p s) ht
  case hardResetPerformed p => exact unitsFollow_runs (.ite _ (unitsFollow_responseSent p s)) ht
  case unknownOrder p code tag body => exact unitsFollow_runs (unitsFollow_goodFrame p code tag body s) ht
  case badFrame p code tag => exact unitsFollow_runs (unitsFollow_spoiltFrame p code tag s) ht
  case frameTooLong p n =>
    refine unitsFollow_runs ?_ ht
    split
    · exact .refl s
    · exact (serviceKept_setPort s p _).unitsFollow
  case frameDiscardedFullLine p code tag body =>
    exact unitsFollow_runs (.ite _ (unitsFollow_goodFrame p code tag body s)) ht
  case frameDiscardedBatchHold p good code tag body =>
    refine unitsFollow_runs (.ite _ ?_) ht
    split
    · exact unitsFollow_goodFrame p code tag body s
    · exact unitsFollow_spoiltFrame p code tag s
  case responseSent p => exact unitsFollow_runs (unitsFollow_responseSent p s) ht
  case resetPin => cases ht; exact fun _ => availableMatches_reset
  case powerOn => cases ht; exact unitsFollow_hardReset s
  case resetPinReleased => cases ht; exact (ServiceKept.of_lanes rfl rfl).unitsFollow
  case frameMark rx => exact unitsFollow_runs (serviceKept_frameMark s rx).unitsFollow ht
  case framingLost => exact unitsFollow_runs (serviceKept_framingLost s).unitsFollow ht
  case boundaryClaim j => exact unitsFollow_runs (serviceKept_boundaryClaim s j).unitsFollow ht
  case portBoundary p => exact unitsFollow_runs (serviceKept_portBoundary s p).unitsFollow ht
  case portSilent p => exact unitsFollow_runs (.ite _ (serviceKept_portBoundary s p).unitsFollow) ht
  case firstCellExpiry j => exact unitsFollow_runs (.ite _ (serviceKept_boundaryClaim s j).unitsFollow) ht
  case silenceLimit j => exact unitsFollow_runs (.ite _ (serviceKept_boundaryClaim s j).unitsFollow) ht
  case silenceRetire j => exact unitsFollow_runs (.ite _ (serviceKept_boundaryClaim s j).unitsFollow) ht
  case handoverExpiry j => exact unitsFollow_runs (.ite _ (serviceKept_boundaryClaim s j).unitsFollow) ht
  case cellArrival l bytes => exact unitsFollow_runs (serviceKept_intake s l bytes).unitsFollow ht
  case laneTakesWork n j => exact unitsFollow_runs (serviceKept_takeWork s n j).unitsFollow ht
  case workCompletion n => exact unitsFollow_runs (serviceKept_finishWork s n).unitsFollow ht
  case laneCheck n => exact unitsFollow_runs (unitsFollow_laneFault s n) ht
  case contextCheck n => exact unitsFollow_runs (serviceKept_contextFault s n).unitsFollow ht
  case queueCheck n => exact unitsFollow_runs (serviceKept_queueFault s n).unitsFollow ht
  case sweepVisit p => exact unitsFollow_runs (serviceKept_visit p s).unitsFollow ht
  case incomingByte p b => exact unitsFollow_runs (unitsFollow_incoming p b s) ht
  case outboundCellSent l =>
    refine unitsFollow_runs (ServiceKept.unitsFollow ?_) ht
    unfold cellSent
    split <;> exact .of_lanes rfl rfl

theorem unitsFollow_exec (i : Instr) (s t : State) (ht : exec i s = .next t) : UnitsFollow s t := by
  cases ho : i.order with
  | some f =>
    rw [exec_order i f ho s] at ht
    exact unitsFollow_runs (unitsFollow_goodFrame f.port f.code.byte f.tag f.body s) ht
  | none => exact unitsFollow_event i ho s t ht

/-- Settles O57: of the commands, LANE_SERVICE, LANE_CHECK and the hard resets alone move units or service states, and
each moves both together (`availableMatches_loseLane`, `availableMatches_regainLane`). -/
theorem availableUnitsKept : Obligations.AvailableUnitsKept := by
  intro s t hs ht
  unfold step at ht
  split at ht
  · cases ht; exact hs
  · next c rest _ => exact unitsFollow_exec c { s with pending := rest } t ht hs

end Sys2Proof.Machine
end

section
/-! SUPPORT. What a lane takes (R61), and what a fault about a context leaves (R73 to R75, R167). -/

namespace Sys2Proof.Machine

open State

/-! ### The bits that lane events and faults add (R191) -/

theorem add_laneOut (x : PortCondSet) : x.add .laneOut = x ||| 0x02#6 := congrArg (x ||| ·) (by decide)
theorem add_laneBack (x : PortCondSet) : x.add .laneBack = x ||| 0x04#6 := congrArg (x ||| ·) (by decide)
theorem add_faultCaptured (x : PortCondSet) : x.add .faultCaptured = x ||| 0x08#6 := congrArg (x ||| ·) (by decide)
theorem add_faulted (x : CondSet) : x.add .faulted = x ||| 0x200#12 := congrArg (x ||| ·) (by decide)

/-! ### A lane takes a waiting work (R61) -/

theorem inHand_eq_false {s : State} {i : Nat} (h : ∀ m, m < 8 → (s.lane m).inHand ≠ some i) : s.inHand i = false := by
  unfold inHand
  rw [List.any_eq_false]
  intro m hm
  simpa using h m (List.mem_range.1 hm)

theorem takeWork_waiting {s : State} {n i : Nat} (hst : (s.lane n).state = .inService) (hfree : (s.lane n).inHand = none)
    (hwork : (s.ctx i).work.isSome = true) (hnone : ∀ m, m < 8 → (s.lane m).inHand ≠ some i)
    (hclaim : s.claimDue i = false) : s.takeWork n i = s.setLane n ⟨.inService, some i⟩ := by
  have hwaits : s.workWaits i = true := by simp [workWaits, hwork, inHand_eq_false hnone, hclaim]
  unfold takeWork
  rw [if_pos ⟨hst, hfree, hwaits⟩]
  exact congrArg (fun st => s.setLane n ⟨st, some i⟩) hst

/-- Settles O34: the work waits, so the lane takes it (`takeWork_waiting`). -/
theorem laneTakesWaitingWork : Obligations.LaneTakesWaitingWork := by
  intro n i s hpin hst hfree hwork hnone hclaim
  have htake := takeWork_waiting hst hfree hwork hnone hclaim
  refine ⟨_, runs_released _ hpin, ?_, fun m hm => ?_, ?_⟩
  · rw [htake, lane_setLane, if_pos rfl]
  · rw [htake, lane_setLane, if_neg hm]
  · rw [htake]; rfl

/-! ### The capture record (R75) -/

/-- From `s` to `t` the capture record took a fault of kind `kind` at lane `n` about the context of handle `h`, and
nothing else was raised at a port (R75). -/
structure Captured (s t : State) (kind : FaultKind) (n : Nat) (h : Option Handle) : Prop where
  empty : s.capture.record = none →
    t.capture = ⟨some ⟨kind, n, h, s.timer.period⟩, false⟩ ∧
      ∀ q, t.port q = { s.port q with conds := (s.port q).conds ||| 0x08#6 }
  filled : ∀ r, s.capture.record = some r → t.capture = ⟨some r, true⟩ ∧ t.ports = s.ports

theorem captured_captureFault (s : State) (kind : FaultKind) (n : Nat) :
    Captured s (s.captureFault kind n) kind n (s.handAt n) where
  empty h := by
    obtain ⟨hcap, hport⟩ := captureFault_empty s kind n h
    exact ⟨hcap, fun q => by rw [hport, add_faultCaptured]⟩
  filled r h := by
    rw [captureFault_filled s kind n r h]
    exact ⟨rfl, rfl⟩

/-- What comes after the capture leaves the record and the ports. -/
theorem Captured.congr {s t u : State} {kind : FaultKind} {n : Nat} {h : Option Handle} (hc : Captured s t kind n h)
    (hcap : u.capture = t.capture) (hports : u.ports = t.ports) : Captured s u kind n h where
  empty hr := by
    obtain ⟨h1, h2⟩ := hc.empty hr
    exact ⟨hcap.trans h1, fun q => (port_congr hports q).trans (h2 q)⟩
  filled r hr := by
    obtain ⟨h1, h2⟩ := hc.filled r hr
    exact ⟨hcap.trans h1, hports.trans h2⟩

theorem handAt_some {s : State} {n i : Nat} (h : (s.lane n).inHand = some i) : s.handAt n = some ⟨i, (s.ctx i).gen⟩ := by
  simp [handAt, h, handleOf]

/-- What a capture leaves besides the record and the ports. -/
theorem captureFault_frame (s : State) (kind : FaultKind) (n : Nat) : s.captureFault kind n = { s with
    capture := (s.captureFault kind n).capture, ports := (s.captureFault kind n).ports } := by
  apply eq_of_fields <;> simp

/-! ### CONTEXT_CHECK (R73) -/

/-- The state after a context is held for a fault, with FAULTED raised on it. -/
def State.holdFaulted (s : State) (i : Nat) : State := (s.enterHeld i .fault).raise i .faulted

theorem contextFault_eq {s : State} {n i : Nat} (hi : (s.lane n).inHand = some i) (hc : (s.ctx i).converting = true) :
    s.contextFault n = (s.captureFault .contextCheck n).holdFaulted i := by
  unfold contextFault
  rw [hi]
  exact if_pos hc

theorem converting_iff (c : Ctx) : c.converting = true ↔ c.state = .armed ∨ c.state = .active := by
  unfold Ctx.converting
  cases c.state <;> simp

theorem ctx_holdFaulted (s : State) (i j : Nat) (hc : (s.ctx i).converting = true) : (s.holdFaulted i).ctx j =
    if j = i then { s.ctx i with
      state := .held, holdCause := some .fault,
      heldFrom := some (if (s.ctx i).state = .armed then .armed else .active), queue := [], expected := none,
      priming := false, firstRemaining := none, request := none, work := none, ready := none,
      conds := (s.ctx i).conds ||| (if fromOrder (s.ctx i).request then 0x10#12 else 0) ||| 0x200#12 }
    else s.ctx j := by
  unfold holdFaulted
  rw [ctx_raise, ctx_enterHeld, ctx_enterHeld]
  by_cases hj : j = i
  · subst hj
    rw [← heldFromOf_converting _ ((converting_iff _).1 hc)]
    cases hr : fromOrder (s.ctx j).request <;> simp [Ctx.toHeld, add_faulted, add_rateRefused]
  · simp [hj]

/-- When a raised condition queues its context at port `q` (R167). -/
theorem joins_iff (c : Ctx) (q : Port) : c.conds = 0 ∧ q = c.owner ↔ c.owner = q ∧ c.conds = 0 := by
  rw [and_comm, eq_comm (a := q)]

theorem queueOf_holdFaulted (s : State) (i : Nat) (q : Port) : (s.holdFaulted i).queueOf q =
    if (s.ctx i).owner = q ∧ (s.ctx i).conds = 0 then s.queueOf q ++ [i] else s.queueOf q := by
  have hne : ∀ x : CondSet, x.add .rateRefused ≠ 0 := fun x => add_ne_zero x _
  unfold holdFaulted
  rw [queueOf_raise, ctx_enterHeld, queueOf_enterHeld]
  cases hr : fromOrder (s.ctx i).request
  · simp only [if_true, Ctx.toHeld, Bool.false_eq_true, if_false, false_and, joins_iff]
  · simp only [if_true, Ctx.toHeld, hne, true_and, if_false, false_and, joins_iff]

theorem lane_holdFaulted (s : State) (i m : Nat) : (s.holdFaulted i).lane m =
    if m < 8 ∧ (s.lane m).inHand = some i then { s.lane m with inHand := none } else s.lane m :=
  (lane_congr (raise_lanes ..) m).trans (lane_enterHeld s i m .fault)

theorem reserved_holdFaulted (s : State) (i : Nat) : (s.holdFaulted i).reserved = s.reserved - s.currentCost i :=
  (raise_reserved ..).trans (reserved_enterHeld s i .fault)

theorem block_holdFaulted (s : State) (i m : Nat) : (s.holdFaulted i).block m =
    if (s.ctx i).slot.map SlotBinding.slot = some m then { s.block m with outbound := none } else s.block m :=
  (block_congr (raise_blocks ..) m).trans (block_enterHeld s i m .fault)

/-- What a hold for a fault leaves besides the records, the reserved units, the lanes, the queues and the blocks. -/
theorem holdFaulted_frame (s : State) (i : Nat) : s.holdFaulted i = { s with
    ctxs := (s.holdFaulted i).ctxs, reserved := (s.holdFaulted i).reserved, lanes := (s.holdFaulted i).lanes,
    attention := (s.holdFaulted i).attention, blocks := (s.holdFaulted i).blocks } := by
  apply eq_of_fields <;> simp [holdFaulted]

/-! ### QUEUE_CHECK (R74) -/

/-- The state after a context's queue is emptied and primes again, with FAULTED raised on it. -/
def State.emptyQueueFaulted (s : State) (i : Nat) : State :=
  (s.modCtx i fun c => { c with queue := [], expected := none, priming := true }).raise i .faulted

theorem queueFault_eq {s : State} {n i : Nat} (hi : (s.lane n).inHand = some i) (ha : (s.ctx i).state = .active) :
    s.queueFault n = (s.captureFault .queueCheck n).emptyQueueFaulted i := by
  unfold queueFault
  rw [hi]
  exact if_pos ha

theorem ctx_emptyQueueFaulted (s : State) (i j : Nat) : (s.emptyQueueFaulted i).ctx j =
    if j = i then { s.ctx i with queue := [], expected := none, priming := true, conds := (s.ctx i).conds ||| 0x200#12 }
    else s.ctx j := by
  unfold emptyQueueFaulted
  rw [ctx_raise]
  by_cases hj : j = i
  · subst hj; simp [add_faulted]
  · simp [hj]

theorem queueOf_emptyQueueFaulted (s : State) (i : Nat) (q : Port) : (s.emptyQueueFaulted i).queueOf q =
    if (s.ctx i).owner = q ∧ (s.ctx i).conds = 0 then s.queueOf q ++ [i] else s.queueOf q := by
  unfold emptyQueueFaulted
  rw [queueOf_raise, ctx_modCtx, if_pos rfl]
  exact if_congr (joins_iff (s.ctx i) q) rfl rfl

/-- What the emptied queue leaves besides the records and the attention queues. -/
theorem emptyQueueFaulted_frame (s : State) (i : Nat) : s.emptyQueueFaulted i = { s with
    ctxs := (s.emptyQueueFaulted i).ctxs, attention := (s.emptyQueueFaulted i).attention } := by
  apply eq_of_fields <;> simp [emptyQueueFaulted]

/-- Settles O36: the fault is captured, then the context is held (`ctx_holdFaulted`), or its queue is emptied
(`ctx_emptyQueueFaulted`). -/
theorem contextAndQueueChecks : Obligations.ContextAndQueueChecks := by
  intro n i s hpin hi
  have hctx : ∀ kind j, (s.captureFault kind n).ctx j = s.ctx j := fun kind => ctx_congr (captureFault_ctxs ..)
  have hqueue : ∀ kind q, (s.captureFault kind n).queueOf q = s.queueOf q := fun kind =>
    queueOf_congr (captureFault_attention ..)
  have hlane : ∀ kind m, (s.captureFault kind n).lane m = s.lane m := fun kind => lane_congr (captureFault_lanes ..)
  have hcap : ∀ kind, Captured s (s.captureFault kind n) kind n (some ⟨i, (s.ctx i).gen⟩) := fun kind =>
    handAt_some hi ▸ captured_captureFault s kind n
  refine ⟨fun hc => ?_, fun ha => ?_⟩
  · have hc' : ((s.captureFault .contextCheck n).ctx i).converting = true := by rw [hctx]; exact hc
    have hcost : (s.captureFault .contextCheck n).currentCost i = s.currentCost i :=
      currentCost_congr (captureFault_profiles ..) i (by rw [hctx]) (by rw [hctx])
    have hframe := holdFaulted_frame (s.captureFault .contextCheck n) i
    obtain ⟨hempty, hfilled⟩ := (hcap .contextCheck).congr (u := (s.captureFault .contextCheck n).holdFaulted i)
      (by rw [hframe]) (by rw [hframe])
    have hlanes : ∀ m, m < 8 → ((s.captureFault .contextCheck n).holdFaulted i).lane m =
        ⟨(s.lane m).state, (s.lane m).inHand.filter (· ≠ i)⟩ := fun m hm => by
      rw [lane_holdFaulted, hlane, ← lane_filter]
      simp [hm]
    refine ⟨_, (runs_released _ hpin).trans (congrArg _ (contextFault_eq hi hc)), ?_, fun j hj => ?_, ?_, hlanes, ?_,
      hempty, hfilled, fun q => ?_, fun m => ?_, ?_⟩
    · rw [ctx_holdFaulted _ i i hc', if_pos rfl, hctx]
    · rw [ctx_holdFaulted _ i j hc', if_neg hj, hctx]
    · rw [hlanes n n.isLt, hi]; simp
    · rw [reserved_holdFaulted, hcost, captureFault_reserved]
    · rw [queueOf_holdFaulted, hctx, hqueue]
    · rw [block_holdFaulted, hctx, block_congr (captureFault_blocks ..)]
    · rw [hframe, captureFault_frame]
  · have hframe := emptyQueueFaulted_frame (s.captureFault .queueCheck n) i
    obtain ⟨hempty, hfilled⟩ := (hcap .queueCheck).congr (u := (s.captureFault .queueCheck n).emptyQueueFaulted i)
      (by rw [hframe]) (by rw [hframe])
    refine ⟨_, (runs_released _ hpin).trans (congrArg _ (queueFault_eq hi ha)), ?_, fun j hj => ?_, hempty, hfilled,
      fun q => ?_, ?_⟩
    · rw [ctx_emptyQueueFaulted, if_pos rfl, hctx]
    · rw [ctx_emptyQueueFaulted, if_neg hj, hctx]
    · rw [queueOf_emptyQueueFaulted, hctx, hqueue]
    · rw [hframe, captureFault_frame]

end Sys2Proof.Machine
end

section
/-! SUPPORT. LANE_SERVICE (R62 to R64) and LANE_CHECK (R72): the state that has lost or regained the lane, and the pass
over the account from there (R65 to R69). -/

namespace Sys2Proof.Machine

open State

namespace State

/-! ### Canonical form -/

theorem canonical_freeLane (s : State) (i n : Nat) (h : s.canonical = true) : (s.freeLane i n).canonical = true := by
  unfold freeLane
  split
  · exact canonical_setLane s n _ h
  · exact h

theorem canonical_discardWork (s : State) (i : Nat) (h : s.canonical = true) : (s.discardWork i).canonical = true := by
  have hfree : ∀ (l : List Nat) (t : State), t.canonical = true →
      (l.foldl (fun t n => t.freeLane i n) t).canonical = true := by
    intro l
    induction l with
    | nil => exact fun _ ht => ht
    | cons n l ih => exact fun t ht => ih _ (canonical_freeLane t i n ht)
  exact hfree _ _ (canonical_modCtx s i _ h)

theorem canonical_dropHand (s : State) (n : Nat) (h : s.canonical = true) : (s.dropHand n).canonical = true := by
  unfold dropHand
  split
  · exact canonical_discardWork s _ h
  · exact h

theorem canonical_captureFault (s : State) (kind : FaultKind) (n : Nat) (h : s.canonical = true) :
    (s.captureFault kind n).canonical = true := by
  rw [captureFault_frame]; exact h

theorem canonical_loseLane (s : State) (n : Nat) (v : LaneState) (h : s.canonical = true) :
    (s.loseLane n v).canonical = true := canonical_setLane s n _ h

theorem canonical_regainLane (s : State) (n : Nat) (h : s.canonical = true) : (s.regainLane n).canonical = true :=
  canonical_setLane s n _ h

/-! ### The state that has lost or regained the lane (R63, R64) -/

/-- A lost lane moves lanes, available units and ports alone. -/
theorem loseLane_frame (s : State) (n : Nat) (v : LaneState) : s.loseLane n v = { s with
    lanes := (s.loseLane n v).lanes, available := s.available - 12000, ports := (s.loseLane n v).ports } := by
  rw [← available_loseLane s n v]; rfl

/-- So does a regained one. -/
theorem regainLane_frame (s : State) (n : Nat) : s.regainLane n = { s with
    lanes := (s.regainLane n).lanes, available := s.available + 12000, ports := (s.regainLane n).ports } := rfl

/-! ### The end of the shedding pass (R67) -/

theorem state_shed (s : State) (i j : Nat) :
    ((s.shed i).ctx j).state = if j = i then .held else (s.ctx j).state := by
  have hc : ∀ k, (s.countFor .shed i).ctx k = s.ctx k := ctx_congr (countFor_ctxs ..)
  unfold shed
  rw [ctx_raise, ctx_enterHeld, ctx_enterHeld, hc, hc]
  by_cases hj : j = i <;> simp [hj, Ctx.toHeld]

/-- No context converts that did not before. -/
def NoneStarts (s t : State) : Prop := ∀ i, (s.ctx i).converting = false → (t.ctx i).converting = false

theorem converting_eq_false (c : Ctx) (h : c.state = .held) : c.converting = false := by simp [Ctx.converting, h]

theorem noneStarts_shed (s : State) (i : Nat) : NoneStarts s (s.shed i) := fun j hj => by
  have hst := state_shed s i j
  by_cases hji : j = i
  · rw [if_pos hji] at hst; exact converting_eq_false _ hst
  · rw [if_neg hji] at hst; unfold Ctx.converting at hj ⊢; rw [hst]; exact hj

theorem noneStarts_lower (s : State) (i r : Nat) : NoneStarts s (s.lower i r) := fun j hj => by
  rw [ctx_lower]
  split
  · next hji => subst hji; exact hj
  · exact hj

/-- Step one starts no context converting (R66). -/
theorem noneStarts_foldl_shedOne (l : List Nat) (w : Walk) : NoneStarts w.after (l.foldl shedOne w).after := by
  induction l generalizing w with
  | nil => exact fun _ h => h
  | cons i l ih =>
    have hone : NoneStarts w.after (shedOne w i).after := by
      unfold shedOne
      split
      · split
        · exact noneStarts_lower _ _ _
        · exact fun _ h => h
      · exact fun _ h => h
    exact fun j hj => ih _ j (hone j hj)

/-- Step two ends when reserved fits, or with every context of the order held (R67). -/
theorem foldl_shedTwo_ends (l : List Nat) (w : Walk) : NoneStarts w.after (l.foldl shedTwo w).after ∧
    ((l.foldl shedTwo w).after.overCommitted = false ∨
      ∀ i ∈ l, ((l.foldl shedTwo w).after.ctx i).converting = false) := by
  induction l generalizing w with
  | nil => exact ⟨fun _ h => h, Or.inr fun i hi => by cases hi⟩
  | cons i l ih =>
    rw [List.foldl_cons]
    by_cases hov : w.after.overCommitted = true
    · have hw : (shedTwo w i).after = w.after.shed i := by simp [shedTwo, hov]
      obtain ⟨hnone, hend⟩ := ih (shedTwo w i)
      rw [hw] at hnone
      refine ⟨fun j hj => hnone j (noneStarts_shed _ i j hj), hend.imp_right fun hl j hj => ?_⟩
      rcases List.mem_cons.1 hj with rfl | hj
      · exact hnone j (converting_eq_false _ ((state_shed _ j j).trans (if_pos rfl)))
      · exact hl j hj
    · have hno : w.after.overCommitted = false := by simpa using hov
      have hw : shedTwo w i = w := by simp [shedTwo, hno]
      rw [hw, foldl_shedTwo l w hno]
      exact ⟨fun _ h => h, Or.inl hno⟩

theorem sheddingPass_ends (s : State) (hp : ∀ i, (s.ctx i).priority ≤ 3) :
    (sheddingPass s).after.reserved ≤ (sheddingPass s).after.available ∨
      ∀ i, ((sheddingPass s).after.ctx i).converting = false := by
  have hone := noneStarts_foldl_shedOne s.sheddingOrder ⟨0, s⟩
  obtain ⟨htwo, hend⟩ := foldl_shedTwo_ends s.sheddingOrder ⟨0, (s.sheddingOrder.foldl shedOne ⟨0, s⟩).after⟩
  rcases hend with hfit | hheld
  · exact Or.inl (by simpa [overCommitted, sheddingPass] using hfit)
  · refine Or.inr fun i => ?_
    cases hc : (s.ctx i).converting with
    | true => exact hheld i ((mem_sheddingOrder s hp i).2 hc)
    | false => exact htwo i (hone i hc)

/-- Where reserved fits available the pass does nothing. -/
theorem sheddingPass_of_fits {s : State} (h : s.reserved ≤ s.available) : sheddingPass s = ⟨0, 0, s⟩ :=
  sheddingPass_fits s (by simpa [overCommitted] using h)

/-! ### The readmission pass (R69) -/

theorem readmissionOrder_nodup (s : State) (h : s.canonical = true) : s.readmissionOrder.Nodup :=
  (readmissionOrder_sorted s h).imp fun {a b} hab he => by subst he; rcases hab with h1 | h1 <;> omega

theorem held_of_mem_readmissionOrder {s : State} {i : Nat} (h : i ∈ s.readmissionOrder) :
    (s.ctx i).state = .held ∧ (s.ctx i).holdCause = some .shed := by
  have hd : ∀ n, Ctx.shedAt n Ctx.reset = false := by intro n; simp [Ctx.shedAt, Ctx.reset]
  simp only [readmissionOrder, List.mem_flatMap, mem_indicesWhere s _ (hd _), Ctx.shedAt, Bool.and_eq_true,
    decide_eq_true_eq] at h
  obtain ⟨n, -, hheld, -⟩ := h
  exact hheld

/-- A context after the readmission pass stands, or it was held by shedding and has returned, READMITTED. -/
theorem ctx_readmissionPass (s : State) (h : s.canonical = true) (i : Nat) :
    (readmissionPass s).after.ctx i = s.ctx i ∨
      ((s.ctx i).state = .held ∧ (s.ctx i).holdCause = some .shed ∧ (readmissionPass s).after.ctx i =
        { (s.ctx i).fromHeld with conds := (s.ctx i).conds ||| 0x100#12 }) := by
  obtain ⟨l, t, hfold, hsub, -, -, -, hctx, -⟩ :=
    foldl_readmitOne_spec s.readmissionOrder s 0 (readmissionOrder_nodup s h)
  have ht : (readmissionPass s).after = t := by rw [readmissionPass, hfold]
  rw [ht, hctx]
  by_cases hi : i ∈ l
  · obtain ⟨hst, hcause⟩ := held_of_mem_readmissionOrder (hsub.subset hi)
    exact Or.inr ⟨hst, hcause, if_pos hi⟩
  · exact Or.inl (if_neg hi)

/-- The readmission pass takes no more units than are available (R69). -/
theorem readmissionPass_fits (s : State) (h : s.reserved ≤ s.available) :
    (readmissionPass s).after.reserved ≤ (readmissionPass s).after.available := by
  have hwalk : ∀ (l : List Nat) (w : Walk), w.after.reserved ≤ w.after.available →
      (l.foldl readmitOne w).after.reserved ≤ (l.foldl readmitOne w).after.available := by
    intro l
    induction l with
    | nil => exact fun _ hw => hw
    | cons i l ih =>
      intro w hw
      refine ih _ ?_
      unfold readmitOne
      split
      · next hfit =>
        rw [reserved_readmit]
        simpa using (fits_iff _ _).1 hfit
      · exact hw
  exact hwalk _ _ h

theorem readmissionPass_available (s : State) : (readmissionPass s).after.available = s.available :=
  readmissionPass_keeps State.available (fun t i => by simp) s

end State

/-! ### A pass and what leaves its result as it is -/

/-- A response joining a line leaves what a shedding pass has done. -/
theorem ShedBy.setPort {v t : State} {low : Nat → Option Nat} {order lowered held : List Nat}
    (h : ShedBy v t low order lowered held) (p : Port) (x : PortState) :
    ShedBy v (t.setPort p x) low order lowered held := { h with }

/-- So it does after a readmission pass. -/
theorem ReadmittedBy.setPort {v t : State} {order returned : List Nat} (h : ReadmittedBy v t order returned) (p : Port)
    (x : PortState) : ReadmittedBy v (t.setPort p x) order returned := { h with }

/-- A context still held by shedding after the pass has a cost that does not fit (R69). -/
theorem ReadmittedBy.held_left {v t : State} {order returned : List Nat} (h : ReadmittedBy v t order returned)
    (hp : t.profiles = v.profiles) (ha : t.available = v.available) {i : Nat} (hst : (t.ctx i).state = .held)
    (hc : (t.ctx i).holdCause = some .shed) : t.available < t.reserved + t.currentCost i := by
  have hrec := h.records i
  have hi : i ∉ returned := fun hi => by
    rw [if_pos hi] at hrec
    rw [hrec] at hc
    cases hc
  rw [if_neg hi] at hrec
  rw [currentCost_congr hp i (by rw [hrec]) (by rw [hrec]), ha]
  rw [hrec] at hst hc
  exact h.left i ((h.members i).2 ⟨hst, hc⟩) hi

/-! ### LANE_SERVICE (R62 to R64) -/

theorem takeOrder_laneOut {p : Port} {n : Byte} (u : State) (hn : n.toNat ≤ 7) :
    takeOrder p .laneService [n, 0] u = laneOut n.toNat u := by
  simp [takeOrder, laneServiceOrder, Nat.not_lt.2 hn]

theorem takeOrder_laneIn {p : Port} {n : Byte} (u : State) (hn : n.toNat ≤ 7) :
    takeOrder p .laneService [n, 1] u = laneIn n.toNat u := by
  simp [takeOrder, laneServiceOrder, Nat.not_lt.2 hn]

theorem port_conds_respond (p q : Port) (code tag : Byte) (t : Taken) :
    ((respond p code tag t).port q).conds = (t.after.port q).conds := by
  rw [port_respond]
  split
  · next hq => rw [hq]
  · rfl

/-- LANE_SERVICE in of a lane out of service: the pass from the state that has it back (R64, R69). -/
theorem laneIn_out {n : Nat} {u : State} (h : (u.lane n).state ≠ .inService) : laneIn n u =
    ⟨.ok, .laneService n (u.lane n).state .inService (readmissionPass (u.regainLane n)).after.available
      (readmissionPass (u.regainLane n)).after.reserved 0 0 (readmissionPass (u.regainLane n)).count,
      (readmissionPass (u.regainLane n)).after⟩ := by
  have hlane : ((readmissionPass (u.regainLane n)).after.lane n).state = .inService := by
    rw [(serviceKept_readmissionPass _).service, lane_regainLane, if_pos rfl]
  unfold laneIn laneReply
  rw [hlane]
  cases hst : (u.lane n).state with
  | inService => exact absurd hst h
  | outOrder => rfl
  | outFault => rfl

theorem laneIn_inService {n : Nat} {u : State} (h : (u.lane n).state = .inService) : laneIn n u =
    ⟨.ok, .laneService n .inService .inService u.available u.reserved 0 0 0, u⟩ := by
  unfold laneIn laneReply
  rw [h]

/-- Settles O33: the lane comes back, then the readmission pass runs (`readmissionPass_spec`). -/
theorem laneInReadmits : Obligations.LaneInReadmits := by
  intro p tag n s u hs hu hn
  refine ⟨fun hout hcan hfit => ?_, fun hin => ?_⟩
  · have hcanv : (u.regainLane n.toNat).canonical = true :=
      canonical_regainLane u _ (hu ▸ canonical_atOrder s p 0x58 hcan)
    have hexec := exec_eq_respond (i := .laneServiceIn p tag n) rfl (by decide) hs hu
      ((takeOrder_laneIn u hn).trans (laneIn_out hout))
    have hframe := readmissionPass_frame (u.regainLane n.toNat)
    have hlane : ∀ m, (readmissionPass (u.regainLane n.toNat)).after.lane m =
        if m = n.toNat then { u.lane n.toNat with state := .inService } else u.lane m := fun m =>
      (lane_congr (by rw [hframe]) m).trans (lane_regainLane u _ m)
    have havail := readmissionPass_available (u.regainLane n.toNat)
    have hports : (readmissionPass (u.regainLane n.toNat)).after.ports = (u.regainLane n.toNat).ports := by rw [hframe]
    have hfitv : (u.regainLane n.toNat).reserved ≤ (u.regainLane n.toNat).available := by
      rw [available_regainLane]; exact Nat.le_add_right_of_le hfit
    have hport : ∀ q, (u.regainLane n.toNat).port q = { u.port q with conds := (u.port q).conds ||| 0x04#6 } :=
      fun q => by rw [port_regainLane, add_laneBack]
    refine ⟨_, hexec, ?_, fun m hm => ?_, havail.trans (available_regainLane u _), readmissionPass_fits _ hfitv,
      fun q => ?_, fun i => ?_, fun hp => ?_⟩
    · exact congrArg Lane.state ((hlane n.toNat).trans (if_pos rfl))
    · exact (hlane m).trans (if_neg hm)
    · rw [port_conds_respond]
      exact congrArg PortState.conds ((port_congr hports q).trans (hport q))
    · refine (ctx_readmissionPass _ hcanv i).imp id fun ⟨hst, hcause, hctx⟩ => ⟨hst, hcause, ?_, ?_⟩
      · rw [ctx_respond, hctx]; rfl
      · rw [ctx_respond, hctx]; rfl
    · obtain ⟨order, returned, hpass, hcount, -⟩ := readmissionPass_spec (u.regainLane n.toNat) hcanv hp
      rw [hcount]
      refine ⟨fun i hst hc => hpass.held_left (by rw [hframe]) havail hst hc, _, order, returned, regainLane_frame u _,
        (lane_regainLane u _ _).trans (if_pos rfl), fun m hm => (lane_regainLane u _ m).trans (if_neg hm), hport,
        hpass.setPort p _, answered_respond _ p _ tag _ hports, ?_⟩
      rw [respond_frame, hframe]
  · exact ⟨_, exec_eq_respond (i := .laneServiceIn p tag n) rfl (by decide) hs hu
      ((takeOrder_laneIn u hn).trans (laneIn_inService hin)), read_respond u p _ tag _⟩

/-- LANE_SERVICE out of a lane in service: the pass from the state that has lost it (R63, R65). -/
theorem laneOut_inService {n : Nat} {u : State} (h : (u.lane n).state = .inService) : laneOut n u =
    ⟨.ok, .laneService n .inService .outOrder (sheddingPass (u.loseLane n .outOrder)).after.available
      (sheddingPass (u.loseLane n .outOrder)).after.reserved (sheddingPass (u.loseLane n .outOrder)).lowered
      (sheddingPass (u.loseLane n .outOrder)).held 0, (sheddingPass (u.loseLane n .outOrder)).after⟩ := by
  have hlane : ((sheddingPass (u.loseLane n .outOrder)).after.lane n).state = .outOrder := by
    rw [(serviceKept_sheddingPass _).service, lane_loseLane, if_pos rfl]
  unfold laneOut laneReply
  rw [h, hlane]

theorem laneOut_outOrder {n : Nat} {u : State} (h : (u.lane n).state = .outOrder) : laneOut n u =
    ⟨.ok, .laneService n .outOrder .outOrder u.available u.reserved 0 0 0, u⟩ := by
  unfold laneOut laneReply
  rw [h]

theorem laneOut_outFault {n : Nat} {u : State} (h : (u.lane n).state = .outFault) : laneOut n u =
    ⟨.ok, .laneService n .outFault .outOrder u.available u.reserved 0 0 0, u.setLaneState n .outOrder⟩ := by
  have hlane : ((u.setLaneState n .outOrder).lane n).state = .outOrder := by
    unfold setLaneState
    rw [lane_setLane, if_pos rfl]
  unfold laneOut laneReply
  rw [h, hlane]
  rfl

/-- Settles O32: the lane goes, then the shedding pass runs (`sheddingPass_spec`, `sheddingPass_ends`). -/
theorem laneOutShedsUntilItFits : Obligations.LaneOutShedsUntilItFits := by
  intro p tag n s u hs hu hn
  have hexec : ∀ r, laneOut n.toNat u = r →
      exec (.laneServiceOut p tag n) s = .next (respond p OrderCode.laneService.byte tag r) := fun r hr =>
    exec_eq_respond rfl (by decide) hs hu ((takeOrder_laneOut u hn).trans hr)
  refine ⟨fun hin hp => ?_, fun hout => ?_, fun hfault => ?_⟩
  · have hpv : ∀ i, ((u.loseLane n.toNat .outOrder).ctx i).priority ≤ 3 := hp
    have hframe := sheddingPass_frame (u.loseLane n.toNat .outOrder)
    have hservice := serviceKept_sheddingPass (u.loseLane n.toNat .outOrder)
    have hlane := fun m => lane_loseLane u n.toNat m .outOrder
    have hports : (sheddingPass (u.loseLane n.toNat .outOrder)).after.ports = (u.loseLane n.toNat .outOrder).ports := by
      rw [hframe]
    have hport : ∀ q, (u.loseLane n.toNat .outOrder).port q =
        { u.port q with conds := (u.port q).conds ||| 0x02#6 } := fun q => by rw [port_loseLane, add_laneOut]
    refine ⟨_, hexec _ (laneOut_inService hin), ?_, fun m hm => ?_, hservice.available.trans (available_loseLane u _ _),
      fun q => ?_, sheddingPass_ends _ hpv, fun hfit => ?_, fun hcan hperm => ?_⟩
    · exact (hservice.service _).trans (congrArg Lane.state ((hlane n.toNat).trans (if_pos rfl)))
    · exact (hservice.service m).trans (congrArg Lane.state ((hlane m).trans (if_neg hm)))
    · rw [port_conds_respond]
      exact congrArg PortState.conds ((port_congr hports q).trans (hport q))
    · have hnone : sheddingPass (u.loseLane n.toNat .outOrder) = ⟨0, 0, u.loseLane n.toNat .outOrder⟩ :=
        sheddingPass_of_fits (by rw [available_loseLane]; exact hfit)
      rw [hnone]
      exact ⟨rfl, rfl⟩
    · have hcanv := canonical_loseLane u n.toNat .outOrder (hu ▸ canonical_atOrder s p 0x58 hcan)
      obtain ⟨low, order, lowered, held, hpass, hlow, hheld, -⟩ :=
        sheddingPass_spec (u.loseLane n.toNat .outOrder) hcanv hpv hperm
      rw [hlow, hheld]
      refine ⟨_, low, order, lowered, held, loseLane_frame u _ _, (hlane _).trans (if_pos rfl),
        fun m hm => (hlane m).trans (if_neg hm), hport, hpass.setPort p _, answered_respond _ p _ tag _ hports, ?_⟩
      rw [respond_frame, hframe]
  · exact ⟨_, hexec _ (laneOut_outOrder hout), read_respond u p _ tag _⟩
  · have hlane : ∀ m, (u.setLaneState n.toNat .outOrder).lane m =
        if m = n.toNat then { u.lane n.toNat with state := .outOrder } else u.lane m := fun m => lane_setLane u _ m _
    exact ⟨_, hexec _ (laneOut_outFault hfault), rfl, (hlane _).trans (if_pos rfl),
      fun m hm => (hlane m).trans (if_neg hm), answered_respond u p _ tag _ rfl⟩

end Sys2Proof.Machine
end

section
/-! SUPPORT. LANE_CHECK (R72): the fault captured and the work in hand discarded, then the lane out of service, with its
units where it was in service. -/

namespace Sys2Proof.Machine

open State

namespace State

/-! ### The fault captured, the work in hand discarded -/

/-- The state in which a LANE_CHECK at lane `n` has been captured and the lane's work discarded (R72, R75). -/
def handDropped (s : State) (n : Nat) : State := (s.captureFault .laneCheck n).dropHand n

/-- The work a lane has in hand leaves its context, and no other record changes. -/
theorem ctx_dropHand (s : State) (n i : Nat) : (s.dropHand n).ctx i =
    if (s.lane n).inHand = some i then { s.ctx i with work := none } else s.ctx i := by
  unfold dropHand
  cases hand : (s.lane n).inHand with
  | none => simp
  | some j =>
    simp only [ctx_discardWork, Option.some.injEq]
    by_cases hij : i = j
    · rw [if_pos hij, if_pos hij.symm, hij]
    · rw [if_neg hij, if_neg (Ne.symm hij)]

/-- Every lane that has the work in hand loses it. -/
theorem lane_dropHand (s : State) (n m : Nat) : (s.dropHand n).lane m =
    if m < 8 ∧ (s.lane m).inHand = (s.lane n).inHand then { s.lane m with inHand := none } else s.lane m := by
  unfold dropHand
  cases hand : (s.lane n).inHand with
  | none =>
    simp only
    split
    · next h =>
      obtain ⟨-, hm⟩ := h
      rw [← hm]
    · rfl
  | some j => exact lane_discardWork s j m

theorem dropHand_frame (s : State) (n : Nat) :
    s.dropHand n = { s with lanes := (s.dropHand n).lanes, ctxs := (s.dropHand n).ctxs } := by
  apply eq_of_fields <;> simp

theorem ctx_handDropped (s : State) (n i : Nat) : (s.handDropped n).ctx i =
    if (s.lane n).inHand = some i then { s.ctx i with work := none } else s.ctx i := by
  have hctx : ∀ j, (s.captureFault .laneCheck n).ctx j = s.ctx j := ctx_congr (captureFault_ctxs ..)
  have hlane : ∀ m, (s.captureFault .laneCheck n).lane m = s.lane m := lane_congr (captureFault_lanes ..)
  unfold handDropped
  rw [ctx_dropHand, hctx, hlane]

theorem lane_handDropped (s : State) (n m : Nat) : (s.handDropped n).lane m =
    if m < 8 ∧ (s.lane m).inHand = (s.lane n).inHand then { s.lane m with inHand := none } else s.lane m := by
  have hlane : ∀ m, (s.captureFault .laneCheck n).lane m = s.lane m := lane_congr (captureFault_lanes ..)
  unfold handDropped
  rw [lane_dropHand, hlane, hlane]

theorem handDropped_frame (s : State) (n : Nat) : s.handDropped n = { s with
    lanes := (s.handDropped n).lanes, ctxs := (s.handDropped n).ctxs, capture := (s.handDropped n).capture,
    ports := (s.handDropped n).ports } := by
  unfold handDropped
  rw [dropHand_frame, captureFault_frame]

theorem captured_handDropped (s : State) (n : Nat) : Captured s (s.handDropped n) .laneCheck n (s.handAt n) :=
  (captured_captureFault s .laneCheck n).congr (dropHand_capture ..) (dropHand_ports ..)

theorem canonical_handDropped (s : State) (n : Nat) (h : s.canonical = true) : (s.handDropped n).canonical = true :=
  canonical_dropHand _ n (canonical_captureFault s .laneCheck n h)

/-! ### The lane out of service -/

/-- Lane `n` of `t` is OUT_FAULT with nothing in hand; every other lane keeps its service state, and its work unless
lane `n` had that one in hand in `s`. -/
structure LaneFaulted (s t : State) (n : Nat) : Prop where
  lane : t.lane n = ⟨.outFault, none⟩
  service : ∀ m, m ≠ n → (t.lane m).state = (s.lane m).state
  works : ∀ m, m ≠ n → m < 8 → (t.lane m).inHand = (s.lane m).inHand.filter (some · ≠ (s.lane n).inHand)

/-- The lane whose fault was captured goes out of service. -/
theorem laneFaulted_of_handDropped {s t : State} {n : Nat} (hn : n < 8) (ht : ∀ m, t.lane m =
    if m = n then { (s.handDropped n).lane n with state := .outFault } else (s.handDropped n).lane m) :
    LaneFaulted s t n where
  lane := by rw [ht, if_pos rfl, lane_handDropped, if_pos ⟨hn, rfl⟩]
  service m hm := by
    rw [ht, if_neg hm, lane_handDropped]
    split <;> rfl
  works m hm h8 := by
    rw [ht, if_neg hm, lane_handDropped]
    cases hand : (s.lane m).inHand with
    | none => split <;> simp [hand]
    | some j =>
      by_cases hj : some j = (s.lane n).inHand
      · rw [if_pos ⟨h8, hj⟩]; simp [Option.filter, hj]
      · rw [if_neg fun hc => hj hc.2, hand]; simp [Option.filter, hj]

/-- The state that has lost lane `n`, in service before, to a LANE_CHECK (R63, R72). -/
def laneLost (s : State) (n : Nat) : State := (s.handDropped n).loseLane n .outFault

theorem laneFaulted_laneLost {s : State} {n : Nat} (hn : n < 8) : LaneFaulted s (s.laneLost n) n :=
  laneFaulted_of_handDropped hn fun m => lane_loseLane _ n m _

theorem ctx_laneLost (s : State) (n i : Nat) : (s.laneLost n).ctx i =
    if (s.lane n).inHand = some i then { s.ctx i with work := none } else s.ctx i := ctx_handDropped s n i

theorem available_laneLost (s : State) (n : Nat) : (s.laneLost n).available = s.available - 12000 := by
  unfold laneLost
  rw [available_loseLane, handDropped_frame]

theorem laneLost_frame (s : State) (n : Nat) : s.laneLost n = { s with
    lanes := (s.laneLost n).lanes, ctxs := (s.laneLost n).ctxs, available := (s.laneLost n).available,
    capture := (s.laneLost n).capture, ports := (s.laneLost n).ports } := by
  unfold laneLost
  rw [loseLane_frame, handDropped_frame]

/-- With an empty capture record the fault is captured, and both ports hold LANE_OUT and FAULT_CAPTURED (R63, R75). -/
theorem laneLost_empty {s : State} {n : Nat} (h : s.capture.record = none) :
    (s.laneLost n).capture = ⟨some ⟨.laneCheck, n, s.handAt n, s.timer.period⟩, false⟩ ∧
      ∀ q, (s.laneLost n).port q = { s.port q with conds := (s.port q).conds ||| 0x0A#6 } := by
  obtain ⟨hcap, hport⟩ := (captured_handDropped s n).empty h
  refine ⟨hcap, fun q => ?_⟩
  unfold laneLost
  rw [port_loseLane, hport, add_laneOut, BitVec.or_assoc]
  rfl

/-- With a filled one `further` is set, and both ports hold LANE_OUT (R63, R75). -/
theorem laneLost_filled {s : State} {n : Nat} {r : FaultRecord} (h : s.capture.record = some r) :
    (s.laneLost n).capture = ⟨some r, true⟩ ∧
      ∀ q, (s.laneLost n).port q = { s.port q with conds := (s.port q).conds ||| 0x02#6 } := by
  obtain ⟨hcap, hports⟩ := (captured_handDropped s n).filled r h
  refine ⟨hcap, fun q => ?_⟩
  unfold laneLost
  rw [port_loseLane, port_congr hports, add_laneOut]

/-! ### LANE_CHECK by the lane's state (R71, R72) -/

theorem laneFault_inService {s : State} {n : Nat} (h : (s.lane n).state = .inService) :
    s.laneFault n = (sheddingPass (s.laneLost n)).after := by
  unfold laneFault
  rw [h]
  rfl

theorem laneFault_outOrder {s : State} {n i : Nat} (h : (s.lane n).state = .outOrder) (hi : (s.lane n).inHand = some i) :
    s.laneFault n = (s.handDropped n).setLaneState n .outFault := by
  unfold laneFault
  rw [h, hi]
  rfl

/-- A lane event that R71 says is not reported changes nothing (log 2). -/
theorem laneFault_unreported {s : State} {n : Nat}
    (h : (s.lane n).state = .outFault ∨ (s.lane n).state = .outOrder ∧ (s.lane n).inHand = none) : s.laneFault n = s := by
  unfold laneFault
  rcases h with h | ⟨h, hi⟩
  · rw [h]
  · rw [h, hi]

end State

/-- Settles O35: the lane in service whose loss fits, or forces the pass (`sheddingPass_spec`); the lane already out; the
events that are not reported. -/
theorem laneCheckTakesTheLaneOut : Obligations.LaneCheckTakesTheLaneOut := by
  refine ⟨fun n i s hpin hin hi hfit => ?_, fun n hand s hpin hcan hin hhand hp hperm => ?_,
    fun n i s hpin hout hi => ?_, fun n s hpin h => ?_⟩
  · have hfits : (s.laneLost n).reserved ≤ (s.laneLost n).available := by
      rw [available_laneLost, laneLost_frame]; exact hfit
    have hexec : exec (.laneCheck n) s = .next (s.laneLost n) := by
      refine (runs_released _ hpin).trans (congrArg _ ?_)
      rw [laneFault_inService hin, sheddingPass_of_fits hfits]
    obtain ⟨hlane, hservice, -⟩ := laneFaulted_laneLost (s := s) n.isLt
    refine ⟨_, hexec, hlane, fun m => ?_, ?_, fun j hj => ?_, available_laneLost s n, fun hr => ?_, fun r hr => ?_,
      laneLost_frame s n⟩
    · split
      · next hm => rw [hm, hlane]
      · next hm => exact hservice m hm
    · rw [ctx_laneLost, if_pos hi]
    · rw [ctx_laneLost, if_neg (by rw [hi]; simpa using Ne.symm hj)]
    · obtain ⟨hcap, hport⟩ := laneLost_empty (n := n) hr
      exact ⟨handAt_some hi ▸ hcap, fun q => congrArg PortState.conds (hport q)⟩
    · obtain ⟨hcap, hport⟩ := laneLost_filled (n := n) hr
      exact ⟨hcap, fun q => congrArg PortState.conds (hport q)⟩
  · subst hhand
    have hctx := ctx_laneLost s n
    have hpv : ∀ i, ((s.laneLost n).ctx i).priority ≤ 3 := fun i => by
      rw [hctx]; split <;> exact hp i
    have hpermv : ∀ i, ((s.laneLost n).ctx i).permitted ≠ some 0 := fun i => by
      rw [hctx]; split <;> exact hperm i
    have hcanv : (s.laneLost n).canonical = true := canonical_loseLane _ n _ (canonical_handDropped s n hcan)
    obtain ⟨low, order, lowered, held, hpass, -, -, -⟩ := sheddingPass_spec (s.laneLost n) hcanv hpv hpermv
    obtain ⟨hlane, hservice, hworks⟩ := laneFaulted_laneLost (s := s) n.isLt
    exact ⟨_, _, low, order, lowered, held, (runs_released _ hpin).trans (congrArg _ (laneFault_inService hin)), hlane,
      fun m hm => ⟨hservice m hm, hworks m hm⟩, hctx, available_laneLost s n, laneLost_empty, fun r => laneLost_filled,
      laneLost_frame s n, hpass, sheddingPass_frame _⟩
  · obtain ⟨hlane, hservice, -⟩ := laneFaulted_of_handDropped (s := s) n.isLt fun m =>
      lane_setLane (s.handDropped n) n m { (s.handDropped n).lane n with state := .outFault }
    obtain ⟨hempty, hfilled⟩ := (handAt_some hi ▸ captured_handDropped s n).congr
      (u := (s.handDropped n).setLaneState n .outFault) rfl rfl
    refine ⟨_, (runs_released _ hpin).trans (congrArg _ (laneFault_outOrder hout hi)), hlane, hservice, ?_,
      fun j hj => ?_, hempty, hfilled, ?_⟩
    · exact (ctx_handDropped s n i).trans (if_pos hi)
    · exact (ctx_handDropped s n j).trans (if_neg (by rw [hi]; simpa using Ne.symm hj))
    · rw [handDropped_frame]; rfl
  · exact (runs_released _ hpin).trans (congrArg _ (laneFault_unreported h))

end Sys2Proof.Machine
end

section
/-! SUPPORT. LEVEL_DEFAULTS and SUPERVISE_SET (R95, R173): the settings their bodies spell, and what replaces them. -/

namespace Sys2Proof.Machine

open State

theorem roundModeOf_code (m : RoundMode) : roundModeOf (byteOf m.code) = some m := by cases m <;> rfl

/-- Settings whose limits are in range are what their bytes spell (R173). -/
theorem settingsOf_bytes (v : SupSettings) (hi : 10 ≤ v.initialLimit) (hi' : v.initialLimit ≤ 65535)
    (hl : 10 ≤ v.steadyLimit) (hl' : v.steadyLimit ≤ 65535) : settingsOf (flagByte v.enabled) (flagByte v.strict)
      (byteOf v.initialLimit) (byteOf (v.initialLimit / 256)) (byteOf v.steadyLimit) (byteOf (v.steadyLimit / 256)) =
        some v := by
  unfold settingsOf
  rw [flagOf_flagByte, flagOf_flagByte, le16_byteOf (by omega), le16_byteOf (by omega)]
  exact if_pos ⟨hi, hl⟩

theorem takeOrder_levelDefaults (p : Port) (m : RoundMode) (u : State) :
    takeOrder p .levelDefaults [byteOf m.code] u = ⟨.ok, .rounding u.defaultRound m, { u with defaultRound := m }⟩ := by
  show levelDefaultsOrder [byteOf m.code] u = _
  simp only [levelDefaultsOrder, roundModeOf_code]

theorem takeOrder_superviseSet (p : Port) {v : SupSettings} (u : State) (hi : 10 ≤ v.initialLimit)
    (hi' : v.initialLimit ≤ 65535) (hl : 10 ≤ v.steadyLimit) (hl' : v.steadyLimit ≤ 65535) :
    takeOrder p .superviseSet v.bytes u =
      ⟨.ok, .supervision (u.port p).sup.settings (u.port p).sup.state (u.port p).sup.count,
        u.setSup p { (u.port p).sup with settings := v }⟩ := by
  show superviseSetOrder p [flagByte v.enabled, flagByte v.strict, byteOf v.initialLimit, byteOf (v.initialLimit / 256),
    byteOf v.steadyLimit, byteOf (v.steadyLimit / 256)] u = _
  simp only [superviseSetOrder, settingsOf_bytes v hi hi' hl hl']

/-- Settles O29: each body spells its settings, and the order replaces one field. -/
theorem deviceAndPortSettings : Obligations.DeviceAndPortSettings := by
  intro p tag s hs
  refine ⟨fun m u hu => ?_, fun v u hu hi hi' hl hl' => ?_⟩
  · exact ⟨_, exec_eq_respond rfl (by decide) hs hu (takeOrder_levelDefaults p m u), answered_respond u p _ tag _ rfl,
      rfl⟩
  · refine ⟨_, exec_eq_respond rfl (by decide) hs hu (takeOrder_superviseSet p u hi hi' hl hl'), rfl, ?_, ?_⟩
    · simp [setSup]
    · rw [port_respond, if_pos rfl]
      simp [setSup]
      rfl

end Sys2Proof.Machine
end

section
/-! SUPPORT. A cell at an ACTIVE context that expects a sequence (R97, R99, R144): the record each placement leaves, and
what every placement leaves unchanged. -/

namespace Sys2Proof.Machine

open State

namespace State

/-! ### The record after each placement -/

/-- The record of an in-window arrival's context (R97). -/
theorem ctx_insertCell (s : State) (i : Nat) (e : Seq16) (c : InCell) :
    (s.insertCell i e c).ctx i = { s.ctx i with
      queue := insertEntry e (c.entry (s.badCell i c)) (s.ctx i).queue
      counters := (s.ctx i).counters.accept (s.badCell i c), request := ((s.insertCell i e c).ctx i).request } := by
  unfold insertCell
  rw [ctx_takeRequest, if_pos rfl, ctx_acceptCounts, if_pos rfl, ctx_modCtx, if_pos rfl]

/-- The record of a far-ahead arrival's context (R97). -/
theorem ctx_resync (s : State) (i : Nat) (c : InCell) :
    (s.resync i c).ctx i = { (s.ctx i).startQueue (c.entry (s.badCell i c)) with
      counters :=
        ({ (s.ctx i).counters with resync := (s.ctx i).counters.resync + 1 } : Counters).accept (s.badCell i c)
      request := ((s.resync i c).ctx i).request } := by
  unfold resync
  rw [ctx_takeRequest, if_pos rfl, ctx_congr (countFor_ctxs ..), ctx_acceptCounts, if_pos rfl, ctx_modCtx, if_pos rfl]

theorem ctx_dropDuplicate (s : State) (i : Nat) : (s.dropDuplicate i).ctx i = { s.ctx i with
    counters := { (s.ctx i).counters with duplicate := (s.ctx i).counters.duplicate + 1 } } := by
  unfold dropDuplicate
  rw [ctx_congr (countFor_ctxs ..), ctx_modCtx, if_pos rfl]

theorem ctx_dropLate (s : State) (i : Nat) : (s.dropLate i).ctx i = { s.ctx i with
    counters := { (s.ctx i).counters with late := (s.ctx i).counters.late + 1 } } := by
  unfold dropLate
  rw [ctx_congr (countFor_ctxs ..), ctx_modCtx, if_pos rfl]

/-! ### The request of an accepted cell (R106) -/

theorem requestTaken_insertCell (s : State) (i : Nat) (e : Seq16) (c : InCell) :
    RequestTaken (s.ctx i) ((s.insertCell i e c).ctx i) c.request := by
  refine (requestTaken_takeRequest ((s.modCtx i fun x =>
    { x with queue := insertEntry e (c.entry (s.badCell i c)) x.queue }).acceptCounts i (s.badCell i c)) i
      c.request).congr ?_ ?_ ?_ rfl
  all_goals rw [ctx_acceptCounts, if_pos rfl, ctx_modCtx, if_pos rfl]

theorem requestTaken_resync (s : State) (i : Nat) (c : InCell) :
    RequestTaken (s.ctx i) ((s.resync i c).ctx i) c.request := by
  refine (requestTaken_takeRequest (((s.modCtx i fun x =>
    { x.startQueue (c.entry (s.badCell i c)) with
      counters := { x.counters with resync := x.counters.resync + 1 } }).acceptCounts i (s.badCell i c)).countFor
        .cellResync i) i c.request).congr ?_ ?_ ?_ rfl
  all_goals rw [ctx_congr (countFor_ctxs ..), ctx_acceptCounts, if_pos rfl, ctx_modCtx, if_pos rfl]; rfl

/-! ### What every placement leaves unchanged -/

/-- From `s` to `t` one record and the two tallies changed, and nothing else. -/
def CellFrame (s t : State) (i : Nat) : Prop :=
  OnlyCtx s t i ∧ t = { s with ctxs := t.ctxs, tally0 := t.tally0, tally1 := t.tally1 }

theorem cellFrame_insertCell (s : State) (i : Nat) (e : Seq16) (c : InCell) : CellFrame s (s.insertCell i e c) i := by
  refine ⟨fun j hj => ?_, by apply eq_of_fields <;> simp⟩
  unfold insertCell
  rw [ctx_takeRequest, if_neg hj, ctx_acceptCounts, if_neg hj, ctx_modCtx, if_neg hj]

theorem cellFrame_resync (s : State) (i : Nat) (c : InCell) : CellFrame s (s.resync i c) i := by
  refine ⟨fun j hj => ?_, by apply eq_of_fields <;> simp⟩
  unfold resync
  rw [ctx_takeRequest, if_neg hj, ctx_congr (countFor_ctxs ..), ctx_acceptCounts, if_neg hj, ctx_modCtx, if_neg hj]

/-- A drop changes one record, then counts its event. -/
theorem cellFrame_drop (s : State) (i : Nat) (f : Ctx → Ctx) (k : Event) :
    CellFrame s ((s.modCtx i f).countFor k i) i :=
  ⟨fun j hj => (ctx_modCtx s i j f).trans (if_neg hj), rfl⟩

theorem cellFrame_heard (s : State) (i : Nat) : CellFrame s (s.heard i) i :=
  ⟨fun j hj => (ctx_heard s i j).trans (if_neg hj), rfl⟩

theorem CellFrame.trans {s t u : State} {i : Nat} (h : CellFrame s t i) (h' : CellFrame t u i) : CellFrame s u i := by
  obtain ⟨ho, hf⟩ := h
  obtain ⟨ho', hf'⟩ := h'
  exact ⟨fun j hj => (ho' j hj).trans (ho j hj), hf'.trans (by rw [hf])⟩

/-! ### Placement by distance (R97) -/

theorem placeAt_free {s : State} {i : Nat} {e : Seq16} {c : InCell} (hd : (c.seq - e).toNat ≤ 5)
    (hq : ∀ y ∈ (s.ctx i).queue, y.seq ≠ c.seq) : s.placeAt i e c = s.insertCell i e c := by
  have hany : (s.ctx i).queue.any (fun x => x.seq = c.seq) = false := by simpa using hq
  unfold placeAt
  rw [if_pos hd, hany, if_neg Bool.false_ne_true]

theorem placeAt_duplicate {s : State} {i : Nat} {e : Seq16} {c : InCell} (hd : (c.seq - e).toNat ≤ 5)
    (hq : ∃ y ∈ (s.ctx i).queue, y.seq = c.seq) : s.placeAt i e c = s.dropDuplicate i := by
  have hany : (s.ctx i).queue.any (fun x => x.seq = c.seq) = true := by simpa using hq
  unfold placeAt
  rw [if_pos hd, if_pos hany]

theorem placeAt_far {s : State} {i : Nat} {e : Seq16} {c : InCell} (hd : 6 ≤ (c.seq - e).toNat)
    (hd' : (c.seq - e).toNat ≤ 32767) : s.placeAt i e c = s.resync i c := by
  unfold placeAt
  rw [if_neg (by omega), if_pos hd']

theorem placeAt_late {s : State} {i : Nat} {e : Seq16} {c : InCell} (hd : 32768 ≤ (c.seq - e).toNat) :
    s.placeAt i e c = s.dropLate i := by
  unfold placeAt
  rw [if_neg (by omega), if_neg (by omega)]

theorem cellFrame_placeAt (s : State) (i : Nat) (e : Seq16) (c : InCell) : CellFrame s (s.placeAt i e c) i := by
  unfold placeAt
  split
  · split
    · exact cellFrame_drop s i _ .cellDup
    · exact cellFrame_insertCell s i e c
  · split
    · exact cellFrame_resync s i c
    · exact cellFrame_drop s i _ .cellLate

/-- No placement changes what the arrival did to the silence (R144). -/
theorem silence_placeAt (s : State) (i : Nat) (e : Seq16) (c : InCell) :
    ((s.placeAt i e c).ctx i).silence = (s.ctx i).silence ∧
      ((s.placeAt i e c).ctx i).staleRaised = (s.ctx i).staleRaised := by
  unfold placeAt
  split
  · split
    · rw [ctx_dropDuplicate]; exact ⟨rfl, rfl⟩
    · rw [ctx_insertCell]; exact ⟨rfl, rfl⟩
  · split
    · rw [ctx_resync]; exact ⟨rfl, rfl⟩
    · rw [ctx_dropLate]; exact ⟨rfl, rfl⟩

end State

/-- Entries of different sequences stand at different distances. -/
theorem distance_ne {a b : Seq16} (e : Seq16) (h : a ≠ b) : (a - e).toNat ≠ (b - e).toNat := fun he =>
  h (sub_left_injective (BitVec.eq_of_toNat_eq he))

/-- Settles O48: the context is heard, then the cell is placed by its distance. -/
theorem queuePlacementByDistance : Obligations.QueuePlacementByDistance := by
  intro link bytes s c n e i x hp hw hf hr hi hst he
  have hexec := exec_cellArrival hp hw hf hr (link_of_wellFormedCell hw)
  have hh : (s.heard i).ctx i = { s.ctx i with silence := 0, staleRaised := false } :=
    (ctx_heard s i i).trans (if_pos rfl)
  have hdisp : s.dispatch i c = (s.heard i).placeAt i x c := by
    unfold dispatch place
    rw [hst, hh]
    simp only [he]
  have hbad : (s.heard i).badCell i c = s.badCell i c := badCell_congr i c (by rw [hh]) rfl
  have htally : ∀ {t l}, Tallied (s.heard i) t i l → Counted s t i l := fun h =>
    ((tallied_modCtx s i _ rfl).trans h).counted
  have hreq : ∀ {t : State}, RequestTaken ((s.heard i).ctx i) (t.ctx i) c.request →
      RequestTaken (s.ctx i) (t.ctx i) c.request := fun h => h.congr (by rw [hh]) (by rw [hh]) (by rw [hh]) rfl
  rw [← hi, hdisp] at hexec
  obtain ⟨honly, hframe⟩ := (cellFrame_heard s i).trans (cellFrame_placeAt (s.heard i) i x c)
  obtain ⟨hsil, hstale⟩ := silence_placeAt (s.heard i) i x c
  rw [hh] at hsil hstale
  refine ⟨_, hexec, hsil, hstale, honly, hframe, fun hd hq hs => ?_, fun hd hq => ?_, fun hd hd' => ?_, fun hd => ?_⟩
  · rw [placeAt_free hd (by rw [hh]; exact hq)]
    have hc := ctx_insertCell (s.heard i) i x c
    have ht := htally (tallied_insertCell (s.heard i) i x c)
    rw [hbad, hh] at hc
    rw [hbad] at ht
    have hx := InCell.entry_seq c (s.badCell i c)
    refine ⟨?_, fun y => ?_, by rw [hc]; exact he, by rw [hc]; exact Counters.accept_eq _ _, ht,
      hreq (requestTaken_insertCell ..)⟩
    · rw [hc]
      exact pairwise_insertEntry x _ _ (fun y hy => by rw [hx]; exact distance_ne x (hq y hy)) hs
    · rw [hc]
      exact mem_insertEntry x _ y _
  · rw [placeAt_duplicate hd (by rw [hh]; exact hq)]
    have hc := ctx_dropDuplicate (s.heard i) i
    rw [hh] at hc
    exact ⟨by rw [hc], by rw [hc]; exact he, by rw [hc], by rw [hc], htally (tallied_dropDuplicate ..)⟩
  · rw [placeAt_far hd hd']
    have hc := ctx_resync (s.heard i) i c
    have ht := htally (tallied_resync (s.heard i) i c)
    rw [hbad, hh] at hc
    rw [hbad] at ht
    refine ⟨by rw [hc]; rfl, ?_, by rw [hc]; rfl, by rw [hc]; exact Counters.accept_eq _ _, ht,
      hreq (requestTaken_resync ..)⟩
    rw [hc, ← InCell.entry_seq c (s.badCell i c)]
    rfl
  · rw [placeAt_late hd]
    have hc := ctx_dropLate (s.heard i) i
    rw [hh] at hc
    exact ⟨by rw [hc], by rw [hc]; exact he, by rw [hc], by rw [hc], htally (tallied_dropLate ..)⟩

end Sys2Proof.Machine
end

section
/-! SUPPORT. The boundary claim of a context in which no count runs out but a handover's may (R84, R85, R130, R131,
R141, R143): what the step of the handover leaves, the state in which the work starts, and what the work start leaves. -/

namespace Sys2Proof.Machine

/-- No count of the context's state runs out or reaches a limit in its next boundary claim (R141, R143). -/
def Ctx.Quiet (c : Ctx) : Prop :=
  c.state = .armed ∧ (∃ n, c.firstRemaining = some n ∧ 2 ≤ n) ∨ c.state = .active ∧ c.silence + 1 < c.silenceLimit

/-- The record once the handover deadline is stepped (R130). -/
def Ctx.handoverStepped (c : Ctx) : Ctx :=
  { c with
    handover := if c.handoverEnds then none else c.handover.map fun h => { h with remaining := h.remaining - 1 }
    conds := if c.handoverEnds then c.conds.add .handoverFailed else c.conds }

/-- The record once the count of its state is stepped, where that count does not run out (R141, R143). -/
def Ctx.waitStepped (c : Ctx) : Ctx :=
  { c with
    firstRemaining := if c.state = .armed then c.firstRemaining.map (· - 1) else c.firstRemaining
    silence := if c.state = .active then c.silenceNext else c.silence }

theorem Ctx.gen_waitStepped (c : Ctx) : c.waitStepped.gen = c.gen := rfl

/-- The record in which a quiet claim starts its work (R84, steps 1 to 3). -/
def Ctx.atWorkStart (c : Ctx) : Ctx :=
  { c.handoverStepped.waitStepped with
    work := none, ready := none, sinceRate := min 65535 (c.sinceRate + 1) }

theorem Ctx.handoverEnds_none {c : Ctx} (h : c.handover = none) : c.handoverEnds = false := by
  unfold Ctx.handoverEnds
  rw [h]

theorem Ctx.handoverEnds_some {c : Ctx} {h : Handover} (hh : c.handover = some h) :
    c.handoverEnds = decide (h.remaining ≤ 1) := by
  unfold Ctx.handoverEnds
  rw [hh]

theorem Ctx.handoverEnds_congr {c d : Ctx} (h : d.handover = c.handover) : d.handoverEnds = c.handoverEnds := by
  unfold Ctx.handoverEnds
  rw [h]

theorem Ctx.handoverStepped_none {c : Ctx} (h : c.handover = none) : c.handoverStepped = c := by
  unfold Ctx.handoverStepped
  rw [Ctx.handoverEnds_none h]
  cases c
  simp only at h
  subst h
  rfl

theorem Ctx.handoverStepped_goesOn {c : Ctx} (h : c.handoverEnds = false) : c.handoverStepped = { c with
    handover := c.handover.map fun h => { h with remaining := h.remaining - 1 } } := by
  unfold Ctx.handoverStepped
  rw [h]
  rfl

@[simp] theorem Ctx.atWorkStart_state (c : Ctx) : c.atWorkStart.state = c.state := rfl
@[simp] theorem Ctx.atWorkStart_queue (c : Ctx) : c.atWorkStart.queue = c.queue := rfl
@[simp] theorem Ctx.atWorkStart_expected (c : Ctx) : c.atWorkStart.expected = c.expected := rfl
@[simp] theorem Ctx.atWorkStart_priming (c : Ctx) : c.atWorkStart.priming = c.priming := rfl
@[simp] theorem Ctx.atWorkStart_depth (c : Ctx) : c.atWorkStart.depth = c.depth := rfl
@[simp] theorem Ctx.atWorkStart_noise (c : Ctx) : c.atWorkStart.noise = c.noise := rfl
@[simp] theorem Ctx.atWorkStart_counters (c : Ctx) : c.atWorkStart.counters = c.counters := rfl
@[simp] theorem Ctx.atWorkStart_slot (c : Ctx) : c.atWorkStart.slot = c.slot := rfl
@[simp] theorem Ctx.atWorkStart_ready (c : Ctx) : c.atWorkStart.ready = none := rfl
@[simp] theorem Ctx.atWorkStart_staleRaised (c : Ctx) : c.atWorkStart.staleRaised = c.staleRaised := rfl
@[simp] theorem Ctx.atWorkStart_sinceRate (c : Ctx) : c.atWorkStart.sinceRate = min 65535 (c.sinceRate + 1) := rfl
@[simp] theorem Ctx.atWorkStart_firstRemaining (c : Ctx) : c.atWorkStart.firstRemaining =
    if c.state = .armed then c.firstRemaining.map (· - 1) else c.firstRemaining := rfl
@[simp] theorem Ctx.atWorkStart_silence (c : Ctx) : c.atWorkStart.silence =
    if c.state = .active then min 6000 (c.silence + 1) else c.silence := rfl
@[simp] theorem Ctx.atWorkStart_handover (c : Ctx) : c.atWorkStart.handover = c.handoverStepped.handover := rfl
@[simp] theorem Ctx.atWorkStart_conds (c : Ctx) : c.atWorkStart.conds = c.handoverStepped.conds := rfl

namespace State

/-! ### The handover deadline (R130) -/

theorem stepHandover_some {s : State} {i : Nat} {h : Handover} (hh : (s.ctx i).handover = some h) :
    s.stepHandover i = if h.remaining ≤ 1 then s.expireHandover i h.key
      else s.modCtx i fun c => { c with handover := some { h with remaining := h.remaining - 1 } } := by
  unfold stepHandover
  simp only [hh]

theorem ctx_stepHandover (s : State) (i j : Nat) :
    (s.stepHandover i).ctx j = if j = i then (s.ctx i).handoverStepped else s.ctx j := by
  cases hh : (s.ctx i).handover with
  | none =>
    rw [stepHandover_none s i hh, Ctx.handoverStepped_none hh]
    split
    · next hj => rw [hj]
    · rfl
  | some h =>
    unfold Ctx.handoverStepped
    rw [stepHandover_some hh, Ctx.handoverEnds_some hh]
    by_cases hr : h.remaining ≤ 1
    · rw [if_pos hr, ctx_expireHandover]
      simp [hr]
    · rw [if_neg hr, ctx_modCtx]
      simp [hr, hh]

/-- The step of a handover counts HANDOVER_FAIL where the deadline runs out, and nothing else. -/
theorem tallied_stepHandover (s : State) (i : Nat) :
    Tallied s (s.stepHandover i) i (if (s.ctx i).handoverEnds then [.handoverFail] else []) := by
  cases hh : (s.ctx i).handover with
  | none =>
    rw [stepHandover_none s i hh, Ctx.handoverEnds_none hh]
    exact .same rfl rfl rfl
  | some h =>
    rw [stepHandover_some hh, Ctx.handoverEnds_some hh]
    by_cases hr : h.remaining ≤ 1
    · rw [if_pos hr, if_pos (decide_eq_true hr)]
      exact tallied_expireHandover s i h.key
    · rw [if_neg hr, if_neg (mt of_decide_eq_true hr)]
      exact tallied_modCtx s i _ rfl

/-- A handover that does not end in the claim changes its record and nothing else. -/
theorem stepHandover_frame {s : State} {i : Nat} (h : (s.ctx i).handoverEnds = false) :
    s.stepHandover i = { s with ctxs := (s.stepHandover i).ctxs } := by
  cases hh : (s.ctx i).handover with
  | none => rw [stepHandover_none s i hh]
  | some x =>
    rw [Ctx.handoverEnds_some hh] at h
    rw [stepHandover_some hh, if_neg (of_decide_eq_false h)]
    rfl

/-! ### The counts of a quiet claim -/

/-- In a quiet claim the handover is stepped, then the count of the state, and nothing expires but the handover. -/
theorem stepCounts_quiet {s : State} {i : Nat} (h : (s.ctx i).Quiet) :
    s.stepCounts i = (s.stepHandover i).modCtx i Ctx.waitStepped := by
  have hu : (s.stepHandover i).ctx i = (s.ctx i).handoverStepped := (ctx_stepHandover s i i).trans (if_pos rfl)
  unfold stepCounts modCtx Ctx.waitStepped
  obtain ⟨hs, n, hf, hn⟩ | ⟨hs, hl⟩ := h
  · simp only [hs, hu, stepFirst, modCtx]
    simp only [Ctx.handoverStepped, hf, hs]
    rw [if_neg (by omega)]
    simp
  · obtain ⟨hstale, hcl⟩ := quiet_silence (s.ctx i).handoverStepped hl
    simp only [hs, hu, stepSilence, hcl, stepStale, hstale, raiseIf, modCtx]
    simp [Ctx.handoverStepped, hs]

theorem quiet_discardWork {s : State} {i : Nat} (h : (s.ctx i).Quiet) : ((s.discardWork i).ctx i).Quiet := by
  rw [ctx_discardWork, if_pos rfl]; exact h

/-- The state in which a quiet claim starts its work. -/
theorem beforeSettling_quiet {s : State} {i : Nat} (h : (s.ctx i).Quiet) : s.beforeSettling i =
    ((((s.discardWork i).stepHandover i).modCtx i Ctx.waitStepped).playReady i).stepSinceRate i := by
  unfold beforeSettling
  rw [stepCounts_quiet (quiet_discardWork h)]

theorem ctx_beforeSettling_quiet {s : State} {i : Nat} (h : (s.ctx i).Quiet) (j : Nat) :
    (s.beforeSettling i).ctx j = if j = i then (s.ctx i).atWorkStart else s.ctx j := by
  rw [beforeSettling_quiet h, ctx_stepSinceRate, ctx_playReady, ctx_playReady, if_pos rfl, ctx_modCtx, ctx_modCtx,
    if_pos rfl, ctx_stepHandover, ctx_stepHandover, if_pos rfl, ctx_discardWork, ctx_discardWork, if_pos rfl]
  by_cases hj : j = i
  · simp only [hj, if_true]
    rfl
  · simp only [hj, if_false]

theorem tallied_beforeSettling_quiet {s : State} {i : Nat} (h : (s.ctx i).Quiet) :
    Tallied s (s.beforeSettling i) i (if (s.ctx i).handoverEnds then [.handoverFail] else []) := by
  have hd : (s.discardWork i).ctx i = { s.ctx i with work := none } := by rw [ctx_discardWork, if_pos rfl]
  have hwork : Tallied s (s.discardWork i) i [] := .same (by simp) (by simp) (by rw [hd])
  have hstep := tallied_stepHandover (s.discardWork i) i
  rw [Ctx.handoverEnds_congr (c := s.ctx i) (by rw [hd])] at hstep
  have hplay : ∀ v : State, Tallied v ((v.playReady i).stepSinceRate i) i [] := fun v =>
    .same (by simp) (by simp) (by rw [ctx_stepSinceRate, if_pos rfl, ctx_playReady, if_pos rfl])
  rw [beforeSettling_quiet h]
  have hwait := tallied_modCtx ((s.discardWork i).stepHandover i) i Ctx.waitStepped
    (Ctx.gen_waitStepped _)
  exact (((hwork.trans hstep).trans hwait).trans (hplay _)).to (by simp)

/-- Before its work starts a quiet claim whose handover does not end writes records, blocks and lanes alone. -/
theorem beforeSettling_frame {s : State} {i : Nat} (h : (s.ctx i).Quiet) (he : (s.ctx i).handoverEnds = false) :
    s.beforeSettling i = { s with
      ctxs := (s.beforeSettling i).ctxs, blocks := (s.beforeSettling i).blocks, lanes := (s.discardWork i).lanes } := by
  have hd : (s.discardWork i).ctx i = { s.ctx i with work := none } := by rw [ctx_discardWork, if_pos rfl]
  have hstep := stepHandover_frame (s := s.discardWork i) (i := i) (by rw [hd]; exact he)
  have hstream := congrArg State.streamMap hstep
  have hatt := congrArg State.attention hstep
  have ht0 := congrArg State.tally0 hstep
  have ht1 := congrArg State.tally1 hstep
  rw [beforeSettling_quiet h]
  apply eq_of_fields <;> simp [hstream, hatt, ht0, ht1]

theorem block_beforeSettling {s : State} {i : Nat} (h : (s.ctx i).Quiet) {b : SlotBinding}
    (hb : (s.ctx i).slot = some b) (n : Nat) : (s.beforeSettling i).block n =
      if n = b.slot then { s.block n with outbound := (s.ctx i).ready } else s.block n := by
  have hc : (((s.discardWork i).stepHandover i).modCtx i Ctx.waitStepped).ctx i =
      ({ s.ctx i with work := none } : Ctx).handoverStepped.waitStepped := by
    rw [ctx_modCtx, if_pos rfl, ctx_stepHandover, if_pos rfl, ctx_discardWork, if_pos rfl]
  have hk : ∀ m, (((s.discardWork i).stepHandover i).modCtx i Ctx.waitStepped).block m = s.block m :=
    fun m => block_congr (by simp) m
  have hs : (s.beforeSettling i).blocks =
      ((((s.discardWork i).stepHandover i).modCtx i Ctx.waitStepped).playReady i).blocks := by
    rw [beforeSettling_quiet h, stepSinceRate_blocks]
  rw [block_congr hs, block_playReady _ i b (by rw [hc]; exact hb), hk, hc]
  rfl

/-! ### The start of a work (R85) -/

/-- The handed-over block of the slot of context `i` is taken, every other block stands. -/
theorem block_dropHanded (s : State) (i n : Nat) : (s.dropHanded i).block n =
    if (s.ctx i).slot.map SlotBinding.slot = some n then { s.block n with handed := none } else s.block n := by
  unfold dropHanded
  cases hb : (s.ctx i).slot with
  | none => rfl
  | some b =>
    by_cases hn : n = b.slot
    · simp [hn]
    · simp [hn, Ne.symm hn]

/-- A work start writes its work, the playout queue's part of the record, the kernel's, and the counters. -/
theorem ctx_startWork_keeps (s : State) (i : Nat) : (s.startWork i).ctx i = { s.ctx i with
    work := some (s.newWork i (s.ctx i).uplinkStart.1), queue := (s.ctx i).uplinkStart.2.queue
    expected := (s.ctx i).uplinkStart.2.expected, priming := (s.ctx i).uplinkStart.2.priming
    noise := (s.ctx i).uplinkStart.2.noise, history := (s.ctx i).uplinkStart.2.history
    counters := ((s.startWork i).ctx i).counters } := by
  rw [ctx_startWork, if_pos rfl, uplinkStart_keeps]

theorem block_startWork (s : State) (i n : Nat) : (s.startWork i).block n =
    if (s.ctx i).slot.map SlotBinding.slot = some n then { s.block n with handed := none } else s.block n := by
  have hslot : ((s.startWork i).ctx i).slot = (s.ctx i).slot := by rw [ctx_startWork_keeps]
  have hctx : ∀ v : State, (v.dropHanded i).ctx i = v.ctx i := fun v => ctx_congr (dropHanded_ctxs v i) i
  unfold startWork at hslot ⊢
  rw [hctx] at hslot
  rw [block_dropHanded, hslot, block_congr (s := countConceal ..) (t := s) (by simp)]

end State

open State

/-! ### The record that the claim leaves -/

/-- The record with work `w` started on what the selection left; a concealment is counted. -/
def Ctx.started (d : Ctx) (w : Work) : Ctx :=
  { d with
    work := some w
    counters := if w.uplink = .conceal then { d.counters with concealed := d.counters.concealed + 1 } else d.counters }

@[simp] theorem Ctx.started_work (d : Ctx) (w : Work) : (d.started w).work = some w := rfl
@[simp] theorem Ctx.started_queue (d : Ctx) (w : Work) : (d.started w).queue = d.queue := rfl
@[simp] theorem Ctx.started_expected (d : Ctx) (w : Work) : (d.started w).expected = d.expected := rfl
@[simp] theorem Ctx.started_priming (d : Ctx) (w : Work) : (d.started w).priming = d.priming := rfl
@[simp] theorem Ctx.started_noise (d : Ctx) (w : Work) : (d.started w).noise = d.noise := rfl

theorem Ctx.started_counters {d : Ctx} {w : Work} (h : w.uplink ≠ .conceal) : (d.started w).counters = d.counters :=
  if_neg h

theorem Ctx.started_concealed {d : Ctx} {w : Work} (h : w.uplink = .conceal) :
    (d.started w).counters.concealed = d.counters.concealed + 1 := by
  unfold Ctx.started
  rw [if_pos h]

/-! ### The claim -/

/-- A quiet claim without a request: the work starts in the state in which the request would be settled, and the claim
is marked taken. -/
theorem exec_boundaryClaim_quiet {i : Fin 2048} {s : State} (hp : s.pinHeld = false) (hd : s.claimDue i.val = true)
    (hq : (s.ctx i.val).Quiet) (hr : (s.ctx i.val).request = none) : exec (.boundaryClaim i) s =
      .next (((s.beforeSettling i.val).startWork i.val).markClaimed i.val) := by
  have hv := (ctx_beforeSettling_quiet hq i.val).trans (if_pos rfl)
  have hset : (s.beforeSettling i.val).settle i.val = s.beforeSettling i.val :=
    settle_none _ _ (by rw [hv]; exact hr)
  have hc : (((s.discardWork i.val).stepCounts i.val).ctx i.val).converting = true := by
    rw [stepCounts_quiet (quiet_discardWork hq), ctx_modCtx, if_pos rfl, ctx_stepHandover, if_pos rfl, ctx_discardWork,
      if_pos rfl, converting_iff]
    exact hq.imp And.left And.left
  have hbody : s.claimBody i.val = (s.beforeSettling i.val).startWork i.val := by
    have hcont : s.claimBody i.val = ((s.discardWork i.val).stepCounts i.val).continueClaim i.val := by
      unfold claimBody
      obtain ⟨h, -⟩ | ⟨h, -⟩ := hq <;> rw [h]
    rw [hcont]
    unfold continueClaim
    rw [if_pos hc]
    exact congrArg (startWork · i.val) hset
  show runs s (s.boundaryClaim i.val) = _
  unfold runs
  rw [hp, boundaryClaim_eq s i.val hd, hbody]
  rfl

/-- The work that a quiet claim starts. -/
def State.quietWork (s : State) (i : Nat) : Work :=
  (s.beforeSettling i).newWork i (s.ctx i).atWorkStart.uplinkStart.1

theorem uplink_quietWork (s : State) (i : Nat) : (s.quietWork i).uplink = (s.ctx i).atWorkStart.uplinkStart.1 := rfl

/-- The events of a quiet claim: HANDOVER_FAIL where the deadline runs out, then CONCEAL where the work conceals. -/
theorem tallied_claim_quiet {s : State} {i : Nat} (hq : (s.ctx i).Quiet) :
    Tallied s (((s.beforeSettling i).startWork i).markClaimed i) i
      ((if (s.ctx i).handoverEnds then [Event.handoverFail] else []) ++
        if (s.quietWork i).uplink = .conceal then [Event.conceal] else []) := by
  have hstart := tallied_startWork (s.beforeSettling i) i
  rw [ctx_beforeSettling_quiet hq, if_pos rfl, ← uplink_quietWork] at hstart
  have hmark : Tallied ((s.beforeSettling i).startWork i) (((s.beforeSettling i).startWork i).markClaimed i) i [] :=
    .same (markClaimed_tally0 ..) (markClaimed_tally1 ..) (by rw [ctx_congr (markClaimed_ctxs ..)])
  exact (((tallied_beforeSettling_quiet hq).trans hstart).trans hmark).to (List.append_nil _)

/-- The record after a quiet claim: its work on what the selection left. -/
theorem ctx_claim_quiet {s : State} {i : Nat} (hq : (s.ctx i).Quiet) :
    ((((s.beforeSettling i).startWork i).markClaimed i).ctx i) =
      (s.ctx i).atWorkStart.uplinkStart.2.started (s.quietWork i) := by
  rw [ctx_congr (markClaimed_ctxs ..), ctx_startWork, if_pos rfl, ctx_beforeSettling_quiet hq, if_pos rfl]
  rfl

end Sys2Proof.Machine
end

section
/-! SUPPORT. The queue selection of a work start (R90, R100), by what stands at distance 0. -/

namespace Sys2Proof.Machine

open State

/-! ### An entry removed from the queue (R90) -/

/-- Of the record, an entry removed can change the kernel's description alone. -/
theorem consume_keeps (c : Ctx) (x : QEntry) : (consume c x).2 = { c with noise := (consume c x).2.noise } := by
  unfold consume
  split
  case h_3 => split <;> rfl
  all_goals rfl

theorem consume_speech (c : Ctx) {x : QEntry} (h : x.kind = .speech) :
    consume c x = (.speech x.rate x.payload, c) := by simp only [consume, h]

theorem consume_silenceUpdate (c : Ctx) {x : QEntry} (h : x.kind = .silenceUpdate) :
    consume c x = (.noise x.payload, { c with noise := some x.payload }) := by simp only [consume, h]

theorem consume_noData_described {c : Ctx} {x : QEntry} {d : List Byte} (h : x.kind = .noData) (hd : c.noise = some d) :
    consume c x = (.noise d, c) := by simp only [consume, h, hd]

theorem consume_noData_silent {c : Ctx} {x : QEntry} (h : x.kind = .noData) (hd : c.noise = none) :
    consume c x = (.silence, c) := by simp only [consume, h, hd]

theorem consume_erased (c : Ctx) {x : QEntry} (h : x.kind = .erased) : consume c x = (.conceal, c) := by
  simp only [consume, h]

/-! ### The selection (R100) -/

/-- The record with priming over. -/
def Ctx.unprimed (c : Ctx) : Ctx := { c with priming := false }

theorem Ctx.unprimed_eq {c : Ctx} (h : c.priming = false) : c.unprimed = c := by
  unfold Ctx.unprimed
  rw [← h]

/-- The record a period leaves that plays or conceals: queue `q`, kernel's description `d`, the expected sequence past
`e`. -/
def Ctx.played (c : Ctx) (q : List QEntry) (d : Option (List Byte)) (e : Seq16) : Ctx :=
  { c with priming := false, queue := q, noise := d, expected := some (e + 1), history := c.history + 1 }

@[simp] theorem Ctx.played_queue (c : Ctx) (q : List QEntry) (d : Option (List Byte)) (e : Seq16) :
    (c.played q d e).queue = q := rfl
@[simp] theorem Ctx.played_noise (c : Ctx) (q : List QEntry) (d : Option (List Byte)) (e : Seq16) :
    (c.played q d e).noise = d := rfl
@[simp] theorem Ctx.played_expected (c : Ctx) (q : List QEntry) (d : Option (List Byte)) (e : Seq16) :
    (c.played q d e).expected = some (e + 1) := rfl
@[simp] theorem Ctx.played_priming (c : Ctx) (q : List QEntry) (d : Option (List Byte)) (e : Seq16) :
    (c.played q d e).priming = false := rfl
@[simp] theorem Ctx.played_counters (c : Ctx) (q : List QEntry) (d : Option (List Byte)) (e : Seq16) :
    (c.played q d e).counters = c.counters := rfl

theorem selectUplink_unexpected {c : Ctx} (h : c.expected = none) : selectUplink c = (.noSamples, c) := by
  simp only [selectUplink, h]

theorem selectUplink_expects {c : Ctx} {e : Seq16} (he : c.expected = some e) : selectUplink c =
    if c.priming then if c.depth ≤ c.queue.length then playHead c.unprimed e else (.noSamples, c)
    else playHead c e := by
  unfold selectUplink
  split
  · next h => rw [he] at h; cases h
  · next e' h =>
    obtain rfl : e = e' := Option.some.inj (he.symm.trans h)
    rfl

theorem selectUplink_primes {c : Ctx} {e : Seq16} (he : c.expected = some e) (hp : c.priming = true)
    (hq : c.queue.length < c.depth) : selectUplink c = (.noSamples, c) := by
  rw [selectUplink_expects he, if_pos hp, if_neg (Nat.not_le.mpr hq)]

/-- Once priming is over, or the depth target reached, the head is looked at. -/
theorem selectUplink_plays {c : Ctx} {e : Seq16} (he : c.expected = some e)
    (hp : c.priming = false ∨ c.depth ≤ c.queue.length) : selectUplink c = playHead c.unprimed e := by
  rw [selectUplink_expects he]
  cases hb : c.priming with
  | false => rw [if_neg Bool.false_ne_true, Ctx.unprimed_eq hb]
  | true => rw [if_pos rfl, if_pos (hp.resolve_left (by simp [hb]))]

/-- A period with no entry at distance 0 is concealed. -/
theorem selectUplink_gap {c : Ctx} {e : Seq16} (he : c.expected = some e) (hp : c.priming = false)
    (hq : ∀ x ∈ c.queue, x.seq ≠ e) : selectUplink c = (.conceal, c.played c.queue c.noise e) := by
  rw [selectUplink_plays he (Or.inl hp)]
  unfold playHead
  split
  · next x rest hc =>
    have hmem : x ∈ c.queue := by rw [show c.queue = x :: rest from hc]; exact List.mem_cons_self ..
    rw [if_neg (hq x hmem)]
    rfl
  · rfl

/-- The work start of record `c` removes head `x` at distance 0 from `e`, and leaves `rest` (R100). -/
structure Ctx.PlaysHead (c : Ctx) (x : QEntry) (rest : List QEntry) (e : Seq16) : Prop where
  expected : c.expected = some e
  primed : c.priming = false ∨ c.depth ≤ c.queue.length
  queue : c.queue = x :: rest
  seq : x.seq = e

namespace Ctx.PlaysHead

variable {c : Ctx} {x : QEntry} {rest : List QEntry} {e : Seq16}

theorem select (h : c.PlaysHead x rest e) : selectUplink c =
    ((consume c.unprimed x).1, c.played rest (consume c.unprimed x).2.noise e) := by
  rw [selectUplink_plays h.expected h.primed]
  unfold playHead
  split
  · next y t hc =>
    obtain ⟨rfl, rfl⟩ := List.cons.inj (h.queue.symm.trans hc)
    rw [if_pos h.seq, consume_keeps]
    rfl
  · next hc => cases h.queue.symm.trans hc

theorem speech (h : c.PlaysHead x rest e) (hk : x.kind = .speech) :
    selectUplink c = (.speech x.rate x.payload, c.played rest c.noise e) := by
  rw [h.select, consume_speech _ hk]
  rfl

theorem silenceUpdate (h : c.PlaysHead x rest e) (hk : x.kind = .silenceUpdate) :
    selectUplink c = (.noise x.payload, c.played rest (some x.payload) e) := by
  rw [h.select, consume_silenceUpdate _ hk]

theorem noData_described (h : c.PlaysHead x rest e) (hk : x.kind = .noData) {d : List Byte} (hd : c.noise = some d) :
    selectUplink c = (.noise d, c.played rest c.noise e) := by
  rw [h.select, consume_noData_described (c := c.unprimed) hk hd]
  rfl

theorem noData_silent (h : c.PlaysHead x rest e) (hk : x.kind = .noData) (hd : c.noise = none) :
    selectUplink c = (.silence, c.played rest c.noise e) := by
  rw [h.select, consume_noData_silent (c := c.unprimed) hk hd]
  rfl

theorem erased (h : c.PlaysHead x rest e) (hk : x.kind = .erased) :
    selectUplink c = (.conceal, c.played rest c.noise e) := by
  rw [h.select, consume_erased _ hk]
  rfl

end Ctx.PlaysHead

/-! ### The work that the selection starts -/

/-- In ACTIVE the selection gives the work's uplink decision, and the record it is started on. -/
theorem claim_selected {s : State} {i : Nat} (hq : (s.ctx i).Quiet) (ha : (s.ctx i).state = .active) {u : Uplink}
    {d : Ctx} (h : selectUplink (s.ctx i).atWorkStart = (u, d)) : (s.quietWork i).uplink = u ∧
      ((((s.beforeSettling i).startWork i).markClaimed i).ctx i) = d.started (s.quietWork i) := by
  have hstart : (s.ctx i).atWorkStart.uplinkStart = (u, d) := by
    unfold Ctx.uplinkStart
    rw [Ctx.atWorkStart_state, if_pos ha, h]
  refine ⟨(uplink_quietWork s i).trans (congrArg Prod.fst hstart), ?_⟩
  rw [ctx_claim_quiet hq, hstart]

/-- Settles O39: the claim is quiet, so its work starts on the record as it was (`claim_selected`), with the selection
that the queue's head gives. -/
theorem queueSelection : Obligations.QueueSelection := by
  intro i s e hp hd hh hr ha hl
  have hq : (s.ctx i.val).Quiet := Or.inr ⟨ha, hl⟩
  have hhead : ∀ {x rest}, (s.ctx i.val).expected = some e →
      ((s.ctx i.val).priming = false ∨ (s.ctx i.val).depth ≤ (s.ctx i.val).queue.length) →
      (s.ctx i.val).queue = x :: rest → x.seq = e → (s.ctx i.val).atWorkStart.PlaysHead x rest e :=
    fun he hpr hqu hx => ⟨he, hpr, hqu, hx⟩
  have htally := tallied_claim_quiet hq
  rw [Ctx.handoverEnds_none hh] at htally
  refine ⟨_, s.quietWork i.val, exec_boundaryClaim_quiet hp hd hq hr, ?_, htally.counted, fun he => ?_,
    fun he hpr hlen => ?_, fun x rest he hpr hqu hx hk => ?_, fun x rest he hpr hqu hx _ => ?_, fun he hpr hqu => ?_⟩
  · rw [ctx_claim_quiet hq, Ctx.started_work]
  · obtain ⟨hu, hc⟩ := claim_selected hq ha (selectUplink_unexpected he)
    simp [hu, hc]
  · obtain ⟨hu, hc⟩ := claim_selected hq ha (selectUplink_primes he hpr hlen)
    simp [hu, hc, he, hpr]
  · obtain ⟨hu, hc⟩ := claim_selected hq ha ((hhead he hpr hqu hx).speech hk)
    simp [hu, hc]
  · have hplays := hhead he hpr hqu hx
    obtain ⟨-, hc⟩ := claim_selected hq ha hplays.select
    refine ⟨by simp [hc], by simp [hc], by simp [hc], fun hk => ?_, fun hk => ?_, fun hk => ?_⟩
    · obtain ⟨hu, hc⟩ := claim_selected hq ha (hplays.silenceUpdate hk)
      simp [hu, hc, Ctx.started_counters]
    · cases hn : (s.ctx i.val).noise with
      | none =>
        obtain ⟨hu, hc⟩ := claim_selected hq ha (hplays.noData_silent hk hn)
        simp [hu, hc, hn, Ctx.started_counters]
      | some d =>
        obtain ⟨hu, hc⟩ := claim_selected hq ha (hplays.noData_described hk hn)
        simp [hu, hc, hn, Ctx.started_counters]
    · obtain ⟨hu, hc⟩ := claim_selected hq ha (hplays.erased hk)
      simp [hu, hc, Ctx.started_concealed]
  · obtain ⟨hu, hc⟩ := claim_selected hq ha (selectUplink_gap he hpr hqu)
    simp [hu, hc, Ctx.started_concealed]

end Sys2Proof.Machine
end

section
/-! SUPPORT. What the boundary claim of a context writes: one that starts a work, and one in OPEN or HELD (R84, R85). -/

namespace Sys2Proof.Machine

open State

/-! ### The work a quiet claim starts (R85) -/

theorem rateEntry_congr {s t : State} {i : Nat} (h : (t.ctx i).profile = (s.ctx i).profile)
    (hp : t.profiles = s.profiles) (r : Nat) : t.rateEntry i r = s.rateEntry i r ∧ t.profileOf i = s.profileOf i := by
  unfold rateEntry profileOf contents
  rw [h]
  simp only [profile_congr hp, and_self]

/-- What the claim's work fixes, read from the state before the claim. -/
theorem quietWork_eq {s : State} {i : Nat} (hq : (s.ctx i).Quiet) : s.quietWork i = {
    rate := (s.ctx i).rate.getD 0, length := s.lengthOf i ((s.ctx i).rate.getD 0), family := s.familyOf i
    primary := (s.ctx i).primary, bicast := bicastKey (s.ctx i).handoverStepped.handover
    outSeq := (s.ctx i).outSeq, gainLand := (s.ctx i).gainLand, gainMobile := (s.ctx i).gainMobile
    round := (s.ctx i).rounding.resolve s.defaultRound, clipReport := (s.ctx i).clipReport
    landline := (s.beforeSettling i).handedBlock i, uplink := (s.ctx i).atWorkStart.uplinkStart.1
    history := (s.ctx i).history } := by
  have hv : (s.beforeSettling i).ctx i = (s.ctx i).atWorkStart := (ctx_beforeSettling_quiet hq i).trans (if_pos rfl)
  have hprof : (s.beforeSettling i).profiles = s.profiles := by simp [beforeSettling_quiet hq]
  have hround : (s.beforeSettling i).defaultRound = s.defaultRound := by simp [beforeSettling_quiet hq]
  have hentry := fun r => rateEntry_congr (by rw [hv]; rfl) hprof r
  unfold quietWork newWork lengthOf State.familyOf
  rw [(hentry _).1, (hentry 0).2, hv, hround]
  rfl

/-- The length and the family of the work are those of the rate's entry and of its profile. -/
theorem lengthOf_eq {s : State} {i n r : Nat} {c : Profile} {e : RateEntry} (hp : (s.ctx i).profile = some n)
    (hc : s.contents n = some c) (he : c.table[r]? = some e) : s.lengthOf i r = e.bytes ∧ s.familyOf i = c.family := by
  simp [lengthOf, State.familyOf, rateEntry, profileOf, hp, hc, he]

theorem handedBlock_some {s : State} {i : Nat} {b : SlotBinding} (h : (s.ctx i).slot = some b) :
    s.handedBlock i = (s.block b.slot).handed.getD [] := by
  simp only [handedBlock, h]

/-- The work converts the block handed over to its slot (R85). -/
theorem landline_quietWork {s : State} {i : Nat} (hq : (s.ctx i).Quiet) {b : SlotBinding}
    (hb : (s.ctx i).slot = some b) : (s.quietWork i).landline = (s.block b.slot).handed.getD [] := by
  have hslot : ((s.beforeSettling i).ctx i).slot = some b := by
    rw [ctx_beforeSettling_quiet hq, if_pos rfl, Ctx.atWorkStart_slot, hb]
  have hland : (s.quietWork i).landline = (s.beforeSettling i).handedBlock i := by rw [quietWork_eq hq]
  rw [hland, handedBlock_some hslot, block_beforeSettling hq hb, if_pos rfl]

theorem uplinkStart_armed {c : Ctx} (h : c.state = .armed) : c.uplinkStart = (.noSamples, c) := by
  unfold Ctx.uplinkStart
  rw [h]
  rfl

/-- In ARMED the work plays no samples (R85). -/
theorem uplink_quietWork_armed {s : State} {i : Nat} (h : (s.ctx i).state = .armed) :
    (s.quietWork i).uplink = .noSamples := by
  rw [uplink_quietWork, uplinkStart_armed (by rw [Ctx.atWorkStart_state, h])]

theorem bicastKey_none : bicastKey none = none := rfl

theorem bicastKey_some (h : Handover) : bicastKey (some h) = if h.bicast then some h.key else none := rfl

/-! ### What a quiet claim writes -/

/-- From `s` to `t` nothing changed but records, blocks, lanes, the timer and the tallies. -/
def State.WorkFrame (s t : State) : Prop := t = { s with
  ctxs := t.ctxs, blocks := t.blocks, lanes := t.lanes, timer := t.timer, tally0 := t.tally0, tally1 := t.tally1 }

theorem State.WorkFrame.trans {s t u : State} (h : WorkFrame s t) (h' : WorkFrame t u) : WorkFrame s u := by
  unfold WorkFrame at h h'
  exact h'.trans (by rw [h])

theorem workFrame_beforeSettling {s : State} {i : Nat} (hq : (s.ctx i).Quiet) (he : (s.ctx i).handoverEnds = false) :
    WorkFrame s (s.beforeSettling i) := by
  unfold WorkFrame
  rw [beforeSettling_frame hq he]

theorem workFrame_startWork (s : State) (i : Nat) : WorkFrame s (s.startWork i) := by
  unfold WorkFrame
  apply eq_of_fields <;> simp

theorem workFrame_markClaimed (s : State) (i : Nat) : WorkFrame s (s.markClaimed i) := rfl

theorem workFrame_claim {s : State} {i : Nat} (hq : (s.ctx i).Quiet) (he : (s.ctx i).handoverEnds = false) :
    WorkFrame s (((s.beforeSettling i).startWork i).markClaimed i) :=
  ((workFrame_beforeSettling hq he).trans (workFrame_startWork _ i)).trans (workFrame_markClaimed _ i)

/-- Record `d` is `c` with work `w` started, but for the queue's part, the kernel's and the counters. -/
def Ctx.StartedAs (c d : Ctx) (w : Work) : Prop :=
  ∃ queue expected priming noise history counters, d = { c with
    work := some w, queue := queue, expected := expected, priming := priming, noise := noise, history := history
    counters := counters }

theorem startedAs_claim {s : State} {i : Nat} (hq : (s.ctx i).Quiet) :
    (s.ctx i).atWorkStart.StartedAs ((((s.beforeSettling i).startWork i).markClaimed i).ctx i) (s.quietWork i) := by
  rw [ctx_claim_quiet hq, uplinkStart_keeps]
  exact ⟨_, _, _, _, _, _, rfl⟩

theorem onlyCtx_claim {s : State} {i : Nat} (hq : (s.ctx i).Quiet) :
    OnlyCtx s (((s.beforeSettling i).startWork i).markClaimed i) i := fun j hj => by
  rw [ctx_congr (markClaimed_ctxs ..), ctx_startWork, if_neg hj, ctx_beforeSettling_quiet hq, if_neg hj]

theorem block_claim {s : State} {i : Nat} (hq : (s.ctx i).Quiet) {b : SlotBinding} (hb : (s.ctx i).slot = some b)
    (n : Nat) : (((s.beforeSettling i).startWork i).markClaimed i).block n =
      if n = b.slot then { s.block n with outbound := (s.ctx i).ready, handed := none } else s.block n := by
  rw [block_congr (markClaimed_blocks ..), block_startWork, ctx_beforeSettling_quiet hq, if_pos rfl,
    Ctx.atWorkStart_slot, hb, block_beforeSettling hq hb]
  by_cases hn : n = b.slot
  · simp [hn]
  · simp [hn, Ne.symm hn]

/-- No lane keeps the work of the period before (R84). -/
theorem inHand_claim {s : State} {i : Nat} (hq : (s.ctx i).Quiet) {n : Nat} (hn : n < 8) :
    ((((s.beforeSettling i).startWork i).markClaimed i).lane n).inHand ≠ some i := by
  rw [lane_congr (t := s.discardWork i) (by simp [beforeSettling_quiet hq]), lane_discardWork]
  by_cases hi : (s.lane n).inHand = some i
  · rw [if_pos ⟨hn, hi⟩]
    exact nofun
  · rw [if_neg fun h => hi h.2]
    exact hi

/-- From `s` to `t` context `i` took a quiet claim without a request, in which its work started (R84, R85). -/
structure QuietClaim (s t : State) (i : Nat) : Prop where
  started : (s.ctx i).atWorkStart.StartedAs (t.ctx i) (s.quietWork i)
  tallied : Tallied s t i ((if (s.ctx i).handoverEnds then [Event.handoverFail] else []) ++
    if (s.quietWork i).uplink = .conceal then [Event.conceal] else [])
  only : OnlyCtx s t i
  block : ∀ b, (s.ctx i).slot = some b → ∀ n, t.block n =
    if n = b.slot then { s.block n with outbound := (s.ctx i).ready, handed := none } else s.block n
  inHand : ∀ n, n < 8 → (t.lane n).inHand ≠ some i
  due : t.claimDue i = false
  frame : (s.ctx i).handoverEnds = false → WorkFrame s t

theorem quietClaim_claim {s : State} {i : Nat} (hq : (s.ctx i).Quiet) :
    QuietClaim s (((s.beforeSettling i).startWork i).markClaimed i) i where
  started := startedAs_claim hq
  tallied := tallied_claim_quiet hq
  only := onlyCtx_claim hq
  block _ hb := block_claim hq hb
  inHand _ hn := inHand_claim hq hn
  due := claimDue_markClaimed _ i
  frame := workFrame_claim hq

/-- A quiet claim is taken without a request to settle (R82, R84). -/
theorem exists_quietClaim {i : Fin 2048} {s : State} (hp : s.pinHeld = false) (hd : s.claimDue i.val = true)
    (hq : (s.ctx i.val).Quiet) (hr : (s.ctx i.val).request = none) :
    ∃ t, exec (.boundaryClaim i) s = .next t ∧ QuietClaim s t i.val :=
  ⟨_, exec_boundaryClaim_quiet hp hd hq hr, quietClaim_claim hq⟩

/-! ### The claim in OPEN and in HELD -/

/-- The claim of an OPEN or HELD context steps its handover and discards its slot's block (R84). -/
theorem exec_boundaryClaim_still {i : Fin 2048} {s : State} (hp : s.pinHeld = false) (hd : s.claimDue i.val = true)
    (hs : (s.ctx i.val).state = .opened ∨ (s.ctx i.val).state = .held) : exec (.boundaryClaim i) s =
      .next (((s.stepHandover i.val).dropHanded i.val).markClaimed i.val) := by
  have hbody : s.claimBody i.val = (s.stepHandover i.val).dropHanded i.val := by
    unfold claimBody
    rcases hs with h | h <;> rw [h]
  show runs s (s.boundaryClaim i.val) = _
  unfold runs
  rw [hp, boundaryClaim_eq s i.val hd, hbody]
  rfl

theorem ctx_stillClaim (s : State) (i j : Nat) : (((s.stepHandover i).dropHanded i).markClaimed i).ctx j =
    if j = i then (s.ctx i).handoverStepped else s.ctx j := by
  rw [ctx_congr (markClaimed_ctxs ..), ctx_congr (dropHanded_ctxs ..), ctx_stepHandover]

theorem block_stillClaim (s : State) (i n : Nat) : (((s.stepHandover i).dropHanded i).markClaimed i).block n =
    if (s.ctx i).slot.map SlotBinding.slot = some n then { s.block n with handed := none } else s.block n := by
  have hslot : ((s.stepHandover i).ctx i).slot = (s.ctx i).slot := by rw [ctx_stepHandover, if_pos rfl]; rfl
  rw [block_congr (markClaimed_blocks ..), block_dropHanded, hslot, block_congr (stepHandover_blocks s i)]

theorem stillClaim_frame {s : State} {i : Nat} (he : (s.ctx i).handoverEnds = false) :
    ((s.stepHandover i).dropHanded i).markClaimed i = { s with
      ctxs := (((s.stepHandover i).dropHanded i).markClaimed i).ctxs
      blocks := (((s.stepHandover i).dropHanded i).markClaimed i).blocks
      timer := (((s.stepHandover i).dropHanded i).markClaimed i).timer } := by
  have hstep := stepHandover_frame he
  have hstream := congrArg State.streamMap hstep
  have hatt := congrArg State.attention hstep
  have ht0 := congrArg State.tally0 hstep
  have ht1 := congrArg State.tally1 hstep
  apply eq_of_fields <;> simp [hstream, hatt, ht0, ht1]

/-- Settles O38: a quiet claim (`exists_quietClaim`) and the work it starts (`quietWork_eq`), with no handover and with
one; and the claim in OPEN and HELD. -/
theorem boundaryClaimStartsWork : Obligations.BoundaryClaimStartsWork := by
  refine ⟨?_, ?_, ?_⟩
  · intro i s b hp hd hh hr hb hst
    have hends := Ctx.handoverEnds_none hh
    have hstep := Ctx.handoverStepped_none hh
    obtain ⟨t, hexec, hclaim⟩ := exists_quietClaim hp hd hst hr
    obtain ⟨_, _, _, _, _, _, hc⟩ := hclaim.started
    have hw := quietWork_eq hst
    have htally := hclaim.tallied
    have hland := landline_quietWork hst hb
    rw [hends] at htally
    refine ⟨t, s.quietWork i.val, hexec, by rw [hc], by rw [hw], by rw [hw],
      by rw [hw, hstep, hh, bicastKey_none], fun n c e hn hcon he => ?_, by rw [hw], by rw [hw], by rw [hw], by rw [hw],
      by rw [hw], hland, fun ha => ?_, by rw [hc, Ctx.atWorkStart_state], by rw [hc, Ctx.atWorkStart_ready],
      by rw [hc, Ctx.atWorkStart_firstRemaining], by rw [hc, Ctx.atWorkStart_silence],
      by rw [hc, Ctx.atWorkStart_staleRaised], by rw [hc, Ctx.atWorkStart_conds, hstep], htally.counted,
      by rw [hc, Ctx.atWorkStart_sinceRate], (hclaim.block b hb b.slot).trans (if_pos rfl),
      fun n hn => (hclaim.block b hb n).trans (if_neg hn), hclaim.inHand, hclaim.only, hclaim.due, hclaim.frame hends⟩
    · rw [hw]
      exact lengthOf_eq hn hcon he
    · exact uplink_quietWork_armed ha
  · intro i s hp hd hst hgo
    have hends : (s.ctx i.val).handoverEnds = false := by
      cases hh : (s.ctx i.val).handover with
      | none => exact Ctx.handoverEnds_none hh
      | some h => exact (Ctx.handoverEnds_some hh).trans (decide_eq_false (Nat.not_le.mpr (hgo h hh)))
    refine ⟨_, exec_boundaryClaim_still hp hd hst, ?_, fun j hj => (ctx_stillClaim s i.val j).trans (if_neg hj),
      block_stillClaim s i.val, claimTaken_markClaimed i.val (by simp), stillClaim_frame hends⟩
    rw [ctx_stillClaim, if_pos rfl, Ctx.handoverStepped_goesOn hends]
  · intro i s h hp hd hh hr hst
    have hends := Ctx.handoverEnds_some hh
    obtain ⟨t, hexec, hclaim⟩ := exists_quietClaim hp hd hst hr
    obtain ⟨_, _, _, _, _, _, hc⟩ := hclaim.started
    have hw := quietWork_eq hst
    have htally := hclaim.tallied
    refine ⟨t, s.quietWork i.val, hexec, by rw [hc], by rw [hw], by rw [hw], fun hrem => ?_, fun hrem => ?_⟩
    · replace hends := hends.trans (decide_eq_false (Nat.not_le.mpr hrem))
      have hnext : (s.ctx i.val).handoverStepped.handover = some { h with remaining := h.remaining - 1 } := by
        rw [Ctx.handoverStepped_goesOn hends, hh]
        rfl
      rw [hends] at htally
      exact ⟨by rw [hw, hnext, bicastKey_some], by rw [hc, Ctx.atWorkStart_handover, hnext], htally.counted⟩
    · replace hends := hends.trans (decide_eq_true hrem.le)
      have hnext : (s.ctx i.val).handoverStepped.handover = none := if_pos hends
      rw [hends] at htally
      exact ⟨by rw [hw, hnext, bicastKey_none], by rw [hc, Ctx.atWorkStart_handover, hnext], htally.counted⟩

end Sys2Proof.Machine
end

section
/-! SUPPORT. SET_RATE (R113 to R115): the order behind checks 3 to 5, and what it does by the state of the context. -/

namespace Sys2Proof.Machine

open State

/-! ### The order by the state of its context -/

theorem takeOrder_setRate {p : Port} {i0 i1 g r : Byte} {u : State} (h : Owned u p i0 i1 g) (hr : r.toNat ≤ 7) :
    takeOrder p .setRate [i0, i1, g, r] u = setRateOf (le16 i0 i1) r.toNat u :=
  ownerChecked_fields p i0 i1 g _ (decide_eq_true hr) u (fun i => setRateOf i r.toNat u) h

theorem Ctx.permits_some {c : Ctx} {set : RateSet} (h : c.permitted = some set) (r : Nat) :
    c.permits r = set.getLsbD r := by
  unfold Ctx.permits
  rw [h]
  rfl

/-- A permitted index in ARMED or ACTIVE: the order places a request (R115). -/
theorem setRateOf_converting {i r : Nat} {u : State} (h : (u.ctx i).state = .armed ∨ (u.ctx i).state = .active)
    (hr : (u.ctx i).permits r = true) : setRateOf i r u = setRatePending i r u := by
  have hopen : (u.ctx i).state ≠ .closed := by rcases h with h | h <;> simp [h]
  rw [setRateOf, if_neg hopen, if_neg (by simp [hr]), if_pos ((converting_iff _).2 h)]

/-- A permitted index in OPEN or HELD: the order sets the rate (R114). -/
theorem setRateOf_idle {i r : Nat} {u : State} (h : (u.ctx i).state = .opened ∨ (u.ctx i).state = .held)
    (hr : (u.ctx i).permits r = true) : setRateOf i r u = setRateAtOnce i r u := by
  have hopen : (u.ctx i).state ≠ .closed := by rcases h with h | h <;> simp [h]
  have hidle : ¬ (u.ctx i).converting = true := by rcases h with h | h <;> simp [Ctx.converting, h]
  rw [setRateOf, if_neg hopen, if_neg (by simp [hr]), if_neg hidle]

/-! ### The four outcomes -/

theorem setRateAtOnce_current {i r : Nat} {u : State} (h : (u.ctx i).rate = some r) :
    setRateAtOnce i r u = ⟨.ok, .rateSet .current (some r) (u.ctx i).request none, u⟩ := if_pos h

theorem setRateAtOnce_other {i r q : Nat} {u : State} (h : (u.ctx i).rate = some q) (hne : r ≠ q) :
    setRateAtOnce i r u = ⟨.ok, .rateSet .set (some r) (u.ctx i).request none, u.retune i r⟩ :=
  if_neg (by simp [h, Ne.symm hne])

theorem setRatePending_current {i r : Nat} {u : State} (h : (u.ctx i).rate = some r) :
    setRatePending i r u = ⟨.ok, .rateSet .current (some r) none (u.ctx i).request, u.dropRequest i⟩ := if_pos h

theorem setRatePending_other {i r q : Nat} {u : State} (h : (u.ctx i).rate = some q) (hne : r ≠ q) :
    setRatePending i r u = ⟨.ok, .rateSet .pending (some q) (some ⟨r, .order⟩) (u.ctx i).request,
      u.modCtx i fun c => { c with request := some ⟨r, .order⟩ }⟩ :=
  (if_neg (by simp [h, Ne.symm hne])).trans (by rw [h])

/-! ### What the order writes -/

/-- SET_RATE touches the record of its context alone. -/
theorem ctx_setRateOf_other {i j : Nat} (hj : j ≠ i) (r : Nat) (u : State) :
    (setRateOf i r u).after.ctx j = u.ctx j := by
  unfold setRateOf
  split
  · rfl
  split
  · rfl
  split
  · unfold setRatePending
    split
    · exact (ctx_modCtx ..).trans (if_neg hj)
    · exact (ctx_modCtx ..).trans (if_neg hj)
  · unfold setRateAtOnce
    split
    · rfl
    · exact (ctx_retune ..).trans (if_neg hj)

/-- A rate set at once writes the records and counts RATE_CHANGE, and nothing else (R114, R181). -/
theorem retune_frame (s : State) (i r : Nat) : s.retune i r = { s with
    ctxs := (s.retune i r).ctxs, tally0 := s.tally0.step .rateChange (some (s.handleOf i))
    tally1 := s.tally1.step .rateChange (some (s.handleOf i)) } := by
  have hgen : (s.modCtx i fun c => { c with rate := some r, sinceRate := 0 }).handleOf i = s.handleOf i := by
    simp [handleOf]
  conv_lhs => rw [retune, countFor, hgen]
  rfl

/-- A rate set at once is answered (R114). -/
theorem retune_respond (u : State) (p : Port) (code tag : Byte) (b : RespBody) (i r : Nat) {g : Byte}
    (hg : (u.ctx i).gen = g) :
    (respond p code tag ⟨.ok, b, u.retune i r⟩).ctx i = { u.ctx i with rate := some r, sinceRate := 0 } ∧
      Answered u (respond p code tag ⟨.ok, b, u.retune i r⟩) p code tag .ok b ∧
      respond p code tag ⟨.ok, b, u.retune i r⟩ = { u with
        ctxs := (respond p code tag ⟨.ok, b, u.retune i r⟩).ctxs
        ports := (respond p code tag ⟨.ok, b, u.retune i r⟩).ports
        tally0 := u.tally0.step .rateChange (some ⟨i, g⟩), tally1 := u.tally1.step .rateChange (some ⟨i, g⟩) } := by
  subst hg
  refine ⟨(ctx_retune u i r i).trans (if_pos rfl), answered_respond u p code tag _ rfl, ?_⟩
  rw [respond_frame, retune_frame]
  rfl

/-- Settles O27, by the state of the context and whether the index is its current rate. -/
theorem setRateByState : Obligations.SetRateByState := by
  intro p tag i0 i1 g r s u i set q hs hu ho hi hr hset hin hq
  subst hi
  have hgen := ho.gen_eq
  have ht := takeOrder_setRate ho hr
  generalize le16 i0 i1 = i at *
  have hpermits : (u.ctx i).permits r.toNat = true := (Ctx.permits_some hset _).trans hin
  refine ⟨_, exec_eq_respond rfl (by decide) hs hu ht, fun j hj => ctx_setRateOf_other hj _ u, fun hst hne => ?_,
    fun hst he => ?_, fun hst hne => ?_, fun hst he => ?_⟩
  · rw [setRateOf_idle hst hpermits, setRateAtOnce_other hq hne]
    exact retune_respond u p _ tag _ i _ hgen
  · rw [setRateOf_idle hst hpermits, he, setRateAtOnce_current hq]
    exact (read_respond u p _ tag _).symm
  · rw [setRateOf_converting hst hpermits, setRatePending_other hq hne]
    obtain ⟨hctx, -, hrest⟩ := modCtx_respond u p OrderCode.setRate.byte tag
      (.rateSet .pending (some q) (some ⟨r.toNat, .order⟩) (u.ctx i).request) i
      fun c => { c with request := some ⟨r.toNat, .order⟩ }
    exact ⟨hctx, hrest⟩
  · rw [setRateOf_converting hst hpermits, he, setRatePending_current hq]
    obtain ⟨hctx, -, hrest⟩ := modCtx_respond u p OrderCode.setRate.byte tag
      (.rateSet .current (some q) none (u.ctx i).request) i fun c => { c with request := none }
    exact ⟨hctx, hrest⟩

end Sys2Proof.Machine
end

section
/-! SUPPORT. SET_RATESET (R58, R116, R117): the rate a new set moves the context to, what the move costs, and what
becomes of the pending request. -/

namespace Sys2Proof.Machine

open State

/-! ### The rate the new set moves to (R116) -/

theorem RateSet.has_eq (set : RateSet) (r : Nat) : set.has r = set.getLsbD r := rfl

/-- The set `set` moves rate `q`, which it does not hold, to its highest index below `q`, else to its lowest: `v`. -/
structure MovesRate (set : RateSet) (q v : Nat) : Prop where
  left : set.getLsbD q = false
  member : set.getLsbD v = true
  nearest : v < q ∧ (∀ r, set.getLsbD r = true → r < q → r ≤ v) ∨ ∀ r, set.getLsbD r = true → q ≤ r ∧ v ≤ r

theorem MovesRate.ne {set : RateSet} {q v : Nat} (h : MovesRate set q v) : v ≠ q := by
  rintro rfl
  exact Bool.noConfusion (h.left.symm.trans h.member)

/-- A rate moved out of a set lands where a request for it would be corrected to (R107, R116). -/
theorem MovesRate.landing_eq {set : RateSet} {q v : Nat} (h : MovesRate set q v) : set.landing q = v := by
  have hcorrected : CorrectedTo set q v := by
    refine ⟨h.member, Or.inr ⟨h.left, h.nearest.imp_right fun hmin x hx => ⟨lt_of_le_of_ne (hmin x hx).1 ?_, (hmin x hx).2⟩⟩⟩
    rintro rfl
    exact Bool.noConfusion (h.left.symm.trans hx)
  have hcorrect := correct_eq hcorrected
  rwa [RateSet.correct, if_neg (by simp [RateSet.has_eq, h.left])] at hcorrect

theorem costOf_eq {u : State} {i n r : Nat} {c : Profile} {e : RateEntry} (hp : (u.ctx i).profile = some n)
    (hc : u.contents n = some c) (he : c.table[r]? = some e) : u.costOf i r = e.cost := by
  simp [costOf, rateEntry, profileOf, hp, hc, he]

/-! ### The pending request against the new set (R117) -/

theorem keptRequest_member {set : RateSet} {v : Nat} {x : RateRequest} (h : set.getLsbD x.rate = true) (hv : x.rate ≠ v) :
    keptRequest set v (some x) = some x := if_pos ⟨h, hv⟩

theorem keptRequest_current {set : RateSet} {v : Nat} {x : RateRequest} (hv : x.rate = v) :
    keptRequest set v (some x) = none := if_neg fun h => h.2 hv

theorem keptRequest_outside {set : RateSet} {v : Nat} {x : RateRequest} (h : set.getLsbD x.rate = false) :
    keptRequest set v (some x) = none := if_neg fun hk => Bool.noConfusion (h.symm.trans hk.1)

theorem refusedRequest_member {set : RateSet} {x : RateRequest} (h : set.getLsbD x.rate = true) :
    refusedRequest set (some x) = false := by
  simp [refusedRequest, RateSet.has_eq, h]

theorem refusedRequest_outside {set : RateSet} {x : RateRequest} (h : set.getLsbD x.rate = false) :
    refusedRequest set (some x) = decide (x.source = .order) := by
  simp [refusedRequest, RateSet.has_eq, h]

/-- The record once the set is replaced and the request decided against it, at rate `v` (R117). -/
def Ctx.narrowed (c : Ctx) (set : RateSet) (v : Nat) : Ctx :=
  { c with
    permitted := some set, request := keptRequest set v c.request
    conds := if refusedRequest set c.request then c.conds ||| 0x10#12 else c.conds }

/-- What R117 makes of a pending request: kept in the set, removed at the rate itself, refused outside the set. -/
theorem Ctx.narrowed_decides {c : Ctx} {set : RateSet} {v : Nat} {x : RateRequest} (hx : c.request = some x)
    (hv : set.getLsbD v = true) :
    (set.getLsbD x.rate = true → x.rate ≠ v →
      (c.narrowed set v).request = some x ∧ (c.narrowed set v).conds = c.conds) ∧
    (x.rate = v → (c.narrowed set v).request = none ∧ (c.narrowed set v).conds = c.conds) ∧
    (set.getLsbD x.rate = false → (c.narrowed set v).request = none ∧
      (c.narrowed set v).conds = if x.source = .order then c.conds ||| 0x10#12 else c.conds) := by
  unfold Ctx.narrowed
  refine ⟨fun hmem hne => ?_, fun hcur => ?_, fun hout => ?_⟩
  · simp [hx, keptRequest_member hmem hne, refusedRequest_member hmem]
  · simp [hx, keptRequest_current hcur, refusedRequest_member (hcur ▸ hv : set.getLsbD x.rate = true)]
  · simp [hx, keptRequest_outside hout, refusedRequest_outside hout]

theorem Ctx.narrowed_none {c : Ctx} (h : c.request = none) (set : RateSet) (v : Nat) :
    c.narrowed set v = { c with permitted := some set } := by
  unfold Ctx.narrowed
  simp [h, keptRequest, refusedRequest]

theorem ctx_narrow (s : State) (i : Nat) (set : RateSet) (v j : Nat) :
    (s.narrow i set v).ctx j = if j = i then (s.ctx i).narrowed set v else s.ctx j := by
  unfold narrow Ctx.narrowed
  rw [ctx_raiseIf, ctx_modCtx, ctx_modCtx, if_pos rfl]
  by_cases hj : j = i
  · cases hr : refusedRequest set (s.ctx i).request <;> simp [hj, add_rateRefused]
  · simp [hj]

/-- RATE_REFUSED puts a context without conditions into its owner's attention queue (R117, R167). -/
theorem queueOf_narrow (s : State) (i : Nat) (set : RateSet) (v : Nat) (p : Port) :
    (s.narrow i set v).queueOf p =
      if ((s.ctx i).conds = 0 ∧ ((s.narrow i set v).ctx i).conds ≠ 0) ∧ p = (s.ctx i).owner then s.queueOf p ++ [i]
      else s.queueOf p := by
  rw [ctx_narrow, if_pos rfl]
  unfold narrow Ctx.narrowed
  cases refusedRequest set (s.ctx i).request with
  | false => simp [raiseIf]
  | true => simp [raiseIf, queueOf_raise]

/-- Without a pending request the set alone is replaced. -/
theorem narrow_none {s : State} {i : Nat} (h : (s.ctx i).request = none) (set : RateSet) (v : Nat) :
    s.narrow i set v = s.modCtx i fun c => { c with permitted := some set } := by
  unfold narrow modCtx
  simp only [h, keptRequest]
  rfl

/-! ### The move of the rate (R105, R116) -/

/-- The rate goes from `q` to `v`: where they differ it is set, and a converting context pays the difference. -/
def State.rerated (s : State) (i q v : Nat) : State :=
  if v = q then s else if (s.ctx i).converting then s.retunePaid i v else s.retune i v

theorem rerated_same (s : State) (i q : Nat) : s.rerated i q q = s := if_pos rfl

theorem rerated_paid {s : State} {i q v : Nat} (hv : v ≠ q) (h : (s.ctx i).converting = true) :
    s.rerated i q v = s.retunePaid i v := (if_neg hv).trans (if_pos h)

theorem rerated_free {s : State} {i q v : Nat} (hv : v ≠ q) (h : (s.ctx i).converting = false) :
    s.rerated i q v = s.retune i v := (if_neg hv).trans (if_neg (by simp [h]))

/-- The record with the rate moved from `q` to `v`. -/
def Ctx.rerated (c : Ctx) (q v : Nat) : Ctx :=
  { c with rate := some v, sinceRate := if v = q then c.sinceRate else 0 }

theorem Ctx.rerated_same {c : Ctx} {q : Nat} (h : c.rate = some q) : c.rerated q q = c := by
  unfold Ctx.rerated
  rw [if_pos rfl, ← h]

theorem ctx_rerated {s : State} {i q : Nat} (h : (s.ctx i).rate = some q) (v j : Nat) :
    (s.rerated i q v).ctx j = if j = i then (s.ctx i).rerated q v else s.ctx j := by
  by_cases hv : v = q
  · rw [hv, rerated_same, Ctx.rerated_same h]
    split
    · next hj => rw [hj]
    · rfl
  · unfold Ctx.rerated
    cases hc : (s.ctx i).converting with
    | true => rw [rerated_paid hv hc, ctx_retunePaid, if_neg hv]
    | false => rw [rerated_free hv hc, ctx_retune, if_neg hv]

theorem reserved_rerated (s : State) (i q v : Nat) : (s.rerated i q v).reserved =
    if (s.ctx i).converting ∧ v ≠ q then s.reserved + s.costOf i v - s.currentCost i else s.reserved := by
  by_cases hv : v = q
  · rw [hv, rerated_same, if_neg fun h => h.2 rfl]
  · cases hc : (s.ctx i).converting with
    | true => rw [rerated_paid hv hc, reserved_retunePaid, if_pos ⟨rfl, hv⟩]
    | false => rw [rerated_free hv hc, if_neg (by simp), retune_reserved]

theorem retunePaid_frame (s : State) (i r : Nat) : s.retunePaid i r = { s with
    ctxs := (s.retunePaid i r).ctxs, reserved := s.reserved + s.costOf i r - s.currentCost i
    tally0 := s.tally0.step .rateChange (some (s.handleOf i))
    tally1 := s.tally1.step .rateChange (some (s.handleOf i)) } := by
  rw [retunePaid, retune_frame]
  rfl

/-- A rate that moves counts RATE_CHANGE (R116, R181). -/
theorem rerated_frame {s : State} {i q v : Nat} (hv : v ≠ q) : s.rerated i q v = { s with
    ctxs := (s.rerated i q v).ctxs, reserved := (s.rerated i q v).reserved
    tally0 := s.tally0.step .rateChange (some (s.handleOf i))
    tally1 := s.tally1.step .rateChange (some (s.handleOf i)) } := by
  cases hc : (s.ctx i).converting with
  | true => rw [rerated_paid hv hc, retunePaid_frame]
  | false => rw [rerated_free hv hc, retune_frame]

/-! ### The order by what its set asks for -/

theorem takeOrder_setRateset {p : Port} {i0 i1 g set : Byte} {u : State} (h : Owned u p i0 i1 g) (hs : set ≠ 0) :
    takeOrder p .setRateset [i0, i1, g, set] u = setRatesetOf (le16 i0 i1) set u :=
  ownerChecked_fields p i0 i1 g _ (decide_eq_true hs) u (fun i => setRatesetOf i set u) h

/-- A set within the table of a context's profile is taken against the current rate (R116). -/
theorem setRatesetOf_within {i n q : Nat} {set : RateSet} {u : State} {c : Profile} (hst : (u.ctx i).state ≠ .closed)
    (hp : (u.ctx i).profile = some n) (hc : u.contents n = some c) (hq : (u.ctx i).rate = some q)
    (hin : ∀ r, set.getLsbD r = true → r < c.table.length) : setRatesetOf i set u = replaceRateset i set q u := by
  have hprof : u.profileOf i = some c := by simp [profileOf, hp, hc]
  rw [setRatesetOf, if_neg hst, hprof]
  simp only [(RateSet.within_iff set _).2 hin, if_true, hq]
  rfl

/-- An upward move of a converting context that does not fit is refused (R58, R116). -/
theorem replaceRateset_refused {i q v : Nat} {set : RateSet} {u : State} (hm : MovesRate set q v)
    (hc : (u.ctx i).converting = true) (hup : q < v) (hfit : u.available < u.reserved + (u.costOf i v - u.costOf i q)) :
    replaceRateset i set q u = ⟨.noCapacity, .nothing, u.countFor .admitRefused i⟩ := by
  rw [replaceRateset, if_neg (by simp [RateSet.has_eq, hm.left]), moveRateset, if_neg (by simp [hc]), hm.landing_eq,
    if_pos ⟨hup, (fits_eq_false_iff u _).2 hfit⟩]

/-- The set `set` takes the rate of the context from `q` to `v`, and the account has room for it (R58, R116). -/
def TakesRate (u : State) (i : Nat) (set : RateSet) (q v : Nat) : Prop :=
  set.getLsbD q = true ∧ v = q ∨ MovesRate set q v ∧
    ((u.ctx i).converting = false ∨ v < q ∨ u.reserved + (u.costOf i v - u.costOf i q) ≤ u.available)

theorem replaceRateset_granted {i q v : Nat} {set : RateSet} {u : State} (h : TakesRate u i set q v) :
    replaceRateset i set q u = ⟨.ok, ratesetReply i set q v u, (u.rerated i q v).narrow i set v⟩ := by
  obtain ⟨hq, rfl⟩ | ⟨hm, hroom⟩ := h
  · rw [replaceRateset, if_pos ((RateSet.has_eq set v).trans hq), rerated_same]
  rw [replaceRateset, if_neg (by simp [RateSet.has_eq, hm.left]), moveRateset, hm.landing_eq]
  cases hc : (u.ctx i).converting with
  | false => rw [if_pos rfl, rerated_free hm.ne hc]
  | true =>
    have hgrant : ¬ (q < v ∧ u.fits (u.costOf i v - u.costOf i q) = false) := by
      rw [fits_eq_false_iff]
      rcases hroom with h | h | h
      · exact absurd (hc.symm.trans h) (by decide)
      · omega
      · omega
    rw [if_neg (by simp), if_neg hgrant, rerated_paid hm.ne hc]

theorem TakesRate.member {u : State} {i q v : Nat} {set : RateSet} (h : TakesRate u i set q v) :
    set.getLsbD v = true := by
  obtain ⟨hq, rfl⟩ | ⟨hm, -⟩ := h
  · exact hq
  · exact hm.member

/-- SET_RATESET touches the record of its context alone. -/
theorem ctx_replaceRateset_other {i j : Nat} (hj : j ≠ i) (set : RateSet) (q : Nat) (u : State) :
    (replaceRateset i set q u).after.ctx j = u.ctx j := by
  unfold replaceRateset moveRateset
  split
  · exact (ctx_narrow ..).trans (if_neg hj)
  split
  · exact ((ctx_narrow ..).trans (if_neg hj)).trans ((ctx_retune ..).trans (if_neg hj))
  split
  · exact ctx_congr (countFor_ctxs ..) j
  · exact ((ctx_narrow ..).trans (if_neg hj)).trans ((ctx_retunePaid ..).trans (if_neg hj))

/-! ### The state after a set granted -/

/-- The record after a granted set: the rate moved from `q` to `v`, the set replaced. -/
theorem ctx_narrow_rerated {u : State} {i q : Nat} (hq : (u.ctx i).rate = some q) (set : RateSet) (v j : Nat) :
    ((u.rerated i q v).narrow i set v).ctx j =
      if j = i then ((u.ctx i).rerated q v).narrowed set v else u.ctx j := by
  rw [ctx_narrow, ctx_rerated hq, ctx_rerated hq, if_pos rfl]
  by_cases hj : j = i
  · rw [if_pos hj, if_pos hj]
  · rw [if_neg hj, if_neg hj, if_neg hj]

theorem rerated_attention (s : State) (i q v : Nat) : (s.rerated i q v).attention = s.attention := by
  unfold rerated
  split_ifs <;> simp

theorem queueOf_narrow_rerated {u : State} {i q : Nat} (hq : (u.ctx i).rate = some q) (set : RateSet) (v : Nat)
    (p : Port) : ((u.rerated i q v).narrow i set v).queueOf p =
      if ((u.ctx i).conds = 0 ∧ (((u.rerated i q v).narrow i set v).ctx i).conds ≠ 0) ∧ p = (u.ctx i).owner then
        u.queueOf p ++ [i] else u.queueOf p := by
  rw [queueOf_narrow, queueOf_congr (rerated_attention u i q v), ctx_rerated hq, if_pos rfl]
  rfl

theorem ratesetReply_none {u : State} {i : Nat} (h : (u.ctx i).request = none) (set : RateSet) (q v : Nat) :
    ratesetReply i set q v u = .ratesetReplaced ((u.ctx i).permitted.getD 0) set (some q) (some v) none none := by
  rw [ratesetReply, h]
  rfl

/-- What a granted set writes: records, units, the attention queues and the tallies. -/
theorem narrow_rerated_frame (u : State) (i : Nat) (set : RateSet) (q v : Nat) :
    (u.rerated i q v).narrow i set v = { u with
      ctxs := ((u.rerated i q v).narrow i set v).ctxs, reserved := (u.rerated i q v).reserved
      attention := ((u.rerated i q v).narrow i set v).attention
      tally0 := (u.rerated i q v).tally0, tally1 := (u.rerated i q v).tally1 } := by
  by_cases hv : v = q
  · subst hv
    rw [rerated_same]
    apply eq_of_fields <;> simp
  · rw [rerated_frame hv]
    apply eq_of_fields <;> simp

/-- Settles O28: the set is granted (`replaceRateset_granted`) or refused (`replaceRateset_refused`); the state after a
granted one is read off `rerated` and `narrow`. -/
theorem setRatesetMovesTheRate : Obligations.SetRatesetMovesTheRate := by
  refine ⟨?_, ?_⟩
  · intro p tag i0 i1 g set s u i n c q e e' landing hs hu ho hi hst hp hc hq hset hin he he' hreq
    subst hi
    have hgen := ho.gen_eq
    have hopen : (u.ctx (le16 i0 i1)).state ≠ .closed := by rcases hst with h | h <;> simp [h]
    have ht := (takeOrder_setRateset ho hset).trans (setRatesetOf_within hopen hp hc hq hin)
    generalize le16 i0 i1 = i at *
    have hconv := (converting_iff _).2 hst
    have hcost := costOf_eq hp hc he
    have hcost' := costOf_eq hp hc he'
    refine ⟨_, exec_eq_respond rfl (by decide) hs hu ht, fun j hj => ctx_replaceRateset_other hj set q u, fun hkeep => ?_,
      fun hl hm hnear hfit => ?_, fun hl hm hmin hfull => ?_⟩
    · rw [replaceRateset_granted (Or.inl ⟨hkeep, rfl⟩), rerated_same, narrow_none hreq, ratesetReply_none hreq]
      obtain ⟨hctx, -, hans, hframe⟩ := modCtx_respond u p OrderCode.setRateset.byte tag
        (.ratesetReplaced ((u.ctx i).permitted.getD 0) set (some q) (some q) none none) i
        fun x => { x with permitted := some set }
      exact ⟨hctx, hframe, hans⟩
    · have hmove : MovesRate set q landing := ⟨hl, hm, hnear⟩
      have hroom : landing < q ∨ u.reserved + (u.costOf i landing - u.costOf i q) ≤ u.available := by
        rw [hcost, hcost']
        exact (Nat.lt_or_gt_of_ne hmove.ne).imp_right hfit
      have hreq' : ((u.retunePaid i landing).ctx i).request = none := by
        rw [ctx_retunePaid, if_pos rfl]
        exact hreq
      rw [replaceRateset_granted (Or.inr ⟨hmove, Or.inr hroom⟩), ratesetReply_none hreq, rerated_paid hmove.ne hconv,
        narrow_none hreq']
      refine ⟨?_, answered_respond u p _ tag _ rfl, ?_⟩
      · rw [ctx_respond, ctx_modCtx, if_pos rfl, ctx_retunePaid, if_pos rfl]
      · rw [respond_frame, retunePaid_frame, hcost', currentCost_eq u i n q c e hp hq hc he, ← hgen]
        rfl
    · have hmove : MovesRate set q landing := ⟨hl, hm, Or.inr hmin⟩
      have hup : q < landing := lt_of_le_of_ne (hmin landing hm).1 (Ne.symm hmove.ne)
      rw [replaceRateset_refused hmove hconv hup (by rw [hcost, hcost']; exact hfull)]
      exact noCapacity_respond u p _ tag i g hgen
  · intro p tag i0 i1 g set s u i n c q e e' v hs hu ho hi hopen hp hc hq hset hin he he' hmove
    subst hi
    have hgen := ho.gen_eq
    have howner : (u.ctx (le16 i0 i1)).owner = p := ho.2
    have ht := (takeOrder_setRateset ho hset).trans (setRatesetOf_within hopen hp hc hq hin)
    generalize le16 i0 i1 = i at *
    have htakes : TakesRate u i set q v := by
      refine hmove.imp_right fun ⟨hl, hm, hnear, hroom⟩ => ⟨⟨hl, hm, hnear⟩, ?_⟩
      rwa [costOf_eq hp hc he, costOf_eq hp hc he']
    rw [replaceRateset_granted htakes] at ht
    have hctx := fun j => ctx_narrow_rerated hq set v j
    have hself := (hctx i).trans (if_pos rfl)
    have hqueue := fun r => queueOf_narrow_rerated hq set v r
    have hframe := narrow_rerated_frame u i set q v
    have hports := congrArg State.ports hframe
    refine ⟨_, exec_eq_respond rfl (by decide) hs hu ht, fun j hj => (hctx j).trans (if_neg hj), ?_, ?_, fun hnone => ?_,
      fun x hx => ?_, ?_, ?_, fun hv => ?_, fun hv => ?_, ?_, ?_⟩
    · rw [ctx_respond, hself]
      rfl
    · rw [respond_frame, hframe, ← currentCost_eq u i n q c e hp hq hc he, ← costOf_eq hp hc he']
      exact reserved_rerated u i q v
    · rw [ctx_respond, hself, Ctx.narrowed_none (c := (u.ctx i).rerated q v) hnone]
      exact ⟨hnone, rfl⟩
    · rw [ctx_respond, hself]
      exact Ctx.narrowed_decides (c := (u.ctx i).rerated q v) hx htakes.member
    · rw [queueOf_respond, ctx_respond, hqueue, howner]
      simp only [and_true]
    · rw [queueOf_respond, hqueue, howner, if_neg fun h => Port.other_ne p h.2]
    · subst hv
      rw [respond_frame, hframe, rerated_same]
      exact ⟨rfl, rfl⟩
    · rw [respond_frame, hframe, rerated_frame hv, ← hgen]
      exact ⟨rfl, rfl⟩
    · have hrequest : (((u.rerated i q v).narrow i set v).ctx i).request = keptRequest set v (u.ctx i).request := by
        rw [hself]
        rfl
      rw [ctx_respond, hrequest]
      exact answered_respond u p _ tag _ hports
    · rw [respond_frame, hframe]

end Sys2Proof.Machine
end

section
/-! SUPPORT. The settling of a pending request in a boundary claim (R109 to R112): what each of its outcomes leaves, and
the work that starts from it. -/

namespace Sys2Proof.Machine

open State

/-! ### Which request is settled, and how (R109 to R111) -/

/-- A CELL request within the rate hold waits (R109). -/
theorem settle_waits {u : State} {i r : Nat} (hr : (u.ctx i).request = some ⟨r, .cell⟩)
    (h : (u.ctx i).sinceRate < u.rateHold i) : u.settle i = u := by
  simp only [settle, hr, if_pos h]

/-- An ORDER request, and a CELL request past the rate hold, is settled (R109, R110). -/
theorem settle_due {u : State} {i r q : Nat} {src : RateSource} (hr : (u.ctx i).request = some ⟨r, src⟩)
    (hq : (u.ctx i).rate = some q) (h : src = .order ∨ u.rateHold i ≤ (u.ctx i).sinceRate) :
    u.settle i = u.settleRate i q r := by
  cases src with
  | order => simp only [settle, hr, hq, Option.getD_some]
  | cell =>
    have hwait : ¬ (u.ctx i).sinceRate < u.rateHold i := Nat.not_lt.mpr (h.resolve_left (by simp))
    simp only [settle, hr, hq, if_neg hwait, Option.getD_some]

theorem settleRate_current (u : State) (i q : Nat) : u.settleRate i q q = u.dropRequest i := if_pos rfl

theorem settleRate_lower {i q r : Nat} (u : State) (h : r < q) : u.settleRate i q r = u.applyRate i r := by
  rw [settleRate, if_neg h.ne, if_pos h]

theorem settleRate_affords {u : State} {i q r x : Nat} (h : q < r) (hx : u.affordable i q r = some x) :
    u.settleRate i q r = u.applyRate i x := by
  rw [settleRate, if_neg h.ne', if_neg h.not_gt, settleRaise, hx]

theorem settleRate_refuses {u : State} {i q r : Nat} (h : q < r) (hx : u.affordable i q r = none) :
    u.settleRate i q r = ((u.dropRequest i).raise i .rateRefused).countFor .admitRefused i := by
  rw [settleRate, if_neg h.ne', if_neg h.not_gt, settleRaise, hx]

/-! ### The candidates of a raise (R111) -/

theorem mem_raiseCandidates {permitted : Option RateSet} {q r x : Nat} : x ∈ raiseCandidates permitted q r ↔
    x = r ∨ q < x ∧ x < r ∧ ∃ set, permitted = some set ∧ set.getLsbD x = true := by
  unfold raiseCandidates
  cases permitted with
  | none => simp
  | some set => simp [RateSet.mem_indices]; tauto

/-- A raise asks for the highest index first. -/
theorem raiseCandidates_sorted (permitted : Option RateSet) (q r : Nat) :
    (raiseCandidates permitted q r).Pairwise (· > ·) := by
  unfold raiseCandidates
  cases permitted with
  | none => exact List.pairwise_singleton ..
  | some set =>
    refine List.pairwise_cons.mpr ⟨fun x hx => ?_, List.pairwise_reverse.mpr (set.indices_sorted.filter _)⟩
    simp only [List.mem_reverse, List.mem_filter, Bool.and_eq_true, decide_eq_true_eq] at hx
    obtain ⟨-, -, hlt⟩ := hx
    exact hlt

/-- In a falling list the first element with `p` is the one above which none has it. -/
theorem find?_of_highest {l : List Nat} {p : Nat → Bool} {x : Nat} (hs : l.Pairwise (· > ·)) (hx : x ∈ l)
    (hp : p x = true) (hhigh : ∀ y ∈ l, x < y → p y = false) : l.find? p = some x := by
  induction l with
  | nil => cases hx
  | cons a t ih =>
    obtain ⟨ha, ht⟩ := List.pairwise_cons.mp hs
    rcases List.mem_cons.mp hx with rfl | hxt
    · rw [List.find?_cons_of_pos hp]
    · rw [List.find?_cons_of_neg (by simp [hhigh a (List.mem_cons_self ..) (ha x hxt)])]
      exact ih ht hxt fun y hy => hhigh y (List.mem_cons_of_mem _ hy)

/-- The candidate that is applied: it fits, and no higher one does (R111). -/
theorem affordable_highest {u : State} {i q r x : Nat} (hx : x ∈ raiseCandidates (u.ctx i).permitted q r)
    (hfit : u.reserved + (u.costOf i x - u.costOf i q) ≤ u.available)
    (hhigh : ∀ y ∈ raiseCandidates (u.ctx i).permitted q r, x < y →
      u.available < u.reserved + (u.costOf i y - u.costOf i q)) : u.affordable i q r = some x :=
  find?_of_highest (raiseCandidates_sorted ..) hx ((fits_iff u _).2 hfit) fun y hy hxy =>
    (fits_eq_false_iff u _).2 (hhigh y hy hxy)

theorem affordable_none {u : State} {i q r : Nat} (h : ∀ y ∈ raiseCandidates (u.ctx i).permitted q r,
    u.available < u.reserved + (u.costOf i y - u.costOf i q)) : u.affordable i q r = none :=
  List.find?_eq_none.mpr fun y hy => by simp [(fits_eq_false_iff u _).2 (h y hy)]

/-! ### The states a work can start in -/

/-- Of the claim of context `i` taken in `s`, state `v` is one in which its work can start: its record is `d`, `units` are
reserved, `events` are counted, and no other record and no profile has changed. -/
structure StartsFrom (s v : State) (i : Nat) (d : Ctx) (units : Nat) (events : List Event) : Prop where
  record : v.ctx i = d
  only : OnlyCtx s v i
  reserved : v.reserved = units
  tallied : Tallied s v i events
  profiles : v.profiles = s.profiles

namespace StartsFrom

variable {s v : State} {i : Nat} {d : Ctx} {units : Nat} {events : List Event}

/-- Costs are read off the profile of the record. -/
theorem costOf_eq (h : StartsFrom s v i d units events) (hd : d.profile = (s.ctx i).profile) (r : Nat) :
    v.costOf i r = s.costOf i r := costOf_congr h.profiles i r (by rw [h.record, hd])

theorem currentCost_eq (h : StartsFrom s v i d units events) (hd : d.profile = (s.ctx i).profile) {q : Nat}
    (hq : d.rate = some q) : v.currentCost i = s.costOf i q := by
  rw [← h.costOf_eq hd q, currentCost, h.record, hq]

theorem rateHold_eq (h : StartsFrom s v i d units events) (hd : d.profile = (s.ctx i).profile) {n : Nat} {c : Profile}
    (hp : (s.ctx i).profile = some n) (hc : s.contents n = some c) : v.rateHold i = c.hold := by
  have hc' : v.contents n = some c := by
    unfold contents at hc ⊢
    rw [profile_congr h.profiles]
    exact hc
  have hp' : (v.ctx i).profile = some n := by rw [h.record, hd, hp]
  simp [rateHold, profileOf, hp', hc']

/-- The request ends at the current rate (R110). -/
theorem dropRequest (h : StartsFrom s v i d units events) :
    StartsFrom s (v.dropRequest i) i { d with request := none } units events where
  record := by rw [State.dropRequest, ctx_modCtx, if_pos rfl, h.record]
  only j hj := by rw [State.dropRequest, ctx_modCtx, if_neg hj, h.only j hj]
  reserved := h.reserved
  tallied := (h.tallied.trans (tallied_modCtx v i (fun c => { c with request := none }) rfl)).to (List.append_nil _)
  profiles := h.profiles

/-- A rate is applied (R112). -/
theorem applyRate (h : StartsFrom s v i d units events) (r : Nat) :
    StartsFrom s (v.applyRate i r) i
      { d with rate := some r, sinceRate := 0, request := none, conds := d.conds ||| 0x08#12 }
      (units + v.costOf i r - v.currentCost i) (events ++ [.rateChange]) where
  record := by rw [ctx_applyRate, if_pos rfl, h.record, add_rateChanged]
  only j hj := by rw [ctx_applyRate, if_neg hj, h.only j hj]
  reserved := by rw [← h.reserved]; simp [State.applyRate, reserved_retunePaid]
  tallied := h.tallied.trans (tallied_applyRate v i r)
  profiles := (applyRate_profiles ..).trans h.profiles

/-- A raise is refused (R111). -/
theorem refuseRaise (h : StartsFrom s v i d units events) :
    StartsFrom s (((v.dropRequest i).raise i .rateRefused).countFor .admitRefused i) i
      { d with request := none, conds := d.conds ||| 0x10#12 } units (events ++ [.admitRefused]) where
  record := by
    rw [ctx_congr (countFor_ctxs ..), ctx_raise, if_pos rfl, h.dropRequest.record, add_rateRefused]
  only j hj := by rw [ctx_congr (countFor_ctxs ..), ctx_raise, if_neg hj, h.dropRequest.only j hj]
  reserved := by rw [← h.reserved]; simp
  tallied := h.tallied.trans (tallied_refuseRaise v i)
  profiles := by rw [← h.profiles]; simp

end StartsFrom

theorem startsFrom_beforeSettling {s : State} {i : Nat} (hq : (s.ctx i).Quiet) (hh : (s.ctx i).handover = none) :
    StartsFrom s (s.beforeSettling i) i (s.ctx i).atWorkStart s.reserved [] where
  record := (ctx_beforeSettling_quiet hq i).trans (if_pos rfl)
  only j hj := (ctx_beforeSettling_quiet hq j).trans (if_neg hj)
  reserved := by rw [beforeSettling_frame hq (Ctx.handoverEnds_none hh)]
  tallied := (tallied_beforeSettling_quiet hq).to (by rw [Ctx.handoverEnds_none hh]; rfl)
  profiles := by rw [beforeSettling_frame hq (Ctx.handoverEnds_none hh)]

/-- A settling ends the request, applies a rate or refuses a raise (R110 to R112). -/
theorem settleRate_cases (v : State) (i q r : Nat) : v.settleRate i q r = v.dropRequest i ∨
    (∃ x, v.settleRate i q r = v.applyRate i x) ∨
      v.settleRate i q r = ((v.dropRequest i).raise i .rateRefused).countFor .admitRefused i := by
  rcases Nat.lt_trichotomy r q with h | rfl | h
  · exact Or.inr (Or.inl ⟨r, settleRate_lower v h⟩)
  · exact Or.inl (settleRate_current v i r)
  · cases hx : v.affordable i q r with
    | some x => exact Or.inr (Or.inl ⟨x, settleRate_affords h hx⟩)
    | none => exact Or.inr (Or.inr (settleRate_refuses h hx))

/-- Once settled, a request is pending no more, and no other record has changed. -/
theorem StartsFrom.settled {s v : State} {i : Nat} {d : Ctx} {units : Nat} {events : List Event}
    (h : StartsFrom s v i d units events) (q r : Nat) :
    ((v.settleRate i q r).ctx i).request = none ∧ OnlyCtx s (v.settleRate i q r) i := by
  obtain he | ⟨x, he⟩ | he := settleRate_cases v i q r
  · rw [he]
    exact ⟨by rw [h.dropRequest.record], h.dropRequest.only⟩
  · rw [he]
    exact ⟨by rw [(h.applyRate x).record], (h.applyRate x).only⟩
  · rw [he]
    exact ⟨by rw [h.refuseRaise.record], h.refuseRaise.only⟩

/-! ### The work that starts (R85) -/

/-- The claim of context `i` once its request is settled: the work starts, and the claim is marked taken. -/
def State.startedClaim (v : State) (i : Nat) : State := (v.startWork i).markClaimed i

/-- The work that starts in `v` at context `i`. -/
def State.startedWork (v : State) (i : Nat) : Work := v.newWork i (v.ctx i).uplinkStart.1

theorem ctx_startedClaim_other (v : State) {i j : Nat} (hj : j ≠ i) : (v.startedClaim i).ctx j = v.ctx j := by
  rw [startedClaim, ctx_congr (markClaimed_ctxs ..), ctx_startWork, if_neg hj]

theorem reserved_startedClaim (v : State) (i : Nat) : (v.startedClaim i).reserved = v.reserved := by
  simp [startedClaim]

theorem startedAs_startedClaim (v : State) (i : Nat) :
    (v.ctx i).StartedAs ((v.startedClaim i).ctx i) (v.startedWork i) := by
  rw [startedClaim, ctx_congr (markClaimed_ctxs ..), ctx_startWork_keeps]
  exact ⟨_, _, _, _, _, _, rfl⟩

theorem tallied_startedClaim (v : State) (i : Nat) : Tallied v (v.startedClaim i) i
    (if (v.startedWork i).uplink = .conceal then [Event.conceal] else []) := by
  have hmark : Tallied (v.startWork i) (v.startedClaim i) i [] :=
    .same (markClaimed_tally0 ..) (markClaimed_tally1 ..) (by rw [startedClaim, ctx_congr (markClaimed_ctxs ..)])
  exact ((tallied_startWork v i).trans hmark).to (List.append_nil _)

theorem StartsFrom.length {s v : State} {i : Nat} {d : Ctx} {units : Nat} {events : List Event}
    (h : StartsFrom s v i d units events) (hd : d.profile = (s.ctx i).profile) {r : Nat} (hr : d.rate = some r) :
    (v.startedWork i).length = s.lengthOf i r := by
  obtain ⟨hentry, -⟩ := rateEntry_congr (s := s) (t := v) (i := i) (by rw [h.record, hd]) h.profiles r
  show v.lengthOf i ((v.ctx i).rate.getD 0) = s.lengthOf i r
  rw [h.record, hr, Option.getD_some, lengthOf, lengthOf, hentry]

/-- What a claim leaves whose work started at rate `r`, in the state `d` and `units` describe. -/
theorem StartsFrom.started {s v : State} {i : Nat} {d : Ctx} {units : Nat} {events : List Event}
    (h : StartsFrom s v i d units events) {r : Nat} (hr : d.rate = some r) :
    ((v.startedClaim i).ctx i).rate = some r ∧ (v.startedWork i).rate = r ∧
      ((v.startedClaim i).ctx i).request = d.request ∧ ((v.startedClaim i).ctx i).sinceRate = d.sinceRate ∧
      ((v.startedClaim i).ctx i).conds = d.conds ∧ (v.startedClaim i).reserved = units ∧
      Counted s (v.startedClaim i) i (events ++ if (v.startedWork i).uplink = .conceal then [.conceal] else []) := by
  obtain ⟨_, _, _, _, _, _, hc⟩ := startedAs_startedClaim v i
  rw [h.record] at hc
  have hrate : (v.startedWork i).rate = r := by
    show (v.ctx i).rate.getD 0 = r
    rw [h.record, hr, Option.getD_some]
  exact ⟨by rw [hc, hr], hrate, by rw [hc], by rw [hc], by rw [hc], by rw [reserved_startedClaim, h.reserved],
    (h.tallied.trans (tallied_startedClaim v i)).counted⟩

/-! ### The claim -/

theorem Ctx.Quiet.goesOn {c : Ctx} (h : c.Quiet) : c.GoesOn :=
  h.imp_right fun ⟨ha, hl⟩ => ⟨ha, (quiet_silence c hl).2⟩

/-- A quiet claim without a handover settles the request, then its work starts (R84, R110). -/
theorem exec_boundaryClaim_settles {i : Fin 2048} {s : State} (hp : s.pinHeld = false) (hd : s.claimDue i.val = true)
    (hh : (s.ctx i.val).handover = none) (hq : (s.ctx i.val).Quiet) : exec (.boundaryClaim i) s =
      .next (((s.beforeSettling i.val).settle i.val).startedClaim i.val) := by
  show runs s (s.boundaryClaim i.val) = _
  unfold runs
  rw [hp, boundaryClaim_eq s i.val hd, claimBody_goesOn s i.val hh hq.goesOn, startedClaim]
  exact if_neg Bool.false_ne_true

/-- Context `i` comes to a quiet claim with request `⟨r, src⟩` pending, no handover, and rate `q` of entry `e` in
profile `c` of slot `n`. -/
structure ComesToSettle (s : State) (i r : Nat) (src : RateSource) (q n : Nat) (c : Profile) (e : RateEntry) : Prop where
  quiet : (s.ctx i).Quiet
  handover : (s.ctx i).handover = none
  request : (s.ctx i).request = some ⟨r, src⟩
  rate : (s.ctx i).rate = some q
  profile : (s.ctx i).profile = some n
  contents : s.contents n = some c
  entry : c.table[q]? = some e

namespace ComesToSettle

variable {s : State} {i r q n : Nat} {src : RateSource} {c : Profile} {e : RateEntry}

theorem before (h : ComesToSettle s i r src q n c e) :
    StartsFrom s (s.beforeSettling i) i (s.ctx i).atWorkStart s.reserved [] :=
  startsFrom_beforeSettling h.quiet h.handover

theorem request_before (h : ComesToSettle s i r src q n c e) :
    ((s.beforeSettling i).ctx i).request = some ⟨r, src⟩ := by
  rw [h.before.record]
  exact h.request

theorem sinceRate_before (h : ComesToSettle s i r src q n c e) :
    ((s.beforeSettling i).ctx i).sinceRate = min 65535 ((s.ctx i).sinceRate + 1) := by
  rw [h.before.record, Ctx.atWorkStart_sinceRate]

theorem conds_atWorkStart (h : ComesToSettle s i r src q n c e) : (s.ctx i).atWorkStart.conds = (s.ctx i).conds := by
  rw [Ctx.atWorkStart_conds, Ctx.handoverStepped_none h.handover]

/-! What the settling does, read from the state before the claim. -/

theorem settle_waits (h : ComesToSettle s i r .cell q n c e) (hwait : min 65535 ((s.ctx i).sinceRate + 1) < c.hold) :
    (s.beforeSettling i).settle i = s.beforeSettling i := by
  refine Machine.settle_waits h.request_before ?_
  rwa [h.before.rateHold_eq rfl h.profile h.contents, h.sinceRate_before]

theorem settle_due (h : ComesToSettle s i r src q n c e)
    (hdue : src = .order ∨ c.hold ≤ min 65535 ((s.ctx i).sinceRate + 1)) :
    (s.beforeSettling i).settle i = (s.beforeSettling i).settleRate i q r := by
  have hrate : ((s.beforeSettling i).ctx i).rate = some q := by
    rw [h.before.record]
    exact h.rate
  refine Machine.settle_due h.request_before hrate ?_
  rwa [h.before.rateHold_eq rfl h.profile h.contents, h.sinceRate_before]

/-- Whether a raise to `x` fits is the same before the claim and at its settling. -/
theorem headroom_before (h : ComesToSettle s i r src q n c e) (x : Nat) :
    (s.beforeSettling i).reserved + ((s.beforeSettling i).costOf i x - (s.beforeSettling i).costOf i q) =
      s.reserved + (s.costOf i x - e.cost) ∧ (s.beforeSettling i).available = s.available := by
  rw [h.before.reserved, h.before.costOf_eq rfl, h.before.costOf_eq rfl, costOf_eq h.profile h.contents h.entry]
  exact ⟨rfl, by rw [beforeSettling_frame h.quiet (Ctx.handoverEnds_none h.handover)]⟩

theorem mem_candidates_before (h : ComesToSettle s i r src q n c e) {x : Nat} :
    x ∈ raiseCandidates ((s.beforeSettling i).ctx i).permitted q r ↔
      x = r ∨ q < x ∧ x < r ∧ ∃ set, (s.ctx i).permitted = some set ∧ set.getLsbD x = true := by
  rw [mem_raiseCandidates, h.before.record]
  rfl

theorem affordable_highest (h : ComesToSettle s i r src q n c e) {x : Nat} {ex : RateEntry}
    (hex : c.table[x]? = some ex)
    (hx : x = r ∨ q < x ∧ x < r ∧ ∃ set, (s.ctx i).permitted = some set ∧ set.getLsbD x = true)
    (hfit : s.reserved + (ex.cost - e.cost) ≤ s.available)
    (hhigh : ∀ y, (y = r ∨ q < y ∧ y < r ∧ ∃ set, (s.ctx i).permitted = some set ∧ set.getLsbD y = true) → x < y →
      s.available < s.reserved + (s.costOf i y - e.cost)) : (s.beforeSettling i).affordable i q r = some x := by
  refine Machine.affordable_highest (h.mem_candidates_before.mpr hx) ?_ fun y hy hxy => ?_
  · obtain ⟨hunits, hroom⟩ := h.headroom_before x
    rw [hunits, hroom, costOf_eq h.profile h.contents hex]
    exact hfit
  · obtain ⟨hunits, hroom⟩ := h.headroom_before y
    rw [hunits, hroom]
    exact hhigh y (h.mem_candidates_before.mp hy) hxy

theorem affordable_none (h : ComesToSettle s i r src q n c e)
    (hfull : ∀ x, (x = r ∨ q < x ∧ x < r ∧ ∃ set, (s.ctx i).permitted = some set ∧ set.getLsbD x = true) →
      s.available < s.reserved + (s.costOf i x - e.cost)) : (s.beforeSettling i).affordable i q r = none := by
  refine Machine.affordable_none fun y hy => ?_
  obtain ⟨hunits, hroom⟩ := h.headroom_before y
  rw [hunits, hroom]
  exact hfull y (h.mem_candidates_before.mp hy)

/-! What the claim leaves. -/

/-- No record but the context's own changes in the claim. -/
theorem only_startedClaim (h : ComesToSettle s i r src q n c e) :
    OnlyCtx s (((s.beforeSettling i).settle i).startedClaim i) i := by
  intro j hj
  rw [ctx_startedClaim_other _ hj]
  by_cases hdue : src = .order ∨ c.hold ≤ min 65535 ((s.ctx i).sinceRate + 1)
  · rw [h.settle_due hdue]
    exact (h.before.settled q r).2 j hj
  · obtain ⟨hsrc, hwait⟩ := not_or.mp hdue
    cases src with
    | order => exact absurd rfl hsrc
    | cell =>
      rw [h.settle_waits (Nat.lt_of_not_le hwait)]
      exact h.before.only j hj

/-- The rate `x` applied: the work encodes it, the account changes by the costs' difference, and RATE_CHANGE is counted
before the work's concealment (R112, R181). -/
theorem applied (h : ComesToSettle s i r src q n c e) {x : Nat} {ex : RateEntry} (hex : c.table[x]? = some ex)
    {v : State} (hv : v = (s.beforeSettling i).applyRate i x) :
    ((v.startedClaim i).ctx i).rate = some x ∧ (v.startedWork i).rate = x ∧ (v.startedWork i).length = ex.bytes ∧
      ((v.startedClaim i).ctx i).sinceRate = 0 ∧ (v.startedClaim i).reserved = s.reserved + ex.cost - e.cost ∧
      ((v.startedClaim i).ctx i).conds = (s.ctx i).conds ||| 0x08#12 ∧
      Counted s (v.startedClaim i) i
        (.rateChange :: if (v.startedWork i).uplink = .conceal then [.conceal] else []) := by
  subst hv
  have hstart := h.before.applyRate x
  obtain ⟨hrate, hwork, -, hsince, hconds, hunits, hcount⟩ := hstart.started rfl
  have hlength := (hstart.length rfl rfl).trans (lengthOf_eq h.profile h.contents hex).1
  rw [h.before.costOf_eq rfl, h.before.currentCost_eq rfl h.rate, costOf_eq h.profile h.contents hex,
    costOf_eq h.profile h.contents h.entry] at hunits
  rw [h.conds_atWorkStart] at hconds
  rw [List.nil_append, List.singleton_append] at hcount
  exact ⟨hrate, hwork, hlength, hsince, hunits, hconds, hcount⟩

end ComesToSettle

/-- Settles O40: the request waits (`settle_waits`), or is settled (`settle_due`): at the current rate, by a rate applied
(`ComesToSettle.applied`), by a refusal. -/
theorem rateSettledBeforeTheWorkStarts : Obligations.RateSettledBeforeTheWorkStarts := by
  intro i s r q src n c e e' hpin hclaim hh hquiet hreq hq hp hc he he'
  have hexec := exec_boundaryClaim_settles hpin hclaim hh hquiet
  generalize i.val = i at *
  have h : ComesToSettle s i r src q n c e := ⟨hquiet, hh, hreq, hq, hp, hc, he⟩
  have hstarted := startedAs_startedClaim ((s.beforeSettling i).settle i) i
  refine ⟨_, ((s.beforeSettling i).settle i).startedWork i, _, hexec, ?_, h.only_startedClaim, rfl,
    fun hcell hwait => ?_, fun hdue => ⟨?_, fun hcur => ?_, fun hfit => ?_,
      fun x ex set hset hx hqx hxr hex hfit hfull => ?_, fun hqr hfull => ?_⟩⟩
  · obtain ⟨_, _, _, _, _, _, hrecord⟩ := hstarted
    rw [hrecord]
  · subst hcell
    rw [h.settle_waits hwait]
    obtain ⟨hrate, hwork, hrequest, -, -, hunits, hcount⟩ := h.before.started (r := q) hq
    rw [List.nil_append] at hcount
    exact ⟨hrequest.trans hreq, hrate, hwork, hunits, hcount⟩
  · obtain ⟨_, _, _, _, _, _, hrecord⟩ := hstarted
    rw [hrecord, h.settle_due hdue]
    exact (h.before.settled q r).1
  · rw [h.settle_due hdue, hcur, settleRate_current]
    obtain ⟨hrate, hwork, -, -, hconds, hunits, hcount⟩ := h.before.dropRequest.started (r := q) hq
    rw [List.nil_append] at hcount
    exact ⟨hrate, hwork, hunits, hconds.trans h.conds_atWorkStart, hcount⟩
  · refine h.applied he' ((h.settle_due hdue).trans ?_)
    rcases hfit with hlow | ⟨hup, hfit⟩
    · exact settleRate_lower _ hlow
    · refine settleRate_affords hup (h.affordable_highest he' (Or.inl rfl) hfit fun y hy hry => ?_)
      omega
  · refine h.applied hex ((h.settle_due hdue).trans (settleRate_affords (hqx.trans hxr) ?_))
    refine h.affordable_highest hex (Or.inr ⟨hqx, hxr, set, hset, hx⟩) hfit fun y hy hxy => hfull y ?_
    refine hy.imp_right fun ⟨_, hyr, set', hset', hy⟩ => ⟨?_, hxy, hyr⟩
    obtain rfl := Option.some.inj (hset.symm.trans hset')
    exact hy
  · rw [h.settle_due hdue, settleRate_refuses hqr (h.affordable_none hfull)]
    obtain ⟨hrate, hwork, -, -, hconds, hunits, hcount⟩ := h.before.refuseRaise.started (r := q) hq
    rw [h.conds_atWorkStart] at hconds
    rw [List.nil_append, List.singleton_append] at hcount
    exact ⟨hrate, hwork, hunits, hconds, hcount⟩

end Sys2Proof.Machine
end

section
/-! SUPPORT. The handover orders (R123, R124, R126, R129, R132), each from the state in which it is taken, and the commit
by a cell on the new key (R127). -/

namespace Sys2Proof.Machine

open State

/-! ### A key found in a canonical stream map (R30) -/

namespace State

/-- A lookup reads the first entry, else the rest of the map. -/
theorem findStream_cons (s : State) (i : Nat) (x : StreamEntry) (t : Tab (Option StreamEntry)) (k : StreamKey) :
    { s with streamMap := (i, some x) :: t }.findStream k =
      if x.key = k then some (i, x) else { s with streamMap := t }.findStream k := by
  unfold findStream
  rw [List.findSome?_cons]
  by_cases hk : x.key = k <;> simp only [hk, if_true, if_false]

/-- In a canonical map a lookup finds the lowest-numbered entry that holds the key. -/
theorem findStream_iff_get (s : State) (k : StreamKey) (n : Nat) (e : StreamEntry) (t : Tab (Option StreamEntry))
    (hw : t.wf streamDefault = true) : { s with streamMap := t }.findStream k = some (n, e) ↔
      Tab.get streamDefault t n = some e ∧ e.key = k ∧
        ∀ j, j < n → ∀ x, Tab.get streamDefault t j = some x → x.key ≠ k := by
  induction t with
  | nil => simp [findStream, Tab.get, streamDefault]
  | cons y t ih =>
    obtain ⟨i, v⟩ := y
    simp only [Tab.wf, Bool.and_eq_true, decide_eq_true_eq, List.all_eq_true] at hw
    obtain ⟨⟨hv, hi⟩, hw⟩ := hw
    have hlow : ∀ j, j ≤ i → Tab.get streamDefault t j = none := fun j hj =>
      Tab.get_of_not_mem _ _ _ fun hm => absurd (hi j hm) (Nat.not_lt.2 hj)
    obtain ⟨x, rfl⟩ := Option.ne_none_iff_exists'.1 hv
    rw [findStream_cons]
    by_cases hk : x.key = k
    · rw [if_pos hk, Option.some.injEq, Prod.mk.injEq]
      constructor
      · rintro ⟨rfl, rfl⟩
        refine ⟨if_pos rfl, hk, fun j hj z hz => ?_⟩
        rw [Tab.get, if_neg hj.ne, hlow j hj.le] at hz
        cases hz
      · rintro ⟨hn, -, hleast⟩
        obtain hlt | rfl | hgt := Nat.lt_trichotomy n i
        · rw [Tab.get, if_neg hlt.ne, hlow n hlt.le] at hn
          cases hn
        · rw [Tab.get, if_pos rfl] at hn
          exact ⟨rfl, Option.some.inj hn⟩
        · exact absurd hk (hleast i hgt x (if_pos rfl))
    · have hget : ∀ j z, z.key = k → (Tab.get streamDefault ((i, some x) :: t) j = some z ↔
          Tab.get streamDefault t j = some z) := fun j z hz => by
        rw [Tab.get]
        split
        · next hj =>
          rw [hlow j hj.le]
          exact ⟨fun h => absurd (Option.some.inj h ▸ hz) hk, nofun⟩
        · exact Iff.rfl
      rw [if_neg hk, ih hw]
      constructor
      · rintro ⟨hn, he, hleast⟩
        exact ⟨(hget n e he).2 hn, he, fun j hj z hz hzk => hleast j hj z ((hget j z hzk).1 hz) hzk⟩
      · rintro ⟨hn, he, hleast⟩
        exact ⟨(hget n e he).1 hn, he, fun j hj z hz hzk => hleast j hj z ((hget j z hzk).2 hz) hzk⟩

theorem wf_streamMap {s : State} (h : s.canonical = true) : s.streamMap.wf streamDefault = true := by
  obtain ⟨-, -, hw, -⟩ := (canonical_iff s).1 h
  exact hw

theorem findStream_eq_some_iff {s : State} (h : s.canonical = true) (k : StreamKey) (n : Nat) (e : StreamEntry) :
    s.findStream k = some (n, e) ↔ s.streamEntry n = some e ∧ e.key = k ∧
      ∀ j, j < n → ∀ x, s.streamEntry j = some x → x.key ≠ k :=
  findStream_iff_get s k n e s.streamMap (wf_streamMap h)

theorem findStream_congr {s t : State} (h : s.streamMap = t.streamMap) (k : StreamKey) :
    s.findStream k = t.findStream k := by
  unfold findStream
  rw [h]

theorem canonical_removeStream? (s : State) (k : Option StreamKey) (h : s.canonical = true) :
    (s.removeStream? k).canonical = true := by
  cases k with
  | none => exact h
  | some k =>
    show (s.removeStream k).canonical = true
    unfold removeStream
    split
    · exact canonical_setStreamEntry s _ _ h
    · exact h

/-- A key whose entry is not the one emptied is found where it was. -/
theorem findStream_removeStream? {s : State} (hc : s.canonical = true) {k : StreamKey} {n : Nat} {e : StreamEntry}
    (hf : s.findStream k = some (n, e)) {k' : Option StreamKey}
    (hne : (k'.bind fun k => (s.findStream k).map Prod.fst) ≠ some n) :
    (s.removeStream? k').findStream k = some (n, e) := by
  cases k' with
  | none => exact hf
  | some k' =>
    refine (findStream_removeStream s k k' n e hf).resolve_left fun hnone => ?_
    have hkept : (s.removeStream k').streamEntry n = s.streamEntry n :=
      (streamEntry_removeStream s k' n).trans (if_neg hne)
    rw [hkept, streamEntry_of_findStream s k n e (wf_streamMap hc) hf] at hnone
    cases hnone

/-- The entry that `promote` changes is still the one its key finds (R126). -/
theorem findStream_promote {s : State} (hc : s.canonical = true) {k : StreamKey} {n : Nat} {e : StreamEntry}
    (hf : s.findStream k = some (n, e)) :
    (s.promote k).findStream k = some (n, { e with role := .primary }) := by
  obtain ⟨-, hk, hleast⟩ := (findStream_eq_some_iff hc k n e).1 hf
  have hp : s.promote k = s.setStreamEntry n (some { e with role := .primary }) := by
    unfold promote
    rw [hf]
  rw [hp, findStream_eq_some_iff (canonical_setStreamEntry s n _ hc)]
  refine ⟨by rw [streamEntry_setStreamEntry, if_pos rfl], hk, fun j hj x hx => ?_⟩
  rw [streamEntry_setStreamEntry, if_neg hj.ne] at hx
  exact hleast j hj x hx

/-! ### The commit of a handover (R126) -/

theorem streamMap_commit (s : State) (i : Nat) (k : StreamKey) :
    (s.commit i k).streamMap = ((s.removeStream? (s.ctx i).primary).promote k).streamMap := by simp [commit]

/-- A commit counts HANDOVER_COMMIT once (R126). -/
theorem tallied_commit (s : State) (i : Nat) (k : StreamKey) : Tallied s (s.commit i k) i [.handoverCommit] := by
  have hkey : Tallied s ((s.removeStream? (s.ctx i).primary).promote k) i [] :=
    .same (by simp) (by simp) (by rw [ctx_congr (promote_ctxs ..), ctx_congr (removeStreamOpt_ctxs ..)])
  exact ((hkey.trans (tallied_modCtx _ i _ rfl)).trans (tallied_raise _ i i .handoverDone)).trans
    (tallied_countFor _ .handoverCommit i)

theorem queueOf_commit (s : State) (i : Nat) (k : StreamKey) (q : Port) : (s.commit i k).queueOf q =
    if (s.ctx i).owner = q ∧ (s.ctx i).conds = 0 then s.queueOf q ++ [i] else s.queueOf q := by
  have hc : ((s.removeStream? (s.ctx i).primary).promote k).ctx i = s.ctx i :=
    ctx_congr ((promote_ctxs ..).trans (removeStreamOpt_ctxs ..)) i
  unfold commit
  rw [queueOf_congr (countFor_attention ..), queueOf_raise, ctx_modCtx, if_pos rfl, hc, modCtx_queueOf,
    queueOf_congr (t := s) (by simp)]
  simp only [and_comm, eq_comm]

end State

theorem add_handoverDone (x : CondSet) : x.add .handoverDone = x ||| 0x20#12 := congrArg (x ||| ·) (by decide)

/-- From `s` to `v` the handover of context `i` to key `k` committed: entry `n`, which held `e`, is primary (R126). -/
structure HandoverCommitted (s v : State) (i : Nat) (k : StreamKey) (n : Nat) (e : StreamEntry) : Prop where
  record : v.ctx i = { s.ctx i with primary := some k, handover := none, conds := (s.ctx i).conds ||| 0x20#12 }
  only : OnlyCtx s v i
  streams : ∀ j, v.streamEntry j = if j = n then some { e with role := .primary }
    else if s.vacatedEntry i = some j then none else s.streamEntry j
  queues : ∀ q, v.queueOf q = if (s.ctx i).owner = q ∧ (s.ctx i).conds = 0 then s.queueOf q ++ [i] else s.queueOf q
  frame : v = { s with
    ctxs := v.ctxs, streamMap := v.streamMap, attention := v.attention,
    tally0 := s.tally0.step .handoverCommit (some ⟨i, (s.ctx i).gen⟩),
    tally1 := s.tally1.step .handoverCommit (some ⟨i, (s.ctx i).gen⟩) }

section

variable {s : State} {i n : Nat} {k : StreamKey} {e : StreamEntry}

/-- The new key is still found once the old one is removed, in an entry of its own. -/
theorem handoverCommitted_commit (hc : s.canonical = true) (hf : s.findStream k = some (n, e))
    (hv : s.vacatedEntry i ≠ some n) : HandoverCommitted s (s.commit i k) i k n e where
  record := by rw [ctx_commit, if_pos rfl, add_handoverDone]
  only j hj := by rw [ctx_commit, if_neg hj]
  streams j := by
    rw [streamEntry_congr (streamMap_commit s i k), streamEntry_promote _ k n e (findStream_removeStream? hc hf hv),
      streamEntry_removePrimary]
  queues := queueOf_commit s i k
  frame := by
    obtain ⟨ht0, ht1⟩ := (tallied_commit s i k).counted
    apply eq_of_fields <;> simp [ht0, ht1]

/-- The committed key finds its own entry, now of role PRIMARY (R126). -/
theorem findStream_commit (hc : s.canonical = true) (hf : s.findStream k = some (n, e))
    (hv : s.vacatedEntry i ≠ some n) :
    (s.commit i k).findStream k = some (n, { e with role := .primary }) := by
  rw [findStream_congr (streamMap_commit s i k)]
  exact findStream_promote (canonical_removeStream? s _ hc) (findStream_removeStream? hc hf hv)

/-- A primary key other than `k` is in another entry than `k`. -/
theorem vacatedEntry_ne (hc : s.canonical = true) (hf : s.findStream k = some (n, e))
    (hp : (s.ctx i).primary ≠ some k) : s.vacatedEntry i ≠ some n := by
  intro hvac
  obtain ⟨old, hold, hvac⟩ := Option.bind_eq_some_iff.1 hvac
  obtain ⟨⟨m, e'⟩, hf', rfl⟩ := Option.map_eq_some_iff.1 hvac
  obtain ⟨hn, hk, -⟩ := (findStream_eq_some_iff hc k _ e).1 hf
  obtain ⟨hn', hk', -⟩ := (findStream_eq_some_iff hc old _ e').1 hf'
  have he : e = e' := Option.some.inj (hn.symm.trans hn')
  exact hp (by rw [hold, ← hk', ← he, hk])

end

/-! ### HANDOVER_PREPARE (R123, R124) -/

theorem flagOf_le_one {b : Byte} (h : b.toNat ≤ 1) : flagOf b = some (decide (b = 1)) := by
  have hb : b = 0 ∨ b = 1 := by bv_omega
  rcases hb with rfl | rfl <;> rfl

/-- The record a HANDOVER_PREPARE body spells (R123). -/
theorem handoverOf_eq {l t0 t1 t2 b d0 d1 : Byte} (hl : l.toNat ≤ 3) (ht : 1 ≤ le24 t0 t1 t2)
    (ht' : le24 t0 t1 t2 ≤ 1048575) (hb : b.toNat ≤ 1) (hd : 1 ≤ le16 d0 d1) (hd' : le16 d0 d1 ≤ 500) :
    handoverOf l t0 t1 t2 b d0 d1 = some ⟨⟨l.toNat, le24 t0 t1 t2⟩, decide (b = 1), le16 d0 d1⟩ := by
  have hk : keyOf l t0 t1 t2 = some ⟨l.toNat, le24 t0 t1 t2⟩ := if_pos ⟨hl, ht, ht'⟩
  unfold handoverOf
  rw [hk, flagOf_le_one hb]
  exact if_pos ⟨hd, hd'⟩

theorem takeOrder_handoverPrepare {p : Port} {i0 i1 g l t0 t1 t2 b d0 d1 : Byte} {u : State} {h : Handover}
    (ho : Owned u p i0 i1 g) (hh : handoverOf l t0 t1 t2 b d0 d1 = some h) :
    takeOrder p .handoverPrepare [i0, i1, g, l, t0, t1, t2, b, d0, d1] u = prepareHandover (le16 i0 i1) h u := by
  refine (ownerChecked_fields p i0 i1 g _ (by rw [hh]; rfl) u (fun i =>
    prepareHandover i ((handoverOf l t0 t1 t2 b d0 d1).getD ⟨⟨0, 0⟩, false, 0⟩) u) ho).trans ?_
  rw [hh]
  rfl

theorem prepareHandover_new {i : Nat} {h : Handover} {u : State} (ho : (u.ctx i).state ≠ .opened)
    (hc : (u.ctx i).state ≠ .closed) (hh : (u.ctx i).handover = none) (hp : (u.ctx i).primary ≠ some h.key)
    (hf : u.findStream h.key = none) : prepareHandover i h u = ⟨.ok, .handoverPrepared u.lowestStream h.key h.remaining,
      (u.addStream h.key i .handover).modCtx i fun c => { c with handover := some h }⟩ := by
  unfold prepareHandover
  rw [if_neg (by simp [ho, hc, hh]), if_neg (by simp [hp, hf])]

/-- A handover prepared is answered, and changes one record and the stream map alone. -/
theorem prepare_respond {u : State} {i m : Nat} {h : Handover} (hm : u.lowestStream = m) (p : Port) (code tag : Byte)
    (b : RespBody) (t : State) (ht : t = respond p code tag
      ⟨.ok, b, (u.addStream h.key i .handover).modCtx i fun c => { c with handover := some h }⟩) :
    t.ctx i = { u.ctx i with handover := some h } ∧ OnlyCtx u t i ∧
      (∀ j, t.streamEntry j = if j = m then some ⟨h.key, i, .handover⟩ else u.streamEntry j) ∧
      Answered u t p code tag .ok b ∧ t = { u with ctxs := t.ctxs, streamMap := t.streamMap, ports := t.ports } := by
  subst ht hm
  have hctx := ctx_modCtx_of_ctxs (addStream_ctxs u h.key i .handover) i (f := fun c => { c with handover := some h })
  exact ⟨(hctx i).trans (if_pos rfl), fun j hj => (hctx j).trans (if_neg hj), streamEntry_addStream u h.key i .handover,
    answered_respond u p code tag _ rfl, rfl⟩

/-- Settles O30: the body spells the record (`handoverOf_eq`), which is held, and its key takes the lowest empty entry
(`prepare_respond`). -/
theorem preparePlacesTheNewKey : Obligations.PreparePlacesTheNewKey := by
  intro p tag i0 i1 g l t0 t1 t2 b d0 d1 s u i k m hs hu ho hi hopen hclosed hh hk hl ht ht' hb hd hd' hp hf hm hempty
    hlow
  subst hi hk
  have hr := (takeOrder_handoverPrepare ho (handoverOf_eq hl ht ht' hb hd hd')).trans
    (prepareHandover_new hopen hclosed hh hp hf)
  have hm := lowestStream_eq u m hm hempty hlow
  rw [hm] at hr
  exact ⟨_, exec_eq_respond rfl (by decide) hs hu hr, prepare_respond hm p _ tag _ _ rfl⟩

/-! ### HANDOVER_COMMIT and HANDOVER_CANCEL (R129, R132) -/

theorem takeOrder_handoverCommit {p : Port} {i0 i1 g : Byte} {u : State} (h : Owned u p i0 i1 g) :
    takeOrder p .handoverCommit [i0, i1, g] u = commitHandover (le16 i0 i1) u :=
  ownerChecked_eq p i0 i1 g u (fun i => commitHandover i u) h

theorem takeOrder_handoverCancel {p : Port} {i0 i1 g : Byte} {u : State} (h : Owned u p i0 i1 g) :
    takeOrder p .handoverCancel [i0, i1, g] u = cancelHandover (le16 i0 i1) u :=
  ownerChecked_eq p i0 i1 g u (fun i => cancelHandover i u) h

theorem commitHandover_some {i n : Nat} {u : State} {h : Handover} {e : StreamEntry} (hh : (u.ctx i).handover = some h)
    (hf : u.findStream h.key = some (n, e)) :
    commitHandover i u = ⟨.ok, .handoverCommitted (u.ctx i).primary h.key n, u.commit i h.key⟩ := by
  unfold commitHandover entryOf
  simp only [hh, hf]

theorem cancelHandover_some {i : Nat} {u : State} {h : Handover} (hh : (u.ctx i).handover = some h) :
    cancelHandover i u = ⟨.ok, .handoverCancelled h.key h.remaining, u.abandon i h.key⟩ := by
  unfold cancelHandover
  simp only [hh]

/-- Check 5 passed: the port owns the context (R164). -/
theorem Owned.owner_eq {u : State} {p : Port} {i0 i1 g : Byte} (h : Owned u p i0 i1 g) :
    (u.ctx (le16 i0 i1)).owner = p := by
  obtain ⟨-, howner⟩ := h
  exact howner

/-- HANDOVER_COMMIT of a context whose new key is not in the entry of its primary key commits (R129). -/
theorem exec_handoverCommit {p : Port} {tag i0 i1 g : Byte} {s u : State} {i n : Nat} {h : Handover} {e : StreamEntry}
    (hs : s.takes p = true) (hcan : s.canonical = true) (hi : i = le16 i0 i1) (hu : u = s.atOrder p 0x41)
    (ho : Owned u p i0 i1 g) (hh : (u.ctx i).handover = some h) (hf : u.findStream h.key = some (n, e))
    (hv : u.vacatedEntry i ≠ some n) :
    ∃ v, HandoverCommitted u v i h.key n e ∧ exec (.handoverCommit p tag [i0, i1, g]) s =
      .next (respond p OrderCode.handoverCommit.byte tag ⟨.ok, .handoverCommitted (u.ctx i).primary h.key n, v⟩) := by
  subst hi
  have hc : u.canonical = true := hu ▸ canonical_atOrder s p 0x41 hcan
  have ht := (takeOrder_handoverCommit ho).trans (commitHandover_some hh hf)
  exact ⟨_, handoverCommitted_commit hc hf hv, exec_eq_respond (c := .handoverCommit) rfl (by decide) hs hu ht⟩

/-- A commit that the owner's order asks for is answered, and changes one record, the stream map, the owner's queue and
the tallies alone (R126, R129). -/
theorem commit_respond {u v : State} {i n : Nat} {k : StreamKey} {e : StreamEntry} {p : Port}
    (h : HandoverCommitted u v i k n e) (hp : (u.ctx i).owner = p) (code tag : Byte) (b : RespBody) (t : State)
    (ht : t = respond p code tag ⟨.ok, b, v⟩) :
    t.ctx i = { u.ctx i with primary := some k, handover := none, conds := (u.ctx i).conds ||| 0x20#12 } ∧
      OnlyCtx u t i ∧
      (∀ j, t.streamEntry j = if j = n then some { e with role := .primary }
        else if u.vacatedEntry i = some j then none else u.streamEntry j) ∧
      t.queueOf p = (if (u.ctx i).conds = 0 then u.queueOf p ++ [i] else u.queueOf p) ∧
      t.queueOf p.other = u.queueOf p.other ∧ Answered u t p code tag .ok b ∧
      t = { u with
        ctxs := t.ctxs, streamMap := t.streamMap, attention := t.attention, ports := t.ports
        tally0 := u.tally0.step .handoverCommit (some ⟨i, (u.ctx i).gen⟩)
        tally1 := u.tally1.step .handoverCommit (some ⟨i, (u.ctx i).gen⟩) } := by
  obtain ⟨hrecord, honly, hstreams, hqueues, hframe⟩ := h
  have hports : v.ports = u.ports := by rw [hframe]
  have hother : ¬ ((u.ctx i).owner = p.other ∧ (u.ctx i).conds = 0) := by
    rw [hp]
    cases p <;> simp [Port.other]
  subst ht
  refine ⟨hrecord, honly, hstreams, (hqueues p).trans (by simp [hp]), (hqueues p.other).trans (if_neg hother),
    answered_respond u p code tag _ hports, ?_⟩
  rw [respond_frame, hframe]

/-- A handover that an order cancels is answered, and changes one record and the stream map alone (R132). -/
theorem abandon_respond {u : State} {i n : Nat} {k : StreamKey} {e : StreamEntry} (hf : u.findStream k = some (n, e))
    (p : Port) (code tag : Byte) (b : RespBody) (t : State) (ht : t = respond p code tag ⟨.ok, b, u.abandon i k⟩) :
    t.ctx i = { u.ctx i with handover := none } ∧ OnlyCtx u t i ∧
      (∀ j, t.streamEntry j = if j = n then none else u.streamEntry j) ∧ Answered u t p code tag .ok b ∧
      t = { u with ctxs := t.ctxs, streamMap := t.streamMap, ports := t.ports } := by
  subst ht
  refine ⟨(ctx_abandon u i k i).trans (if_pos rfl), fun j hj => (ctx_abandon u i k j).trans (if_neg hj), fun j => ?_,
    answered_respond u p code tag _ (abandon_ports ..), ?_⟩
  · refine (streamEntry_abandon u i k j).trans ?_
    simp [hf, eq_comm]
  · rw [respond_frame]
    unfold abandon
    rw [removeStream_frame]
    rfl

/-! ### A cell on the new key (R127) -/

/-- A well-formed cell on the key of an entry of role HANDOVER is taken as in the state that the commit leaves, where
the key is primary (R127). -/
theorem exec_cellArrival_commit {link : Fin 4} {bytes : List Byte} {s : State} {c : InCell} {k : StreamKey} {n : Nat}
    {e : StreamEntry} (hp : s.pinHeld = false) (hc : s.canonical = true) (hw : wellFormedCell link.val bytes = some c)
    (hk : k = ⟨link.val, c.tag⟩) (hf : s.findStream k = some (n, e)) (hr : e.role = .handover)
    (hv : s.vacatedEntry e.index ≠ some n) :
    exec (.cellArrival link bytes) s = exec (.cellArrival link bytes) (s.commit e.index k) := by
  have hkey : c.key = k := by rw [hk, ← link_of_wellFormedCell hw]; rfl
  obtain ⟨-, hek, -⟩ := (findStream_eq_some_iff hc k n e).1 hf
  have hcell := exec_cellArrival (n := n) (e := { e with role := .primary }) ((commit_pinHeld s e.index k).trans hp) hw
    (by rw [← hk]; exact findStream_commit hc hf hv) rfl (link_of_wellFormedCell hw)
  have hexec : exec (.cellArrival link bytes) s = .next (s.intake link.val bytes) := runs_released _ hp
  rw [hexec, hcell]
  unfold intake reach
  simp only [hw, hkey, hf, hr, hek]

/-- Settles O31: the orders commit (`exec_handoverCommit`) and abandon (`abandon_respond`), and a cell on the new key
commits first (`exec_cellArrival_commit`). -/
theorem commitAndCancel : Obligations.CommitAndCancel := by
  refine ⟨fun p tag i0 i1 g s i h n e hs hcan hi => ⟨?_, ?_, ?_⟩, ?_⟩
  · intro u m e' hu ho hh hf hprimary hsome
    obtain ⟨k, hk⟩ := Option.ne_none_iff_exists'.1 hsome
    obtain ⟨hm, hne⟩ := hprimary k hk
    have hv : u.vacatedEntry i = some m := by simp [vacatedEntry, hk, hm]
    obtain ⟨v, hcom, hexec⟩ := exec_handoverCommit (tag := tag) hs hcan hi hu ho hh hf
      (by rw [hv]; exact fun h => hne (Option.some.inj h))
    subst hi
    obtain ⟨hrecord, honly, hstreams, hrest⟩ := commit_respond hcom ho.owner_eq _ tag _ _ rfl
    simp only [hv, Option.some.injEq, eq_comm (a := m)] at hstreams
    rw [ho.gen_eq] at hrest
    exact ⟨_, hexec, hrecord, honly, hstreams, hrest⟩
  · intro u hu ho hh hf hnone
    have hv : u.vacatedEntry i = none := by simp [vacatedEntry, hnone]
    obtain ⟨v, hcom, hexec⟩ := exec_handoverCommit (tag := tag) hs hcan hi hu ho hh hf (by rw [hv]; exact nofun)
    subst hi
    rw [hnone] at hexec
    obtain ⟨hrecord, honly, hstreams, hrest⟩ := commit_respond hcom ho.owner_eq _ tag _ _ rfl
    simp only [hv, reduceCtorEq, if_false] at hstreams
    rw [ho.gen_eq] at hrest
    exact ⟨_, hexec, hrecord, honly, hstreams, hrest⟩
  · intro u hu ho hh hf
    subst hi
    have ht := (takeOrder_handoverCancel ho).trans (cancelHandover_some hh)
    exact ⟨_, exec_eq_respond rfl (by decide) hs hu ht, abandon_respond hf p _ tag _ _ rfl⟩
  · intro link bytes s c n e h i hp hc hw hf hr hi hh hk hprimary
    subst hi
    rw [← hk] at hf ⊢
    have hv := vacatedEntry_ne hc hf hprimary
    obtain ⟨hrecord, honly, hstreams, hqueues, hframe⟩ := handoverCommitted_commit hc hf hv
    exact ⟨_, exec_cellArrival_commit hp hc hw hk hf hr hv, findStream_commit hc hf hv, hrecord, honly, hstreams,
      hqueues, hframe⟩

end Sys2Proof.Machine
end

section
/-! SUPPORT. The handover deadline running out in a boundary claim (R84, R130, R131): the state in which the expiry has
been taken, and the rest of the claim from it. -/

namespace Sys2Proof.Machine

open State

/-! ### The state in which the expiry has been taken (R130) -/

theorem add_handoverFailed (x : CondSet) : x.add .handoverFailed = x ||| 0x40#12 := congrArg (x ||| ·) (by decide)

/-- From `s` to `v` the handover of context `i`, whose key was in entry `n`, ran out (R130). -/
structure HandoverExpired (s v : State) (i n : Nat) : Prop where
  record : v.ctx i = { s.ctx i with handover := none, conds := (s.ctx i).conds ||| 0x40#12 }
  only : OnlyCtx s v i
  streams : ∀ m, v.streamEntry m = if m = n then none else s.streamEntry m
  queues : ∀ q, v.queueOf q = if (s.ctx i).owner = q ∧ (s.ctx i).conds = 0 then s.queueOf q ++ [i] else s.queueOf q
  frame : v = { s with
    ctxs := v.ctxs, streamMap := v.streamMap, attention := v.attention,
    tally0 := s.tally0.step .handoverFail (some ⟨i, (s.ctx i).gen⟩),
    tally1 := s.tally1.step .handoverFail (some ⟨i, (s.ctx i).gen⟩) }

theorem queueOf_expireHandover (s : State) (i : Nat) (k : StreamKey) (q : Port) : (s.expireHandover i k).queueOf q =
    if (s.ctx i).owner = q ∧ (s.ctx i).conds = 0 then s.queueOf q ++ [i] else s.queueOf q := by
  unfold expireHandover
  rw [queueOf_congr (countFor_attention ..), queueOf_raise, ctx_abandon, if_pos rfl, queueOf_congr (t := s) (by simp)]
  simp only [and_comm, eq_comm]

theorem handoverExpired_expireHandover {s : State} {k : StreamKey} {n : Nat} {e : StreamEntry} (i : Nat)
    (hf : s.findStream k = some (n, e)) : HandoverExpired s (s.expireHandover i k) i n where
  record := by rw [ctx_expireHandover, if_pos rfl, add_handoverFailed]
  only j hj := by rw [ctx_expireHandover, if_neg hj]
  streams m := by
    rw [streamEntry_congr (streamMap_expireHandover s i k), streamEntry_removeStream, hf]
    simp [eq_comm]
  queues := queueOf_expireHandover s i k
  frame := by
    obtain ⟨ht0, ht1⟩ := tallies_expireHandover s i k
    apply eq_of_fields <;> simp [ht0, ht1]

/-! ### The rows of a boundary claim in which a count runs out (log 4) -/

theorem exec_boundaryClaim {i : Fin 2048} {s : State} (hp : s.pinHeld = false) :
    exec (.boundaryClaim i) s = .next (s.boundaryClaim i.val) := runs_released _ hp

theorem exec_handoverExpiry {i : Fin 2048} {s : State} (h : (s.ctx i.val).handoverEnds = true) :
    exec (.handoverExpiry i) s = exec (.boundaryClaim i) s := congrArg (runs s) (if_pos h)

theorem exec_firstCellExpiry {i : Fin 2048} {s : State} (hs : (s.ctx i.val).state = .armed)
    (hf : (s.ctx i.val).firstRemaining = some 1) : exec (.firstCellExpiry i) s = exec (.boundaryClaim i) s :=
  congrArg (runs s) (if_pos ⟨hs, by rw [hf]; exact le_rfl⟩)

theorem exec_silenceLimit {i : Fin 2048} {s : State} (hs : (s.ctx i.val).state = .active)
    (hl : (s.ctx i.val).silenceLimit ≤ min 6000 ((s.ctx i.val).silence + 1)) (hr : (s.ctx i.val).staleRaised = false) :
    exec (.silenceLimit i) s = exec (.boundaryClaim i) s := by
  have hstale : (s.ctx i.val).staleNext = true := by
    unfold Ctx.staleNext
    rw [hr]
    simpa [Ctx.silenceNext] using hl
  exact congrArg (runs s) (if_pos ⟨hs, hstale⟩)

theorem exec_silenceRetire {i : Fin 2048} {s : State} (hs : (s.ctx i.val).state = .active)
    (hl : 2 * (s.ctx i.val).silenceLimit ≤ min 6000 ((s.ctx i.val).silence + 1))
    (ha : (s.ctx i.val).autoRetire = true) : exec (.silenceRetire i) s = exec (.boundaryClaim i) s := by
  have hcloses : (s.ctx i.val).silenceCloses = true := by
    unfold Ctx.silenceCloses
    rw [ha]
    simpa [Ctx.silenceNext] using hl
  exact congrArg (runs s) (if_pos ⟨hs, hcloses⟩)

/-! ### The claim from the state in which the expiry has been taken (R131) -/

/-- From `s` to `t` context `i` took the claim in which its handover ran out, whose key was in entry `n` (R82, R130). -/
structure ExpiryClaimed (s t : State) (i n : Nat) : Prop where
  queues : ∀ q, t.queueOf q = if (s.ctx i).owner = q ∧ (s.ctx i).conds = 0 then s.queueOf q ++ [i] else s.queueOf q
  streams : ∀ m, t.streamEntry m = if m = n then none else s.streamEntry m
  only : OnlyCtx s t i
  taken : ClaimTaken s t i
  frame : t = { s with
    ctxs := t.ctxs, streamMap := t.streamMap, blocks := t.blocks, lanes := t.lanes, attention := t.attention,
    timer := t.timer, tally0 := t.tally0, tally1 := t.tally1 }

/-- A quiet claim is the one claim of its boundary (R82). -/
theorem claimTaken_quiet {s : State} {i : Nat} (hq : (s.ctx i).Quiet) :
    ClaimTaken s (((s.beforeSettling i).startWork i).markClaimed i) i :=
  claimTaken_markClaimed i (by simp [beforeSettling_quiet hq])

namespace HandoverExpired

variable {s v t : State} {i n : Nat}

theorem pinHeld (h : HandoverExpired s v i n) : v.pinHeld = s.pinHeld := by rw [h.frame]

theorem timer (h : HandoverExpired s v i n) : v.timer = s.timer := by rw [h.frame]

theorem claimDue (h : HandoverExpired s v i n) (j : Nat) : v.claimDue j = s.claimDue j := by
  unfold State.claimDue
  rw [h.timer]

/-- The expiry counts HANDOVER_FAIL once (R130). -/
theorem tallied (h : HandoverExpired s v i n) : Tallied s v i [.handoverFail] :=
  ⟨⟨by rw [h.frame]; rfl, by rw [h.frame]; rfl⟩, by rw [h.record]⟩

/-- The rest of the claim, from `v`, leaves what the expiry did, and takes the claim that `s` owed (R82, R131). -/
theorem claimed (h : HandoverExpired s v i n) (hw : WorkFrame v t) (honly : OnlyCtx v t i) (htaken : ClaimTaken v t i) :
    ExpiryClaimed s t i n where
  queues q := by rw [← h.queues, queueOf_congr (t := v) (by rw [hw])]
  streams m := by rw [← h.streams, streamEntry_congr (t := v) (by rw [hw])]
  only j hj := (honly j hj).trans (h.only j hj)
  taken := by
    obtain ⟨htimer, hdue, hothers⟩ := htaken
    exact ⟨by rw [htimer, h.timer], hdue, fun j hj => (hothers j hj).trans (h.claimDue j)⟩
  frame := by
    unfold WorkFrame at hw
    rw [hw, h.frame]

/-- In OPEN and HELD the rest of the claim discards the block handed over, and nothing else (R84). -/
theorem exists_still {i : Fin 2048} (h : HandoverExpired s v i.val n) (hp : s.pinHeld = false)
    (hd : s.claimDue i.val = true) (hst : (s.ctx i.val).state = .opened ∨ (s.ctx i.val).state = .held) :
    ∃ t, exec (.boundaryClaim i) v = .next t ∧ t.ctx i.val = v.ctx i.val ∧
      (∀ m, t.block m = if (s.ctx i.val).slot.map SlotBinding.slot = some m then { s.block m with handed := none }
        else s.block m) ∧
      t.tally0 = v.tally0 ∧ t.tally1 = v.tally1 ∧ t.lanes = s.lanes ∧ ExpiryClaimed s t i.val n := by
  obtain ⟨-, hclaim, -⟩ := boundaryClaimStartsWork
  have hnone : (v.ctx i.val).handover = none := by rw [h.record]
  have hslot : (v.ctx i.val).slot = (s.ctx i.val).slot := by rw [h.record]
  have hblocks : v.blocks = s.blocks := by rw [h.frame]
  have hlanes : v.lanes = s.lanes := by rw [h.frame]
  obtain ⟨t, ht, hrecord, honly, hblock, htaken, hframe⟩ := hclaim i v (h.pinHeld.trans hp)
    ((h.claimDue i.val).trans hd) (by rw [h.record]; exact hst) (by rw [hnone]; exact nofun)
  refine ⟨t, ht, ?_, fun m => ?_, by rw [hframe], by rw [hframe], by rw [hframe, hlanes],
    h.claimed (by unfold WorkFrame; rw [hframe]) honly htaken⟩
  · rw [hrecord, hnone, h.record]
    rfl
  · rw [hblock, hslot, block_congr hblocks]

/-- Where no count of the state runs out the rest of the claim starts a work, which has no bicast key (R85, R130). -/
theorem exists_quiet {i : Fin 2048} (h : HandoverExpired s v i.val n) (hp : s.pinHeld = false)
    (hd : s.claimDue i.val = true) (hq : (s.ctx i.val).Quiet) (hr : (s.ctx i.val).request = none) :
    ∃ t w, exec (.boundaryClaim i) v = .next t ∧ (v.ctx i.val).atWorkStart.StartedAs (t.ctx i.val) w ∧
      w.bicast = none ∧ w.primary = (s.ctx i.val).primary ∧
      Counted s t i.val (.handoverFail :: if w.uplink = .conceal then [.conceal] else []) ∧
      ExpiryClaimed s t i.val n := by
  have hnone : (v.ctx i.val).handover = none := by rw [h.record]
  have hprimary : (v.ctx i.val).primary = (s.ctx i.val).primary := by rw [h.record]
  have hqv : (v.ctx i.val).Quiet := by rw [h.record]; exact hq
  have hends := Ctx.handoverEnds_none hnone
  have hclaim := quietClaim_claim hqv
  have hw := quietWork_eq hqv
  have htallied := h.tallied.trans hclaim.tallied
  rw [hends] at htallied
  refine ⟨_, v.quietWork i.val,
    exec_boundaryClaim_quiet (h.pinHeld.trans hp) ((h.claimDue i.val).trans hd) hqv (by rw [h.record]; exact hr),
    hclaim.started, ?_, ?_, htallied.counted, h.claimed (hclaim.frame hends) hclaim.only (claimTaken_quiet hqv)⟩
  · rw [hw, Ctx.handoverStepped_none hnone, hnone, bicastKey_none]
  · rw [hw, hprimary]

end HandoverExpired

/-- Both rows in which a handover deadline runs out are the claim from the state in which the expiry has been taken
(R130, R131). -/
theorem exists_handoverExpired {i : Fin 2048} {s : State} {h : Handover} {n : Nat} {e : StreamEntry}
    (hp : s.pinHeld = false) (hd : s.claimDue i.val = true) (hh : (s.ctx i.val).handover = some h)
    (hr : h.remaining = 1) (hf : s.findStream h.key = some (n, e))
    (hst : (s.ctx i.val).state ∈ [.opened, .armed, .active, .held]) :
    ∃ v, HandoverExpired s v i.val n ∧ exec (.handoverExpiry i) s = exec (.boundaryClaim i) v ∧
      exec (.boundaryClaim i) s = exec (.boundaryClaim i) v := by
  have hv := handoverExpired_expireHandover i.val hf
  have hends := (Ctx.handoverEnds_some hh).trans (decide_eq_true hr.le)
  have hfree : (s.ctx i.val).state ≠ .free := fun h => by simp [h] at hst
  have hclosed : (s.ctx i.val).state ≠ .closed := fun h => by simp [h] at hst
  have hclaim : exec (.boundaryClaim i) s = exec (.boundaryClaim i) (s.expireHandover i.val h.key) := by
    rw [exec_boundaryClaim hp, exec_boundaryClaim (hv.pinHeld.trans hp), boundaryClaim_eq s i.val hd,
      boundaryClaim_eq _ i.val ((hv.claimDue i.val).trans hd), claimBody_expireHandover s i.val h hh hr hfree hclosed]
  exact ⟨_, hv, (exec_handoverExpiry hends).trans hclaim, hclaim⟩

/-- Settles O44: the claim goes on from the state in which the expiry has been taken (`exists_handoverExpired`): in OPEN
or HELD (`exists_still`), with no other count running out (`exists_quiet`), or with another expiry. -/
theorem handoverDeadlineExpires : Obligations.HandoverDeadlineExpires := by
  constructor
  · intro i s h n e hp hd hh hr hf hst
    have hcases : ((s.ctx i.val).state = .opened ∨ (s.ctx i.val).state = .held) ∨
        (s.ctx i.val).Quiet ∧ (s.ctx i.val).request = none := by
      obtain ho | hheld | ⟨ha, hl, -, hreq⟩ | ⟨ha, hwait, hreq⟩ := hst
      · exact .inl (.inl ho)
      · exact .inl (.inr hheld)
      · exact .inr ⟨.inr ⟨ha, hl⟩, hreq⟩
      · exact .inr ⟨.inl ⟨ha, hwait⟩, hreq⟩
    rcases hcases with hst | ⟨hq, hreq⟩
    · obtain ⟨v, hv, hexpiry, hclaim⟩ := exists_handoverExpired hp hd hh hr hf (by rcases hst with h | h <;> simp [h])
      obtain ⟨t, ht, hrecord, hblock, ht0, ht1, hlanes, hclaimed⟩ := hv.exists_still hp hd hst
      rw [hv.record] at hrecord
      refine ⟨t, hexpiry.trans ht, hclaim.trans ht, by rw [hrecord], by rw [hrecord], by rw [hrecord], by rw [hrecord],
        fun _ => ⟨hrecord, hblock, ht0.trans (by rw [hv.frame]), ht1.trans (by rw [hv.frame]), hlanes⟩, fun hconv => ?_,
        hclaimed.queues, hclaimed.streams, hclaimed.only, hclaimed.taken, hclaimed.frame⟩
      rcases hst with h | h <;> simp [h] at hconv
    · have hconv : (s.ctx i.val).state = .armed ∨ (s.ctx i.val).state = .active := hq.imp And.left And.left
      obtain ⟨v, hv, hexpiry, hclaim⟩ := exists_handoverExpired hp hd hh hr hf
        (by rcases hconv with h | h <;> simp [h])
      obtain ⟨t, w, ht, ⟨_, _, _, _, _, _, hrecord⟩, hbicast, hprimary, hcounted, hclaimed⟩ :=
        hv.exists_quiet hp hd hq hreq
      have hstep : (v.ctx i.val).handoverStepped = v.ctx i.val := Ctx.handoverStepped_none (by rw [hv.record])
      refine ⟨t, hexpiry.trans ht, hclaim.trans ht, ?_, ?_, ?_, ?_, fun hstill => ?_,
        fun _ => ⟨w, by rw [hrecord], hbicast, hprimary, hcounted⟩,
        hclaimed.queues, hclaimed.streams, hclaimed.only, hclaimed.taken, hclaimed.frame⟩
      · rw [hrecord, Ctx.atWorkStart_handover, hstep, hv.record]
      · rw [hrecord, hv.record]
        rfl
      · rw [hrecord, Ctx.atWorkStart_state, hv.record]
      · rw [hrecord, Ctx.atWorkStart_conds, hstep, hv.record]
      · rcases hconv with h | h <;> simp [h] at hstill
  · intro i s h n e hp hd hh hr hf hst
    obtain ⟨v, hv, hexpiry, hclaim⟩ := exists_handoverExpired hp hd hh hr hf hst
    have ht := exec_boundaryClaim (i := i) (hv.pinHeld.trans hp)
    have hts := hclaim.trans ht
    obtain ⟨hrecord, honly, hstreams, hqueues, hframe⟩ := hv
    refine ⟨_, v, hexpiry.trans ht, hts, ht, hrecord, honly, hstreams, hqueues, hframe, fun ha hone => ?_,
      fun ha hl hstale => ?_, fun ha hl hauto => ?_⟩
    · exact ⟨(exec_firstCellExpiry (by rw [hrecord, ha]) (by rw [hrecord, hone])).trans ht,
        (exec_firstCellExpiry ha hone).trans hts⟩
    · exact ⟨(exec_silenceLimit (by rw [hrecord, ha]) (by rw [hrecord]; exact hl) (by rw [hrecord, hstale])).trans ht,
        (exec_silenceLimit ha hl hstale).trans hts⟩
    · exact ⟨(exec_silenceRetire (by rw [hrecord, ha]) (by rw [hrecord]; exact hl) (by rw [hrecord, hauto])).trans ht,
        (exec_silenceRetire ha hl hauto).trans hts⟩

end Sys2Proof.Machine
end

section
/-! SUPPORT. SET_SUPERVISION (R140): the checks its body passes or fails, and what it does by the state of the
context. -/

namespace Sys2Proof.Machine

open State

/-! ### The fields of a body (R140) -/

/-- A byte spells a flag exactly where it is 0 or 1. -/
theorem isSome_flagOf (a : Byte) : (flagOf a).isSome = decide (a.toNat ≤ 1) := by
  unfold flagOf
  by_cases h0 : a = 0
  · subst h0; rfl
  · by_cases h1 : a = 1
    · subst h1; rfl
    · rw [if_neg h0, if_neg h1]
      exact (decide_eq_false (by bv_omega)).symm

/-- The flag a byte spells, off for a byte that spells none. -/
theorem getD_flagOf (a : Byte) : (flagOf a).getD false = decide (a = 1) := by
  unfold flagOf
  by_cases h0 : a = 0
  · subst h0; rfl
  · by_cases h1 : a = 1
    · subst h1; rfl
    · rw [if_neg h0, if_neg h1, decide_eq_false h1]
      rfl

theorem supervisionFields_iff (deadline limit : Nat) (a : Byte) : supervisionFields deadline limit a = true ↔
    (1 ≤ deadline ∧ deadline ≤ 3000) ∧ (5 ≤ limit ∧ limit ≤ 3000) ∧ a.toNat ≤ 1 := by
  simp [supervisionFields, isSome_flagOf, and_assoc]

theorem supervisionFields_outOfRange {deadline limit : Nat} {a : Byte} (h : ¬ (1 ≤ deadline ∧ deadline ≤ 3000) ∨
    ¬ (5 ≤ limit ∧ limit ≤ 3000) ∨ 1 < a.toNat) : supervisionFields deadline limit a = false := by
  rw [Bool.eq_false_iff, ne_eq, supervisionFields_iff]
  omega

/-! ### Checks 3 and 5 failed (R164) -/

/-- Check 3: a field out of range is refused, whatever the handle. -/
theorem ownerChecked_badField (p : Port) (i0 i1 g : Byte) {b : Bool} (hb : b = false) (u : State) (act : Nat → Taken) :
    ownerChecked p i0 i1 g b u act = refuse .badField u := if_pos (.inr hb)

/-- Check 5: an order from the port that does not own the context is refused. -/
theorem ownerChecked_notOwner {p : Port} {i0 i1 g : Byte} {b : Bool} (hb : b = true) {u : State} (act : Nat → Taken)
    (h : Named u i0 i1 g) (ho : (u.ctx (le16 i0 i1)).owner ≠ p) :
    ownerChecked p i0 i1 g b u act = refuse .notOwner u := by
  subst hb
  exact (named_eq i0 i1 g u _ h).trans (if_neg ho)

/-! ### The order -/

theorem takeOrder_setSupervision (p : Port) (i0 i1 g d0 d1 l0 l1 a : Byte) (u : State) :
    takeOrder p .setSupervision [i0, i1, g, d0, d1, l0, l1, a] u =
      ownerChecked p i0 i1 g (supervisionFields (le16 d0 d1) (le16 l0 l1) a) u fun i =>
        setSupervisionOf i (le16 d0 d1) (le16 l0 l1) (decide (a = 1)) u := by
  rw [← getD_flagOf]
  rfl

/-- Settles O20: the checks of R164 in their sequence, then the order's own, then its one change of one record. -/
theorem setSupervisionReplacesSettings : Obligations.SetSupervisionReplacesSettings := by
  intro p tag i0 i1 g d0 d1 l0 l1 a s u i hs hu hi
  subst hi
  refine ⟨_, exec_eq_respond rfl (by decide) hs hu (takeOrder_setSupervision ..), fun hbad => ?_,
    fun hd hd' hl hl' ha hn => ?_⟩
  · rw [ownerChecked_badField p i0 i1 g (supervisionFields_outOfRange hbad)]
    exact refused_respond u p _ tag _
  · have hfields := (supervisionFields_iff (le16 d0 d1) (le16 l0 l1) a).2 ⟨⟨hd, hd'⟩, ⟨hl, hl'⟩, ha⟩
    refine ⟨fun ho => ?_, fun ho hc => ?_, fun ho hc => ?_⟩
    · rw [ownerChecked_notOwner hfields _ hn ho]
      exact refused_respond u p _ tag _
    · rw [ownerChecked_fields p i0 i1 g _ hfields u _ ⟨hn, ho⟩, setSupervisionOf, if_pos hc]
      exact refused_respond u p _ tag _
    · rw [ownerChecked_fields p i0 i1 g _ hfields u _ ⟨hn, ho⟩, setSupervisionOf, if_neg hc]
      exact modCtx_respond u p _ tag _ _ _

end Sys2Proof.Machine
end

section
/-! SUPPORT. The boundary claim in which a count of a converting context runs out (R17, R20, R84, R141): the state in
which the count has been stepped, and what the claim leaves that closes the context or returns it to OPEN. -/

namespace Sys2Proof.Machine

open State

/-! ### The claim of a converting context (R84) -/

theorem ctx_discardWork_self (s : State) (i : Nat) : (s.discardWork i).ctx i = { s.ctx i with work := none } := by
  rw [ctx_discardWork, if_pos rfl]

theorem add_noFirstCell (x : CondSet) : x.add .noFirstCell = x ||| 0x02#12 := congrArg (x ||| ·) (by decide)
theorem one_retired : CondSet.one .retired = 0x800#12 := by decide

/-- In ARMED and ACTIVE the claim discards the work of the period before, steps the counts, and goes on from there. -/
theorem claimBody_converting {s : State} {i : Nat} (h : (s.ctx i).converting = true) :
    s.claimBody i = ((s.discardWork i).stepCounts i).continueClaim i := by
  unfold claimBody
  rcases (converting_iff _).1 h with hs | hs <;> rw [hs]

/-- Where the counts end the conversion no work starts: the inbound block is discarded. -/
theorem exec_boundaryClaim_ends {i : Fin 2048} {s v : State} (hp : s.pinHeld = false) (hd : s.claimDue i.val = true)
    (hc : (s.ctx i.val).converting = true) (hv : (s.discardWork i.val).stepCounts i.val = v)
    (hend : (v.ctx i.val).converting = false) :
    exec (.boundaryClaim i) s = .next ((v.dropHanded i.val).markClaimed i.val) := by
  rw [exec_boundaryClaim hp, boundaryClaim_eq s i.val hd, claimBody_converting hc, hv, continueClaim, hend]
  rfl

/-- An ARMED context without a handover steps its first-cell wait, which runs out at 1 (R141). -/
theorem stepCounts_firstCellExpires {s : State} {i : Nat} (hs : (s.ctx i).state = .armed)
    (hh : (s.ctx i).handover = none) (hf : (s.ctx i).firstRemaining = some 1) : s.stepCounts i = s.expireFirst i := by
  simp [stepCounts, hs, stepHandover_none s i hh, stepFirst, hf]

/-! ### The state in which the count has been stepped -/

/-- From `s` to `v` the work of context `i` was discarded and at most its silence was counted: nothing changed but the
work, the silence and the pending set of its record, the lanes and the queues. -/
structure CountStepped (s v : State) (i : Nat) : Prop where
  record : v.ctx i = { s.ctx i with
    work := none, silence := (v.ctx i).silence, staleRaised := (v.ctx i).staleRaised, conds := (v.ctx i).conds }
  only : OnlyCtx s v i
  lanes : ∀ n, n < 8 → v.lane n = ⟨(s.lane n).state, (s.lane n).inHand.filter (· ≠ i)⟩
  canonical : s.canonical = true → v.canonical = true
  frame : v = { s with ctxs := v.ctxs, lanes := v.lanes, attention := v.attention }

theorem countStepped_discardWork (s : State) (i : Nat) : CountStepped s (s.discardWork i) i where
  record := by rw [ctx_discardWork, if_pos rfl]
  only j hj := by rw [ctx_discardWork, if_neg hj]
  lanes n hn := by
    rw [lane_discardWork, ← lane_filter]
    simp [hn]
  canonical := canonical_discardWork s i
  frame := by apply eq_of_fields <;> simp

namespace CountStepped

variable {s v : State} {i : Nat}

theorem currentCost (h : CountStepped s v i) : v.currentCost i = s.currentCost i :=
  currentCost_congr (by rw [h.frame]) i (by rw [h.record]) (by rw [h.record])

/-- What is released from `v` is what the context held in `s`, with the work that `v` has discarded (R18). -/
theorem released (h : CountStepped s v i) {t : State} (hr : HoldingsReleased v t i) : HoldingsReleased s t i := by
  have hframe := h.frame
  have hstate : (v.ctx i).converting = (s.ctx i).converting := by rw [h.record]; rfl
  have hslot : (v.ctx i).slot = (s.ctx i).slot := by rw [h.record]
  have hprimary : (v.ctx i).primary = (s.ctx i).primary := by rw [h.record]
  have hhandover : (v.ctx i).handover = (s.ctx i).handover := by rw [h.record]
  have hprofile : (v.ctx i).profile = (s.ctx i).profile := by rw [h.record]
  have hmap : v.streamMap = s.streamMap := by rw [hframe]
  have hentry (n : Nat) : v.streamEntry n = s.streamEntry n := streamEntry_congr hmap n
  exact {
    reserved := by rw [hr.reserved, hstate, h.currentCost, hframe]
    slots := fun n => by rw [hr.slots, hslot, slotEntry_congr (t := s) (by rw [hframe])]
    blocks := fun n => by rw [hr.blocks, hslot, block_congr (t := s) (by rw [hframe])]
    streams := fun k n e hk hf => hr.streams k n e (by rwa [hprimary, hhandover])
      (by unfold findStream; rw [hmap]; exact hf)
    streams_kept := fun hc n hk => by
      rw [hr.streams_kept (h.canonical hc) n, hentry]
      intro k hk' hheld
      rw [hprimary, hhandover] at hk'
      unfold holdsKey at hheld
      rw [hentry] at hheld
      exact hk k hk' hheld
    profiles := fun n => by rw [hr.profiles, hprofile, profile_congr (t := s) (by rw [hframe])]
    lanes := fun n hn => by
      rw [hr.lanes n hn, h.lanes n hn]
      cases (s.lane n).inHand with
      | none => rfl
      | some j => by_cases hj : j = i <;> simp [Option.filter, hj] }

end CountStepped

/-! ### The claim that closes the context (R20) -/

/-- The rest of a claim in which context `i` closes. -/
def State.closedClaim (v : State) (i : Nat) (cause : RetireCause) : State :=
  ((v.enterClosed i cause).dropHanded i).markClaimed i

/-- From `s` to `t` context `i` closed with `cause` in its boundary claim; `v` is the state in which its count had run
out (R18, R20, R84). -/
structure ClosedInClaim (s v t : State) (i : Nat) (cause : RetireCause) : Prop where
  record : t.ctx i = { s.ctx i with
    state := .closed, conds := 0x800#12, retireCause := some cause, silence := (v.ctx i).silence
    staleRaised := (v.ctx i).staleRaised, slot := none, primary := none, handover := none, profile := none
    permitted := none, rate := none, request := none, expected := none, queue := [], firstRemaining := none
    holdCause := none, heldFrom := none, work := none, ready := none }
  only : OnlyCtx s t i
  released : HoldingsReleased s t i
  queues : ∀ q, t.queueOf q = if (s.ctx i).owner = q ∧ i ∉ v.queueOf q then v.queueOf q ++ [i] else v.queueOf q
  taken : ClaimTaken s t i
  frame : t = { s with
    ctxs := t.ctxs, reserved := t.reserved, lanes := t.lanes, slotMap := t.slotMap, streamMap := t.streamMap
    profiles := t.profiles, blocks := t.blocks, attention := t.attention, timer := t.timer }

/-- A CLOSED context has no slot whose block could be discarded (R18). -/
theorem dropHanded_enterClosed (v : State) (i : Nat) (cause : RetireCause) :
    (v.enterClosed i cause).dropHanded i = v.enterClosed i cause := by
  have hslot : ((v.enterClosed i cause).ctx i).slot = none := by rw [ctx_enterClosed, if_pos rfl]; rfl
  unfold dropHanded
  rw [hslot]

theorem enterClosed_frame (v : State) (i : Nat) (cause : RetireCause) : v.enterClosed i cause = { v with
    ctxs := (v.enterClosed i cause).ctxs, reserved := (v.enterClosed i cause).reserved
    lanes := (v.enterClosed i cause).lanes, slotMap := (v.enterClosed i cause).slotMap
    streamMap := (v.enterClosed i cause).streamMap, profiles := (v.enterClosed i cause).profiles
    blocks := (v.enterClosed i cause).blocks, attention := (v.enterClosed i cause).attention } := by
  apply eq_of_fields <;> simp

theorem CountStepped.closes {s v : State} {i : Nat} (h : CountStepped s v i) (cause : RetireCause) :
    ClosedInClaim s v (v.closedClaim i cause) i cause := by
  have howner : (v.ctx i).owner = (s.ctx i).owner := by rw [h.record]
  have hctx (j : Nat) : (v.closedClaim i cause).ctx j = (v.enterClosed i cause).ctx j := by
    rw [closedClaim, dropHanded_enterClosed, ctx_congr (markClaimed_ctxs ..)]
  refine ⟨?_, fun j hj => ?_, ?_, fun q => ?_, ?_, ?_⟩
  · rw [hctx, ctx_enterClosed, if_pos rfl, one_retired, h.record]
    rfl
  · rw [hctx, ctx_enterClosed, if_neg hj, h.only j hj]
  · rw [closedClaim, dropHanded_enterClosed]
    exact h.released (holdingsReleased_congr (holdingsReleased_enterClosed v i cause) rfl id rfl rfl rfl rfl rfl rfl rfl
      rfl rfl rfl rfl rfl rfl)
  · rw [closedClaim, dropHanded_enterClosed, queueOf_congr (markClaimed_attention ..), queueOf_enterClosed, howner]
    by_cases hq : q = (s.ctx i).owner
    · subst hq
      simp
    · simp [hq, Ne.symm hq]
  · exact claimTaken_markClaimed i (by rw [dropHanded_timer, enterClosed_timer, h.frame])
  · rw [closedClaim, dropHanded_enterClosed, markClaimed, setTimer, enterClosed_frame, h.frame]

theorem exec_boundaryClaim_closes {i : Fin 2048} {s v : State} {cause : RetireCause} (hp : s.pinHeld = false)
    (hd : s.claimDue i.val = true) (hc : (s.ctx i.val).converting = true)
    (hv : (s.discardWork i.val).stepCounts i.val = v.enterClosed i.val cause) :
    exec (.boundaryClaim i) s = .next (v.closedClaim i.val cause) :=
  exec_boundaryClaim_ends hp hd hc hv (by rw [ctx_enterClosed, if_pos rfl]; rfl)

/-! ### The first-cell wait runs out (R17, R141) -/

/-- The rest of a claim in which context `i` returns to OPEN. -/
def State.openedClaim (v : State) (i : Nat) : State := ((v.returnToOpen i).dropHanded i).markClaimed i

/-- From `s` to `t` context `i` returned to OPEN in its boundary claim (R17, R84). -/
structure OpenedInClaim (s t : State) (i : Nat) : Prop where
  record : t.ctx i = { s.ctx i with
    state := .opened, firstRemaining := none, request := none, work := none, ready := none
    conds := (s.ctx i).conds ||| (if fromOrder (s.ctx i).request then 0x10#12 else 0) ||| 0x02#12 }
  only : OnlyCtx s t i
  reserved : t.reserved = s.reserved - s.currentCost i
  queues : ∀ q, t.queueOf q = if (s.ctx i).owner = q ∧ (s.ctx i).conds = 0 then s.queueOf q ++ [i] else s.queueOf q
  lanes : ∀ n, n < 8 → t.lane n = ⟨(s.lane n).state, (s.lane n).inHand.filter (· ≠ i)⟩
  blocks : ∀ n, t.block n =
    if (s.ctx i).slot.map SlotBinding.slot = some n then { s.block n with handed := none } else s.block n
  taken : ClaimTaken s t i
  frame : t = { s with
    ctxs := t.ctxs, reserved := t.reserved, lanes := t.lanes, blocks := t.blocks, attention := t.attention
    timer := t.timer }

/-- The index joins its owner's queue once, whichever of the two conditions is raised first (R17, R167). -/
theorem queueOf_returnToOpen (s : State) (i : Nat) (q : Port) : (s.returnToOpen i).queueOf q =
    if (s.ctx i).owner = q ∧ (s.ctx i).conds = 0 then s.queueOf q ++ [i] else s.queueOf q := by
  have hu (f : Ctx → Ctx) : (((s.giveBack (s.currentCost i)).discardWork i).modCtx i f).queueOf q = s.queueOf q :=
    queueOf_congr (by simp) q
  have hctx (f : Ctx → Ctx) : (((s.giveBack (s.currentCost i)).discardWork i).modCtx i f).ctx i =
      f { s.ctx i with work := none } := by
    rw [ctx_modCtx, if_pos rfl, ctx_discardWork, if_pos rfl]
    rfl
  unfold returnToOpen
  rw [queueOf_raise, ctx_raiseIf]
  cases fromOrder (s.ctx i).request with
  | false => simp [raiseIf, hu, hctx, and_comm, eq_comm (a := q)]
  | true =>
    have hraised : (s.ctx i).owner = q → (s.ctx i).conds.add .rateRefused ≠ 0 := fun _ => State.add_ne_zero _ _
    simpa [raiseIf, queueOf_raise, hu, hctx, and_comm, eq_comm (a := q)] using hraised

theorem lane_returnToOpen (s : State) (i n : Nat) : (s.returnToOpen i).lane n =
    if n < 8 ∧ (s.lane n).inHand = some i then { s.lane n with inHand := none } else s.lane n := by
  rw [lane_congr (t := (s.giveBack (s.currentCost i)).discardWork i) (by simp [returnToOpen]), lane_discardWork]
  rfl

/-- The work was discarded before the return, which discards it again (R84). -/
theorem lane_openedClaim (s : State) (i : Nat) {n : Nat} (hn : n < 8) : ((s.discardWork i).openedClaim i).lane n =
    ⟨(s.lane n).state, (s.lane n).inHand.filter (· ≠ i)⟩ := by
  rw [openedClaim, lane_congr (markClaimed_lanes ..), lane_congr (dropHanded_lanes ..), lane_returnToOpen,
    lane_discardWork, ← lane_filter]
  by_cases h : (s.lane n).inHand = some i <;> simp [hn, h]

theorem openedInClaim (s : State) (i : Nat) : OpenedInClaim s ((s.discardWork i).openedClaim i) i := by
  have hstep := countStepped_discardWork s i
  have hrecord := ctx_discardWork_self s i
  have hctx (j : Nat) : ((s.discardWork i).openedClaim i).ctx j = ((s.discardWork i).returnToOpen i).ctx j := by
    rw [openedClaim, ctx_congr (markClaimed_ctxs ..), ctx_congr (dropHanded_ctxs ..)]
  refine ⟨?_, fun j hj => ?_, ?_, fun q => ?_, fun n hn => lane_openedClaim s i hn, fun n => ?_, ?_, ?_⟩
  · rw [hctx, ctx_returnToOpen, if_pos rfl, hrecord]
    cases fromOrder (s.ctx i).request <;> simp [add_noFirstCell, add_rateRefused]
  · rw [hctx, ctx_returnToOpen, if_neg hj, hstep.only j hj]
  · rw [openedClaim, markClaimed_reserved, dropHanded_reserved, reserved_returnToOpen, discardWork_reserved,
      hstep.currentCost]
  · rw [openedClaim, queueOf_congr (markClaimed_attention ..), queueOf_congr (dropHanded_attention ..),
      queueOf_returnToOpen, hrecord, queueOf_congr (discardWork_attention ..)]
  · have hslot : (((s.discardWork i).returnToOpen i).ctx i).slot = (s.ctx i).slot := by
      rw [ctx_returnToOpen, if_pos rfl, hrecord]
    rw [openedClaim, block_congr (markClaimed_blocks ..), block_dropHanded, hslot, block_congr (returnToOpen_blocks ..),
      block_congr (discardWork_blocks ..)]
  · exact claimTaken_markClaimed i (by simp)
  · apply eq_of_fields <;> simp [openedClaim]

/-- Settles O42: the claim returns to OPEN (`openedInClaim`), or closes (`CountStepped.closes`). -/
theorem firstCellWaitExpires : Obligations.FirstCellWaitExpires := by
  intro i s hp hd hs hf hh
  have hconv : (s.ctx i.val).converting = true := (converting_iff _).2 (.inl hs)
  have hwait := exec_firstCellExpiry hs hf
  have hrecord := ctx_discardWork_self s i.val
  have hcounts : (s.discardWork i.val).stepCounts i.val = (s.discardWork i.val).expireFirst i.val :=
    stepCounts_firstCellExpires (by rw [hrecord]; exact hs) (by rw [hrecord]; exact hh) (by rw [hrecord]; exact hf)
  unfold expireFirst at hcounts
  rw [hrecord] at hcounts
  cases ha : (s.ctx i.val).autoRetire with
  | false =>
    simp only [ha, Bool.false_eq_true, if_false] at hcounts
    have ht : exec (.boundaryClaim i) s = .next ((s.discardWork i.val).openedClaim i.val) :=
      exec_boundaryClaim_ends hp hd hconv hcounts (by rw [ctx_returnToOpen, if_pos rfl]; rfl)
    obtain ⟨hctx, honly, hreserved, hqueues, hlanes, hblocks, htaken, hframe⟩ := openedInClaim s i.val
    exact ⟨_, hwait.trans ht, ht, honly, by rw [hctx], hreserved, htaken,
      fun _ => ⟨hctx, hqueues, hlanes, hblocks, hframe⟩, nofun⟩
  | true =>
    simp only [ha, if_true] at hcounts
    have ht := exec_boundaryClaim_closes hp hd hconv hcounts
    obtain ⟨hctx, honly, hreleased, hqueues, htaken, hframe⟩ :=
      (countStepped_discardWork s i.val).closes .noFirstCell
    have hreserved := hreleased.reserved
    rw [hconv, if_pos rfl] at hreserved
    refine ⟨_, hwait.trans ht, ht, honly, by rw [hctx], hreserved, htaken, nofun, fun _ => ⟨?_, hreleased, ?_, hframe⟩⟩
    · rw [hctx, hrecord]
    · intro q
      rw [hqueues, queueOf_congr (discardWork_attention ..)]

end Sys2Proof.Machine
end

section
/-! SUPPORT. The boundary claim of an ACTIVE context whose silence count stands at or above its limit (R84, R143): the
state in which STALE has been tested, and the claim that goes on from there or closes the context. -/

namespace Sys2Proof.Machine

open State

/-! ### The two tests of the silence count (R143) -/

theorem add_stale (x : CondSet) : x.add .stale = x ||| 0x04#12 := congrArg (x ||| ·) (by decide)

/-- At or above the limit STALE is raised where it has not been. -/
theorem staleNext_of_limit {c : Ctx} (h : c.silenceLimit ≤ c.silenceNext) : c.staleNext = !c.staleRaised := by
  simp [Ctx.staleNext, h]

theorem silenceCloses_iff (c : Ctx) :
    c.silenceCloses = true ↔ c.autoRetire = true ∧ 2 * c.silenceLimit ≤ c.silenceNext := by
  simp [Ctx.silenceCloses]

/-- An ACTIVE context without a handover steps its silence count and takes both tests. -/
theorem stepCounts_silence {s : State} {i : Nat} (hs : (s.ctx i).state = .active) (hh : (s.ctx i).handover = none) :
    s.stepCounts i = if (s.ctx i).silenceCloses then (s.stepStale i).enterClosed i .silence else s.stepStale i := by
  simp only [stepCounts, hs, stepHandover_none s i hh, stepSilence]

/-! ### The state in which STALE has been tested -/

/-- The work of context `i` discarded, its silence counted and STALE tested. -/
def State.staleTested (s : State) (i : Nat) : State := (s.discardWork i).stepStale i

theorem canonical_enqueue (s : State) (i : Nat) (h : s.canonical = true) : (s.enqueue i).canonical = true := h

theorem canonical_raise (s : State) (i : Nat) (k : Cond) (h : s.canonical = true) : (s.raise i k).canonical = true := by
  unfold raise
  split
  · exact canonical_modCtx _ i _ (canonical_enqueue s i h)
  · exact canonical_modCtx s i _ h

theorem canonical_stepStale (s : State) (i : Nat) (h : s.canonical = true) : (s.stepStale i).canonical = true := by
  unfold stepStale raiseIf
  split
  · exact canonical_raise _ i .stale (canonical_modCtx s i _ h)
  · exact canonical_modCtx s i _ h

theorem queueOf_stepStale (s : State) (i : Nat) (q : Port) : (s.stepStale i).queueOf q =
    if (s.ctx i).staleNext = true ∧ (s.ctx i).owner = q ∧ (s.ctx i).conds = 0 then s.queueOf q ++ [i]
    else s.queueOf q := by
  unfold stepStale
  cases (s.ctx i).staleNext with
  | false => simp [raiseIf]
  | true => simp [raiseIf, queueOf_raise, and_comm, eq_comm (a := q)]

/-- The record in which STALE has been tested, at or above the limit (R143). -/
theorem ctx_staleTested {s : State} {i : Nat} (h : (s.ctx i).silenceLimit ≤ (s.ctx i).silenceNext) (j : Nat) :
    (s.staleTested i).ctx j = if j = i then { s.ctx i with
      work := none, silence := (s.ctx i).silenceNext, staleRaised := true
      conds := if (s.ctx i).staleRaised then (s.ctx i).conds else (s.ctx i).conds ||| 0x04#12 } else s.ctx j := by
  have hrecord := ctx_discardWork_self s i
  have hnext : ({ s.ctx i with work := none } : Ctx).staleNext = !(s.ctx i).staleRaised := staleNext_of_limit h
  rw [staleTested, ctx_stepStale, hrecord, ctx_discardWork, hnext]
  by_cases hj : j = i
  · subst hj
    cases (s.ctx j).staleRaised <;> simp [add_stale, Ctx.silenceNext]
  · simp [hj]

theorem queueOf_staleTested {s : State} {i : Nat} (h : (s.ctx i).silenceLimit ≤ (s.ctx i).silenceNext) (q : Port) :
    (s.staleTested i).queueOf q =
      if (s.ctx i).staleRaised = false ∧ (s.ctx i).owner = q ∧ (s.ctx i).conds = 0 then s.queueOf q ++ [i]
      else s.queueOf q := by
  have hrecord := ctx_discardWork_self s i
  have hnext : ({ s.ctx i with work := none } : Ctx).staleNext = !(s.ctx i).staleRaised := staleNext_of_limit h
  rw [staleTested, queueOf_stepStale, hrecord, hnext, queueOf_congr (discardWork_attention ..)]
  simp

theorem staleTested_lanes (s : State) (i : Nat) : (s.staleTested i).lanes = (s.discardWork i).lanes := by
  simp [staleTested, stepStale]

theorem staleTested_frame (s : State) (i : Nat) : s.staleTested i = { s with
    ctxs := (s.staleTested i).ctxs, lanes := (s.staleTested i).lanes, attention := (s.staleTested i).attention } := by
  apply eq_of_fields <;> simp [staleTested, stepStale]

theorem countStepped_staleTested {s : State} {i : Nat} (h : (s.ctx i).silenceLimit ≤ (s.ctx i).silenceNext) :
    CountStepped s (s.staleTested i) i where
  record := by rw [ctx_staleTested h, if_pos rfl]
  only j hj := by rw [ctx_staleTested h, if_neg hj]
  lanes n hn := by rw [lane_congr (staleTested_lanes s i), (countStepped_discardWork s i).lanes n hn]
  canonical hc := canonical_stepStale _ i (canonical_discardWork s i hc)
  frame := staleTested_frame s i

/-! ### The claim that goes on (R84, steps 2 to 5) -/

/-- The state in which the claim starts its work, from the state `v` in which the counts have been stepped. -/
def State.readyPlayed (v : State) (i : Nat) : State := (v.playReady i).stepSinceRate i

theorem ctx_readyPlayed (v : State) (i j : Nat) : (v.readyPlayed i).ctx j =
    if j = i then { v.ctx i with ready := none, sinceRate := min 65535 ((v.ctx i).sinceRate + 1) } else v.ctx j := by
  rw [readyPlayed, ctx_stepSinceRate, ctx_playReady, ctx_playReady, if_pos rfl]
  by_cases hj : j = i <;> simp [hj]

theorem block_readyPlayed (v : State) (i n : Nat) : (v.readyPlayed i).block n =
    if (v.ctx i).slot.map SlotBinding.slot = some n then { v.block n with outbound := (v.ctx i).ready }
    else v.block n := by
  rw [readyPlayed, block_congr (stepSinceRate_blocks ..), playReady, modCtx_block, block_playBlock]

theorem tallied_readyPlayed (v : State) (i : Nat) : Tallied v (v.readyPlayed i) i [] :=
  .same (by simp [readyPlayed]) (by simp [readyPlayed]) (by rw [ctx_readyPlayed, if_pos rfl])

/-- An ACTIVE context whose silence does not close it starts its work once STALE has been tested. -/
theorem exec_boundaryClaim_silent {i : Fin 2048} {s : State} (hp : s.pinHeld = false) (hd : s.claimDue i.val = true)
    (hs : (s.ctx i.val).state = .active) (hh : (s.ctx i.val).handover = none)
    (hclose : (s.ctx i.val).silenceCloses = false) (hr : (s.ctx i.val).request = none) :
    exec (.boundaryClaim i) s = .next (((s.staleTested i.val).readyPlayed i.val).startedClaim i.val) := by
  have hgo : (s.ctx i.val).GoesOn := .inr ⟨hs, hclose⟩
  have hrecord := ctx_discardWork_self s i.val
  have hcounts : (s.discardWork i.val).stepCounts i.val = s.staleTested i.val := by
    rw [stepCounts_silence (by rw [hrecord]; exact hs) (by rw [hrecord]; exact hh), hrecord]
    exact if_neg (by rw [Bool.not_eq_true]; exact hclose)
  have hsettle : (s.beforeSettling i.val).settle i.val = s.beforeSettling i.val :=
    settle_none _ _ (by rw [ctx_beforeSettling s i.val i.val hh hgo, if_pos rfl]; exact hr)
  rw [exec_boundaryClaim hp, boundaryClaim_eq s i.val hd, claimBody_goesOn s i.val hh hgo, hsettle, beforeSettling,
    hcounts]
  rfl

/-- From `s` to `t` context `i` started its work in a claim in which STALE was tested, `v` being the state after the
test (R84, R143). -/
structure SilentClaim (s v t : State) (i : Nat) (w : Work) : Prop where
  started : ∃ since, ({ v.ctx i with ready := none, sinceRate := since } : Ctx).StartedAs (t.ctx i) w
  only : OnlyCtx s t i
  counted : Counted s t i (if w.uplink = .conceal then [.conceal] else [])
  queues : ∀ q, t.queueOf q = v.queueOf q
  blocks : ∀ n, t.block n = if (s.ctx i).slot.map SlotBinding.slot = some n then
    { s.block n with outbound := (s.ctx i).ready, handed := none } else s.block n
  lanes : ∀ n, n < 8 → t.lane n = ⟨(s.lane n).state, (s.lane n).inHand.filter (· ≠ i)⟩
  taken : ClaimTaken s t i
  frame : t = { s with
    ctxs := t.ctxs, blocks := t.blocks, lanes := t.lanes, attention := t.attention, timer := t.timer
    tally0 := t.tally0, tally1 := t.tally1 }

theorem workFrame_startedClaim (v : State) (i : Nat) : WorkFrame v (v.startedClaim i) :=
  (workFrame_startWork v i).trans (workFrame_markClaimed _ i)

theorem CountStepped.goesOn {s v : State} {i : Nat} (h : CountStepped s v i) :
    SilentClaim s v ((v.readyPlayed i).startedClaim i) i ((v.readyPlayed i).startedWork i) := by
  have hslot : (v.ctx i).slot = (s.ctx i).slot := by rw [h.record]
  have hready : (v.ctx i).ready = (s.ctx i).ready := by rw [h.record]
  have hstep : Tallied s v i [] := .same (by rw [h.frame]) (by rw [h.frame]) (by rw [h.record])
  have htallied := ((hstep.trans (tallied_readyPlayed v i)).trans (tallied_startedClaim (v.readyPlayed i) i)).to
    (List.nil_append _)
  have hstarted := startedAs_startedClaim (v.readyPlayed i) i
  rw [ctx_readyPlayed, if_pos rfl] at hstarted
  refine ⟨⟨_, hstarted⟩, fun j hj => ?_, htallied.counted, fun q => ?_, fun n => ?_, fun n hn => ?_, ?_, ?_⟩
  · rw [ctx_startedClaim_other _ hj, ctx_readyPlayed, if_neg hj, h.only j hj]
  · exact queueOf_congr (by rw [workFrame_startedClaim]; simp [readyPlayed]) q
  · have hplayed : ((v.readyPlayed i).ctx i).slot = (s.ctx i).slot := by rw [ctx_readyPlayed, if_pos rfl, hslot]
    rw [startedClaim, block_congr (markClaimed_blocks ..), block_startWork, hplayed, block_readyPlayed, hslot, hready,
      block_congr (t := s) (by rw [h.frame])]
    by_cases hn : (s.ctx i).slot.map SlotBinding.slot = some n
    · simp only [hn, if_true]
    · simp only [hn, if_false]
  · rw [← h.lanes n hn]
    exact lane_congr (by simp [startedClaim, readyPlayed]) n
  · exact claimTaken_markClaimed i (by rw [startWork_timer, readyPlayed, stepSinceRate_timer, playReady_timer, h.frame])
  · have hframe := h.frame
    apply eq_of_fields <;> simp [startedClaim, readyPlayed] <;> rw [hframe]

/-- Where the queues agree with the pending sets, the index of a context that closes joins its owner's queue once: with
STALE, or with RETIRED (R167). -/
theorem queueOf_closed {s : State} {i : Nat} (h : s.queuesMatch) (hl : (s.ctx i).silenceLimit ≤ (s.ctx i).silenceNext)
    (q : Port) :
    (if (s.ctx i).owner = q ∧ i ∉ (s.staleTested i).queueOf q then (s.staleTested i).queueOf q ++ [i]
      else (s.staleTested i).queueOf q) =
    if (s.ctx i).owner = q ∧ (s.ctx i).conds = 0 then s.queueOf q ++ [i] else s.queueOf q := by
  obtain ⟨-, hmem⟩ := h q
  rw [queueOf_staleTested hl]
  by_cases ho : (s.ctx i).owner = q
  · by_cases hc : (s.ctx i).conds = 0
    · cases (s.ctx i).staleRaised <;> simp [ho, hc, hmem]
    · have hin : i ∈ s.queueOf q := (hmem i).2 ⟨ho, hc⟩
      simp only [hc, hin, and_false, if_false, not_true_eq_false]
  · simp [ho]

/-- Settles O43: the claim goes on (`CountStepped.goesOn`), or closes the context (`CountStepped.closes`), from the
state in which STALE has been tested. -/
theorem silenceCounts : Obligations.SilenceCounts := by
  intro i s count hp hd hs hh hcount
  have hnext : (s.ctx i.val).silenceNext = count := hcount.symm
  refine ⟨fun hl hstay hr => ?_, fun hl ha => ?_⟩
  · have hl' : (s.ctx i.val).silenceLimit ≤ (s.ctx i.val).silenceNext := hnext ▸ hl
    have hclose : (s.ctx i.val).silenceCloses = false := by
      rw [Bool.eq_false_iff, ne_eq, silenceCloses_iff, hnext]
      rintro ⟨hauto, htwice⟩
      rcases hstay with hoff | hbelow
      · rw [hoff] at hauto
        cases hauto
      · omega
    have ht := exec_boundaryClaim_silent hp hd hs hh hclose hr
    obtain ⟨⟨_, _, _, _, _, _, _, hctx⟩, honly, hcounted, hqueues, hblocks, hlanes, htaken, hframe⟩ :=
      (countStepped_staleTested hl').goesOn
    rw [ctx_staleTested hl', if_pos rfl] at hctx
    refine ⟨_, _, ht, fun hraised => (exec_silenceLimit hs (hcount ▸ hl) hraised).trans ht, by rw [hctx, hs],
      by rw [hctx], by rw [hctx, hnext], by rw [hctx], ?_, ?_, honly, htaken, by rw [hctx], hcounted, hblocks, hlanes,
      hframe⟩
    · rw [hqueues, queueOf_staleTested hl']
      simp
    · rw [hqueues, queueOf_staleTested hl']
      simp
  · have hl' : (s.ctx i.val).silenceLimit ≤ (s.ctx i.val).silenceNext := by rw [hnext]; omega
    have hconv : (s.ctx i.val).converting = true := (converting_iff _).2 (.inr hs)
    have hrecord := ctx_discardWork_self s i.val
    have hcounts : (s.discardWork i.val).stepCounts i.val = (s.staleTested i.val).enterClosed i.val .silence := by
      rw [stepCounts_silence (by rw [hrecord]; exact hs) (by rw [hrecord]; exact hh), hrecord]
      exact if_pos ((silenceCloses_iff _).2 ⟨ha, hnext ▸ hl⟩)
    have ht := exec_boundaryClaim_closes hp hd hconv hcounts
    obtain ⟨hctx, honly, hreleased, hqueues, htaken, hframe⟩ := (countStepped_staleTested hl').closes .silence
    have hreserved := hreleased.reserved
    rw [hconv, if_pos rfl] at hreserved
    refine ⟨_, (exec_silenceRetire hs (hcount ▸ hl) ha).trans ht, ht, ?_, hreserved, ?_, fun hmatch q => ?_, honly,
      hreleased, htaken, hframe⟩
    · rw [hctx, ctx_staleTested hl', if_pos rfl, hnext]
    · rw [hqueues]
      by_cases hm : i.val ∈ (s.staleTested i.val).queueOf (s.ctx i.val).owner <;> simp [hm]
    · rw [hqueues, queueOf_closed hmatch hl']

end Sys2Proof.Machine
end

section
/-! SUPPORT. The sweep orders (R150, R157, R158), each from the state in which it is taken: the record the body of SWEEP
spells, the fields that spell none, and what replaces the port's record. -/

namespace Sys2Proof.Machine

open State

/-! ### The selector of a SWEEP body (R151, R187) -/

/-- A criterion in range: present where its bit is set. -/
theorem criterion_eq {pr v : Byte} {bit top : Nat} (h : pr.getLsbD bit = true → v.toNat ≤ top) :
    criterion pr bit v top = some (if pr.getLsbD bit then some v.toNat else none) := by
  unfold criterion
  by_cases hb : pr.getLsbD bit = true
  · rw [if_pos hb, if_pos hb, if_pos (h hb)]
  · rw [if_neg hb, if_neg hb]

theorem criterion_none {pr v : Byte} {bit top : Nat} (hb : pr.getLsbD bit = true) (hv : top < v.toNat) :
    criterion pr bit v top = none := by
  unfold criterion
  rw [if_pos hb, if_neg (Nat.not_le.2 hv)]

/-- The state set in range: present where its bit is set. -/
theorem stateCriterion_eq {pr v : Byte} (h : pr.getLsbD 0 = true → v ≠ 0 ∧ v.toNat < 64) :
    stateCriterion pr v = some (if pr.getLsbD 0 then some (v.setWidth 6) else none) := by
  unfold stateCriterion
  by_cases hb : pr.getLsbD 0 = true
  · obtain ⟨hne, hlt⟩ := h hb
    rw [if_pos hb, if_pos hb, if_neg (not_or.2 ⟨hne, Nat.not_le.2 hlt⟩), BitVec.ofNat_toNat]
  · rw [if_neg hb, if_neg hb]

theorem stateCriterion_none {pr v : Byte} (hb : pr.getLsbD 0 = true) (hv : v = 0 ∨ 64 ≤ v.toNat) :
    stateCriterion pr v = none := by
  unfold stateCriterion
  rw [if_pos hb, if_pos hv]

theorem selectorOf_spelled {pr st li hi pf py : Byte} {sel : Selector} (h : SelectorSpelled pr st li hi pf py sel) :
    selectorOf pr st li hi pf py = some sel := by
  obtain ⟨hpr, hst, hli, hhi, hpf, hpy, rfl⟩ := h
  unfold selectorOf
  rw [if_neg (Nat.not_le.2 hpr), stateCriterion_eq hst, criterion_eq hli, criterion_eq hhi, criterion_eq hpf,
    criterion_eq hpy]

/-- A selector byte is out of its range: the presence bits, or a criterion that is present (R151). -/
def SelectorOutOfRange (pr st li hi pf py : Byte) : Prop :=
  32 ≤ pr.toNat ∨ pr.getLsbD 0 = true ∧ (st = 0 ∨ 64 ≤ st.toNat) ∨ pr.getLsbD 1 = true ∧ 3 < li.toNat ∨
    pr.getLsbD 2 = true ∧ 63 < hi.toNat ∨ pr.getLsbD 3 = true ∧ 15 < pf.toNat ∨ pr.getLsbD 4 = true ∧ 3 < py.toNat

theorem selectorOf_none {pr st li hi pf py : Byte} (h : SelectorOutOfRange pr st li hi pf py) :
    selectorOf pr st li hi pf py = none := by
  unfold selectorOf
  split
  · rfl
  · next hpr =>
    rcases h.resolve_left hpr with ⟨hb, hv⟩ | ⟨hb, hv⟩ | ⟨hb, hv⟩ | ⟨hb, hv⟩ | ⟨hb, hv⟩
    · simp [stateCriterion_none hb hv]
    all_goals simp [criterion_none hb hv]

/-! ### The action and the stop rule of a SWEEP body (R150, R187) -/

/-- An action's code, with its parameter in range where it has one, spells `a`. -/
def ActionSpelled (code par : Byte) (a : SweepAction) : Prop :=
  code = 0 ∧ a = .retire ∨ code = 1 ∧ a = .hold ∨ code = 2 ∧ a = .resume ∨
    code = 3 ∧ par.toNat ≤ 3 ∧ a = .relink par.toNat ∨ code = 4 ∧ a = .rerateLow ∨
    code = 5 ∧ par.toNat ≤ 3 ∧ a = .setPriority par.toNat ∨ code = 6 ∧ a = .adopt

theorem actionOf_spelled {code par : Byte} {a : SweepAction} (h : ActionSpelled code par a) :
    actionOf code par = some a := by
  rcases h with ⟨rfl, rfl⟩ | ⟨rfl, rfl⟩ | ⟨rfl, rfl⟩ | ⟨rfl, hp, rfl⟩ | ⟨rfl, rfl⟩ | ⟨rfl, hp, rfl⟩ | ⟨rfl, rfl⟩
  · rfl
  · rfl
  · rfl
  · exact if_pos hp
  · rfl
  · exact if_pos hp
  · rfl

theorem actionOf_none {code par : Byte} (h : 6 < code.toNat ∨ (code = 3 ∨ code = 5) ∧ 3 < par.toNat) :
    actionOf code par = none := by
  rcases h with hc | ⟨rfl | rfl, hp⟩
  · unfold actionOf
    split
    case h_8 => rfl
    all_goals omega
  · exact if_neg (Nat.not_le.2 hp)
  · exact if_neg (Nat.not_le.2 hp)

theorem stopRuleOf_spelled {ru : Byte} {rule : StopRule}
    (h : ru = 0 ∧ rule = .never ∨ ru = 1 ∧ rule = .onRefusal ∨ ru = 2 ∧ rule = .onFirstAction) :
    stopRuleOf ru = some rule := by
  rcases h with ⟨rfl, rfl⟩ | ⟨rfl, rfl⟩ | ⟨rfl, rfl⟩ <;> rfl

theorem stopRuleOf_none {ru : Byte} (h : 2 < ru.toNat) : stopRuleOf ru = none := by
  unfold stopRuleOf
  rw [if_neg (by bv_omega), if_neg (by bv_omega), if_neg (by bv_omega)]

/-! ### The record of a SWEEP body (R150) -/

theorem sweepOfFields_none {sel : Option Selector} {a : Option SweepAction} {r : Option StopRule} {start count : Nat}
    (h : sel = none ∨ a = none ∨ r = none ∨ 2047 < start ∨ count = 0 ∨ 2048 < count) :
    sweepOfFields sel a r start count = none := by
  unfold sweepOfFields
  split
  · have hout : ¬ (start ≤ 2047 ∧ 1 ≤ count ∧ count ≤ 2048) := by simp at h; omega
    rw [if_neg hout]
  · rfl

/-- SWEEP with every field in range (R150). -/
theorem sweepOrder_spelled {p : Port} {pr st li hi pf py code par s0 s1 c0 c1 ru : Byte} {sel : Selector}
    {a : SweepAction} {rule : StopRule} (hsel : SelectorSpelled pr st li hi pf py sel) (ha : ActionSpelled code par a)
    (hr : ru = 0 ∧ rule = .never ∨ ru = 1 ∧ rule = .onRefusal ∨ ru = 2 ∧ rule = .onFirstAction)
    (hs : le16 s0 s1 ≤ 2047) (hc : 1 ≤ le16 c0 c1) (hc' : le16 c0 c1 ≤ 2048) (u : State) :
    sweepOrder p [pr, st, li, hi, pf, py, code, par, s0, s1, c0, c1, ru] u =
      startSweep p (sweepRecord a sel rule (le16 s0 s1) (le16 c0 c1)) u := by
  simp only [sweepOrder, selectorOf_spelled hsel, actionOf_spelled ha, stopRuleOf_spelled hr, sweepOfFields,
    if_pos (And.intro hs (And.intro hc hc'))]

/-- SWEEP with a field out of range (R150). -/
theorem sweepOrder_outOfRange {p : Port} {pr st li hi pf py code par s0 s1 c0 c1 ru : Byte}
    (h : SelectorOutOfRange pr st li hi pf py ∨ (6 < code.toNat ∨ (code = 3 ∨ code = 5) ∧ 3 < par.toNat) ∨
      2 < ru.toNat ∨ 2047 < le16 s0 s1 ∨ le16 c0 c1 = 0 ∨ 2048 < le16 c0 c1) (u : State) :
    sweepOrder p [pr, st, li, hi, pf, py, code, par, s0, s1, c0, c1, ru] u = refuse .badField u := by
  simp only [sweepOrder,
    sweepOfFields_none (h.imp selectorOf_none (Or.imp actionOf_none (Or.imp_left stopRuleOf_none)))]

/-! ### The orders, answered -/

/-- An order that replaces its port's sweep record is answered and changes nothing else. -/
theorem setSweep_respond (u : State) (p : Port) (code tag : Byte) (b : RespBody) (v : Sweep) :
    (respond p code tag ⟨.ok, b, u.setSweep p v⟩).sweepOf p = v ∧
      (respond p code tag ⟨.ok, b, u.setSweep p v⟩).sweepOf p.other = u.sweepOf p.other ∧
      Answered u (respond p code tag ⟨.ok, b, u.setSweep p v⟩) p code tag .ok b ∧
      respond p code tag ⟨.ok, b, u.setSweep p v⟩ = { u with
        sweeps := (respond p code tag ⟨.ok, b, u.setSweep p v⟩).sweeps
        ports := (respond p code tag ⟨.ok, b, u.setSweep p v⟩).ports } :=
  ⟨(sweepOf_setSweep u p p v).trans (if_pos rfl), (sweepOf_setSweep u p p.other v).trans (if_neg p.other_ne),
    answered_respond u p code tag _ rfl, rfl⟩

/-- Settles O51: each order by the state of the record it finds (`setSweep_respond`), and SWEEP by whether its fields
spell a record (`sweepOrder_spelled`, `sweepOrder_outOfRange`). -/
theorem sweepOrders : Obligations.SweepOrders := by
  intro p tag s hs
  refine ⟨fun pr st li hi pf py sel code par s0 s1 c0 c1 ru a rule u hu hsel ha hr hstart hone hmax => ?_,
    fun pr st li hi pf py code par s0 s1 c0 c1 ru u hu hbad => ?_, fun u hu => ?_, fun u hu hst => ?_,
    fun u hu hst => ?_⟩
  · refine ⟨_, exec_eq_respond rfl (by decide) hs hu (sweepOrder_spelled hsel ha hr hstart hone hmax u), fun hst => ?_,
      fun hst => ?_⟩
    · rw [startSweep, if_pos hst]
      exact refused_respond u p _ tag _
    · rw [startSweep, if_neg hst]
      exact setSweep_respond u p _ tag _ _
  · have hout : SelectorOutOfRange pr st li hi pf py ∨ (6 < code.toNat ∨ (code = 3 ∨ code = 5) ∧ 3 < par.toNat) ∨
        2 < ru.toNat ∨ 2047 < le16 s0 s1 ∨ le16 c0 c1 = 0 ∨ 2048 < le16 c0 c1 := by
      simpa only [SelectorOutOfRange, or_assoc] using hbad
    exact ⟨_, exec_eq_respond rfl (by decide) hs hu (sweepOrder_outOfRange hout u), refused_respond u p _ tag _⟩
  · by_cases hst : (u.sweepOf p).state = .running
    · have ht : takeOrder p .sweepAbort [] u = _ := if_pos hst
      obtain ⟨hown, hother, hans, hframe⟩ := setSweep_respond u p OrderCode.sweepAbort.byte tag
        (.sweep { u.sweepOf p with state := .suspended, stopReason := .aborted })
        { u.sweepOf p with state := .suspended, stopReason := .aborted }
      exact ⟨_, exec_eq_respond rfl (by decide) hs hu ht, fun _ => hown, fun h => absurd hst h, hother,
        hown.symm ▸ hans, hframe⟩
    · have ht : takeOrder p .sweepAbort [] u = _ := if_neg hst
      obtain ⟨hframe, hans⟩ := read_respond u p OrderCode.sweepAbort.byte tag (.sweep (u.sweepOf p))
      exact ⟨_, exec_eq_respond rfl (by decide) hs hu ht, fun h => absurd h hst, fun _ => rfl, rfl, hans, hframe⟩
  · have ht : takeOrder p .sweepContinue [] u = _ := if_pos hst
    obtain ⟨hown, hother, hans, hframe⟩ := setSweep_respond u p OrderCode.sweepContinue.byte tag
      (.sweep { u.sweepOf p with state := .running, stopReason := .none })
      { u.sweepOf p with state := .running, stopReason := .none }
    exact ⟨_, exec_eq_respond rfl (by decide) hs hu ht, hown, hother, hown.symm ▸ hans, hframe⟩
  · have ht : takeOrder p .sweepContinue [] u = refuse .wrongState u := if_neg hst
    exact ⟨_, exec_eq_respond rfl (by decide) hs hu ht, refused_respond u p _ tag _⟩

end Sys2Proof.Machine
end

section
/-! SUPPORT. The visits of a sweep (R151 to R155): its actions as the orders they name and what these leave alone, the
match, the counts of a visit, and how it ends. -/

namespace Sys2Proof.Machine

open State

/-! ### The actions as orders (R152) -/

theorem takeOrder_setPriority {p : Port} {i0 i1 g n : Byte} {u : State} (h : Owned u p i0 i1 g) (hn : n.toNat ≤ 3) :
    takeOrder p .setPriority [i0, i1, g, n] u = prioritize (le16 i0 i1) n.toNat u :=
  ownerChecked_fields p i0 i1 g _ (decide_eq_true hn) u (fun i => prioritize i n.toNat u) h

theorem takeOrder_adopt {p : Port} {i0 i1 g : Byte} {u : State} (h : Named u i0 i1 g) :
    takeOrder p .adopt [i0, i1, g] u = adoptContext p (le16 i0 i1) u :=
  named_eq i0 i1 g u (fun i => adoptContext p i u) h

/-- The lowest index of a permitted set is its least. -/
theorem lowestPermitted_eq {c : Ctx} {set : RateSet} {r : Nat} (h : c.permitted = some set)
    (hr : set.getLsbD r = true) (hmin : ∀ x, set.getLsbD x = true → r ≤ x) : c.lowestPermitted = r := by
  unfold Ctx.lowestPermitted
  rw [h]
  exact headD_of_least set.indices_sorted ((RateSet.mem_indices set r).2 hr) fun x hx =>
    hmin x ((RateSet.mem_indices set x).1 hx)

/-- SET_RATE of a context without a permitted set is refused whatever the index (log 28). -/
theorem setRateOf_noSet {i : Nat} {u : State} (r : Nat) (h : (u.ctx i).permitted = none) :
    setRateOf i r u = refuse (if (u.ctx i).state = .closed then .wrongState else .badField) u := by
  have hno : (u.ctx i).permits r = false := by
    unfold Ctx.permits
    rw [h]
  unfold setRateOf
  by_cases hc : (u.ctx i).state = .closed
  · rw [if_pos hc, if_pos hc]
  · rw [if_neg hc, if_neg hc, if_pos hno]

/-! ### What an action leaves alone -/

/-- From `s` to `t` neither a sweep record nor a port changed. -/
structure SweepsPortsKept (s t : State) : Prop where
  sweeps : t.sweeps = s.sweeps
  ports : t.ports = s.ports

theorem sweepsPortsKept_holdContext (i : Nat) (s : State) : SweepsPortsKept s (holdContext i s).after := by
  unfold holdContext
  split
  · exact ⟨enterHeld_sweeps .., enterHeld_ports ..⟩
  · exact ⟨enterHeld_sweeps .., enterHeld_ports ..⟩
  · split <;> exact ⟨rfl, rfl⟩
  all_goals exact ⟨rfl, rfl⟩

theorem sweepsPortsKept_resumeContext (i : Nat) (s : State) : SweepsPortsKept s (resumeContext i s).after := by
  unfold resumeContext
  split
  · exact ⟨rfl, rfl⟩
  · split <;> exact ⟨rfl, rfl⟩

theorem sweepsPortsKept_relinkContext (i link : Nat) (s : State) :
    SweepsPortsKept s (relinkContext i link s).after := by
  unfold relinkContext relinkFrom placePrimary
  split
  · exact ⟨rfl, rfl⟩
  · split
    · split
      · exact ⟨rfl, rfl⟩
      · split
        · exact ⟨rfl, rfl⟩
        · exact ⟨removeStreamOpt_sweeps .., removeStreamOpt_ports ..⟩
    · exact ⟨rfl, rfl⟩

theorem sweepsPortsKept_setRateOf (i r : Nat) (s : State) : SweepsPortsKept s (setRateOf i r s).after := by
  unfold setRateOf setRatePending setRateAtOnce
  split
  · exact ⟨rfl, rfl⟩
  · split
    · exact ⟨rfl, rfl⟩
    · split
      · split <;> exact ⟨rfl, rfl⟩
      · split <;> exact ⟨rfl, rfl⟩

theorem sweepsPortsKept_prioritize (i n : Nat) (s : State) : SweepsPortsKept s (prioritize i n s).after := by
  unfold prioritize
  split <;> exact ⟨rfl, rfl⟩

theorem sweepsPortsKept_adoptContext (p : Port) (i : Nat) (s : State) :
    SweepsPortsKept s (adoptContext p i s).after := by
  unfold adoptContext
  split
  · exact ⟨rfl, rfl⟩
  · split
    · exact ⟨moveQueued_sweeps .., moveQueued_ports ..⟩
    · exact ⟨rfl, rfl⟩

theorem sweepsPortsKept_applyAction (p : Port) (a : SweepAction) (i : Nat) (s : State) :
    SweepsPortsKept s (applyAction p a i s).after := by
  cases a with
  | retire => exact ⟨enterFree_sweeps (s.countFor .retire i) i, enterFree_ports (s.countFor .retire i) i⟩
  | hold => exact sweepsPortsKept_holdContext i s
  | resume => exact sweepsPortsKept_resumeContext i s
  | relink l => exact sweepsPortsKept_relinkContext i l s
  | rerateLow => exact sweepsPortsKept_setRateOf i _ s
  | setPriority n => exact sweepsPortsKept_prioritize i n s
  | adopt => exact sweepsPortsKept_adoptContext p i s

/-! ### The match (R151) -/

theorem meets_iff (x f : Option Nat) : meets x f = true ↔ ∀ v, x = some v → f = some v := by
  cases x <;> simp [meets]

theorem candidate_iff (p : Port) (a : SweepAction) (c : Ctx) : candidate p a c = true ↔
    (a = .adopt → c.owner = p.other ∧ c.orphaned = true) ∧ (a ≠ .adopt → c.owner = p) := by
  cases a <;> simp [candidate]

theorem selects_iff (sel : Selector) (c : Ctx) : sel.selects c = true ↔
    (∀ set, sel.states = some set → set.getLsbD c.state.code = true) ∧
    (∀ l, sel.link = some l → ∃ k, c.primary = some k ∧ k.link = l) ∧
    (∀ h, sel.highway = some h → ∃ b, c.slot = some b ∧ b.slot / 32 = h) ∧
    (∀ n, sel.profile = some n → c.profile = some n) ∧
    ∀ n, sel.priority = some n → c.priority = n := by
  obtain ⟨states, link, highway, profile, priority⟩ := sel
  cases states <;> simp [Selector.selects, meets_iff, and_assoc]

theorem matchesSweep_iff (p : Port) (a : SweepAction) (sel : Selector) (c : Ctx) :
    matchesSweep p a sel c = true ↔ SweepMatches p a sel c := by
  unfold matchesSweep SweepMatches
  simp only [Bool.and_eq_true, candidate_iff, selects_iff, decide_eq_true_eq, and_assoc]

/-! ### The record a visit leaves (R153 to R155) -/

/-- The record with the counts of a visit's action; a visit that made none counts nothing (R153). -/
def Sweep.noted (v : Sweep) : Option Result → Sweep
  | none => v
  | some r => v.counted r

/-- The record a visit leaves, by its action's result. -/
def Sweep.afterVisit (v : Sweep) (o : Option Result) : Sweep := (v.noted o).advanced.tested o

/-- An action answered OK is counted acted. -/
theorem noted_ok (v : Sweep) {r : Result} (h : r = .ok) :
    v.noted (some r) = { v with matched := v.matched + 1, acted := v.acted + 1 } := if_pos h

/-- A refused action is counted refused, with its context and result as the last refusal. -/
theorem noted_refused (v : Sweep) {r : Result} (h : r ≠ .ok) : v.noted (some r) =
    { v with matched := v.matched + 1, refused := v.refused + 1, lastRefusal := some (v.cursor, r) } := if_neg h

theorem noted_matched (v : Sweep) (r : Result) : (v.noted (some r)).matched = v.matched + 1 := by
  by_cases h : r = .ok
  · rw [noted_ok v h]
  · rw [noted_refused v h]

theorem noted_frame (v : Sweep) (o : Option Result) : v.noted o = { v with
    matched := (v.noted o).matched, acted := (v.noted o).acted, refused := (v.noted o).refused,
    lastRefusal := (v.noted o).lastRefusal } := by
  cases o with
  | none => rfl
  | some r =>
    by_cases h : r = .ok
    · rw [noted_ok v h]
    · rw [noted_refused v h]

theorem afterVisit_frame (v : Sweep) (o : Option Result) : v.afterVisit o = { v with
    state := (stopOf v.advanced o).1, cursor := v.cursor + 1, remaining := v.remaining - 1, visited := v.visited + 1,
    matched := (v.noted o).matched, acted := (v.noted o).acted, refused := (v.noted o).refused,
    lastRefusal := (v.noted o).lastRefusal, stopReason := (stopOf v.advanced o).2 } := by
  unfold Sweep.afterVisit
  rw [noted_frame]
  rfl

theorem advanced_remaining (v : Sweep) : v.advanced.remaining = v.remaining - 1 := rfl
theorem advanced_cursor (v : Sweep) : v.advanced.cursor = v.cursor + 1 := rfl

theorem advanced_remaining_ne {v : Sweep} (h : 2 ≤ v.remaining) : v.advanced.remaining ≠ 0 := by
  rw [advanced_remaining]
  omega

theorem advanced_cursor_ne {v : Sweep} (h : v.cursor < 2047) : v.advanced.cursor ≠ 2048 := by
  rw [advanced_cursor]
  omega

/-! ### How a visit ends (R155) -/

/-- A sweep that runs on has no stop reason. -/
theorem stopOf_running {v : Sweep} {o : Option Result} (h : (stopOf v o).1 = .running) : (stopOf v o).2 = .none := by
  have hpair : stopOf v o = (.running, .none) ∨ (stopOf v o).1 ≠ .running := by
    unfold stopOf
    split
    · simp
    · split
      · simp
      · split
        · split <;> simp
        · split <;> simp
        · simp
  rw [hpair.resolve_right (not_not.2 h)]

theorem stopOf_count {v : Sweep} (o : Option Result) (h : v.remaining = 0) : stopOf v o = (.idle, .count) := if_pos h

theorem stopOf_endOfTable {v : Sweep} (o : Option Result) (hr : v.remaining ≠ 0) (hc : v.cursor = 2048) :
    stopOf v o = (.idle, .endOfTable) := (if_neg hr).trans (if_pos hc)

section
variable {v : Sweep} (hr : v.remaining ≠ 0) (hc : v.cursor ≠ 2048)
include hr hc

theorem stopOf_noAction : stopOf v none = (.running, .none) := by
  unfold stopOf
  rw [if_neg hr, if_neg hc]
  cases v.stopRule with
  | none => rfl
  | some rule => cases rule <;> rfl

theorem stopOf_never (hrule : v.stopRule = some .never) (o : Option Result) : stopOf v o = (.running, .none) := by
  unfold stopOf
  rw [if_neg hr, if_neg hc, hrule]

/-- STOP_ON_REFUSAL suspends the sweep at a refused action, and at no other. -/
theorem stopOf_onRefusal (hrule : v.stopRule = some .onRefusal) (x : Result) :
    stopOf v (some x) = if x = .ok then (.running, .none) else (.suspended, .refusal) := by
  unfold stopOf
  rw [if_neg hr, if_neg hc, hrule]

/-- STOP_ON_FIRST_ACTION suspends the sweep at an action answered OK, and at no other. -/
theorem stopOf_onFirstAction (hrule : v.stopRule = some .onFirstAction) (x : Result) :
    stopOf v (some x) = if x = .ok then (.suspended, .firstAction) else (.running, .none) := by
  unfold stopOf
  rw [if_neg hr, if_neg hc, hrule]

end

/-! ### The state a visit leaves (R154, R155) -/

theorem endVisit_frame (u : State) (p : Port) (v : Sweep) :
    u.endVisit p v = { u with sweeps := (u.endVisit p v).sweeps, ports := (u.endVisit p v).ports } := by
  unfold endVisit
  split <;> rfl

theorem sweepOf_endVisit (u : State) (p q : Port) (v : Sweep) :
    (u.endVisit p v).sweepOf q = if q = p then v else u.sweepOf q := by
  unfold endVisit
  split <;> exact sweepOf_setSweep u p q v

theorem ports_endVisit_running {u : State} {p : Port} {v : Sweep} (h : v.state = .running) :
    (u.endVisit p v).ports = u.ports := by
  unfold endVisit
  rw [if_pos h]
  rfl

theorem add_sweepDone (x : PortCondSet) : x.add .sweepDone = x ||| 0x01#6 := congrArg (x ||| ·) (by decide)

/-- The end or suspension of a sweep raises SWEEP_DONE at its own port (R155). -/
theorem port_endVisit_done {u : State} {p : Port} {v : Sweep} (h : v.state ≠ .running) (q : Port) :
    (u.endVisit p v).port q =
      if q = p then { u.port p with conds := (u.port p).conds ||| 0x01#6 } else u.port q := by
  unfold endVisit
  rw [if_neg h, port_raisePort, add_sweepDone]
  rfl

/-- The state of the part after a visit's action and its result: the action's at a match, else none (R152). -/
structure VisitActs (s : State) (m : Prop) (r : Taken) (u : State) (o : Option Result) : Prop where
  atMatch : m → u = r.after ∧ o = some r.result
  atOther : ¬ m → u = s ∧ o = none

/-- A visit in the midst of the table and the count lets the sweep run on, but for the two suspensions (R155). -/
theorem VisitActs.goesOn {s u : State} {m : Prop} {r : Taken} {o : Option Result} {v : Sweep} (h : VisitActs s m r u o)
    (hr : v.remaining ≠ 0) (hc : v.cursor ≠ 2048) (hrule : ¬ m ∨ v.stopRule = some .never ∨
      v.stopRule = some .onRefusal ∧ r.result = .ok ∨ v.stopRule = some .onFirstAction ∧ r.result ≠ .ok) :
    stopOf v o = (.running, .none) := by
  by_cases hm : m
  · obtain ⟨-, rfl⟩ := h.atMatch hm
    rcases hrule.resolve_left (not_not.2 hm) with hn | ⟨hn, hres⟩ | ⟨hn, hres⟩
    · exact stopOf_never hr hc hn _
    · exact (stopOf_onRefusal hr hc hn _).trans (if_pos hres)
    · exact (stopOf_onFirstAction hr hc hn _).trans (if_neg hres)
  · obtain ⟨-, rfl⟩ := h.atOther hm
    exact stopOf_noAction hr hc

/-- A visit of a RUNNING sweep: the action at a match, then the record (R154). -/
theorem exec_sweepVisit {p : Port} {s : State} {a : SweepAction} {sel : Selector} (hp : s.pinHeld = false)
    (hst : (s.sweepOf p).state = .running) (ha : (s.sweepOf p).action = some a)
    (hsel : (s.sweepOf p).selector = some sel) :
    ∃ u o, exec (.sweepVisit p) s = .next (u.endVisit p ((s.sweepOf p).afterVisit o)) ∧ SweepsPortsKept s u ∧
      VisitActs s (SweepMatches p a sel (s.ctx (s.sweepOf p).cursor)) (applyAction p a (s.sweepOf p).cursor s) u o := by
  have hvisit : exec (.sweepVisit p) s = .next (s.visitWith p a sel) := by
    refine (runs_released _ hp).trans (congrArg _ ?_)
    unfold visit
    rw [hst, ha, hsel]
  by_cases hm : SweepMatches p a sel (s.ctx (s.sweepOf p).cursor)
  · exact ⟨_, some _, hvisit.trans (congrArg _ (if_pos ((matchesSweep_iff ..).2 hm))),
      sweepsPortsKept_applyAction p a _ s, fun _ => ⟨rfl, rfl⟩, fun h => absurd hm h⟩
  · exact ⟨s, none, hvisit.trans (congrArg _ (if_neg (mt (matchesSweep_iff ..).1 hm))), ⟨rfl, rfl⟩,
      fun h => absurd h hm, fun _ => ⟨rfl, rfl⟩⟩

/-- Settles O52: each action is its order behind the checks, and a visit leaves what `exec_sweepVisit` says, the record's
counts by `noted` and its end by `stopOf`. -/
theorem sweepVisits : Obligations.SweepVisits := by
  refine ⟨fun p s i i0 i1 g hi => ?_, fun p s v a sel r hp hv hst ha hsel hr => ?_⟩
  · subst hi
    refine ⟨fun hn => (takeOrder_adopt hn).symm, fun ho => ⟨(takeOrder_retire ho).symm, (takeOrder_hold ho).symm,
      (takeOrder_resume ho).symm, fun l hl => (takeOrder_relink ho hl).symm,
      fun n hn => (takeOrder_setPriority ho hn).symm, fun set b hset hb hmin => ?_, setRateOf_noSet _⟩⟩
    have hb7 : b.toNat ≤ 7 := Nat.lt_succ_iff.1 (BitVec.lt_of_getLsbD hb)
    rw [takeOrder_setRate ho hb7, ← lowestPermitted_eq hset hb hmin]
    rfl
  · subst hv hr
    obtain ⟨u, o, ht, hkept, hacts⟩ := exec_sweepVisit hp hst ha hsel
    generalize s.sweepOf p = v at *
    have hrec := ((sweepOf_endVisit u p p (v.afterVisit o)).trans (if_pos rfl)).trans (afterVisit_frame v o)
    have hother := (sweepOf_endVisit u p p.other (v.afterVisit o)).trans (if_neg p.other_ne)
    have hstate := congrArg Sweep.state (afterVisit_frame v o)
    have hport : ∀ q, u.port q = s.port q := port_congr hkept.ports
    refine ⟨_, ht, ?_⟩
    rw [hrec]
    refine ⟨rfl, rfl, rfl, hother.trans (sweepOf_congr hkept.sweeps _), ha, hsel, rfl, fun hm => ?_, fun hm => ?_,
      fun hrun => ⟨stopOf_running hrun, (ports_endVisit_running (hstate.trans hrun)).trans hkept.ports⟩,
      fun hrun => ⟨?_, ?_⟩, fun hrem => ?_, fun hrem hcur => ?_, fun hrem hcur hrule hm hres => ?_,
      fun hrem hcur hrule hm hres => ?_, fun hrem hcur hrule => ?_⟩
    · obtain ⟨rfl, rfl⟩ := hacts.atOther hm
      exact ⟨rfl, rfl, rfl, rfl, endVisit_frame ..⟩
    · obtain ⟨rfl, rfl⟩ := hacts.atMatch hm
      refine ⟨noted_matched .., fun hres => ?_, fun hres => ?_, endVisit_frame ..⟩
      · rw [noted_ok v hres]
        exact ⟨rfl, rfl, rfl⟩
      · rw [noted_refused v hres]
        exact ⟨rfl, rfl, rfl⟩
    · rw [port_endVisit_done (hstate.trans_ne hrun), if_pos rfl, hport]
    · rw [port_endVisit_done (hstate.trans_ne hrun), if_neg p.other_ne, hport]
    · exact Prod.ext_iff.1 (stopOf_count o (by rw [advanced_remaining, hrem]))
    · exact Prod.ext_iff.1 (stopOf_endOfTable o (advanced_remaining_ne hrem) (by rw [advanced_cursor, hcur]))
    · obtain ⟨-, rfl⟩ := hacts.atMatch hm
      have hstop := stopOf_onRefusal (advanced_remaining_ne hrem) (advanced_cursor_ne hcur) hrule
      exact Prod.ext_iff.1 ((hstop _).trans (if_neg hres))
    · obtain ⟨-, rfl⟩ := hacts.atMatch hm
      have hstop := stopOf_onFirstAction (advanced_remaining_ne hrem) (advanced_cursor_ne hcur) hrule
      exact Prod.ext_iff.1 ((hstop _).trans (if_pos hres))
    · have hstop := hacts.goesOn (advanced_remaining_ne hrem) (advanced_cursor_ne hcur) hrule
      exact congrArg Prod.fst hstop

end Sys2Proof.Machine
end

section
/-! SUPPORT. Frames and orders at a port (R162 to R166, R171, R172, R177): renewal by the state an order finds, an order
behind its checks, the frames that are no order, and HARD RESET. -/

namespace Sys2Proof.Machine

open State

/-! ### Renewal (R171, R172) -/

namespace State

/-- A frame that does not renew its port: only the receive phase moved (R171). -/
theorem atOrder_quiet {s : State} {p : Port} {code : Byte} (hstrict : (s.port p).sup.settings.strict = true)
    (hcode : code ≠ 0x01) : s.atOrder p code = s.setRx p .hunt := by
  have hquiet : (s.setRx p .hunt).renews p code = false := by
    simp only [renews, setRx, port_setPort, if_true, hstrict, Bool.not_true, Bool.false_or]
    exact decide_eq_false hcode
  unfold atOrder renew
  rw [hquiet]
  rfl

/-- A frame that renews its port (R171). -/
theorem atOrder_renewed {s : State} {p : Port} {code : Byte}
    (h : (s.port p).sup.settings.strict = false ∨ code = 0x01) : s.atOrder p code = (s.setRx p .hunt).renewal p := by
  have hrenews : (s.setRx p .hunt).renews p code = true := by
    rcases h with h | h <;> simp [renews, setRx, h, OrderCode.byte]
  unfold atOrder renew
  rw [if_pos hrenews]

theorem port_renewal (s : State) (p : Port) :
    (s.renewal p).port p = { s.port p with sup := { (s.port p).sup with state := .live, count := 0 } } := by
  unfold renewal
  split <;> simp [setSup, raisePort]

/-- At the other port a renewal raises PARTNER_LIVE, where this one was SILENT (R172). -/
theorem port_other_renewal (s : State) (p : Port) : (s.renewal p).port p.other =
    if (s.port p).sup.state = .silent then { s.port p.other with conds := (s.port p.other).conds ||| 0x20#6 }
    else s.port p.other := by
  unfold renewal
  split
  · simp [setSup, raisePort, PortCondSet.add, PortCond.bit]
    rfl
  · simp [setSup]

theorem ctx_renewal (s : State) (p : Port) (i : Nat) : (s.renewal p).ctx i =
    if (s.port p).sup.state = .silent then
      if (s.ctx i).state ≠ .free ∧ (s.ctx i).owner = p then { s.ctx i with orphaned := false } else s.ctx i
    else s.ctx i := by
  unfold renewal
  split
  · exact ctx_setOrphans (s.setSup p _) p false i
  · rfl

/-- A renewal writes the ports and the orphaned flags alone. -/
theorem renewal_frame (s : State) (p : Port) :
    s.renewal p = { s with ports := (s.renewal p).ports, ctxs := (s.renewal p).ctxs } := by
  unfold renewal
  split <;> rfl

end State

/-- Settles O3: the frame renews its port or does not, and a renewal is one of a SILENT port or not. -/
theorem goodFrameRenews : Obligations.GoodFrameRenews := by
  intro s u p code hu
  refine ⟨fun ⟨hstrict, hcode⟩ => ?_, fun h => ?_⟩
  · rw [hu, atOrder_quiet hstrict hcode]
    exact ⟨by simp [setRx], by simp [setRx], rfl⟩
  · rw [hu, atOrder_renewed h]
    refine ⟨?_, ?_, fun hs => ⟨?_, fun i => ?_⟩, fun hs => ⟨?_, fun i => ?_⟩⟩
    · rw [port_renewal]
      simp [setRx]
    · rw [renewal_frame]
      rfl
    · rw [port_other_renewal]
      simp [setRx, hs]
    · rw [ctx_renewal]
      simp [setRx, hs]
    · rw [port_other_renewal]
      simp [setRx, hs]
    · rw [ctx_renewal, if_pos (by simp [setRx, hs])]
      rfl

/-! ### An order behind its checks (R164) -/

/-- A refused order changes nothing but the two tallies' counts (R164). -/
structure Taken.KeepsIfRefused (u : State) (r : Taken) : Prop where
  kept : r.result ≠ .ok → r.after = { u with
    tally0 := { u.tally0 with count := r.after.tally0.count }
    tally1 := { u.tally1 with count := r.after.tally1.count } }

namespace Taken.KeepsIfRefused

theorem refused (u : State) (e : Result) : (refuse e u).KeepsIfRefused u := ⟨fun _ => rfl⟩

theorem granted (u t : State) (b : RespBody) : (⟨.ok, b, t⟩ : Taken).KeepsIfRefused u :=
  ⟨fun h => absurd rfl h⟩

theorem unchanged (u : State) (e : Result) (b : RespBody) : (⟨e, b, u⟩ : Taken).KeepsIfRefused u := ⟨fun _ => rfl⟩

/-- A refused admission is counted (R58, R181). -/
theorem counted (u : State) (e : Result) (b : RespBody) (k : Event) (i : Nat) :
    (⟨e, b, u.countFor k i⟩ : Taken).KeepsIfRefused u := .mk fun _ => by
  show u.setTallies (u.tally0.step k (some (u.handleOf i))) (u.tally1.step k (some (u.handleOf i))) = _
  rw [Tally.step_eq u.tally0, Tally.step_eq u.tally1]
  rfl

theorem named {u : State} {act : Nat → Taken} (h : ∀ i, (act i).KeepsIfRefused u) (i0 i1 g : Byte) (b : Bool) :
    (Machine.named i0 i1 g b u act).KeepsIfRefused u := by
  unfold Machine.named
  split
  · exact refused u _
  · split
    · exact refused u _
    · exact h _

theorem ownerChecked {u : State} {act : Nat → Taken} (h : ∀ i, (act i).KeepsIfRefused u) (p : Port) (i0 i1 g : Byte)
    (b : Bool) : (Machine.ownerChecked p i0 i1 g b u act).KeepsIfRefused u :=
  named (fun i => by
    unfold Machine.owned
    split
    · exact h i
    · exact refused u _) i0 i1 g b

theorem ite {u : State} {r r' : Taken} (c : Prop) [Decidable c] (h : r.KeepsIfRefused u) (h' : r'.KeepsIfRefused u) :
    (if c then r else r').KeepsIfRefused u := by
  split
  · exact h
  · exact h'

/-- The state after a refusal, with the counts it moved to. -/
theorem exists_counts {u : State} {r : Taken} (h : r.KeepsIfRefused u) (hres : r.result ≠ .ok) : ∃ a b, r.after =
    { u with tally0 := { u.tally0 with count := a }, tally1 := { u.tally1 with count := b } } := ⟨_, _, h.kept hres⟩

theorem answered {u : State} {r : Taken} (h : r.KeepsIfRefused u) (p : Port) (code tag : Byte) (hres : r.result ≠ .ok) :
    Answered u (respond p code tag r) p code tag r.result r.body := by
  obtain ⟨a, b, hr⟩ := h.exists_counts hres
  exact answered_respond u p code tag r (by rw [hr])

theorem respond_eq {u : State} {r : Taken} (h : r.KeepsIfRefused u) (p : Port) (code tag : Byte) (hres : r.result ≠ .ok) :
    respond p code tag r = { u with
      ports := (respond p code tag r).ports
      tally0 := { u.tally0 with count := (respond p code tag r).tally0.count }
      tally1 := { u.tally1 with count := (respond p code tag r).tally1.count } } := by
  obtain ⟨a, b, hr⟩ := h.exists_counts hres
  obtain ⟨result, body, after⟩ := r
  subst hr
  rfl

end Taken.KeepsIfRefused

open Taken.KeepsIfRefused

theorem keepsIfRefused_setRatesetOf (i : Nat) (set : RateSet) (u : State) : (setRatesetOf i set u).KeepsIfRefused u := by
  unfold setRatesetOf
  split
  · exact .refused u _
  · split
    · exact .refused u _
    · unfold replaceRateset moveRateset
      exact .ite _ (.ite _ (.granted u _ _) (.ite _ (.granted u _ _) (.ite _ (.counted u _ _ _ _) (.granted u _ _))))
        (.refused u _)

/-- An order about one context, behind checks 3 to 5, which is refused or granted (R164). -/
theorem keepsIfRefused_ownerOrder (p : Port) (c : OrderCode) (body : List Byte) (u : State) (hc : ownerOrder c = true) :
    (takeOrder p c body u).KeepsIfRefused u := by
  cases c <;> first | (cases hc; done) | simp only [takeOrder]
  case retire =>
    unfold retireOrder; split
    · exact .ownerChecked (fun i => .granted u _ _) ..
    · exact .refused u _
  case arm =>
    unfold armOrder armContext; split
    · exact .ownerChecked (fun i => .ite _ (.refused u _) (.ite _ (.refused u _) (.ite _ (.counted u _ _ _ _)
        (.granted u _ _)))) ..
    · exact .refused u _
  case hold =>
    unfold holdOrder; split
    · refine .ownerChecked (fun i => ?_) ..
      unfold holdContext
      split
      case h_3 => exact .ite _ (.granted u _ _) (.granted u _ _)
      case h_1 | h_2 => exact .granted u _ _
      all_goals exact .refused u _
    · exact .refused u _
  case resume =>
    unfold resumeOrder resumeContext; split
    · exact .ownerChecked (fun i => .ite _ (.refused u _) (.ite _ (.counted u _ _ _ _) (.granted u _ _))) ..
    · exact .refused u _
  case setPriority =>
    unfold setPriorityOrder prioritize; split
    · exact .ownerChecked (fun i => .ite _ (.refused u _) (.granted u _ _)) ..
    · exact .refused u _
  case bindSlot =>
    unfold bindSlotOrder bindSlotTo; split
    · refine .ownerChecked (fun i => .ite _ (.refused u _) ?_) ..
      split
      · exact .ite _ (.granted u _ _) (.refused u _)
      · exact .granted u _ _
    · exact .refused u _
  case bindStream =>
    unfold bindStreamOrder bindStreamTo; split
    · refine .ownerChecked (fun i => .ite _ (.refused u _) ?_) ..
      split
      · exact .ite _ (.granted u _ _) (.refused u _)
      · exact .granted u _ _
    · exact .refused u _
  case unbindSlot =>
    unfold unbindSlotOrder unbindSlotOf; split
    · refine .ownerChecked (fun i => .ite _ (.refused u _) ?_) ..
      split <;> exact .granted u _ _
    · exact .refused u _
  case unbindStream =>
    unfold unbindStreamOrder unbindStreamOf; split
    · refine .ownerChecked (fun i => .ite _ (.refused u _) ?_) ..
      split <;> exact .granted u _ _
    · exact .refused u _
  case relink =>
    unfold relinkOrder relinkContext relinkFrom; split
    · refine .ownerChecked (fun i => .ite _ (.refused u _) ?_) ..
      split
      · refine .ite _ (.granted u _ _) ?_
        split
        · exact .refused u _
        · exact .granted u _ _
      · exact .refused u _
    · exact .refused u _
  case setProfile =>
    unfold setProfileOrder setProfileOf; split
    · refine .ownerChecked (fun i => .ite _ (.refused u _) ?_) ..
      split
      · exact .refused u _
      · exact .granted u _ _
    · exact .refused u _
  case setRateset =>
    unfold setRatesetOrder; split
    · exact .ownerChecked (fun i => keepsIfRefused_setRatesetOf i _ u) ..
    · exact .refused u _
  case setRate =>
    unfold setRateOrder setRateOf setRatePending setRateAtOnce; split
    · exact .ownerChecked (fun i => .ite _ (.refused u _) (.ite _ (.refused u _)
        (.ite _ (.ite _ (.granted u _ _) (.granted u _ _)) (.ite _ (.granted u _ _) (.granted u _ _))))) ..
    · exact .refused u _
  case handoverPrepare =>
    unfold handoverPrepareOrder prepareHandover; split
    · exact .ownerChecked (fun i => .ite _ (.refused u _) (.ite _ (.refused u _) (.granted u _ _))) ..
    · exact .refused u _
  case handoverCommit =>
    unfold handoverCommitOrder commitHandover; split
    · refine .ownerChecked (fun i => ?_) ..
      split
      · exact .refused u _
      · exact .granted u _ _
    · exact .refused u _
  case handoverCancel =>
    unfold handoverCancelOrder cancelHandover; split
    · refine .ownerChecked (fun i => ?_) ..
      split
      · exact .refused u _
      · exact .granted u _ _
    · exact .refused u _
  case setSupervision =>
    unfold setSupervisionOrder setSupervisionOf; split
    · exact .ownerChecked (fun i => .ite _ (.refused u _) (.granted u _ _)) ..
    · exact .refused u _
  case setLevel =>
    unfold setLevelOrder setLevelOf; split
    · exact .ownerChecked (fun i => .ite _ (.refused u _) (.granted u _ _)) ..
    · exact .refused u _
  case setPlayout =>
    unfold setPlayoutOrder setPlayoutOf; split
    · exact .ownerChecked (fun i => .ite _ (.refused u _) (.granted u _ _)) ..
    · exact .refused u _

/-- Every other order: of the part, of a port, or one that reads. -/
theorem keepsIfRefused_partOrder (p : Port) (c : OrderCode) (body : List Byte) (u : State) (hc : ownerOrder c = false) :
    (takeOrder p c body u).KeepsIfRefused u := by
  cases c <;> first | (cases hc; done) | simp only [takeOrder]
  case keepalive =>
    unfold keepaliveOrder; split
    · exact .granted u _ _
    · exact .refused u _
  case superviseSet =>
    unfold superviseSetOrder; split
    · split
      · exact .granted u _ _
      · exact .refused u _
    · exact .refused u _
  case notices =>
    unfold noticesOrder; split
    · exact .granted u _ _
    · exact .refused u _
  case batch => exact .refused u _
  case reset =>
    unfold resetOrder; split
    · exact .ite _ (.granted u _ _) (.ite _ (.granted u _ _) (.refused u _))
    · exact .refused u _
  case adopt =>
    unfold adoptOrder adoptContext; split
    · exact .named (fun i => .ite _ (.granted u _ _) (.ite _ (.granted u _ _) (.refused u _))) ..
    · exact .refused u _
  case openContext =>
    unfold openOrder openAt; split
    · split
      · exact .ite _ (.granted u _ _) (.refused u _)
      · exact .refused u _
    · exact .refused u _
  case query =>
    unfold queryOrder; split
    · exact .named (fun i => .granted u _ _) ..
    · exact .refused u _
  case profileLoad =>
    unfold profileLoadOrder; split
    · refine .ite _ (.refused u _) (.ite _ (.refused u _) ?_)
      split
      · unfold loadProfile
        split
        · exact .refused u _
        · exact .refused u _
        · exact .granted u _ _
      · exact .refused u _
    · exact .refused u _
  case profileClear =>
    unfold profileClearOrder clearProfile; split
    · refine .ite _ (.refused u _) ?_
      split
      · exact .refused u _
      · exact .granted u _ _
      · exact .ite _ (.unchanged u _ _) (.granted u _ _)
    · exact .refused u _
  case profileRead =>
    unfold profileReadOrder; split
    · exact .ite _ (.refused u _) (.granted u _ _)
    · exact .refused u _
  case levelDefaults =>
    unfold levelDefaultsOrder; split
    · split
      · exact .granted u _ _
      · exact .refused u _
    · exact .refused u _
  case laneService =>
    unfold laneServiceOrder laneOut laneIn laneReply; split
    · refine .ite _ (.refused u _) (.ite _ ?_ (.ite _ ?_ (.refused u _)))
      · split <;> exact .granted u _ _
      · split <;> exact .granted u _ _
    · exact .refused u _
  case faultRead =>
    unfold faultReadOrder; split
    · exact .granted u _ _
    · exact .refused u _
  case sweep =>
    unfold sweepOrder startSweep; split
    · split
      · exact .ite _ (.refused u _) (.granted u _ _)
      · exact .refused u _
    · exact .refused u _
  case sweepAbort =>
    unfold sweepAbortOrder; split
    · exact .ite _ (.granted u _ _) (.granted u _ _)
    · exact .refused u _
  case sweepContinue =>
    unfold sweepContinueOrder; split
    · exact .ite _ (.granted u _ _) (.refused u _)
    · exact .refused u _
  case sweepStatus =>
    unfold sweepStatusOrder; split
    · split
      · exact .granted u _ _
      · exact .refused u _
    · exact .refused u _
  case tallySet =>
    unfold tallySetOrder; split
    · split
      · exact .granted u _ _
      · exact .refused u _
    · exact .refused u _
  case tallyRead =>
    unfold tallyReadOrder; split
    · exact .granted u _ _
    · exact .refused u _
  case inspect =>
    unfold inspectOrder; split
    · exact .ite _ (.granted u _ _) (.refused u _)
    · exact .refused u _

theorem keepsIfRefused_takeOrder (p : Port) (c : OrderCode) (body : List Byte) (u : State) :
    (takeOrder p c body u).KeepsIfRefused u := by
  cases hc : ownerOrder c with
  | true => exact keepsIfRefused_ownerOrder p c body u hc
  | false => exact keepsIfRefused_partOrder p c body u hc

/-- A row whose order the port takes, but BATCH: the order as it is taken, answered in the port's line (R163). -/
theorem exec_eq_respond_takeOrder {i : Instr} {f : OrderFrame} {s u : State} (ho : i.order = some f)
    (hb : f.code ≠ .batch) (hs : s.takes f.port = true) (hu : u = s.atOrder f.port f.code.byte) :
    exec i s = .next (respond f.port f.code.byte f.tag (takeOrder f.port f.code f.body u)) :=
  exec_eq_respond (p := f.port) (tag := f.tag) (c := f.code) (body := f.body) ho hb hs hu rfl

/-- Settles O4: a row is its good frame (`exec_order`), and no order that is refused changes more than the tallies'
counts (`keepsIfRefused_takeOrder`). -/
theorem refusedOrdersChangeNothing : Obligations.RefusedOrdersChangeNothing := by
  refine ⟨fun i f s ho hpin => ?_, fun i f s u ho hb hs hu => exec_eq_respond_takeOrder ho hb hs hu,
    fun p code body s => ⟨fun c hc => by unfold takeCode; rw [hc], fun hc => by unfold takeCode; rw [hc]; rfl⟩,
    fun i f s u ho hb hs hu hres => ⟨_, exec_eq_respond_takeOrder ho hb hs hu, ?_, ?_⟩⟩
  · rw [exec_order i f ho s, runs, if_neg (by simp [hpin])]
  · exact (keepsIfRefused_takeOrder f.port f.code f.body u).answered f.port _ _ hres
  · exact (keepsIfRefused_takeOrder f.port f.code f.body u).respond_eq f.port _ _ hres

end Sys2Proof.Machine
end

section
/-! SUPPORT. Checks 3 to 5 in their sequence (R164, R9, R174), frames that are no order (R162, R163, R166), HARD RESET
(R163, R177) and port supervision (R171, R172). -/

namespace Sys2Proof.Machine

open State

/-! ### The checks, failed (R164) -/

theorem named_out_of_range {i0 i1 : Byte} (h : 2047 < le16 i0 i1) (g : Byte) (b : Bool) (u : State)
    (act : Nat → Taken) : named i0 i1 g b u act = refuse .badField u := if_pos (Or.inl h)

theorem named_stale {i0 i1 g : Byte} {u : State} (hi : le16 i0 i1 ≤ 2047)
    (h : (u.ctx (le16 i0 i1)).gen ≠ g ∨ (u.ctx (le16 i0 i1)).state = .free) (act : Nat → Taken) :
    named i0 i1 g true u act = refuse .staleHandle u := by
  unfold named
  rw [if_neg (by simpa using hi), if_pos h]

theorem owned_not_owner {p : Port} {i : Nat} {u : State} (h : (u.ctx i).owner ≠ p) (act : Taken) :
    owned p i u act = refuse .notOwner u := if_neg h

/-- What an order whose body is a handle alone does at context `i`, once its checks have passed. -/
def handleAct (p : Port) (u : State) (i : Nat) : OrderCode → Taken
  | .retire => retireContext i u
  | .query => ⟨.ok, .query (u.report i), u⟩
  | .adopt => adoptContext p i u
  | .arm => armContext i u
  | .hold => holdContext i u
  | .resume => resumeContext i u
  | .unbindSlot => unbindSlotOf i u
  | .unbindStream => unbindStreamOf i u
  | .handoverCommit => commitHandover i u
  | .handoverCancel => cancelHandover i u
  | _ => refuse .badLength u

/-- QUERY and ADOPT are behind checks 3 and 4 alone (R9, R174). -/
theorem takeOrder_handle_named (p : Port) {c : OrderCode} (i0 i1 g : Byte) (u : State) (hc : c ∈ [.query, .adopt]) :
    takeOrder p c [i0, i1, g] u = named i0 i1 g true u fun i => handleAct p u i c := by
  simp only [List.mem_cons, List.not_mem_nil, or_false] at hc
  rcases hc with rfl | rfl <;> rfl

/-- The other orders whose body is a handle are behind check 5 too (R164). -/
theorem takeOrder_handle_owned (p : Port) {c : OrderCode} (i0 i1 g : Byte) (u : State)
    (hc : c ∈ [.retire, .arm, .hold, .resume, .unbindSlot, .unbindStream, .handoverCommit, .handoverCancel]) :
    takeOrder p c [i0, i1, g] u = ownerChecked p i0 i1 g true u fun i => handleAct p u i c := by
  simp only [List.mem_cons, List.not_mem_nil, or_false] at hc
  rcases hc with rfl | rfl | rfl | rfl | rfl | rfl | rfl | rfl <;> rfl

/-- The orders whose body is a handle, by whether check 5 is theirs. -/
theorem takeOrder_handle (p : Port) {c : OrderCode} (i0 i1 g : Byte) (u : State)
    (hc : c ∈ [.retire, .query, .adopt, .arm, .hold, .resume, .unbindSlot, .unbindStream, .handoverCommit,
      .handoverCancel]) :
    (∃ act, takeOrder p c [i0, i1, g] u = named i0 i1 g true u act) ∧
      (c ≠ .query → c ≠ .adopt → ∃ act, takeOrder p c [i0, i1, g] u = ownerChecked p i0 i1 g true u act) := by
  by_cases h : c ∈ [OrderCode.query, .adopt]
  · refine ⟨⟨_, takeOrder_handle_named p i0 i1 g u h⟩, fun hq ha => ?_⟩
    simp [hq, ha] at h
  · have howned := takeOrder_handle_owned p (c := c) i0 i1 g u (by
      simp only [List.mem_cons, List.not_mem_nil, or_false] at hc h ⊢
      tauto)
    exact ⟨⟨_, howned⟩, fun _ _ => ⟨_, howned⟩⟩

/-- Settles O5: the row is its order, answered (`exec_eq_respond_takeOrder`), and its order is behind the checks
(`takeOrder_handle`), of which the first that fails refuses it. -/
theorem handleChecksInSequence : Obligations.HandleChecksInSequence := by
  intro i f s u i0 i1 g ho hbody hmem hs hu
  have hb : f.code ≠ .batch := fun h => by simp [h] at hmem
  have hexec := exec_eq_respond_takeOrder ho hb hs hu
  rw [hbody] at hexec
  obtain ⟨⟨act, hnamed⟩, howned⟩ := takeOrder_handle f.port i0 i1 g u hmem
  have hrefused : ∀ e, takeOrder f.port f.code [i0, i1, g] u = refuse e u →
      Answered u (respond f.port f.code.byte f.tag (takeOrder f.port f.code [i0, i1, g] u)) f.port f.code.byte f.tag e
        .nothing ∧
      respond f.port f.code.byte f.tag (takeOrder f.port f.code [i0, i1, g] u) = { u with
        ports := (respond f.port f.code.byte f.tag (takeOrder f.port f.code [i0, i1, g] u)).ports } := fun e he => by
    rw [he]
    exact refused_respond u f.port _ f.tag e
  refine ⟨_, hexec, fun hi => ?_, fun hi hstale => ?_, fun hq ha hn hown => ?_⟩
  · exact hrefused _ (hnamed.trans (named_out_of_range hi g true u act))
  · exact hrefused _ (hnamed.trans (named_stale hi hstale act))
  · obtain ⟨act', hact'⟩ := howned hq ha
    exact hrefused _ (hact'.trans ((named_eq i0 i1 g u _ hn).trans (owned_not_owner hown _)))

/-! ### The claim that completes a frame (R162, R163, R166) -/

theorem runs_held {s : State} (h : s.pinHeld = true) (t : State) : runs s t = .next s := by
  unfold runs
  rw [if_pos h]

theorem frameWaits_setRx (s : State) (p : Port) (r : Rx) : (s.setRx p r).frameWaits p = s.frameWaits p := by
  simp [frameWaits, setRx]

theorem lineFull_setRx (s : State) (p : Port) (r : Rx) : (s.setRx p r).lineFull p = s.lineFull p := by
  simp [lineFull, setRx]

theorem lineFull_eq (s : State) (p : Port) : s.lineFull p = decide (8 ≤ (s.port p).line.length) := rfl

/-- A port's record written twice. -/
theorem setPort_setPort (s : State) (p : Port) (v w : PortState) : (s.setPort p v).setPort p w = s.setPort p w := by
  cases p <;> rfl

/-- The order's claim leaves a port with a HARD RESET ordered alone (R177, log 12). -/
theorem onFrame_resetPending {s : State} {p : Port} (h : (s.port p).resetPending = true) (f : Frame)
    (take : State → State) : onFrame p f take s = s := if_pos h

/-- A frame behind a batch, or behind frames held, joins the held ones (R166). -/
theorem onFrame_held {s : State} {p : Port} (hr : (s.port p).resetPending = false) (hw : s.frameWaits p = true)
    (hroom : (s.port p).heldFrames.length < 8) (f : Frame) (take : State → State) :
    onFrame p f take s =
      s.setPort p { s.port p with rx := .hunt, heldFrames := (s.port p).heldFrames ++ [f] } := by
  unfold onFrame holdFrame
  rw [if_neg (by simp [hr]), if_pos hw, if_pos (by simpa [setRx, Config.lineDepth] using hroom)]
  unfold setRx
  rw [port_setPort, if_pos rfl, setPort_setPort]

/-- Behind 8 held frames a frame is dropped (R166). -/
theorem onFrame_dropped {s : State} {p : Port} (hr : (s.port p).resetPending = false) (hw : s.frameWaits p = true)
    (hfull : 8 ≤ (s.port p).heldFrames.length) (f : Frame) (take : State → State) :
    onFrame p f take s = s.setPort p { s.port p with rx := .hunt } := by
  unfold onFrame holdFrame
  rw [if_neg (by simp [hr]), if_pos hw, if_neg (by simpa [setRx, Config.lineDepth] using hfull)]
  rfl

/-- A frame that does not wait is taken, the port back in HUNT (R162). -/
theorem onFrame_taken {s : State} {p : Port} (hr : (s.port p).resetPending = false) (hw : s.frameWaits p = false)
    (f : Frame) (take : State → State) : onFrame p f take s = take (s.setRx p .hunt) := by
  unfold onFrame
  rw [if_neg (by simp [hr]), if_neg (by simp [hw])]

theorem takeGood_lineFull {s : State} {p : Port} (h : s.lineFull p = true) (code : Byte) (carry : State → State) :
    takeGood p code carry s = s := if_pos h

theorem takeBad_lineFull {s : State} {p : Port} (h : s.lineFull p = true) (code tag : Byte) :
    takeBad p code tag s = s := if_pos h

theorem takeGood_room {s : State} {p : Port} (h : s.lineFull p = false) (code : Byte) (carry : State → State) :
    takeGood p code carry s = carry (s.renew p code) := if_neg (by simp [h])

theorem takeBad_room {s : State} {p : Port} (h : s.lineFull p = false) (code tag : Byte) :
    takeBad p code tag s = s.pushResponse p ⟨responseCode code, tag, .badFrame, .single .nothing⟩ :=
  if_neg (by simp [h])

theorem takes_iff (s : State) (p : Port) : s.takes p = true ↔
    s.pinHeld = false ∧ (s.port p).resetPending = false ∧ s.frameWaits p = false ∧ s.lineFull p = false := by
  simp [takes, and_assoc]

/-- A row that completes a frame is the frame's claim, taken as a good or as a spoilt one (R162). -/
theorem exec_completesFrame {i : Instr} {p : Port} {f : Frame} (h : CompletesFrame i p f) (s : State) :
    ∃ take : State → State, (∀ t : State, t.lineFull p = true → take t = t) ∧
      exec i s = runs s (onFrame p f take s) := by
  rcases h with ⟨o, ho, rfl, rfl⟩ | ⟨code, tag, body, rfl, rfl⟩ | ⟨code, tag, rfl, rfl⟩
  · exact ⟨_, fun t ht => takeGood_lineFull ht _ _, exec_order i o ho s⟩
  · exact ⟨_, fun t ht => takeGood_lineFull ht _ _, rfl⟩
  · exact ⟨_, fun t ht => takeBad_lineFull ht _ _, rfl⟩

/-- A code that is no order's is taken as UNKNOWN_ORDER (R164). -/
theorem takeFrame_unknown {code : Byte} (h : OrderCode.ofByte code = none) (p : Port) (tag : Byte) (body : List Byte)
    (u : State) : takeFrame p code tag body u = respond p code tag (refuse .unknownOrder u) := by
  have hb : code ≠ OrderCode.batch.byte := fun hc => by rw [hc, ofByte_byte] at h; cases h
  unfold takeFrame takeCode
  rw [if_neg hb, h]

/-- A frame at a full line is dropped, the port back in HUNT (R163). -/
theorem onFrame_lineFull {s : State} {p : Port} (hr : (s.port p).resetPending = false) (hw : s.frameWaits p = false)
    (hfull : 8 ≤ (s.port p).line.length) (f : Frame) {take : State → State}
    (ht : ∀ t : State, t.lineFull p = true → take t = t) :
    onFrame p f take s = s.setPort p { s.port p with rx := .hunt } := by
  rw [onFrame_taken hr hw]
  exact ht _ ((lineFull_setRx s p .hunt).trans (decide_eq_true hfull))

/-- Settles O6: each frame by what the claim that completes it does (`onFrame_held`, `onFrame_dropped`,
`onFrame_taken`, `onFrame_lineFull`). -/
theorem framesWithoutAnOrder : Obligations.FramesWithoutAnOrder := by
  refine ⟨fun p code tag body s u hc hs hu => ?_, fun p code tag s hs => ?_, fun p n s hn hpin hr => ?_,
    fun p code tag body s hpin hr hw hfull => ?_, fun p good code tag body s hpin hr hfull => ?_,
    fun i p f s hf hpin hr => ⟨fun hw hroom => ?_, fun hw hfull => ?_, fun hw hfull => ?_⟩⟩
  · have hexec : exec (.unknownOrder p code tag body) s = .next (respond p code tag (refuse .unknownOrder u)) := by
      rw [hu, ← takeFrame_unknown hc p tag body]
      exact runs_goodFrame s p code tag body hs
    exact ⟨_, hexec, refused_respond u p code tag .unknownOrder⟩
  · obtain ⟨hpin, hr, hw, hroom⟩ := (takes_iff s p).1 hs
    have hexec : exec (.badFrame p code tag) s =
        .next ((s.setRx p .hunt).pushResponse p ⟨responseCode code, tag, .badFrame, .single .nothing⟩) := by
      rw [← takeBad_room ((lineFull_setRx s p .hunt).trans hroom),
        ← onFrame_taken hr hw ⟨false, code, tag, []⟩ (takeBad p code tag)]
      exact runs_released _ hpin
    exact ⟨_, hexec, rfl, by simp [pushResponse, setRx, responseCode], by simp [pushResponse, setRx]⟩
  · have hlong : ¬ (n ≤ Config.maxBody ∨ (s.port p).resetPending = true) := by
      simp [hr, Config.maxBody, hn]
    exact (runs_released _ hpin).trans (congrArg _ (if_neg hlong))
  · have hevent : s.lineFull p = true ∧ s.frameWaits p = false := ⟨decide_eq_true hfull, hw⟩
    refine (runs_released _ hpin).trans (congrArg _ ((if_pos hevent).trans ?_))
    exact onFrame_lineFull hr hw hfull _ fun t ht => takeGood_lineFull ht _ _
  · have hw : s.frameWaits p = true := by
      have hne : (s.port p).heldFrames ≠ [] := fun h => by simp [h] at hfull
      simp [frameWaits, hne]
    refine (runs_released _ hpin).trans (congrArg _ ((if_pos ⟨hw, hfull⟩).trans ?_))
    cases good
    · exact onFrame_dropped hr hw hfull _ _
    · exact onFrame_dropped hr hw hfull _ _
  · obtain ⟨take, -, hexec⟩ := exec_completesFrame hf s
    rw [hexec, runs_released _ hpin, onFrame_held hr hw hroom]
  · obtain ⟨take, -, hexec⟩ := exec_completesFrame hf s
    rw [hexec, runs_released _ hpin, onFrame_dropped hr hw hfull]
  · obtain ⟨take, htake, hexec⟩ := exec_completesFrame hf s
    rw [hexec, runs_released _ hpin, onFrame_lineFull hr hw hfull f htake]

/-! ### HARD RESET and the response line (R163, R177) -/

theorem responseSent_next {s : State} {p : Port} {r : Response} {rest : List Response}
    (hl : (s.port p).line = r :: rest) (h : (s.port p).resetPending = false ∨ rest ≠ []) :
    s.responseSent p = s.setPort p { s.port p with line := rest } := by
  unfold responseSent
  rw [hl]
  refine if_neg fun hc => ?_
  rcases h with h | h
  · rw [h] at hc
    exact absurd hc.1 (by decide)
  · exact h hc.2

/-- The response of a HARD RESET has left: the reset is performed (R177). -/
theorem responseSent_reset {s : State} {p : Port} {r : Response} (hl : (s.port p).line = [r])
    (h : (s.port p).resetPending = true) : s.responseSent p = s.hardReset := by
  unfold responseSent
  rw [hl]
  exact if_pos ⟨h, rfl⟩

/-- Settles O11: the order leaves its response and stops the port (`onFrame_resetPending`), whose line then drains to the
reset (`responseSent_next`, `responseSent_reset`). -/
theorem hardResetAfterItsResponse : Obligations.HardResetAfterItsResponse := by
  refine ⟨fun p tag s u hs hu => ?_, fun i f s ho hr => ?_, fun p r rest s hpin hl => ⟨fun h => ?_, fun hr hrest => ?_⟩⟩
  · have hexec : exec (.resetHard p tag) s =
        .next (respond p 0x05 tag ⟨.ok, .nothing, u.setPort p { u.port p with resetPending := true }⟩) :=
      exec_eq_respond (c := .reset) (body := [1]) rfl (by decide) hs hu rfl
    exact ⟨_, hexec, rfl, by simp, by simp [responseCode]⟩
  · rw [exec_order i f ho s]
    unfold goodFrame
    rw [onFrame_resetPending hr]
    unfold runs
    split <;> rfl
  · rw [← responseSent_next hl h]
    exact runs_released _ hpin
  · subst hrest
    have hsent : s.responseSent p = { State.reset with pending := s.pending, freeCount := s.freeCount } := by
      rw [responseSent_reset hl hr]
      unfold hardReset
      rw [hpin]
      rfl
    have hdue : s.resetDue p = true := by simp [resetDue, hr, hl]
    rw [← hsent]
    exact ⟨runs_released _ hpin, (runs_released _ hpin).trans (congrArg _ (if_pos hdue))⟩

/-! ### The boundary at a port (R171, R172) -/

namespace State

/-- The state in which the boundary has been noted as taken at port `p` (R82). -/
def portTaken (s : State) (p : Port) : State := s.setTimer { s.timer with portDue := s.timer.portDue.set p false }

theorem portBoundary_due {s : State} {p : Port} (h : s.timer.portDue.get p = true) :
    s.portBoundary p = (s.portTaken p).portBody p := if_pos h

theorem portDue_portTaken (s : State) (p : Port) : (s.portTaken p).timer.portDue.get p = false := by
  cases p <;> rfl

theorem port_portTaken (s : State) (p q : Port) : (s.portTaken p).port q = s.port q := rfl

theorem port_goSilent (s : State) (p : Port) : (s.goSilent p).port p =
    { s.port p with sup := { (s.port p).sup with state := .silent, count := (s.port p).sup.countNext } } := by
  simp [goSilent, setSup, raisePort]

theorem port_other_goSilent (s : State) (p : Port) :
    (s.goSilent p).port p.other = { s.port p.other with conds := (s.port p.other).conds ||| 0x10#6 } := by
  simp [goSilent, setSup, raisePort, PortCondSet.add, PortCond.bit]
  rfl

theorem ctx_goSilent (s : State) (p : Port) (i : Nat) : (s.goSilent p).ctx i =
    if (s.ctx i).state ≠ .free ∧ (s.ctx i).owner = p then { s.ctx i with orphaned := true } else s.ctx i :=
  ctx_setOrphans (s.setSup p _) p true i

/-- With supervision disabled nothing is counted (R171). -/
theorem portBody_disabled {s : State} {p : Port} (h : (s.port p).sup.settings.enabled = false) : s.portBody p = s :=
  if_pos h

/-- A port that does not fall SILENT counts (R171). -/
theorem portBody_counts {s : State} {p : Port} (h : (s.port p).sup.settings.enabled = true)
    (hf : (s.port p).sup.fallsSilent = false) :
    s.portBody p = s.setSup p { (s.port p).sup with count := (s.port p).sup.countNext } := by
  unfold portBody
  rw [if_neg (by simp [h]), if_neg (by simp [hf])]

theorem portBody_silent {s : State} {p : Port} (h : (s.port p).sup.settings.enabled = true)
    (hf : (s.port p).sup.fallsSilent = true) : s.portBody p = s.goSilent p := by
  unfold portBody
  rw [if_neg (by simp [h]), if_pos hf]

end State

/-- A supervised port falls SILENT exactly when its count reaches the limit of its state (R171). -/
theorem fallsSilent_iff {v : Supervision} {limit : Nat} (he : v.settings.enabled = true)
    (hl : v.state = .initial ∧ limit = v.settings.initialLimit ∨ v.state = .live ∧ limit = v.settings.steadyLimit) :
    v.fallsSilent = decide (limit ≤ v.countNext) := by
  rcases hl with ⟨hs, rfl⟩ | ⟨hs, rfl⟩ <;> simp [Supervision.fallsSilent, he, hs]

/-- Settles O45, by whether the port is supervised and whether its count reaches a limit (`portBody_disabled`,
`portBody_counts`, `portBody_silent`). -/
theorem portSupervision : Obligations.PortSupervision := by
  intro p s v next hpin hdue hv hnext
  have hcount : (s.port p).sup.countNext = next := by rw [hnext, hv]; rfl
  have hexec : exec (.portBoundary p) s = .next ((s.portTaken p).portBody p) := by
    rw [← portBoundary_due hdue]
    exact runs_released _ hpin
  have hcounts : v.settings.enabled = true → v.fallsSilent = false → (s.portTaken p).portBody p =
      (s.portTaken p).setSup p { v with count := next } := fun he hf => by
    subst hv
    rw [portBody_counts (s := s.portTaken p) he hf, port_portTaken, hcount]
  refine ⟨fun he => ⟨_, hexec, ?_⟩, fun he hs => ⟨_, hexec, ?_⟩, fun limit he hl =>
    ⟨fun hlt => ⟨_, hexec, ?_⟩, fun hle => ⟨_, ?_, hexec, ?_⟩⟩⟩
  · subst hv
    rw [portBody_disabled (s := s.portTaken p) he]
    exact ⟨rfl, rfl⟩
  · have hf : v.fallsSilent = false := by simp [Supervision.fallsSilent, hs]
    rw [hcounts he hf]
    exact ⟨by simp [setSup, port_portTaken], by simp [setSup, port_portTaken], rfl, rfl⟩
  · have hf : v.fallsSilent = false := by
      rw [fallsSilent_iff he hl, hv, hcount]
      exact decide_eq_false (Nat.not_le.2 hlt)
    rw [hcounts he hf]
    exact ⟨by simp [setSup, port_portTaken], by simp [setSup, port_portTaken], portDue_portTaken s p, rfl, rfl⟩
  · have hf : (s.port p).sup.fallsSilent = true := by
      rw [← hv, fallsSilent_iff he hl, hv, hcount]
      exact decide_eq_true hle
    rw [← hexec]
    exact (runs_released _ hpin).trans ((congrArg _ (if_pos hf)).trans (runs_released _ hpin).symm)
  · subst hv
    have hf : (s.port p).sup.fallsSilent = true := by
      rw [fallsSilent_iff he hl, hcount]
      exact decide_eq_true hle
    rw [portBody_silent (s := s.portTaken p) he hf, ← hcount]
    exact ⟨port_goSilent _ p, port_other_goSilent _ p, ctx_goSilent _ p, portDue_portTaken s p, rfl, rfl⟩

end Sys2Proof.Machine
end

section
/-! SUPPORT. The receive phases of a port (R162, R187): the bytes of an order frame, one INCOMING_BYTE each, walk the phases
and end in the claim of the frame they spell. -/

namespace Sys2Proof.Machine

open State

/-! ### One byte in each phase (R162) -/

theorem exec_incomingByte {s : State} {p : Port} (hpin : s.pinHeld = false) (hr : (s.port p).resetPending = false)
    (b : Byte) : exec (.incomingByte p b) s = .next (s.byteIn p (s.port p).rx b) := by
  refine (runs_released _ hpin).trans (congrArg _ ?_)
  exact if_neg (by simp [hr])

theorem afterLength_long {low high : Byte} (h : 1020 < low.toNat + 256 * high.toNat) : afterLength low high = .hunt :=
  if_pos h

theorem afterLength_fits {low high : Byte} (h : low.toNat + 256 * high.toNat ≤ 1020) :
    afterLength low high = .frame (low.toNat + 256 * high.toNat) [low, high] := if_neg (Nat.not_lt.2 h)

/-! ### The walk through the phases -/

namespace State

/-- The part with port `p` in receive phase `r` and the commands `q` waiting. -/
def receiving (s : State) (p : Port) (r : Rx) (q : List Instr) : State := { s.setRx p r with pending := q }

theorem port_receiving (s : State) (p : Port) (r : Rx) (q : List Instr) :
    (s.receiving p r q).port p = { s.port p with rx := r } := by
  show (s.setRx p r).port p = _
  simp [setRx]

theorem setRx_receiving (s : State) (p : Port) (r r' : Rx) (q : List Instr) :
    (s.receiving p r q).setRx p r' = s.receiving p r' q := by
  unfold setRx
  rw [port_receiving]
  cases p <;> rfl

/-- A port in the phase it is in. -/
theorem receiving_self {s : State} {p : Port} {r : Rx} (h : (s.port p).rx = r) (q : List Instr) :
    s.receiving p r q = { s with pending := q } := by
  subst h
  cases p <;> rfl

end State

/-- A run goes on from the state that its first step ends in. -/
theorem run_succ {M : Host.Core} {k : Nat} {s t : M.State} (h : M.step s = .next t) : M.run (k + 1) s = M.run k t := by
  rw [Host.Core.run, h]

theorem run_next {k : Nat} {s t : State} (h : step s = .next t) :
    Host.Core.run core (k + 1) s = Host.Core.run core k t := run_succ (M := core) h

section

variable {s : State} {p : Port} (hpin : s.pinHeld = false) (hr : (s.port p).resetPending = false)

include hpin hr

/-- One byte taken off the queue. -/
theorem run_byte (k : Nat) (r : Rx) (b : Byte) (q : List Instr) :
    Host.Core.run core (k + 1) (s.receiving p r (.incomingByte p b :: q)) =
      Host.Core.run core k ((s.receiving p r q).byteIn p r b) := by
  have hport := port_receiving s p r q
  have hexec := exec_incomingByte (s := s.receiving p r q) (p := p) hpin (by rw [hport]; exact hr) b
  rw [hport] at hexec
  exact run_next hexec

/-- One byte that moves the phase alone. -/
theorem run_phase (k : Nat) {r r' : Rx} {b : Byte} (q : List Instr) (h : ∀ t : State, t.byteIn p r b = t.setRx p r') :
    Host.Core.run core (k + 1) (s.receiving p r (.incomingByte p b :: q)) =
      Host.Core.run core k (s.receiving p r' q) := by
  rw [run_byte hpin hr, h, setRx_receiving]

/-- Code, tag and body bytes: FRAME until the last of them, then CHECK (R162). -/
theorem run_frame_bytes (n k : Nat) (q : List Instr) (bs acc : List Byte) (hne : bs ≠ [])
    (hlen : acc.length + bs.length = n + 4) :
    Host.Core.run core (bs.length + k) (s.receiving p (.frame n acc) (bs.map (Instr.incomingByte p) ++ q)) =
      Host.Core.run core k (s.receiving p (.check (acc ++ bs) none) q) := by
  induction bs generalizing acc with
  | nil => exact absurd rfl hne
  | cons b bs ih =>
    have hstep := run_phase hpin hr (bs.length + k) (r := .frame n acc) (r' := afterFrameByte n (acc ++ [b])) (b := b)
      (bs.map (Instr.incomingByte p) ++ q) fun t => rfl
    rw [show (b :: bs).length + k = bs.length + k + 1 by simp; omega, List.map_cons, List.cons_append, hstep]
    cases bs with
    | nil =>
      have hlast : afterFrameByte n (acc ++ [b]) = .check (acc ++ [b]) none :=
        if_neg (by simp at hlen ⊢; omega)
      rw [hlast, List.length_nil, Nat.zero_add, List.map_nil, List.nil_append]
    | cons c cs =>
      have hmore : afterFrameByte n (acc ++ [b]) = .frame n (acc ++ [b]) :=
        if_pos (by simp at hlen ⊢; omega)
      rw [hmore, ih (acc ++ [b]) (List.cons_ne_nil c cs) (by simp at hlen ⊢; omega)]
      simp

/-- The bytes of a frame that carries `sum`, from HUNT: the claim of the frame they spell, good where `sum` is the checksum
(R162, R187). -/
theorem run_orderBytes (hrx : (s.port p).rx = .hunt) (code tag : Byte) (body : List Byte) {sum : Nat}
    (rest : List Instr) (hbody : body.length ≤ 1020) (hsum : sum < 65536) :
    Host.Core.run core (orderBytesWith code tag body sum).length
        { s with pending := (orderBytesWith code tag body sum).map (Instr.incomingByte p) ++ rest } =
      .next (completeFrame p (orderSummed code tag body)
        (decide (checksum (orderSummed code tag body) = sum))
        (s.receiving p (.check (orderSummed code tag body) (some (byteOf sum))) rest)) := by
  have hlen : (orderBytesWith code tag body sum).length = (body.length + 2) + 2 + 2 + 1 := by
    simp [orderBytesWith, orderSummed, leBytes]
  have hmap : (orderBytesWith code tag body sum).map (Instr.incomingByte p) ++ rest =
      .incomingByte p 0x5A :: .incomingByte p (byteOf body.length) :: .incomingByte p (byteOf (body.length / 256)) ::
        ((code :: tag :: body).map (Instr.incomingByte p) ++
          [.incomingByte p (byteOf sum), .incomingByte p (byteOf (sum / 256))] ++ rest) := by
    simp [orderBytesWith, orderSummed, leBytes, byteOf]
  have hfits : (byteOf body.length).toNat + 256 * (byteOf (body.length / 256)).toNat = body.length :=
    le16_byteOf (by omega)
  have hlength : afterLength (byteOf body.length) (byteOf (body.length / 256)) =
      .frame body.length [byteOf body.length, byteOf (body.length / 256)] := by
    rw [afterLength_fits (by omega), hfits]
  have hphase : ∀ t : State,
      t.byteIn p (.lengthField (some (byteOf body.length))) (byteOf (body.length / 256)) =
        t.setRx p (.frame body.length [byteOf body.length, byteOf (body.length / 256)]) := fun t =>
    congrArg (t.setRx p) hlength
  have hsummed : [byteOf body.length, byteOf (body.length / 256)] ++ code :: tag :: body = orderSummed code tag body := rfl
  rw [hlen, hmap, ← receiving_self hrx, run_phase hpin hr _ (r' := .lengthField none) _ fun t => rfl,
    run_phase hpin hr _ (r' := .lengthField (some (byteOf body.length))) _ fun t => rfl,
    run_phase hpin hr _ _ hphase]
  have hframe := run_frame_bytes hpin hr body.length 2
    ([.incomingByte p (byteOf sum), .incomingByte p (byteOf (sum / 256))] ++ rest) (code :: tag :: body)
    [byteOf body.length, byteOf (body.length / 256)] (List.cons_ne_nil _ _) (by simp; omega)
  rw [List.append_assoc]
  refine hframe.trans ?_
  rw [hsummed]
  have hlow := run_phase hpin hr 1 (r := .check (orderSummed code tag body) none)
    (r' := .check (orderSummed code tag body) (some (byteOf sum))) (b := byteOf sum)
    (.incomingByte p (byteOf (sum / 256)) :: rest) fun t => rfl
  have hhigh := run_byte hpin hr 0 (.check (orderSummed code tag body) (some (byteOf sum))) (byteOf (sum / 256)) rest
  refine hlow.trans (hhigh.trans ?_)
  show Host.Outcome.next (completeFrame p _ (decide (_ = le16 (byteOf sum) (byteOf (sum / 256)))) _) = _
  rw [le16_byteOf hsum]
  rfl

end

/-- The claim that completes a frame does not read the receive phase (R162). -/
theorem onFrame_receiving {s : State} {p : Port} (hr : (s.port p).resetPending = false) (r : Rx) (q : List Instr)
    (f : Frame) (take : State → State) : onFrame p f take (s.receiving p r q) = onFrame p f take { s with pending := q } := by
  have hport := port_receiving s p r q
  have hwaits : (s.receiving p r q).frameWaits p = State.frameWaits { s with pending := q } p := by
    unfold frameWaits
    rw [hport]
    rfl
  have hset : (s.receiving p r q).setRx p .hunt = State.setRx { s with pending := q } p .hunt := setRx_receiving s p r .hunt q
  have hreset : ((s.receiving p r q).port p).resetPending = false := by rw [hport]; exact hr
  have hreset' : (State.port { s with pending := q } p).resetPending = false := hr
  unfold onFrame
  simp only [hwaits, hset, hreset, hreset', Bool.false_eq_true, if_false]

/-- The bytes that the checksum adds up give the code, the tag and the body back (R187). -/
theorem completeFrame_summed (p : Port) (code tag : Byte) (body : List Byte) (good : Bool) (s : State) :
    completeFrame p (orderSummed code tag body) good s =
      if good then goodFrame p code tag body s else spoiltFrame p code tag s := by
  cases good <;> rfl

theorem checksum_lt (bytes : List Byte) : checksum bytes < 65536 := Nat.mod_lt _ (by decide)

/-- Settles O7: the bytes walk the phases to the frame's claim (`run_orderBytes`), which the phase does not change
(`onFrame_receiving`). -/
theorem incomingBytesMakeTheFrame : Obligations.IncomingBytesMakeTheFrame := by
  refine ⟨fun p code tag body rest s hbody hpin hr hrx => ?_, fun p code tag body sum rest s hbody hsum hne hpin hr hrx => ?_,
    fun p b s hpin hr => ⟨fun hrx hb => ?_, fun hrx hb => ?_, fun hrx => ?_, fun low hrx hlong => ?_,
      fun low hrx hfits => ?_⟩⟩
  · refine (run_orderBytes hpin hr hrx code tag body rest hbody (checksum_lt _)).trans (congrArg _ ?_)
    rw [completeFrame_summed, decide_eq_true rfl, if_pos rfl]
    exact onFrame_receiving hr _ rest _ _
  · refine (run_orderBytes hpin hr hrx code tag body rest hbody hsum).trans (congrArg _ ?_)
    rw [completeFrame_summed, decide_eq_false (Ne.symm hne), if_neg (by decide)]
    exact onFrame_receiving hr _ rest _ _
  · rw [exec_incomingByte hpin hr, hrx]
    exact congrArg _ (if_neg hb)
  · rw [exec_incomingByte hpin hr, hrx]
    exact congrArg _ (if_pos hb)
  · rw [exec_incomingByte hpin hr, hrx]
    rfl
  · rw [exec_incomingByte hpin hr, hrx]
    show Host.Outcome.next (s.setRx p (afterLength low b)) = _
    rw [afterLength_long hlong]
    rfl
  · rw [exec_incomingByte hpin hr, hrx]
    show Host.Outcome.next (s.setRx p (afterLength low b)) = _
    rw [afterLength_fits hfits]
    rfl

end Sys2Proof.Machine
end

section
/-! SUPPORT. BATCH (R165, R166): its body and the sub-orders it spells, the checks of its intake, its sub-orders taken in
turn, and the frames held behind it. -/

namespace Sys2Proof.Machine

open State

/-! ### The body of a BATCH (R165) -/

theorem leBytes_two (n : Nat) : leBytes 2 n = [byteOf n, byteOf (n / 256)] := rfl

theorem flagOf_above {b : Byte} (h : 1 < b.toNat) : flagOf b = none := by
  unfold flagOf
  rw [if_neg (by rintro rfl; exact absurd h (by decide)), if_neg (by rintro rfl; exact absurd h (by decide))]

theorem subOrders_cons {n : Nat} {c l0 l1 : Byte} {rest : List Byte} (h : le16 l0 l1 ≤ rest.length) :
    subOrders (n + 1) (c :: l0 :: l1 :: rest) =
      (subOrders n (rest.drop (le16 l0 l1))).map fun t => (c, rest.take (le16 l0 l1)) :: t := if_pos h

/-- The bytes of sub-orders are read back as them (R165). -/
theorem subOrders_flatMap (subs : List (Byte × List Byte)) (h : ∀ x ∈ subs, x.2.length < 65536) :
    subOrders subs.length (subs.flatMap subOrderBytes) = some subs := by
  induction subs with
  | nil => rfl
  | cons x subs ih =>
    obtain ⟨hx, hrest⟩ := List.forall_mem_cons.1 h
    have hlen : le16 (byteOf x.2.length) (byteOf (x.2.length / 256)) = x.2.length := le16_byteOf hx
    show subOrders (subs.length + 1) (x.1 :: byteOf x.2.length :: byteOf (x.2.length / 256) ::
      (x.2 ++ subs.flatMap subOrderBytes)) = _
    rw [subOrders_cons (by rw [hlen]; simp), hlen, List.drop_left, List.take_left, ih hrest]
    rfl

/-- Sub-orders that are read account for the body (R165). -/
theorem subOrders_some {n : Nat} {body : List Byte} {subs : List (Byte × List Byte)}
    (h : subOrders n body = some subs) :
    body = subs.flatMap subOrderBytes ∧ subs.length = n ∧ ∀ x ∈ subs, x.2.length < 65536 := by
  induction n, body using subOrders.induct generalizing subs with
  | case1 => cases h; simp
  | case2 n c l0 l1 rest hle ih =>
    rw [subOrders_cons hle] at h
    obtain ⟨t, ht, rfl⟩ := Option.map_eq_some_iff.1 h
    obtain ⟨hbody, hlen, hshort⟩ := ih ht
    have htake : (rest.take (le16 l0 l1)).length = le16 l0 l1 := List.length_take_of_le hle
    have hlt : le16 l0 l1 < 65536 := by
      have h0 := l0.isLt
      have h1 := l1.isLt
      unfold le16
      omega
    have hbytes : leBytes 2 (le16 l0 l1) = [l0, l1] := by
      have h0 := l0.isLt
      have h1 := l1.isLt
      rw [leBytes_two]
      unfold le16 byteOf
      congr 1
      · exact BitVec.eq_of_toNat_eq (by simp; omega)
      · congr 1
        exact BitVec.eq_of_toNat_eq (by simp; omega)
    refine ⟨?_, by simp [hlen], List.forall_mem_cons.2 ⟨by simpa [htake] using hlt, hshort⟩⟩
    rw [List.flatMap_cons, ← hbody]
    simp only [subOrderBytes, htake, hbytes]
    simp
  | case3 n c l0 l1 rest hle =>
    unfold subOrders at h
    rw [if_neg hle] at h
    cases h
  | case4 n body h0 hs =>
    rw [subOrders] at h
    · cases h
    · exact h0
    · exact hs

theorem subOrderSize_eq (code : Byte) :
    subOrderSize code = 4 + ((OrderCode.ofByte code).map OrderCode.maxResponse).getD 0 := by
  unfold subOrderSize
  split <;> simp_all

theorem batchSize_eq (subs : List (Byte × List Byte)) : batchSize subs = batchResponseSize subs := by
  unfold batchSize batchResponseSize
  simp only [subOrderSize_eq]

theorem barred_iff (code : Byte) : barred code = true ↔ code = 0x04 ∨ code = 0x05 := by
  unfold barred
  rw [Bool.or_eq_true, decide_eq_true_iff, decide_eq_true_iff]
  rfl

/-! ### The checks of the intake, in their sequence (R165) -/

theorem batchIntake_short {body : List Byte} (h : body.length < 2) (tag : Byte) :
    batchIntake tag body = .error .badLength := by
  rcases body with _ | ⟨f, _ | ⟨n, rest⟩⟩
  · rfl
  · rfl
  · simp at h

theorem batchIntake_unread {n : Byte} {rest : List Byte} (h : subOrders n.toNat rest = none) (tag f : Byte) :
    batchIntake tag (f :: n :: rest) = .error .badLength := by
  unfold batchIntake
  simp only [h]

section

variable {n : Byte} {subs : List (Byte × List Byte)} (hshort : ∀ x ∈ subs, x.2.length < 65536)
  (hlen : subs.length = n.toNat) (tag f : Byte)

include hshort hlen

/-- A body written from its sub-orders is judged by its size, its flag, its count and its codes (R165). -/
theorem batchIntake_read : batchIntake tag (f :: n :: subs.flatMap subOrderBytes) =
    if 1020 < batchResponseSize subs then .error .badLength
    else match flagOf f with
      | none => .error .badField
      | some stop =>
        if n = 0 ∨ 16 < n.toNat ∨ subs.any (fun x => barred x.1) = true then .error .badField
        else .ok ⟨tag, stop, subs, []⟩ := by
  have hread : subOrders n.toNat (subs.flatMap subOrderBytes) = some subs := hlen ▸ subOrders_flatMap subs hshort
  unfold batchIntake
  simp only [hread, batchSize_eq]
  rfl

theorem batchIntake_large (h : 1020 < batchResponseSize subs) :
    batchIntake tag (f :: n :: subs.flatMap subOrderBytes) = .error .badLength := by
  rw [batchIntake_read hshort hlen, if_pos h]

theorem batchIntake_badField (hsize : batchResponseSize subs ≤ 1020)
    (h : 1 < f.toNat ∨ n = 0 ∨ 16 < n.toNat ∨ ∃ x ∈ subs, x.1 = 0x04 ∨ x.1 = 0x05) :
    batchIntake tag (f :: n :: subs.flatMap subOrderBytes) = .error .badField := by
  rw [batchIntake_read hshort hlen, if_neg (Nat.not_lt.2 hsize)]
  rcases h with h | h
  · rw [flagOf_above h]
  · have hbad : n = 0 ∨ 16 < n.toNat ∨ subs.any (fun x => barred x.1) = true := by
      simpa only [List.any_eq_true, barred_iff] using h
    split
    · rfl
    · exact if_pos hbad

end

/-- A BATCH that passes its intake: a flag, 1 to 16 sub-orders, none of them BATCH or RESET, and room for the responses
(R165). -/
theorem batchIntake_ok {subs : List (Byte × List Byte)} (tag : Byte) (stop : Bool) (hmin : 1 ≤ subs.length)
    (hmax : subs.length ≤ 16) (hsubs : ∀ x ∈ subs, x.2.length ≤ 1020 ∧ x.1 ≠ 0x04 ∧ x.1 ≠ 0x05)
    (hsize : batchResponseSize subs ≤ 1020) :
    batchIntake tag (flagByte stop :: byteOf subs.length :: subs.flatMap subOrderBytes) = .ok ⟨tag, stop, subs, []⟩ := by
  have hcount : (byteOf subs.length).toNat = subs.length := toNat_byteOf (by omega)
  have hgood : ¬ (byteOf subs.length = 0 ∨ 16 < (byteOf subs.length).toNat ∨
      subs.any (fun x => barred x.1) = true) := by
    rintro (h | h | h)
    · have hzero : (byteOf subs.length).toNat = 0 := by rw [h]; rfl
      omega
    · omega
    · obtain ⟨x, hx, hb⟩ := List.any_eq_true.1 h
      obtain ⟨-, h4, h5⟩ := hsubs x hx
      exact ((barred_iff x.1).1 hb).elim h4 h5
  rw [batchIntake_read (fun x hx => by have := (hsubs x hx).1; omega) hcount.symm, if_neg (Nat.not_lt.2 hsize),
    flagOf_flagByte]
  exact if_neg hgood

theorem exec_batch {s u : State} {p : Port} (hs : s.takes p = true) (hu : u = s.atOrder p 0x04) (tag : Byte)
    (body : List Byte) : exec (.batch p tag body) s = .next (takeBatch p tag body u) := by
  rw [hu]
  exact runs_goodFrame s p 0x04 tag body hs

theorem takeBatch_error {body : List Byte} {tag : Byte} {r : Result} (h : batchIntake tag body = .error r) (p : Port)
    (u : State) : takeBatch p tag body u = respond p 0x04 tag (refuse r u) := by
  unfold takeBatch
  rw [h]
  rfl

theorem takeBatch_ok {body : List Byte} {tag : Byte} {b : Batch} (h : batchIntake tag body = .ok b) (p : Port)
    (u : State) : takeBatch p tag body u = u.setBatch p (some b) := by
  unfold takeBatch
  rw [h]

/-- A BATCH that its intake refuses is answered and changes nothing (R165). -/
theorem exec_batch_refused {s u : State} {p : Port} (hs : s.takes p = true) (hu : u = s.atOrder p 0x04) {tag : Byte}
    {body : List Byte} {r : Result} (h : batchIntake tag body = .error r) :
    ∃ t, exec (.batch p tag body) s = .next t ∧ Answered u t p 0x04 tag r .nothing ∧ t = { u with ports := t.ports } :=
  ⟨_, (exec_batch hs hu tag body).trans (congrArg _ (takeBatch_error h p u)), refused_respond u p 0x04 tag r⟩

/-- Settles O8: what the body spells passes the intake (`batchIntake_ok`), or is refused by the first check that fails. -/
theorem batchIntakeKeepsSubOrders : Obligations.BatchIntakeKeepsSubOrders := by
  refine ⟨fun p tag stop subs s u hs hu hmin hmax hsubs hsize => ?_, fun p tag body s u hs hu => ⟨fun h => ?_,
    fun f n rest hb hnone => ?_, fun f n subs hb hshort hlen => ⟨fun hsize => ?_, fun hsize hbad => ?_⟩⟩⟩
  · have hok := batchIntake_ok tag stop hmin hmax hsubs hsize
    refine ⟨_, (exec_batch hs hu tag _).trans (congrArg _ (takeBatch_ok hok p u)), rfl, ?_, ?_⟩
    · simp [setBatch]
    · simp [setBatch]
  · exact exec_batch_refused hs hu (batchIntake_short h tag)
  · subst hb
    refine exec_batch_refused hs hu (batchIntake_unread ?_ tag f)
    cases hsub : subOrders n.toNat rest with
    | none => rfl
    | some subs =>
      obtain ⟨hrest, hlen, hshort⟩ := subOrders_some hsub
      exact absurd hrest (hnone subs hshort hlen)
  · subst hb
    exact exec_batch_refused hs hu (batchIntake_large hshort hlen tag f hsize)
  · subst hb
    exact exec_batch_refused hs hu (batchIntake_badField hshort hlen tag f hsize hbad)

/-! ### Sub-orders in turn, then held frames (R166) -/

theorem subOrder_eq {s : State} {p : Port} {b : Batch} {code : Byte} {body : List Byte}
    {rest : List (Byte × List Byte)} (hb : (s.port p).batch = some b) (ht : b.todo = (code, body) :: rest) :
    s.subOrder p = afterSubOrder p b code rest (takeCode p code body s) := by
  unfold subOrder
  simp only [hb, ht]

/-- After a sub-order the ports alone move (R166). -/
theorem afterSubOrder_frame (p : Port) (b : Batch) (code : Byte) (rest : List (Byte × List Byte)) (r : Taken) :
    afterSubOrder p b code rest r = { r.after with ports := (afterSubOrder p b code rest r).ports } ∧
      (afterSubOrder p b code rest r).port p.other = r.after.port p.other := by
  unfold afterSubOrder
  split
  · exact ⟨rfl, by simp [closeBatch, pushResponse, setBatch]⟩
  · split
    · exact ⟨rfl, by simp [closeBatch, pushResponse, setBatch]⟩
    · exact ⟨rfl, by simp [setBatch]⟩

theorem port_closeBatch (s : State) (p : Port) (tag : Byte) (entries : List BatchEntry) :
    (s.closeBatch p tag entries).port p =
      { s.port p with batch := none, line := (s.port p).line ++ [⟨0x84, tag, .ok, .batch entries⟩] } := by
  simp [closeBatch, pushResponse, setBatch]
  rfl

theorem takeHeldFrame_eq {s : State} {p : Port} {f : Frame} {rest : List Frame} (hb : (s.port p).batch = none)
    (hr : (s.port p).resetPending = false) (hf : (s.port p).heldFrames = f :: rest) :
    s.takeHeldFrame p = takeHeld p f (s.setPort p { s.port p with heldFrames := rest }) := by
  unfold takeHeldFrame
  rw [if_neg (by simp [hb, hr]), hf]

/-- Settles O9: a sub-order by how its batch goes on (`subOrder_eq`), a held frame by the line's room and whether it is
good (`takeHeldFrame_eq`). -/
theorem subOrdersThenHeldFrames : Obligations.SubOrdersThenHeldFrames := by
  refine ⟨fun p b code body rest s r hpin hb ht hr => ?_, fun p f rest s v hpin hb hr hf hv => ?_⟩
  · subst hr
    obtain ⟨hframe, hother⟩ := afterSubOrder_frame p b code rest (takeCode p code body s)
    refine ⟨_, (runs_released _ hpin).trans (congrArg _ (subOrder_eq hb ht)), hframe, hother, fun hstop => ?_,
      fun hgo hrest => ?_, fun hgo hrest => ?_⟩
    · unfold afterSubOrder
      rw [if_pos hstop, port_closeBatch]
      rfl
    · subst hrest
      unfold afterSubOrder
      rw [if_neg (fun h => hgo.elim (fun h' => by simp [h'] at h) h.2), port_closeBatch]
    · obtain ⟨x, xs, rfl⟩ := List.exists_cons_of_ne_nil hrest
      unfold afterSubOrder
      rw [if_neg (fun h => hgo.elim (fun h' => by simp [h'] at h) h.2)]
      simp [setBatch]
  · have hport : v.port p = { s.port p with heldFrames := rest } := by rw [hv]; simp
    have hfull : v.lineFull p = decide (8 ≤ (s.port p).line.length) := by rw [lineFull_eq, hport]
    have hexec : exec (.heldFrameTaken p) s = .next (takeHeld p f v) := by
      rw [hv, ← takeHeldFrame_eq hb hr hf]
      exact runs_released _ hpin
    have hroom : (s.port p).line.length < 8 → v.lineFull p = false := fun h => by
      rw [hfull]
      exact decide_eq_false (Nat.not_le.2 h)
    refine ⟨fun hlong => ?_, fun hlt hgood hcode => ?_, fun hlt hgood hcode => ?_, fun hlt hbad => ?_⟩
    · rw [decide_eq_true hlong] at hfull
      rw [hexec]
      unfold takeHeld
      rw [takeGood_lineFull hfull, takeBad_lineFull hfull, ite_self]
    · rw [hexec]
      unfold takeHeld
      rw [if_pos hgood, takeGood_room (hroom hlt)]
      exact congrArg _ (if_neg hcode)
    · rw [hexec]
      unfold takeHeld
      rw [if_pos hgood, takeGood_room (hroom hlt), hcode]
      exact congrArg _ (if_pos rfl)
    · rw [hexec]
      unfold takeHeld
      rw [if_neg (by simp [hbad]), takeBad_room (hroom hlt)]
      rfl

end Sys2Proof.Machine
end

section
/-! SUPPORT. NOTICES (R169, R21) and ADOPT (R174): what delivery leaves of the records and the queues, and an adoption by
the owner it finds. -/

namespace Sys2Proof.Machine

open State

/-! ### NOTICES (R169, R21) -/

/-- A record that has been delivered: a CLOSED one becomes FREE, another has its pending set emptied (R21, R169). -/
def Ctx.afterDelivery (c : Ctx) : Ctx :=
  if c.state = .closed then { c.released with state := .free, gen := c.gen + 1, conds := 0 } else { c with conds := 0 }

namespace State

theorem ctx_deliver (s : State) (i j : Nat) :
    (s.deliver i).ctx j = if j = i then (s.ctx i).afterDelivery else s.ctx j := by
  unfold deliver Ctx.afterDelivery
  split
  · exact ctx_enterFree s i j
  · exact ctx_modCtx s i j _

/-- A delivery leaves the queues in which its index does not stand. -/
theorem queueOf_deliver {s : State} {i : Nat} (h : i ∉ s.queueOf (s.ctx i).owner) (q : Port) :
    (s.deliver i).queueOf q = s.queueOf q := by
  unfold deliver
  split
  · rw [queueOf_enterFree]
    split
    · next hq =>
      subst hq
      exact List.filter_eq_self.2 fun x hx => decide_eq_true fun hxi => h (hxi ▸ hx)
    · rfl
  · rfl

theorem ctx_foldl_deliver (l : List Nat) (hl : l.Nodup) (s : State) (j : Nat) :
    (l.foldl deliver s).ctx j = if j ∈ l then (s.ctx j).afterDelivery else s.ctx j := by
  induction l generalizing s with
  | nil => simp
  | cons i l ih =>
    obtain ⟨hi, hnodup⟩ := List.nodup_cons.1 hl
    rw [List.foldl_cons, ih hnodup, ctx_deliver]
    by_cases hj : j = i
    · subst hj
      simp [hi]
    · simp [hj]

theorem ports_foldl_deliver (l : List Nat) (s : State) : (l.foldl deliver s).ports = s.ports := by
  induction l generalizing s with
  | nil => rfl
  | cons i l ih => rw [List.foldl_cons, ih, deliver_ports]

theorem queueOf_foldl_deliver (l : List Nat) (hl : l.Nodup) (s : State) (h : ∀ i ∈ l, i ∉ s.queueOf (s.ctx i).owner)
    (q : Port) : (l.foldl deliver s).queueOf q = s.queueOf q := by
  induction l generalizing s with
  | nil => rfl
  | cons i l ih =>
    obtain ⟨hi, hnodup⟩ := List.nodup_cons.1 hl
    obtain ⟨hfirst, hrest⟩ := List.forall_mem_cons.1 h
    have hkept := queueOf_deliver hfirst
    have hother : ∀ j ∈ l, (s.deliver i).ctx j = s.ctx j := fun j hj => by
      have hne : j ≠ i := fun h => hi (h ▸ hj)
      rw [ctx_deliver, if_neg hne]
    have hgone : ∀ j ∈ l, j ∉ (s.deliver i).queueOf ((s.deliver i).ctx j).owner := fun j hj => by
      rw [hother j hj, hkept]
      exact hrest j hj
    rw [List.foldl_cons, ih hnodup _ hgone, hkept]

end State

/-- Settles O49: the response is read off, and the delivered records off `ctx_foldl_deliver`. -/
theorem noticesDeliverFromTheHead : Obligations.NoticesDeliverFromTheHead := by
  intro p tag s u hs hu hnodup
  have hexec : exec (.notices p tag []) s = .next (respond p 0x03 tag ⟨.ok, _, _⟩) :=
    exec_eq_respond (c := .notices) (body := []) rfl (by decide) hs hu rfl
  have htake : ((u.queueOf p).take 8).Nodup := hnodup.sublist (List.take_sublist _ _)
  have hctx : ∀ i, ((u.delivered p).foldl deliver (u.takeNotices p)).ctx i =
      if i ∈ (u.queueOf p).take 8 then (u.ctx i).afterDelivery else u.ctx i := ctx_foldl_deliver _ htake _
  have hport : ∀ q, ((u.delivered p).foldl deliver (u.takeNotices p)).port q = (u.takeNotices p).port q :=
    port_congr (ports_foldl_deliver _ _)
  have hnoticed : ∀ q, (u.takeNotices p).port q = if q = p then { u.port p with conds := 0 } else u.port q :=
    fun q => port_setPort u p q _
  refine ⟨_, hexec, ?_, ?_, fun i hi => ?_, fun i hi => ?_, fun howner => ?_⟩
  · rw [port_respond, if_pos rfl, hport, hnoticed, if_pos rfl]
    simp [responseCode, delivered, List.length_drop]
    rfl
  · rw [port_respond, if_neg p.other_ne, hport, hnoticed, if_neg p.other_ne]
  · rw [ctx_respond, hctx, if_pos hi]
    refine ⟨?_, fun hc => ?_, fun hc => ?_⟩
    · unfold Ctx.afterDelivery
      split <;> rfl
    · rw [Ctx.afterDelivery, if_pos hc]
      exact ⟨rfl, rfl⟩
    · exact if_neg hc
  · rw [ctx_respond, hctx, if_neg hi]
  · have htaken : ∀ q, (u.takeNotices p).queueOf q = if q = p then (u.queueOf p).drop 8 else u.queueOf q :=
      fun q => queueOf_setQueue _ p q _
    have hgone : ∀ i ∈ u.delivered p, i ∉ (u.takeNotices p).queueOf ((u.takeNotices p).ctx i).owner := fun i hi => by
      have hi' : i ∈ u.queueOf p := List.mem_of_mem_take hi
      have hown : ((u.takeNotices p).ctx i).owner = p := howner i hi'
      rw [hown, htaken, if_pos rfl]
      exact fun hd => List.disjoint_take_drop hnodup le_rfl hi hd
    have hqueue : ∀ q, ((u.delivered p).foldl deliver (u.takeNotices p)).queueOf q = (u.takeNotices p).queueOf q :=
      queueOf_foldl_deliver _ htake _ hgone
    exact ⟨by rw [queueOf_respond, hqueue, htaken, if_pos rfl],
      by rw [queueOf_respond, hqueue, htaken, if_neg p.other_ne]⟩

/-! ### ADOPT (R174) -/

namespace State

theorem moveQueued_empty {s : State} {i : Nat} (h : (s.ctx i).conds = 0) (p : Port) : s.moveQueued p i = s := if_pos h

/-- An index with a pending set leaves its owner's queue for the tail of the adopter's (R174). -/
theorem queueOf_moveQueued {s : State} {i : Nat} {p : Port} (h : (s.ctx i).conds ≠ 0) (ho : (s.ctx i).owner = p.other) :
    (s.moveQueued p i).queueOf p = (s.queueOf p).filter (· ≠ i) ++ [i] ∧
      (s.moveQueued p i).queueOf p.other = (s.queueOf p.other).filter (· ≠ i) := by
  unfold moveQueued
  rw [if_neg h, ho]
  exact ⟨by simp, by simp [unqueue]⟩

end State

section

variable {u : State} {p : Port} {i : Nat}

theorem adoptContext_own (h : (u.ctx i).owner = p) :
    adoptContext p i u = ⟨.ok, .adopted p (u.ctx i).state (u.ctx i).conds false, u⟩ := if_pos h

variable (ho : (u.ctx i).owner = p.other)

include ho

theorem adoptContext_live (h : (u.port p.other).sup.state ≠ .silent) : adoptContext p i u = refuse .notOwner u := by
  unfold adoptContext
  rw [if_neg (by rw [ho]; exact p.other_ne), if_neg (by simp [silent, h])]

theorem adoptContext_silent (h : (u.port p.other).sup.state = .silent) : adoptContext p i u =
    ⟨.ok, .adopted p.other (u.ctx i).state (u.ctx i).conds (decide ((u.ctx i).conds ≠ 0)),
      (u.moveQueued p i).modCtx i fun c => { c with owner := p, orphaned := u.silent p }⟩ := by
  unfold adoptContext
  rw [if_neg (by rw [ho]; exact p.other_ne), if_pos (show u.silent p.other = true from decide_eq_true h)]

end

/-- Settles O50, by the owner the order finds (`adoptContext_own`, `adoptContext_live`, `adoptContext_silent`). -/
theorem adoptByOwner : Obligations.AdoptByOwner := by
  intro p tag i0 i1 g s u i hs hu hn hi
  have hexec : exec (.adopt p tag [i0, i1, g]) s = .next (respond p 0x06 tag (adoptContext p i u)) := by
    refine exec_eq_respond (c := .adopt) (body := [i0, i1, g]) rfl (by decide) hs hu ?_
    rw [hi]
    exact named_eq i0 i1 g u (fun j => adoptContext p j u) hn
  refine ⟨_, hexec, fun ho => ?_, fun ho hl => ?_, fun ho hl => ?_⟩
  · rw [adoptContext_own ho]
    exact (read_respond u p 0x06 tag _).symm
  · rw [adoptContext_live ho hl]
    exact refused_respond u p 0x06 tag .notOwner
  · rw [adoptContext_silent ho hl]
    have hmoved : ∀ j, (u.moveQueued p i).ctx j = u.ctx j := ctx_congr (by simp)
    refine ⟨?_, fun j hj => ?_, fun hc => ?_, fun hc => queueOf_moveQueued hc ho, ?_, ?_⟩
    · rw [ctx_respond, ctx_modCtx, if_pos rfl, hmoved]
      rfl
    · rw [ctx_respond, ctx_modCtx, if_neg hj, hmoved]
    · rw [moveQueued_empty hc]
      rfl
    · exact answered_respond u p 0x06 tag _ (by simp)
    · unfold moveQueued
      split <;> rfl

end Sys2Proof.Machine
end

section
/-! SUPPORT. What a command can do to the part, said once: the moves it is made of, each with the guard under which it
happens. An invariant that every move keeps is kept by every command. -/

namespace Sys2Proof.Machine

open State

/-! ### The moves -/

/-- The parts of a record that the invariants read stand: only settings, counts and kernel data have moved. -/
structure Ctx.SameParts (c d : Ctx) : Prop where
  state : d.state = c.state
  owner : d.owner = c.owner
  orphaned : d.orphaned = c.orphaned
  priority : d.priority = c.priority
  slot : d.slot.map SlotBinding.slot = c.slot.map SlotBinding.slot
  primary : d.primary = c.primary
  handover : d.handover.map Handover.key = c.handover.map Handover.key
  profile : d.profile = c.profile
  permitted : d.permitted = c.permitted
  rate : d.rate = c.rate
  request : d.request = c.request
  expected : d.expected = c.expected
  queue : d.queue = c.queue
  conds : d.conds = c.conds
  work : d.work = c.work
  ready : d.ready = c.ready
  first : d.firstRemaining.isSome = c.firstRemaining.isSome
  cause : d.holdCause.isSome = c.holdCause.isSome
  heldFrom : d.heldFrom.isSome = c.heldFrom.isSome
  retired : d.retireCause.isSome = c.retireCause.isSome

/-- A rate set a context may be given: not empty, and within the table of its profile (R53, R116). -/
structure State.Allows (s : State) (i : Nat) (set : RateSet) (c : Profile) : Prop where
  profile : s.profileOf i = some c
  nonempty : set ≠ 0
  within : set.within c.table.length = true

/-- The kernel and queue fields, which a playout move may write (R96 to R100). -/
def Ctx.playoutMoved (c d : Ctx) : Ctx :=
  { c with
    expected := d.expected, queue := d.queue, priming := d.priming, noise := d.noise, history := d.history,
    counters := d.counters }

/-- One move of the part. -/
inductive Move : State → State → Prop where
  /-- Registers, blocks, links, tallies and the timer: what no record, map or count depends on. -/
  | registers {s t : State} (h : t = { s with
        capture := t.capture, timer := t.timer, blocks := t.blocks, links := t.links, defaultRound := t.defaultRound,
        tally0 := t.tally0, tally1 := t.tally1, pinHeld := t.pinHeld, freeCount := t.freeCount })
      (hc : s.canonical = true → t.canonical = true) : Move s t
  /-- A port's conditions, its supervision settings and count. -/
  | noted (s : State) (p : Port) (conds : PortCondSet) (sup : Supervision) (h : sup.state = (s.port p).sup.state) :
      Move s (s.setPort p { s.port p with conds := conds, sup := sup })
  | renewed (s : State) (p : Port) : Move s (s.renewal p)
  | silenced (s : State) (p : Port) : Move s (s.goSilent p)
  | sweepSet (s : State) (p : Port) (v : Sweep)
      (h : v.action = (s.sweepOf p).action ∨ ∀ n, v.action = some (.setPriority n) → n ≤ 3) : Move s (s.setSweep p v)
  | settings (s : State) (i : Nat) (d : Ctx) (h : (s.ctx i).SameParts d) : Move s (s.setCtx i d)
  | prioritized (s : State) (i n : Nat) (h : n ≤ 3 ∨ ∃ p, (s.sweepOf p).action = some (.setPriority n)) :
      Move s (s.modCtx i fun c => { c with priority := n })
  | raised (s : State) (i : Nat) (k : Cond) (hf : (s.ctx i).state ≠ .free) (hc : (s.ctx i).state ≠ .closed) :
      Move s (s.raise i k)
  | opened (s : State) (p : Port) (n : Nat) (hn : n ≤ 3) (hl : s.lowestFree < 2048) :
      Move s (s.modCtx s.lowestFree fun c => c.opening p (s.silent p) n)
  | freed (s : State) (i : Nat) (h : (s.ctx i).state ≠ .free) : Move s (s.enterFree i)
  | closed (s : State) (i : Nat) (cause : RetireCause) (h : (s.ctx i).converting = true) :
      Move s (s.enterClosed i cause)
  | reopened (s : State) (i : Nat) (h : (s.ctx i).state = .armed) : Move s (s.returnToOpen i)
  | armed (s : State) (i : Nat) (h : (s.ctx i).state = .opened) (hc : (s.ctx i).complete = true)
      (hfit : s.fits (s.currentCost i) = true) : Move s ((s.reserve (s.currentCost i)).modCtx i Ctx.toArmed)
  | held (s : State) (i : Nat) (cause : HoldCause) (h : (s.ctx i).converting = true) : Move s (s.enterHeld i cause)
  | resumed (s : State) (i : Nat) (h : (s.ctx i).state = .held) (hfit : s.fits (s.currentCost i) = true) :
      Move s (s.leaveHeld i)
  | reheld (s : State) (i : Nat) (h : (s.ctx i).state = .held) :
      Move s (s.modCtx i fun c => { c with holdCause := some .order })
  | lawSet (s : State) (i n : Nat) (law : Law) (h : (s.ctx i).state = .opened) (hn : s.slotEntry n = some i) :
      Move s (s.modCtx i fun c => { c with slot := some ⟨n, law⟩ })
  | slotTaken (s : State) (i n : Nat) (law : Law) (h : (s.ctx i).state = .opened) (hn : s.slotEntry n = none) :
      Move s (takeSlot i n law s)
  | slotLeft (s : State) (i : Nat) (b : SlotBinding) (h : (s.ctx i).state = .opened) (hb : (s.ctx i).slot = some b) :
      Move s ((s.releaseSlot (some b)).modCtx i fun c => { c with slot := none })
  | keyPlaced (s : State) (i : Nat) (k : StreamKey) (hf : (s.ctx i).state ≠ .free) (hc : (s.ctx i).state ≠ .closed)
      (hk : s.findStream k = none) : Move s (placePrimary i k s)
  | keyLeft (s : State) (i : Nat) (k : StreamKey) (h : (s.ctx i).state = .opened) (hk : (s.ctx i).primary = some k) :
      Move s ((s.removeStream k).modCtx i fun c => { c with primary := none })
  | prepared (s : State) (i : Nat) (h : Handover) (hf : (s.ctx i).state ≠ .free) (hc : (s.ctx i).state ≠ .closed)
      (hn : (s.ctx i).handover = none) (hk : s.findStream h.key = none) :
      Move s ((s.addStream h.key i .handover).modCtx i fun c => { c with handover := some h })
  | committed (s : State) (i : Nat) (k : StreamKey)
      (h : (s.ctx i).handover.map Handover.key = some k ∨ ∃ n, s.findStream k = some (n, ⟨k, i, .handover⟩)) :
      Move s (s.commit i k)
  | abandoned (s : State) (i : Nat) (h : Handover) (hh : (s.ctx i).handover = some h) : Move s (s.abandon i h.key)
  | requested (s : State) (i : Nat) (q : Option RateRequest) (h : ∀ x, q = some x → (s.ctx i).converting = true ∧
        ((s.ctx i).request = some x ∨ (s.ctx i).permits x.rate = true ∨
          ∃ set r, (s.ctx i).permitted = some set ∧ x.rate = set.correct r)) :
      Move s (s.modCtx i fun c => { c with request := q })
  | retuned (s : State) (i r : Nat) (h : (s.ctx i).converting = false) (hp : (s.ctx i).permits r = true) :
      Move s (s.retune i r)
  | paid (s : State) (i r : Nat) (h : (s.ctx i).converting = true)
      (hp : (s.ctx i).permits r = true ∨ (s.ctx i).request.map RateRequest.rate = some r)
      (hb : r < (s.ctx i).rate.getD 0 ∨ s.fits (s.costOf i r - s.costOf i ((s.ctx i).rate.getD 0)) = true) :
      Move s (s.retunePaid i r)
  | setKept (s : State) (i : Nat) (set : RateSet) (c : Profile) (ha : s.Allows i set c)
      (h : set.has ((s.ctx i).rate.getD 0) = true) :
      Move s (s.modCtx i fun x =>
        { x with permitted := some set, request := keptRequest set ((s.ctx i).rate.getD 0) x.request })
  | setMoved (s : State) (i : Nat) (set : RateSet) (c : Profile) (ha : s.Allows i set c)
      (hs : (s.ctx i).converting = false) :
      Move s ((s.retune i (set.landing ((s.ctx i).rate.getD 0))).modCtx i fun x =>
        { x with permitted := some set
                 request := keptRequest set (set.landing ((s.ctx i).rate.getD 0)) x.request })
  | setPaid (s : State) (i : Nat) (set : RateSet) (c : Profile) (ha : s.Allows i set c)
      (hs : (s.ctx i).converting = true)
      (hb : set.landing ((s.ctx i).rate.getD 0) ≤ (s.ctx i).rate.getD 0 ∨
        s.fits (s.costOf i (set.landing ((s.ctx i).rate.getD 0)) - s.costOf i ((s.ctx i).rate.getD 0)) = true) :
      Move s ((s.retunePaid i (set.landing ((s.ctx i).rate.getD 0))).modCtx i fun x =>
        { x with permitted := some set
                 request := keptRequest set (set.landing ((s.ctx i).rate.getD 0)) x.request })
  | profileNamed (s : State) (i n : Nat) (set : RateSet) (c : Profile) (h : (s.ctx i).state = .opened)
      (hc : s.contents n = some c) (hs : set ≠ 0) (hw : set.within c.table.length = true) :
      Move s ((moveRef (s.ctx i).profile n s).modCtx i fun x =>
        { x with profile := some n, permitted := some set, rate := some (derivedRate c set), sinceRate := 0 })
  | profileLoaded (s : State) (n : Nat) (c : Profile) (h : (s.profile n).state = .vacant)
      (hc : ascendingCosts c.table = true) : Move s (s.setProfile n { s.profile n with state := .loaded c })
  | profileCleared (s : State) (n : Nat) (h : (s.profile n).refs = 0) :
      Move s (s.setProfile n { s.profile n with state := .vacant })
  | activated (s : State) (i : Nat) (h : (s.ctx i).state = .armed) :
      Move s (s.modCtx i fun c => { c with state := .active, firstRemaining := none })
  | played (s : State) (i : Nat) (d : Ctx) (h : (s.ctx i).state = .active)
      (hw : (s.ctx i).queueInWindow → ((s.ctx i).playoutMoved d).queueInWindow) :
      Move s (s.setCtx i ((s.ctx i).playoutMoved d))
  | workDropped (s : State) (i : Nat) : Move s (s.discardWork i)
  | workStarted (s : State) (i : Nat) (h : (s.ctx i).converting = true) :
      Move s (s.setCtx i { (s.ctx i).uplinkStart.2 with work := some (s.newWork i (s.ctx i).uplinkStart.1) })
  | readyTaken (s : State) (i : Nat) : Move s (s.modCtx i fun c => { c with ready := none })
  | workDone (s : State) (n i : Nat) (w : Work) (hl : (s.lane n).inHand = some i) (hw : (s.ctx i).work = some w) :
      Move s (s.complete n i w)
  | workTaken (s : State) (n i : Nat) (hn : n < 8) (hs : (s.lane n).state = .inService) (hl : (s.lane n).inHand = none)
      (hw : s.workWaits i = true) : Move s (s.setLane n { s.lane n with inHand := some i })
  | laneSet (s : State) (n : Nat) (v : LaneState) (h : v ≠ .outFault ∨ (s.lane n).inHand = none) :
      Move s (s.setLaneState n v)
  | laneLost (s : State) (n : Nat) (v : LaneState) (h : v ≠ .outFault ∨ (s.lane n).inHand = none) :
      Move s (sheddingPass (s.loseLane n v)).after
  | laneBack (s : State) (n : Nat) : Move s (readmissionPass (s.regainLane n)).after
  | noticed (s : State) (p : Port) : Move s ((s.delivered p).foldl State.deliver (s.takeNotices p))
  | adopted (s : State) (p : Port) (i : Nat) (h : (s.ctx i).owner ≠ p) :
      Move s ((s.moveQueued p i).modCtx i fun c => { c with owner := p, orphaned := s.silent p })
  | softReset (s : State) : Move s s.softReset

/-- Moves in turn. -/
def Moves (s t : State) : Prop := Relation.ReflTransGen Move s t

theorem Moves.refl (s : State) : Moves s s := Relation.ReflTransGen.refl

theorem Moves.trans {s t u : State} (h : Moves s t) (h' : Moves t u) : Moves s u := Relation.ReflTransGen.trans h h'

/-- What every move keeps, moves in turn keep. -/
theorem Moves.keeps {P : State → Prop} (h : ∀ s t, Move s t → P s → P t) {s t : State} (hm : Moves s t) : P s → P t := by
  induction hm with
  | refl => exact id
  | tail _ hmove ih => exact fun hs => h _ _ hmove (ih hs)

theorem Move.moves {s t : State} (h : Move s t) : Moves s t := Relation.ReflTransGen.single h

theorem Moves.ite {s t u : State} (c : Prop) [Decidable c] (h : c → Moves s t) (h' : ¬ c → Moves s u) :
    Moves s (if c then t else u) := by
  split
  · next hc => exact h hc
  · next hc => exact h' hc

theorem Moves.foldl {β : Type} {f : State → β → State} (h : ∀ t b, Moves t (f t b)) (l : List β) (s : State) :
    Moves s (l.foldl f s) := by
  induction l generalizing s with
  | nil => exact .refl _
  | cons b l ih => exact (h s b).trans (ih _)

/-! ### Single updates -/

namespace State

theorem moves_count (s : State) (k : Event) (h : Option Handle) : Moves s (s.count k h) :=
  (Move.registers (t := s.count k h) rfl fun hc => hc).moves
theorem moves_countFor (s : State) (k : Event) (i : Nat) : Moves s (s.countFor k i) := moves_count s k _
theorem moves_setBlock (s : State) (n : Nat) (v : SlotBlocks) : Moves s (s.setBlock n v) :=
  (Move.registers rfl (canonical_setBlock s n v)).moves
theorem moves_setLink (s : State) (n : Nat) (v : List OutCell) : Moves s (s.setLink n v) :=
  (Move.registers rfl (canonical_setLink s n v)).moves
theorem moves_drawn (s : State) : Moves s s.drawn := (Move.registers (t := s.drawn) rfl fun hc => hc).moves
theorem moves_markClaimed (s : State) (i : Nat) : Moves s (s.markClaimed i) :=
  (Move.registers rfl (canonical_markClaimed s i)).moves

/-- A timer whose claims are those it had, or none (R82). -/
theorem moves_setTimer (s : State) (v : Timer) (h : v.claimed = s.timer.claimed ∨ v.claimed = []) :
    Moves s (s.setTimer v) := by
  refine (Move.registers rfl fun hc => ?_).moves
  obtain ⟨h1, h2, h3, h4, h5, h6, h7, h8⟩ := (canonical_iff s).1 hc
  refine (canonical_iff _).2 ⟨h1, h2, h3, h4, h5, h6, h7, ?_⟩
  show v.claimed.wf claimDefault = true
  rcases h with h | h
  · rw [h]; exact h8
  · rw [h]; rfl

theorem moves_raisePort (s : State) (p : Port) (k : PortCond) : Moves s (s.raisePort p k) :=
  (Move.noted s p _ (s.port p).sup rfl).moves
theorem moves_raiseBoth (s : State) (k : PortCond) : Moves s (s.raiseBoth k) :=
  (moves_raisePort s .a k).trans (moves_raisePort _ .b k)

/-- A record changed in its settings and counts. -/
theorem moves_settings (s : State) (i : Nat) (f : Ctx → Ctx) (h : (s.ctx i).SameParts (f (s.ctx i))) :
    Moves s (s.modCtx i f) := (Move.settings s i _ h).moves

theorem moves_raiseIf (s : State) (b : Bool) (i : Nat) (k : Cond) (hf : (s.ctx i).state ≠ .free)
    (hc : (s.ctx i).state ≠ .closed) : Moves s (s.raiseIf b i k) := by
  cases b
  · exact .refl _
  · exact (Move.raised s i k hf hc).moves

theorem moves_dropRequest (s : State) (i : Nat) : Moves s (s.dropRequest i) :=
  (Move.requested s i none fun _ h => nomatch h).moves

theorem moves_playBlock (s : State) (i : Nat) (x : Option (List Byte)) : Moves s (s.playBlock i x) := by
  unfold playBlock
  split
  · exact moves_setBlock ..
  · exact .refl _

theorem moves_dropHanded (s : State) (i : Nat) : Moves s (s.dropHanded i) := by
  unfold dropHanded
  split
  · exact moves_setBlock ..
  · exact .refl _

end State

end Sys2Proof.Machine
end

section
/-! SUPPORT. The operations as moves: rates, handovers, boundary claims, cells, lanes, sweeps and orders, each under the
guards its moves ask for. -/

namespace Sys2Proof.Machine

open State

namespace Ctx

theorem converting_iff (c : Ctx) : c.converting = true ↔ c.state = .armed ∨ c.state = .active := by
  unfold converting
  split <;> simp_all

theorem ne_free_of_converting {c : Ctx} (h : c.converting = true) : c.state ≠ .free := by
  rcases (converting_iff c).1 h with h | h <;> simp [h]

theorem ne_closed_of_converting {c : Ctx} (h : c.converting = true) : c.state ≠ .closed := by
  rcases (converting_iff c).1 h with h | h <;> simp [h]

theorem converting_congr {c d : Ctx} (h : d.state = c.state) : d.converting = c.converting := by
  unfold converting
  rw [h]

end Ctx

namespace State

/-! ### The state of a context through the operations of a claim -/

/-- Context `i` keeps its state. -/
structure StateKept (i : Nat) (s t : State) : Prop where
  state : (t.ctx i).state = (s.ctx i).state

theorem StateKept.refl (i : Nat) (s : State) : StateKept i s s := ⟨rfl⟩

theorem StateKept.trans {i : Nat} {s t u : State} (h : StateKept i s t) (h' : StateKept i t u) : StateKept i s u :=
  ⟨h'.state.trans h.state⟩

theorem StateKept.of_ctxs {i : Nat} {s t : State} (h : t.ctxs = s.ctxs) : StateKept i s t :=
  ⟨congrArg Ctx.state (ctx_congr h i)⟩

theorem stateKept_modCtx (s : State) (i : Nat) (f : Ctx → Ctx) (h : (f (s.ctx i)).state = (s.ctx i).state) :
    StateKept i s (s.modCtx i f) :=
  ⟨by rw [ctx_modCtx, if_pos rfl, h]⟩

theorem stateKept_raise (s : State) (i : Nat) (k : Cond) : StateKept i s (s.raise i k) :=
  ⟨by rw [ctx_raise, if_pos rfl]⟩

theorem stateKept_raiseIf (s : State) (b : Bool) (i : Nat) (k : Cond) : StateKept i s (s.raiseIf b i k) := by
  cases b
  · exact .refl i s
  · exact stateKept_raise s i k

theorem stateKept_discardWork (s : State) (i : Nat) : StateKept i s (s.discardWork i) :=
  ⟨by rw [ctx_discardWork, if_pos rfl]⟩

theorem stateKept_countFor (i : Nat) (s : State) (k : Event) (j : Nat) : StateKept i s (s.countFor k j) := ⟨rfl⟩

theorem stateKept_retunePaid (s : State) (i r : Nat) : StateKept i s (s.retunePaid i r) := by
  have hrate := stateKept_modCtx (s.setReserved (s.reserved + s.costOf i r - s.currentCost i)) i
    (fun c => { c with rate := some r, sinceRate := 0 }) rfl
  have hreserved : StateKept i s (s.setReserved (s.reserved + s.costOf i r - s.currentCost i)) := ⟨rfl⟩
  exact hreserved.trans (hrate.trans (stateKept_countFor i _ .rateChange i))

theorem stateKept_dropRequest (s : State) (i : Nat) : StateKept i s (s.dropRequest i) :=
  stateKept_modCtx s i (fun c => { c with request := none }) rfl

theorem stateKept_commit (s : State) (i : Nat) (k : StreamKey) : StateKept i s (s.commit i k) := by
  have hctxs : ((s.removeStream? (s.ctx i).primary).promote k).ctxs = s.ctxs := by simp
  have hkey := stateKept_modCtx ((s.removeStream? (s.ctx i).primary).promote k) i
    (fun c => { c with primary := some k, handover := none }) rfl
  exact ((StateKept.of_ctxs hctxs).trans (hkey.trans (stateKept_raise _ i .handoverDone))).trans
    (stateKept_countFor i _ .handoverCommit i)

theorem stateKept_abandon (s : State) (i : Nat) (k : StreamKey) : StateKept i s (s.abandon i k) :=
  (StateKept.of_ctxs (by simp)).trans (stateKept_modCtx (s.removeStream k) i (fun c => { c with handover := none }) rfl)

theorem StateKept.converting {i : Nat} {s t : State} (h : StateKept i s t) (hs : (s.ctx i).converting = true) :
    (t.ctx i).converting = true := (Ctx.converting_congr h.state).trans hs

/-! ### Rates (R110 to R112) -/

theorem moves_applyRate {s : State} {i r : Nat} (h : (s.ctx i).converting = true)
    (hp : (s.ctx i).permits r = true ∨ (s.ctx i).request.map RateRequest.rate = some r)
    (hb : r < (s.ctx i).rate.getD 0 ∨ s.fits (s.costOf i r - s.costOf i ((s.ctx i).rate.getD 0)) = true) :
    Moves s (s.applyRate i r) := by
  have hpaid := stateKept_retunePaid s i r
  have hc := (hpaid.trans (stateKept_dropRequest _ i)).converting h
  exact (Move.paid s i r h hp hb).moves.trans ((moves_dropRequest _ i).trans
    (Move.raised _ i .rateChanged (Ctx.ne_free_of_converting hc) (Ctx.ne_closed_of_converting hc)).moves)

theorem stateKept_applyRate (s : State) (i r : Nat) : StateKept i s (s.applyRate i r) :=
  ((stateKept_retunePaid s i r).trans (stateKept_dropRequest _ i)).trans (stateKept_raise _ i .rateChanged)

/-- A candidate of a raise is the rate asked for, or permitted (R111). -/
theorem mem_raiseCandidates {c : Ctx} {current r x : Nat} (h : x ∈ raiseCandidates c.permitted current r) :
    x = r ∨ c.permits x = true := by
  unfold raiseCandidates at h
  rcases List.mem_cons.1 h with h | h
  · exact Or.inl h
  · right
    unfold Ctx.permits
    cases hset : c.permitted with
    | none => rw [hset] at h; cases h
    | some set =>
      rw [hset] at h
      have hmem := (List.mem_filter.1 (List.mem_reverse.1 h)).1
      exact (List.mem_filter.1 hmem).2

theorem moves_settleRate {s : State} {i r : Nat} (h : (s.ctx i).converting = true)
    (hr : (s.ctx i).request.map RateRequest.rate = some r) :
    Moves s (s.settleRate i ((s.ctx i).rate.getD 0) r) := by
  refine .ite _ (fun _ => moves_dropRequest s i) fun _ => .ite _ (fun hlt => ?_) fun _ => ?_
  · exact moves_applyRate h (Or.inr hr) (Or.inl hlt)
  · unfold settleRaise
    split
    · next x hx =>
      have hmem := List.mem_of_find?_eq_some hx
      have hfit := List.find?_some hx
      refine moves_applyRate h ?_ (Or.inr hfit)
      rcases mem_raiseCandidates hmem with rfl | hp
      · exact Or.inr hr
      · exact Or.inl hp
    · have hc := (stateKept_dropRequest s i).converting h
      exact (moves_dropRequest s i).trans ((Move.raised _ i .rateRefused (Ctx.ne_free_of_converting hc)
        (Ctx.ne_closed_of_converting hc)).moves.trans (moves_countFor _ _ _))

theorem stateKept_settleRate (s : State) (i current r : Nat) : StateKept i s (s.settleRate i current r) := by
  unfold settleRate settleRaise
  split
  · exact stateKept_dropRequest s i
  · split
    · exact stateKept_applyRate s i r
    · split
      · exact stateKept_applyRate s i _
      · exact ((stateKept_dropRequest s i).trans (stateKept_raise _ i .rateRefused)).trans
          (stateKept_countFor i _ .admitRefused i)

theorem moves_settle {s : State} {i : Nat} (h : (s.ctx i).converting = true) : Moves s (s.settle i) := by
  unfold settle
  split
  · exact .refl _
  · next r hr => exact .ite _ (fun _ => .refl s) fun _ => moves_settleRate h (by rw [hr]; rfl)
  · next r hr => exact moves_settleRate h (by rw [hr]; rfl)

theorem stateKept_settle (s : State) (i : Nat) : StateKept i s (s.settle i) := by
  unfold settle
  split
  · exact .refl i s
  · split
    · exact .refl i s
    · exact stateKept_settleRate s i _ _
  · exact stateKept_settleRate s i _ _

/-! ### Handovers (R126, R130) -/

theorem moves_stepHandover {s : State} {i : Nat} (hf : (s.ctx i).state ≠ .free) (hc : (s.ctx i).state ≠ .closed) :
    Moves s (s.stepHandover i) := by
  unfold stepHandover
  split
  · exact .refl _
  · next h hh =>
    refine .ite _ (fun _ => ?_) fun _ => ?_
    · have hkept := stateKept_abandon s i h.key
      exact (Move.abandoned s i h hh).moves.trans ((Move.raised _ i .handoverFailed (hkept.state.symm ▸ hf)
        (hkept.state.symm ▸ hc)).moves.trans (moves_countFor _ _ _))
    · refine moves_settings s i _ ?_
      constructor <;> first | rfl | simp [hh]

theorem stateKept_stepHandover (s : State) (i : Nat) : StateKept i s (s.stepHandover i) := by
  unfold stepHandover
  split
  · exact .refl i s
  · split
    · exact ((stateKept_abandon s i _).trans (stateKept_raise _ i .handoverFailed)).trans
        (stateKept_countFor i _ .handoverFail i)
    · exact stateKept_modCtx s i _ rfl

/-! ### Boundary claims (R84) -/

theorem moves_stepFirst {s : State} {i : Nat} (h : (s.ctx i).state = .armed) : Moves s (s.stepFirst i) := by
  unfold stepFirst
  split
  · next n hn =>
    refine .ite _ (fun _ => .ite _ (fun _ => ?_) fun _ => ?_) fun _ => ?_
    · exact (Move.closed s i _ ((Ctx.converting_iff _).2 (Or.inl h))).moves
    · exact (Move.reopened s i h).moves
    · refine moves_settings s i _ ?_
      constructor <;> first | rfl | simp [hn]
  · exact .refl _

theorem moves_stepStale {s : State} {i : Nat} (h : (s.ctx i).state = .active) : Moves s (s.stepStale i) := by
  have hsil : (s.ctx i).SameParts { s.ctx i with
      silence := (s.ctx i).silenceNext, staleRaised := (s.ctx i).staleRaised || (s.ctx i).staleNext } := by
    constructor <;> rfl
  have hact : ((s.modCtx i fun c => { c with
      silence := c.silenceNext, staleRaised := c.staleRaised || c.staleNext }).ctx i).state = .active := by
    rw [ctx_modCtx, if_pos rfl]
    exact h
  exact (moves_settings s i _ hsil).trans (moves_raiseIf _ _ i .stale (by rw [hact]; decide) (by rw [hact]; decide))

theorem stateKept_stepStale (s : State) (i : Nat) : StateKept i s (s.stepStale i) :=
  (stateKept_modCtx s i (fun c => { c with
    silence := c.silenceNext, staleRaised := c.staleRaised || c.staleNext }) rfl).trans (stateKept_raiseIf _ _ i .stale)

theorem moves_stepSilence {s : State} {i : Nat} (h : (s.ctx i).state = .active) : Moves s (s.stepSilence i) := by
  have hact : ((s.stepStale i).ctx i).converting = true :=
    (Ctx.converting_iff _).2 (Or.inr ((stateKept_stepStale s i).state.trans h))
  exact .ite _ (fun _ => (moves_stepStale h).trans (Move.closed _ i .silence hact).moves) fun _ => moves_stepStale h

theorem moves_stepCounts (s : State) (i : Nat) : Moves s (s.stepCounts i) := by
  unfold stepCounts
  split
  case h_1 h =>
    exact (moves_stepHandover (by rw [h]; decide) (by rw [h]; decide)).trans
      (moves_stepFirst ((stateKept_stepHandover s i).state.trans h))
  case h_2 h =>
    exact (moves_stepHandover (by rw [h]; decide) (by rw [h]; decide)).trans
      (moves_stepSilence ((stateKept_stepHandover s i).state.trans h))
  all_goals exact .refl _

theorem moves_playReady (s : State) (i : Nat) : Moves s (s.playReady i) :=
  (moves_playBlock s i _).trans (Move.readyTaken _ i).moves

theorem stateKept_playReady (s : State) (i : Nat) : StateKept i s (s.playReady i) :=
  (StateKept.of_ctxs (by simp)).trans (stateKept_modCtx (s.playBlock i _) i (fun c => { c with ready := none }) rfl)

theorem moves_stepSinceRate (s : State) (i : Nat) : Moves s (s.stepSinceRate i) :=
  moves_settings s i _ (by constructor <;> rfl)

theorem stateKept_stepSinceRate (s : State) (i : Nat) : StateKept i s (s.stepSinceRate i) :=
  stateKept_modCtx s i (fun c => { c with sinceRate := min 65535 (c.sinceRate + 1) }) rfl

theorem moves_countConceal (s : State) (i : Nat) (u : Uplink) : Moves s (s.countConceal i u) := by
  unfold countConceal
  split
  case h_1 => exact (moves_settings s i _ (by constructor <;> rfl)).trans (moves_countFor _ _ _)
  all_goals exact .refl _

theorem moves_startWork {s : State} {i : Nat} (h : (s.ctx i).converting = true) : Moves s (s.startWork i) :=
  (Move.workStarted s i h).moves.trans ((moves_countConceal _ i _).trans (moves_dropHanded _ i))

theorem moves_continueClaim (s : State) (i : Nat) : Moves s (s.continueClaim i) := by
  refine .ite _ (fun h => ?_) fun _ => moves_dropHanded s i
  have hready := (stateKept_playReady s i).trans (stateKept_stepSinceRate _ i)
  have hrate := hready.converting h
  have hwork := (hready.trans (stateKept_settle _ i)).converting h
  exact (moves_playReady s i).trans ((moves_stepSinceRate _ i).trans ((moves_settle hrate).trans (moves_startWork hwork)))

theorem moves_claimBody (s : State) (i : Nat) : Moves s (s.claimBody i) := by
  have hidle : (s.ctx i).state ≠ .free → (s.ctx i).state ≠ .closed → Moves s ((s.stepHandover i).dropHanded i) :=
    fun hf hc => (moves_stepHandover hf hc).trans (moves_dropHanded _ i)
  have hconv : Moves s (((s.discardWork i).stepCounts i).continueClaim i) :=
    (Move.workDropped s i).moves.trans ((moves_stepCounts _ i).trans (moves_continueClaim _ i))
  unfold claimBody
  split
  case h_1 h => exact hidle (by rw [h]; decide) (by rw [h]; decide)
  case h_2 h => exact hidle (by rw [h]; decide) (by rw [h]; decide)
  case h_3 => exact hconv
  case h_4 => exact hconv
  all_goals exact .refl _

theorem moves_boundaryClaim (s : State) (i : Nat) : Moves s (s.boundaryClaim i) :=
  .ite _ (fun _ => (moves_claimBody s i).trans (moves_markClaimed _ i)) fun _ => .refl _

/-! ### The boundary at a port, frame marks (R80 to R82, R171) -/

theorem moves_portBody (s : State) (p : Port) : Moves s (s.portBody p) :=
  .ite _ (fun _ => .refl s) fun _ => .ite _ (fun _ => (Move.silenced s p).moves)
    fun _ => (Move.noted s p (s.port p).conds { (s.port p).sup with count := (s.port p).sup.countNext } rfl).moves

theorem moves_portBoundary (s : State) (p : Port) : Moves s (s.portBoundary p) :=
  .ite _ (fun _ => (moves_setTimer s { s.timer with portDue := s.timer.portDue.set p false } (Or.inl rfl)).trans
    (moves_portBody _ p)) fun _ => .refl s

theorem moves_settleBoundary (s : State) : Moves s s.settleBoundary :=
  ((moves_portBoundary s .a).trans (moves_portBoundary _ .b)).trans ((Moves.foldl moves_boundaryClaim _ _).trans
    (moves_setTimer _ _ (Or.inr rfl)))

/-- Blocks written slot by slot leave the claims taken. -/
theorem claimed_foldl_setBlock (v : State → Nat → SlotBlocks) (l : List Nat) (s : State) :
    s.timer.claimed = (l.foldl (fun t n => t.setBlock n (v t n)) s).timer.claimed := by
  induction l generalizing s with
  | nil => rfl
  | cons n l ih => exact ih (s.setBlock n (v s n))

theorem moves_collect (s : State) (rx : List (Nat × Byte)) : Moves s (s.collect rx) := by
  refine (Moves.foldl (fun t n => ?_) _ s).trans (moves_drawn _)
  unfold collectAt
  split
  · exact moves_setBlock ..
  · exact .refl _

theorem moves_frameMark (s : State) (rx : List (Nat × Byte)) : Moves s (s.frameMark rx) := by
  refine (moves_settleBoundary s).trans ?_
  unfold frameMark
  split
  · exact (Moves.foldl (fun t n => moves_setBlock ..) _ _).trans
      (moves_setTimer _ _ (Or.inl (claimed_foldl_setBlock _ _ _)))
  · refine (moves_collect _ rx).trans (.ite _ (fun _ => ?_) fun _ => moves_setTimer _ _ (Or.inl rfl))
    exact (Moves.foldl (fun t n => moves_setBlock ..) _ _).trans (moves_setTimer _ _ (Or.inr rfl))

theorem moves_framingLost (s : State) : Moves s s.framingLost := by
  unfold framingLost
  split
  · exact .refl _
  · exact (moves_settleBoundary s).trans
      ((Moves.foldl (fun t n => moves_setBlock ..) _ _).trans
        (moves_setTimer _ _ (Or.inl (claimed_foldl_setBlock _ _ _))))

end State

end Sys2Proof.Machine
end

section
/-! SUPPORT. Cells, lanes, faults and the orders as moves, and from them every command. -/

namespace Sys2Proof.Machine

open State

/-! ### The playout window (R96 to R98) -/

theorem queueInWindow_single (c : Ctx) (x : QEntry) (he : c.expected = some x.seq) (hq : c.queue = [x]) :
    c.queueInWindow := by
  refine ⟨fun h => absurd (he.symm.trans h) (by simp), fun e h => ?_⟩
  obtain rfl : x.seq = e := Option.some.inj (he.symm.trans h)
  rw [hq]
  exact ⟨List.pairwise_singleton _ _, fun y hy => by simp [List.mem_singleton.1 hy]⟩

theorem queueInWindow_none (c : Ctx) (he : c.expected = none) (hq : c.queue = []) : c.queueInWindow :=
  ⟨fun _ => hq, fun e h => absurd (he.symm.trans h) (by simp)⟩

/-- An entry at a free distance within 0..5 keeps the window (R97). -/
theorem queueInWindow_insert {c d : Ctx} {e : Seq16} {x : QEntry} (hc : c.queueInWindow) (he : c.expected = some e)
    (hd : d.expected = c.expected) (hq : d.queue = insertEntry e x c.queue) (hx : (x.seq - e).toNat ≤ 5)
    (hfree : c.queue.any (fun y => y.seq = x.seq) = false) : d.queueInWindow := by
  obtain ⟨hsorted, hnear⟩ := hc.2 e he
  refine ⟨fun h => absurd ((hd.trans he).symm.trans h) (by simp), fun e' h => ?_⟩
  obtain rfl : e = e' := Option.some.inj ((hd.trans he).symm.trans h)
  rw [hq]
  refine ⟨pairwise_insertEntry e x _ (fun y hy hne => ?_) hsorted, fun y hy => ?_⟩
  · have hseq : y.seq = x.seq := sub_left_injective (BitVec.eq_of_toNat_eq hne)
    have hany := List.any_eq_false.1 hfree y hy
    simp [hseq] at hany
  · rcases (mem_insertEntry e x y _).1 hy with hy | rfl
    · exact hnear y hy
    · exact hx

namespace State

/-! ### Cells (R37 to R41, R97, R98) -/

theorem moves_acceptCounts (s : State) (i : Nat) (bad : Bool) : Moves s (s.acceptCounts i bad) := by
  have hcount := moves_settings s i (fun c => { c with counters := c.counters.accept bad }) (by constructor <;> rfl)
  refine (hcount.trans (moves_countFor _ .cellIn i)).trans ?_
  cases bad
  · exact .refl _
  · exact moves_countFor _ .cellBad i

theorem stateKept_acceptCounts (s : State) (i : Nat) (bad : Bool) : StateKept i s (s.acceptCounts i bad) := by
  have hcount := stateKept_modCtx s i (fun c => { c with counters := c.counters.accept bad }) rfl
  refine (hcount.trans (stateKept_countFor i _ .cellIn i)).trans ?_
  cases bad
  · exact .refl i _
  · exact stateKept_countFor i _ .cellBad i

theorem moves_takeRequest {s : State} {i : Nat} (h : (s.ctx i).converting = true) (field : Nat) :
    Moves s (s.takeRequest i field) := by
  refine .ite _ (fun _ => .refl s) fun _ => ?_
  split
  · next set hset =>
    refine (Move.requested s i _ fun x hx => ⟨h, ?_⟩).moves
    have hplaced : ∀ q : RateRequest, (if some (set.correct field) = (s.ctx i).rate then none
        else some (⟨set.correct field, .cell⟩ : RateRequest)) = some q → q.rate = set.correct field := fun q hq => by
      split at hq <;> cases hq
      rfl
    unfold placedRequest at hx
    split at hx
    · exact Or.inr (Or.inr ⟨set, field, hset, hplaced x hx⟩)
    · next hr => exact Or.inl (hr.trans hx)
    · exact Or.inr (Or.inr ⟨set, field, hset, hplaced x hx⟩)
  · exact .refl s

/-- A playout move at an ACTIVE context, then the cell's counts and its request (R97, R106). -/
theorem moves_accepted {s : State} {i : Nat} (h : (s.ctx i).state = .active) (d : Ctx)
    (hw : (s.ctx i).queueInWindow → ((s.ctx i).playoutMoved d).queueInWindow) (bad : Bool) (field : Nat) :
    Moves s (((s.setCtx i ((s.ctx i).playoutMoved d)).acceptCounts i bad).takeRequest i field) := by
  have hset : StateKept i s (s.setCtx i ((s.ctx i).playoutMoved d)) := ⟨by rw [ctx_setCtx, if_pos rfl]; rfl⟩
  have hconv : (s.ctx i).converting = true := (Ctx.converting_iff _).2 (Or.inr h)
  exact ((Move.played s i d h hw).moves.trans (moves_acceptCounts _ i bad)).trans
    (moves_takeRequest ((hset.trans (stateKept_acceptCounts _ i bad)).converting hconv) field)

theorem seq_entry (c : InCell) (bad : Bool) : (c.entry bad).seq = c.seq := by
  cases bad <;> rfl

theorem moves_firstArrival {s : State} {i : Nat} (h : (s.ctx i).state = .active) (c : InCell) :
    Moves s (s.firstArrival i c) :=
  moves_accepted h ((s.ctx i).startQueue (c.entry (s.badCell i c)))
    (fun _ => queueInWindow_single _ (c.entry (s.badCell i c)) rfl rfl) (s.badCell i c) c.request

theorem moves_placeAt {s : State} {i : Nat} (h : (s.ctx i).state = .active) {e : Seq16}
    (he : (s.ctx i).expected = some e) (c : InCell) : Moves s (s.placeAt i e c) := by
  refine .ite _ (fun hnear => .ite _ (fun _ => ?_) fun hfree => ?_) fun _ => .ite _ (fun _ => ?_) fun _ => ?_
  · exact (moves_settings s i _ (by constructor <;> rfl)).trans (moves_countFor _ .cellDup i)
  · refine moves_accepted h { s.ctx i with queue := insertEntry e (c.entry (s.badCell i c)) (s.ctx i).queue } (fun hw => ?_)
      (s.badCell i c) c.request
    refine queueInWindow_insert hw he rfl rfl (by rw [seq_entry]; exact hnear) ?_
    rw [seq_entry]
    exact Bool.eq_false_iff.2 hfree
  · let x := c.entry (s.badCell i c)
    have hset : StateKept i s (s.setCtx i ((s.ctx i).playoutMoved { (s.ctx i).startQueue x with
        counters := { (s.ctx i).counters with resync := (s.ctx i).counters.resync + 1 } })) :=
      ⟨by rw [ctx_setCtx, if_pos rfl]; rfl⟩
    have hconv : (s.ctx i).converting = true := (Ctx.converting_iff _).2 (Or.inr h)
    have hcounted := (hset.trans (stateKept_acceptCounts _ i (s.badCell i c))).trans (stateKept_countFor i _ .cellResync i)
    exact (((Move.played s i { (s.ctx i).startQueue x with
        counters := { (s.ctx i).counters with resync := (s.ctx i).counters.resync + 1 } } h
        fun _ => queueInWindow_single _ x rfl rfl).moves.trans (moves_acceptCounts _ i (s.badCell i c))).trans
      (moves_countFor _ .cellResync i)).trans (moves_takeRequest (hcounted.converting hconv) c.request)
  · exact (moves_settings s i _ (by constructor <;> rfl)).trans (moves_countFor _ .cellLate i)

theorem moves_heard (s : State) (i : Nat) : Moves s (s.heard i) := moves_settings s i _ (by constructor <;> rfl)

theorem stateKept_heard (s : State) (i : Nat) : StateKept i s (s.heard i) :=
  stateKept_modCtx s i (fun c => { c with silence := 0, staleRaised := false }) rfl

theorem stateKept_takeRequest (s : State) (i field : Nat) : StateKept i s (s.takeRequest i field) := by
  unfold takeRequest
  split
  · exact .refl i s
  · split
    · exact stateKept_modCtx s i _ rfl
    · exact .refl i s

theorem moves_firstCell {s : State} {i : Nat} (h : (s.ctx i).state = .armed) (c : InCell) :
    Moves s (s.firstCell i c) := by
  let v := (s.heard i).modCtx i fun x => { x with state := .active, firstRemaining := none }
  have harmed : ((s.heard i).ctx i).state = .armed := (stateKept_heard s i).state.trans h
  have hv : (v.ctx i).state = .active := by
    show (State.ctx ((s.heard i).modCtx i _) i).state = .active
    rw [ctx_modCtx, if_pos rfl]
  have hqueue : StateKept i v (v.modCtx i fun x => x.startQueue (c.entry (v.badCell i c))) := stateKept_modCtx v i _ rfl
  have hlast : ((v.firstArrival i c).ctx i).state = .active :=
    ((hqueue.trans (stateKept_acceptCounts _ i _)).trans (stateKept_takeRequest _ i c.request)).state.trans hv
  exact (((moves_heard s i).trans (Move.activated _ i harmed).moves).trans (moves_firstArrival hv c)).trans
    (Move.raised _ i .firstCell (by rw [hlast]; decide) (by rw [hlast]; decide)).moves

theorem moves_dispatch (s : State) (i : Nat) (c : InCell) : Moves s (s.dispatch i c) := by
  unfold dispatch
  split
  case h_1 => exact moves_countFor ..
  case h_2 => exact moves_countFor ..
  case h_3 h => exact moves_firstCell h c
  case h_4 h =>
    have hactive : ((s.heard i).ctx i).state = .active := (stateKept_heard s i).state.trans h
    refine (moves_heard s i).trans ?_
    unfold place
    split
    · next e he => exact moves_placeAt hactive he c
    · exact moves_firstArrival hactive c
  all_goals exact moves_count ..

theorem moves_reach {s : State} (c : InCell) {n : Nat} {e : StreamEntry} (he : s.findStream c.key = some (n, e)) :
    Moves s (s.reach e c) := by
  unfold reach
  split
  · exact moves_dispatch s e.index c
  · next hrole =>
    have hkey : e.key = c.key := (findStream_spec s c.key n e he).2
    have hentry : s.findStream e.key = some (n, ⟨e.key, e.index, .handover⟩) := by
      rw [hkey, he, ← hkey, ← hrole]
    exact (Move.committed s e.index e.key (Or.inr ⟨n, hentry⟩)).moves.trans (moves_dispatch _ e.index c)

theorem moves_intake (s : State) (link : Nat) (bytes : List Byte) : Moves s (s.intake link bytes) := by
  unfold intake
  split
  · exact moves_count ..
  · split
    · exact moves_count ..
    · next he => exact moves_reach _ he

/-! ### Lanes and faults (R61, R71 to R75, R86) -/

theorem moves_captureFault (s : State) (kind : FaultKind) (n : Nat) : Moves s (s.captureFault kind n) := by
  have hset : ∀ c, Moves s (s.setCapture c) := fun c => (Move.registers (t := s.setCapture c) rfl fun hc => hc).moves
  unfold captureFault
  split
  · exact hset _
  · exact (hset _).trans (moves_raiseBoth _ .faultCaptured)

theorem moves_dropHand (s : State) (n : Nat) : Moves s (s.dropHand n) := by
  unfold dropHand
  split
  · exact (Move.workDropped s _).moves
  · exact .refl s

theorem inHand_dropHand (s : State) {n : Nat} (hn : n < 8) : ((s.dropHand n).lane n).inHand = none := by
  unfold dropHand
  split
  · next i hi => rw [lane_discardWork, if_pos ⟨hn, hi⟩]
  · next hi => exact hi

theorem moves_laneFault (s : State) {n : Nat} (hn : n < 8) : Moves s (s.laneFault n) := by
  have hdrop := (moves_captureFault s .laneCheck n).trans (moves_dropHand _ n)
  have hnone : LaneState.outFault ≠ .outFault ∨ (((s.captureFault .laneCheck n).dropHand n).lane n).inHand = none :=
    Or.inr (inHand_dropHand _ hn)
  unfold laneFault
  split
  · exact hdrop.trans (Move.laneLost _ n .outFault hnone).moves
  · exact hdrop.trans (Move.laneSet _ n .outFault hnone).moves
  · exact .refl s
  · exact .refl s

theorem stateKept_captureFault (i : Nat) (s : State) (kind : FaultKind) (n : Nat) :
    StateKept i s (s.captureFault kind n) := .of_ctxs (by simp)

theorem moves_contextFault (s : State) (n : Nat) : Moves s (s.contextFault n) := by
  unfold contextFault
  split
  · next i _ =>
    refine .ite _ (fun h => ?_) fun _ => .refl s
    have hconv := (stateKept_captureFault i s .contextCheck n).converting h
    have hheld : (((s.captureFault .contextCheck n).enterHeld i .fault).ctx i).state = .held := by
      rw [ctx_enterHeld, if_pos rfl]
      rfl
    exact (moves_captureFault s .contextCheck n).trans ((Move.held _ i .fault hconv).moves.trans
      (Move.raised _ i .faulted (by rw [hheld]; decide) (by rw [hheld]; decide)).moves)
  · exact .refl s

theorem moves_queueFault (s : State) (n : Nat) : Moves s (s.queueFault n) := by
  unfold queueFault
  split
  · next i _ =>
    refine .ite _ (fun h => ?_) fun _ => .refl s
    let v := s.captureFault .queueCheck n
    have hv : (v.ctx i).state = .active := (stateKept_captureFault i s .queueCheck n).state.trans h
    let d : Ctx := { v.ctx i with queue := [], expected := none, priming := true }
    have hlast : ((v.setCtx i ((v.ctx i).playoutMoved d)).ctx i).state = .active := by
      rw [ctx_setCtx, if_pos rfl]
      exact hv
    have hplayed : Move v (v.setCtx i ((v.ctx i).playoutMoved d)) :=
      Move.played v i d hv fun _ => queueInWindow_none _ rfl rfl
    have hraised := Move.raised (v.setCtx i ((v.ctx i).playoutMoved d)) i .faulted (by rw [hlast]; decide)
      (by rw [hlast]; decide)
    exact (moves_captureFault s .queueCheck n).trans (hplayed.moves.trans hraised.moves)
  · exact .refl s

theorem moves_takeWork (s : State) {n : Nat} (hn : n < 8) (i : Nat) : Moves s (s.takeWork n i) :=
  .ite _ (fun ⟨hs, hl, hw⟩ => (Move.workTaken s n i hn hs hl hw).moves) fun _ => .refl s

theorem moves_finishWork (s : State) (n : Nat) : Moves s (s.finishWork n) := by
  unfold finishWork
  split
  · next i hi =>
    split
    · next w hw => exact (Move.workDone s n i w hi hw).moves
    · exact .refl s
  · exact .refl s

theorem moves_cellSent (s : State) (link : Nat) : Moves s (s.cellSent link) := by
  unfold cellSent
  split
  · exact moves_setLink ..
  · exact .refl s

end State

end Sys2Proof.Machine
end

section
/-! SUPPORT. The orders, the visits and the events as moves, writes at a port and hard resets: what any command can do. -/

namespace Sys2Proof.Machine

open State

/-! ### What a command does -/

/-- A move, a write at a port that leaves its supervision record, or a hard reset. -/
inductive Act : State → State → Prop where
  | move {s t : State} (h : Move s t) : Act s t
  | port (s : State) (p : Port) (v : PortState) (h : v.sup = (s.port p).sup) : Act s (s.setPort p v)
  | hardReset (s : State) : Act s s.hardReset

/-- Acts in turn. -/
def Acts (s t : State) : Prop := Relation.ReflTransGen Act s t

theorem Acts.refl (s : State) : Acts s s := Relation.ReflTransGen.refl

theorem Acts.trans {s t u : State} (h : Acts s t) (h' : Acts t u) : Acts s u := Relation.ReflTransGen.trans h h'

theorem Act.acts {s t : State} (h : Act s t) : Acts s t := Relation.ReflTransGen.single h

/-- What every act keeps, acts in turn keep. -/
theorem Acts.keeps {P : State → Prop} (h : ∀ s t, Act s t → P s → P t) {s t : State} (hm : Acts s t) : P s → P t := by
  induction hm with
  | refl => exact id
  | tail _ hact ih => exact fun hs => h _ _ hact (ih hs)

theorem Acts.ite {s t : State} (c : Prop) [Decidable c] (h : Acts s t) : Acts s (if c then t else s) := by
  split
  · exact h
  · exact .refl s

theorem Moves.acts {s t : State} (h : Moves s t) : Acts s t := by
  induction h with
  | refl => exact .refl s
  | tail _ hmove ih => exact ih.trans (Act.move hmove).acts

theorem Move.acts {s t : State} (h : Move s t) : Acts s t := h.moves.acts

/-! ### The orders of one context (R8 to R19, R94 to R102, R140) -/

theorem moves_named {i0 i1 g : Byte} {ok : Bool} {s : State} {act : Nat → Taken}
    (h : ok = true → ∀ i, (s.ctx i).state ≠ .free → Moves s (act i).after) :
    Moves s (named i0 i1 g ok s act).after := by
  unfold named
  split
  · exact .refl s
  · next hok =>
    split
    · exact .refl s
    · next hlive => exact h (by simp_all) _ fun hfree => hlive (Or.inr hfree)

theorem moves_ownerChecked {p : Port} {i0 i1 g : Byte} {ok : Bool} {s : State} {act : Nat → Taken}
    (h : ok = true → ∀ i, (s.ctx i).state ≠ .free → Moves s (act i).after) :
    Moves s (ownerChecked p i0 i1 g ok s act).after := by
  refine moves_named fun hok i hi => ?_
  unfold owned
  split
  · exact h hok i hi
  · exact .refl s

theorem moves_retireContext {s : State} {i : Nat} (h : (s.ctx i).state ≠ .free) :
    Moves s (retireContext i s).after := by
  have hcount : ((s.countFor .retire i).ctx i).state ≠ .free := h
  exact (moves_countFor s .retire i).trans (Move.freed _ i hcount).moves

theorem moves_armContext (i : Nat) (s : State) : Moves s (armContext i s).after := by
  unfold armContext
  split
  · exact .refl s
  · next hs =>
    split
    · exact .refl s
    · next hc =>
      split
      · exact moves_countFor s .admitRefused i
      · next hf => exact (Move.armed s i (not_not.1 hs) (by simpa using hc) (by simpa using hf)).moves

theorem moves_holdContext (i : Nat) (s : State) : Moves s (holdContext i s).after := by
  unfold holdContext
  split
  case h_1 h => exact (Move.held s i .order ((Ctx.converting_iff _).2 (Or.inl h))).moves
  case h_2 h => exact (Move.held s i .order ((Ctx.converting_iff _).2 (Or.inr h))).moves
  case h_3 h =>
    split
    · exact .refl s
    · exact (Move.reheld s i h).moves
  all_goals exact .refl s

theorem moves_resumeContext (i : Nat) (s : State) : Moves s (resumeContext i s).after := by
  unfold resumeContext
  split
  · exact .refl s
  · next hs =>
    split
    · exact moves_countFor s .admitRefused i
    · next hf => exact (Move.resumed s i (not_not.1 hs) (by simpa using hf)).moves

theorem moves_prioritize {s : State} {n : Nat} (i : Nat)
    (h : n ≤ 3 ∨ ∃ p, (s.sweepOf p).action = some (.setPriority n)) : Moves s (prioritize i n s).after := by
  unfold prioritize
  split
  · exact .refl s
  · exact (Move.prioritized s i n h).moves

theorem moves_setSupervisionOf (i deadline limit : Nat) (auto : Bool) (s : State) :
    Moves s (setSupervisionOf i deadline limit auto s).after := by
  unfold setSupervisionOf
  split
  · exact .refl s
  · exact moves_settings s i (fun c => { c with firstDeadline := deadline, silenceLimit := limit, autoRetire := auto })
      (by constructor <;> rfl)

theorem moves_setLevelOf (i : Nat) (v : Levels) (s : State) : Moves s (setLevelOf i v s).after := by
  unfold setLevelOf
  split
  · exact .refl s
  · exact moves_settings s i (fun c =>
        { c with gainLand := v.gainLand, gainMobile := v.gainMobile, rounding := v.rounding, clipReport := v.clipReport })
      (by constructor <;> rfl)

theorem moves_setPlayoutOf (i target : Nat) (s : State) : Moves s (setPlayoutOf i target s).after := by
  unfold setPlayoutOf
  split
  · exact .refl s
  · exact moves_settings s i (fun c => { c with depth := target })
      (by constructor <;> rfl)

/-! ### The binding orders (R31 to R36) -/

theorem moves_bindSlotTo (i slot : Nat) (law : Law) (s : State) : Moves s (bindSlotTo i slot law s).after := by
  unfold bindSlotTo
  split
  · exact .refl s
  · next hs =>
    split
    · next j hj =>
      split
      · next hji => exact (Move.lawSet s i slot law (not_not.1 hs) (hji ▸ hj)).moves
      · exact .refl s
    · next hn => exact (Move.slotTaken s i slot law (not_not.1 hs) hn).moves

theorem moves_unbindSlotOf (i : Nat) (s : State) : Moves s (unbindSlotOf i s).after := by
  unfold unbindSlotOf
  split
  · exact .refl s
  · next hs =>
    split
    · next b hb => exact (Move.slotLeft s i b (not_not.1 hs) hb).moves
    · exact .refl s

theorem moves_bindStreamTo (i : Nat) (key : StreamKey) (s : State) : Moves s (bindStreamTo i key s).after := by
  unfold bindStreamTo
  split
  · exact .refl s
  · next hs =>
    have hopened := not_not.1 hs
    split
    · split <;> exact .refl s
    · next hn => exact (Move.keyPlaced s i key (by rw [hopened]; decide) (by rw [hopened]; decide) hn).moves

theorem moves_unbindStreamOf (i : Nat) (s : State) : Moves s (unbindStreamOf i s).after := by
  unfold unbindStreamOf
  split
  · exact .refl s
  · next hs =>
    split
    · next k hk => exact (Move.keyLeft s i k (not_not.1 hs) hk).moves
    · exact .refl s

theorem moves_relinkContext {s : State} {i : Nat} (link : Nat) (h : (s.ctx i).state ≠ .free) :
    Moves s (relinkContext i link s).after := by
  unfold relinkContext
  split
  · exact .refl s
  · next hs =>
    split
    · next old _ =>
      unfold relinkFrom
      split
      · exact .refl s
      · split
        · exact .refl s
        · next hk => exact (Move.keyPlaced s i _ h (fun hc => hs (Or.inl hc)) hk).moves
    · exact .refl s

/-! ### The profile and rate orders (R50 to R53, R113 to R117) -/

theorem moves_loadProfile {s : State} {c : Profile} (n : Nat) (h : ascendingCosts c.table = true) :
    Moves s (loadProfile n c s).after := by
  unfold loadProfile
  split
  · exact .refl s
  · exact .refl s
  · next hv => exact (Move.profileLoaded s n c hv h).moves

theorem ascendingCosts_of_profileOfFields {f s0 s1 d h : Byte} {table : List RateEntry} {c : Profile}
    (hc : profileOfFields f s0 s1 d h table = some c) : ascendingCosts c.table = true := by
  unfold profileOfFields at hc
  split at hc
  · split at hc
    · next hok =>
      cases hc
      obtain ⟨htable, _⟩ := hok
      unfold tableOk at htable
      exact (Bool.and_eq_true_iff.1 htable).2
    · cases hc
  · cases hc

theorem moves_clearProfile (n : Nat) (s : State) : Moves s (clearProfile n s).after := by
  unfold clearProfile
  split
  · exact .refl s
  · exact .refl s
  · split
    · exact .refl s
    · next h => exact (Move.profileCleared s n (Nat.eq_zero_of_not_pos h)).moves

theorem moves_setProfileOf {s : State} {n : Nat} {set : RateSet} (i : Nat)
    (h : setProfileFields n set s = true) : Moves s (setProfileOf i n set s).after := by
  unfold setProfileOf
  split
  · exact .refl s
  · next hs =>
    split
    · exact .refl s
    · next c hc =>
      unfold setProfileFields at h
      rw [hc] at h
      simp only [Bool.and_eq_true, decide_eq_true_eq] at h
      obtain ⟨⟨_, hset⟩, hwithin⟩ := h
      exact (Move.profileNamed s i n set c (not_not.1 hs) hc hset hwithin).moves

theorem moves_setRateOf (i r : Nat) (s : State) : Moves s (setRateOf i r s).after := by
  unfold setRateOf
  split
  · exact .refl s
  · split
    · exact .refl s
    · next hp =>
      have hpermits : (s.ctx i).permits r = true := by simpa using hp
      split
      · next hconv =>
        unfold setRatePending
        split
        · exact moves_dropRequest s i
        · refine (Move.requested s i (some ⟨r, .order⟩) fun x hx => ⟨hconv, Or.inr (Or.inl ?_)⟩).moves
          cases hx
          exact hpermits
      · next hconv =>
        unfold setRateAtOnce
        split
        · exact .refl s
        · exact (Move.retuned s i r (by simpa using hconv) hpermits).moves

/-- A narrowed set, after the rate was moved or kept: the refused request is reported (R117). -/
theorem moves_narrow {s u : State} {i : Nat} {set : RateSet} {r : Nat} (hstate : StateKept i s u)
    (hf : (s.ctx i).state ≠ .free) (hc : (s.ctx i).state ≠ .closed)
    (h : Move s (u.modCtx i fun x => { x with permitted := some set, request := keptRequest set r x.request })) :
    Moves s (u.narrow i set r) := by
  have hkept := hstate.trans (stateKept_modCtx u i
    (fun x => { x with permitted := some set, request := keptRequest set r x.request }) rfl)
  exact h.moves.trans (moves_raiseIf _ _ i .rateRefused (hkept.state.symm ▸ hf) (hkept.state.symm ▸ hc))

theorem stateKept_retune (s : State) (i r : Nat) : StateKept i s (s.retune i r) :=
  (stateKept_modCtx s i (fun c => { c with rate := some r, sinceRate := 0 }) rfl).trans
    (stateKept_countFor i _ .rateChange i)

theorem moves_setRatesetOf {s : State} {i : Nat} {set : RateSet} (hset : set ≠ 0)
    (hf : (s.ctx i).state ≠ .free) : Moves s (setRatesetOf i set s).after := by
  unfold setRatesetOf
  split
  · exact .refl s
  · next hc =>
    split
    · exact .refl s
    · next c hprofile =>
      split
      · next hwithin =>
        have ha : s.Allows i set c := ⟨hprofile, hset, hwithin⟩
        unfold replaceRateset
        split
        · next hhas => exact moves_narrow (.refl i s) hf hc (Move.setKept s i set c ha hhas)
        · unfold moveRateset
          split
          · next hconv => exact moves_narrow (stateKept_retune s i _) hf hc (Move.setMoved s i set c ha hconv)
          · next hconv =>
            split
            · exact moves_countFor s .admitRefused i
            · next hfit =>
              refine moves_narrow (stateKept_retunePaid s i _) hf hc (Move.setPaid s i set c ha (by simpa using hconv) ?_)
              rcases Nat.lt_or_ge ((s.ctx i).rate.getD 0) (set.landing ((s.ctx i).rate.getD 0)) with hlt | hge
              · exact Or.inr (by simpa [hlt] using hfit)
              · exact Or.inl hge
      · exact .refl s

/-! ### The handover orders (R123 to R132) -/

theorem moves_prepareHandover {s : State} {i : Nat} (h : Handover) (hf : (s.ctx i).state ≠ .free) :
    Moves s (prepareHandover i h s).after := by
  unfold prepareHandover
  split
  · exact .refl s
  · next hs =>
    split
    · exact .refl s
    · next hk =>
      obtain ⟨_, hclosed, hnone⟩ : (s.ctx i).state ≠ .opened ∧ (s.ctx i).state ≠ .closed ∧ (s.ctx i).handover = none := by
        simpa using hs
      have hfree : s.findStream h.key = none := by
        rw [← Option.not_isSome_iff_eq_none]
        exact fun hsome => hk (Or.inr hsome)
      exact (Move.prepared s i h hf hclosed hnone hfree).moves

theorem moves_commitHandover (i : Nat) (s : State) : Moves s (commitHandover i s).after := by
  unfold commitHandover
  split
  · exact .refl s
  · next h hh => exact (Move.committed s i h.key (Or.inl (by rw [hh]; rfl))).moves

theorem moves_cancelHandover (i : Nat) (s : State) : Moves s (cancelHandover i s).after := by
  unfold cancelHandover
  split
  · exact .refl s
  · next h hh => exact (Move.abandoned s i h hh).moves

/-! ### ADOPT, OPEN, LANE_SERVICE (R174, R8, R62) -/

theorem moves_adoptContext (p : Port) (i : Nat) (s : State) : Moves s (adoptContext p i s).after := by
  unfold adoptContext
  split
  · exact .refl s
  · next h =>
    split
    · exact (Move.adopted s p i h).moves
    · exact .refl s

theorem openPriority_le {b : Byte} {n : Nat} (h : openPriority b = some n) : n ≤ 3 := by
  unfold openPriority at h
  split at h
  · next hb => cases h; exact hb
  · split at h
    · cases h; decide
    · cases h

theorem moves_openAt {p : Port} {n : Nat} (s : State) (hn : n ≤ 3) : Moves s (openAt p n s).after := by
  unfold openAt
  split
  · next hl => exact (Move.opened s p n hn hl).moves
  · exact .refl s

theorem moves_laneOut (n : Nat) (s : State) : Moves s (laneOut n s).after := by
  unfold laneOut
  split
  · exact (Move.laneLost s n .outOrder (Or.inl (by decide))).moves
  · exact .refl s
  · exact (Move.laneSet s n .outOrder (Or.inl (by decide))).moves

theorem moves_laneIn (n : Nat) (s : State) : Moves s (laneIn n s).after := by
  unfold laneIn
  split
  · exact .refl s
  · exact (Move.laneBack s n).moves
  · exact (Move.laneBack s n).moves

/-! ### The sweep orders (R150 to R158) -/

theorem actionOf_setPriority {code parameter : Byte} {n : Nat}
    (h : actionOf code parameter = some (.setPriority n)) : n ≤ 3 := by
  unfold actionOf at h
  split at h
  all_goals first | cases h | split at h
  all_goals cases h
  next hle => exact hle

theorem moves_sweepOrder (p : Port) (body : List Byte) (s : State) : Moves s (sweepOrder p body s).after := by
  unfold sweepOrder
  split
  · split
    · next v hv =>
      unfold startSweep
      split
      · exact .refl s
      · refine (Move.sweepSet s p v (Or.inr fun n hn => ?_)).moves
        unfold sweepOfFields at hv
        split at hv
        · next ha _ =>
          split at hv
          · cases hv
            exact actionOf_setPriority (ha.trans hn)
          · cases hv
        · cases hv
    · exact .refl s
  · exact .refl s

/-! ### Every order (R164) -/

/-- An order but RESET makes moves alone. -/
theorem moves_takeOrder (p : Port) (c : OrderCode) (hc : c ≠ .reset) (body : List Byte) (s : State) :
    Moves s (takeOrder p c body s).after := by
  cases c <;> simp only [takeOrder]
  case reset => exact absurd rfl hc
  case keepalive => unfold keepaliveOrder; split <;> exact .refl s
  case superviseSet =>
    unfold superviseSetOrder; split
    · split
      · next v _ => exact (Move.noted s p (s.port p).conds { (s.port p).sup with settings := v } rfl).moves
      · exact .refl s
    · exact .refl s
  case notices =>
    unfold noticesOrder; split
    · exact (Move.noticed s p).moves
    · exact .refl s
  case batch => exact .refl s
  case adopt =>
    unfold adoptOrder; split
    · exact moves_named fun _ i _ => moves_adoptContext p i s
    · exact .refl s
  case openContext =>
    unfold openOrder; split
    · split
      · next n hn => exact moves_openAt s (openPriority_le hn)
      · exact .refl s
    · exact .refl s
  case retire =>
    unfold retireOrder; split
    · exact moves_ownerChecked fun _ i hi => moves_retireContext hi
    · exact .refl s
  case query =>
    unfold queryOrder; split
    · exact moves_named fun _ _ _ => .refl s
    · exact .refl s
  case arm =>
    unfold armOrder; split
    · exact moves_ownerChecked fun _ i _ => moves_armContext i s
    · exact .refl s
  case hold =>
    unfold holdOrder; split
    · exact moves_ownerChecked fun _ i _ => moves_holdContext i s
    · exact .refl s
  case resume =>
    unfold resumeOrder; split
    · exact moves_ownerChecked fun _ i _ => moves_resumeContext i s
    · exact .refl s
  case setPriority =>
    unfold setPriorityOrder; split
    · exact moves_ownerChecked fun hn i _ => moves_prioritize i (Or.inl (of_decide_eq_true hn))
    · exact .refl s
  case bindSlot =>
    unfold bindSlotOrder; split
    · exact moves_ownerChecked fun _ i _ => moves_bindSlotTo i _ _ s
    · exact .refl s
  case bindStream =>
    unfold bindStreamOrder; split
    · exact moves_ownerChecked fun _ i _ => moves_bindStreamTo i _ s
    · exact .refl s
  case unbindSlot =>
    unfold unbindSlotOrder; split
    · exact moves_ownerChecked fun _ i _ => moves_unbindSlotOf i s
    · exact .refl s
  case unbindStream =>
    unfold unbindStreamOrder; split
    · exact moves_ownerChecked fun _ i _ => moves_unbindStreamOf i s
    · exact .refl s
  case relink =>
    unfold relinkOrder; split
    · exact moves_ownerChecked fun _ i hi => moves_relinkContext _ hi
    · exact .refl s
  case profileLoad =>
    unfold profileLoadOrder; split
    · split
      · exact .refl s
      · split
        · exact .refl s
        · split
          · next c hc => exact moves_loadProfile _ (ascendingCosts_of_profileOfFields hc)
          · exact .refl s
    · exact .refl s
  case profileClear =>
    unfold profileClearOrder; split
    · split
      · exact .refl s
      · exact moves_clearProfile _ s
    · exact .refl s
  case profileRead =>
    unfold profileReadOrder; split
    · split <;> exact .refl s
    · exact .refl s
  case setProfile =>
    unfold setProfileOrder; split
    · exact moves_ownerChecked fun hok i _ => moves_setProfileOf i hok
    · exact .refl s
  case setRateset =>
    unfold setRatesetOrder; split
    · exact moves_ownerChecked fun hok i hi => moves_setRatesetOf (of_decide_eq_true hok) hi
    · exact .refl s
  case setRate =>
    unfold setRateOrder; split
    · exact moves_ownerChecked fun _ i _ => moves_setRateOf i _ s
    · exact .refl s
  case handoverPrepare =>
    unfold handoverPrepareOrder; split
    · exact moves_ownerChecked fun _ i hi => moves_prepareHandover _ hi
    · exact .refl s
  case handoverCommit =>
    unfold handoverCommitOrder; split
    · exact moves_ownerChecked fun _ i _ => moves_commitHandover i s
    · exact .refl s
  case handoverCancel =>
    unfold handoverCancelOrder; split
    · exact moves_ownerChecked fun _ i _ => moves_cancelHandover i s
    · exact .refl s
  case setSupervision =>
    unfold setSupervisionOrder; split
    · exact moves_ownerChecked fun _ i _ => moves_setSupervisionOf i _ _ _ s
    · exact .refl s
  case setLevel =>
    unfold setLevelOrder; split
    · exact moves_ownerChecked fun _ i _ => moves_setLevelOf i _ s
    · exact .refl s
  case levelDefaults =>
    unfold levelDefaultsOrder; split
    · split
      · next m _ => exact (Move.registers (t := { s with defaultRound := m }) rfl fun hc => hc).moves
      · exact .refl s
    · exact .refl s
  case setPlayout =>
    unfold setPlayoutOrder; split
    · exact moves_ownerChecked fun _ i _ => moves_setPlayoutOf i _ s
    · exact .refl s
  case laneService =>
    unfold laneServiceOrder; split
    · split
      · exact .refl s
      · split
        · exact moves_laneOut _ s
        · split
          · exact moves_laneIn _ s
          · exact .refl s
    · exact .refl s
  case faultRead =>
    unfold faultReadOrder; split
    · exact (Move.registers (t := s.setCapture ⟨none, false⟩) rfl fun hc => hc).moves
    · exact .refl s
  case sweep => exact moves_sweepOrder p body s
  case sweepAbort =>
    unfold sweepAbortOrder; split
    · split
      · exact (Move.sweepSet s p { s.sweepOf p with state := .suspended, stopReason := .aborted } (Or.inl rfl)).moves
      · exact .refl s
    · exact .refl s
  case sweepContinue =>
    unfold sweepContinueOrder; split
    · split
      · exact (Move.sweepSet s p { s.sweepOf p with state := .running, stopReason := .none } (Or.inl rfl)).moves
      · exact .refl s
    · exact .refl s
  case sweepStatus =>
    unfold sweepStatusOrder; split
    · split <;> exact .refl s
    · exact .refl s
  case tallySet =>
    unfold tallySetOrder; split
    · split
      · next one v _ _ =>
        cases one
        · exact (Move.registers (t := s.setTallies v s.tally1) rfl fun hc => hc).moves
        · exact (Move.registers (t := s.setTallies s.tally0 v) rfl fun hc => hc).moves
      · exact .refl s
    · exact .refl s
  case tallyRead => unfold tallyReadOrder; split <;> exact .refl s
  case inspect =>
    unfold inspectOrder; split
    · split <;> exact .refl s
    · exact .refl s

/-- RESET makes the soft reset, or marks its port (R177). -/
theorem acts_resetOrder (p : Port) (body : List Byte) (s : State) : Acts s (resetOrder p body s).after := by
  unfold resetOrder
  split
  · split
    · exact (Move.softReset s).acts
    · split
      · exact (Act.port s p { s.port p with resetPending := true } rfl).acts
      · exact .refl s
  · exact .refl s

theorem acts_takeOrder (p : Port) (c : OrderCode) (body : List Byte) (s : State) :
    Acts s (takeOrder p c body s).after := by
  by_cases hc : c = .reset
  · subst hc
    exact acts_resetOrder p body s
  · exact (moves_takeOrder p c hc body s).acts

theorem acts_takeCode (p : Port) (code : Byte) (body : List Byte) (s : State) :
    Acts s (takeCode p code body s).after := by
  unfold takeCode
  split
  · exact acts_takeOrder p _ body s
  · exact .refl s

theorem byte_of_ofByte {code : Byte} {c : OrderCode} (h : OrderCode.ofByte code = some c) : c.byte = code := by
  unfold OrderCode.ofByte at h
  simpa using List.find?_some h

/-- A code that a BATCH may carry makes moves alone (R165). -/
theorem moves_takeCode {p : Port} {code : Byte} (h : barred code = false) (body : List Byte) (s : State) :
    Moves s (takeCode p code body s).after := by
  unfold takeCode
  split
  · next c hc =>
    refine moves_takeOrder p c (fun hreset => ?_) body s
    have hbyte : c.byte = code := byte_of_ofByte hc
    have hbarred : barred code = true := by
      rw [← hbyte, hreset]
      decide
    exact absurd (hbarred.symm.trans h) (by decide)
  · exact .refl s

/-! ### Frames, batches and visits (R154, R162 to R166) -/

theorem acts_setPort {s : State} {p : Port} {v : PortState} (h : v.sup = (s.port p).sup) : Acts s (s.setPort p v) :=
  (Act.port s p v h).acts

theorem acts_takeFrame (p : Port) (code tag : Byte) (body : List Byte) (s : State) :
    Acts s (takeFrame p code tag body s) := by
  unfold takeFrame takeBatch
  split
  · split <;> exact acts_setPort rfl
  · exact (acts_takeCode p code body s).trans (acts_setPort rfl)

theorem acts_takeGood (p : Port) (code tag : Byte) (body : List Byte) (s : State) :
    Acts s (takeGood p code (takeFrame p code tag body) s) := by
  unfold takeGood renew
  split
  · exact .refl s
  · split
    · exact (Move.renewed s p).acts.trans (acts_takeFrame p code tag body _)
    · exact acts_takeFrame p code tag body s

theorem acts_takeBad (p : Port) (code tag : Byte) (s : State) : Acts s (takeBad p code tag s) := by
  unfold takeBad
  split
  · exact .refl s
  · exact acts_setPort rfl

theorem acts_onFrame (p : Port) (f : Frame) (take : State → State) (s : State) (h : ∀ t, Acts t (take t)) :
    Acts s (onFrame p f take s) := by
  have hrx : Acts s (s.setRx p .hunt) := acts_setPort rfl
  unfold onFrame holdFrame
  split
  · exact .refl s
  · split
    · exact hrx.trans (.ite _ (acts_setPort rfl))
    · exact hrx.trans (h _)

theorem acts_goodFrame (p : Port) (code tag : Byte) (body : List Byte) (s : State) :
    Acts s (goodFrame p code tag body s) := acts_onFrame p _ _ s (acts_takeGood p code tag body)

theorem acts_spoiltFrame (p : Port) (code tag : Byte) (s : State) : Acts s (spoiltFrame p code tag s) :=
  acts_onFrame p _ _ s (acts_takeBad p code tag)

theorem acts_subOrder (p : Port) (s : State) : Acts s (s.subOrder p) := by
  unfold subOrder afterSubOrder closeBatch
  split
  · split
    · next x _ _ =>
      have hx := acts_takeCode p x.1 x.2 s
      have hclose : ∀ (t : State) r, Acts t ((t.setBatch p none).pushResponse p r) := fun t r =>
        Acts.trans (t := t.setBatch p none) (acts_setPort rfl) (acts_setPort rfl)
      split
      · exact hx.trans (hclose _ _)
      · split
        · exact hx.trans (hclose _ _)
        · exact hx.trans (acts_setPort rfl)
    · exact .refl s
  · exact .refl s

theorem acts_takeHeldFrame (p : Port) (s : State) : Acts s (s.takeHeldFrame p) := by
  unfold takeHeldFrame takeHeld
  split
  · exact .refl s
  · split
    · next f t _ =>
      have hp : Acts s (s.setPort p { s.port p with heldFrames := t }) := acts_setPort rfl
      split
      · exact hp.trans (acts_takeGood p _ _ _ _)
      · exact hp.trans (acts_takeBad p _ _ _)
    · exact .refl s

theorem acts_incoming (p : Port) (b : Byte) (s : State) : Acts s (s.incoming p b) := by
  have hrx : ∀ r, Acts s (s.setRx p r) := fun r => acts_setPort rfl
  unfold incoming byteIn completeFrame
  split
  · exact .refl s
  · split
    · exact .ite _ (hrx _)
    · exact hrx _
    · exact hrx _
    · exact hrx _
    · exact hrx _
    · split
      · exact acts_goodFrame p _ _ _ s
      · exact acts_spoiltFrame p _ _ s

theorem acts_responseSent (p : Port) (s : State) : Acts s (s.responseSent p) := by
  unfold responseSent
  split
  · exact .refl s
  · split
    · exact (Act.hardReset s).acts
    · exact acts_setPort rfl

theorem moves_applyAction {p : Port} {a : SweepAction} {i : Nat} {s : State} (hf : (s.ctx i).state ≠ .free)
    (ha : (s.sweepOf p).action = some a) : Moves s (applyAction p a i s).after := by
  cases a with
  | retire => exact moves_retireContext hf
  | hold => exact moves_holdContext i s
  | resume => exact moves_resumeContext i s
  | relink l => exact moves_relinkContext l hf
  | rerateLow => exact moves_setRateOf i _ s
  | setPriority n => exact moves_prioritize i (Or.inr ⟨p, ha⟩)
  | adopt => exact moves_adoptContext p i s

theorem moves_endVisit {s : State} {p : Port} {v : Sweep} (h : v.action = (s.sweepOf p).action) :
    Moves s (s.endVisit p v) := by
  have hset := (Move.sweepSet s p v (Or.inl h)).moves
  exact .ite _ (fun _ => hset) fun _ => hset.trans (moves_raisePort _ p .sweepDone)

theorem action_counted (v : Sweep) (r : Result) : (v.counted r).action = v.action := by
  unfold Sweep.counted
  split <;> rfl

theorem moves_visit (p : Port) (s : State) : Moves s (s.visit p) := by
  unfold visit visitWith visitMatch
  split
  · next a sel _ ha _ =>
    refine .ite _ (fun hmatch => ?_) fun _ => moves_endVisit rfl
    obtain ⟨hmatch, _⟩ := Bool.and_eq_true_iff.1 hmatch
    obtain ⟨_, hlive⟩ := Bool.and_eq_true_iff.1 hmatch
    refine (moves_applyAction (of_decide_eq_true hlive) ha).trans (moves_endVisit ?_)
    have hkept := (sweepsPortsKept_applyAction p a (s.sweepOf p).cursor s).sweeps
    show (Sweep.counted _ _).action = ((applyAction p a (s.sweepOf p).cursor s).after.sweeps.get p).action
    rw [hkept]
    exact action_counted _ _
  · exact .refl s

/-! ### Every command -/

theorem acts_runs {s t u : State} (h : Acts s u) (ht : runs s u = .next t) : Acts s t := by
  unfold runs at ht
  split at ht <;> cases ht
  · exact .refl s
  · exact h

theorem acts_pin (s : State) (b : Bool) : Acts s { s with pinHeld := b } :=
  (Move.registers (t := { s with pinHeld := b }) rfl fun hc => hc).acts

/-- What a command that is no order does. -/
theorem acts_event (i : Instr) (ho : i.order = none) (s t : State) (ht : exec i s = .next t) : Acts s t := by
  cases i <;> first | (cases ho; done) | skip
  case batchSubOrder p => exact acts_runs (acts_subOrder p s) ht
  case heldFrameTaken p => exact acts_runs (acts_takeHeldFrame p s) ht
  case hardResetPerformed p => exact acts_runs (.ite _ (acts_responseSent p s)) ht
  case unknownOrder p code tag body => exact acts_runs (acts_goodFrame p code tag body s) ht
  case badFrame p code tag => exact acts_runs (acts_spoiltFrame p code tag s) ht
  case frameTooLong p n =>
    refine acts_runs ?_ ht
    split
    · exact .refl s
    · exact acts_setPort rfl
  case frameDiscardedFullLine p code tag body => exact acts_runs (.ite _ (acts_goodFrame p code tag body s)) ht
  case frameDiscardedBatchHold p good code tag body =>
    refine acts_runs (.ite _ ?_) ht
    split
    · exact acts_goodFrame p code tag body s
    · exact acts_spoiltFrame p code tag s
  case responseSent p => exact acts_runs (acts_responseSent p s) ht
  case resetPin => cases ht; exact (Act.hardReset s).acts.trans (acts_pin s.hardReset true)
  case powerOn => cases ht; exact (Act.hardReset s).acts
  case resetPinReleased => cases ht; exact acts_pin s false
  case frameMark rx => exact acts_runs (moves_frameMark s rx).acts ht
  case framingLost => exact acts_runs (moves_framingLost s).acts ht
  case boundaryClaim j => exact acts_runs (moves_boundaryClaim s j).acts ht
  case portBoundary p => exact acts_runs (moves_portBoundary s p).acts ht
  case portSilent p => exact acts_runs (.ite _ (moves_portBoundary s p).acts) ht
  case firstCellExpiry j => exact acts_runs (.ite _ (moves_boundaryClaim s j).acts) ht
  case silenceLimit j => exact acts_runs (.ite _ (moves_boundaryClaim s j).acts) ht
  case silenceRetire j => exact acts_runs (.ite _ (moves_boundaryClaim s j).acts) ht
  case handoverExpiry j => exact acts_runs (.ite _ (moves_boundaryClaim s j).acts) ht
  case cellArrival l bytes => exact acts_runs (moves_intake s l bytes).acts ht
  case laneTakesWork n j => exact acts_runs (moves_takeWork s n.isLt j).acts ht
  case workCompletion n => exact acts_runs (moves_finishWork s n).acts ht
  case laneCheck n => exact acts_runs (moves_laneFault s n.isLt).acts ht
  case contextCheck n => exact acts_runs (moves_contextFault s n).acts ht
  case queueCheck n => exact acts_runs (moves_queueFault s n).acts ht
  case sweepVisit p => exact acts_runs (moves_visit p s).acts ht
  case incomingByte p b => exact acts_runs (acts_incoming p b s) ht
  case outboundCellSent l => exact acts_runs (moves_cellSent s l).acts ht

/-- Every command makes moves, writes at ports and hard resets. -/
theorem acts_exec (i : Instr) (s t : State) (ht : exec i s = .next t) : Acts s t := by
  cases ho : i.order with
  | some f =>
    rw [exec_order i f ho s] at ht
    exact acts_runs (acts_goodFrame f.port f.code.byte f.tag f.body s) ht
  | none => exact acts_event i ho s t ht

/-- What no act and no change of the waiting commands breaks, no step breaks. -/
theorem step_keeps {P : State → Prop} (hact : ∀ s t, Act s t → P s → P t)
    (hpending : ∀ (s : State) q, P s → P { s with pending := q }) (s t : State) (hs : P s) (ht : step s = .next t) :
    P t := by
  unfold step at ht
  split at ht
  · cases ht; exact hs
  · next c rest _ => exact (acts_exec c _ t ht).keeps hact (hpending s rest hs)

end Sys2Proof.Machine
end

section
/-! SUPPORT. The waiting commands through every act: every command ends in a next state and keeps them (O2). -/

namespace Sys2Proof.Machine

open State

/-- No move touches the waiting commands. -/
theorem Move.pending {s t : State} (h : Move s t) : t.pending = s.pending := by
  cases h with
  | registers ht => rw [ht]
  | silenced p => rfl
  | workDone n i w => rw [completionFrame_complete s n i w]
  | laneLost n v =>
    exact (sheddingPass_keeps State.pending (fun t i r => by simp) (fun t i => by simp) _).trans (loseLane_pending s n v)
  | laneBack n =>
    exact (readmissionPass_keeps State.pending (fun t i => by simp) _).trans (regainLane_pending s n)
  | noticed p => exact foldl_keeps State.pending deliver (fun t i => deliver_pending t i) _ _
  | softReset => rw [softReset_frame s]
  | _ => simp [takeSlot, placePrimary, moveRef]

theorem Act.pending {s t : State} (h : Act s t) : t.pending = s.pending := by
  cases h with
  | move h => exact h.pending
  | port p v => rfl
  | hardReset => rfl

/-- No command touches the commands that wait behind it (log 2). -/
theorem exec_pending {c : Instr} {s t : State} (ht : exec c s = .next t) : t.pending = s.pending :=
  (acts_exec c s t ht).keeps (P := fun u => u.pending = s.pending) (fun _ _ hact hp => hact.pending.trans hp) rfl

/-- Every command has a meaning that ends in a next state. -/
theorem exec_next (c : Instr) (s : State) : ∃ t, exec c s = .next t := by
  have hruns : ∀ u, ∃ t, runs s u = .next t := fun u => by
    unfold runs
    split <;> exact ⟨_, rfl⟩
  cases ho : c.order with
  | some f => exact (exec_order c f ho s).symm ▸ hruns _
  | none =>
    cases c <;> first | (cases ho; done) | skip
    case resetPin => exact ⟨_, rfl⟩
    case resetPinReleased => exact ⟨_, rfl⟩
    case powerOn => exact ⟨_, rfl⟩
    all_goals exact hruns _

/-- A held reset pin stops every command but the pin's two and power-on (R177, log 16). -/
theorem exec_held {c : Instr} {s : State} (h : s.pinHeld = true) (hp : c ≠ .resetPin) (hr : c ≠ .resetPinReleased)
    (ho : c ≠ .powerOn) : exec c s = .next s := by
  cases horder : c.order with
  | some f => exact (exec_order c f horder s).trans (runs_held h _)
  | none =>
    cases c <;> first | (cases horder; done) | skip
    case resetPin => exact absurd rfl hp
    case resetPinReleased => exact absurd rfl hr
    case powerOn => exact absurd rfl ho
    all_goals exact runs_held h _

/-- Settles O2: each command is a claim that runs unless the pin is held, and no act touches the waiting commands. -/
theorem everyCommandCompletes : Obligations.EveryCommandCompletes := by
  unfold Obligations.EveryCommandCompletes
  refine ⟨fun c s => ?_, fun c s h hp hr ho => exec_held h hp hr ho⟩
  obtain ⟨t, ht⟩ := exec_next c s
  exact ⟨t, ht, exec_pending ht⟩

end Sys2Proof.Machine
end

section
/-! SUPPORT. Orphaned contexts: no act parts the flag of a context in use from the state of its owner port (R172). -/

namespace Sys2Proof.Machine

open State

/-! ### What keeps the orphaned flags -/

/-- A record in use after was in use before, with the same owner and the same orphaned flag. -/
structure Ctx.StaysOwned (c d : Ctx) : Prop where
  inUse : d.state ≠ .free → c.state ≠ .free
  owner : d.owner = c.owner
  orphaned : d.orphaned = c.orphaned

theorem Ctx.StaysOwned.refl (c : Ctx) : c.StaysOwned c := ⟨id, rfl, rfl⟩

theorem Ctx.StaysOwned.trans {c d e : Ctx} (h : c.StaysOwned d) (h' : d.StaysOwned e) : c.StaysOwned e :=
  ⟨fun he => h.inUse (h'.inUse he), h'.owner.trans h.owner, h'.orphaned.trans h.orphaned⟩

/-- A record that stays in its state, or was in use before. -/
theorem Ctx.StaysOwned.of_inUse {c d : Ctx} (h : c.state ≠ .free) (ho : d.owner = c.owner)
    (hf : d.orphaned = c.orphaned) : c.StaysOwned d := ⟨fun _ => h, ho, hf⟩

theorem Ctx.staysOwned_uplinkStart (c : Ctx) (w : Option Work) : c.StaysOwned { c.uplinkStart.2 with work := w } := by
  rw [uplinkStart_keeps]
  exact ⟨id, rfl, rfl⟩

/-- The supervision states stand, and every record stays owned. -/
structure OwnersKept (s t : State) : Prop where
  ports : ∀ p, (t.port p).sup.state = (s.port p).sup.state
  ctx : ∀ i, (s.ctx i).StaysOwned (t.ctx i)

namespace OwnersKept

theorem refl (s : State) : OwnersKept s s := ⟨fun _ => rfl, fun i => .refl (s.ctx i)⟩

theorem trans {s t u : State} (h : OwnersKept s t) (h' : OwnersKept t u) : OwnersKept s u :=
  ⟨fun p => (h'.ports p).trans (h.ports p), fun i => (h.ctx i).trans (h'.ctx i)⟩

theorem orphansMatch {s t : State} (h : OwnersKept s t) (hs : s.orphansMatch) : t.orphansMatch := by
  intro i hi
  obtain ⟨hlive, howner, hflag⟩ := h.ctx i
  rw [hflag, howner, h.ports]
  exact hs i (hlive hi)

/-- The records and the ports as they were. -/
theorem of_ctxs {s t : State} (hp : t.ports = s.ports) (hc : t.ctxs = s.ctxs) : OwnersKept s t :=
  ⟨fun p => by rw [port_congr hp], fun i => by rw [ctx_congr hc]; exact .refl _⟩

/-- One record changed. -/
theorem edit {s t : State} {i : Nat} {d : Ctx} (hp : t.ports = s.ports)
    (hc : ∀ j, t.ctx j = if j = i then d else s.ctx j) (hd : (s.ctx i).StaysOwned d) : OwnersKept s t := by
  refine ⟨fun p => by rw [port_congr hp], fun j => ?_⟩
  rw [hc]
  split
  · next hj => exact hj ▸ hd
  · exact .refl _

/-- A port written with its supervision state as it was. -/
theorem setPort {s : State} {p : Port} {v : PortState} (h : v.sup.state = (s.port p).sup.state) :
    OwnersKept s (s.setPort p v) := by
  refine ⟨fun q => ?_, fun i => .refl _⟩
  rw [port_setPort]
  split
  · next hq => rw [hq]; exact h
  · rfl

theorem foldl {β : Type} {f : State → β → State} (h : ∀ t b, OwnersKept t (f t b)) (l : List β) (s : State) :
    OwnersKept s (l.foldl f s) := by
  induction l generalizing s with
  | nil => exact .refl s
  | cons b l ih => exact (h s b).trans (ih _)

end OwnersKept

namespace State

/-! ### The operations (R8 to R21, R66, R67, R86) -/

theorem ownersKept_enterFree (s : State) (i : Nat) : OwnersKept s (s.enterFree i) :=
  .edit (enterFree_ports s i) (ctx_enterFree s i) ⟨fun h => absurd rfl h, rfl, rfl⟩

theorem ownersKept_enterClosed {s : State} {i : Nat} (h : (s.ctx i).state ≠ .free) (cause : RetireCause) :
    OwnersKept s (s.enterClosed i cause) :=
  .edit (enterClosed_ports s i cause) (fun j => ctx_enterClosed s i j cause) (.of_inUse h rfl rfl)

theorem ownersKept_enterHeld {s : State} {i : Nat} (h : (s.ctx i).state ≠ .free) (cause : HoldCause) :
    OwnersKept s (s.enterHeld i cause) :=
  .edit (enterHeld_ports s i cause) (fun j => ctx_enterHeld s i j cause) (.of_inUse h rfl rfl)

theorem ownersKept_leaveHeld {s : State} {i : Nat} (h : (s.ctx i).state ≠ .free) : OwnersKept s (s.leaveHeld i) :=
  .edit (leaveHeld_ports s i) (ctx_leaveHeld s i) (.of_inUse h rfl rfl)

theorem ownersKept_setCtx {s : State} {i : Nat} {d : Ctx} (h : (s.ctx i).StaysOwned d) :
    OwnersKept s (s.setCtx i d) := .edit rfl (fun j => ctx_setCtx s i j d) h

theorem ownersKept_modCtx {s : State} {i : Nat} {f : Ctx → Ctx} (h : (s.ctx i).StaysOwned (f (s.ctx i))) :
    OwnersKept s (s.modCtx i f) := .edit rfl (fun j => ctx_modCtx s i j f) h

theorem ownersKept_raise (s : State) (i : Nat) (k : Cond) : OwnersKept s (s.raise i k) :=
  .edit (raise_ports s i k) (fun j => ctx_raise s i j k) ⟨id, rfl, rfl⟩

theorem ownersKept_raisePort (s : State) (p : Port) (k : PortCond) : OwnersKept s (s.raisePort p k) := .setPort rfl

theorem ownersKept_raiseBoth (s : State) (k : PortCond) : OwnersKept s (s.raiseBoth k) :=
  (ownersKept_raisePort s .a k).trans (ownersKept_raisePort _ .b k)

theorem ownersKept_lower (s : State) (i r : Nat) : OwnersKept s (s.lower i r) :=
  .edit (lower_ports s i r) (ctx_lower s i r) ⟨id, rfl, rfl⟩

theorem state_readmit (s : State) (i j : Nat) : (((s.leaveHeld i).raise i .readmitted).ctx j).state =
    if j = i then ((s.ctx i).heldFrom.getD .active).state else (s.ctx j).state := by
  rw [ctx_readmit]
  split <;> rfl

theorem ownersKept_shed {s : State} {i : Nat} (h : (s.ctx i).state ≠ .free) : OwnersKept s (s.shed i) := by
  have hcount : OwnersKept s (s.countFor .shed i) := .of_ctxs (countFor_ports s .shed i) (countFor_ctxs s .shed i)
  exact (hcount.trans (ownersKept_enterHeld (s := s.countFor .shed i) h .shed)).trans (ownersKept_raise _ i .shed)

theorem ownersKept_readmit {s : State} {i : Nat} (h : (s.ctx i).state ≠ .free) :
    OwnersKept s ((s.leaveHeld i).raise i .readmitted) := (ownersKept_leaveHeld h).trans (ownersKept_raise _ i _)

/-! ### The passes (R65 to R69) -/

theorem ownersKept_foldl_shedOne (l : List Nat) (w : Walk) : OwnersKept w.after (l.foldl shedOne w).after := by
  induction l generalizing w with
  | nil => exact .refl _
  | cons i l ih =>
    refine OwnersKept.trans ?_ (ih _)
    unfold shedOne
    split
    · split
      · exact ownersKept_lower _ i _
      · exact .refl _
    · exact .refl _

/-- Step two holds contexts in use alone: a FREE record would come into use by it. -/
theorem ownersKept_foldl_shedTwo (l : List Nat) (w : Walk) (h : ∀ i ∈ l, (w.after.ctx i).state ≠ .free) :
    OwnersKept w.after (l.foldl shedTwo w).after := by
  induction l generalizing w with
  | nil => exact .refl _
  | cons i l ih =>
    have hlater : ∀ j ∈ l, (w.after.ctx j).state ≠ .free := fun j hj => h j (List.mem_cons_of_mem i hj)
    rw [List.foldl_cons]
    unfold shedTwo
    split
    · refine (ownersKept_shed (h i (List.mem_cons_self ..))).trans (ih ⟨w.count + 1, w.after.shed i⟩ fun j hj => ?_)
      show ((w.after.shed i).ctx j).state ≠ .free
      rw [state_shed]
      split
      · decide
      · exact hlater j hj
    · exact ih w hlater

theorem ownersKept_foldl_readmitOne (l : List Nat) (w : Walk) (h : ∀ i ∈ l, (w.after.ctx i).state ≠ .free) :
    OwnersKept w.after (l.foldl readmitOne w).after := by
  induction l generalizing w with
  | nil => exact .refl _
  | cons i l ih =>
    have hlater : ∀ j ∈ l, (w.after.ctx j).state ≠ .free := fun j hj => h j (List.mem_cons_of_mem i hj)
    rw [List.foldl_cons]
    unfold readmitOne
    split
    · refine (ownersKept_readmit (h i (List.mem_cons_self ..))).trans
        (ih ⟨w.count + 1, (w.after.leaveHeld i).raise i .readmitted⟩ fun j hj => ?_)
      show (((w.after.leaveHeld i).raise i .readmitted).ctx j).state ≠ .free
      rw [state_readmit]
      split
      · cases (w.after.ctx i).heldFrom.getD .active <;> decide
      · exact hlater j hj
    · exact ih w hlater

theorem converting_of_mem_sheddingOrder {s : State} {i : Nat} (h : i ∈ s.sheddingOrder) :
    (s.ctx i).converting = true := by
  unfold sheddingOrder at h
  obtain ⟨n, _, hi⟩ := List.mem_flatMap.1 h
  exact (Bool.and_eq_true_iff.1 (List.mem_filter.1 (List.mem_reverse.1 hi)).2).1

/-- Step one leaves every state as it was. -/
theorem state_foldl_shedOne (l : List Nat) (w : Walk) (j : Nat) :
    ((l.foldl shedOne w).after.ctx j).state = (w.after.ctx j).state := by
  induction l generalizing w with
  | nil => rfl
  | cons i l ih =>
    refine (ih _).trans ?_
    unfold shedOne
    split
    · split
      · rw [ctx_lower]
        split
        · next hj => rw [hj]; rfl
        · rfl
      · rfl
    · rfl

theorem ownersKept_sheddingPass (s : State) : OwnersKept s (sheddingPass s).after := by
  refine (ownersKept_foldl_shedOne s.sheddingOrder ⟨0, s⟩).trans
    (ownersKept_foldl_shedTwo s.sheddingOrder ⟨0, _⟩ fun i hi => ?_)
  rw [state_foldl_shedOne]
  exact Ctx.ne_free_of_converting (converting_of_mem_sheddingOrder hi)

theorem ownersKept_readmissionPass (s : State) : OwnersKept s (readmissionPass s).after := by
  refine ownersKept_foldl_readmitOne s.readmissionOrder ⟨0, s⟩ fun i hi => ?_
  show (s.ctx i).state ≠ .free
  rw [(held_of_mem_readmissionOrder hi).1]
  decide

theorem ownersKept_deliver (s : State) (i : Nat) : OwnersKept s (s.deliver i) := by
  unfold deliver
  split
  · exact ownersKept_enterFree s i
  · exact ownersKept_modCtx ⟨id, rfl, rfl⟩

theorem ownersKept_complete (s : State) (n i : Nat) (w : Work) : OwnersKept s (s.complete n i w) :=
  .edit (by rw [completionFrame_complete s n i w]) (fun j => ctx_complete s n i j w) ⟨id, rfl, rfl⟩

theorem ownersKept_softReset (s : State) : OwnersKept s s.softReset := by
  have hfree : OwnersKept s s.freeAll := OwnersKept.foldl ownersKept_enterFree _ s
  have htables : OwnersKept s.freeAll s.freeAll.emptyTables := .of_ctxs rfl rfl
  have hconds : ∀ (t : State) p, OwnersKept t (t.clearConds p) := fun t p => .setPort rfl
  exact ((hfree.trans htables).trans (hconds _ .a)).trans (hconds _ .b)

/-! ### The supervision of a port, OPEN and ADOPT (R8, R172, R174) -/

theorem orphansMatch_renewal {s : State} (hs : s.orphansMatch) (p : Port) : (s.renewal p).orphansMatch := by
  intro i hi
  have hother : ((s.renewal p).port p.other).sup = (s.port p.other).sup := by
    rw [port_other_renewal]
    split <;> rfl
  rw [ctx_renewal] at hi ⊢
  by_cases hsil : (s.port p).sup.state = .silent
  · rw [if_pos hsil] at hi ⊢
    by_cases hown : (s.ctx i).state ≠ .free ∧ (s.ctx i).owner = p
    · rw [if_pos hown]
      show false = decide (((s.renewal p).port (s.ctx i).owner).sup.state = .silent)
      rw [hown.2, port_renewal]
      rfl
    · rw [if_neg hown] at hi ⊢
      have hp : (s.ctx i).owner = p.other := (Port.eq_or_other p _).resolve_left fun h => hown ⟨hi, h⟩
      rw [hs i hi, hp, hother]
  · rw [if_neg hsil] at hi ⊢
    rw [hs i hi]
    rcases Port.eq_or_other p (s.ctx i).owner with hp | hp
    · rw [hp, port_renewal]
      simp [hsil]
    · rw [hp, hother]

theorem orphansMatch_goSilent {s : State} (hs : s.orphansMatch) (p : Port) : (s.goSilent p).orphansMatch := by
  intro i hi
  rw [ctx_goSilent] at hi ⊢
  by_cases hown : (s.ctx i).state ≠ .free ∧ (s.ctx i).owner = p
  · rw [if_pos hown]
    show true = decide (((s.goSilent p).port (s.ctx i).owner).sup.state = .silent)
    rw [hown.2, port_goSilent]
    rfl
  · rw [if_neg hown] at hi ⊢
    have hp : (s.ctx i).owner = p.other := (Port.eq_or_other p _).resolve_left fun h => hown ⟨hi, h⟩
    rw [hs i hi, hp, port_other_goSilent]

/-- A record given to port `p`, orphaned as the port is SILENT. -/
theorem orphansMatch_given {s t : State} {i : Nat} {p : Port} (hs : s.orphansMatch) (hp : t.ports = s.ports)
    (hi : (t.ctx i).owner = p ∧ (t.ctx i).orphaned = s.silent p) (hc : ∀ j, j ≠ i → t.ctx j = s.ctx j) :
    t.orphansMatch := by
  intro j hj
  rw [port_congr hp]
  by_cases hji : j = i
  · obtain ⟨howner, hflag⟩ := hi
    rw [hji, howner, hflag]
    rfl
  · rw [hc j hji] at hj ⊢
    exact hs j hj

end State

/-! ### Every act -/

theorem Move.orphansMatch {s t : State} (h : Move s t) (hs : s.orphansMatch) : t.orphansMatch := by
  have same : ∀ {u : State}, u.ports = s.ports → u.ctxs = s.ctxs → u.orphansMatch := fun hp hc =>
    (OwnersKept.of_ctxs hp hc).orphansMatch hs
  have kept : ∀ {i : Nat} {f : Ctx → Ctx}, (s.ctx i).StaysOwned (f (s.ctx i)) → (s.modCtx i f).orphansMatch := fun hd =>
    (ownersKept_modCtx hd).orphansMatch hs
  cases h with
  | registers ht => exact same (by rw [ht]) (by rw [ht])
  | noted p conds sup hsup => exact (OwnersKept.setPort hsup).orphansMatch hs
  | renewed p => exact orphansMatch_renewal hs p
  | silenced p => exact orphansMatch_goSilent hs p
  | sweepSet p v => exact same rfl rfl
  | settings i d hd =>
    exact (ownersKept_setCtx ⟨fun hf => by rwa [← hd.state], hd.owner, hd.orphaned⟩).orphansMatch hs
  | raised i k => exact (ownersKept_raise s i k).orphansMatch hs
  | opened p n =>
    refine orphansMatch_given (i := s.lowestFree) (p := p) hs rfl ?_ fun j hj => ?_
    · rw [ctx_modCtx, if_pos rfl]
      exact ⟨rfl, rfl⟩
    · rw [ctx_modCtx, if_neg hj]
  | freed i => exact (ownersKept_enterFree s i).orphansMatch hs
  | closed i cause hconv => exact (ownersKept_enterClosed (Ctx.ne_free_of_converting hconv) cause).orphansMatch hs
  | reopened i harmed =>
    exact (OwnersKept.edit (returnToOpen_ports s i) (ctx_returnToOpen s i)
      (.of_inUse (by rw [harmed]; decide) rfl rfl)).orphansMatch hs
  | held i cause hconv => exact (ownersKept_enterHeld (Ctx.ne_free_of_converting hconv) cause).orphansMatch hs
  | resumed i hheld => exact (ownersKept_leaveHeld (by rw [hheld]; decide)).orphansMatch hs
  | armed i hopened =>
    have hreserve : OwnersKept s (s.reserve (s.currentCost i)) := .of_ctxs rfl rfl
    exact (hreserve.trans (ownersKept_modCtx (s := s.reserve (s.currentCost i))
      (.of_inUse (show (s.ctx i).state ≠ .free by rw [hopened]; decide) rfl rfl))).orphansMatch hs
  | activated i harmed =>
    exact (ownersKept_modCtx (.of_inUse (by rw [harmed]; decide) rfl rfl)).orphansMatch hs
  | committed i k =>
    exact (OwnersKept.edit (commit_ports s i k) (ctx_commit s i k) ⟨id, rfl, rfl⟩).orphansMatch hs
  | played i d =>
    exact (ownersKept_setCtx (s := s) (i := i) (d := (s.ctx i).playoutMoved d) ⟨id, rfl, rfl⟩).orphansMatch hs
  | workDone n i w => exact (ownersKept_complete s n i w).orphansMatch hs
  | laneLost n v =>
    have hlost : OwnersKept s (s.loseLane n v) := (OwnersKept.of_ctxs (by simp) (by simp)).trans (ownersKept_raiseBoth _ _)
    exact (hlost.trans (ownersKept_sheddingPass _)).orphansMatch hs
  | laneBack n =>
    have hback : OwnersKept s (s.regainLane n) := (OwnersKept.of_ctxs (by simp) (by simp)).trans (ownersKept_raiseBoth _ _)
    exact (hback.trans (ownersKept_readmissionPass _)).orphansMatch hs
  | noticed p =>
    have htaken : OwnersKept s (s.takeNotices p) :=
      OwnersKept.trans (t := s.setPort p { s.port p with conds := 0 }) (.setPort rfl) (.of_ctxs rfl rfl)
    exact (htaken.trans (OwnersKept.foldl ownersKept_deliver _ _)).orphansMatch hs
  | adopted p i =>
    refine orphansMatch_given (i := i) (p := p) hs (by simp) ?_ fun j hj => ?_
    · rw [ctx_modCtx, if_pos rfl]
      exact ⟨rfl, rfl⟩
    · rw [ctx_modCtx, if_neg hj, ctx_congr (moveQueued_ctxs s p i)]
  | softReset => exact (ownersKept_softReset s).orphansMatch hs
  | prioritized i n => exact kept ⟨id, rfl, rfl⟩
  | reheld i => exact kept ⟨id, rfl, rfl⟩
  | lawSet i n law => exact kept ⟨id, rfl, rfl⟩
  | slotTaken i n law =>
    exact (OwnersKept.edit (by simp [takeSlot]) (ctx_takeSlot i n law s) ⟨id, rfl, rfl⟩).orphansMatch hs
  | slotLeft i b =>
    exact (OwnersKept.edit (by simp) (ctx_modCtx_of_ctxs (by simp) i · _) ⟨id, rfl, rfl⟩).orphansMatch hs
  | keyPlaced i k =>
    exact (OwnersKept.edit (by simp [placePrimary]) (ctx_placePrimary i k s) ⟨id, rfl, rfl⟩).orphansMatch hs
  | keyLeft i k =>
    exact (OwnersKept.edit (by simp) (ctx_modCtx_of_ctxs (by simp) i · _) ⟨id, rfl, rfl⟩).orphansMatch hs
  | prepared i h =>
    exact (OwnersKept.edit (by simp) (ctx_modCtx_of_ctxs (by simp) i · _) ⟨id, rfl, rfl⟩).orphansMatch hs
  | abandoned i h => exact (OwnersKept.edit (by simp) (ctx_abandon s i _) ⟨id, rfl, rfl⟩).orphansMatch hs
  | requested i q => exact kept ⟨id, rfl, rfl⟩
  | retuned i r => exact (OwnersKept.edit (by simp) (ctx_retune s i r) ⟨id, rfl, rfl⟩).orphansMatch hs
  | paid i r => exact (OwnersKept.edit (by simp) (ctx_retunePaid s i r) ⟨id, rfl, rfl⟩).orphansMatch hs
  | setKept i set c => exact kept ⟨id, rfl, rfl⟩
  | setMoved i set c =>
    exact ((OwnersKept.edit (by simp) (ctx_retune s i _) ⟨id, rfl, rfl⟩).trans
      (ownersKept_modCtx ⟨id, rfl, rfl⟩)).orphansMatch hs
  | setPaid i set c =>
    exact ((OwnersKept.edit (by simp) (ctx_retunePaid s i _) ⟨id, rfl, rfl⟩).trans
      (ownersKept_modCtx ⟨id, rfl, rfl⟩)).orphansMatch hs
  | profileNamed i n set c =>
    exact (OwnersKept.edit (by simp [moveRef]) (ctx_modCtx_of_ctxs (by simp [moveRef]) i · _)
      ⟨id, rfl, rfl⟩).orphansMatch hs
  | profileLoaded n c => exact same rfl rfl
  | profileCleared n => exact same rfl rfl
  | workDropped i =>
    exact (OwnersKept.edit (by simp) (ctx_discardWork s i) ⟨id, rfl, rfl⟩).orphansMatch hs
  | workStarted i =>
    exact (ownersKept_setCtx (s := s) (i := i) (Ctx.staysOwned_uplinkStart _ _)).orphansMatch hs
  | readyTaken i => exact kept ⟨id, rfl, rfl⟩
  | workTaken n i => exact same rfl rfl
  | laneSet n v => exact same rfl rfl

theorem Act.orphansMatch {s t : State} (h : Act s t) (hs : s.orphansMatch) : t.orphansMatch := by
  cases h with
  | move h => exact h.orphansMatch hs
  | port p v hsup => exact (OwnersKept.setPort (congrArg Supervision.state hsup)).orphansMatch hs
  | hardReset => exact fun i hi => absurd rfl hi

/-- Every step keeps each context in use orphaned exactly while its owner port is SILENT (R172). -/
theorem orphansMatch_step (s t : State) (hs : s.orphansMatch) (ht : step s = .next t) : t.orphansMatch :=
  step_keeps (P := State.orphansMatch) (fun _ _ hact => hact.orphansMatch) (fun _ _ h => h) s t hs ht

end Sys2Proof.Machine
end

section
/-! SUPPORT. The bounds of a port (R163, R165, R166, R177): no move touches its line, its batch, its held frames or its
ordered reset; the frame claims write them within the bounds. -/

namespace Sys2Proof.Machine

open State

/-! ### What the bounds rest on -/

/-- The line, the batch, the held frames and the ordered reset of a port stand. -/
structure PortState.SameFrames (x y : PortState) : Prop where
  line : y.line = x.line
  batch : y.batch = x.batch
  held : y.heldFrames = x.heldFrames
  reset : y.resetPending = x.resetPending

theorem PortState.SameFrames.refl (x : PortState) : x.SameFrames x := ⟨rfl, rfl, rfl, rfl⟩

theorem PortState.SameFrames.trans {x y z : PortState} (h : x.SameFrames y) (h' : y.SameFrames z) : x.SameFrames z :=
  ⟨h'.line.trans h.line, h'.batch.trans h.batch, h'.held.trans h.held, h'.reset.trans h.reset⟩

/-- Both ports keep their frames. -/
structure FramesKept (s t : State) : Prop where
  port : ∀ q, (s.port q).SameFrames (t.port q)

namespace FramesKept

theorem refl (s : State) : FramesKept s s := ⟨fun q => .refl (s.port q)⟩

theorem trans {s t u : State} (h : FramesKept s t) (h' : FramesKept t u) : FramesKept s u :=
  ⟨fun q => (h.port q).trans (h'.port q)⟩

theorem of_ports {s t : State} (h : t.ports = s.ports) : FramesKept s t :=
  ⟨fun q => by rw [port_congr h]; exact .refl _⟩

theorem setPort {s : State} {p : Port} {v : PortState} (h : (s.port p).SameFrames v) :
    FramesKept s (s.setPort p v) := by
  refine ⟨fun q => ?_⟩
  rw [port_setPort]
  split
  · next hq => exact hq ▸ h
  · exact .refl _

end FramesKept

theorem framesKept_renewal (s : State) (p : Port) : FramesKept s (s.renewal p) := by
  refine ⟨fun q => ?_⟩
  rcases Port.eq_or_other p q with rfl | rfl
  · rw [port_renewal]
    exact ⟨rfl, rfl, rfl, rfl⟩
  · rw [port_other_renewal]
    split <;> exact ⟨rfl, rfl, rfl, rfl⟩

theorem framesKept_goSilent (s : State) (p : Port) : FramesKept s (s.goSilent p) := by
  refine ⟨fun q => ?_⟩
  rcases Port.eq_or_other p q with rfl | rfl
  · rw [port_goSilent]
    exact ⟨rfl, rfl, rfl, rfl⟩
  · rw [port_other_goSilent]
    exact ⟨rfl, rfl, rfl, rfl⟩

theorem framesKept_raiseBoth (s : State) (k : PortCond) : FramesKept s (s.raiseBoth k) :=
  ⟨fun q => by rw [port_raiseBoth]; exact ⟨rfl, rfl, rfl, rfl⟩⟩

/-- No move touches the frames of a port. -/
theorem Move.framesKept {s t : State} (h : Move s t) : FramesKept s t := by
  cases h with
  | registers ht => exact .of_ports (by rw [ht])
  | noted p conds sup => exact .setPort ⟨rfl, rfl, rfl, rfl⟩
  | renewed p => exact framesKept_renewal s p
  | silenced p => exact framesKept_goSilent s p
  | workDone n i w => exact .of_ports (by rw [completionFrame_complete s n i w])
  | laneLost n v =>
    have hlost : FramesKept s (s.loseLane n v) :=
      (FramesKept.of_ports (by simp)).trans (framesKept_raiseBoth ((s.setLaneState n v).setAvailable _) .laneOut)
    exact hlost.trans (.of_ports (sheddingPass_keeps State.ports (fun t i r => by simp) (fun t i => by simp) _))
  | laneBack n =>
    have hback : FramesKept s (s.regainLane n) :=
      (FramesKept.of_ports (by simp)).trans (framesKept_raiseBoth ((s.setLaneState n .inService).setAvailable _) .laneBack)
    exact hback.trans (.of_ports (readmissionPass_keeps State.ports (fun t i => by simp) _))
  | noticed p =>
    have htaken : FramesKept s (s.takeNotices p) :=
      FramesKept.trans (t := s.setPort p { s.port p with conds := 0 }) (.setPort ⟨rfl, rfl, rfl, rfl⟩) (.of_ports rfl)
    exact htaken.trans (.of_ports (ports_foldl_deliver _ _))
  | softReset => exact ⟨fun q => by rw [port_softReset]; exact ⟨rfl, rfl, rfl, rfl⟩⟩
  | _ => exact .of_ports (by simp [takeSlot, placePrimary, moveRef])

theorem Moves.framesKept {s t : State} (h : Moves s t) : FramesKept s t :=
  h.keeps (P := FramesKept s) (fun _ _ hmove hs => hs.trans hmove.framesKept) (.refl s)

/-! ### The bounds, one by one -/

/-- The bounds of a port (R163, R165, R166, R177). -/
structure PortState.Bounds (x : PortState) : Prop where
  line : x.line.length ≤ 8
  held : x.heldFrames.length ≤ 8
  batch : ∀ b, x.batch = some b → x.line.length < 8 ∧ ∀ y ∈ b.todo, barred y.1 = false
  reset : x.resetPending = true → x.batch = none ∧ x.line ≠ []

theorem PortState.bounded_iff (x : PortState) : x.bounded = true ↔ x.Bounds := by
  unfold PortState.bounded
  constructor
  · intro h
    simp only [Bool.and_eq_true, Bool.or_eq_true, decide_eq_true_eq] at h
    obtain ⟨⟨⟨⟨hline, hheld⟩, hroom⟩, htodo⟩, hreset⟩ := h
    refine ⟨hline, hheld, fun b hb => ⟨?_, fun y hy => ?_⟩, fun hr => ?_⟩
    · simpa [hb] using hroom
    · rw [hb] at htodo
      simpa using List.all_eq_true.1 htodo y hy
    · simpa [hr] using hreset
  · rintro ⟨hline, hheld, hbatch, hreset⟩
    simp only [Bool.and_eq_true, Bool.or_eq_true, decide_eq_true_eq]
    refine ⟨⟨⟨⟨hline, hheld⟩, ?_⟩, ?_⟩, ?_⟩
    · cases hb : x.batch with
      | none => exact Or.inl rfl
      | some b => exact Or.inr (hbatch b hb).1
    · cases hb : x.batch with
      | none => rfl
      | some b => exact List.all_eq_true.2 fun y hy => by simpa using (hbatch b hb).2 y hy
    · cases hr : x.resetPending with
      | false => exact Or.inl rfl
      | true =>
        obtain ⟨hnone, hne⟩ := hreset hr
        exact Or.inr (by simp [hnone, hne])

theorem PortState.SameFrames.bounds {x y : PortState} (h : x.SameFrames y) (hx : x.Bounds) : y.Bounds := by
  obtain ⟨hline, hbatch, hheld, hreset⟩ := h
  refine ⟨by rw [hline]; exact hx.line, by rw [hheld]; exact hx.held, fun b hb => ?_, fun hr => ?_⟩
  · rw [hline]
    exact hx.batch b (hbatch.symm.trans hb)
  · rw [hline, hbatch]
    exact hx.reset (hreset.symm.trans hr)

/-- A port that takes a frame: no batch, no ordered reset, room in its line (R163, R166, R177). -/
structure PortState.Takes (x : PortState) : Prop where
  room : x.line.length < 8
  held : x.heldFrames.length ≤ 8
  batch : x.batch = none
  reset : x.resetPending = false

theorem PortState.SameFrames.takes {x y : PortState} (h : x.SameFrames y) (hx : x.Takes) : y.Takes := by
  obtain ⟨hline, hbatch, hheld, hreset⟩ := h
  exact ⟨by rw [hline]; exact hx.room, by rw [hheld]; exact hx.held, hbatch.trans hx.batch, hreset.trans hx.reset⟩

theorem PortState.Takes.bounds {x : PortState} (h : x.Takes) : x.Bounds :=
  ⟨h.room.le, h.held, fun _ hb => absurd (h.batch.symm.trans hb) (by simp),
    fun hr => absurd (h.reset.symm.trans hr) (by decide)⟩

/-- A response joins the line of a port with room, whatever reset it has just ordered (R163, R177). -/
theorem PortState.bounds_answered {x : PortState} (hroom : x.line.length < 8) (hheld : x.heldFrames.length ≤ 8)
    (hbatch : x.batch = none) (r : Response) : PortState.Bounds { x with line := x.line ++ [r] } := by
  refine ⟨?_, hheld, fun b hb => absurd (hbatch.symm.trans hb) (by simp), fun _ => ⟨hbatch, by simp⟩⟩
  rw [List.length_append]
  exact Nat.succ_le_of_lt hroom

/-- Both ports are within their bounds. -/
structure State.PortsOk (s : State) : Prop where
  port : ∀ q, (s.port q).Bounds

theorem State.portsBounded_iff (s : State) : s.portsBounded = true ↔ s.PortsOk := by
  unfold portsBounded
  rw [Bool.and_eq_true, PortState.bounded_iff, PortState.bounded_iff]
  exact ⟨fun ⟨ha, hb⟩ => ⟨fun q => by cases q; exacts [ha, hb]⟩, fun h => ⟨h.port .a, h.port .b⟩⟩

theorem FramesKept.portsOk {s t : State} (h : FramesKept s t) (hs : s.PortsOk) : t.PortsOk :=
  ⟨fun q => (h.port q).bounds (hs.port q)⟩

namespace State

theorem portsOk_setPort {s : State} {p : Port} {v : PortState} (hs : s.PortsOk) (hv : v.Bounds) :
    (s.setPort p v).PortsOk := by
  refine ⟨fun q => ?_⟩
  rw [port_setPort]
  split
  · exact hv
  · exact hs.port q

theorem framesKept_setRx (s : State) (p : Port) (r : Rx) : FramesKept s (s.setRx p r) := .setPort ⟨rfl, rfl, rfl, rfl⟩

theorem portsOk_hardReset (s : State) : s.hardReset.PortsOk := by
  have hport : (PortState.reset).Takes := ⟨by decide, by decide, rfl, rfl⟩
  exact ⟨fun q => by cases q <;> exact hport.bounds⟩

/-! ### What an order does to the ports (R163, R165, R177) -/

/-- An order leaves the frames of both ports, but a HARD RESET marks its port (R177). -/
theorem framesKept_takeCode (p : Port) (code : Byte) (body : List Byte) (s : State) :
    FramesKept s (takeCode p code body s).after ∨
      (takeCode p code body s).after = s.setPort p { s.port p with resetPending := true } := by
  unfold takeCode
  split
  · next c _ =>
    by_cases hc : c = .reset
    · subst hc
      show FramesKept s (resetOrder p body s).after ∨ (resetOrder p body s).after = _
      unfold resetOrder
      split
      · split
        · exact Or.inl (Move.softReset s).framesKept
        · split
          · exact Or.inr rfl
          · exact Or.inl (.refl s)
      · exact Or.inl (.refl s)
    · exact Or.inl (moves_takeOrder p c hc body s).framesKept
  · exact Or.inl (.refl s)

theorem portsOk_respond {p : Port} {code tag : Byte} {body : List Byte} {s : State} (hs : s.PortsOk)
    (hp : (s.port p).Takes) : (respond p code tag (takeCode p code body s)).PortsOk := by
  rcases framesKept_takeCode p code body s with hkept | hmarked
  · have htakes := (hkept.port p).takes hp
    exact portsOk_setPort (hkept.portsOk hs) (PortState.bounds_answered htakes.room htakes.held htakes.batch _)
  · have hanswered := PortState.bounds_answered (x := { s.port p with resetPending := true }) hp.room hp.held hp.batch
    unfold respond pushResponse
    rw [hmarked, port_setPort, if_pos rfl, setPort_setPort]
    exact portsOk_setPort hs (hanswered _)

/-- A batch that passes its intake carries no BATCH and no RESET (R165). -/
theorem barred_of_batchIntake {tag : Byte} {body : List Byte} {b : Batch} (h : batchIntake tag body = .ok b) :
    ∀ y ∈ b.todo, barred y.1 = false := by
  unfold batchIntake at h
  split at h
  · split at h
    · cases h
    · split at h
      · cases h
      · split at h
        · cases h
        · split at h
          · cases h
          · next hgood =>
            cases h
            intro y hy
            rw [← Bool.not_eq_true]
            exact fun hbarred => hgood (Or.inr (Or.inr (List.any_eq_true.2 ⟨y, hy, hbarred⟩)))
  · cases h

theorem portsOk_takeFrame {p : Port} (code tag : Byte) (body : List Byte) {s : State} (hs : s.PortsOk)
    (hp : (s.port p).Takes) : (takeFrame p code tag body s).PortsOk := by
  unfold takeFrame
  split
  · unfold takeBatch
    split
    · exact portsOk_setPort hs (PortState.bounds_answered hp.room hp.held hp.batch _)
    · next b hb =>
      refine portsOk_setPort hs ⟨hp.room.le, hp.held, fun b' hb' => ?_, fun hr => ?_⟩
      · cases hb'
        exact ⟨hp.room, barred_of_batchIntake hb⟩
      · exact absurd (hp.reset.symm.trans hr) (by decide)
  · exact portsOk_respond hs hp

/-! ### Frames (R162, R163, R166) -/

theorem framesKept_renew (s : State) (p : Port) (code : Byte) : FramesKept s (s.renew p code) := by
  unfold renew
  split
  · exact framesKept_renewal s p
  · exact .refl s

/-- A port that takes up a frame, its line perhaps full. -/
theorem portsOk_takeGood {p : Port} (code tag : Byte) (body : List Byte) {s : State} (hs : s.PortsOk)
    (hb : (s.port p).batch = none) (hr : (s.port p).resetPending = false) :
    (takeGood p code (takeFrame p code tag body) s).PortsOk := by
  cases hfull : s.lineFull p with
  | true => rw [takeGood_lineFull hfull]; exact hs
  | false =>
    rw [takeGood_room hfull]
    have hp : (s.port p).Takes := ⟨by simpa [lineFull_eq] using hfull, (hs.port p).held, hb, hr⟩
    have hkept := framesKept_renew s p code
    exact portsOk_takeFrame code tag body (hkept.portsOk hs) ((hkept.port p).takes hp)

theorem portsOk_takeBad {p : Port} (code tag : Byte) {s : State} (hs : s.PortsOk)
    (hb : (s.port p).batch = none) : (takeBad p code tag s).PortsOk := by
  cases hfull : s.lineFull p with
  | true => rw [takeBad_lineFull hfull]; exact hs
  | false =>
    rw [takeBad_room hfull]
    exact portsOk_setPort hs (PortState.bounds_answered (by simpa [lineFull_eq] using hfull) (hs.port p).held hb _)

theorem portsOk_onFrame {p : Port} (f : Frame) {take : State → State} {s : State} (hs : s.PortsOk)
    (htake : ∀ t : State, t.PortsOk → (t.port p).batch = none → (t.port p).resetPending = false → (take t).PortsOk) :
    (onFrame p f take s).PortsOk := by
  have hrx := framesKept_setRx s p .hunt
  have hok := hrx.portsOk hs
  unfold onFrame
  split
  · exact hs
  · next hr =>
    split
    · unfold holdFrame
      split
      · next hroom =>
        obtain ⟨hline, hheld, hbatch, hreset⟩ := hok.port p
        refine portsOk_setPort hok ⟨hline, ?_, hbatch, hreset⟩
        rw [List.length_append]
        exact Nat.succ_le_of_lt hroom
      · exact hok
    · next hw =>
      refine htake _ hok ?_ ?_
      · rw [(hrx.port p).batch]
        unfold frameWaits at hw
        simp only [Bool.or_eq_true, not_or, Option.not_isSome_iff_eq_none] at hw
        exact hw.1
      · rw [(hrx.port p).reset]
        exact Bool.eq_false_iff.2 hr

theorem portsOk_goodFrame (p : Port) (code tag : Byte) (body : List Byte) {s : State} (hs : s.PortsOk) :
    (goodFrame p code tag body s).PortsOk :=
  portsOk_onFrame _ hs fun _ ht hb hr => portsOk_takeGood code tag body ht hb hr

theorem portsOk_spoiltFrame (p : Port) (code tag : Byte) {s : State} (hs : s.PortsOk) :
    (spoiltFrame p code tag s).PortsOk := portsOk_onFrame _ hs fun _ ht hb _ => portsOk_takeBad code tag ht hb

/-- The batch response joins the line as the batch ends (R166). -/
theorem portsOk_closeBatch {s : State} {p : Port} {b : Batch} (hs : s.PortsOk) (hb : (s.port p).batch = some b)
    (tag : Byte) (entries : List BatchEntry) : (s.closeBatch p tag entries).PortsOk := by
  obtain ⟨hline, hheld, hbatch, _⟩ := hs.port p
  unfold closeBatch pushResponse setBatch
  rw [port_setPort, if_pos rfl, setPort_setPort]
  exact portsOk_setPort hs (PortState.bounds_answered (x := { s.port p with batch := none }) (hbatch b hb).1 hheld rfl _)

theorem portsOk_subOrder (p : Port) {s : State} (hs : s.PortsOk) : (s.subOrder p).PortsOk := by
  unfold subOrder
  split
  · next b hb =>
    obtain ⟨hline, hheld, hbatch, hreset⟩ := hs.port p
    obtain ⟨hroom, hbarred⟩ := hbatch b hb
    split
    · next x rest hx =>
      have hrest : ∀ y ∈ rest, barred y.1 = false := fun y hy => hbarred y (by rw [hx]; exact List.mem_cons_of_mem x hy)
      have hkept := (moves_takeCode (p := p) (hbarred x (by rw [hx]; exact List.mem_cons_self ..)) x.2 s).framesKept
      have hok := hkept.portsOk hs
      have hb' := (hkept.port p).batch.trans hb
      unfold afterSubOrder
      split
      · exact portsOk_closeBatch hok hb' _ _
      · split
        · exact portsOk_closeBatch hok hb' _ _
        · obtain ⟨hline', hheld', hbatch', hreset'⟩ := hok.port p
          refine portsOk_setPort hok ⟨hline', hheld', fun c hc => ?_, fun hr => ?_⟩
          · cases hc
            exact ⟨(hbatch' b hb').1, hrest⟩
          · exact absurd ((hreset' hr).1.symm.trans hb') (by simp)
    · exact hs
  · exact hs

theorem portsOk_takeHeldFrame (p : Port) {s : State} (hs : s.PortsOk) : (s.takeHeldFrame p).PortsOk := by
  unfold takeHeldFrame
  split
  · exact hs
  · next hfree =>
    obtain ⟨hb, hr⟩ : (s.port p).batch = none ∧ (s.port p).resetPending = false := by simpa using hfree
    split
    · next f rest hf =>
      obtain ⟨hline, hheld, hbatch, hreset⟩ := hs.port p
      have hok : (s.setPort p { s.port p with heldFrames := rest }).PortsOk := by
        refine portsOk_setPort hs ⟨hline, ?_, hbatch, hreset⟩
        rw [hf] at hheld
        exact (Nat.le_succ _).trans hheld
      have hport := port_setPort s p p { s.port p with heldFrames := rest }
      rw [if_pos rfl] at hport
      unfold takeHeld
      split
      · exact portsOk_takeGood _ _ _ hok (by rw [hport]; exact hb) (by rw [hport]; exact hr)
      · exact portsOk_takeBad _ _ hok (by rw [hport]; exact hb)
    · exact hs

theorem portsOk_incoming (p : Port) (b : Byte) {s : State} (hs : s.PortsOk) : (s.incoming p b).PortsOk := by
  have hrx : ∀ r, (s.setRx p r).PortsOk := fun r => (framesKept_setRx s p r).portsOk hs
  unfold incoming byteIn completeFrame
  split
  · exact hs
  · split
    · split
      · exact hrx _
      · exact hs
    · exact hrx _
    · exact hrx _
    · exact hrx _
    · exact hrx _
    · split
      · exact portsOk_goodFrame p _ _ _ hs
      · exact portsOk_spoiltFrame p _ _ hs

/-- The drain of the line ends in the hard reset where it was ordered (R177). -/
theorem portsOk_responseSent (p : Port) {s : State} (hs : s.PortsOk) : (s.responseSent p).PortsOk := by
  unfold responseSent
  split
  · exact hs
  · next r rest hl =>
    split
    · exact portsOk_hardReset s
    · next hdue =>
      obtain ⟨hline, hheld, hbatch, hreset⟩ := hs.port p
      rw [hl] at hline hbatch
      refine portsOk_setPort hs ⟨(Nat.le_succ _).trans hline, hheld, fun b hb => ?_, fun hr => ⟨(hreset hr).1, ?_⟩⟩
      · obtain ⟨hroom, hbarred⟩ := hbatch b hb
        exact ⟨(Nat.lt_succ_self _).trans hroom, hbarred⟩
      · intro hrest
        have hlast : rest = [] := hrest
        exact hdue (by simp [show (s.port p).resetPending = true from hr, hlast])

end State

/-! ### Every command -/

theorem portsOk_runs {s t u : State} (hs : s.PortsOk) (h : u.PortsOk) (ht : runs s u = .next t) : t.PortsOk := by
  unfold runs at ht
  split at ht <;> cases ht
  · exact hs
  · exact h

theorem portsOk_ite {s t : State} (c : Prop) [Decidable c] (hs : s.PortsOk) (ht : t.PortsOk) :
    (if c then t else s).PortsOk := by
  split
  · exact ht
  · exact hs

/-- A command that is no order keeps both ports within their bounds. -/
theorem portsOk_event {i : Instr} (ho : i.order = none) {s t : State} (hs : s.PortsOk) (ht : exec i s = .next t) :
    t.PortsOk := by
  have moved : ∀ {u}, Moves s u → u.PortsOk := fun hm => hm.framesKept.portsOk hs
  cases i <;> first | (cases ho; done) | skip
  case batchSubOrder p => exact portsOk_runs hs (portsOk_subOrder p hs) ht
  case heldFrameTaken p => exact portsOk_runs hs (portsOk_takeHeldFrame p hs) ht
  case hardResetPerformed p => exact portsOk_runs hs (portsOk_ite _ hs (portsOk_responseSent p hs)) ht
  case unknownOrder p code tag body => exact portsOk_runs hs (portsOk_goodFrame p code tag body hs) ht
  case badFrame p code tag => exact portsOk_runs hs (portsOk_spoiltFrame p code tag hs) ht
  case frameTooLong p n =>
    refine portsOk_runs hs ?_ ht
    split
    · exact hs
    · exact (framesKept_setRx s p _).portsOk hs
  case frameDiscardedFullLine p code tag body =>
    exact portsOk_runs hs (portsOk_ite _ hs (portsOk_goodFrame p code tag body hs)) ht
  case frameDiscardedBatchHold p good code tag body =>
    refine portsOk_runs hs (portsOk_ite _ hs ?_) ht
    split
    · exact portsOk_goodFrame p code tag body hs
    · exact portsOk_spoiltFrame p code tag hs
  case responseSent p => exact portsOk_runs hs (portsOk_responseSent p hs) ht
  case resetPin => cases ht; exact ⟨(portsOk_hardReset s).port⟩
  case powerOn => cases ht; exact portsOk_hardReset s
  case resetPinReleased => cases ht; exact ⟨hs.port⟩
  case frameMark rx => exact portsOk_runs hs (moved (moves_frameMark s rx)) ht
  case framingLost => exact portsOk_runs hs (moved (moves_framingLost s)) ht
  case boundaryClaim j => exact portsOk_runs hs (moved (moves_boundaryClaim s j)) ht
  case portBoundary p => exact portsOk_runs hs (moved (moves_portBoundary s p)) ht
  case portSilent p => exact portsOk_runs hs (portsOk_ite _ hs (moved (moves_portBoundary s p))) ht
  case firstCellExpiry j => exact portsOk_runs hs (portsOk_ite _ hs (moved (moves_boundaryClaim s j))) ht
  case silenceLimit j => exact portsOk_runs hs (portsOk_ite _ hs (moved (moves_boundaryClaim s j))) ht
  case silenceRetire j => exact portsOk_runs hs (portsOk_ite _ hs (moved (moves_boundaryClaim s j))) ht
  case handoverExpiry j => exact portsOk_runs hs (portsOk_ite _ hs (moved (moves_boundaryClaim s j))) ht
  case cellArrival l bytes => exact portsOk_runs hs (moved (moves_intake s l bytes)) ht
  case laneTakesWork n j => exact portsOk_runs hs (moved (moves_takeWork s n.isLt j)) ht
  case workCompletion n => exact portsOk_runs hs (moved (moves_finishWork s n)) ht
  case laneCheck n => exact portsOk_runs hs (moved (moves_laneFault s n.isLt)) ht
  case contextCheck n => exact portsOk_runs hs (moved (moves_contextFault s n)) ht
  case queueCheck n => exact portsOk_runs hs (moved (moves_queueFault s n)) ht
  case sweepVisit p => exact portsOk_runs hs (moved (moves_visit p s)) ht
  case incomingByte p b => exact portsOk_runs hs (portsOk_incoming p b hs) ht
  case outboundCellSent l => exact portsOk_runs hs (moved (moves_cellSent s l)) ht

theorem portsOk_exec {i : Instr} {s t : State} (hs : s.PortsOk) (ht : exec i s = .next t) : t.PortsOk := by
  cases ho : i.order with
  | some f =>
    rw [exec_order i f ho s] at ht
    exact portsOk_runs hs (portsOk_goodFrame f.port f.code.byte f.tag f.body hs) ht
  | none => exact portsOk_event ho hs ht

/-- Settles O56: no move touches the frames of a port and the frame claims stay within the bounds; renewal, silence, OPEN
and ADOPT alone write orphaned flags, each as the owner port stands. -/
theorem portBoundsKept : Obligations.PortBoundsKept := by
  unfold Obligations.PortBoundsKept
  refine ⟨fun s t hs ht => ?_, orphansMatch_step⟩
  rw [portsBounded_iff] at hs ⊢
  unfold step at ht
  split at ht
  · cases ht; exact hs
  · next rest _ => exact portsOk_exec (s := { s with pending := rest }) ⟨hs.port⟩ ht

end Sys2Proof.Machine
end

section
/-! SUPPORT. The tables keep their canonical form through every move (log 26). -/

namespace Sys2Proof.Machine

open State

namespace State

/-! ### The composed operations -/

theorem canonical_countFor (s : State) (k : Event) (i : Nat) (h : s.canonical = true) :
    (s.countFor k i).canonical = true := h

theorem canonical_raiseIf (s : State) (b : Bool) (i : Nat) (k : Cond) (h : s.canonical = true) :
    (s.raiseIf b i k).canonical = true := by
  cases b
  · exact h
  · exact canonical_raise s i k h

theorem canonical_playBlock (s : State) (i : Nat) (x : Option (List Byte)) (h : s.canonical = true) :
    (s.playBlock i x).canonical = true := by
  unfold playBlock
  split
  · exact canonical_setBlock s _ _ h
  · exact h

theorem canonical_releaseSlot (s : State) (b : Option SlotBinding) (h : s.canonical = true) :
    (s.releaseSlot b).canonical = true := by
  cases b with
  | none => exact h
  | some b => exact canonical_setBlock _ _ _ (canonical_setSlotEntry s _ _ h)

theorem canonical_modRefs (s : State) (n : Nat) (f : Nat → Nat) (h : s.canonical = true) :
    (s.modRefs n f).canonical = true := canonical_setProfile s n _ h

theorem canonical_dropRef (s : State) (n : Option Nat) (h : s.canonical = true) : (s.dropRef n).canonical = true := by
  cases n with
  | none => exact h
  | some n => exact canonical_modRefs s n _ h

theorem canonical_promote (s : State) (k : StreamKey) (h : s.canonical = true) : (s.promote k).canonical = true := by
  unfold promote
  split
  · exact canonical_setStreamEntry s _ _ h
  · exact h

theorem canonical_sendCell? (s : State) (i : Nat) (w : Work) (l : List Byte) (k : Option StreamKey)
    (h : s.canonical = true) : (s.sendCell? i w l k).canonical = true := by
  cases k with
  | none => exact h
  | some k => exact canonical_setLink s _ _ h

theorem canonical_releaseHoldings (s : State) (i : Nat) (h : s.canonical = true) :
    (s.releaseHoldings i).canonical = true := by
  have hwork : ((s.giveBack (s.reservation i)).discardWork i).canonical = true := canonical_discardWork _ i h
  have hslot := canonical_releaseSlot _ (s.ctx i).slot hwork
  have hkeys := canonical_removeStream? _ ((s.ctx i).handover.map Handover.key)
    (canonical_removeStream? _ (s.ctx i).primary hslot)
  exact canonical_modCtx _ i _ (canonical_dropRef _ (s.ctx i).profile hkeys)

theorem canonical_enterFree (s : State) (i : Nat) (h : s.canonical = true) : (s.enterFree i).canonical = true :=
  canonical_modCtx _ i _ (canonical_releaseHoldings s i h)

theorem canonical_enterClosed (s : State) (i : Nat) (cause : RetireCause) (h : s.canonical = true) :
    (s.enterClosed i cause).canonical = true := by
  have hreleased := canonical_releaseHoldings s i h
  unfold enterClosed
  split <;> exact canonical_modCtx _ i _ hreleased

theorem canonical_enterHeld (s : State) (i : Nat) (cause : HoldCause) (h : s.canonical = true) :
    (s.enterHeld i cause).canonical = true := by
  have hwork : ((s.giveBack (s.currentCost i)).discardWork i).canonical = true := canonical_discardWork _ i h
  exact canonical_raiseIf _ _ i _ (canonical_modCtx _ i _ (canonical_playBlock _ i none hwork))

theorem canonical_leaveHeld (s : State) (i : Nat) (h : s.canonical = true) : (s.leaveHeld i).canonical = true :=
  canonical_modCtx (s.reserve (s.currentCost i)) i _ h

theorem canonical_returnToOpen (s : State) (i : Nat) (h : s.canonical = true) :
    (s.returnToOpen i).canonical = true := by
  have hwork : ((s.giveBack (s.currentCost i)).discardWork i).canonical = true := canonical_discardWork _ i h
  exact canonical_raise _ i _ (canonical_raiseIf _ _ i _ (canonical_modCtx _ i _ hwork))

theorem canonical_takeSlot (i n : Nat) (law : Law) (s : State) (h : s.canonical = true) :
    (takeSlot i n law s).canonical = true :=
  canonical_modCtx _ i _ (canonical_setBlock _ n _ (canonical_setSlotEntry _ n _ (canonical_releaseSlot s _ h)))

theorem canonical_placePrimary (i : Nat) (k : StreamKey) (s : State) (h : s.canonical = true) :
    (placePrimary i k s).canonical = true :=
  canonical_modCtx _ i _ (canonical_setStreamEntry _ _ _ (canonical_removeStream? s _ h))

theorem canonical_commit (s : State) (i : Nat) (k : StreamKey) (h : s.canonical = true) :
    (s.commit i k).canonical = true := by
  have hkeys := canonical_promote _ k (canonical_removeStream? s (s.ctx i).primary h)
  exact canonical_countFor _ .handoverCommit i (canonical_raise _ i .handoverDone (canonical_modCtx _ i _ hkeys))

theorem canonical_retune (s : State) (i r : Nat) (h : s.canonical = true) : (s.retune i r).canonical = true :=
  canonical_countFor _ .rateChange i (canonical_modCtx s i _ h)

theorem canonical_retunePaid (s : State) (i r : Nat) (h : s.canonical = true) : (s.retunePaid i r).canonical = true :=
  canonical_retune (s.setReserved (s.reserved + s.costOf i r - s.currentCost i)) i r h

theorem canonical_reportClip (s : State) (i : Nat) (w : Work) (b : Bool) (h : s.canonical = true) :
    (s.reportClip i w b).canonical = true := by
  cases b
  · exact h
  · exact canonical_raiseIf (s.countFor .clipPeriod i) w.clipReport i .clipping h

theorem canonical_complete (s : State) (n i : Nat) (w : Work) (h : s.canonical = true) :
    (s.complete n i w).canonical = true := by
  have hsent := canonical_sendCell? _ i w (w.payload (s.ctx i).law s.freeCount) w.bicast
    (canonical_sendCell? _ i w (w.payload (s.ctx i).law s.freeCount) w.primary
      (canonical_setLane s n { s.lane n with inHand := none } h))
  exact canonical_reportClip _ i w (w.clipping s.freeCount) (canonical_modCtx _ i _ hsent)

theorem canonical_lower (s : State) (i r : Nat) (h : s.canonical = true) : (s.lower i r).canonical = true :=
  canonical_raise _ i _ (canonical_raiseIf _ _ i _ (canonical_modCtx _ i _ (canonical_retunePaid s i r h)))

theorem canonical_shed (s : State) (i : Nat) (h : s.canonical = true) : (s.shed i).canonical = true :=
  canonical_raise _ i _ (canonical_enterHeld (s.countFor .shed i) i .shed h)

theorem canonical_renewal (s : State) (p : Port) (h : s.canonical = true) : (s.renewal p).canonical = true := by
  unfold renewal
  split
  · exact canonical_setOrphans (s.setSup p _) p false h
  · exact h

theorem canonical_deliver (s : State) (i : Nat) (h : s.canonical = true) : (s.deliver i).canonical = true := by
  unfold deliver
  split
  · exact canonical_enterFree s i h
  · exact canonical_modCtx s i _ h

theorem canonical_moveQueued (s : State) (p : Port) (i : Nat) (h : s.canonical = true) :
    (s.moveQueued p i).canonical = true := by
  unfold moveQueued
  split <;> exact h

theorem canonical_foldl {β : Type} {f : State → β → State} (hf : ∀ t b, t.canonical = true → (f t b).canonical = true)
    (l : List β) (s : State) (h : s.canonical = true) : (l.foldl f s).canonical = true := by
  induction l generalizing s with
  | nil => exact h
  | cons b l ih => exact ih _ (hf s b h)

theorem canonical_softReset (s : State) (h : s.canonical = true) : s.softReset.canonical = true := by
  have hfree : s.freeAll.canonical = true := canonical_foldl canonical_enterFree _ s h
  obtain ⟨hctxs, -, -, hprofiles, hlanes, -, hlinks, hclaims⟩ := (canonical_iff _).1 hfree
  exact (canonical_iff s.softReset).2 ⟨hctxs, rfl, rfl, hprofiles, hlanes, rfl, hlinks, hclaims⟩

/-! ### The passes (R65 to R69) -/

theorem canonical_walk {f : Walk → Nat → Walk}
    (hf : ∀ w i, w.after.canonical = true → (f w i).after.canonical = true) (l : List Nat) (w : Walk)
    (h : w.after.canonical = true) : (l.foldl f w).after.canonical = true := by
  induction l generalizing w with
  | nil => exact h
  | cons i l ih => exact ih _ (hf w i h)

theorem canonical_sheddingPass (s : State) (h : s.canonical = true) : (sheddingPass s).after.canonical = true := by
  refine canonical_walk (fun w i hw => ?_) _ _ (canonical_walk (fun w i hw => ?_) _ ⟨0, s⟩ h)
  · unfold shedTwo
    split
    · exact canonical_shed _ i hw
    · exact hw
  · unfold shedOne
    split
    · split
      · exact canonical_lower _ i _ hw
      · exact hw
    · exact hw

theorem canonical_readmissionPass (s : State) (h : s.canonical = true) :
    (readmissionPass s).after.canonical = true := by
  refine canonical_walk (fun w i hw => ?_) _ ⟨0, s⟩ h
  unfold readmitOne
  split
  · exact canonical_raise _ i _ (canonical_leaveHeld _ i hw)
  · exact hw

end State

/-- No move spoils the canonical form of a table. -/
theorem Move.canonical {s t : State} (h : Move s t) (hs : s.canonical = true) : t.canonical = true := by
  cases h with
  | registers _ hc => exact hc hs
  | noted p conds sup => exact hs
  | renewed p => exact canonical_renewal s p hs
  | silenced p => exact canonical_setOrphans (s.setSup p _) p true hs
  | sweepSet p v => exact hs
  | settings i d => exact canonical_setCtx s i d hs
  | prioritized i n => exact canonical_modCtx s i _ hs
  | raised i k => exact canonical_raise s i k hs
  | opened p n => exact canonical_modCtx s _ _ hs
  | freed i => exact canonical_enterFree s i hs
  | closed i cause => exact canonical_enterClosed s i cause hs
  | reopened i => exact canonical_returnToOpen s i hs
  | armed i => exact canonical_modCtx (s.reserve (s.currentCost i)) i _ hs
  | held i cause => exact canonical_enterHeld s i cause hs
  | resumed i => exact canonical_leaveHeld s i hs
  | reheld i => exact canonical_modCtx s i _ hs
  | lawSet i n law => exact canonical_modCtx s i _ hs
  | slotTaken i n law => exact canonical_takeSlot i n law s hs
  | slotLeft i b => exact canonical_modCtx _ i _ (canonical_releaseSlot s (some b) hs)
  | keyPlaced i k => exact canonical_placePrimary i k s hs
  | keyLeft i k => exact canonical_modCtx _ i _ (canonical_removeStream? s (some k) hs)
  | prepared i h => exact canonical_modCtx _ i _ (canonical_setStreamEntry s _ _ hs)
  | committed i k => exact canonical_commit s i k hs
  | abandoned i h => exact canonical_modCtx _ i _ (canonical_removeStream? s (some h.key) hs)
  | requested i q => exact canonical_modCtx s i _ hs
  | retuned i r => exact canonical_retune s i r hs
  | paid i r => exact canonical_retunePaid s i r hs
  | setKept i set c => exact canonical_modCtx s i _ hs
  | setMoved i set c => exact canonical_modCtx _ i _ (canonical_retune s i _ hs)
  | setPaid i set c => exact canonical_modCtx _ i _ (canonical_retunePaid s i _ hs)
  | profileNamed i n set c =>
    exact canonical_modCtx _ i _ (canonical_modRefs _ n _ (canonical_dropRef s (s.ctx i).profile hs))
  | profileLoaded n c => exact canonical_setProfile s n _ hs
  | profileCleared n => exact canonical_setProfile s n _ hs
  | activated i => exact canonical_modCtx s i _ hs
  | played i d => exact canonical_setCtx s i _ hs
  | workDropped i => exact canonical_discardWork s i hs
  | workStarted i => exact canonical_setCtx s i _ hs
  | readyTaken i => exact canonical_modCtx s i _ hs
  | workDone n i w => exact canonical_complete s n i w hs
  | workTaken n i => exact canonical_setLane s n _ hs
  | laneSet n v => exact canonical_setLane s n _ hs
  | laneLost n v => exact canonical_sheddingPass _ (canonical_loseLane s n v hs)
  | laneBack n => exact canonical_readmissionPass _ (canonical_regainLane s n hs)
  | noticed p => exact canonical_foldl canonical_deliver _ (s.takeNotices p) hs
  | adopted p i => exact canonical_modCtx _ i _ (canonical_moveQueued s p i hs)
  | softReset => exact canonical_softReset s hs

end Sys2Proof.Machine
end

section
/-! SUPPORT. The stream map as a set of entries: in a canonical map where no key stands twice, what each operation on it
leaves is read off the entries (R30, R33 to R35, R126 to R132). -/

namespace Sys2Proof.Machine

open State

/-- A canonical stream map in which no key stands twice (R30). -/
structure State.KeysApart (s : State) : Prop where
  canonical : s.canonical = true
  unique : ∀ n m k, s.holdsKey n k → s.holdsKey m k → n = m

namespace State

variable {s : State}

theorem KeysApart.entry_eq (h : s.KeysApart) {n m : Nat} {e f : StreamEntry} (he : s.streamEntry n = some e)
    (hf : s.streamEntry m = some f) (hk : e.key = f.key) : n = m ∧ e = f := by
  obtain rfl := h.unique n m f.key ⟨e, he, hk⟩ ⟨f, hf, rfl⟩
  exact ⟨rfl, Option.some.inj (he.symm.trans hf)⟩

/-- Where keys stand once, a lookup finds an entry exactly where the entry holds the key. -/
theorem KeysApart.findStream_iff (h : s.KeysApart) (k : StreamKey) (n : Nat) (e : StreamEntry) :
    s.findStream k = some (n, e) ↔ s.streamEntry n = some e ∧ e.key = k := by
  rw [findStream_eq_some_iff h.canonical]
  refine ⟨fun ⟨he, hk, _⟩ => ⟨he, hk⟩, fun ⟨he, hk⟩ => ⟨he, hk, fun j hj x hx hxk => hj.ne ?_⟩⟩
  exact (h.entry_eq hx he (hxk.trans hk.symm)).1

/-- A lookup that misses: no entry holds the key. -/
theorem KeysApart.absent (h : s.KeysApart) {k : StreamKey} (hk : s.findStream k = none) {n : Nat} {e : StreamEntry}
    (he : s.streamEntry n = some e) : e.key ≠ k := by
  intro hek
  rw [(h.findStream_iff k n e).2 ⟨he, hek⟩] at hk
  cases hk

/-! ### One key removed (R34) -/

theorem KeysApart.entry_removeStream? (h : s.KeysApart) (k : Option StreamKey) (n : Nat) (e : StreamEntry) :
    (s.removeStream? k).streamEntry n = some e ↔ s.streamEntry n = some e ∧ k ≠ some e.key := by
  rw [streamEntry_removeStream?]
  cases k with
  | none => simp
  | some k =>
    simp only [Option.bind_some, ne_eq, Option.some.injEq]
    by_cases hf : (s.findStream k).map Prod.fst = some n
    · rw [if_pos hf]
      refine ⟨nofun, fun ⟨he, hne⟩ => ?_⟩
      obtain ⟨⟨m, f⟩, hfind, hm⟩ := Option.map_eq_some_iff.1 hf
      obtain rfl : m = n := hm
      obtain ⟨hentry, hkey⟩ := (h.findStream_iff k m f).1 hfind
      obtain rfl := Option.some.inj (hentry.symm.trans he)
      exact absurd hkey.symm hne
    · rw [if_neg hf]
      refine ⟨fun he => ⟨he, fun hk => hf ?_⟩, fun ⟨he, _⟩ => he⟩
      rw [(h.findStream_iff k n e).2 ⟨he, hk.symm⟩]
      rfl

/-- Entries that were there keep the keys apart. -/
theorem KeysApart.of_entries {t : State} (h : s.KeysApart) (hc : t.canonical = true)
    (he : ∀ n k, t.holdsKey n k → s.holdsKey n k) : t.KeysApart :=
  ⟨hc, fun n m k hn hm => h.unique n m k (he n k hn) (he m k hm)⟩

theorem KeysApart.removeStream? (h : s.KeysApart) (k : Option StreamKey) : (s.removeStream? k).KeysApart := by
  refine h.of_entries (canonical_removeStream? s k h.canonical) fun n k' ⟨e, he, hk⟩ => ?_
  exact ⟨e, ((h.entry_removeStream? k n e).1 he).1, hk⟩

/-! ### A handover entry made primary (R126) -/

theorem KeysApart.entry_promote (h : s.KeysApart) (k : StreamKey) (n : Nat) (e : StreamEntry) :
    (s.promote k).streamEntry n = some e ↔ (s.streamEntry n = some e ∧ e.key ≠ k) ∨
      (e.key = k ∧ e.role = .primary ∧ ∃ r, s.streamEntry n = some ⟨k, e.index, r⟩) := by
  cases hf : s.findStream k with
  | none =>
    have hsame : s.promote k = s := by
      unfold promote
      rw [hf]
    rw [hsame]
    refine ⟨fun he => Or.inl ⟨he, h.absent hf he⟩, ?_⟩
    rintro (⟨he, _⟩ | ⟨_, _, r, he⟩)
    · exact he
    · exact absurd rfl (h.absent hf he)
  | some x =>
    obtain ⟨m, f⟩ := x
    obtain ⟨hentry, hkey⟩ := (h.findStream_iff k m f).1 hf
    rw [streamEntry_promote s k m f hf]
    by_cases hn : n = m
    · subst hn
      rw [if_pos rfl, hentry]
      obtain ⟨fk, fi, fr⟩ := f
      obtain rfl : fk = k := hkey
      constructor
      · intro he
        cases he
        exact Or.inr ⟨rfl, rfl, fr, rfl⟩
      · rintro (⟨he, hne⟩ | ⟨hk, hr, r, he⟩)
        · cases he
          exact absurd rfl hne
        · cases he
          obtain ⟨ek, ei, er⟩ := e
          subst hk hr
          rfl
    · rw [if_neg hn]
      constructor
      · exact fun he => Or.inl ⟨he, fun hk => hn (h.entry_eq he hentry (hk.trans hkey.symm)).1⟩
      · rintro (⟨he, _⟩ | ⟨_, _, r, he⟩)
        · exact he
        · exact absurd (h.entry_eq he hentry hkey.symm).1 hn

theorem KeysApart.promote (h : s.KeysApart) (k : StreamKey) : (s.promote k).KeysApart := by
  refine h.of_entries (canonical_promote s k h.canonical) fun n k' ⟨e, he, hk⟩ => ?_
  rcases (h.entry_promote k n e).1 he with ⟨hentry, _⟩ | ⟨hkey, _, r, hentry⟩
  · exact ⟨e, hentry, hk⟩
  · exact ⟨_, hentry, hkey.symm.trans hk⟩

/-! ### A key placed (R33) -/

theorem entry_addStream (k : StreamKey) (i : Nat) (r : Role) (n : Nat) (e : StreamEntry) :
    (s.addStream k i r).streamEntry n = some e ↔
      (n = s.lowestStream ∧ e = ⟨k, i, r⟩) ∨ (n ≠ s.lowestStream ∧ s.streamEntry n = some e) := by
  rw [streamEntry_addStream]
  by_cases hn : n = s.lowestStream
  · simp [hn, eq_comm]
  · simp [hn]

theorem KeysApart.addStream (h : s.KeysApart) {k : StreamKey} (hk : s.findStream k = none) (i : Nat) (r : Role) :
    (s.addStream k i r).KeysApart := by
  refine ⟨canonical_setStreamEntry s _ _ h.canonical, fun n m k' => ?_⟩
  rintro ⟨e, he, hek⟩ ⟨f, hf, hfk⟩
  rcases (entry_addStream k i r n e).1 he with ⟨hn, rfl⟩ | ⟨_, he⟩ <;>
    rcases (entry_addStream k i r m f).1 hf with ⟨hm, rfl⟩ | ⟨_, hf⟩
  · exact hn.trans hm.symm
  · exact absurd (hfk.trans hek.symm) (h.absent hk hf)
  · exact absurd (hek.trans hfk.symm) (h.absent hk he)
  · exact (h.entry_eq he hf (hek.trans hfk.symm)).1

/-- A key that no entry held is not found once another has gone. -/
theorem KeysApart.findStream_removeStream? (h : s.KeysApart) {k : StreamKey} (hk : s.findStream k = none)
    (k' : Option StreamKey) : (s.removeStream? k').findStream k = none := by
  cases hf : (s.removeStream? k').findStream k with
  | none => rfl
  | some x =>
    obtain ⟨n, e⟩ := x
    obtain ⟨he, hek⟩ := ((h.removeStream? k').findStream_iff k n e).1 hf
    exact absurd hek (h.absent hk ((h.entry_removeStream? k' n e).1 he).1)

/-! ### The operations on a context's keys (R18, R33, R126, R132) -/

theorem KeysApart.congr {t : State} (h : s.KeysApart) (hc : t.canonical = true) (hm : t.streamMap = s.streamMap) :
    t.KeysApart :=
  h.of_entries hc fun n _ ⟨e, he, hk⟩ => ⟨e, (streamEntry_congr hm n).symm.trans he, hk⟩

/-- What a released context leaves: the entries of other keys (R18). -/
theorem KeysApart.entry_released (h : s.KeysApart) (i n : Nat) (e : StreamEntry) :
    (s.releaseHoldings i).streamEntry n = some e ↔ s.streamEntry n = some e ∧ (s.ctx i).primary ≠ some e.key ∧
      (s.ctx i).handover.map Handover.key ≠ some e.key := by
  rw [streamEntry_releaseHoldings, (h.removeStream? _).entry_removeStream?, h.entry_removeStream?, and_assoc]

theorem KeysApart.released (h : s.KeysApart) (i : Nat) : (s.releaseHoldings i).KeysApart := by
  refine h.of_entries (canonical_releaseHoldings s i h.canonical) fun n k ⟨e, he, hk⟩ => ?_
  exact ⟨e, ((h.entry_released i n e).1 he).1, hk⟩

theorem KeysApart.entry_placePrimary (h : s.KeysApart) (i : Nat) (k : StreamKey) (n : Nat) (e : StreamEntry) :
    (placePrimary i k s).streamEntry n = some e ↔ (n = placedEntry i s ∧ e = ⟨k, i, .primary⟩) ∨
      (n ≠ placedEntry i s ∧ s.streamEntry n = some e ∧ (s.ctx i).primary ≠ some e.key) := by
  unfold placePrimary placedEntry
  rw [modCtx_streamEntry, entry_addStream, h.entry_removeStream?]

theorem KeysApart.placePrimary (h : s.KeysApart) (i : Nat) {k : StreamKey} (hk : s.findStream k = none) :
    (placePrimary i k s).KeysApart := by
  have hplaced := (h.removeStream? (s.ctx i).primary).addStream (h.findStream_removeStream? hk _) i .primary
  exact hplaced.congr (canonical_placePrimary i k s h.canonical) rfl

theorem KeysApart.entry_commit (h : s.KeysApart) (i : Nat) (k : StreamKey) (n : Nat) (e : StreamEntry) :
    (s.commit i k).streamEntry n = some e ↔
      (s.streamEntry n = some e ∧ (s.ctx i).primary ≠ some e.key ∧ e.key ≠ k) ∨
      (e.key = k ∧ e.role = .primary ∧ (s.ctx i).primary ≠ some k ∧ ∃ r, s.streamEntry n = some ⟨k, e.index, r⟩) := by
  rw [streamEntry_congr (streamMap_commit s i k), (h.removeStream? _).entry_promote, h.entry_removeStream?, and_assoc]
  refine or_congr Iff.rfl (and_congr_right fun hk => and_congr_right fun _ => ?_)
  constructor
  · rintro ⟨r, he⟩
    obtain ⟨hentry, hne⟩ := (h.entry_removeStream? _ n _).1 he
    exact ⟨hne, r, hentry⟩
  · rintro ⟨hne, r, he⟩
    exact ⟨r, (h.entry_removeStream? _ n _).2 ⟨he, hne⟩⟩

theorem KeysApart.commit (h : s.KeysApart) (i : Nat) (k : StreamKey) : (s.commit i k).KeysApart :=
  ((h.removeStream? (s.ctx i).primary).promote k).congr (canonical_commit s i k h.canonical) (streamMap_commit s i k)

end State

end Sys2Proof.Machine
end

section
/-! SUPPORT. The attention queues (R167), and what they rest on (R18, R22, R30), through every move. -/

namespace Sys2Proof.Machine

open State

/-! ### The invariants, named -/

/-- What the queues rest on: keys stand once, a HANDOVER entry names a context with that handover record (R30), and a FREE
context is bare (R18, R22). -/
structure State.Tidy (s : State) : Prop where
  keys : s.KeysApart
  named : ∀ n e, s.streamEntry n = some e → e.role = .handover →
    (s.ctx e.index).handover.map Handover.key = some e.key
  bare : ∀ i, (s.ctx i).state = .free → (s.ctx i).conds = 0 ∧ (s.ctx i).work = none ∧ (s.ctx i).handover = none

/-- The queues agree with the records, which are tidy. -/
structure State.Attended (s : State) : Prop where
  tidy : s.Tidy
  queues : s.queuesMatch

theorem State.attended_iff (s : State) : s.Attended ↔ s.canonical = true ∧ s.queuesMatch ∧ s.freeIsBare :=
  ⟨fun ⟨⟨⟨hc, hu⟩, hn, hb⟩, hq⟩ => ⟨hc, hq, hb, hu, hn⟩, fun ⟨hc, hq, hb, hu, hn⟩ => ⟨⟨⟨hc, hu⟩, hn, hb⟩, hq⟩⟩

/-! ### Records that say the same to the queues -/

/-- Owner, pending set and handover key stand, and the record is no freer than it was. -/
structure Ctx.StaysQueued (c d : Ctx) : Prop where
  owner : d.owner = c.owner
  conds : d.conds = c.conds
  handover : d.handover.map Handover.key = c.handover.map Handover.key
  free : d.state = .free → c.state = .free ∧ (d.work = c.work ∨ d.work = none)

theorem Ctx.StaysQueued.refl (c : Ctx) : c.StaysQueued c := ⟨rfl, rfl, rfl, fun h => ⟨h, Or.inl rfl⟩⟩

/-- In a record whose state, work and handover stand, whatever else has moved. -/
theorem Ctx.StaysQueued.of_same {c d : Ctx} (ho : d.owner = c.owner) (hk : d.conds = c.conds)
    (hh : d.handover = c.handover) (hs : d.state = c.state) (hw : d.work = c.work) : c.StaysQueued d :=
  ⟨ho, hk, congrArg _ hh, fun h => ⟨hs ▸ h, Or.inl hw⟩⟩

/-- In a record that is in use after. -/
theorem Ctx.StaysQueued.of_inUse {c d : Ctx} (h : d.state ≠ .free) (ho : d.owner = c.owner) (hk : d.conds = c.conds)
    (hh : d.handover = c.handover) : c.StaysQueued d := ⟨ho, hk, congrArg _ hh, fun hf => absurd hf h⟩

namespace State

variable {s t : State} {i : Nat} {d : Ctx}

/-- One record changed, the others as they were: each stands to its earlier self as `R` says. -/
theorem edit_forall {R : Ctx → Ctx → Prop} (hr : ∀ c, R c c) (hctx : ∀ j, t.ctx j = if j = i then d else s.ctx j)
    (hd : R (s.ctx i) d) (j : Nat) : R (s.ctx j) (t.ctx j) := by
  rw [hctx]
  split
  · next hj => exact hj ▸ hd
  · exact hr _

/-! ### The queues -/

theorem queuesMatch_congr (hs : s.queuesMatch) (ha : t.attention = s.attention)
    (hc : ∀ j, (s.ctx j).StaysQueued (t.ctx j)) : t.queuesMatch := by
  intro p
  rw [queueOf_congr ha]
  refine ⟨(hs p).1, fun j => ?_⟩
  rw [(hc j).owner, (hc j).conds]
  exact (hs p).2 j

/-- A condition raised: the index joins its owner's queue where the set was empty and is so no more (R167). -/
theorem queuesMatch_joined (hs : s.queuesMatch) (hctx : ∀ j, t.ctx j = if j = i then d else s.ctx j)
    (ho : d.owner = (s.ctx i).owner) (hd : (s.ctx i).conds ≠ 0 → d.conds ≠ 0)
    (hq : ∀ p, t.queueOf p = if (s.ctx i).owner = p ∧ (s.ctx i).conds = 0 ∧ d.conds ≠ 0 then s.queueOf p ++ [i]
      else s.queueOf p) : t.queuesMatch := by
  intro p
  obtain ⟨hnodup, hmem⟩ := hs p
  rw [hq]
  split
  · next hjoin =>
    obtain ⟨howner, hempty, hraised⟩ := hjoin
    have hout : i ∉ s.queueOf p := fun hi => ((hmem i).1 hi).2 hempty
    refine ⟨List.nodup_append.2 ⟨hnodup, List.nodup_singleton i, ?_⟩, fun j => ?_⟩
    · intro a ha b hb hab
      obtain rfl := List.mem_singleton.1 hb
      exact hout (hab ▸ ha)
    · rw [List.mem_append, List.mem_singleton, hctx]
      by_cases hj : j = i
      · rw [if_pos hj, ho]
        exact ⟨fun _ => ⟨howner, hraised⟩, fun _ => Or.inr hj⟩
      · simp [hj, hmem]
  · next hstay =>
    refine ⟨hnodup, fun j => ?_⟩
    rw [hctx, hmem]
    by_cases hj : j = i
    · rw [if_pos hj, hj, ho]
      refine and_congr_right fun howner => ⟨hd, fun hraised hempty => hstay ⟨howner, hempty, hraised⟩⟩
    · rw [if_neg hj]

/-- An index leaves its owner's queue as its set is emptied (R18). -/
theorem queuesMatch_left (hs : s.queuesMatch) (hctx : ∀ j, t.ctx j = if j = i then d else s.ctx j)
    (hd : d.conds = 0)
    (hq : ∀ p, t.queueOf p = if p = (s.ctx i).owner then (s.queueOf p).filter (· ≠ i) else s.queueOf p) :
    t.queuesMatch := by
  intro p
  obtain ⟨hnodup, hmem⟩ := hs p
  have hiff : ∀ j, j ∈ t.queueOf p ↔ j ∈ s.queueOf p ∧ j ≠ i := fun j => by
    rw [hq]
    split
    · rw [List.mem_filter]
      simp
    · next hp => exact ⟨fun hj => ⟨hj, fun hji => hp (((hmem j).1 hj).1.symm.trans (by rw [hji]))⟩, fun hj => hj.1⟩
  refine ⟨?_, fun j => ?_⟩
  · rw [hq]
    split
    · exact hnodup.filter _
    · exact hnodup
  · rw [hiff, hmem, hctx]
    by_cases hj : j = i
    · simp [hj, hd]
    · simp [hj]

/-! ### Tidy records and keys -/

/-- What changes no key and frees no record. -/
theorem Tidy.quiet (hs : s.Tidy) (hcan : t.canonical = true) (hm : t.streamMap = s.streamMap)
    (hc : ∀ j, (s.ctx j).StaysQueued (t.ctx j)) : t.Tidy := by
  refine ⟨hs.keys.congr hcan hm, fun n e he hr => ?_, fun j hf => ?_⟩
  · rw [(hc e.index).handover]
    exact hs.named n e ((streamEntry_congr hm n).symm.trans he) hr
  · obtain ⟨hfree, hwork⟩ := (hc j).free hf
    obtain ⟨hconds, hnone, hhand⟩ := hs.bare j hfree
    refine ⟨(hc j).conds.trans hconds, hwork.elim (·.trans hnone) id, ?_⟩
    have hkey := (hc j).handover
    rw [hhand] at hkey
    exact Option.map_eq_none_iff.1 hkey

/-- One record changed, with the entries that name it as handover. -/
theorem Tidy.edit (hs : s.Tidy) (hk : t.KeysApart) (hctx : ∀ j, t.ctx j = if j = i then d else s.ctx j)
    (hd : d.state = .free → d.conds = 0 ∧ d.work = none ∧ d.handover = none)
    (hn : ∀ n e, t.streamEntry n = some e → e.role = .handover →
      (e.index ≠ i ∧ s.streamEntry n = some e) ∨ (e.index = i ∧ d.handover.map Handover.key = some e.key)) :
    t.Tidy := by
  refine ⟨hk, fun n e he hr => ?_, fun j => ?_⟩
  · rw [hctx]
    rcases hn n e he hr with ⟨hne, hentry⟩ | ⟨heq, hkey⟩
    · rw [if_neg hne]
      exact hs.named n e hentry hr
    · rw [if_pos heq]
      exact hkey
  · rw [hctx]
    split
    · exact hd
    · exact hs.bare j

/-- One record changed, no key and no handover key. -/
theorem Tidy.sameKeys (hs : s.Tidy) (hcan : t.canonical = true) (hm : t.streamMap = s.streamMap)
    (hctx : ∀ j, t.ctx j = if j = i then d else s.ctx j)
    (hd : d.state = .free → d.conds = 0 ∧ d.work = none ∧ d.handover = none)
    (hh : d.handover = (s.ctx i).handover) : t.Tidy := by
  refine hs.edit (hs.keys.congr hcan hm) hctx hd fun n e he hr => ?_
  have hentry := (streamEntry_congr hm n).symm.trans he
  by_cases hi : e.index = i
  · exact Or.inr ⟨hi, by rw [hh, ← hi]; exact hs.named n e hentry hr⟩
  · exact Or.inl ⟨hi, hentry⟩

/-- Quiet changes keep the queues and what they rest on. -/
theorem Attended.quiet (hs : s.Attended) (hcan : t.canonical = true) (hm : t.streamMap = s.streamMap)
    (ha : t.attention = s.attention) (hc : ∀ j, (s.ctx j).StaysQueued (t.ctx j)) : t.Attended :=
  ⟨hs.tidy.quiet hcan hm hc, queuesMatch_congr hs.queues ha hc⟩

/-- So does a quiet change of one record. -/
theorem Attended.edit (hs : s.Attended) (hcan : t.canonical = true) (hm : t.streamMap = s.streamMap)
    (ha : t.attention = s.attention) (hctx : ∀ j, t.ctx j = if j = i then d else s.ctx j)
    (hd : (s.ctx i).StaysQueued d) : t.Attended := hs.quiet hcan hm ha (edit_forall Ctx.StaysQueued.refl hctx hd)

/-- A condition raised at a record in use. -/
theorem Attended.joined (hs : s.Attended) (hcan : t.canonical = true) (hm : t.streamMap = s.streamMap)
    (hctx : ∀ j, t.ctx j = if j = i then d else s.ctx j) (hlive : d.state ≠ .free)
    (hh : d.handover = (s.ctx i).handover) (ho : d.owner = (s.ctx i).owner) (hd : (s.ctx i).conds ≠ 0 → d.conds ≠ 0)
    (hq : ∀ p, t.queueOf p = if (s.ctx i).owner = p ∧ (s.ctx i).conds = 0 ∧ d.conds ≠ 0 then s.queueOf p ++ [i]
      else s.queueOf p) : t.Attended :=
  ⟨hs.tidy.sameKeys hcan hm hctx (fun hf => absurd hf hlive) hh, queuesMatch_joined hs.queues hctx ho hd hq⟩

theorem attended_modCtx {f : Ctx → Ctx} (hs : s.Attended) (hd : (s.ctx i).StaysQueued (f (s.ctx i))) :
    (s.modCtx i f).Attended :=
  hs.edit (canonical_modCtx s i f hs.tidy.keys.canonical) rfl rfl (ctx_modCtx s i · f) hd

theorem attended_raise (hs : s.Attended) (h : (s.ctx i).state ≠ .free) (k : Cond) : (s.raise i k).Attended := by
  refine hs.joined (canonical_raise s i k hs.tidy.keys.canonical) (raise_streamMap s i k) (ctx_raise s i · k) h rfl rfl
    (fun _ => add_ne_zero _ k) fun p => ?_
  rw [queueOf_raise]
  exact if_congr ⟨fun ⟨hk, hp⟩ => ⟨hp.symm, hk, add_ne_zero _ k⟩, fun ⟨hp, hk, _⟩ => ⟨hk, hp.symm⟩⟩ rfl rfl

theorem attended_raiseIf (hs : s.Attended) (h : (s.ctx i).state ≠ .free) (b : Bool) (k : Cond) :
    (s.raiseIf b i k).Attended := by
  cases b
  · exact hs
  · exact attended_raise hs h k

theorem attended_enterHeld (hs : s.Attended) (i : Nat) (cause : HoldCause) : (s.enterHeld i cause).Attended := by
  refine hs.joined (canonical_enterHeld s i cause hs.tidy.keys.canonical) (by simp) (ctx_enterHeld s i · cause)
    nofun rfl rfl (fun h => ?_) fun p => ?_
  · show (if _ then _ else _) ≠ _
    split
    · exact add_ne_zero _ _
    · exact h
  · rw [queueOf_enterHeld]
    refine if_congr ⟨fun ⟨hr, hk, hp⟩ => ⟨hp.symm, hk, ?_⟩, fun ⟨hp, hk, hd⟩ => ⟨?_, hk, hp.symm⟩⟩ rfl rfl
    · show (if _ then _ else _) ≠ _
      rw [if_pos hr]
      exact add_ne_zero _ _
    · by_contra hr
      exact hd ((if_neg hr).trans hk)

theorem attended_returnToOpen (hs : s.Attended) (i : Nat) : (s.returnToOpen i).Attended := by
  refine hs.joined (canonical_returnToOpen s i hs.tidy.keys.canonical) (by simp) (ctx_returnToOpen s i)
    nofun rfl rfl (fun _ => add_ne_zero _ _) fun p => ?_
  rw [queueOf_returnToOpen]
  exact if_congr ⟨fun ⟨hp, hk⟩ => ⟨hp, hk, add_ne_zero _ _⟩, fun ⟨hp, hk, _⟩ => ⟨hp, hk⟩⟩ rfl rfl

end State

end Sys2Proof.Machine
end

section
/-! SUPPORT. The first half of O58: every move keeps the attention queues and what they rest on. -/

namespace Sys2Proof.Machine

open State

namespace State

variable {s t : State} {i : Nat} {d : Ctx}

/-! ### The operations on keys (R18, R20, R33, R126, R132) -/

/-- Keys go, or primary ones come: the entries of role HANDOVER that are left were there. -/
theorem Tidy.rekeyed (hs : s.Tidy) (hk : t.KeysApart) (hctx : ∀ j, t.ctx j = if j = i then d else s.ctx j)
    (hd : (s.ctx i).StaysQueued d)
    (he : ∀ n e, t.streamEntry n = some e → e.role = .handover → s.streamEntry n = some e) : t.Tidy := by
  refine hs.edit hk hctx (fun hf => ?_) fun n e hentry hr => ?_
  · obtain ⟨hfree, hwork⟩ := hd.free hf
    obtain ⟨hconds, hnone, hhand⟩ := hs.bare i hfree
    have hkey := hd.handover
    rw [hhand] at hkey
    exact ⟨hd.conds.trans hconds, hwork.elim (·.trans hnone) id, Option.map_eq_none_iff.1 hkey⟩
  · have hs' := he n e hentry hr
    by_cases hi : e.index = i
    · exact Or.inr ⟨hi, by rw [hd.handover, ← hi]; exact hs.named n e hs' hr⟩
    · exact Or.inl ⟨hi, hs'⟩

theorem queuesMatch_edit (hs : s.queuesMatch) (ha : t.attention = s.attention)
    (hctx : ∀ j, t.ctx j = if j = i then d else s.ctx j) (ho : d.owner = (s.ctx i).owner)
    (hk : d.conds = (s.ctx i).conds) : t.queuesMatch := by
  refine queuesMatch_joined hs hctx ho (fun h => by rw [hk]; exact h) fun p => ?_
  rw [queueOf_congr ha, if_neg]
  rintro ⟨_, hempty, hraised⟩
  exact hraised (hk.trans hempty)

theorem tidy_enterFree (hs : s.Tidy) (i : Nat) : (s.enterFree i).Tidy := by
  have hmap : (s.enterFree i).streamMap = (s.releaseHoldings i).streamMap := rfl
  refine hs.edit ((hs.keys.released i).congr (canonical_enterFree s i hs.keys.canonical) hmap) (ctx_enterFree s i)
    (fun _ => ⟨rfl, rfl, rfl⟩) fun n e he hr => ?_
  obtain ⟨hentry, -, hne⟩ := (hs.keys.entry_released i n e).1 ((streamEntry_congr hmap n).symm.trans he)
  refine Or.inl ⟨fun hi => hne ?_, hentry⟩
  rw [← hi]
  exact hs.named n e hentry hr

theorem attended_enterFree (hs : s.Attended) (i : Nat) : (s.enterFree i).Attended :=
  ⟨tidy_enterFree hs.tidy i, queuesMatch_left hs.queues (ctx_enterFree s i) rfl (queueOf_enterFree s i)⟩

theorem attended_enterClosed (hs : s.Attended) (i : Nat) (cause : RetireCause) : (s.enterClosed i cause).Attended := by
  have hmap : (s.enterClosed i cause).streamMap = (s.releaseHoldings i).streamMap := by
    unfold enterClosed
    split <;> rfl
  have hcan := canonical_enterClosed s i cause hs.tidy.keys.canonical
  have hretired : CondSet.one .retired ≠ 0 := by decide
  refine ⟨hs.tidy.edit ((hs.tidy.keys.released i).congr hcan hmap) (ctx_enterClosed s i · cause) nofun
    fun n e he hr => ?_, queuesMatch_joined hs.queues (ctx_enterClosed s i · cause) rfl (fun _ => hretired) fun p => ?_⟩
  · obtain ⟨hentry, -, hne⟩ := (hs.tidy.keys.entry_released i n e).1 ((streamEntry_congr hmap n).symm.trans he)
    refine Or.inl ⟨fun hi => hne ?_, hentry⟩
    rw [← hi]
    exact hs.tidy.named n e hentry hr
  · have hin : i ∉ s.queueOf (s.ctx i).owner ↔ (s.ctx i).conds = 0 := by
      rw [(hs.queues _).2 i, not_and, not_not]
      exact ⟨fun h => h rfl, fun h _ => h⟩
    rw [queueOf_enterClosed]
    exact if_congr ⟨fun ⟨hout, hp⟩ => ⟨hp.symm, hin.1 hout, hretired⟩, fun ⟨hp, hk, _⟩ => ⟨hin.2 hk, hp.symm⟩⟩ rfl rfl

theorem attended_placePrimary (hs : s.Attended) (i : Nat) {k : StreamKey} (hk : s.findStream k = none) :
    (placePrimary i k s).Attended := by
  have hctx := ctx_placePrimary i k s
  refine ⟨hs.tidy.rekeyed (hs.tidy.keys.placePrimary i hk) hctx (.of_same rfl rfl rfl rfl rfl) fun n e he hr => ?_,
    queuesMatch_edit hs.queues (by rw [placePrimary_frame]) hctx rfl rfl⟩
  rcases (hs.tidy.keys.entry_placePrimary i k n e).1 he with ⟨_, hplaced⟩ | ⟨_, hentry, _⟩
  · rw [hplaced] at hr
    cases hr
  · exact hentry

theorem attended_unbindStream (hs : s.Attended) (i : Nat) (k : StreamKey) :
    ((s.removeStream k).modCtx i fun c => { c with primary := none }).Attended := by
  have hctx := ctx_modCtx_of_ctxs (removeStream_ctxs s k) i (f := fun c => { c with primary := none })
  have hkeys := (hs.tidy.keys.removeStream? (some k)).congr
    (canonical_modCtx _ i (fun c => { c with primary := none })
      (canonical_removeStream? s (some k) hs.tidy.keys.canonical)) rfl
  refine ⟨hs.tidy.rekeyed hkeys hctx (.of_same rfl rfl rfl rfl rfl) fun n e he _ => ?_,
    queuesMatch_edit hs.queues (by simp) hctx rfl rfl⟩
  exact ((hs.tidy.keys.entry_removeStream? (some k) n e).1 he).1

theorem attended_prepare (hs : s.Attended) {i : Nat} {h : Handover} (hf : (s.ctx i).state ≠ .free)
    (hn : (s.ctx i).handover = none) (hk : s.findStream h.key = none) :
    ((s.addStream h.key i .handover).modCtx i fun c => { c with handover := some h }).Attended := by
  have hctx := ctx_modCtx_of_ctxs (addStream_ctxs s h.key i .handover) i (f := fun c => { c with handover := some h })
  have hkeys := hs.tidy.keys.addStream hk i .handover
  have hkept := hkeys.congr (canonical_modCtx _ i (fun c => { c with handover := some h }) hkeys.canonical) rfl
  refine ⟨hs.tidy.edit hkept hctx (fun hfree => absurd hfree hf) fun n e he hr => ?_,
    queuesMatch_edit hs.queues (by simp) hctx rfl rfl⟩
  rcases (entry_addStream h.key i .handover n e).1 he with ⟨_, hplaced⟩ | ⟨_, hentry⟩
  · rw [hplaced]
    exact Or.inr ⟨rfl, rfl⟩
  · refine Or.inl ⟨fun hi => ?_, hentry⟩
    have hkey := hs.tidy.named n e hentry hr
    rw [hi, hn] at hkey
    cases hkey

/-- The key a commit moves to is that of the record's own handover (R126). -/
theorem Tidy.handover_of_commit (hs : s.Tidy) {i : Nat} {k : StreamKey}
    (h : (s.ctx i).handover.map Handover.key = some k ∨ ∃ n, s.findStream k = some (n, ⟨k, i, .handover⟩)) :
    (s.ctx i).handover.map Handover.key = some k := by
  rcases h with h | ⟨n, hf⟩
  · exact h
  · exact hs.named n ⟨k, i, .handover⟩ ((hs.keys.findStream_iff k n _).1 hf).1 rfl

theorem Tidy.ne_free_of_handover (hs : s.Tidy) {i : Nat} {k : StreamKey}
    (h : (s.ctx i).handover.map Handover.key = some k) : (s.ctx i).state ≠ .free := by
  intro hfree
  rw [(hs.bare i hfree).2.2] at h
  cases h

theorem attended_commit (hs : s.Attended) {i : Nat} {k : StreamKey}
    (h : (s.ctx i).handover.map Handover.key = some k ∨ ∃ n, s.findStream k = some (n, ⟨k, i, .handover⟩)) :
    (s.commit i k).Attended := by
  have hkey := hs.tidy.handover_of_commit h
  have hlive := hs.tidy.ne_free_of_handover hkey
  refine ⟨hs.tidy.edit (hs.tidy.keys.commit i k) (ctx_commit s i k) (fun hf => absurd hf hlive) fun n e he hr => ?_,
    queuesMatch_joined hs.queues (ctx_commit s i k) rfl (fun _ => add_ne_zero _ _) fun p => ?_⟩
  · rcases (hs.tidy.keys.entry_commit i k n e).1 he with ⟨hentry, _, hne⟩ | ⟨_, hprimary, _⟩
    · refine Or.inl ⟨fun hi => hne ?_, hentry⟩
      have hnamed := hs.tidy.named n e hentry hr
      rw [hi, hkey] at hnamed
      exact (Option.some.inj hnamed).symm
    · exact absurd (hr.symm.trans hprimary) (by decide)
  · rw [queueOf_commit]
    exact if_congr ⟨fun ⟨hp, hk⟩ => ⟨hp, hk, add_ne_zero _ _⟩, fun ⟨hp, hk, _⟩ => ⟨hp, hk⟩⟩ rfl rfl

theorem attended_abandon (hs : s.Attended) {i : Nat} {h : Handover} (hh : (s.ctx i).handover = some h) :
    (s.abandon i h.key).Attended := by
  have hlive := hs.tidy.ne_free_of_handover (i := i) (k := h.key) (by rw [hh]; rfl)
  have hkeys := (hs.tidy.keys.removeStream? (some h.key)).congr (t := s.abandon i h.key)
    (canonical_modCtx _ i _ (canonical_removeStream? s (some h.key) hs.tidy.keys.canonical)) rfl
  refine ⟨hs.tidy.edit hkeys (ctx_abandon s i h.key) (fun hf => absurd hf hlive) fun n e he hr => ?_,
    queuesMatch_edit hs.queues (by simp) (ctx_abandon s i h.key) rfl rfl⟩
  obtain ⟨hentry, hne⟩ := (hs.tidy.keys.entry_removeStream? (some h.key) n e).1 he
  refine Or.inl ⟨fun hi => hne ?_, hentry⟩
  have hnamed := hs.tidy.named n e hentry hr
  rw [hi, hh] at hnamed
  exact hnamed

/-- The record OPEN takes is FREE (R8). -/
theorem state_lowestFree (hl : s.lowestFree < 2048) : (s.ctx s.lowestFree).state = .free := by
  have hspec := Tab.lowestFrom_spec (fun i => decide ((s.ctx i).state = .free)) 2048 0 (by rw [Nat.zero_add]; exact hl)
  exact of_decide_eq_true hspec.1

/-- A context opened has an empty set, as it had FREE: it stands in no queue (R2, R18). -/
theorem attended_open (hs : s.Attended) (p : Port) (n : Nat) (hl : s.lowestFree < 2048) :
    (s.modCtx s.lowestFree fun c => c.opening p (s.silent p) n).Attended := by
  obtain ⟨hempty, -, hnone⟩ := hs.tidy.bare _ (state_lowestFree hl)
  have hctx := fun j => ctx_modCtx s s.lowestFree j fun c => c.opening p (s.silent p) n
  refine ⟨hs.tidy.sameKeys (canonical_modCtx s _ _ hs.tidy.keys.canonical) rfl hctx nofun hnone.symm, fun q => ?_⟩
  obtain ⟨hnodup, hmem⟩ := hs.queues q
  refine ⟨hnodup, fun j => ?_⟩
  rw [modCtx_queueOf, hmem, hctx]
  by_cases hj : j = s.lowestFree
  · rw [if_pos hj, hj]
    exact ⟨fun h => absurd hempty h.2, fun h => absurd rfl h.2⟩
  · rw [if_neg hj]

/-! ### Completions (R86) -/

theorem attended_countFor (hs : s.Attended) (k : Event) (i : Nat) : (s.countFor k i).Attended :=
  hs.quiet hs.tidy.keys.canonical rfl rfl fun _ => .refl _

theorem queueOf_reportClip (s : State) (i : Nat) (w : Work) (b : Bool) (p : Port) : (s.reportClip i w b).queueOf p =
    if (b = true ∧ w.clipReport = true) ∧ (s.ctx i).conds = 0 ∧ p = (s.ctx i).owner then s.queueOf p ++ [i]
    else s.queueOf p := by
  cases b with
  | false => simp [reportClip]
  | true =>
    have hraised := queueOf_raise (s.countFor .clipPeriod i) i .clipping p
    cases hr : w.clipReport with
    | false => simp [reportClip, raiseIf, hr, queueOf_congr (countFor_attention s .clipPeriod i)]
    | true =>
      rw [queueOf_congr (countFor_attention s .clipPeriod i), ctx_congr (countFor_ctxs s .clipPeriod i)] at hraised
      simpa [reportClip, raiseIf, hr] using hraised

theorem queueOf_complete (s : State) (n i : Nat) (w : Work) (p : Port) : (s.complete n i w).queueOf p =
    if (w.clipping s.freeCount = true ∧ w.clipReport = true) ∧ (s.ctx i).conds = 0 ∧ p = (s.ctx i).owner then
      s.queueOf p ++ [i] else s.queueOf p := by
  have hsent : ∀ (u : State) l k, (u.sendCell? i w l k).attention = u.attention := fun u l k => by cases k <;> rfl
  have hqueue : ∀ (u v : State), v.attention = u.attention → v.queueOf p = u.queueOf p := fun u v h => queueOf_congr h p
  have hctx : ∀ (u : State) l k j, (u.sendCell? i w l k).ctx j = u.ctx j := fun u l k => ctx_congr (sendCellOpt_ctxs u i w l k)
  unfold complete
  rw [drawn_queueOf, queueOf_reportClip, ctx_modCtx, if_pos rfl, hctx, hctx, modCtx_queueOf, hqueue _ _ (hsent _ _ _),
    hqueue _ _ (hsent _ _ _)]
  rfl

theorem attended_complete (hs : s.Attended) {n i : Nat} {w : Work} (hw : (s.ctx i).work = some w) :
    (s.complete n i w).Attended := by
  have hlive : (s.ctx i).state ≠ .free := fun hf => by
    rw [(hs.tidy.bare i hf).2.1] at hw
    cases hw
  have hframe := completionFrame_complete s n i w
  refine hs.joined (canonical_complete s n i w hs.tidy.keys.canonical) (by rw [hframe]) (ctx_complete s n i · w) hlive
    rfl rfl (fun h => ?_) fun p => ?_
  · show (if _ then _ else _) ≠ _
    split
    · exact add_ne_zero _ _
    · exact h
  · rw [queueOf_complete]
    refine if_congr ⟨fun ⟨hclip, hk, hp⟩ => ⟨hp.symm, hk, ?_⟩, fun ⟨hp, hk, hd⟩ => ⟨?_, hk, hp.symm⟩⟩ rfl rfl
    · show (if _ then _ else _) ≠ _
      rw [if_pos hclip]
      exact add_ne_zero _ _
    · by_contra hclip
      exact hd ((if_neg hclip).trans hk)

/-! ### The passes (R65 to R69) -/

theorem attended_lower (hs : s.Attended) {i : Nat} (h : (s.ctx i).state ≠ .free) (r : Nat) :
    (s.lower i r).Attended := by
  have hpaid : (s.retunePaid i r).Attended :=
    hs.edit (canonical_retunePaid s i r hs.tidy.keys.canonical) (by simp) (by simp) (ctx_retunePaid s i r)
      (.of_same rfl rfl rfl rfl rfl)
  have hkept := (stateKept_retunePaid s i r).trans (stateKept_dropRequest _ i)
  have hdropped : ((s.retunePaid i r).dropRequest i).Attended := attended_modCtx hpaid (.of_same rfl rfl rfl rfl rfl)
  have hrefused := attended_raiseIf hdropped (hkept.state.symm ▸ h) (fromOrder (s.ctx i).request) .rateRefused
  have hkept' := hkept.trans (stateKept_raiseIf _ (fromOrder (s.ctx i).request) i .rateRefused)
  exact attended_raise hrefused (hkept'.state.symm ▸ h) .rateChanged

theorem attended_shed (hs : s.Attended) (i : Nat) : (s.shed i).Attended := by
  refine attended_raise (attended_enterHeld (attended_countFor hs .shed i) i .shed) ?_ .shed
  rw [ctx_enterHeld, if_pos rfl]
  exact nofun

theorem attended_readmit (hs : s.Attended) (i : Nat) : ((s.leaveHeld i).raise i .readmitted).Attended := by
  have hback : (s.ctx i).fromHeld.state ≠ .free := by
    show ((s.ctx i).heldFrom.getD .active).state ≠ .free
    cases (s.ctx i).heldFrom.getD .active <;> decide
  have hleft := hs.edit (canonical_leaveHeld s i hs.tidy.keys.canonical) (by simp) (by simp) (ctx_leaveHeld s i)
    (.of_inUse hback rfl rfl rfl)
  refine attended_raise hleft ?_ .readmitted
  rw [ctx_leaveHeld, if_pos rfl]
  exact hback

theorem attended_foldl_shedOne (l : List Nat) (w : Walk) (h : ∀ i ∈ l, (w.after.ctx i).state ≠ .free)
    (hs : w.after.Attended) : (l.foldl shedOne w).after.Attended := by
  induction l generalizing w with
  | nil => exact hs
  | cons i l ih =>
    rw [List.foldl_cons]
    refine ih _ (fun j hj => ?_) ?_
    · have hstate := state_foldl_shedOne [i] w j
      exact hstate ▸ h j (List.mem_cons_of_mem i hj)
    · unfold shedOne
      split
      · split
        · exact attended_lower hs (h i (List.mem_cons_self ..)) _
        · exact hs
      · exact hs

theorem attended_foldl_shedTwo (l : List Nat) (w : Walk) (hs : w.after.Attended) :
    (l.foldl shedTwo w).after.Attended := by
  induction l generalizing w with
  | nil => exact hs
  | cons i l ih =>
    refine ih _ ?_
    unfold shedTwo
    split
    · exact attended_shed hs i
    · exact hs

theorem attended_sheddingPass (hs : s.Attended) : (sheddingPass s).after.Attended :=
  attended_foldl_shedTwo _ ⟨0, _⟩ (attended_foldl_shedOne s.sheddingOrder ⟨0, s⟩
    (fun _ hi => Ctx.ne_free_of_converting (converting_of_mem_sheddingOrder hi)) hs)

theorem attended_readmissionPass (hs : s.Attended) : (readmissionPass s).after.Attended := by
  have walk : ∀ (l : List Nat) (w : Walk), w.after.Attended → (l.foldl readmitOne w).after.Attended := by
    intro l
    induction l with
    | nil => exact fun _ hw => hw
    | cons i l ih =>
      refine fun w hw => ih _ ?_
      unfold readmitOne
      split
      · exact attended_readmit hw i
      · exact hw
  exact walk _ ⟨0, s⟩ hs

/-! ### NOTICES, ADOPT, the soft reset (R25, R169, R174) -/

theorem tidy_deliver (hs : s.Tidy) (i : Nat) : (s.deliver i).Tidy := by
  unfold deliver
  split
  · exact tidy_enterFree hs i
  · exact hs.sameKeys (canonical_modCtx s i _ hs.keys.canonical) rfl (ctx_modCtx s i · _)
      (fun hf => ⟨rfl, (hs.bare i hf).2⟩) rfl

theorem tidy_foldl_deliver (l : List Nat) (hs : s.Tidy) : (l.foldl deliver s).Tidy := by
  induction l generalizing s with
  | nil => exact hs
  | cons i l ih => exact ih (tidy_deliver hs i)

theorem afterDelivery_owner (c : Ctx) : c.afterDelivery.owner = c.owner := by
  unfold Ctx.afterDelivery
  split <;> rfl

theorem afterDelivery_conds (c : Ctx) : c.afterDelivery.conds = 0 := by
  unfold Ctx.afterDelivery
  split <;> rfl

/-- The first 8 of a queue are delivered with their sets emptied, and the rest of it stands (R169). -/
theorem attended_notices (hs : s.Attended) (p : Port) :
    ((s.delivered p).foldl deliver (s.takeNotices p)).Attended := by
  have htaken : (s.takeNotices p).Tidy := hs.tidy.quiet hs.tidy.keys.canonical rfl fun _ => .refl _
  refine ⟨tidy_foldl_deliver _ htaken, fun q => ?_⟩
  obtain ⟨hnodup, hmem⟩ := hs.queues p
  have hfirst : ((s.queueOf p).take 8).Nodup := hnodup.sublist (List.take_sublist _ _)
  have hqueues : ∀ r, (s.takeNotices p).queueOf r = if r = p then (s.queueOf p).drop 8 else s.queueOf r :=
    fun r => queueOf_setQueue _ p r _
  have hctx : ∀ j, ((s.delivered p).foldl deliver (s.takeNotices p)).ctx j =
      if j ∈ (s.queueOf p).take 8 then (s.ctx j).afterDelivery else s.ctx j := ctx_foldl_deliver _ hfirst _
  have hgone : ∀ i ∈ s.delivered p, i ∉ (s.takeNotices p).queueOf ((s.takeNotices p).ctx i).owner := fun i hi => by
    have howner : ((s.takeNotices p).ctx i).owner = p := ((hmem i).1 (List.mem_of_mem_take hi)).1
    rw [howner, hqueues, if_pos rfl]
    exact fun hd => List.disjoint_take_drop hnodup le_rfl hi hd
  rw [queueOf_foldl_deliver (s.delivered p) hfirst _ hgone, hqueues]
  have howner : ∀ j, (((s.delivered p).foldl deliver (s.takeNotices p)).ctx j).owner = (s.ctx j).owner := fun j => by
    rw [hctx]
    split
    · exact afterDelivery_owner _
    · rfl
  have hconds : ∀ j, (((s.delivered p).foldl deliver (s.takeNotices p)).ctx j).conds ≠ 0 ↔
      j ∉ (s.queueOf p).take 8 ∧ (s.ctx j).conds ≠ 0 := fun j => by
    rw [hctx]
    split
    · next hj => exact ⟨fun h => absurd (afterDelivery_conds _) h, fun h => absurd hj h.1⟩
    · next hj => exact ⟨fun h => ⟨hj, h⟩, fun h => h.2⟩
  by_cases hq : q = p
  · subst hq
    rw [if_pos rfl]
    refine ⟨hnodup.sublist (List.drop_sublist _ _), fun j => ?_⟩
    rw [howner, hconds]
    constructor
    · intro hj
      obtain ⟨hown, hset⟩ := (hmem j).1 (List.mem_of_mem_drop hj)
      exact ⟨hown, fun hf => List.disjoint_take_drop hnodup le_rfl hf hj, hset⟩
    · rintro ⟨hown, hnot, hset⟩
      have hj := (hmem j).2 ⟨hown, hset⟩
      rw [← List.take_append_drop 8 (s.queueOf q), List.mem_append] at hj
      exact hj.resolve_left hnot
  · rw [if_neg hq]
    obtain ⟨hnodup', hmem'⟩ := hs.queues q
    refine ⟨hnodup', fun j => ?_⟩
    rw [howner, hconds, hmem']
    refine and_congr_right fun hown => ⟨fun hset => ⟨fun hf => hq ?_, hset⟩, fun h => h.2⟩
    exact hown.symm.trans ((hmem j).1 (List.mem_of_mem_take hf)).1

/-- An adopted index stands in the adopter's queue where its set is not empty, and in no other (R174). -/
theorem queuesMatch_adopted {p : Port} (hs : s.queuesMatch) (howner : (s.ctx i).owner = p.other)
    (hctx : ∀ j, t.ctx j = if j = i then d else s.ctx j) (ho : d.owner = p) (hk : d.conds = (s.ctx i).conds)
    (hq : ∀ q, t.queueOf q = (s.moveQueued p i).queueOf q) : t.queuesMatch := by
  intro q
  obtain ⟨hnodup, hmem⟩ := hs q
  rw [hq]
  by_cases hempty : (s.ctx i).conds = 0
  · rw [moveQueued_empty hempty]
    refine ⟨hnodup, fun j => ?_⟩
    rw [hctx, hmem]
    by_cases hj : j = i
    · simp [hj, hk, hempty]
    · rw [if_neg hj]
  · obtain ⟨hown, hother⟩ := queueOf_moveQueued (p := p) hempty howner
    rcases Port.eq_or_other p q with rfl | rfl
    · rw [hown]
      refine ⟨List.nodup_append.2 ⟨hnodup.filter _, List.nodup_singleton i, fun a ha b hb hab => ?_⟩, fun j => ?_⟩
      · obtain rfl := List.mem_singleton.1 hb
        simp [hab] at ha
      · rw [List.mem_append, List.mem_singleton, hctx, List.mem_filter, hmem]
        by_cases hj : j = i
        · rw [if_pos hj, ho, hk]
          exact ⟨fun _ => ⟨rfl, hempty⟩, fun _ => Or.inr hj⟩
        · simp [hj]
    · rw [hother]
      refine ⟨hnodup.filter _, fun j => ?_⟩
      rw [List.mem_filter, hctx, hmem]
      by_cases hj : j = i
      · simp [hj, ho]
      · simp [hj]

theorem attended_adopt (hs : s.Attended) {p : Port} {i : Nat} (h : (s.ctx i).owner ≠ p) :
    ((s.moveQueued p i).modCtx i fun c => { c with owner := p, orphaned := s.silent p }).Attended := by
  have hctx := ctx_modCtx_of_ctxs (moveQueued_ctxs s p i) i (f := fun c => { c with owner := p, orphaned := s.silent p })
  exact ⟨hs.tidy.sameKeys (canonical_modCtx _ i _ (canonical_moveQueued s p i hs.tidy.keys.canonical)) (by simp) hctx
    (hs.tidy.bare i) rfl, queuesMatch_adopted hs.queues ((Port.eq_or_other p _).resolve_left h) hctx rfl rfl fun _ => rfl⟩

theorem attended_softReset (hs : s.Attended) : s.softReset.Attended := by
  have hcan := hs.tidy.keys.canonical
  have hempty : ∀ n, s.softReset.streamEntry n = none := fun n => rfl
  have hconds : ∀ i, (s.softReset.ctx i).conds = 0 ∧ (s.softReset.ctx i).work = none ∧
      (s.softReset.ctx i).handover = none := fun i => by
    rw [ctx_softReset s hcan]
    split
    · next hf => exact hs.tidy.bare i hf
    · exact ⟨rfl, rfl, rfl⟩
  refine ⟨⟨⟨canonical_softReset s hcan, fun n m k hn _ => ?_⟩, fun n e he _ => ?_, fun i _ => hconds i⟩, fun p => ?_⟩
  · obtain ⟨e, he, _⟩ := hn
    rw [hempty] at he
    cases he
  · rw [hempty] at he
    cases he
  · rw [queueOf_softReset]
    exact ⟨List.nodup_nil, fun i => ⟨nofun, fun h => absurd (hconds i).1 h.2⟩⟩

end State

/-! ### Every act -/

theorem Move.attended {s t : State} (h : Move s t) (hs : s.Attended) : t.Attended := by
  have hcan := h.canonical hs.tidy.keys.canonical
  have same : t.ctxs = s.ctxs → t.streamMap = s.streamMap → t.attention = s.attention → t.Attended := fun hc hm ha =>
    hs.quiet hcan hm ha fun j => by rw [ctx_congr hc]; exact .refl _
  cases h with
  | registers ht => exact same (by rw [ht]) (by rw [ht]) (by rw [ht])
  | noted p conds sup => exact same rfl rfl rfl
  | renewed p =>
    refine hs.quiet hcan (by simp) (by simp) fun j => ?_
    rw [ctx_renewal]
    split
    · split
      · exact .of_same rfl rfl rfl rfl rfl
      · exact .refl _
    · exact .refl _
  | silenced p =>
    refine hs.quiet hcan rfl rfl fun j => ?_
    rw [ctx_goSilent]
    split
    · exact .of_same rfl rfl rfl rfl rfl
    · exact .refl _
  | sweepSet p v => exact same rfl rfl rfl
  | settings i d hd =>
    exact hs.edit hcan rfl rfl (ctx_setCtx s i · d)
      ⟨hd.owner, hd.conds, hd.handover, fun hf => ⟨hd.state ▸ hf, Or.inl hd.work⟩⟩
  | prioritized i n => exact attended_modCtx hs (.of_same rfl rfl rfl rfl rfl)
  | raised i k hf => exact attended_raise hs hf k
  | opened p n hn hl => exact attended_open hs p n hl
  | freed i => exact attended_enterFree hs i
  | closed i cause => exact attended_enterClosed hs i cause
  | reopened i => exact attended_returnToOpen hs i
  | armed i =>
    have hreserved : (s.reserve (s.currentCost i)).Attended :=
      hs.quiet hs.tidy.keys.canonical rfl rfl fun _ => .refl _
    exact attended_modCtx hreserved (.of_inUse nofun rfl rfl rfl)
  | held i cause => exact attended_enterHeld hs i cause
  | resumed i =>
    refine hs.edit hcan (by simp) (by simp) (ctx_leaveHeld s i) (.of_inUse ?_ rfl rfl rfl)
    show ((s.ctx i).heldFrom.getD .active).state ≠ .free
    cases (s.ctx i).heldFrom.getD .active <;> decide
  | reheld i => exact attended_modCtx hs (.of_same rfl rfl rfl rfl rfl)
  | lawSet i n law => exact attended_modCtx hs (.of_same rfl rfl rfl rfl rfl)
  | slotTaken i n law =>
    exact hs.edit hcan (by simp [takeSlot]) (by simp [takeSlot]) (ctx_takeSlot i n law s) (.of_same rfl rfl rfl rfl rfl)
  | slotLeft i b =>
    exact hs.edit hcan (by simp) (by simp) (ctx_modCtx_of_ctxs (by simp) i · _) (.of_same rfl rfl rfl rfl rfl)
  | keyPlaced i k hf hc hk => exact attended_placePrimary hs i hk
  | keyLeft i k => exact attended_unbindStream hs i k
  | prepared i h hf hc hn hk => exact attended_prepare hs hf hn hk
  | committed i k h => exact attended_commit hs h
  | abandoned i h hh => exact attended_abandon hs hh
  | requested i q => exact attended_modCtx hs (.of_same rfl rfl rfl rfl rfl)
  | retuned i r => exact hs.edit hcan (by simp) (by simp) (ctx_retune s i r) (.of_same rfl rfl rfl rfl rfl)
  | paid i r => exact hs.edit hcan (by simp) (by simp) (ctx_retunePaid s i r) (.of_same rfl rfl rfl rfl rfl)
  | setKept i set c => exact attended_modCtx hs (.of_same rfl rfl rfl rfl rfl)
  | setMoved i set c =>
    have hmoved := hs.edit (canonical_retune s i (set.landing ((s.ctx i).rate.getD 0)) hs.tidy.keys.canonical)
      (by simp) (by simp) (ctx_retune s i _) (.of_same rfl rfl rfl rfl rfl)
    exact attended_modCtx hmoved (.of_same rfl rfl rfl rfl rfl)
  | setPaid i set c =>
    have hpaid := hs.edit (canonical_retunePaid s i (set.landing ((s.ctx i).rate.getD 0)) hs.tidy.keys.canonical)
      (by simp) (by simp) (ctx_retunePaid s i _) (.of_same rfl rfl rfl rfl rfl)
    exact attended_modCtx hpaid (.of_same rfl rfl rfl rfl rfl)
  | profileNamed i n set c =>
    exact hs.edit hcan (by simp [moveRef]) (by simp [moveRef]) (ctx_modCtx_of_ctxs (by simp [moveRef]) i · _)
      (.of_same rfl rfl rfl rfl rfl)
  | profileLoaded n c => exact same rfl rfl rfl
  | profileCleared n => exact same rfl rfl rfl
  | activated i => exact attended_modCtx hs (.of_inUse nofun rfl rfl rfl)
  | played i d => exact hs.edit hcan rfl rfl (ctx_setCtx s i · _) (.of_same rfl rfl rfl rfl rfl)
  | workDropped i =>
    exact hs.edit hcan (by simp) (by simp) (ctx_discardWork s i) ⟨rfl, rfl, rfl, fun hf => ⟨hf, Or.inr rfl⟩⟩
  | workStarted i hconv =>
    refine hs.edit hcan rfl rfl (ctx_setCtx s i · _) ?_
    rw [uplinkStart_keeps]
    exact .of_inUse (Ctx.ne_free_of_converting hconv) rfl rfl rfl
  | readyTaken i => exact attended_modCtx hs (.of_same rfl rfl rfl rfl rfl)
  | workDone n i w hl hw => exact attended_complete hs hw
  | workTaken n i => exact same rfl rfl rfl
  | laneSet n v => exact same rfl rfl rfl
  | laneLost n v =>
    exact attended_sheddingPass (hs.quiet (canonical_loseLane s n v hs.tidy.keys.canonical) rfl rfl fun _ => .refl _)
  | laneBack n =>
    exact attended_readmissionPass (hs.quiet (canonical_regainLane s n hs.tidy.keys.canonical) rfl rfl fun _ => .refl _)
  | noticed p => exact attended_notices hs p
  | adopted p i h => exact attended_adopt hs h
  | softReset => exact attended_softReset hs

theorem Act.attended {s t : State} (h : Act s t) (hs : s.Attended) : t.Attended := by
  cases h with
  | move h => exact h.attended hs
  | port p v => exact hs.quiet hs.tidy.keys.canonical rfl rfl fun _ => .refl _
  | hardReset =>
    have hreset : State.reset.Attended :=
      (attended_iff _).2 ⟨rfl, queuesMatch_reset, freeIsBare_reset⟩
    exact hreset.quiet (t := s.hardReset) rfl rfl rfl fun _ => .refl _

/-- Every step keeps the attention queues and what they rest on (R167, R18, R22, R30). -/
theorem attended_step (s t : State) (hs : s.Attended) (ht : step s = .next t) : t.Attended :=
  step_keeps (P := State.Attended) (fun _ _ hact => hact.attended)
    (fun _ _ h => h.quiet h.tidy.keys.canonical rfl rfl fun _ => .refl _) s t hs ht

end Sys2Proof.Machine
end

section
/-! SUPPORT. The records, the maps, the counts and the account, when one record changes (R3, R29, R30, R49, R57, R60, R96,
R105). -/

namespace Sys2Proof.Machine

open State

/-! ### The parts of a record, named (R3) -/

/-- `partsMatch`, part by part. -/
structure Ctx.Parts (c : Ctx) : Prop where
  bare : c.state = .free ∨ c.state = .closed → c.slot = none ∧ c.primary = none ∧ c.handover = none ∧ c.profile = none
  whole : c.state = .armed ∨ c.state = .active ∨ c.state = .held →
    c.slot.isSome = true ∧ c.primary.isSome = true ∧ c.profile.isSome = true
  permitted : c.permitted.isSome = c.profile.isSome
  rate : c.rate.isSome = c.profile.isSome
  idle : c.converting = false → c.request = none ∧ c.work = none
  unplayed : c.state ≠ .active →
    c.expected = none ∧ c.queue = [] ∧ c.ready = none ∧ ∀ w, c.work = some w → w.uplink = .noSamples
  first : c.firstRemaining.isSome = decide (c.state = .armed)
  cause : c.holdCause.isSome = decide (c.state = .held)
  heldFrom : c.heldFrom.isSome = decide (c.state = .held)
  retired : c.retireCause.isSome = decide (c.state = .closed)
  quiet : c.state = .free → c.conds = 0
  closed : c.state = .closed → c.conds = 0x800#12

theorem Ctx.parts_iff (c : Ctx) : c.partsMatch ↔ c.Parts := by
  have hconv : c.converting = false ↔ c.state ≠ .armed ∧ c.state ≠ .active := by
    rw [← Bool.not_eq_true, converting_iff, not_or]
  constructor
  · rintro ⟨h1, h2, h3, h4, h5, h6, h7, h8, h9, h10, h11, h12⟩
    exact ⟨h1, h2, h3, h4, fun h => h5 (hconv.1 h).1 (hconv.1 h).2, h6, h7, h8, h9, h10, h11, h12⟩
  · rintro ⟨h1, h2, h3, h4, h5, h6, h7, h8, h9, h10, h11, h12⟩
    exact ⟨h1, h2, h3, h4, fun ha hb => h5 (hconv.2 ⟨ha, hb⟩), h6, h7, h8, h9, h10, h11, h12⟩

/-- A record in order, at its index (R1, R2, R3, R96). -/
structure Ctx.Ok (i : Nat) (c : Ctx) : Prop where
  parts : c.Parts
  window : c.queueInWindow
  priority : c.priority ≤ 3
  inRange : 2048 ≤ i → c.state = .free

/-- The rates of a record are those of its profile (R49, R105). -/
def State.RatesOk (s : State) (c : Ctx) : Prop :=
  ∀ set, c.permitted = some set → set ≠ 0 ∧
    (∃ p, (c.profile.bind s.contents) = some p ∧ ∀ r, set.getLsbD r = true → r < p.table.length) ∧
    (∀ r, c.rate = some r → set.getLsbD r = true) ∧ ∀ q, c.request = some q → set.getLsbD q.rate = true

namespace State

theorem profileOf_eq (s : State) (i : Nat) : s.profileOf i = (s.ctx i).profile.bind s.contents := by
  unfold profileOf
  cases (s.ctx i).profile <;> rfl

/-! ### Sums over the contexts -/

/-- One term of a sum over the contexts changed. -/
theorem sum_edit {f g : Nat → Nat} {i : Nat} (h : ∀ j, j ≠ i → g j = f j) (hi : 2048 ≤ i → g i = f i) :
    (∑ j ∈ Finset.range 2048, g j) + f i = (∑ j ∈ Finset.range 2048, f j) + g i := by
  by_cases hin : i ∈ Finset.range 2048
  · have hrest : ∑ j ∈ (Finset.range 2048).erase i, g j = ∑ j ∈ (Finset.range 2048).erase i, f j :=
      Finset.sum_congr rfl fun j hj => h j (Finset.ne_of_mem_erase hj)
    rw [← Finset.add_sum_erase _ g hin, ← Finset.add_sum_erase _ f hin, hrest]
    omega
  · have hout : 2048 ≤ i := Nat.not_lt.1 fun hlt => hin (Finset.mem_range.2 hlt)
    have hsame : ∑ j ∈ Finset.range 2048, g j = ∑ j ∈ Finset.range 2048, f j :=
      Finset.sum_congr rfl fun j hj => h j fun hji => hin (hji ▸ hj)
    rw [hsame, hi hout]

/-- A sum over the contexts that meet a test, as a sum over all. -/
theorem sum_indicesWhere {s : State} (hc : s.canonical = true) (f : Nat → Nat) (p : Ctx → Bool)
    (hp : p Ctx.reset = false) (hr : ∀ i, p (s.ctx i) = true → i < 2048) :
    ((s.indicesWhere p).map f).sum = ∑ i ∈ Finset.range 2048, if p (s.ctx i) then f i else 0 := by
  have hnodup : (s.indicesWhere p).Nodup := (indicesWhere_sorted s p hc).imp fun h => h.ne
  have hset : (s.indicesWhere p).toFinset = (Finset.range 2048).filter fun i => p (s.ctx i) := by
    ext i
    rw [List.mem_toFinset, mem_indicesWhere s p hp, Finset.mem_filter, Finset.mem_range]
    exact ⟨fun h => ⟨hr i h, h⟩, fun h => h.2⟩
  rw [← List.sum_toFinset f hnodup, hset, Finset.sum_filter]

theorem length_indicesWhere {s : State} (hc : s.canonical = true) (p : Ctx → Bool) (hp : p Ctx.reset = false)
    (hr : ∀ i, p (s.ctx i) = true → i < 2048) :
    (s.indicesWhere p).length = ∑ i ∈ Finset.range 2048, if p (s.ctx i) then 1 else 0 := by
  rw [← sum_indicesWhere hc (fun _ => 1) p hp hr]
  simp

/-! ### The sound state -/

end State

/-- A coherent state but for the queues, which NOTICES writes first (R169), and the bound on reserved, which a lost lane
breaks until its shedding pass is done (R63, R65). -/
structure State.Sound (s : State) : Prop where
  tidy : s.Tidy
  records : ∀ i, (s.ctx i).Ok i
  slots : s.slotsMatch
  streams : s.streamsMatch
  refs : ∀ n, (s.profile n).refs = ∑ i ∈ Finset.range 2048, if (s.ctx i).profile = some n then 1 else 0
  ascending : ∀ n c, s.contents n = some c → c.table.Pairwise fun a b => a.cost < b.cost
  rates : ∀ i, s.RatesOk (s.ctx i)
  reserved : s.reserved = ∑ i ∈ Finset.range 2048, s.reservation i
  lanes : s.lanesMatch
  sweeps : s.sweepsMatch

namespace State

theorem Sound.canonical {s : State} (h : s.Sound) : s.canonical = true := h.tidy.keys.canonical

theorem recordsMatch_iff (s : State) : s.recordsMatch ↔ ∀ i, (s.ctx i).Ok i :=
  forall_congr' fun _ => ⟨fun ⟨hp, hw, hn, hr⟩ => ⟨(Ctx.parts_iff _).1 hp, hw, hn, hr⟩,
    fun ⟨hp, hw, hn, hr⟩ => ⟨(Ctx.parts_iff _).2 hp, hw, hn, hr⟩⟩

theorem inRange_of_converting {s : State} (h : ∀ i, (s.ctx i).Ok i) {i : Nat} (hi : (s.ctx i).converting = true) :
    i < 2048 := Nat.not_le.1 fun hle => Ctx.ne_free_of_converting hi ((h i).inRange hle)

theorem inRange_of_profile {s : State} (h : ∀ i, (s.ctx i).Ok i) {i n : Nat} (hi : (s.ctx i).profile = some n) :
    i < 2048 := by
  refine Nat.not_le.1 fun hle => ?_
  obtain ⟨-, -, -, hnone⟩ := (h i).parts.bare (Or.inl ((h i).inRange hle))
  rw [hnone] at hi
  cases hi

theorem refsMatch_iff {s : State} (hc : s.canonical = true) (hr : ∀ i, (s.ctx i).Ok i) : s.refsMatch ↔
    ∀ n, (s.profile n).refs = ∑ i ∈ Finset.range 2048, if (s.ctx i).profile = some n then 1 else 0 := by
  refine forall_congr' fun n => ?_
  rw [length_indicesWhere hc (fun c => decide (c.profile = some n)) (by simp [Ctx.reset])
    fun i hi => inRange_of_profile hr (of_decide_eq_true hi)]
  simp only [decide_eq_true_eq]

theorem accountMatches_iff {s : State} (hc : s.canonical = true) (hr : ∀ i, (s.ctx i).Ok i) : s.accountMatches ↔
    (s.reserved = ∑ i ∈ Finset.range 2048, s.reservation i) ∧ s.reserved ≤ s.available := by
  unfold accountMatches
  rw [sum_indicesWhere hc s.currentCost Ctx.converting rfl fun i hi => inRange_of_converting hr hi]
  exact Iff.rfl

theorem ratesMatch_iff (s : State) : s.ratesMatch ↔
    (∀ n c, s.contents n = some c → c.table.Pairwise fun a b => a.cost < b.cost) ∧ ∀ i, s.RatesOk (s.ctx i) := by
  unfold ratesMatch RatesOk
  simp only [profileOf_eq]

theorem coherent_iff (s : State) : s.coherent ↔ s.Sound ∧ s.queuesMatch ∧ s.reserved ≤ s.available := by
  constructor
  · rintro ⟨hcan, hrecords, hslots, hstreams, hrefs, hrates, haccount, hlanes, hsweeps, hqueues⟩
    have hok := (recordsMatch_iff s).1 hrecords
    obtain ⟨hsum, hfits⟩ := (accountMatches_iff hcan hok).1 haccount
    obtain ⟨hascending, hset⟩ := (ratesMatch_iff s).1 hrates
    obtain ⟨hunique, hnumber, hprimary, hhandover⟩ := hstreams
    have hnamed : ∀ n e, s.streamEntry n = some e → e.role = .handover →
        (s.ctx e.index).handover.map Handover.key = some e.key := fun n e he hr =>
      (hhandover e.index e.key).2 ⟨n, by rw [he, ← hr]⟩
    have hbare : ∀ i, (s.ctx i).state = .free →
        (s.ctx i).conds = 0 ∧ (s.ctx i).work = none ∧ (s.ctx i).handover = none := fun i hf => by
      have hp := (hok i).parts
      obtain ⟨-, -, hnone, -⟩ := hp.bare (Or.inl hf)
      exact ⟨hp.quiet hf, (hp.idle (by simp [Ctx.converting, hf])).2, hnone⟩
    exact ⟨⟨⟨⟨hcan, hunique⟩, hnamed, hbare⟩, hok, hslots, ⟨hunique, hnumber, hprimary, hhandover⟩,
      (refsMatch_iff hcan hok).1 hrefs, hascending, hset, hsum, hlanes, hsweeps⟩, hqueues, hfits⟩
  · rintro ⟨hs, hqueues, hfits⟩
    exact ⟨hs.canonical, (recordsMatch_iff s).2 hs.records, hs.slots, hs.streams,
      (refsMatch_iff hs.canonical hs.records).2 hs.refs, (ratesMatch_iff s).2 ⟨hs.ascending, hs.rates⟩,
      (accountMatches_iff hs.canonical hs.records).2 ⟨hs.reserved, hfits⟩, hs.lanes, hs.sweeps, hqueues⟩

end State

end Sys2Proof.Machine
end

section
/-! SUPPORT. One record of a sound state changed: what each invariant asks of the change. -/

namespace Sys2Proof.Machine

open State

/-! ### Prices (R46, R57) -/

/-- The cost of rate `r` under an optional profile slot. -/
def State.priceOf (s : State) (profile : Option Nat) (r : Nat) : Nat :=
  match profile.bind s.contents with
  | some p => ((p.table[r]?).map RateEntry.cost).getD 0
  | none => 0

/-- What a record reserves: the price of its rate while it converts (R57). -/
def State.charge (s : State) (c : Ctx) : Nat := if c.converting then s.priceOf c.profile (c.rate.getD 0) else 0

namespace State

theorem costOf_eq (s : State) (i r : Nat) : s.costOf i r = s.priceOf (s.ctx i).profile r := by
  unfold costOf rateEntry priceOf
  rw [profileOf_eq]
  cases (s.ctx i).profile.bind s.contents with
  | none => rfl
  | some p =>
    show (match p.table[r]? with | some e => e.cost | none => 0) = ((p.table[r]?).map RateEntry.cost).getD 0
    cases p.table[r]? <;> rfl

/-- A context with a rate costs the price of its rate. -/
theorem currentCost_eq {s : State} {i : Nat} (h : (s.ctx i).Parts) :
    s.currentCost i = s.priceOf (s.ctx i).profile ((s.ctx i).rate.getD 0) := by
  unfold currentCost
  cases hr : (s.ctx i).rate with
  | some r => exact costOf_eq s i r
  | none =>
    have hnone : (s.ctx i).profile = none := by
      have hp := h.rate
      rw [hr] at hp
      exact Option.not_isSome_iff_eq_none.1 (by rw [← hp]; decide)
    rw [hnone]
    rfl

theorem reservation_eq {s : State} {i : Nat} (h : (s.ctx i).Parts) : s.reservation i = s.charge (s.ctx i) := by
  unfold reservation charge
  rw [currentCost_eq h]

theorem priceOf_congr {s t : State} (h : ∀ n, t.contents n = s.contents n) (p : Option Nat) (r : Nat) :
    t.priceOf p r = s.priceOf p r := by
  unfold priceOf
  rw [funext h]

theorem charge_congr {s t : State} (h : ∀ n, t.contents n = s.contents n) (c : Ctx) : t.charge c = s.charge c := by
  unfold charge
  rw [priceOf_congr h]

theorem ratesOk_congr {s t : State} (h : ∀ n, t.contents n = s.contents n) {c : Ctx} (hc : s.RatesOk c) :
    t.RatesOk c := by
  unfold RatesOk
  rw [funext h]
  exact hc

/-- A record with the same set, rate and profile, and no other request. -/
theorem RatesOk.of_same {s : State} {c d : Ctx} (h : s.RatesOk c) (hp : d.permitted = c.permitted)
    (hf : d.profile = c.profile) (hr : d.rate = c.rate) (hq : d.request = c.request ∨ d.request = none) :
    s.RatesOk d := by
  intro set hset
  obtain ⟨hne, htable, hrate, hreq⟩ := h set (hp.symm.trans hset)
  refine ⟨hne, by rw [hf]; exact htable, by rw [hr]; exact hrate, fun q hqs => ?_⟩
  rcases hq with hq | hq
  · exact hreq q (hq.symm.trans hqs)
  · rw [hq] at hqs
    cases hqs

theorem RatesOk.of_none {s : State} {c : Ctx} (h : c.permitted = none) : s.RatesOk c := by
  intro set hset
  rw [h] at hset
  cases hset

/-! ### Each invariant, one record changed -/

variable {s t : State} {i : Nat} {d : Ctx}

theorem records_edit (hs : ∀ j, (s.ctx j).Ok j) (hctx : ∀ j, t.ctx j = if j = i then d else s.ctx j) (hd : d.Ok i) :
    ∀ j, (t.ctx j).Ok j := by
  intro j
  rw [hctx]
  split
  · next hj => exact hj ▸ hd
  · exact hs j

theorem slots_edit (hs : s.slotsMatch) (hctx : ∀ j, t.ctx j = if j = i then d else s.ctx j)
    (hm : t.slotMap = s.slotMap) (hd : d.slot.map SlotBinding.slot = (s.ctx i).slot.map SlotBinding.slot) :
    t.slotsMatch := by
  intro n j
  rw [slotEntry_congr hm, hctx, hs n j]
  split
  · next hj => rw [hd, hj]
  · exact Iff.rfl

/-- The slot of a released record is empty (R29). -/
theorem slots_released (hs : s.slotsMatch) (hctx : ∀ j, t.ctx j = if j = i then d else s.ctx j)
    (hm : ∀ n, t.slotEntry n = if (s.ctx i).slot.map SlotBinding.slot = some n then none else s.slotEntry n)
    (hd : d.slot = none) : t.slotsMatch := by
  intro n j
  rw [hm, hctx]
  by_cases hn : (s.ctx i).slot.map SlotBinding.slot = some n
  · rw [if_pos hn]
    have hi := (hs n i).2 hn
    split
    · simp [hd]
    · next hj =>
      refine ⟨nofun, fun h => absurd ?_ hj⟩
      exact Option.some.inj (((hs n j).2 h).symm.trans hi)
  · rw [if_neg hn]
    split
    · next hj =>
      rw [hd, hs n j, hj]
      exact ⟨fun h => absurd h hn, nofun⟩
    · exact hs n j

theorem streams_edit (hs : s.streamsMatch) (hctx : ∀ j, t.ctx j = if j = i then d else s.ctx j)
    (hm : t.streamMap = s.streamMap) (hp : d.primary = (s.ctx i).primary)
    (hh : d.handover.map Handover.key = (s.ctx i).handover.map Handover.key) : t.streamsMatch := by
  obtain ⟨hunique, hnumber, hprimary, hhandover⟩ := hs
  have hentry := streamEntry_congr hm
  refine ⟨fun n m k => ?_, fun n e he => hnumber n e ((hentry n).symm.trans he), fun j k => ?_, fun j k => ?_⟩
  · simp only [holdsKey, hentry]
    exact hunique n m k
  · simp only [hentry]
    rw [← hprimary, hctx]
    split
    · next hj => rw [hp, hj]
    · exact Iff.rfl
  · simp only [hentry]
    rw [← hhandover, hctx]
    split
    · next hj => rw [hh, hj]
    · exact Iff.rfl

theorem refs_edit (hs : s.Sound) (hctx : ∀ j, t.ctx j = if j = i then d else s.ctx j) (hd : d.Ok i)
    (hr : ∀ n, (t.profile n).refs + (if (s.ctx i).profile = some n then 1 else 0) =
      (s.profile n).refs + if d.profile = some n then 1 else 0) (n : Nat) :
    (t.profile n).refs = ∑ j ∈ Finset.range 2048, if (t.ctx j).profile = some n then 1 else 0 := by
  have hnone : ∀ c : Ctx, c.Ok i → 2048 ≤ i → c.profile = none := fun c hc hi =>
    (hc.parts.bare (Or.inl (hc.inRange hi))).2.2.2
  have hsum := sum_edit (f := fun j => if (s.ctx j).profile = some n then 1 else 0)
    (g := fun j => if (t.ctx j).profile = some n then 1 else 0) (i := i)
    (fun j hj => by rw [hctx, if_neg hj]) fun hi => by
      rw [hctx, if_pos rfl, hnone d hd hi, hnone _ (hs.records i) hi]
  have hi : t.ctx i = d := (hctx i).trans (if_pos rfl)
  simp only [hi] at hsum
  have hn := hr n
  rw [hs.refs n] at hn
  omega

theorem rates_edit (hs : ∀ j, s.RatesOk (s.ctx j)) (hctx : ∀ j, t.ctx j = if j = i then d else s.ctx j)
    (hcon : ∀ n, t.contents n = s.contents n) (hd : s.RatesOk d) : ∀ j, t.RatesOk (t.ctx j) := by
  intro j
  refine ratesOk_congr hcon ?_
  rw [hctx]
  split
  · exact hd
  · exact hs j

theorem reserved_edit (hs : s.Sound) (hctx : ∀ j, t.ctx j = if j = i then d else s.ctx j) (hd : d.Ok i)
    (hcon : ∀ n, t.contents n = s.contents n)
    (hr : t.reserved + s.charge (s.ctx i) = s.reserved + s.charge d) :
    t.reserved = ∑ j ∈ Finset.range 2048, t.reservation j := by
  have hok := records_edit hs.records hctx hd
  have hcharge : ∀ j, t.reservation j = s.charge (t.ctx j) := fun j => by
    rw [reservation_eq (hok j).parts, charge_congr hcon]
  have hfree : ∀ c : Ctx, c.Ok i → 2048 ≤ i → s.charge c = 0 := fun c hc hi => by
    unfold charge
    rw [if_neg]
    simp [Ctx.converting, hc.inRange hi]
  have hsum := sum_edit (f := s.reservation) (g := t.reservation) (i := i)
    (fun j hj => by rw [hcharge, hctx, if_neg hj, reservation_eq (hs.records j).parts]) fun hi => by
      rw [hcharge, reservation_eq (hs.records i).parts, hctx, if_pos rfl, hfree d hd hi, hfree _ (hs.records i) hi]
  rw [← hs.reserved, hcharge i, hctx, if_pos rfl, reservation_eq (hs.records i).parts] at hsum
  omega

theorem lanes_edit (hs : s.lanesMatch) (hctx : ∀ j, t.ctx j = if j = i then d else s.ctx j)
    (hl : t.lanes = s.lanes) (hd : (s.ctx i).work.isSome = true → d.work.isSome = true) : t.lanesMatch := by
  intro n j hn
  simp only [lane_congr hl] at hn ⊢
  obtain ⟨hlane, hwork, hstate, hone⟩ := hs n j hn
  refine ⟨hlane, ?_, hstate, hone⟩
  rw [hctx]
  split
  · next hj => exact hd (hj ▸ hwork)
  · exact hwork

/-- A work discarded is in hand at no lane (R22, R61). -/
theorem lanes_dropped (hs : s.lanesMatch) (hctx : ∀ j, t.ctx j = if j = i then d else s.ctx j)
    (hl : ∀ m, t.lane m = if m < 8 ∧ (s.lane m).inHand = some i then { s.lane m with inHand := none } else s.lane m) :
    t.lanesMatch := by
  have hback : ∀ m j, (t.lane m).inHand = some j → (s.lane m).inHand = some j ∧ j ≠ i ∧ t.lane m = s.lane m := by
    intro m j hm
    rw [hl] at hm
    split at hm
    · cases hm
    · next hne =>
      refine ⟨hm, fun hj => hne ?_, (hl m).trans (if_neg hne)⟩
      rw [hj] at hm
      exact ⟨(hs m i hm).1, hm⟩
  intro n j hn
  obtain ⟨hin, hj, hsame⟩ := hback n j hn
  obtain ⟨hlane, hwork, hstate, hone⟩ := hs n j hin
  refine ⟨hlane, ?_, by rw [hsame]; exact hstate, fun m hm => hone m (hback m j hm).1⟩
  rw [hctx, if_neg hj]
  exact hwork

theorem sweeps_edit (hs : s.sweepsMatch) (h : t.sweeps = s.sweeps) : t.sweepsMatch := fun p n hn =>
  hs p n ((congrArg Sweep.action (sweepOf_congr h p)).symm.trans hn)

/-! ### The whole state, one record changed -/

/-- One record changed: what each invariant asks. -/
theorem Sound.edit (hs : s.Sound) (ht : t.Tidy) (hctx : ∀ j, t.ctx j = if j = i then d else s.ctx j)
    (hd : d.Ok i) (hslots : t.slotsMatch) (hstreams : t.streamsMatch)
    (hrefs : ∀ n, (t.profile n).refs + (if (s.ctx i).profile = some n then 1 else 0) =
      (s.profile n).refs + if d.profile = some n then 1 else 0)
    (hcon : ∀ n, t.contents n = s.contents n) (hrates : s.RatesOk d)
    (hreserved : t.reserved + s.charge (s.ctx i) = s.reserved + s.charge d) (hlanes : t.lanesMatch)
    (hsweeps : t.sweeps = s.sweeps) : t.Sound where
  tidy := ht
  records := records_edit hs.records hctx hd
  slots := hslots
  streams := hstreams
  refs := refs_edit hs hctx hd hrefs
  ascending n c hc := hs.ascending n c ((hcon n).symm.trans hc)
  rates := rates_edit hs.rates hctx hcon hrates
  reserved := reserved_edit hs hctx hd hcon hreserved
  lanes := hlanes
  sweeps := sweeps_edit hs.sweeps hsweeps

end State

/-- The maps, the profiles and the sweeps stand. -/
structure State.MapsKept (s t : State) : Prop where
  slots : t.slotMap = s.slotMap
  streams : t.streamMap = s.streamMap
  profiles : t.profiles = s.profiles
  sweeps : t.sweeps = s.sweeps

/-- The bindings, the keys and the profile of a record stand. -/
structure Ctx.SameHoldings (c d : Ctx) : Prop where
  slot : d.slot.map SlotBinding.slot = c.slot.map SlotBinding.slot
  primary : d.primary = c.primary
  handover : d.handover.map Handover.key = c.handover.map Handover.key
  profile : d.profile = c.profile

namespace State

variable {s t : State} {i : Nat} {d : Ctx}

theorem contents_congr (h : t.profiles = s.profiles) (n : Nat) : t.contents n = s.contents n := by
  unfold contents
  rw [profile_congr h]

/-- One record changed in what it does, not in what it holds. -/
theorem Sound.record (hs : s.Sound) (ht : t.Tidy) (hm : s.MapsKept t)
    (hctx : ∀ j, t.ctx j = if j = i then d else s.ctx j) (hh : (s.ctx i).SameHoldings d) (hd : d.Ok i)
    (hrates : s.RatesOk d) (hreserved : t.reserved + s.charge (s.ctx i) = s.reserved + s.charge d)
    (hlanes : t.lanesMatch) : t.Sound :=
  hs.edit ht hctx hd (slots_edit hs.slots hctx hm.slots hh.slot)
    (streams_edit hs.streams hctx hm.streams hh.primary hh.handover)
    (fun n => by rw [profile_congr hm.profiles, hh.profile]) (contents_congr hm.profiles) hrates hreserved hlanes hm.sweeps

/-- The records as they were, and what rests on them: the maps, the profiles, the sweeps, reserved and the lanes. -/
theorem Sound.same (hs : s.Sound) (ht : t.Tidy) (hm : s.MapsKept t) (hc : t.ctxs = s.ctxs)
    (hr : t.reserved = s.reserved) (hl : t.lanesMatch) : t.Sound := by
  refine hs.record (i := 0) (d := s.ctx 0) ht hm (fun j => ?_) ⟨rfl, rfl, rfl, rfl⟩ (hs.records 0) (hs.rates 0)
    (by rw [hr]) hl
  rw [ctx_congr hc]
  split
  · next hj => rw [hj]
  · rfl

end State

end Sys2Proof.Machine
end

section
/-! SUPPORT. Sets of rate indices (R105, R107, R116), and the records that a move leaves in order (R3, R96). -/

namespace Sys2Proof.Machine

open State

/-! ### Sets of rate indices -/

theorem RateSet.indices_ne_nil {set : RateSet} (h : set ≠ 0) : set.indices ≠ [] := by
  intro hnil
  refine h (BitVec.eq_of_getLsbD_eq fun r _ => ?_)
  have hout : r ∉ set.indices := by rw [hnil]; exact List.not_mem_nil
  rw [mem_indices, Bool.not_eq_true] at hout
  simpa using hout

theorem RateSet.has_lowest {set : RateSet} (h : set ≠ 0) : set.has set.lowest = true := by
  rw [has_eq, ← mem_indices, lowest]
  cases hi : set.indices with
  | nil => exact absurd hi (indices_ne_nil h)
  | cons r l => exact List.mem_cons_self ..

theorem RateSet.has_highest {set : RateSet} (h : set ≠ 0) : set.has set.highest = true := by
  rw [has_eq, ← mem_indices, highest, List.getLastD_eq_getLast?, List.getLast?_eq_getLast_of_ne_nil (indices_ne_nil h)]
  exact List.getLast_mem _

theorem RateSet.has_highestBelow {set : RateSet} {r v : Nat} (h : set.highestBelow r = some v) :
    set.has v = true ∧ v < r := by
  unfold highestBelow at h
  have hmem := List.mem_of_getLast? h
  obtain ⟨hin, hlt⟩ := List.mem_filter.1 hmem
  exact ⟨(mem_indices set v).1 hin, of_decide_eq_true hlt⟩

theorem RateSet.has_landing {set : RateSet} (h : set ≠ 0) (r : Nat) : set.has (set.landing r) = true := by
  unfold landing
  split
  · next v hv => exact (has_highestBelow hv).1
  · exact has_lowest h

theorem RateSet.has_correct {set : RateSet} (h : set ≠ 0) (r : Nat) : set.has (set.correct r) = true := by
  unfold correct
  split
  · next hr => exact hr
  · exact has_landing h r

theorem has_derivedRate {set : RateSet} (h : set ≠ 0) (c : Profile) : set.has (derivedRate c set) = true := by
  unfold derivedRate
  split
  · next hd => exact hd
  · exact RateSet.has_highest h

theorem has_keptRequest {set : RateSet} {r : Nat} {q : Option RateRequest} {x : RateRequest}
    (h : keptRequest set r q = some x) : set.has x.rate = true := by
  unfold keptRequest at h
  split at h
  · cases h
  · split at h
    · next hk => cases h; exact hk.1
    · cases h

/-! ### Records in order -/

namespace Ctx

variable {c d : Ctx} {i : Nat}

theorem converting_false_iff (c : Ctx) : c.converting = false ↔ c.state ≠ .armed ∧ c.state ≠ .active := by
  rw [← Bool.not_eq_true, converting_iff, not_or]

/-- Settings, counts and kernel data leave a record in order. -/
theorem Ok.settings (h : c.Ok i) (hs : c.SameParts d) : d.Ok i := by
  obtain ⟨hp, hw, hn, hr⟩ := h
  have hconv : d.converting = c.converting := converting_congr hs.state
  have hslot : d.slot.isSome = c.slot.isSome := by simpa using congrArg Option.isSome hs.slot
  have hhand : c.handover = none → d.handover = none := fun h => by
    have hkey := hs.handover
    rw [h] at hkey
    exact Option.map_eq_none_iff.1 hkey
  refine ⟨⟨?_, ?_, ?_, ?_, ?_, ?_, ?_, ?_, ?_, ?_, ?_, ?_⟩, ?_, by rw [hs.priority]; exact hn, by rw [hs.state]; exact hr⟩
  · rw [hs.state, hs.primary, hs.profile]
    intro hstate
    obtain ⟨hsl, hpr, hha, hpf⟩ := hp.bare hstate
    refine ⟨?_, hpr, hhand hha, hpf⟩
    rw [hsl] at hslot
    exact Option.not_isSome_iff_eq_none.1 (by rw [hslot]; decide)
  · rw [hs.state, hslot, hs.primary, hs.profile]
    exact hp.whole
  · rw [hs.permitted, hs.profile]
    exact hp.permitted
  · rw [hs.rate, hs.profile]
    exact hp.rate
  · rw [hconv, hs.request, hs.work]
    exact hp.idle
  · rw [hs.state, hs.expected, hs.queue, hs.ready, hs.work]
    exact hp.unplayed
  · rw [hs.first, hs.state]
    exact hp.first
  · rw [hs.cause, hs.state]
    exact hp.cause
  · rw [hs.heldFrom, hs.state]
    exact hp.heldFrom
  · rw [hs.retired, hs.state]
    exact hp.retired
  · rw [hs.state, hs.conds]
    exact hp.quiet
  · rw [hs.state, hs.conds]
    exact hp.closed
  · unfold queueInWindow
    rw [hs.expected, hs.queue]
    exact hw

/-- A pending set written at a record in use. -/
theorem Ok.conds (h : c.Ok i) (x : CondSet) (hf : c.state ≠ .free) (hc : c.state ≠ .closed) :
    Ok i { c with conds := x } :=
  ⟨{ h.parts with quiet := fun hs => absurd hs hf, closed := fun hs => absurd hs hc }, h.window, h.priority, h.inRange⟩

theorem Ok.prioritized (h : c.Ok i) {n : Nat} (hn : n ≤ 3) : Ok i { c with priority := n } :=
  ⟨⟨h.parts.bare, h.parts.whole, h.parts.permitted, h.parts.rate, h.parts.idle, h.parts.unplayed, h.parts.first,
    h.parts.cause, h.parts.heldFrom, h.parts.retired, h.parts.quiet, h.parts.closed⟩, h.window, hn, h.inRange⟩

end Ctx

end Sys2Proof.Machine
end

section
/-! SUPPORT. The records that the transitions leave in order (R10 to R21, R66, R84 to R87, R96 to R100). -/

namespace Sys2Proof.Machine

open State

namespace Ctx

variable {c d : Ctx} {i : Nat}

/-! ### Transitions of state -/

/-- A record with no cause is in neither HELD nor CLOSED, so no cause is left when it moves among the other states. -/
theorem Ok.causes (h : c.Ok i) (hh : c.state ≠ .held) (hc : c.state ≠ .closed) :
    c.holdCause.isSome = false ∧ c.heldFrom.isSome = false ∧ c.retireCause.isSome = false :=
  ⟨h.parts.cause.trans (decide_eq_false hh), h.parts.heldFrom.trans (decide_eq_false hh),
    h.parts.retired.trans (decide_eq_false hc)⟩

theorem Ok.returned (h : c.Ok i) (hs : c.state = .armed) (x : CondSet) :
    Ok i { c with state := .opened, firstRemaining := none, request := none, ready := none, work := none, conds := x } := by
  obtain ⟨hcause, hfrom, hretired⟩ := h.causes (by rw [hs]; decide) (by rw [hs]; decide)
  obtain ⟨hexpected, hqueue, -, -⟩ := h.parts.unplayed (by rw [hs]; decide)
  refine ⟨⟨nofun, nofun, h.parts.permitted, h.parts.rate, fun _ => ⟨rfl, rfl⟩,
    fun _ => ⟨hexpected, hqueue, rfl, nofun⟩, rfl, hcause, hfrom, hretired, nofun, nofun⟩, h.window, h.priority, fun hi => ?_⟩
  rw [h.inRange hi] at hs
  cases hs

theorem Ok.armed (h : c.Ok i) (hs : c.state = .opened) (hc : c.complete = true) : c.toArmed.Ok i := by
  obtain ⟨hcause, hfrom, hretired⟩ := h.causes (by rw [hs]; decide) (by rw [hs]; decide)
  obtain ⟨-, -, hready, -⟩ := h.parts.unplayed (by rw [hs]; decide)
  obtain ⟨-, hwork⟩ := h.parts.idle (by rw [converting_false_iff, hs]; decide)
  refine ⟨⟨nofun, fun _ => ?_, h.parts.permitted, h.parts.rate, nofun, fun _ => ⟨rfl, rfl, hready, fun w hw => ?_⟩, rfl,
    hcause, hfrom, hretired, nofun, nofun⟩, ⟨fun _ => rfl, nofun⟩, h.priority, fun hi => ?_⟩
  · obtain ⟨hslot, hprimary, hprofile⟩ := (complete_iff c).1 hc
    exact ⟨hslot, hprimary, hprofile⟩
  · have hnone : c.work = some w := hw
    rw [hwork] at hnone
    cases hnone
  · rw [h.inRange hi] at hs
    cases hs

theorem Ok.held (h : c.Ok i) (hc : c.converting = true) (cause : HoldCause) (x : CondSet) :
    Ok i { ({ c with work := none } : Ctx).toHeld cause with conds := x } := by
  have hstate := (converting_iff c).1 hc
  obtain ⟨-, -, hretired⟩ := h.causes (by rcases hstate with hs | hs <;> rw [hs] <;> decide) (ne_closed_of_converting hc)
  refine ⟨⟨nofun, fun _ => h.parts.whole (hstate.imp_right Or.inl), h.parts.permitted, h.parts.rate,
    fun _ => ⟨rfl, rfl⟩, fun _ => ⟨rfl, rfl, rfl, nofun⟩, rfl, rfl, rfl, hretired, nofun, nofun⟩,
    ⟨fun _ => rfl, nofun⟩, h.priority, fun hi => absurd (h.inRange hi) (ne_free_of_converting hc)⟩

theorem Ok.resumed (h : c.Ok i) (hs : c.state = .held) : c.fromHeld.Ok i := by
  obtain ⟨hrequest, hwork⟩ := h.parts.idle (by rw [converting_false_iff, hs]; decide)
  obtain ⟨hexpected, hqueue, hready, -⟩ := h.parts.unplayed (by rw [hs]; decide)
  have hretired : c.retireCause.isSome = false := h.parts.retired.trans (by rw [hs]; rfl)
  have hwhole := h.parts.whole (Or.inr (Or.inr hs))
  obtain ⟨from', hfrom⟩ := Option.isSome_iff_exists.1 (h.parts.heldFrom.trans (by rw [hs]; rfl))
  have hnowork : ∀ w, c.fromHeld.work = some w → w.uplink = .noSamples := fun w hw => by
    have hsome : c.work = some w := hw
    rw [hwork] at hsome
    cases hsome
  have hstate : c.fromHeld.state = from'.state := congrArg (fun o => (Option.getD o .active).state) hfrom
  have hfirst : c.fromHeld.firstRemaining = if c.heldFrom = some .armed then some c.firstDeadline else none := rfl
  have hfree : c.fromHeld.state ≠ .free := by rw [hstate]; cases from' <;> decide
  have hclosed : c.fromHeld.state ≠ .closed := by rw [hstate]; cases from' <;> decide
  have hheld : c.fromHeld.state ≠ .held := by rw [hstate]; cases from' <;> decide
  have hconv : c.fromHeld.converting = true := (converting_iff _).2 (by rw [hstate]; cases from' <;> decide)
  refine ⟨⟨fun hb => ?_, fun _ => hwhole, h.parts.permitted, h.parts.rate, fun hb => ?_,
    fun _ => ⟨hexpected, hqueue, hready, hnowork⟩, ?_, ?_, ?_, ?_, fun hb => absurd hb hfree,
    fun hb => absurd hb hclosed⟩, h.window, h.priority, fun hi => ?_⟩
  · exact hb.elim (absurd · hfree) (absurd · hclosed)
  · rw [hconv] at hb
    cases hb
  · rw [hfirst, hstate, hfrom]
    cases from' <;> rfl
  · exact (decide_eq_false hheld).symm
  · exact (decide_eq_false hheld).symm
  · exact hretired.trans (decide_eq_false hclosed).symm
  · rw [h.inRange hi] at hs
    cases hs

theorem Ok.reheld (h : c.Ok i) (hs : c.state = .held) (cause : HoldCause) : Ok i { c with holdCause := some cause } :=
  ⟨{ h.parts with cause := (decide_eq_true hs).symm }, h.window, h.priority, h.inRange⟩

theorem Ok.activated (h : c.Ok i) (hs : c.state = .armed) :
    Ok i { c with state := .active, firstRemaining := none } := by
  obtain ⟨hcause, hfrom, hretired⟩ := h.causes (by rw [hs]; decide) (by rw [hs]; decide)
  refine ⟨⟨nofun, fun _ => h.parts.whole (Or.inl hs), h.parts.permitted, h.parts.rate, nofun, fun hb => absurd rfl hb, rfl,
    hcause, hfrom, hretired, nofun, nofun⟩, h.window, h.priority, fun hi => ?_⟩
  rw [h.inRange hi] at hs
  cases hs

/-- A released record that is FREE (R18). -/
theorem Ok.freed (h : c.Ok i) (g : Byte) : Ok i { c.released with state := .free, gen := g, conds := 0 } :=
  ⟨⟨fun _ => ⟨rfl, rfl, rfl, rfl⟩, nofun, rfl, rfl, fun _ => ⟨rfl, rfl⟩, fun _ => ⟨rfl, rfl, rfl, nofun⟩, rfl, rfl, rfl, rfl,
    fun _ => rfl, nofun⟩, ⟨fun _ => rfl, nofun⟩, h.priority, fun _ => rfl⟩

/-- A released record that is CLOSED (R20). -/
theorem Ok.retired (h : c.Ok i) (hf : c.state ≠ .free) (cause : RetireCause) :
    Ok i { c.released with state := .closed, retireCause := some cause, conds := CondSet.one .retired } :=
  ⟨⟨fun _ => ⟨rfl, rfl, rfl, rfl⟩, nofun, rfl, rfl, fun _ => ⟨rfl, rfl⟩, fun _ => ⟨rfl, rfl, rfl, nofun⟩, rfl, rfl, rfl, rfl,
    nofun, fun _ => show CondSet.one .retired = 0x800#12 by decide⟩, ⟨fun _ => rfl, nofun⟩, h.priority, fun hi => absurd (h.inRange hi) hf⟩

theorem Ok.opened {p : Port} {b : Bool} {n : Nat} (hn : n ≤ 3) (hi : i < 2048) : (c.opening p b n).Ok i :=
  ⟨⟨nofun, nofun, rfl, rfl, fun _ => ⟨rfl, rfl⟩, fun _ => ⟨rfl, rfl, rfl, nofun⟩, rfl, rfl, rfl, rfl, nofun, nofun⟩,
    ⟨fun _ => rfl, nofun⟩, hn, fun hle => absurd hle (Nat.not_le.2 hi)⟩

/-! ### Rates, requests, works and the playout queue -/

theorem Ok.requested (h : c.Ok i) (q : Option RateRequest) (hq : ∀ x, q = some x → c.converting = true) :
    Ok i { c with request := q } := by
  refine ⟨{ h.parts with idle := fun hc => ⟨?_, (h.parts.idle hc).2⟩ }, h.window, h.priority, h.inRange⟩
  cases q with
  | none => rfl
  | some x => exact absurd ((hq x rfl).symm.trans hc) (by decide)

theorem Ok.rated (h : c.Ok i) (hp : c.profile.isSome = true) (r n : Nat) :
    Ok i { c with rate := some r, sinceRate := n } :=
  ⟨{ h.parts with rate := hp.symm }, h.window, h.priority, h.inRange⟩

/-- A new permitted set, and the request that it keeps (R116, R117). -/
theorem Ok.permitted (h : c.Ok i) (hp : c.profile.isSome = true) (set : RateSet) (r : Nat) :
    Ok i { c with permitted := some set, request := keptRequest set r c.request } := by
  refine ⟨{ h.parts with permitted := hp.symm, idle := fun hc => ⟨?_, (h.parts.idle hc).2⟩ }, h.window, h.priority,
    h.inRange⟩
  show keptRequest set r c.request = none
  rw [(h.parts.idle hc).1]
  rfl

theorem Ok.workDropped (h : c.Ok i) : Ok i { c with work := none } :=
  ⟨{ h.parts with idle := fun hc => ⟨(h.parts.idle hc).1, rfl⟩,
                  unplayed := fun hs => ⟨(h.parts.unplayed hs).1, (h.parts.unplayed hs).2.1, (h.parts.unplayed hs).2.2.1, nofun⟩ },
    h.window, h.priority, h.inRange⟩

theorem Ok.readyTaken (h : c.Ok i) : Ok i { c with ready := none } := by
  refine ⟨{ h.parts with unplayed := fun hs => ?_ }, h.window, h.priority, h.inRange⟩
  obtain ⟨hexpected, hqueue, -, hwork⟩ := h.parts.unplayed hs
  exact ⟨hexpected, hqueue, rfl, hwork⟩

theorem Ok.played (h : c.Ok i) (hs : c.state = .active) (hw : (c.playoutMoved d).queueInWindow) :
    (c.playoutMoved d).Ok i :=
  ⟨{ h.parts with unplayed := fun hb => absurd hs hb }, hw, h.priority, h.inRange⟩

end Ctx

end Sys2Proof.Machine
end

section
/-! SUPPORT. The records that the start and the completion of a work leave in order (R85, R86, R100). -/

namespace Sys2Proof.Machine

open State

/-! ### The playout window at a work start (R96, R100) -/

theorem distance_next {x e : Seq16} (h : x ≠ e) : (x - (e + 1)).toNat + 1 = (x - e).toNat := by
  bv_omega

/-- Entries past the expected sequence stay within the window as it advances. -/
theorem queueInWindow_advanced {c d : Ctx} {e : Seq16} (hc : c.queueInWindow) (he : c.expected = some e)
    (hsub : d.queue.Sublist c.queue) (hne : ∀ x ∈ d.queue, x.seq ≠ e) (hd : d.expected = some (e + 1)) :
    d.queueInWindow := by
  obtain ⟨hsorted, hnear⟩ := hc.2 e he
  refine ⟨fun h => absurd (hd.symm.trans h) (by simp), fun e' h => ?_⟩
  obtain rfl : e + 1 = e' := Option.some.inj (hd.symm.trans h)
  refine ⟨(hsorted.sublist hsub).imp_of_mem fun {x y} hx hy hlt => ?_, fun x hx => ?_⟩
  · have hxd := distance_next (hne x hx)
    have hyd := distance_next (hne y hy)
    omega
  · have hxd := distance_next (hne x hx)
    have hle := hnear x (hsub.subset hx)
    omega

theorem queueInWindow_playHead {c : Ctx} {e : Seq16} (hc : c.queueInWindow) (he : c.expected = some e) :
    (playHead c e).2.queueInWindow := by
  obtain ⟨hsorted, -⟩ := hc.2 e he
  unfold playHead
  split
  · next x rest hq =>
    rw [hq] at hsorted
    obtain ⟨hhead, -⟩ := List.pairwise_cons.1 hsorted
    split
    · next hx =>
      refine queueInWindow_advanced hc he (by rw [hq]; exact List.sublist_cons_self x rest) (fun y hy hye => ?_) rfl
      have hlt := hhead y hy
      rw [hx, hye] at hlt
      exact absurd hlt (lt_irrefl _)
    · next hx =>
      refine queueInWindow_advanced hc he (List.Sublist.refl _) (fun y hy hye => ?_) rfl
      rcases List.mem_cons.1 (hq ▸ hy : y ∈ x :: rest) with rfl | hy
      · exact hx hye
      · have hlt := hhead y hy
        rw [hye] at hlt
        simp at hlt
  · next hq =>
    refine queueInWindow_advanced hc he (List.Sublist.refl _) (fun y hy => ?_) rfl
    rw [show (_ : Ctx).queue = [] from hq] at hy
    cases hy

theorem queueInWindow_uplinkStart {c : Ctx} (hc : c.queueInWindow) : c.uplinkStart.2.queueInWindow := by
  unfold Ctx.uplinkStart
  split
  · cases he : c.expected with
    | none =>
      rw [selectUplink_unexpected he]
      exact hc
    | some e =>
      have hplay : (playHead c.unprimed e).2.queueInWindow := queueInWindow_playHead (c := c.unprimed) hc he
      rw [selectUplink_expects he]
      split
      · split
        · exact hplay
        · exact hc
      · exact queueInWindow_playHead hc he
  · exact hc

/-! ### Works -/

namespace Ctx

variable {c d : Ctx} {i : Nat}

theorem Ok.working (h : c.Ok i) (hc : c.converting = true) {w : Work} (hw : c.state ≠ .active → w.uplink = .noSamples) :
    Ok i { c with work := some w } := by
  refine ⟨{ h.parts with
    idle := fun hb => absurd (hc.symm.trans hb) (by decide), unplayed := fun hs => ?_ }, h.window, h.priority, h.inRange⟩
  obtain ⟨hexpected, hqueue, hready, -⟩ := h.parts.unplayed hs
  exact ⟨hexpected, hqueue, hready, fun v hv => Option.some.inj hv ▸ hw hs⟩

theorem Ok.workStarted (h : c.Ok i) (hc : c.converting = true) {w : Work} (hw : w.uplink = c.uplinkStart.1) :
    Ok i { c.uplinkStart.2 with work := some w } := by
  have hnone : c.state ≠ .active → c.uplinkStart = (.noSamples, c) := fun hs => if_neg hs
  have hok : Ok i { c with work := some w } := h.working hc fun hs => by rw [hw, hnone hs]
  by_cases hs : c.state = .active
  · have hplayed : ({ c with work := some w } : Ctx).playoutMoved c.uplinkStart.2 =
        { c.uplinkStart.2 with work := some w } := by
      rw [uplinkStart_keeps c]
      rfl
    have hwin := queueInWindow_uplinkStart h.window
    exact hplayed ▸ hok.played (d := c.uplinkStart.2) hs hwin
  · rw [hnone hs]
    exact hok

theorem readyBlock_noSamples {w : Work} (h : w.uplink = .noSamples) (law : Law) (draw : Nat) :
    w.readyBlock law draw = none := by
  simp [Work.readyBlock, Work.scaled, Work.samples, h]

theorem Ok.completed (h : c.Ok i) {w : Work} (hw : c.work = some w) (draw : Nat) : (c.completed w draw).Ok i := by
  refine ⟨{ h.parts with idle := fun hc => ⟨(h.parts.idle hc).1, rfl⟩, unplayed := fun hs => ?_ }, h.window, h.priority,
    h.inRange⟩
  obtain ⟨hexpected, hqueue, hready, hquiet⟩ := h.parts.unplayed hs
  refine ⟨hexpected, hqueue, ?_, nofun⟩
  show (match w.readyBlock c.law draw with | some b => some b | none => c.ready) = none
  rw [readyBlock_noSamples (hquiet w hw)]
  exact hready

end Ctx

end Sys2Proof.Machine
end

section
/-! SUPPORT. The moves that change one record's state, rate or work, and leave what it holds (R10 to R22, R57, R85, R105). -/

namespace Sys2Proof.Machine

open State

namespace Ctx

variable {c : Ctx} {i : Nat}

/-! ### What a context in OPEN holds (R31, R33, R53) -/

theorem Ok.holding (h : c.Ok i) (hs : c.state = .opened) (b : Option SlotBinding) (k : Option StreamKey) :
    Ok i { c with slot := b, primary := k } := by
  have hbare : ¬ (c.state = .free ∨ c.state = .closed) := by
    rw [hs]
    decide
  have hwhole : ¬ (c.state = .armed ∨ c.state = .active ∨ c.state = .held) := by
    rw [hs]
    decide
  exact ⟨{ h.parts with bare := fun hb => absurd hb hbare, whole := fun hb => absurd hb hwhole }, h.window, h.priority,
    h.inRange⟩

end Ctx

namespace State

variable {s t : State} {i : Nat} {d : Ctx}

/-! ### What a record reserves (R57) -/

theorem charge_congr_ctx {c d : Ctx} (hs : d.state = c.state) (hp : d.profile = c.profile) (hr : d.rate = c.rate) :
    s.charge d = s.charge c := by
  unfold charge
  rw [Ctx.converting_congr hs, hp, hr]

theorem charge_converting {c : Ctx} (h : c.converting = true) : s.charge c = s.priceOf c.profile (c.rate.getD 0) :=
  if_pos h

theorem charge_idle {c : Ctx} (h : c.converting = false) : s.charge c = 0 := if_neg (by simp [h])

/-- A record's reservation is in the sum. -/
theorem Sound.reservation_le (hs : s.Sound) (i : Nat) : s.reservation i ≤ s.reserved := by
  cases hc : (s.ctx i).converting with
  | false =>
    have hzero : s.reservation i = 0 := if_neg (by simp [hc])
    omega
  | true =>
    rw [hs.reserved]
    exact Finset.single_le_sum (f := s.reservation) (fun _ _ => Nat.zero_le _)
      (Finset.mem_range.2 (inRange_of_converting hs.records hc))

theorem Sound.charge_le (hs : s.Sound) (i : Nat) : s.charge (s.ctx i) ≤ s.reserved :=
  reservation_eq (hs.records i).parts ▸ hs.reservation_le i

/-- A converting record reserves its current cost. -/
theorem Sound.currentCost_eq_charge (hs : s.Sound) {i : Nat} (h : (s.ctx i).converting = true) :
    s.currentCost i = s.charge (s.ctx i) := by
  rw [currentCost_eq (hs.records i).parts, charge_converting h]

/-! ### One record written (R1) -/

/-- One record written in the table, with what it holds and reserves. -/
theorem sound_setCtx (hs : s.Sound) (ht : (s.setCtx i d).Tidy) (hh : (s.ctx i).SameHoldings d) (hd : d.Ok i)
    (hrates : s.RatesOk d) (hcharge : s.charge d = s.charge (s.ctx i))
    (hwork : (s.ctx i).work.isSome = true → d.work.isSome = true) : (s.setCtx i d).Sound :=
  hs.record ht ⟨rfl, rfl, rfl, rfl⟩ (ctx_setCtx s i · d) hh hd hrates (by rw [hcharge]; rfl)
    (lanes_edit hs.lanes (ctx_setCtx s i · d) rfl hwork)

theorem sound_settings (hs : s.Sound) (ht : (s.setCtx i d).Tidy) (h : (s.ctx i).SameParts d) : (s.setCtx i d).Sound :=
  sound_setCtx hs ht ⟨h.slot, h.primary, h.handover, h.profile⟩ ((hs.records i).settings h)
    ((hs.rates i).of_same h.permitted h.profile h.rate (Or.inl h.request)) (charge_congr_ctx h.state h.profile h.rate)
    (by rw [h.work]; exact id)

theorem sound_prioritize (hs : s.Sound) {n : Nat} (ht : (s.modCtx i fun c => { c with priority := n }).Tidy)
    (hn : n ≤ 3) : (s.modCtx i fun c => { c with priority := n }).Sound :=
  sound_setCtx hs ht ⟨rfl, rfl, rfl, rfl⟩ ((hs.records i).prioritized hn) ((hs.rates i).of_same rfl rfl rfl (Or.inl rfl))
    rfl id

theorem sound_raise (hs : s.Sound) {k : Cond} (ht : (s.raise i k).Tidy) (hf : (s.ctx i).state ≠ .free)
    (hc : (s.ctx i).state ≠ .closed) : (s.raise i k).Sound :=
  hs.record ht ⟨by simp, by simp, by simp, by simp⟩ (ctx_raise s i · k) ⟨rfl, rfl, rfl, rfl⟩
    ((hs.records i).conds _ hf hc) ((hs.rates i).of_same rfl rfl rfl (Or.inl rfl))
    (by rw [raise_reserved]; rfl) (lanes_edit hs.lanes (ctx_raise s i · k) (by simp) id)

theorem sound_reheld (hs : s.Sound) {cause : HoldCause}
    (ht : (s.modCtx i fun c => { c with holdCause := some cause }).Tidy) (h : (s.ctx i).state = .held) :
    (s.modCtx i fun c => { c with holdCause := some cause }).Sound :=
  sound_setCtx hs ht ⟨rfl, rfl, rfl, rfl⟩ ((hs.records i).reheld h cause)
    ((hs.rates i).of_same rfl rfl rfl (Or.inl rfl)) rfl id

theorem sound_activated (hs : s.Sound)
    (ht : (s.modCtx i fun c => { c with state := .active, firstRemaining := none }).Tidy)
    (h : (s.ctx i).state = .armed) :
    (s.modCtx i fun c => { c with state := .active, firstRemaining := none }).Sound := by
  refine sound_setCtx hs ht ⟨rfl, rfl, rfl, rfl⟩ ((hs.records i).activated h)
    ((hs.rates i).of_same rfl rfl rfl (Or.inl rfl)) ?_ id
  rw [charge_converting rfl, charge_converting ((Ctx.converting_iff _).2 (Or.inl h))]

theorem sound_played (hs : s.Sound) (ht : (s.setCtx i ((s.ctx i).playoutMoved d)).Tidy)
    (h : (s.ctx i).state = .active) (hw : (s.ctx i).queueInWindow → ((s.ctx i).playoutMoved d).queueInWindow) :
    (s.setCtx i ((s.ctx i).playoutMoved d)).Sound :=
  sound_setCtx hs ht ⟨rfl, rfl, rfl, rfl⟩ ((hs.records i).played h (hw (hs.records i).window))
    ((hs.rates i).of_same rfl rfl rfl (Or.inl rfl)) rfl id

theorem sound_readyTaken (hs : s.Sound) (ht : (s.modCtx i fun c => { c with ready := none }).Tidy) :
    (s.modCtx i fun c => { c with ready := none }).Sound :=
  sound_setCtx hs ht ⟨rfl, rfl, rfl, rfl⟩ (hs.records i).readyTaken ((hs.rates i).of_same rfl rfl rfl (Or.inl rfl))
    rfl id

theorem sound_lawSet (hs : s.Sound) {n : Nat} {law : Law}
    (ht : (s.modCtx i fun c => { c with slot := some ⟨n, law⟩ }).Tidy) (h : (s.ctx i).state = .opened)
    (hn : s.slotEntry n = some i) : (s.modCtx i fun c => { c with slot := some ⟨n, law⟩ }).Sound :=
  sound_setCtx hs ht ⟨((hs.slots n i).1 hn).symm, rfl, rfl, rfl⟩ ((hs.records i).holding h _ _)
    ((hs.rates i).of_same rfl rfl rfl (Or.inl rfl)) rfl id

theorem sound_workStarted (hs : s.Sound) {w : Work} (hc : (s.ctx i).converting = true)
    (ht : (s.setCtx i { (s.ctx i).uplinkStart.2 with work := some w }).Tidy)
    (hw : w.uplink = (s.ctx i).uplinkStart.1) :
    (s.setCtx i { (s.ctx i).uplinkStart.2 with work := some w }).Sound := by
  have hok := (hs.records i).workStarted hc hw
  rw [uplinkStart_keeps] at ht hok ⊢
  exact sound_setCtx hs ht ⟨rfl, rfl, rfl, rfl⟩ hok ((hs.rates i).of_same rfl rfl rfl (Or.inl rfl)) rfl fun _ => rfl

/-! ### Transitions between the states that reserve and those that do not (R12, R17, R22, R66) -/

/-- What a converting record reserves goes back when it ceases to convert. -/
theorem Sound.given_back (hs : s.Sound) (h : (s.ctx i).converting = true) (hd : d.converting = false) :
    s.reserved - s.currentCost i + s.charge (s.ctx i) = s.reserved + s.charge d := by
  have hle := hs.charge_le i
  rw [hs.currentCost_eq_charge h, charge_idle hd]
  omega

theorem sound_returnToOpen (hs : s.Sound) (ht : (s.returnToOpen i).Tidy) (h : (s.ctx i).state = .armed) :
    (s.returnToOpen i).Sound :=
  hs.record ht ⟨by simp, by simp, by simp, by simp⟩ (ctx_returnToOpen s i) ⟨rfl, rfl, rfl, rfl⟩
    ((hs.records i).returned h _) ((hs.rates i).of_same rfl rfl rfl (Or.inr rfl))
    (by rw [reserved_returnToOpen]; exact hs.given_back ((Ctx.converting_iff _).2 (Or.inl h)) rfl)
    (lanes_dropped hs.lanes (ctx_returnToOpen s i) (lane_returnToOpen s i))

theorem sound_enterHeld (hs : s.Sound) {cause : HoldCause} (ht : (s.enterHeld i cause).Tidy)
    (h : (s.ctx i).converting = true) : (s.enterHeld i cause).Sound :=
  hs.record ht ⟨by simp, by simp, by simp, by simp⟩ (ctx_enterHeld s i · cause) ⟨rfl, rfl, rfl, rfl⟩
    ((hs.records i).held h cause _) ((hs.rates i).of_same rfl rfl rfl (Or.inr rfl))
    (by rw [reserved_enterHeld]; exact hs.given_back h rfl)
    (lanes_dropped hs.lanes (ctx_enterHeld s i · cause) (lane_enterHeld s i · cause))

theorem sound_armed (hs : s.Sound) (ht : ((s.reserve (s.currentCost i)).modCtx i Ctx.toArmed).Tidy)
    (h : (s.ctx i).state = .opened) (hc : (s.ctx i).complete = true) :
    ((s.reserve (s.currentCost i)).modCtx i Ctx.toArmed).Sound := by
  refine hs.record ht ⟨rfl, rfl, rfl, rfl⟩ (ctx_modCtx (s.reserve (s.currentCost i)) i · Ctx.toArmed)
    ⟨rfl, rfl, rfl, rfl⟩ ((hs.records i).armed h hc) ((hs.rates i).of_same rfl rfl rfl (Or.inl rfl)) ?_
    (lanes_edit hs.lanes (ctx_modCtx (s.reserve (s.currentCost i)) i · Ctx.toArmed) rfl id)
  have hidle : (s.ctx i).converting = false := (Ctx.converting_false_iff _).2 (by rw [h]; decide)
  have hcost : s.currentCost i = s.charge (s.ctx i).toArmed := currentCost_eq (hs.records i).parts
  rw [charge_idle hidle]
  show s.reserved + s.currentCost i + 0 = s.reserved + s.charge (s.ctx i).toArmed
  rw [hcost, Nat.add_zero]

theorem converting_fromHeld {c : Ctx} : c.fromHeld.converting = true := by
  refine (Ctx.converting_iff _).2 ?_
  show (c.heldFrom.getD .active).state = .armed ∨ (c.heldFrom.getD .active).state = .active
  cases c.heldFrom.getD .active
  · exact Or.inl rfl
  · exact Or.inr rfl

theorem sound_leaveHeld (hs : s.Sound) (ht : (s.leaveHeld i).Tidy) (h : (s.ctx i).state = .held) :
    (s.leaveHeld i).Sound := by
  refine hs.record ht ⟨rfl, rfl, rfl, rfl⟩ (ctx_leaveHeld s i) ⟨rfl, rfl, rfl, rfl⟩ ((hs.records i).resumed h)
    ((hs.rates i).of_same rfl rfl rfl (Or.inl rfl)) ?_ (lanes_edit hs.lanes (ctx_leaveHeld s i) rfl id)
  have hidle : (s.ctx i).converting = false := (Ctx.converting_false_iff _).2 (by rw [h]; decide)
  have hcost : s.currentCost i = s.charge (s.ctx i).fromHeld :=
    (currentCost_eq (hs.records i).parts).trans (charge_converting converting_fromHeld).symm
  rw [charge_idle hidle]
  show s.reserved + s.currentCost i + 0 = s.reserved + s.charge (s.ctx i).fromHeld
  rw [hcost, Nat.add_zero]

/-! ### Works at the lanes (R61, R85, R86) -/

theorem sound_discardWork (hs : s.Sound) (ht : (s.discardWork i).Tidy) : (s.discardWork i).Sound :=
  hs.record ht ⟨by simp, by simp, by simp, by simp⟩ (ctx_discardWork s i) ⟨rfl, rfl, rfl, rfl⟩
    (hs.records i).workDropped ((hs.rates i).of_same rfl rfl rfl (Or.inl rfl))
    (by rw [discardWork_reserved]; rfl) (lanes_dropped hs.lanes (ctx_discardWork s i) (lane_discardWork s i))

theorem sound_complete (hs : s.Sound) {n : Nat} {w : Work} (ht : (s.complete n i w).Tidy)
    (hl : (s.lane n).inHand = some i) (hw : (s.ctx i).work = some w) : (s.complete n i w).Sound := by
  have hframe := completionFrame_complete s n i w
  have hlive : (s.ctx i).converting = true := by
    by_contra hc
    have hnone := ((hs.records i).parts.idle (Bool.not_eq_true _ ▸ hc)).2
    rw [hw] at hnone
    cases hnone
  obtain ⟨hn, -, -, hone⟩ := hs.lanes n i hl
  have hdone := (hs.records i).completed hw s.freeCount
  refine hs.record ht ⟨by rw [hframe], by rw [hframe], by rw [hframe], by rw [hframe]⟩ (ctx_complete s n i · w)
    ⟨rfl, rfl, rfl, rfl⟩
    (hdone.conds _ (Ctx.ne_free_of_converting hlive) (Ctx.ne_closed_of_converting hlive))
    ((hs.rates i).of_same rfl rfl rfl (Or.inl rfl)) (by rw [hframe]; rfl)
    (lanes_dropped hs.lanes (ctx_complete s n i · w) fun m => (lane_complete s n i m w).trans ?_)
  by_cases hm : m = n
  · rw [if_pos hm, if_pos ⟨hm ▸ hn, hm ▸ hl⟩, hm]
  · rw [if_neg hm, if_neg fun h => hm (hone m h.2)]

end State

end Sys2Proof.Machine
end

section
/-! SUPPORT. Rates, requests and permitted sets (R53, R105, R107, R112, R116, R117), and the passes (R65 to R69). -/

namespace Sys2Proof.Machine

open State

/-- The record after its set and its rate are replaced together (R116). -/
def Ctx.withSet (c : Ctx) (set : RateSet) (r : Nat) : Ctx :=
  { c with rate := some r, sinceRate := 0, permitted := some set, request := keptRequest set r c.request }

namespace State

variable {s t : State} {i : Nat} {d : Ctx}

/-! ### Rates that a record may have (R105, R107) -/

/-- A permitted rate is in a set, and the context has a profile. -/
theorem Sound.of_permits (hs : s.Sound) {r : Nat} (h : (s.ctx i).permits r = true) :
    (∃ set, (s.ctx i).permitted = some set ∧ set.getLsbD r = true) ∧ (s.ctx i).profile.isSome = true := by
  have hset : ∃ set, (s.ctx i).permitted = some set ∧ set.getLsbD r = true := by
    unfold Ctx.permits at h
    split at h
    · next set hset => exact ⟨set, hset, h⟩
    · cases h
  refine ⟨hset, ?_⟩
  obtain ⟨set, hset, -⟩ := hset
  rw [← (hs.records i).parts.permitted, hset]
  rfl

/-- The rate of a pending request is permitted. -/
theorem Sound.permits_request (hs : s.Sound) {q : RateRequest} (hc : (s.ctx i).converting = true)
    (h : (s.ctx i).request = some q) : (s.ctx i).permits q.rate = true := by
  obtain ⟨-, -, hprofile⟩ := (hs.records i).parts.whole (((Ctx.converting_iff _).1 hc).imp_right Or.inl)
  rw [← (hs.records i).parts.permitted] at hprofile
  obtain ⟨set, hset⟩ := Option.isSome_iff_exists.1 hprofile
  obtain ⟨-, -, -, hreq⟩ := hs.rates i set hset
  unfold Ctx.permits
  rw [hset]
  exact hreq q h

/-- A permitted rate written at a record. -/
theorem Sound.rated (hs : s.Sound) {r : Nat} (h : (s.ctx i).permits r = true) (n : Nat) :
    s.RatesOk { s.ctx i with rate := some r, sinceRate := n } := by
  obtain ⟨⟨set, hset, hr⟩, -⟩ := hs.of_permits h
  intro set' hset'
  obtain rfl : set = set' := Option.some.inj (hset.symm.trans hset')
  obtain ⟨hne, htable, -, hreq⟩ := hs.rates i set hset
  exact ⟨hne, htable, fun r' hr' => Option.some.inj hr' ▸ hr, hreq⟩

/-- A request for a rate of the permitted set. -/
theorem Sound.requested (hs : s.Sound) {q : Option RateRequest} (h : ∀ x, q = some x → (s.ctx i).permits x.rate = true) :
    s.RatesOk { s.ctx i with request := q } := by
  intro set hset
  obtain ⟨hne, htable, hrate, -⟩ := hs.rates i set hset
  refine ⟨hne, htable, hrate, fun x hx => ?_⟩
  obtain ⟨⟨set', hset', hr⟩, -⟩ := hs.of_permits (h x hx)
  obtain rfl : set' = set := Option.some.inj (hset'.symm.trans hset)
  exact hr

/-- An allowed set, with a rate and a request in it (R53, R116). -/
theorem Allows.ratesOk {set : RateSet} {c : Profile} (ha : s.Allows i set c) (hf : d.profile = (s.ctx i).profile)
    (hset : d.permitted = some set) (hr : ∀ r, d.rate = some r → set.has r = true)
    (hq : ∀ q, d.request = some q → set.has q.rate = true) : s.RatesOk d := by
  intro set' hset'
  obtain rfl : set = set' := Option.some.inj (hset.symm.trans hset')
  refine ⟨ha.nonempty, ⟨c, ?_, (RateSet.within_iff set _).1 ha.within⟩, hr, hq⟩
  rw [hf, ← profileOf_eq]
  exact ha.profile

theorem Allows.profile_isSome {set : RateSet} {c : Profile} (ha : s.Allows i set c) :
    (s.ctx i).profile.isSome = true := by
  have h := ha.profile
  rw [profileOf_eq] at h
  cases hp : (s.ctx i).profile with
  | none =>
    rw [hp] at h
    cases h
  | some n => rfl

/-! ### Requests and rates (R105, R112) -/

theorem sound_requested (hs : s.Sound) {q : Option RateRequest} (ht : (s.modCtx i fun c => { c with request := q }).Tidy)
    (h : ∀ x, q = some x → (s.ctx i).converting = true ∧ ((s.ctx i).request = some x ∨ (s.ctx i).permits x.rate = true ∨
      ∃ set r, (s.ctx i).permitted = some set ∧ x.rate = set.correct r)) :
    (s.modCtx i fun c => { c with request := q }).Sound := by
  refine sound_setCtx hs ht ⟨rfl, rfl, rfl, rfl⟩ ((hs.records i).requested q fun x hx => (h x hx).1)
    (hs.requested fun x hx => ?_) rfl id
  obtain ⟨hconv, hown | hper | ⟨set, r, hset, hrate⟩⟩ := h x hx
  · exact hs.permits_request hconv hown
  · exact hper
  · obtain ⟨hne, -⟩ := hs.rates i set hset
    unfold Ctx.permits
    rw [hset, hrate]
    exact RateSet.has_correct hne r

theorem sound_retune (hs : s.Sound) {r : Nat} (ht : (s.retune i r).Tidy) (h : (s.ctx i).converting = false)
    (hp : (s.ctx i).permits r = true) : (s.retune i r).Sound :=
  hs.record ht ⟨by simp, by simp, by simp, by simp⟩ (ctx_retune s i r) ⟨rfl, rfl, rfl, rfl⟩
    ((hs.records i).rated (hs.of_permits hp).2 r 0) (hs.rated hp 0)
    (by rw [charge_idle h, charge_idle (c := { s.ctx i with rate := some r, sinceRate := 0 }) h]; simp)
    (lanes_edit hs.lanes (ctx_retune s i r) (by simp) id)

/-- A rate written at a converting record changes what it reserves by the difference of the costs (R105). -/
theorem Sound.repaid (hs : s.Sound) (h : (s.ctx i).converting = true) {r : Nat} (hc : d.converting = true)
    (hp : d.profile = (s.ctx i).profile) (hr : d.rate = some r) :
    s.reserved + s.costOf i r - s.currentCost i + s.charge (s.ctx i) = s.reserved + s.charge d := by
  have hle := hs.charge_le i
  have hcost : s.costOf i r = s.charge d := by
    rw [costOf_eq, charge_converting hc, hp, hr]
    rfl
  rw [hs.currentCost_eq_charge h, hcost]
  omega

theorem sound_retunePaid (hs : s.Sound) {r : Nat} (ht : (s.retunePaid i r).Tidy) (h : (s.ctx i).converting = true)
    (hp : (s.ctx i).permits r = true) : (s.retunePaid i r).Sound :=
  hs.record ht ⟨by simp, by simp, by simp, by simp⟩ (ctx_retunePaid s i r) ⟨rfl, rfl, rfl, rfl⟩
    ((hs.records i).rated (hs.of_permits hp).2 r 0) (hs.rated hp 0)
    (by rw [reserved_retunePaid]; exact hs.repaid h h rfl rfl)
    (lanes_edit hs.lanes (ctx_retunePaid s i r) (by simp) id)

/-! ### Permitted sets (R116, R117) -/

theorem sound_setKept (hs : s.Sound) {set : RateSet} {c : Profile} (ha : s.Allows i set c)
    (h : set.has ((s.ctx i).rate.getD 0) = true)
    (ht : (s.modCtx i fun x =>
      { x with permitted := some set, request := keptRequest set ((s.ctx i).rate.getD 0) x.request }).Tidy) :
    (s.modCtx i fun x =>
      { x with permitted := some set, request := keptRequest set ((s.ctx i).rate.getD 0) x.request }).Sound :=
  sound_setCtx hs ht ⟨rfl, rfl, rfl, rfl⟩ ((hs.records i).permitted ha.profile_isSome set _)
    (ha.ratesOk rfl rfl (fun r hr => by rw [show (s.ctx i).rate = some r from hr] at h; exact h)
      fun _ hq => has_keptRequest hq) rfl id

theorem ok_withSet {set : RateSet} {c : Profile} (hs : s.Sound) (ha : s.Allows i set c) (r : Nat) :
    ((s.ctx i).withSet set r).Ok i :=
  ((hs.records i).rated ha.profile_isSome r 0).permitted ha.profile_isSome set r

theorem ratesOk_withSet {set : RateSet} {c : Profile} (ha : s.Allows i set c) (r : Nat) :
    s.RatesOk ((s.ctx i).withSet set (set.landing r)) :=
  ha.ratesOk rfl rfl (fun _ hr => Option.some.inj hr ▸ RateSet.has_landing ha.nonempty r) fun _ hq => has_keptRequest hq

theorem ctx_setMoved (s : State) (i r : Nat) (set : RateSet) (j : Nat) : ((s.retune i r).modCtx i fun x =>
    { x with permitted := some set, request := keptRequest set r x.request }).ctx j =
      if j = i then (s.ctx i).withSet set r else s.ctx j := by
  rw [ctx_modCtx, ctx_retune, ctx_retune, if_pos rfl]
  split <;> rfl

theorem ctx_setPaid (s : State) (i r : Nat) (set : RateSet) (j : Nat) : ((s.retunePaid i r).modCtx i fun x =>
    { x with permitted := some set, request := keptRequest set r x.request }).ctx j =
      if j = i then (s.ctx i).withSet set r else s.ctx j := ctx_setMoved _ i r set j

theorem sound_setMoved (hs : s.Sound) {set : RateSet} {c : Profile} (ha : s.Allows i set c) (r : Nat)
    (h : (s.ctx i).converting = false)
    (ht : ((s.retune i (set.landing r)).modCtx i fun x =>
      { x with permitted := some set, request := keptRequest set (set.landing r) x.request }).Tidy) :
    ((s.retune i (set.landing r)).modCtx i fun x =>
      { x with permitted := some set, request := keptRequest set (set.landing r) x.request }).Sound :=
  hs.record ht ⟨by simp, by simp, by simp, by simp⟩ (ctx_setMoved s i _ set) ⟨rfl, rfl, rfl, rfl⟩ (ok_withSet hs ha _)
    (ratesOk_withSet ha r)
    (by rw [charge_idle h, charge_idle (c := (s.ctx i).withSet set (set.landing r)) h]; simp)
    (lanes_edit hs.lanes (ctx_setMoved s i _ set) (by simp) id)

theorem sound_setPaid (hs : s.Sound) {set : RateSet} {c : Profile} (ha : s.Allows i set c) (r : Nat)
    (h : (s.ctx i).converting = true)
    (ht : ((s.retunePaid i (set.landing r)).modCtx i fun x =>
      { x with permitted := some set, request := keptRequest set (set.landing r) x.request }).Tidy) :
    ((s.retunePaid i (set.landing r)).modCtx i fun x =>
      { x with permitted := some set, request := keptRequest set (set.landing r) x.request }).Sound :=
  hs.record ht ⟨by simp, by simp, by simp, by simp⟩ (ctx_setPaid s i _ set) ⟨rfl, rfl, rfl, rfl⟩ (ok_withSet hs ha _)
    (ratesOk_withSet ha r) (by rw [modCtx_reserved, reserved_retunePaid]; exact hs.repaid h h rfl rfl)
    (lanes_edit hs.lanes (ctx_setPaid s i _ set) (by simp) id)

/-! ### The shedding pass (R65 to R67) -/

theorem reducible_eq_some {c : Ctx} {r : Nat} (h : c.reducible = some r) :
    ∃ set q, c.permitted = some set ∧ c.rate = some q ∧ r = set.lowest ∧ r < q := by
  unfold Ctx.reducible at h
  split at h
  · next set q hset hq =>
    split at h
    · next hlt =>
      obtain rfl := Option.some.inj h
      exact ⟨set, q, hset, hq, rfl, hlt⟩
    · cases h
  · cases h

theorem sound_lower (hs : s.Sound) {r : Nat} (ht : (s.lower i r).Tidy) (h : (s.ctx i).converting = true)
    (hr : (s.ctx i).reducible = some r) : (s.lower i r).Sound := by
  obtain ⟨set, q, hset, -, rfl, -⟩ := reducible_eq_some hr
  obtain ⟨hne, -⟩ := hs.rates i set hset
  have hper : (s.ctx i).permits set.lowest = true := by
    unfold Ctx.permits
    rw [hset]
    exact RateSet.has_lowest hne
  have hok : ((s.ctx i).afterShedding (some set.lowest) false).Ok i :=
    (((hs.records i).rated (hs.of_permits hper).2 set.lowest 0).requested none nofun).conds _
      (Ctx.ne_free_of_converting h) (Ctx.ne_closed_of_converting h)
  exact hs.record ht ⟨by simp, by simp, by simp, by simp⟩ (ctx_lower s i _) ⟨rfl, rfl, rfl, rfl⟩ hok
    ((hs.rated hper 0).of_same rfl rfl rfl (Or.inr rfl)) (by rw [reserved_lower]; exact hs.repaid h h rfl rfl)
    (lanes_edit hs.lanes (ctx_lower s i _) (by simp) id)

theorem sound_countFor (hs : s.Sound) {k : Event} (ht : (s.countFor k i).Tidy) : (s.countFor k i).Sound :=
  hs.same ht ⟨by simp, by simp, by simp, by simp⟩ (countFor_ctxs s k i) (by simp)
    (lanes_edit (i := i) (d := s.ctx i) hs.lanes (fun j => by
      rw [ctx_congr (countFor_ctxs s k i)]
      split
      · next hj => rw [hj]
      · rfl) (by simp) id)

theorem sound_shed (hs : s.Sound) (ha : s.Attended) (h : (s.ctx i).converting = true) : (s.shed i).Sound := by
  have hcounted := attended_countFor ha .shed i
  have hctx : ∀ j, (s.countFor .shed i).ctx j = s.ctx j := ctx_congr (countFor_ctxs s .shed i)
  have hheld := sound_enterHeld (sound_countFor hs hcounted.tidy) (attended_enterHeld hcounted i .shed).tidy
    ((hctx i).symm ▸ h)
  have hstate : (((s.countFor .shed i).enterHeld i .shed).ctx i).state = .held := by
    rw [ctx_enterHeld, if_pos rfl]
    rfl
  exact sound_raise hheld (attended_shed ha i).tidy (by rw [hstate]; decide) (by rw [hstate]; decide)

theorem sound_foldl_shedOne (l : List Nat) (w : Walk) (h : ∀ i ∈ l, (w.after.ctx i).converting = true)
    (hs : w.after.Sound) (ha : w.after.Attended) :
    (l.foldl shedOne w).after.Sound ∧ (l.foldl shedOne w).after.Attended := by
  induction l generalizing w with
  | nil => exact ⟨hs, ha⟩
  | cons i l ih =>
    have hi := h i (List.mem_cons_self ..)
    have hrest : ∀ j ∈ l, ((shedOne w i).after.ctx j).converting = true := fun j hj => by
      have hstate : ((shedOne w i).after.ctx j).state = _ := state_foldl_shedOne [i] w j
      rw [Ctx.converting_congr hstate]
      exact h j (List.mem_cons_of_mem i hj)
    have hone : (shedOne w i).after.Sound ∧ (shedOne w i).after.Attended := by
      unfold shedOne
      split
      · split
        · next r hr =>
          have hlow := attended_lower ha (Ctx.ne_free_of_converting hi) r
          exact ⟨sound_lower hs hlow.tidy hi hr, hlow⟩
        · exact ⟨hs, ha⟩
      · exact ⟨hs, ha⟩
    exact ih _ hrest hone.1 hone.2

theorem sound_foldl_shedTwo (l : List Nat) (w : Walk) (hl : l.Nodup) (h : ∀ i ∈ l, (w.after.ctx i).converting = true)
    (hs : w.after.Sound) (ha : w.after.Attended) : (l.foldl shedTwo w).after.Sound := by
  induction l generalizing w with
  | nil => exact hs
  | cons i l ih =>
    obtain ⟨hout, hl⟩ := List.nodup_cons.1 hl
    have hi := h i (List.mem_cons_self ..)
    have hrest : ∀ j ∈ l, (w.after.ctx j).converting = true := fun j hj => h j (List.mem_cons_of_mem i hj)
    rw [List.foldl_cons]
    unfold shedTwo
    split
    · refine ih _ hl (fun j hj => ?_) (sound_shed hs ha hi) (attended_shed ha i)
      have hji : j ≠ i := fun hji => hout (hji ▸ hj)
      rw [Ctx.converting_congr ((state_shed w.after i j).trans (if_neg hji))]
      exact hrest j hj
    · exact ih _ hl hrest hs ha

theorem sound_sheddingPass (hs : s.Sound) (ha : s.Attended) : (sheddingPass s).after.Sound := by
  obtain ⟨hone, hattended⟩ := sound_foldl_shedOne s.sheddingOrder ⟨0, s⟩
    (fun _ hi => converting_of_mem_sheddingOrder hi) hs ha
  refine sound_foldl_shedTwo _ ⟨0, _⟩ (sheddingOrder_nodup s hs.canonical) (fun i hi => ?_) hone hattended
  rw [Ctx.converting_congr (state_foldl_shedOne s.sheddingOrder ⟨0, s⟩ i)]
  exact converting_of_mem_sheddingOrder hi

/-- A pass that ends with no context converting ends with nothing reserved (R65, R67). -/
theorem fits_sheddingPass (hs : s.Sound) (ha : s.Attended) :
    (sheddingPass s).after.reserved ≤ (sheddingPass s).after.available := by
  rcases sheddingPass_ends s fun i => (hs.records i).priority with hfits | hnone
  · exact hfits
  · have hzero : ∀ i ∈ Finset.range 2048, (sheddingPass s).after.reservation i = 0 := fun i _ =>
      if_neg (by rw [hnone i]; decide)
    rw [(sound_sheddingPass hs ha).reserved, Finset.sum_eq_zero hzero]
    exact Nat.zero_le _

/-! ### The readmission pass (R69) -/

theorem sound_readmit (hs : s.Sound) (ha : s.Attended) (h : (s.ctx i).state = .held) :
    ((s.leaveHeld i).raise i .readmitted).Sound := by
  have hleft : (s.leaveHeld i).Tidy := ha.tidy.sameKeys (canonical_leaveHeld s i ha.tidy.keys.canonical) (by simp)
    (ctx_leaveHeld s i) (fun hf => absurd hf (Ctx.ne_free_of_converting converting_fromHeld)) rfl
  have hconv : ((s.leaveHeld i).ctx i).converting = true := by
    rw [ctx_leaveHeld, if_pos rfl]
    exact converting_fromHeld
  exact sound_raise (sound_leaveHeld hs hleft h) (attended_readmit ha i).tidy (Ctx.ne_free_of_converting hconv)
    (Ctx.ne_closed_of_converting hconv)

theorem sound_foldl_readmitOne (l : List Nat) (w : Walk) (hl : l.Nodup) (h : ∀ i ∈ l, (w.after.ctx i).state = .held)
    (hs : w.after.Sound) (ha : w.after.Attended) : (l.foldl readmitOne w).after.Sound := by
  induction l generalizing w with
  | nil => exact hs
  | cons i l ih =>
    obtain ⟨hout, hl⟩ := List.nodup_cons.1 hl
    have hrest : ∀ j ∈ l, (w.after.ctx j).state = .held := fun j hj => h j (List.mem_cons_of_mem i hj)
    rw [List.foldl_cons]
    unfold readmitOne
    split
    · refine ih _ hl (fun j hj => ?_) (sound_readmit hs ha (h i (List.mem_cons_self ..))) (attended_readmit ha i)
      have hji : j ≠ i := fun hji => hout (hji ▸ hj)
      rw [state_readmit, if_neg hji]
      exact hrest j hj
    · exact ih _ hl hrest hs ha

theorem sound_readmissionPass (hs : s.Sound) (ha : s.Attended) : (readmissionPass s).after.Sound :=
  sound_foldl_readmitOne _ ⟨0, s⟩ (readmissionOrder_nodup s hs.canonical)
    (fun _ hi => (held_of_mem_readmissionOrder hi).1) hs ha

end State

end Sys2Proof.Machine
end

section
/-! SUPPORT. The stream map of a sound state, when one record's keys change (R30, R33, R34, R126). -/

namespace Sys2Proof.Machine

open State

/-- The key that a record holds in a role (R30). -/
def Ctx.keyOf (c : Ctx) : Role → Option StreamKey
  | .primary => c.primary
  | .handover => c.handover.map Handover.key

namespace State

variable {s t : State} {i : Nat} {d : Ctx}

/-- The keys of the records and the entries of the map, role by role. -/
theorem streams_iff (s : State) : s.streamsMatch ↔ (∀ n m k, s.holdsKey n k → s.holdsKey m k → n = m) ∧
    (∀ n e, s.streamEntry n = some e → n < 4096) ∧
    ∀ i r k, (s.ctx i).keyOf r = some k ↔ ∃ n, s.streamEntry n = some ⟨k, i, r⟩ := by
  constructor
  · rintro ⟨hunique, hnumber, hprimary, hhandover⟩
    refine ⟨hunique, hnumber, fun j r k => ?_⟩
    cases r with
    | primary => exact hprimary j k
    | handover => exact hhandover j k
  · rintro ⟨hunique, hnumber, hkeys⟩
    exact ⟨hunique, hnumber, fun j k => hkeys j .primary k, fun j k => hkeys j .handover k⟩

theorem Sound.keyOf_iff (hs : s.Sound) (i : Nat) (r : Role) (k : StreamKey) :
    (s.ctx i).keyOf r = some k ↔ ∃ n, s.streamEntry n = some ⟨k, i, r⟩ :=
  ((streams_iff s).1 hs.streams).2.2 i r k

/-- The entry of a key names the one record that holds it. -/
theorem Sound.entry_owner (hs : s.Sound) {n : Nat} {r : Role} {e : StreamEntry} (he : s.streamEntry n = some e)
    (hk : (s.ctx i).keyOf r = some e.key) : e.index = i ∧ e.role = r := by
  obtain ⟨m, hm⟩ := (hs.keyOf_iff i r e.key).1 hk
  obtain ⟨-, heq⟩ := hs.tidy.keys.entry_eq he hm rfl
  rw [heq]
  exact ⟨rfl, rfl⟩

/-- One record's keys changed: the entries of the others stand, and its own are the keys it now holds. -/
theorem streams_rekeyed (hs : s.Sound) (ht : t.Tidy) (hctx : ∀ j, t.ctx j = if j = i then d else s.ctx j)
    (hnumber : ∀ n e, t.streamEntry n = some e → n < 4096)
    (hothers : ∀ n e, e.index ≠ i → (t.streamEntry n = some e ↔ s.streamEntry n = some e))
    (hown : ∀ r k, d.keyOf r = some k ↔ ∃ n, t.streamEntry n = some ⟨k, i, r⟩) : t.streamsMatch := by
  refine (streams_iff t).2 ⟨ht.keys.unique, hnumber, fun j r k => ?_⟩
  rw [hctx]
  by_cases hj : j = i
  · rw [if_pos hj, hj]
    exact hown r k
  · rw [if_neg hj, hs.keyOf_iff]
    exact exists_congr fun n => (hothers n ⟨k, j, r⟩ hj).symm

/-- Keys of one record removed, from the map and from the record (R18, R34, R132). -/
theorem streams_dropped (hs : s.Sound) (ht : t.Tidy) (hctx : ∀ j, t.ctx j = if j = i then d else s.ctx j)
    (gone : StreamKey → Prop) (hheld : ∀ k, gone k → ∃ r, (s.ctx i).keyOf r = some k)
    (hm : ∀ n e, t.streamEntry n = some e ↔ s.streamEntry n = some e ∧ ¬ gone e.key)
    (hd : ∀ r k, d.keyOf r = some k ↔ (s.ctx i).keyOf r = some k ∧ ¬ gone k) : t.streamsMatch := by
  refine streams_rekeyed hs ht hctx (fun n e he => hs.streams.2.1 n e ((hm n e).1 he).1) (fun n e he => ?_) fun r k => ?_
  · refine (hm n e).trans ⟨fun h => h.1, fun h => ⟨h, fun hgone => he ?_⟩⟩
    obtain ⟨r, hr⟩ := hheld e.key hgone
    exact (hs.entry_owner h hr).1
  · rw [hd, hs.keyOf_iff]
    simp only [hm, exists_and_right]

/-- A key placed in an empty entry for a record that has none in its role (R33, R125). -/
theorem streams_added (hs : s.Sound) (ht : t.Tidy) (hctx : ∀ j, t.ctx j = if j = i then d else s.ctx j) {m : Nat}
    {k : StreamKey} {r : Role} (hm : m < 4096) (hvacant : s.streamEntry m = none)
    (hentries : ∀ n e, t.streamEntry n = some e ↔ (n = m ∧ e = ⟨k, i, r⟩) ∨ (n ≠ m ∧ s.streamEntry n = some e))
    (hnone : (s.ctx i).keyOf r = none) (hd : ∀ r', d.keyOf r' = if r' = r then some k else (s.ctx i).keyOf r') :
    t.streamsMatch := by
  have hkept : ∀ n e, s.streamEntry n = some e → n ≠ m := fun n e he hn => by
    rw [hn, hvacant] at he
    cases he
  refine streams_rekeyed hs ht hctx (fun n e he => ?_) (fun n e he => ?_) fun r' k' => ?_
  · rcases (hentries n e).1 he with ⟨hn, _⟩ | ⟨_, he⟩
    · exact hn ▸ hm
    · exact hs.streams.2.1 n e he
  · refine (hentries n e).trans ⟨fun h => ?_, fun h => Or.inr ⟨hkept n e h, h⟩⟩
    rcases h with ⟨_, rfl⟩ | ⟨_, h⟩
    · exact absurd rfl he
    · exact h
  · rw [hd]
    split
    · next hr =>
      rw [hr]
      constructor
      · intro hk
        exact ⟨m, (hentries m _).2 (Or.inl ⟨rfl, by rw [Option.some.inj hk]⟩)⟩
      · rintro ⟨n, hn⟩
        rcases (hentries n _).1 hn with ⟨_, he⟩ | ⟨_, he⟩
        · rw [StreamEntry.mk.injEq] at he
          rw [he.1]
        · have hkey := (hs.keyOf_iff i r k').2 ⟨n, he⟩
          rw [hnone] at hkey
          cases hkey
    · next hr =>
      rw [hs.keyOf_iff]
      refine exists_congr fun n => ?_
      rw [hentries]
      refine ⟨fun h => Or.inr ⟨hkept n _ h, h⟩, fun h => ?_⟩
      rcases h with ⟨_, he⟩ | ⟨_, he⟩
      · rw [StreamEntry.mk.injEq] at he
        exact absurd he.2.2 hr
      · exact he

/-! ### Room for a key (R1, R30)

The map has an entry for each context and role, so it is not full while a context has no key in some role. -/

/-- The place of a context's role in an enumeration of the 4096 pairs. -/
def roleCode (e : StreamEntry) : Nat := 2 * e.index + if e.role = .primary then 0 else 1

theorem roleCode_inj {e f : StreamEntry} (h : roleCode e = roleCode f) : e.index = f.index ∧ e.role = f.role := by
  obtain ⟨_, a, r⟩ := e
  obtain ⟨_, b, q⟩ := f
  cases r <;> cases q <;> simp [roleCode] at h ⊢ <;> omega

theorem Sound.index_lt (hs : s.Sound) {n : Nat} {e : StreamEntry} (he : s.streamEntry n = some e) : e.index < 2048 := by
  have hkey := (hs.keyOf_iff e.index e.role e.key).2 ⟨n, he⟩
  refine Nat.not_le.1 fun hle => ?_
  obtain ⟨-, hprimary, hhandover, -⟩ := (hs.records e.index).parts.bare (Or.inl ((hs.records e.index).inRange hle))
  cases hr : e.role with
  | primary =>
    rw [hr, Ctx.keyOf, hprimary] at hkey
    cases hkey
  | handover =>
    rw [hr, Ctx.keyOf, hhandover] at hkey
    cases hkey

/-- Of one pair of context and role there is one entry. -/
theorem Sound.entry_of_role (hs : s.Sound) {n m : Nat} {e f : StreamEntry} (he : s.streamEntry n = some e)
    (hf : s.streamEntry m = some f) (hi : e.index = f.index) (hr : e.role = f.role) : n = m := by
  have hkey := (hs.keyOf_iff e.index e.role e.key).2 ⟨n, he⟩
  have hkey' := (hs.keyOf_iff f.index f.role f.key).2 ⟨m, hf⟩
  rw [hi, hr, hkey'] at hkey
  exact (hs.tidy.keys.entry_eq he hf (Option.some.inj hkey).symm).1

theorem Sound.exists_vacant (hs : s.Sound) {r : Role} (hi : i < 2048) (hnone : (s.ctx i).keyOf r = none) :
    ∃ n, n < 4096 ∧ s.streamEntry n = none := by
  by_contra hfull
  have hsome : ∀ n ∈ Finset.range 4096, ∃ e, s.streamEntry n = some e := fun n hn =>
    Option.ne_none_iff_exists'.1 fun h => hfull ⟨n, Finset.mem_range.1 hn, h⟩
  have hmaps : Set.MapsTo (fun n => ((s.streamEntry n).map roleCode).getD 0) (Finset.range 4096)
      ((Finset.range 4096).erase (roleCode ⟨⟨0, 0⟩, i, r⟩)) := fun n hn => by
    obtain ⟨e, he⟩ := hsome n hn
    have hlt := hs.index_lt he
    simp only [he, Option.map_some, Option.getD_some, Finset.coe_erase, Finset.coe_range, Set.mem_sdiff, Set.mem_Iio,
      Set.mem_singleton_iff]
    refine ⟨?_, fun hcode => ?_⟩
    · unfold roleCode
      split <;> omega
    · obtain ⟨hindex, hrole⟩ := roleCode_inj hcode
      have hkey := (hs.keyOf_iff e.index e.role e.key).2 ⟨n, he⟩
      rw [hindex, hrole, hnone] at hkey
      cases hkey
  have hcode : roleCode ⟨⟨0, 0⟩, i, r⟩ ∈ Finset.range 4096 := by
    rw [Finset.mem_range, roleCode]
    split <;> (dsimp only; omega)
  obtain ⟨n, hn, m, hm, hne, heq⟩ := Finset.exists_ne_map_eq_of_card_lt_of_maps_to
    (by rw [Finset.card_erase_of_mem hcode, Finset.card_range]; decide) hmaps
  obtain ⟨e, he⟩ := hsome n hn
  obtain ⟨f, hf⟩ := hsome m hm
  simp only [he, hf, Option.map_some, Option.getD_some] at heq
  obtain ⟨hindex, hrole⟩ := roleCode_inj heq
  exact hne (hs.entry_of_role he hf hindex hrole)

/-- The lowest empty entry, where one of the 4096 is empty (R33). -/
theorem lowestStream_spec (h : ∃ n, n < 4096 ∧ s.streamEntry n = none) :
    s.lowestStream < 4096 ∧ s.streamEntry s.lowestStream = none := by
  obtain ⟨hlt, hempty⟩ := Nat.find_spec h
  have hfirst : s.lowestStream = Nat.find h := lowestStream_eq s _ hlt hempty fun j hj he =>
    Nat.find_min h hj ⟨hj.trans hlt, he⟩
  rw [hfirst]
  exact ⟨hlt, hempty⟩

end State

end Sys2Proof.Machine
end

section
/-! SUPPORT. The moves that change what a record holds: its slot, its keys, its profile (R8, R18, R20, R31 to R34, R53, R125,
R126, R132). -/

namespace Sys2Proof.Machine

open State

namespace Ctx

variable {c : Ctx} {i : Nat}

theorem Ok.keyed (h : c.Ok i) (hf : c.state ≠ .free) (hc : c.state ≠ .closed) (k : StreamKey) :
    Ok i { c with primary := some k } :=
  ⟨{ h.parts with bare := fun hb => hb.elim (absurd · hf) (absurd · hc)
                  whole := fun hb => ⟨(h.parts.whole hb).1, rfl, (h.parts.whole hb).2.2⟩ }, h.window, h.priority, h.inRange⟩

theorem Ok.handed (h : c.Ok i) (hf : c.state ≠ .free) (hc : c.state ≠ .closed) (x : Option Handover) :
    Ok i { c with handover := x } :=
  ⟨{ h.parts with bare := fun hb => hb.elim (absurd · hf) (absurd · hc) }, h.window, h.priority, h.inRange⟩

/-- A record named a profile in OPEN, with its set and rate (R53). -/
theorem Ok.profiled (h : c.Ok i) (hs : c.state = .opened) (n : Nat) (set : RateSet) (r k : Nat) :
    Ok i { c with profile := some n, permitted := some set, rate := some r, sinceRate := k } := by
  have hbare : ¬ (c.state = .free ∨ c.state = .closed) := by
    rw [hs]
    decide
  have hwhole : ¬ (c.state = .armed ∨ c.state = .active ∨ c.state = .held) := by
    rw [hs]
    decide
  exact ⟨{ h.parts with bare := fun hb => absurd hb hbare
                        whole := fun hb => absurd hb hwhole
                        permitted := rfl
                        rate := rfl }, h.window, h.priority, h.inRange⟩

/-- A record that holds a key in some role is neither FREE nor CLOSED. -/
theorem Ok.in_use_of_key (h : c.Ok i) {r : Role} {k : StreamKey} (hk : c.keyOf r = some k) :
    c.state ≠ .free ∧ c.state ≠ .closed := by
  rw [← not_or]
  intro hb
  obtain ⟨-, hprimary, hhandover, -⟩ := h.parts.bare hb
  cases r with
  | primary => cases hprimary.symm.trans hk
  | handover =>
    rw [keyOf, hhandover] at hk
    cases hk

end Ctx

namespace State

variable {s t : State} {i : Nat} {d : Ctx}

/-! ### OPEN, and what a released context leaves (R8, R18, R20) -/

theorem sound_open (hs : s.Sound) {p : Port} {n : Nat} (hn : n ≤ 3) (hl : s.lowestFree < 2048)
    (ht : (s.modCtx s.lowestFree fun c => c.opening p (s.silent p) n).Tidy) :
    (s.modCtx s.lowestFree fun c => c.opening p (s.silent p) n).Sound := by
  have hfree := state_lowestFree hl
  obtain ⟨hslot, hprimary, hhandover, hprofile⟩ := (hs.records s.lowestFree).parts.bare (Or.inl hfree)
  have hwork := ((hs.records s.lowestFree).parts.idle (by rw [Ctx.converting_false_iff, hfree]; decide)).2
  refine sound_setCtx hs ht ⟨?_, hprimary.symm, ?_, hprofile.symm⟩ (.opened hn hl) (.of_none rfl) ?_ fun h => ?_
  · rw [hslot]
    rfl
  · rw [hhandover]
    rfl
  · have hidle : (s.ctx s.lowestFree).converting = false := by
      rw [Ctx.converting_false_iff, hfree]
      decide
    rw [charge_idle hidle]
    exact charge_idle rfl
  · rw [hwork] at h
    cases h

theorem contents_of_state {n : Nat} (h : (t.profile n).state = (s.profile n).state) : t.contents n = s.contents n := by
  unfold contents
  rw [h]

theorem refs_same (h : t.profiles = s.profiles) (hd : d.profile = (s.ctx i).profile) (n : Nat) :
    (t.profile n).refs + (if (s.ctx i).profile = some n then 1 else 0) =
      (s.profile n).refs + if d.profile = some n then 1 else 0 := by
  rw [profile_congr h, hd]

/-- A record that names a profile is counted there (R49). -/
theorem Sound.refs_pos (hs : s.Sound) {n : Nat} (h : (s.ctx i).profile = some n) : 0 < (s.profile n).refs := by
  rw [hs.refs]
  refine Finset.sum_pos' (fun _ _ => Nat.zero_le _) ⟨i, Finset.mem_range.2 (inRange_of_profile hs.records h), ?_⟩
  rw [if_pos h]
  decide

/-- What a released context leaves, whatever its record becomes. -/
theorem sound_released (hs : s.Sound) (ht : t.Tidy) (hctx : ∀ j, t.ctx j = if j = i then d else s.ctx j) (hd : d.Ok i)
    (hslot : t.slotMap = (s.releaseHoldings i).slotMap) (hstream : t.streamMap = (s.releaseHoldings i).streamMap)
    (hprofile : t.profiles = (s.releaseHoldings i).profiles) (hreserved : t.reserved = (s.releaseHoldings i).reserved)
    (hlane : t.lanes = (s.releaseHoldings i).lanes) (hsweeps : t.sweeps = s.sweeps)
    (hbare : d.state = .free ∨ d.state = .closed) : t.Sound := by
  obtain ⟨hdslot, hdprimary, hdhandover, hdprofile⟩ := hd.parts.bare hbare
  have hidle : d.converting = false := (Ctx.converting_false_iff d).2 (by rcases hbare with h | h <;> rw [h] <;> decide)
  have hdset : d.permitted = none := Option.not_isSome_iff_eq_none.1 (by rw [hd.parts.permitted, hdprofile]; decide)
  have hprofiles : ∀ n, t.profile n = if (s.ctx i).profile = some n then
      { s.profile n with refs := (s.profile n).refs - 1 } else s.profile n := fun n => by
    rw [profile_congr hprofile, profile_releaseHoldings]
  refine hs.edit ht hctx hd (slots_released hs.slots hctx (fun n => ?_) hdslot)
    (streams_dropped hs ht hctx (fun k => (s.ctx i).primary = some k ∨ (s.ctx i).handover.map Handover.key = some k)
      (fun k hk => hk.elim (fun h => ⟨.primary, h⟩) fun h => ⟨.handover, h⟩) (fun n e => ?_) fun r k => ?_)
    (fun n => ?_) (fun n => contents_of_state ?_) (.of_none hdset) ?_ (lanes_dropped hs.lanes hctx fun m => ?_) hsweeps
  · rw [slotEntry_congr hslot, slotEntry_releaseHoldings]
  · rw [streamEntry_congr hstream, hs.tidy.keys.entry_released, not_or]
  · cases r with
    | primary =>
      rw [Ctx.keyOf, hdprimary]
      exact ⟨nofun, fun ⟨h, hne⟩ => absurd (Or.inl h) hne⟩
    | handover =>
      rw [Ctx.keyOf, hdhandover]
      exact ⟨nofun, fun ⟨h, hne⟩ => absurd (Or.inr h) hne⟩
  · rw [hprofiles, hdprofile]
    split
    · next h =>
      have hpos := hs.refs_pos h
      simp only [reduceCtorEq, if_false]
      omega
    · rfl
  · rw [hprofiles]
    split <;> rfl
  · have hle := hs.charge_le i
    rw [hreserved, reserved_releaseHoldings, reservation_eq (hs.records i).parts, charge_idle hidle]
    omega
  · rw [lane_congr hlane, lane_releaseHoldings]

theorem sound_enterFree (hs : s.Sound) (i : Nat) : (s.enterFree i).Sound :=
  sound_released hs (tidy_enterFree hs.tidy i) (ctx_enterFree s i) ((hs.records i).freed _) rfl rfl rfl
    (by simp [enterFree, unqueue]) rfl (by simp) (Or.inl rfl)

theorem sound_enterClosed (hs : s.Sound) {cause : RetireCause} (ht : (s.enterClosed i cause).Tidy)
    (h : (s.ctx i).state ≠ .free) : (s.enterClosed i cause).Sound := by
  exact sound_released hs ht (ctx_enterClosed s i · cause) ((hs.records i).retired h cause)
    (by unfold enterClosed; split <;> rfl) (by unfold enterClosed; split <;> rfl)
    (by unfold enterClosed; split <;> rfl) (by unfold enterClosed; split <;> rfl)
    (by unfold enterClosed; split <;> rfl) (by simp) (Or.inr rfl)

/-! ### Slots (R31, R32) -/

theorem sound_takeSlot (hs : s.Sound) {n : Nat} {law : Law} (ht : (takeSlot i n law s).Tidy)
    (h : (s.ctx i).state = .opened) (hn : s.slotEntry n = none) : (takeSlot i n law s).Sound := by
  have hframe := takeSlot_frame i n law s
  have hctx := ctx_takeSlot i n law s
  refine hs.edit ht hctx ((hs.records i).holding h _ _) (fun m j => ?_)
    (streams_edit hs.streams hctx (by rw [hframe]) rfl rfl) (refs_same (by rw [hframe]) rfl)
    (contents_congr (by rw [hframe])) ((hs.rates i).of_same rfl rfl rfl (Or.inl rfl)) (by rw [hframe]; rfl)
    (lanes_edit hs.lanes hctx (by rw [hframe]) id) (by rw [hframe])
  rw [slotEntry_takeSlot, hctx]
  by_cases hm : m = n
  · rw [if_pos hm]
    by_cases hj : j = i
    · rw [if_pos hj, hj, hm]
      exact ⟨fun _ => rfl, fun _ => rfl⟩
    · rw [if_neg hj, hm]
      refine Iff.trans ?_ (hs.slots n j)
      rw [hn]
      exact ⟨fun h => absurd (Option.some.inj h).symm hj, nofun⟩
  · rw [if_neg hm]
    by_cases hj : j = i
    · rw [if_pos hj, hj]
      refine ⟨fun h => ?_, fun h => absurd (Option.some.inj h).symm hm⟩
      split at h
      · cases h
      · next hne => exact absurd ((hs.slots m i).1 h) hne
    · rw [if_neg hj]
      refine Iff.trans ?_ (hs.slots m j)
      split
      · next hheld =>
        refine ⟨nofun, fun h => absurd ?_ hj⟩
        exact Option.some.inj (h.symm.trans ((hs.slots m i).2 hheld))
      · exact Iff.rfl

theorem sound_leaveSlot (hs : s.Sound) {b : SlotBinding} (h : (s.ctx i).state = .opened)
    (hb : (s.ctx i).slot = some b) (ht : ((s.releaseSlot (some b)).modCtx i fun c => { c with slot := none }).Tidy) :
    ((s.releaseSlot (some b)).modCtx i fun c => { c with slot := none }).Sound := by
  have hctx := ctx_modCtx_of_ctxs (releaseSlot_ctxs s (some b)) i (f := fun c => { c with slot := none })
  refine hs.edit ht hctx ((hs.records i).holding h _ _) (slots_released hs.slots hctx (fun n => ?_) rfl)
    (streams_edit hs.streams hctx (by simp) rfl rfl) (refs_same (by simp) rfl)
    (contents_congr (by simp)) ((hs.rates i).of_same rfl rfl rfl (Or.inl rfl)) (by simp; rfl)
    (lanes_edit hs.lanes hctx (by simp) id) (by simp)
  rw [modCtx_slotEntry, slotEntry_releaseSlot, hb]

/-! ### Keys (R33, R34, R125, R126, R132) -/

/-- One record changed in its keys alone. -/
theorem sound_rekeyed (hs : s.Sound) (ht : t.Tidy) (hctx : ∀ j, t.ctx j = if j = i then d else s.ctx j) (hd : d.Ok i)
    (hstreams : t.streamsMatch) (hm : t = { s with
      ctxs := t.ctxs, streamMap := t.streamMap, attention := t.attention, tally0 := t.tally0, tally1 := t.tally1 })
    (hkept : d = { s.ctx i with primary := d.primary, handover := d.handover, conds := d.conds }) : t.Sound :=
  hs.edit ht hctx hd (slots_edit hs.slots hctx (by rw [hm]) (by rw [hkept])) hstreams
    (refs_same (by rw [hm]) (by rw [hkept])) (contents_congr (by rw [hm]))
    ((hs.rates i).of_same (by rw [hkept]) (by rw [hkept]) (by rw [hkept]) (Or.inl (by rw [hkept])))
    (by rw [charge_congr_ctx (c := s.ctx i) (d := d) (by rw [hkept]) (by rw [hkept]) (by rw [hkept]), hm])
    (lanes_edit hs.lanes hctx (by rw [hm]) (by rw [hkept]; exact id)) (by rw [hm])

theorem sound_leaveKey (hs : s.Sound) {k : StreamKey} (h : (s.ctx i).state = .opened) (hk : (s.ctx i).primary = some k)
    (ht : ((s.removeStream k).modCtx i fun c => { c with primary := none }).Tidy) :
    ((s.removeStream k).modCtx i fun c => { c with primary := none }).Sound := by
  have hctx := ctx_modCtx_of_ctxs (removeStream_ctxs s k) i (f := fun c => { c with primary := none })
  refine sound_rekeyed hs ht hctx ((hs.records i).holding h _ _) ?_ (by apply eq_of_fields <;> simp) rfl
  refine streams_dropped hs ht hctx (fun x => k = x) (fun x hx => ⟨.primary, hx ▸ hk⟩) (fun n e => ?_) fun r x => ?_
  · refine (hs.tidy.keys.entry_removeStream? (some k) n e).trans (and_congr_right fun _ => ?_)
    rw [ne_eq, Option.some.injEq]
  · cases r with
    | primary => exact ⟨nofun, fun ⟨hx, hne⟩ => absurd (Option.some.inj (hk.symm.trans hx)) hne⟩
    | handover =>
      refine ⟨fun hx => ⟨hx, fun hkx => ?_⟩, fun hx => hx.1⟩
      obtain ⟨n, he⟩ := (hs.keyOf_iff i .handover x).1 hx
      obtain ⟨-, hrole⟩ := hs.entry_owner he (r := .primary) (hkx ▸ hk)
      cases hrole

theorem sound_abandon (hs : s.Sound) {x : Handover} (hx : (s.ctx i).handover = some x) (ht : (s.abandon i x.key).Tidy) :
    (s.abandon i x.key).Sound := by
  have hheld : (s.ctx i).keyOf .handover = some x.key := by
    rw [Ctx.keyOf, hx]
    rfl
  obtain ⟨hf, hc⟩ := (hs.records i).in_use_of_key hheld
  have hctx := ctx_abandon s i x.key
  refine sound_rekeyed hs ht hctx ((hs.records i).handed hf hc none) ?_
    (by unfold abandon; apply eq_of_fields <;> simp) rfl
  refine streams_dropped hs ht hctx (fun k => x.key = k) (fun k hk => ⟨.handover, hk ▸ hheld⟩) (fun n e => ?_)
    fun r k => ?_
  · refine (hs.tidy.keys.entry_removeStream? (some x.key) n e).trans (and_congr_right fun _ => ?_)
    rw [ne_eq, Option.some.injEq]
  · cases r with
    | primary =>
      refine ⟨fun hk => ⟨hk, fun hkx => ?_⟩, fun hk => hk.1⟩
      obtain ⟨n, he⟩ := (hs.keyOf_iff i .primary k).1 hk
      obtain ⟨-, hrole⟩ := hs.entry_owner he (r := .handover) (hkx ▸ hheld)
      cases hrole
    | handover => exact ⟨nofun, fun ⟨hk, hne⟩ => absurd (Option.some.inj (hheld.symm.trans hk)) hne⟩

end State

end Sys2Proof.Machine
end

section
/-! SUPPORT. Keys placed, handovers and profiles (R33, R49 to R53, R125, R126). -/

namespace Sys2Proof.Machine

open State

namespace State

variable {s t : State} {i : Nat} {d : Ctx}

/-! ### Keys placed (R33, R125, R126) -/

/-- The entry that a primary key is placed in held nothing but the key that it replaces (R33). -/
theorem Sound.placedEntry_spec (hs : s.Sound) (hi : i < 2048) :
    placedEntry i s < 4096 ∧ ∀ e, s.streamEntry (placedEntry i s) = some e → (s.ctx i).primary = some e.key := by
  have hgone := hs.tidy.keys.entry_removeStream? (s.ctx i).primary
  have hvacant : ∃ n, n < 4096 ∧ (s.removeStream? (s.ctx i).primary).streamEntry n = none := by
    cases hk : (s.ctx i).primary with
    | none => exact hs.exists_vacant hi (r := .primary) hk
    | some k =>
      obtain ⟨n, he⟩ := (hs.keyOf_iff i .primary k).1 hk
      refine ⟨n, hs.streams.2.1 n _ he, Option.eq_none_iff_forall_ne_some.2 fun e h => ?_⟩
      obtain ⟨hentry, hne⟩ := (hgone n e).1 (hk.symm ▸ h)
      obtain rfl := Option.some.inj (he.symm.trans hentry)
      exact hne hk
  obtain ⟨hlt, hempty⟩ := lowestStream_spec hvacant
  refine ⟨hlt, fun e he => ?_⟩
  by_contra hne
  have hstill := (hgone _ e).2 ⟨he, hne⟩
  rw [placedEntry, hempty] at hstill
  cases hstill

theorem streams_placePrimary (hs : s.Sound) {k : StreamKey} (ht : (placePrimary i k s).Tidy) (hi : i < 2048) :
    (placePrimary i k s).streamsMatch := by
  have hentries := hs.tidy.keys.entry_placePrimary i k
  obtain ⟨hlt, hplaced⟩ := hs.placedEntry_spec hi
  have hmine : ∀ {n e}, s.streamEntry n = some e → (s.ctx i).primary = some e.key → e.index = i ∧ e.role = .primary :=
    fun he hk => hs.entry_owner he (r := .primary) hk
  refine streams_rekeyed hs ht (ctx_placePrimary i k s) (fun n e he => ?_) (fun n e he => ?_) fun r x => ?_
  · rcases (hentries n e).1 he with ⟨hn, _⟩ | ⟨_, he, _⟩
    · exact hn ▸ hlt
    · exact hs.streams.2.1 n e he
  · rw [hentries]
    constructor
    · rintro (⟨_, rfl⟩ | ⟨_, h, _⟩)
      · exact absurd rfl he
      · exact h
    · exact fun h => Or.inr ⟨fun hn => he (hmine h (hplaced e (hn ▸ h))).1, h, fun hk => he (hmine h hk).1⟩
  · cases r with
    | primary =>
      constructor
      · intro hx
        exact ⟨placedEntry i s, (hentries _ _).2 (Or.inl ⟨rfl, by rw [Option.some.inj hx]⟩)⟩
      · rintro ⟨n, hn⟩
        rcases (hentries n _).1 hn with ⟨_, he⟩ | ⟨_, he, hne⟩
        · rw [StreamEntry.mk.injEq] at he
          rw [he.1]
          rfl
        · exact absurd ((hs.keyOf_iff i .primary x).2 ⟨n, he⟩) hne
    | handover =>
      refine (hs.keyOf_iff i .handover x).trans (exists_congr fun n => ?_)
      rw [hentries]
      constructor
      · intro h
        have hrole : ∀ hk : (s.ctx i).primary = some x, False := fun hk => by cases (hmine h hk).2
        exact Or.inr ⟨fun hn => hrole (hplaced _ (hn ▸ h)), h, hrole⟩
      · rintro (⟨_, he⟩ | ⟨_, h, _⟩)
        · cases he
        · exact h

theorem sound_placePrimary (hs : s.Sound) {k : StreamKey} (ht : (placePrimary i k s).Tidy) (hf : (s.ctx i).state ≠ .free)
    (hc : (s.ctx i).state ≠ .closed) : (placePrimary i k s).Sound := by
  have hi : i < 2048 := Nat.not_le.1 fun hle => hf ((hs.records i).inRange hle)
  exact sound_rekeyed hs ht (ctx_placePrimary i k s) ((hs.records i).keyed hf hc k) (streams_placePrimary hs ht hi)
    (by rw [placePrimary_frame]) rfl

theorem sound_prepare (hs : s.Sound) {h : Handover} (hf : (s.ctx i).state ≠ .free) (hc : (s.ctx i).state ≠ .closed)
    (hn : (s.ctx i).handover = none)
    (ht : ((s.addStream h.key i .handover).modCtx i fun c => { c with handover := some h }).Tidy) :
    ((s.addStream h.key i .handover).modCtx i fun c => { c with handover := some h }).Sound := by
  have hi : i < 2048 := Nat.not_le.1 fun hle => hf ((hs.records i).inRange hle)
  have hctx := ctx_modCtx_of_ctxs (addStream_ctxs s h.key i .handover) i (f := fun c => { c with handover := some h })
  have hnone : (s.ctx i).keyOf .handover = none := by
    rw [Ctx.keyOf, hn]
    rfl
  obtain ⟨hlt, hempty⟩ := lowestStream_spec (hs.exists_vacant hi hnone)
  refine sound_rekeyed hs ht hctx ((hs.records i).handed hf hc (some h)) ?_ (by apply eq_of_fields <;> simp) rfl
  refine streams_added hs ht hctx hlt hempty (entry_addStream h.key i .handover) hnone fun r => ?_
  cases r <;> rfl

theorem streams_commit (hs : s.Sound) {k : StreamKey} (ht : (s.commit i k).Tidy)
    (hk : (s.ctx i).handover.map Handover.key = some k) : (s.commit i k).streamsMatch := by
  have hentries := hs.tidy.keys.entry_commit i k
  obtain ⟨m, hm⟩ := (hs.keyOf_iff i .handover k).1 hk
  refine streams_rekeyed hs ht (ctx_commit s i k) (fun n e he => ?_) (fun n e he => ?_) fun r x => ?_
  · rcases (hentries n e).1 he with ⟨he, _⟩ | ⟨_, _, _, r, he⟩
    · exact hs.streams.2.1 n _ he
    · exact hs.streams.2.1 n _ he
  · rw [hentries]
    constructor
    · rintro (⟨h, _⟩ | ⟨_, _, _, r, h⟩)
      · exact h
      · exact absurd (hs.entry_owner h (r := .handover) hk).1 he
    · refine fun h => Or.inl ⟨h, fun hp => ?_, fun hke => ?_⟩
      · exact he (hs.entry_owner h (r := .primary) hp).1
      · exact he (hs.entry_owner h (r := .handover) (hk.trans (congrArg some hke.symm))).1
  · cases r with
    | primary =>
      constructor
      · intro hx
        obtain rfl : k = x := Option.some.inj hx
        refine ⟨m, (hentries m _).2 (Or.inr ⟨rfl, rfl, fun hp => ?_, .handover, hm⟩)⟩
        cases (hs.entry_owner hm (r := .primary) hp).2
      · rintro ⟨n, hn⟩
        rcases (hentries n _).1 hn with ⟨he, hne, _⟩ | ⟨hkey, _⟩
        · exact absurd ((hs.keyOf_iff i .primary x).2 ⟨n, he⟩) hne
        · exact congrArg some hkey.symm
    | handover =>
      refine ⟨nofun, ?_⟩
      rintro ⟨n, hn⟩
      rcases (hentries n _).1 hn with ⟨he, _, hne⟩ | ⟨_, hrole, _⟩
      · exact absurd (Option.some.inj (((hs.keyOf_iff i .handover x).2 ⟨n, he⟩).symm.trans hk)) hne
      · cases hrole

theorem sound_commit (hs : s.Sound) {k : StreamKey} (ht : (s.commit i k).Tidy)
    (hk : (s.ctx i).handover.map Handover.key = some k) : (s.commit i k).Sound := by
  obtain ⟨hf, hc⟩ := (hs.records i).in_use_of_key (r := .handover) hk
  have hok : Ctx.Ok i { s.ctx i with primary := some k, handover := none, conds := (s.ctx i).conds.add .handoverDone } :=
    (((hs.records i).keyed hf hc k).handed hf hc none).conds _ hf hc
  exact sound_rekeyed hs ht (ctx_commit s i k) hok (streams_commit hs ht hk) (by apply eq_of_fields <;> simp) rfl

/-! ### Profiles (R49 to R53) -/

theorem sound_nameProfile (hs : s.Sound) {n : Nat} {set : RateSet} {c : Profile} (h : (s.ctx i).state = .opened)
    (hc : s.contents n = some c) (hset : set ≠ 0) (hw : set.within c.table.length = true)
    (ht : ((moveRef (s.ctx i).profile n s).modCtx i fun x =>
      { x with profile := some n, permitted := some set, rate := some (derivedRate c set), sinceRate := 0 }).Tidy) :
    ((moveRef (s.ctx i).profile n s).modCtx i fun x =>
      { x with profile := some n, permitted := some set, rate := some (derivedRate c set), sinceRate := 0 }).Sound := by
  have hframe := moveRef_frame (s.ctx i).profile n s
  have hctx := ctx_modCtx_of_ctxs (u := s) (v := moveRef (s.ctx i).profile n s) (by rw [hframe]) i (f := fun x =>
    { x with profile := some n, permitted := some set, rate := some (derivedRate c set), sinceRate := 0 })
  have hidle : (s.ctx i).converting = false := (Ctx.converting_false_iff _).2 (by rw [h]; decide)
  have hrequest := ((hs.records i).parts.idle hidle).1
  refine hs.edit ht hctx ((hs.records i).profiled h n set _ 0)
    (slots_edit hs.slots hctx (by rw [hframe]; rfl) rfl) (streams_edit hs.streams hctx (by rw [hframe]; rfl) rfl rfl)
    (fun m => ?_) (fun m => contents_of_state ?_) (fun set' hset' => ?_) ?_ (lanes_edit hs.lanes hctx (by rw [hframe]; rfl) id)
    (by rw [hframe]; rfl)
  · have hmoved := (profile_moveRef (s.ctx i).profile n s m).2
    show ((moveRef (s.ctx i).profile n s).profile m).refs + _ = _ + if some n = some m then 1 else 0
    rw [hmoved]
    simp only [Option.some.injEq, eq_comm (a := n)]
    by_cases hp : (s.ctx i).profile = some m
    · have hpos := hs.refs_pos hp
      simp only [hp, if_true]
      omega
    · simp only [hp, if_false]
      omega
  · exact (profile_moveRef (s.ctx i).profile n s m).1
  · obtain rfl : set = set' := Option.some.inj hset'
    refine ⟨hset, ⟨c, hc, (RateSet.within_iff set _).1 hw⟩, fun r hr => ?_, fun q hq => ?_⟩
    · exact Option.some.inj hr ▸ has_derivedRate hset c
    · cases hrequest.symm.trans hq
  · have hcharge : s.charge { s.ctx i with
        profile := some n, permitted := some set, rate := some (derivedRate c set), sinceRate := 0 } = 0 :=
      charge_idle hidle
    rw [charge_idle hidle, hcharge, modCtx_reserved, hframe]

/-- The state of a profile slot that no record names (R50, R51). -/
theorem sound_setProfileState (hs : s.Sound) {n : Nat} {v : ProfileState}
    (ht : (s.setProfile n { s.profile n with state := v }).Tidy) (hnone : ∀ j, (s.ctx j).profile ≠ some n)
    (hasc : ∀ c, v = .loaded c ∨ v = .fixed c → c.table.Pairwise fun a b => a.cost < b.cost) :
    (s.setProfile n { s.profile n with state := v }).Sound := by
  have hprofile := fun m => profile_setProfile s n m { s.profile n with state := v }
  have hcon : ∀ j, (s.ctx j).profile.bind (s.setProfile n { s.profile n with state := v }).contents =
      (s.ctx j).profile.bind s.contents := fun j => by
    cases hp : (s.ctx j).profile with
    | none => rfl
    | some m =>
      have hm : m ≠ n := fun hm => hnone j (hp.trans (congrArg some hm))
      exact contents_of_state (by rw [hprofile, if_neg hm])
  refine ⟨ht, hs.records, hs.slots, hs.streams, fun m => ?_, fun m c hc => ?_, fun j => ?_, ?_, hs.lanes, hs.sweeps⟩
  · refine Eq.trans ?_ (hs.refs m)
    rw [hprofile]
    split
    · next hm => rw [hm]
    · rfl
  · by_cases hm : m = n
    · unfold contents at hc
      rw [hprofile, if_pos hm] at hc
      refine hasc c ?_
      split at hc
      · cases hc
      · next x hx => exact Or.inl (hx.trans (congrArg _ (Option.some.inj hc)))
      · next x hx => exact Or.inr (hx.trans (congrArg _ (Option.some.inj hc)))
    · exact hs.ascending m c ((contents_of_state (by rw [hprofile, if_neg hm])).symm.trans hc)
  · unfold RatesOk
    rw [setProfile_ctx, hcon]
    exact hs.rates j
  · refine hs.reserved.trans (Finset.sum_congr rfl fun j _ => ?_)
    rw [reservation_eq (hs.records j).parts, reservation_eq (s := s.setProfile n _) (hs.records j).parts]
    unfold charge priceOf
    rw [setProfile_ctx, hcon]

end State

end Sys2Proof.Machine
end

section
/-! SUPPORT. The moves on several records, the lanes and the ports (R8, R25, R60 to R64, R169, R172, R174). -/

namespace Sys2Proof.Machine

open State

namespace Ctx

variable {c : Ctx} {i : Nat}

/-- A record with another owner or orphan mark. -/
theorem Ok.owned (h : c.Ok i) (p : Port) (b : Bool) : Ok i { c with owner := p, orphaned := b } :=
  ⟨⟨h.parts.bare, h.parts.whole, h.parts.permitted, h.parts.rate, h.parts.idle, h.parts.unplayed, h.parts.first,
    h.parts.cause, h.parts.heldFrom, h.parts.retired, h.parts.quiet, h.parts.closed⟩, h.window, h.priority, h.inRange⟩

/-- A pending set emptied at a record that is not CLOSED. -/
theorem Ok.unraised (h : c.Ok i) (hc : c.state ≠ .closed) : Ok i { c with conds := 0 } :=
  ⟨{ h.parts with quiet := fun _ => rfl, closed := fun hs => absurd hs hc }, h.window, h.priority, h.inRange⟩

end Ctx

namespace State

variable {s t : State} {i : Nat} {d : Ctx}

/-! ### Owners and orphan marks (R8, R172, R174) -/

/-- Records changed in their owners and orphan marks alone. -/
theorem sound_owned (hs : s.Sound) (ht : t.Tidy) (hm : s.MapsKept t) (hr : t.reserved = s.reserved)
    (hl : t.lanes = s.lanes) (hctx : ∀ j, ∃ p b, t.ctx j = { s.ctx j with owner := p, orphaned := b }) : t.Sound := by
  have hcon := contents_congr hm.profiles
  have hslot : ∀ j, (t.ctx j).slot = (s.ctx j).slot := fun j => by
    obtain ⟨p, b, h⟩ := hctx j
    rw [h]
  have hkey : ∀ j r, (t.ctx j).keyOf r = (s.ctx j).keyOf r := fun j r => by
    obtain ⟨p, b, h⟩ := hctx j
    rw [h]
    cases r <;> rfl
  have hprofile : ∀ j, (t.ctx j).profile = (s.ctx j).profile := fun j => by
    obtain ⟨p, b, h⟩ := hctx j
    rw [h]
  have hwork : ∀ j, (t.ctx j).work = (s.ctx j).work := fun j => by
    obtain ⟨p, b, h⟩ := hctx j
    rw [h]
  have hok : ∀ j, (t.ctx j).Ok j := fun j => by
    obtain ⟨p, b, h⟩ := hctx j
    rw [h]
    exact (hs.records j).owned p b
  obtain ⟨-, hnumber, hkeys⟩ := (streams_iff s).1 hs.streams
  have hentry := streamEntry_congr hm.streams
  refine ⟨ht, hok, fun n j => ?_, (streams_iff t).2 ⟨ht.keys.unique, fun n e he => ?_, fun j r k => ?_⟩, fun n => ?_,
    fun n c hc => hs.ascending n c ((hcon n).symm.trans hc), fun j => ratesOk_congr hcon ?_, ?_, fun n j h => ?_,
    sweeps_edit hs.sweeps hm.sweeps⟩
  · rw [slotEntry_congr hm.slots, hslot]
    exact hs.slots n j
  · exact hnumber n e ((hentry n).symm.trans he)
  · simp only [hentry, hkey]
    exact hkeys j r k
  · simp only [profile_congr hm.profiles, hprofile]
    exact hs.refs n
  · obtain ⟨p, b, h⟩ := hctx j
    rw [h]
    exact (hs.rates j).of_same rfl rfl rfl (Or.inl rfl)
  · refine (hr.trans hs.reserved).trans (Finset.sum_congr rfl fun j _ => ?_)
    rw [reservation_eq (hs.records j).parts, reservation_eq (hok j).parts, charge_congr hcon]
    obtain ⟨p, b, h⟩ := hctx j
    rw [h]
    rfl
  · simp only [lane_congr hl, hwork] at h ⊢
    exact hs.lanes n j h

theorem sound_renewal (hs : s.Sound) {p : Port} (ht : (s.renewal p).Tidy) : (s.renewal p).Sound := by
  refine sound_owned hs ht ⟨by simp, by simp, by simp, by simp⟩ (by simp) (by simp) fun j => ?_
  rw [ctx_renewal]
  split
  · split
    · exact ⟨_, false, rfl⟩
    · exact ⟨_, _, rfl⟩
  · exact ⟨_, _, rfl⟩

theorem sound_goSilent (hs : s.Sound) {p : Port} (ht : (s.goSilent p).Tidy) : (s.goSilent p).Sound := by
  refine sound_owned hs ht ⟨rfl, rfl, rfl, rfl⟩ rfl rfl fun j => ?_
  rw [ctx_goSilent]
  split
  · exact ⟨_, true, rfl⟩
  · exact ⟨_, _, rfl⟩

theorem sound_adopt (hs : s.Sound) {p : Port}
    (ht : ((s.moveQueued p i).modCtx i fun c => { c with owner := p, orphaned := s.silent p }).Tidy) :
    ((s.moveQueued p i).modCtx i fun c => { c with owner := p, orphaned := s.silent p }).Sound := by
  refine sound_owned hs ht ⟨by simp, by simp, by simp, by simp⟩ (by simp) (by simp) fun j => ?_
  rw [ctx_modCtx_of_ctxs (moveQueued_ctxs s p i) i j]
  split
  · next hj => exact ⟨_, _, by rw [hj]⟩
  · exact ⟨_, _, rfl⟩

/-! ### NOTICES and the soft reset (R25, R169, R177) -/

theorem sound_deliver (hs : s.Sound) (i : Nat) : (s.deliver i).Sound := by
  by_cases hc : (s.ctx i).state = .closed
  · rw [deliver, if_pos hc]
    exact sound_enterFree hs i
  · have ht := tidy_deliver hs.tidy i
    rw [deliver, if_neg hc] at ht ⊢
    exact sound_setCtx hs ht ⟨rfl, rfl, rfl, rfl⟩ ((hs.records i).unraised hc)
      ((hs.rates i).of_same rfl rfl rfl (Or.inl rfl)) rfl id

theorem sound_foldl_deliver (l : List Nat) (hs : s.Sound) : (l.foldl deliver s).Sound := by
  induction l generalizing s with
  | nil => exact hs
  | cons i l ih => exact ih (sound_deliver hs i)

theorem sound_notices (hs : s.Sound) (p : Port) : ((s.delivered p).foldl deliver (s.takeNotices p)).Sound := by
  have htaken : (s.takeNotices p).Tidy := hs.tidy.quiet hs.canonical rfl fun _ => .refl _
  exact sound_foldl_deliver _ (hs.same htaken ⟨rfl, rfl, rfl, rfl⟩ rfl rfl hs.lanes)

theorem sound_freeAll (hs : s.Sound) : s.freeAll.Sound := by
  have hfold : ∀ (l : List Nat) (u : State), u.Sound → (l.foldl enterFree u).Sound := by
    intro l
    induction l with
    | nil => exact fun _ hu => hu
    | cons i l ih => exact fun u hu => ih _ (sound_enterFree hu i)
  exact hfold _ s hs

theorem state_softReset (hs : s.Sound) (i : Nat) : (s.softReset.ctx i).state = .free := by
  rw [ctx_softReset s hs.canonical]
  split
  · assumption
  · rfl

theorem sound_softReset (hs : s.Sound) (ht : s.softReset.Tidy) : s.softReset.Sound := by
  have hf := sound_freeAll hs
  have hrecords : ∀ i, (s.softReset.ctx i).Ok i := hf.records
  refine ⟨ht, hrecords, fun n i => ?_, (streams_iff _).2 ⟨ht.keys.unique, fun n e he => ?_, fun i r k => ?_⟩, hf.refs,
    hf.ascending, hf.rates, hf.reserved, hf.lanes, fun p n hn => hf.sweeps p n ?_⟩
  · obtain ⟨hslot, -⟩ := (hrecords i).parts.bare (Or.inl (state_softReset hs i))
    rw [hslot]
    exact ⟨nofun, nofun⟩
  · cases he
  · refine ⟨fun hk => ?_, fun ⟨_, h⟩ => nomatch h⟩
    exact absurd (state_softReset hs i) ((hrecords i).in_use_of_key hk).1
  · cases p <;> exact hn

/-! ### Lanes (R60 to R64) -/

theorem sound_setLaneState (hs : s.Sound) {n : Nat} {v : LaneState} (ht : t.Tidy) (hm : s.MapsKept t)
    (hc : t.ctxs = s.ctxs) (hr : t.reserved = s.reserved) (hl : t.lanes = (s.setLaneState n v).lanes)
    (h : v ≠ .outFault ∨ (s.lane n).inHand = none) : t.Sound := by
  have hlane : ∀ m, t.lane m = if m = n then { s.lane n with state := v } else s.lane m := fun m =>
    (lane_congr hl m).trans (lane_setLane s n m _)
  have hhand : ∀ m, (t.lane m).inHand = (s.lane m).inHand := fun m => by
    rw [hlane]
    split
    · next hmn => rw [hmn]
    · rfl
  refine hs.same ht hm hc hr fun m j hj => ?_
  simp only [hhand, ctx_congr hc] at hj ⊢
  obtain ⟨hlt, hwork, hstate, hone⟩ := hs.lanes m j hj
  refine ⟨hlt, hwork, ?_, hone⟩
  rw [hlane]
  split
  · next hmn =>
    refine h.resolve_right fun hnone => ?_
    rw [← hmn, hj] at hnone
    cases hnone
  · exact hstate

theorem sound_takeWork (hs : s.Sound) {n : Nat} (ht : (s.setLane n { s.lane n with inHand := some i }).Tidy) (hn : n < 8)
    (hstate : (s.lane n).state = .inService) (hw : s.workWaits i = true) :
    (s.setLane n { s.lane n with inHand := some i }).Sound := by
  obtain ⟨⟨hwork, hout⟩, -⟩ : ((s.ctx i).work.isSome = true ∧ (!s.inHand i) = true) ∧ (!s.claimDue i) = true := by
    simpa only [workWaits, Bool.and_eq_true] using hw
  have hnone : ∀ m, (s.lane m).inHand ≠ some i := fun m hm => by
    obtain ⟨hlt, -⟩ := hs.lanes m i hm
    have hin : s.inHand i = true := List.any_eq_true.2 ⟨m, List.mem_range.2 hlt, by simp [hm]⟩
    rw [hin] at hout
    cases hout
  refine hs.same ht ⟨rfl, rfl, rfl, rfl⟩ rfl rfl fun m j hj => ?_
  simp only [lane_setLane, setLane_ctx] at hj ⊢
  by_cases hm : m = n
  · rw [if_pos hm] at hj ⊢
    obtain rfl : i = j := Option.some.inj hj
    refine ⟨hm ▸ hn, hwork, by rw [hstate]; decide, fun m' hm' => ?_⟩
    by_contra hne
    rw [if_neg fun h => hne (h.trans hm.symm)] at hm'
    exact hnone m' hm'
  · rw [if_neg hm] at hj ⊢
    obtain ⟨hlt, hjwork, hjstate, hone⟩ := hs.lanes m j hj
    refine ⟨hlt, hjwork, hjstate, fun m' hm' => ?_⟩
    by_cases hmn : m' = n
    · rw [if_pos hmn] at hm'
      obtain rfl : i = j := Option.some.inj hm'
      exact absurd hj (hnone m)
    · rw [if_neg hmn] at hm'
      exact hone m' hm'

end State

end Sys2Proof.Machine
end

section
/-! SUPPORT. Every move keeps a sound state sound, and reserved at most available (R57, R63, R65); so every step keeps the
state coherent. -/

namespace Sys2Proof.Machine

open State

namespace State

variable {s t : State} {i : Nat} {d : Ctx}

/-! ### Reserved at most available (R57) -/

/-- Of two rates of a record the lower costs no more (R45). -/
theorem Sound.costOf_mono (hs : s.Sound) (hc : (s.ctx i).converting = true) {r : Nat} (hr : r ≤ (s.ctx i).rate.getD 0) :
    s.costOf i r ≤ s.costOf i ((s.ctx i).rate.getD 0) := by
  obtain ⟨-, -, hprofile⟩ := (hs.records i).parts.whole (((Ctx.converting_iff _).1 hc).imp_right Or.inl)
  obtain ⟨set, hset⟩ := Option.isSome_iff_exists.1 ((hs.records i).parts.permitted.trans hprofile)
  obtain ⟨q, hq⟩ := Option.isSome_iff_exists.1 ((hs.records i).parts.rate.trans hprofile)
  obtain ⟨-, ⟨p, hp, hwithin⟩, hrate, -⟩ := hs.rates i set hset
  obtain ⟨n, hn⟩ := Option.isSome_iff_exists.1 hprofile
  have hlt : q < p.table.length := hwithin q (hrate q hq)
  have hasc := hs.ascending n p (by rw [hn] at hp; exact hp)
  rw [hq] at hr ⊢
  rw [costOf_eq, costOf_eq]
  unfold priceOf
  rw [hp]
  show ((p.table[r]?).map RateEntry.cost).getD 0 ≤ ((p.table[q]?).map RateEntry.cost).getD 0
  rw [List.getElem?_eq_getElem (Nat.lt_of_le_of_lt hr hlt), List.getElem?_eq_getElem hlt]
  rcases Nat.lt_or_eq_of_le hr with hrq | hrq
  · exact (List.pairwise_iff_getElem.1 hasc r q _ hlt hrq).le
  · have hrq : r = q := hrq
    subst hrq
    exact le_rfl

/-- A rate written at a converting record fits, lower or paid for (R105, R107). -/
theorem Sound.fits_retunePaid (hs : s.Sound) (hfit : s.reserved ≤ s.available) (hc : (s.ctx i).converting = true) {r : Nat}
    (h : r ≤ (s.ctx i).rate.getD 0 ∨ s.fits (s.costOf i r - s.costOf i ((s.ctx i).rate.getD 0)) = true) :
    s.reserved + s.costOf i r - s.currentCost i ≤ s.available := by
  have hcost : s.currentCost i = s.costOf i ((s.ctx i).rate.getD 0) := by
    rw [currentCost_eq (hs.records i).parts, costOf_eq]
  rw [hcost]
  rcases h with hle | hpaid
  · have hmono := hs.costOf_mono hc hle
    omega
  · have hpaid := (fits_iff _ _).1 hpaid
    omega

theorem fits_deliver (i : Nat) : (s.deliver i).reserved ≤ s.reserved ∧ (s.deliver i).available = s.available := by
  unfold deliver
  split
  · rw [reserved_enterFree]
    exact ⟨Nat.sub_le _ _, by simp⟩
  · exact ⟨le_rfl, rfl⟩

theorem fits_foldl_deliver (l : List Nat) (s : State) :
    (l.foldl deliver s).reserved ≤ s.reserved ∧ (l.foldl deliver s).available = s.available := by
  induction l generalizing s with
  | nil => exact ⟨le_rfl, rfl⟩
  | cons i l ih =>
    obtain ⟨hr, ha⟩ := ih (s.deliver i)
    obtain ⟨hr', ha'⟩ := fits_deliver (s := s) i
    exact ⟨hr.trans hr', ha.trans ha'⟩

theorem reserved_of_none_converting (hs : s.Sound) (h : ∀ i, (s.ctx i).converting = false) : s.reserved = 0 := by
  rw [hs.reserved]
  exact Finset.sum_eq_zero fun i _ => if_neg (by rw [h i]; decide)

/-! ### A sound state whose reserved units fit -/

/-- A coherent state, with what makes its queues hold (R167). -/
structure Kept (s : State) : Prop where
  sound : s.Sound
  attended : s.Attended
  fits : s.reserved ≤ s.available

theorem kept_iff (s : State) : s.Kept ↔ s.coherent := by
  rw [coherent_iff]
  exact ⟨fun ⟨hs, ha, hf⟩ => ⟨hs, ha.queues, hf⟩, fun ⟨hs, hq, hf⟩ => ⟨hs, ⟨hs.tidy, hq⟩, hf⟩⟩

/-- The state after a lane is lost, before the pass (R63). -/
theorem sound_loseLane (hs : s.Sound) {n : Nat} {v : LaneState} (h : v ≠ .outFault ∨ (s.lane n).inHand = none) :
    (s.loseLane n v).Sound :=
  sound_setLaneState hs (hs.tidy.quiet (canonical_loseLane s n v hs.canonical) rfl fun _ => .refl _)
    ⟨rfl, rfl, rfl, rfl⟩ rfl rfl rfl h

theorem attended_loseLane (ha : s.Attended) (n : Nat) (v : LaneState) : (s.loseLane n v).Attended :=
  ha.quiet (canonical_loseLane s n v ha.tidy.keys.canonical) rfl rfl fun _ => .refl _

/-- The state after a lane is regained, before the pass (R64). -/
theorem sound_regainLane (hs : s.Sound) (n : Nat) : (s.regainLane n).Sound :=
  sound_setLaneState hs (hs.tidy.quiet (canonical_regainLane s n hs.canonical) rfl fun _ => .refl _)
    ⟨rfl, rfl, rfl, rfl⟩ rfl rfl rfl (Or.inl (by decide))

theorem attended_regainLane (ha : s.Attended) (n : Nat) : (s.regainLane n).Attended :=
  ha.quiet (canonical_regainLane s n ha.tidy.keys.canonical) rfl rfl fun _ => .refl _

theorem pairwise_of_ascendingCosts {table : List RateEntry} (h : ascendingCosts table = true) :
    table.Pairwise fun a b => a.cost < b.cost := by
  refine List.isChain_iff_pairwise.1 ?_
  induction table with
  | nil => exact .nil
  | cons a l ih =>
    cases l with
    | nil => exact .singleton a
    | cons b l =>
      obtain ⟨hlt, hrest⟩ := Bool.and_eq_true_iff.1 h
      exact .cons_cons (of_decide_eq_true hlt) (ih hrest)

/-- A vacant profile slot is named by no record, for a record's profile has contents (R49, R105). -/
theorem Sound.not_named_of_vacant (hs : s.Sound) {n : Nat} (h : (s.profile n).state = .vacant) (i : Nat) :
    (s.ctx i).profile ≠ some n := by
  intro hn
  have hsome : (s.ctx i).permitted.isSome = true := by
    rw [(hs.records i).parts.permitted, hn]
    rfl
  obtain ⟨set, hset⟩ := Option.isSome_iff_exists.1 hsome
  obtain ⟨-, ⟨p, hp, -⟩, -⟩ := hs.rates i set hset
  rw [hn, Option.bind_some, contents, h] at hp
  cases hp

/-- A profile slot with no reference is named by no record (R49). -/
theorem Sound.not_named_of_refs (hs : s.Sound) {n : Nat} (h : (s.profile n).refs = 0) (i : Nat) :
    (s.ctx i).profile ≠ some n := fun hn => (hs.refs_pos hn).ne' h

end State

/-! ### Every move -/

theorem Move.sound {s t : State} (h : Move s t) (hs : s.Sound) (ha : s.Attended) : t.Sound := by
  have ht : t.Tidy := (h.attended ha).tidy
  cases h with
  | registers h =>
    exact hs.same ht ⟨by rw [h], by rw [h], by rw [h], by rw [h]⟩ (by rw [h]) (by rw [h]) (by rw [h]; exact hs.lanes)
  | noted p conds sup => exact hs.same ht ⟨rfl, rfl, rfl, rfl⟩ rfl rfl hs.lanes
  | renewed p => exact sound_renewal hs ht
  | silenced p => exact sound_goSilent hs ht
  | sweepSet p v h =>
    refine { hs with tidy := ht, sweeps := fun q n hn => ?_ }
    rw [sweepOf_setSweep] at hn
    split at hn
    · rcases h with h | h
      · exact hs.sweeps p n (h.symm.trans hn)
      · exact h n hn
    · exact hs.sweeps q n hn
  | settings i d h => exact sound_settings hs ht h
  | prioritized i n h => exact sound_prioritize hs ht (h.elim id fun ⟨p, hp⟩ => hs.sweeps p n hp)
  | raised i k hf hc => exact sound_raise hs ht hf hc
  | opened p n hn hl => exact sound_open hs hn hl ht
  | freed i => exact sound_enterFree hs i
  | closed i cause h => exact sound_enterClosed hs ht (Ctx.ne_free_of_converting h)
  | reopened i h => exact sound_returnToOpen hs ht h
  | armed i h hc => exact sound_armed hs ht h hc
  | held i cause h => exact sound_enterHeld hs ht h
  | resumed i h => exact sound_leaveHeld hs ht h
  | reheld i h => exact sound_reheld hs ht h
  | lawSet i n law h hn => exact sound_lawSet hs ht h hn
  | slotTaken i n law h hn => exact sound_takeSlot hs ht h hn
  | slotLeft i b h hb => exact sound_leaveSlot hs h hb ht
  | keyPlaced i k hf hc => exact sound_placePrimary hs ht hf hc
  | keyLeft i k h hk => exact sound_leaveKey hs h hk ht
  | prepared i h hf hc hn => exact sound_prepare hs hf hc hn ht
  | committed i k h => exact sound_commit hs ht (hs.tidy.handover_of_commit h)
  | abandoned i h hh => exact sound_abandon hs hh ht
  | requested i q h => exact sound_requested hs ht h
  | retuned i r h hp => exact sound_retune hs ht h hp
  | paid i r h hp =>
    refine sound_retunePaid hs ht h (hp.elim id fun hq => ?_)
    obtain ⟨q, hrequest, rfl⟩ := Option.map_eq_some_iff.1 hq
    exact hs.permits_request h hrequest
  | setKept i set c hset h => exact sound_setKept hs hset h ht
  | setMoved i set c hset h => exact sound_setMoved hs hset _ h ht
  | setPaid i set c hset h => exact sound_setPaid hs hset _ h ht
  | profileNamed i n set c h hc hset hw => exact sound_nameProfile hs h hc hset hw ht
  | profileLoaded n c h hc =>
    refine sound_setProfileState hs ht (hs.not_named_of_vacant h) fun x hx => ?_
    rcases hx with hx | hx
    · cases hx
      exact pairwise_of_ascendingCosts hc
    · cases hx
  | profileCleared n h =>
    exact sound_setProfileState hs ht (hs.not_named_of_refs h) fun x hx => by rcases hx with hx | hx <;> cases hx
  | activated i h => exact sound_activated hs ht h
  | played i d h hw => exact sound_played hs ht h hw
  | workDropped i => exact sound_discardWork hs ht
  | workStarted i h => exact sound_workStarted hs h ht rfl
  | readyTaken i => exact sound_readyTaken hs ht
  | workDone n i w hl hw => exact sound_complete hs ht hl hw
  | workTaken n i hn hstate hl hw => exact sound_takeWork hs ht hn hstate hw
  | laneSet n v h => exact sound_setLaneState hs ht ⟨rfl, rfl, rfl, rfl⟩ rfl rfl rfl h
  | laneLost n v h => exact sound_sheddingPass (sound_loseLane hs h) (attended_loseLane ha n v)
  | laneBack n => exact sound_readmissionPass (sound_regainLane hs n) (attended_regainLane ha n)
  | noticed p => exact sound_notices hs p
  | adopted p i => exact sound_adopt hs ht
  | softReset => exact sound_softReset hs ht

/-- Reserved stays at most available: units are taken where they fit, and a lost lane's are shed (R57, R65). -/
theorem Move.fits {s t : State} (h : Move s t) (hs : s.Sound) (ha : s.Attended) (hfit : s.reserved ≤ s.available) :
    t.reserved ≤ t.available := by
  have less : t.reserved ≤ s.reserved → t.available = s.available → t.reserved ≤ t.available := fun hr hav =>
    (hr.trans hfit).trans_eq hav.symm
  have ht : t.Sound := h.sound hs ha
  cases h with
  | registers h => exact less (by rw [h]) (by rw [h])
  | noted p conds sup => exact hfit
  | renewed p => exact less (by simp) (by simp)
  | silenced p => exact hfit
  | sweepSet p v => exact hfit
  | settings i d => exact hfit
  | prioritized i n => exact hfit
  | raised i k => exact less (by simp) (by simp)
  | opened p n => exact hfit
  | freed i => exact less (by rw [reserved_enterFree]; exact Nat.sub_le _ _) (by simp)
  | closed i cause =>
    have hreserved : (s.enterClosed i cause).reserved = (s.releaseHoldings i).reserved := by
      unfold enterClosed
      split <;> rfl
    exact less (by rw [hreserved, reserved_releaseHoldings]; exact Nat.sub_le _ _) (by simp)
  | reopened i => exact less (by rw [reserved_returnToOpen]; exact Nat.sub_le _ _) (by simp)
  | armed i _ _ hunits => exact (fits_iff _ _).1 hunits
  | held i cause => exact less (by rw [reserved_enterHeld]; exact Nat.sub_le _ _) (by simp)
  | resumed i _ hunits => exact (fits_iff _ _).1 hunits
  | reheld i => exact hfit
  | lawSet i n law => exact hfit
  | slotTaken i n law => exact less (by simp [takeSlot]) (by simp [takeSlot])
  | slotLeft i b => exact hfit
  | keyPlaced i k => exact less (by simp [placePrimary]) (by simp [placePrimary])
  | keyLeft i k => exact less (by simp) (by simp)
  | prepared i h => exact hfit
  | committed i k => exact less (by simp) (by simp)
  | abandoned i h => exact less (by simp [abandon]) (by simp [abandon])
  | requested i q => exact hfit
  | retuned i r => exact less (by simp) (by simp)
  | paid i r h hp hb => exact hs.fits_retunePaid hfit h (hb.imp_left Nat.le_of_lt)
  | setKept i set c => exact hfit
  | setMoved i set c => exact less (by simp) (by simp)
  | setPaid i set c hset h hb => exact hs.fits_retunePaid hfit h hb
  | profileNamed i n set c => exact less (by simp [moveRef]) (by simp [moveRef])
  | profileLoaded n c => exact hfit
  | profileCleared n => exact hfit
  | activated i => exact hfit
  | played i d => exact hfit
  | workDropped i => exact less (by simp) (by simp)
  | workStarted i => exact hfit
  | readyTaken i => exact hfit
  | workDone n i w => exact less (by rw [completionFrame_complete]) (by rw [completionFrame_complete])
  | workTaken n i => exact hfit
  | laneSet n v => exact hfit
  | laneLost n v h => exact fits_sheddingPass (sound_loseLane hs h) (attended_loseLane ha n v)
  | laneBack n => exact readmissionPass_fits _ (hfit.trans (Nat.le_add_right _ _))
  | noticed p =>
    obtain ⟨hr, hav⟩ := fits_foldl_deliver (s.delivered p) (s.takeNotices p)
    exact less hr hav
  | adopted p i => exact less (by simp) (by simp)
  | softReset =>
    have hzero : s.softReset.reserved = 0 := reserved_of_none_converting ht fun i => by
      rw [Ctx.converting_false_iff, state_softReset hs]
      decide
    rw [hzero]
    exact Nat.zero_le _

theorem Act.kept {s t : State} (h : Act s t) (hs : s.Kept) : t.Kept := by
  obtain ⟨hsound, hattended, hfits⟩ := hs
  cases h with
  | move h => exact ⟨h.sound hsound hattended, h.attended hattended, h.fits hsound hattended hfits⟩
  | port p v h =>
    have ht := (Act.port s p v h).attended hattended
    exact ⟨hsound.same ht.tidy ⟨rfl, rfl, rfl, rfl⟩ rfl rfl hsound.lanes, ht, hfits⟩
  | hardReset =>
    have hreset := (kept_iff _).2 coherent_reset
    have ht := (Act.hardReset s).attended hattended
    exact ⟨hreset.sound.same ht.tidy ⟨rfl, rfl, rfl, rfl⟩ rfl rfl hreset.sound.lanes, ht, hreset.fits⟩

/-- Every step keeps the state coherent. -/
theorem kept_step (s t : State) (hs : s.Kept) (ht : step s = .next t) : t.Kept :=
  step_keeps (P := State.Kept) (fun _ _ hact => hact.kept)
    (fun s q ⟨hsound, hattended, hfits⟩ => by
      have hq : State.Attended { s with pending := q } :=
        hattended.quiet hattended.tidy.keys.canonical rfl rfl fun _ => .refl _
      exact ⟨hsound.same hq.tidy ⟨rfl, rfl, rfl, rfl⟩ rfl rfl hsound.lanes, hq, hfits⟩) s t hs ht

/-- Settles O58: by the moves that a step is made of, the queues first (`attended_step`), then every invariant of a
coherent state (`kept_step`). -/
theorem attentionQueuesKept : Obligations.AttentionQueuesKept := by
  refine ⟨fun s t hcan hq hb ht => ?_, fun s t hs ht => (kept_iff t).1 (kept_step s t ((kept_iff s).2 hs) ht)⟩
  obtain ⟨-, hqueues, hbare⟩ := (attended_iff t).1 (attended_step s t ((attended_iff s).2 ⟨hcan, hq, hb⟩) ht)
  exact ⟨hqueues, hbare⟩

end Sys2Proof.Machine
end

section
/-! SUPPORT. INSPECT (R185, R186): every array's entry is read where the index is in the array's own range, and nothing
is changed. -/

namespace Sys2Proof.Machine

open State

/-- The ranges of the arrays, as one list; an array past its end has no entry (R185). -/
theorem arraySize_eq_getD (a : Nat) : arraySize a = [2048, 2048, 4096, 16, 2048, 2, 8, 2].getD a 0 := by
  match a with
  | 0 | 1 | 2 | 3 | 4 | 5 | 6 | 7 => rfl
  | _ + 8 => rfl

theorem takeOrder_inspect (p : Port) (a i0 i1 : Byte) (u : State) : takeOrder p .inspect [a, i0, i1] u =
    if le16 i0 i1 < arraySize a.toNat then ⟨.ok, u.inspectEntry a.toNat (le16 i0 i1), u⟩ else refuse .badField u := rfl

/-- INSPECT changes nothing, whether it reads or is refused (R186). -/
theorem after_inspect (p : Port) (a i0 i1 : Byte) (u : State) : (takeOrder p .inspect [a, i0, i1] u).after = u := by
  rw [takeOrder_inspect]
  split <;> rfl

/-- An index in its array's range is answered with the entry. -/
theorem answered_inspect (p : Port) (tag : Byte) {a i0 i1 : Byte} (u : State) (h : le16 i0 i1 < arraySize a.toNat) :
    Answered u (respond p 0x72 tag (takeOrder p .inspect [a, i0, i1] u)) p 0x72 tag .ok
      (u.inspectEntry a.toNat (le16 i0 i1)) := by
  rw [takeOrder_inspect, if_pos h]
  exact (read_respond u p _ tag _).2

/-- Settles O16: one reading of each array (`answered_inspect`), and the refusal of an index that no entry has. -/
theorem inspectReadsOneEntry : Obligations.InspectReadsOneEntry := by
  intro p tag a i0 i1 s u i hs hu hi
  subst hi
  refine ⟨_, exec_eq_respond rfl (by decide) hs hu rfl, ?frame, ?_, ?_, ?_, ?_, ?_, ?_, ?_, ?_, fun hout => ?outside⟩
  case frame => rw [respond_frame, after_inspect]
  case outside =>
    rw [takeOrder_inspect, if_neg (Nat.not_lt.2 ((arraySize_eq_getD _).trans_le hout))]
    exact (refused_respond u p _ tag _).1
  all_goals
    rintro rfl h
    exact answered_inspect p tag u h

end Sys2Proof.Machine
end

section
/-! SUPPORT. TALLY_SET (R182): the fields of its body, in range and out of it, and the one tally that it replaces. -/

namespace Sys2Proof.Machine

open State

/-! ### The fields of a body (R181, R182) -/

/-- A kind is read back from its code (R181). -/
theorem eventOf_code {b : Byte} {kind : Event} (h : kind.code = b.toNat) : eventOf b = some kind := by
  unfold eventOf
  rw [← h]
  cases kind <;> rfl

theorem eventOf_above {b : Byte} (h : 15 < b.toNat) : eventOf b = none := by
  unfold eventOf
  split
  case h_17 => rfl
  all_goals omega

/-- The filter a flag and a handle spell: under ALL the handle is not read (R182). -/
theorem filterOf_eq {f i0 i1 g : Byte} {filter : Option Handle}
    (h : f = 0 ∧ filter = none ∨ f = 1 ∧ le16 i0 i1 ≤ 2047 ∧ filter = some ⟨le16 i0 i1, g⟩) :
    filterOf f i0 i1 g = some filter := by
  rcases h with ⟨rfl, rfl⟩ | ⟨rfl, hi, rfl⟩
  · rfl
  · exact if_pos hi

theorem filterOf_outOfRange {f i0 i1 : Byte} (h : 1 < f.toNat ∨ f = 1 ∧ 2047 < le16 i0 i1) (g : Byte) :
    filterOf f i0 i1 g = none := by
  rcases h with hf | ⟨rfl, hi⟩
  · unfold filterOf
    rw [flagOf_above hf]
  · exact if_neg (Nat.not_le.2 hi)

theorem tallyOf_eq {en k f i0 i1 g : Byte} {kind : Event} {filter : Option Handle} (hen : en.toNat ≤ 1)
    (hk : kind.code = k.toNat)
    (hf : f = 0 ∧ filter = none ∨ f = 1 ∧ le16 i0 i1 ≤ 2047 ∧ filter = some ⟨le16 i0 i1, g⟩) (count : List Byte) :
    tallyOf en k f i0 i1 g count = some ⟨decide (en = 1), kind, filter, BitVec.ofNat 40 (leNat count)⟩ := by
  unfold tallyOf
  rw [flagOf_le_one hen, eventOf_code hk, filterOf_eq hf]

/-- One field out of range, and the body spells no tally. -/
theorem tallyOf_outOfRange {en k f i0 i1 : Byte}
    (h : 1 < en.toNat ∨ 15 < k.toNat ∨ 1 < f.toNat ∨ f = 1 ∧ 2047 < le16 i0 i1) (g : Byte) (count : List Byte) :
    tallyOf en k f i0 i1 g count = none := by
  unfold tallyOf
  rcases h with h | h | h
  · rw [flagOf_above h]
  · rw [eventOf_above h]
    cases flagOf en <;> rfl
  · rw [filterOf_outOfRange h]
    cases flagOf en <;> cases eventOf k <;> rfl

/-! ### The order -/

theorem takeOrder_tallySet (p : Port) (n : Byte) {en k f i0 i1 g c0 c1 c2 c3 c4 : Byte} {v : Tally} (u : State)
    {one : Bool} (hn : flagOf n = some one) (hv : tallyOf en k f i0 i1 g [c0, c1, c2, c3, c4] = some v) :
    takeOrder p .tallySet [n, en, k, f, i0, i1, g, c0, c1, c2, c3, c4] u =
      ⟨.ok, .tally (u.tally one), u.setTally one v⟩ := by
  simp only [takeOrder, tallySetOrder, hn, hv]

theorem takeOrder_tallySet_badField (p : Port) {n en k f i0 i1 : Byte} (g c0 c1 c2 c3 c4 : Byte) (u : State)
    (h : 1 < n.toNat ∨ 1 < en.toNat ∨ 15 < k.toNat ∨ 1 < f.toNat ∨ f = 1 ∧ 2047 < le16 i0 i1) :
    takeOrder p .tallySet [n, en, k, f, i0, i1, g, c0, c1, c2, c3, c4] u = refuse .badField u := by
  rcases h with h | h
  · simp only [takeOrder, tallySetOrder, flagOf_above h]
  · simp only [takeOrder, tallySetOrder, tallyOf_outOfRange h]
    cases flagOf n <;> rfl

/-- Settles O53: a body with a field out of range spells no tally, and any other spells the one that replaces tally 0 or
tally 1. -/
theorem tallySetWritesOneTally : Obligations.TallySetWritesOneTally := by
  intro p tag n en k f i0 i1 g c0 c1 c2 c3 c4 s u hs hu
  refine ⟨_, exec_eq_respond rfl (by decide) hs hu rfl, fun hbad => ?_, fun kind filter v hn hen hk hf hv => ?_⟩
  · rw [takeOrder_tallySet_badField p g c0 c1 c2 c3 c4 u hbad]
    exact refused_respond u p _ tag _
  · subst hv
    rw [takeOrder_tallySet p n u (flagOf_le_one hn) (tallyOf_eq hen hk hf _)]
    refine ⟨?_, ?_⟩
    all_goals
      rintro rfl
      exact ⟨answered_respond u p _ tag _ rfl, rfl⟩

end Sys2Proof.Machine
end

section
/-! SUPPORT. The condition bits and the result codes (R190, R191): each condition has a bit of its own in its set, and
no order taken answers SKIPPED, which stands for a sub-order left out of a batch (R166). -/

namespace Sys2Proof.Machine

/-! ### The bits of the conditions (R191) -/

/-- The context conditions in the order of their bits. -/
def Cond.table : List Cond :=
  [.firstCell, .noFirstCell, .stale, .rateChanged, .rateRefused, .handoverDone, .handoverFailed, .shed, .readmitted,
    .faulted, .clipping, .retired]

/-- The port conditions in the order of their bits. -/
def PortCond.table : List PortCond := [.sweepDone, .laneOut, .laneBack, .faultCaptured, .partnerSilent, .partnerLive]

theorem Cond.getElem?_table (k : Cond) : Cond.table[k.bit]? = some k := by cases k <;> rfl

theorem PortCond.getElem?_table (k : PortCond) : PortCond.table[k.bit]? = some k := by cases k <;> rfl

theorem Cond.bit_lt (k : Cond) : k.bit < 12 := (List.getElem?_eq_some_iff.1 k.getElem?_table).1

theorem PortCond.bit_lt (k : PortCond) : k.bit < 6 := (List.getElem?_eq_some_iff.1 k.getElem?_table).1

theorem Cond.bit_inj {k j : Cond} : k.bit = j.bit ↔ j = k :=
  ⟨fun h => Option.some.inj (by rw [← j.getElem?_table, ← h, k.getElem?_table]), fun h => h ▸ rfl⟩

theorem PortCond.bit_inj {k j : PortCond} : k.bit = j.bit ↔ j = k :=
  ⟨fun h => Option.some.inj (by rw [← j.getElem?_table, ← h, k.getElem?_table]), fun h => h ▸ rfl⟩

theorem CondSet.has_add (x : CondSet) (k j : Cond) : (x.add k).has j = (x.has j || decide (j = k)) := by
  simp [CondSet.has, CondSet.add, CondSet.one, BitVec.getLsbD_twoPow, k.bit_lt, Cond.bit_inj]

theorem PortCondSet.has_add (x : PortCondSet) (k j : PortCond) : (x.add k).has j = (x.has j || decide (j = k)) := by
  simp [PortCondSet.has, PortCondSet.add, BitVec.getLsbD_twoPow, k.bit_lt, PortCond.bit_inj]

/-! ### The results of orders (R164, R190) -/

/-- An order that was taken: its result is another than SKIPPED (R190). -/
structure Taken.NotSkipped (r : Taken) : Prop where
  ne_skipped : r.result ≠ .skipped

namespace Taken.NotSkipped

theorem refused {e : Result} (h : e ≠ .skipped) (u : State) : (refuse e u).NotSkipped := ⟨h⟩

theorem named {act : Nat → Taken} (h : ∀ i, (act i).NotSkipped) (i0 i1 g : Byte) (b : Bool) (u : State) :
    (Machine.named i0 i1 g b u act).NotSkipped := by
  unfold Machine.named
  split
  · exact refused (by decide) u
  · split
    · exact refused (by decide) u
    · exact h _

theorem ownerChecked {act : Nat → Taken} (h : ∀ i, (act i).NotSkipped) (p : Port) (i0 i1 g : Byte) (b : Bool)
    (u : State) : (Machine.ownerChecked p i0 i1 g b u act).NotSkipped :=
  named (fun i => by
    unfold Machine.owned
    split
    · exact h i
    · exact refused (by decide) u) i0 i1 g b u

end Taken.NotSkipped

open Taken.NotSkipped

/-- An order about one context is refused by its length, by checks 3 to 5, or in a branch of its own, and every branch
names its result. -/
theorem notSkipped_ownerOrder (p : Port) (c : OrderCode) (body : List Byte) (u : State) (hc : ownerOrder c = true) :
    (takeOrder p c body u).NotSkipped := by
  cases c <;> first | (cases hc; done) | simp only [takeOrder, retireOrder, retireContext, armOrder, armContext,
    holdOrder, holdContext, resumeOrder, resumeContext, setPriorityOrder, prioritize, bindSlotOrder, bindSlotTo,
    bindStreamOrder, bindStreamTo, unbindSlotOrder, unbindSlotOf, unbindStreamOrder, unbindStreamOf, relinkOrder,
    relinkContext, relinkFrom, setProfileOrder, setProfileOf, setRatesetOrder, setRatesetOf, replaceRateset,
    moveRateset, setRateOrder, setRateOf, setRatePending, setRateAtOnce, handoverPrepareOrder, prepareHandover,
    handoverCommitOrder, commitHandover, handoverCancelOrder, cancelHandover, setSupervisionOrder, setSupervisionOf,
    setLevelOrder, setLevelOf, setPlayoutOrder, setPlayoutOf]
  all_goals
    split
    · refine Taken.NotSkipped.ownerChecked (fun i => ?_) ..
      repeat' split
      all_goals exact ⟨nofun⟩
    · exact refused (by decide) u

/-- Every other order, behind checks 3 and 4 where it names a context. -/
theorem notSkipped_partOrder (p : Port) (c : OrderCode) (body : List Byte) (u : State) (hc : ownerOrder c = false) :
    (takeOrder p c body u).NotSkipped := by
  cases c <;> first | (cases hc; done) | simp only [takeOrder, keepaliveOrder, superviseSetOrder, noticesOrder,
    resetOrder, adoptOrder, adoptContext, openOrder, openAt, queryOrder, profileLoadOrder, loadProfile,
    profileClearOrder, clearProfile, profileReadOrder, levelDefaultsOrder, laneServiceOrder, laneOut, laneIn, laneReply,
    faultReadOrder, sweepOrder, startSweep, sweepAbortOrder, sweepContinueOrder, sweepStatusOrder, tallySetOrder,
    tallyReadOrder, inspectOrder]
  case query | adopt =>
    split
    · refine Taken.NotSkipped.named (fun i => ?_) ..
      repeat' split
      all_goals exact ⟨nofun⟩
    · exact refused (by decide) u
  all_goals
    repeat' split
    all_goals exact ⟨nofun⟩

/-- No code's order answers SKIPPED, an unknown code's neither (R164, R190). -/
theorem notSkipped_takeCode (p : Port) (code : Byte) (body : List Byte) (s : State) :
    (takeCode p code body s).NotSkipped := by
  unfold takeCode
  split
  · next c _ =>
    cases hc : ownerOrder c with
    | true => exact notSkipped_ownerOrder p c body s hc
    | false => exact notSkipped_partOrder p c body s hc
  · exact refused (by decide) s

/-- Settles O54: the tables are as the codes stand, a condition added is the one bit set (`CondSet.has_add`,
`PortCondSet.has_add`), and no order taken is skipped (`notSkipped_takeCode`). -/
theorem conditionAndResultCodes : Obligations.ConditionAndResultCodes :=
  ⟨by decide, by decide, CondSet.has_add, PortCondSet.has_add, by decide, fun p code body s =>
    (notSkipped_takeCode p code body s).ne_skipped⟩

end Sys2Proof.Machine
end

section
/-! SUPPORT. The canonical form of the tables through every step (log 26): what a command does is a chain of acts, and no
act spoils it. -/

namespace Sys2Proof.Machine

open State

/-- No act spoils the canonical form of a table: a move by `Move.canonical`, a port's record stands in no table, and a
hard reset empties every table. -/
theorem Act.canonical {s t : State} (h : Act s t) (hs : s.canonical = true) : t.canonical = true := by
  cases h with
  | move hmove => exact hmove.canonical hs
  | port p v => exact hs
  | hardReset => rfl

/-- Settles O55: every act keeps the canonical form (`Act.canonical`), and the queue of commands stands in no table. -/
theorem canonicalTablesKept : Obligations.CanonicalTablesKept := fun s t hs ht =>
  step_keeps (P := fun u => u.canonical = true) (fun _ _ hact => hact.canonical) (fun _ _ hu => hu) s t hs ht

end Sys2Proof.Machine
end
